-- ==== Sys2Proof/Word.lean ====
section
/-! DEFINITION. The word types of the K7 and their plainest arithmetic (spec 00 R6, 01 R12, 09 R237). -/

namespace Sys2Proof

/-- A scalar register, a special register, a message word (08 R219). -/
abbrev Word := BitVec 64
/-- One byte of memory. -/
abbrev Byte := BitVec 8
/-- One 32-bit instruction word (01 R12). -/
abbrev IWord := BitVec 32
/-- A vector register (09 R237). -/
abbrev VReg := BitVec 512
/-- A virtual address, and the program counter (01 R12, 02 R50). -/
abbrev VAddr := BitVec 56

end Sys2Proof
end

