-- ==== Sys2Proof/Syntax.lean ====
section
/-! DEFINITION. The instructions of the K7 (spec 01, 05 to 16, 18, 20, 21) and the events and host commands
of the device (spec 95, 24): one constructor per row of spec/opcode_table.json. A register number is a
bit field of five bits; a mask or a queue register is three bits wide, because the codes 8 to 31 raise
ILLOP (01 R20). -/

namespace Sys2Proof

/-- A scalar or vector register code (01 Table 1.8). -/
abbrev Reg := BitVec 5
/-- A mask or queue register code, or an execution mask (01 R20, R28). -/
abbrev SReg := BitVec 3

/-- The type codes of 01 Table 1.9. -/
inductive Ty where
  | i8 | i16 | i32 | i64 | n8 | n16 | n32 | n64 | f16 | bf16 | f32 | f64 | e4m3 | e5m2 | blk4 | blk8 | mld
  deriving DecidableEq, Repr

/-- The scope codes of 01 Table 1.10. -/
inductive Scope where
  | task | core | quad | bench | row | die | pkg | host | board | pod | pool | sys
  deriving DecidableEq, Repr

/-- The rounding codes of 01 Table 1.11. -/
inductive RM where
  | dflt | rn | rz | ru | rd | ra | rs
  deriving DecidableEq, Repr

/-- The compare conditions of 09 R248. -/
inductive Cond where
  | eq | ne | lt | le | gt | ge | un | ord
  deriving DecidableEq, Repr

/-- The scalar access widths of 05 R146: 1, 2, 4 and 8 bytes. -/
inductive Width where
  | w1 | w2 | w4 | w8
  deriving DecidableEq, Repr

/-- Rounding, flushing and execution mask of a floating instruction (01 R26 to R28). -/
structure FMod where
  rm : RM
  fzi : Bool
  fzo : Bool
  mask : SReg
  deriving DecidableEq, Repr

/-- ACQ, REL and SCOPE of an instruction that gives both a meaning (01 R24, R25). -/
structure AcqRel where
  acq : Bool
  rel : Bool
  scope : Scope
  deriving DecidableEq, Repr

/-- A memory operand with an index: x[a] + (x[b] << sh) + imm (05 R143, 07 R211). -/
structure MemOp where
  a : Reg
  b : Reg
  sh : BitVec 2
  imm : BitVec 32
  deriving DecidableEq, Repr

/-- The kinds of access that 02 Table 2.7 tells apart. -/
inductive AccKind where
  | load | store | atomic | fetch
  deriving DecidableEq, Repr

/-- The atomic operations of 05 Table 5.2. -/
inductive AmoOp where
  | add | and | or | xor | min | max | swp | cas
  deriving DecidableEq, Repr

/-- What a REMOTE_ATOMIC event is (05 R156): one of a peer performed at a home slice of this package, or the
peer's answer to the `k`-th outstanding remote atomic of this package: the old value and the logical time that the atomic took there
(04 R134), or its fault. -/
inductive RemoteEv where
  | perform (op : AmoOp) (ty : Ty) (pa : Nat) (b c : BitVec 64) (rpl : Bool) (pkg core : Nat) (ch : BitVec 6) (ea : BitVec 64)
  | replied (k : Nat) (old : BitVec 64) (stamp : Nat)
  | faulted (k : Nat) (cause : BitVec 16)
  deriving DecidableEq, Repr

/-- A host access to a device-bias page (02 Table 2.9): a read of one line, or a write of bytes. -/
inductive HostAcc where
  | read (pa : Nat)
  | write (pa : Nat) (bytes : List (BitVec 8))
  deriving DecidableEq, Repr

/-- A line read or write of a peer's copy or RDB at this package (04 R134, 02 R48). -/
inductive PeerAcc where
  | read (pkg pa n : Nat)
  | write (pkg pa : Nat) (bytes : List (BitVec 8))
  deriving DecidableEq, Repr

/-- A message's arrival: the `k`-th in flight, or one of another package's member of a group, a refusal where `ref` is true; and
the news that a message of this package's member was lost there (14 R324, R326; 24 R458). -/
inductive MsgEv where
  | flight (k : Nat)
  | peer (group : Nat) (ref : Bool) (hdr : BitVec 64) (pay : List (BitVec 64)) (stamp pkg core : Nat)
      (parent index jref : BitVec 64)
  | lost (group : Nat)
  deriving DecidableEq, Repr

/-- An arrival at a barrier: the `k`-th class 7 item, or another package's member's arrival or installation at a
barrier of the group (16 R358, 24 R458). -/
inductive BarEv where
  | item (k : Nat)
  | peerArrive (group b : Nat) (drop : Bool) (pkg : Nat)
  | peerInstall (group b lo n : Nat)
  deriving DecidableEq, Repr

/-- An update of an incumbent copy: the `k`-th class 7 item, or the group's incumbent as another package's member
improved it (20 R392). -/
inductive IncEv where
  | item (k : Nat)
  | peer (group : Nat) (max : Bool) (v p : BitVec 64)
  deriving DecidableEq, Repr

/-- A submission that starts: its number among those waiting, and the words of the program's data that the launch places in PERS: logical
core, offset and word (15 R341; DEDUCED, log 114). -/
structure LaunchEv where
  sub : Nat
  pers : List (Nat × Nat × Word) := []
  deriving DecidableEq, Repr

/-- The fields a hypervisor write to a lottery block gives (18 Table 18.4); `none` is a field not written. -/
structure LottWrite where
  wtab : Option (List (BitVec 8))
  alloc : Option (BitVec 64)
  gw : Option (BitVec 7)
  deriving DecidableEq, Repr

/-- A partition map entry as it is written (02 Table 2.8), with its DTBASE (02 R59). -/
structure PMapEnt where
  v : Bool
  rd : Bool
  w : Bool
  x : Bool
  dt : Bool
  gbase : Nat
  hbase : Nat
  limit : Nat
  dtbase : Nat
  deriving DecidableEq, Repr

/-- A format window as it is written (03 Table 3.8); bases and length in bytes. -/
structure Window where
  v : Bool
  dbase : Nat
  dlimit : Nat
  sbase : Nat
  layout : BitVec 4
  deriving DecidableEq, Repr

/-- The rows of spec/opcode_table.json. Processor instructions first, in the table's order; then ILLOP's
place is among them; the device's events and the host's commands follow. -/
inductive Instr where
  -- 08 Table 8.1
  | add (d a b : Reg) | addw (d a b : Reg) | sub (d a b : Reg) | subw (d a b : Reg)
  | and (d a b : Reg) | or (d a b : Reg) | xor (d a b : Reg) | andn (d a b : Reg)
  | orn (d a b : Reg) | xnor (d a b : Reg) | min (d a b : Reg) | max (d a b : Reg)
  | minn (d a b : Reg) | maxn (d a b : Reg) | slt (d a b : Reg) | sltn (d a b : Reg)
  | seq (d a b : Reg) | sne (d a b : Reg) | sel (d a b c : Reg) | addco (d a b : Reg)
  -- 08 Table 8.2
  | mul (d a b : Reg) | mulw (d a b : Reg) | mulh (d a b : Reg) | mulhn (d a b : Reg)
  | mulhsn (d a b : Reg) | div (d a b : Reg) | divw (d a b : Reg) | divn (d a b : Reg)
  | divnw (d a b : Reg) | rem (d a b : Reg) | remw (d a b : Reg) | remn (d a b : Reg)
  | remnw (d a b : Reg) | madd (d a b c : Reg)
  -- 08 Table 8.4
  | sll (d a b : Reg) (imm : BitVec 32) | sllw (d a b : Reg) (imm : BitVec 32)
  | srl (d a b : Reg) (imm : BitVec 32) | srlw (d a b : Reg) (imm : BitVec 32)
  | sra (d a b : Reg) (imm : BitVec 32) | sraw (d a b : Reg) (imm : BitVec 32)
  | rol (d a b : Reg) (imm : BitVec 32) | ror (d a b : Reg) (imm : BitVec 32)
  | clz (d a : Reg) | ctz (d a : Reg) | popc (d a : Reg) | brev (d a : Reg) | bswap (d a : Reg)
  | bfx (d a b c : Reg) (io iw : BitVec 7) | bfxn (d a b c : Reg) (io iw : BitVec 7)
  | bfi (d a b c : Reg) (io iw : BitVec 7)
  -- 08 Table 8.6
  | addi (d a : Reg) (imm : Word) | andi (d a : Reg) (imm : Word) | ori (d a : Reg) (imm : Word)
  | xori (d a : Reg) (imm : Word) | li (d : Reg) (imm : Word) | pcadd (d : Reg) (imm : Word)
  -- 08 Tables 8.7 and 8.8; offsets in words
  | beq (a b : Reg) (off : BitVec 46) | bne (a b : Reg) (off : BitVec 46)
  | blt (a b : Reg) (off : BitVec 46) | bge (a b : Reg) (off : BitVec 46)
  | bltn (a b : Reg) (off : BitVec 46) | bgen (a b : Reg) (off : BitVec 46)
  | br (off : BitVec 24) | call (off : BitVec 24)
  | jr (a : Reg) | jalr (d a : Reg) | loop (a : Reg) (off : BitVec 32)
  -- 01 R31, R32
  | illop (w : IWord)
  -- 09 Table 9.5; `vec` tells OP 0x15 from OP 0x14, `sc` is the variant .s
  | fadd (vec sc : Bool) (ty : Ty) (f : FMod) (d a b : Reg) | fsub (vec sc : Bool) (ty : Ty) (f : FMod) (d a b : Reg)
  | fmul (vec sc : Bool) (ty : Ty) (f : FMod) (d a b : Reg) | fdiv (vec sc : Bool) (ty : Ty) (f : FMod) (d a b : Reg)
  | fsqrt (vec : Bool) (ty : Ty) (f : FMod) (d a : Reg)
  | fma (vec sc : Bool) (ty : Ty) (f : FMod) (d a b c : Reg) | fms (vec sc : Bool) (ty : Ty) (f : FMod) (d a b c : Reg)
  | fnma (vec sc : Bool) (ty : Ty) (f : FMod) (d a b c : Reg) | fnms (vec sc : Bool) (ty : Ty) (f : FMod) (d a b c : Reg)
  | fmin (vec sc : Bool) (ty : Ty) (fzi : Bool) (mask : SReg) (d a b : Reg)
  | fmax (vec sc : Bool) (ty : Ty) (fzi : Bool) (mask : SReg) (d a b : Reg)
  | fabs (vec : Bool) (ty : Ty) (fzi : Bool) (mask : SReg) (d a : Reg)
  | fneg (vec : Bool) (ty : Ty) (fzi : Bool) (mask : SReg) (d a : Reg)
  | fsgnj (vec sc : Bool) (ty : Ty) (fzi : Bool) (mask : SReg) (d a b : Reg)
  -- 09 Table 9.7
  | vadd (sc : Bool) (ty : Ty) (mask : SReg) (d a b : Reg) | vsub (sc : Bool) (ty : Ty) (mask : SReg) (d a b : Reg)
  | vadds (sc : Bool) (ty : Ty) (mask : SReg) (d a b : Reg) | vsubs (sc : Bool) (ty : Ty) (mask : SReg) (d a b : Reg)
  | vmul (sc : Bool) (ty : Ty) (mask : SReg) (d a b : Reg) | vmulh (sc : Bool) (ty : Ty) (mask : SReg) (d a b : Reg)
  | vmadd (sc : Bool) (ty : Ty) (mask : SReg) (d a b c : Reg)
  | vmin (sc : Bool) (ty : Ty) (mask : SReg) (d a b : Reg) | vmax (sc : Bool) (ty : Ty) (mask : SReg) (d a b : Reg)
  | vabs (ty : Ty) (mask : SReg) (d a : Reg)
  | vand (sc : Bool) (ty : Ty) (mask : SReg) (d a b : Reg) | vor (sc : Bool) (ty : Ty) (mask : SReg) (d a b : Reg)
  | vxor (sc : Bool) (ty : Ty) (mask : SReg) (d a b : Reg) | vandn (sc : Bool) (ty : Ty) (mask : SReg) (d a b : Reg)
  | vsll (sc : Bool) (ty : Ty) (mask : SReg) (d a b : Reg) | vsrl (sc : Bool) (ty : Ty) (mask : SReg) (d a b : Reg)
  | vsra (sc : Bool) (ty : Ty) (mask : SReg) (d a b : Reg)
  -- 09 Table 9.8
  | fcmp (vec : Bool) (cond : Cond) (ty : Ty) (fzi : Bool) (mask : SReg) (d a b : Reg)
  | icmp (cond : Cond) (ty : Ty) (mask : SReg) (d : SReg) (a b : Reg)
  | mand (d a b : SReg) | mor (d a b : SReg) | mxor (d a b : SReg) | mandn (d a b : SReg) | mnot (d a : SReg)
  | mset (d : SReg) (a : Reg) | mget (d : Reg) (a : SReg) | mpopc (d : Reg) (a : SReg) | mfirst (d : Reg) (a : SReg)
  -- 09 Table 9.9
  | vbcast (ty : Ty) (mask : SReg) (d a : Reg) | vext (ty : Ty) (d a b : Reg) | vins (ty : Ty) (d a b : Reg)
  | vperm (ty : Ty) (mask : SReg) (d a b c : Reg) | vmov (ty : Ty) (mask : SReg) (d a : Reg)
  | vradd (ty : Ty) (f : FMod) (d a : Reg) | vrmin (ty : Ty) (fzi : Bool) (mask : SReg) (d a : Reg)
  | vrmax (ty : Ty) (fzi : Bool) (mask : SReg) (d a : Reg)
  -- 09 Table 9.10
  | fexp (vec : Bool) (ty : Ty) (f : FMod) (d a : Reg) | fexp2 (vec : Bool) (ty : Ty) (f : FMod) (d a : Reg)
  | flog (vec : Bool) (ty : Ty) (f : FMod) (d a : Reg) | flog2 (vec : Bool) (ty : Ty) (f : FMod) (d a : Reg)
  | frcp (vec : Bool) (ty : Ty) (f : FMod) (d a : Reg) | frsq (vec : Bool) (ty : Ty) (f : FMod) (d a : Reg)
  | fsin (vec : Bool) (ty : Ty) (f : FMod) (d a : Reg) | fcos (vec : Bool) (ty : Ty) (f : FMod) (d a : Reg)
  | ftanh (vec : Bool) (ty : Ty) (f : FMod) (d a : Reg) | fsigm (vec : Bool) (ty : Ty) (f : FMod) (d a : Reg)
  | ferf (vec : Bool) (ty : Ty) (f : FMod) (d a : Reg)
  -- 09 Table 9.12
  | cvt (vec : Bool) (src dst : Ty) (part : BitVec 3) (f : FMod) (d a : Reg)
  | cvts (vec : Bool) (src dst : Ty) (part : BitVec 3) (mask : SReg) (d a : Reg)
  | cvtb (src dst : Ty) (part : BitVec 3) (mode : BitVec 2) (rm : RM) (fzi : Bool) (d a c : Reg)
  | cvfb (src dst : Ty) (part : BitVec 3) (rm : RM) (fzo : Bool) (d a c : Reg)
  -- 07 Table 7.3
  | ldl (w : Width) (d : Reg) (m : MemOp) | ldlz (w : Width) (d : Reg) (m : MemOp)
  | vldl (ty : Ty) (mask : SReg) (d : Reg) (m : MemOp) | stl (w : Width) (d : Reg) (m : MemOp)
  | vstl (ty : Ty) (mask : SReg) (d : Reg) (m : MemOp) | ldsb (d : Reg) (m : MemOp) | stsb (d : Reg) (m : MemOp)
  | spill (d : Reg) | spillv (d : Reg) | fill (d : Reg) | fillv (d : Reg)
  | qpop (d : Reg) (a : SReg) | qpush (a : SReg) (b : Reg) | qcnt (d : Reg) (a : SReg) | qpeek (d : Reg) (a : SReg)
  -- 05 Table 5.1; `acq` or `rel` is none when the bit is clear
  | ld (w : Width) (acq : Option Scope) (d : Reg) (m : MemOp) | ldz (w : Width) (acq : Option Scope) (d : Reg) (m : MemOp)
  | vld (ty : Ty) (acq : Option Scope) (mask : SReg) (d : Reg) (m : MemOp)
  | ldv (d c : Reg) (m : MemOp) | pref (l1 : Bool) (m : MemOp)
  | st (w : Width) (rel : Option Scope) (d : Reg) (m : MemOp)
  | vst (ty : Ty) (rel : Option Scope) (mask : SReg) (d : Reg) (m : MemOp)
  | amoadd (ty : Ty) (rpl rn : Bool) (ar : AcqRel) (d a b : Reg) (imm : BitVec 32)
  | amoand (ty : Ty) (rpl : Bool) (ar : AcqRel) (d a b : Reg) (imm : BitVec 32)
  | amoor (ty : Ty) (rpl : Bool) (ar : AcqRel) (d a b : Reg) (imm : BitVec 32)
  | amoxor (ty : Ty) (rpl : Bool) (ar : AcqRel) (d a b : Reg) (imm : BitVec 32)
  | amomin (ty : Ty) (rpl : Bool) (ar : AcqRel) (d a b : Reg) (imm : BitVec 32)
  | amomax (ty : Ty) (rpl : Bool) (ar : AcqRel) (d a b : Reg) (imm : BitVec 32)
  | amoswp (ty : Ty) (rpl : Bool) (ar : AcqRel) (d a b : Reg) (imm : BitVec 32)
  | amocas (ty : Ty) (rpl : Bool) (ar : AcqRel) (d a b c : Reg) (imm : BitVec 32)
  | cstore4 (sel : BitVec 4) (d a b c : Reg) (imm : BitVec 32)
  | fence (ar : AcqRel) | publ (a : Reg) (imm : BitVec 32)
  -- 06 Table 6.3
  | copy (ar : AcqRel) (b : Reg) | copyGath (ar : AcqRel) (b : Reg) | copyScat (ar : AcqRel) (b : Reg)
  | redc (op : BitVec 3) (ty : Ty) (rm : RM) (fzi fzo : Bool) (ar : AcqRel) (b : Reg)
  | rdb (ar : AcqRel) (d a b c : Reg) (imm : BitVec 32)
  | cres (a : Reg) | cdrop (a : Reg)
  | mon (d a b : Reg) (imm : BitVec 32) | monx (d : Reg) | cvrel (a : SReg) (b : Reg) | cvstat (d a : Reg)
  -- 11 Table 11.4, 12 Table 12.3; `bs` is the B-slot
  | mma (bs : BitVec 2) (ty : Ty) (rm : RM) (fzi fzo : Bool) (d a b c : Reg)
  | mmaz (bs : BitVec 2) (ty : Ty) (rm : RM) (fzi fzo : Bool) (d a b c : Reg)
  | mmag (bs : BitVec 2) (ty : Ty) (rm : RM) (fzi fzo : Bool) (d a b c e : Reg)
  | bld (bs : BitVec 2) (ty : Ty) (fzi : Bool) (a c : Reg) | bfree (bs : BitVec 2) (c : Reg)
  | route (b c : Reg)
  | mlbe (bs : BitVec 2) (mean : Bool) (d a c e : Reg)
  | noise (v : BitVec 2) (d a b c e : Reg) (n0 : BitVec 8) (cnt : BitVec 9)
  -- 13 Table 13.2
  | endt | dgrd (d : Reg) | dgmix (a : Reg) | slstat (d : Reg)
  -- 14 Table 14.5
  | send (rel : Option Scope) (a b : Reg) | sendd (rel : Option Scope) (a b c : Reg)
  | sendv (rel : Option Scope) (a b : Reg) | reply (rel : Option Scope) (a b : Reg)
  | maskc (a : Reg) | unmaskc (a : Reg) | park (a : Reg) | unpark (a : Reg) | unparkDrop (a : Reg)
  | htset (a b : Reg)
  -- 16 Table 16.5
  | fork (rel : Option Scope) (a b c : Reg) | join (d a b c : Reg) | jret (a : Reg) | barinit (a b c : Reg)
  | bara (a b : Reg) | bard (a : Reg) | stage (a : Reg) | launch (a b : Reg)
  -- 18 Table 18.6
  | draw (d a b : Reg) | reseed | excq (d a b : Reg) | excqp (d a b : Reg) | wset (a : Reg)
  -- 20 Table 20.2
  | incumbMin (a b : Reg) | incumbMax (a b : Reg) | rdinc (d : Reg) | rdincPay (d : Reg) | rdincSt (d : Reg)
  | killpt | bound (a : Reg)
  -- 21 Table 21.11
  | trap (a : Reg) | sysc (a b : Reg) | rds (d : Reg) (num : BitVec 12) | wrs (a : Reg) (num : BitVec 12)
  | tlbinv (a : Reg) | tlbinvCtx | haltSusp (a b : Reg) | haltHalt (a b : Reg) | haltRes (a b : Reg) | fltpop (d : Reg)
  -- 10 R261, R269
  | jig (a : Reg) (bodym1 : BitVec 4) (jstep : BitVec 5) (wbase : BitVec 5) (wsize : BitVec 6) (ast : BitVec 8)
  | unclamp | clw (d : Reg)
  -- events of the device (95)
  | commit (c : Nat) | lease (c line : Nat) | walk (c : Nat) (va : VAddr) (k : AccKind)
  | l2Fill (slice line owner : Nat) | lotteryGrant (cls : BitVec 8) (idx : Nat) (want : BitVec 64)
  | pinmax (line : Nat) | hotLineWindow (thr len : Nat) | recall (line die : Nat) | remoteAtomic (e : RemoteEv)
  | hostAccess (h : HostAcc) | biasSwitch (page : Nat) | biasTimeout (page : Nat) | flitReplay (line attempts : Nat)
  | engineCommandStart (id : Nat) | culvertReserve (id : Nat) | feedConsume (id : Nat) | engineCompletion (id : Nat)
  | culvertPush (c n : Nat) | heldMessageAccept (c : Nat) | monitorResend (k : Nat)
  | matrixGrant (bench : Nat) | matrixCommandEnd (bench : Nat)
  | messageDelivery (e : MsgEv) | senddDelay (c k : Nat) | taskSelect (c : Nat) | clampForm (c : Nat)
  | budget (c : Nat) | steal (c : Nat) (ch : BitVec 6) | joinArrive (k : Nat) | barrierArrival (e : BarEv)
  | incumbentOffer (k : Nat) | incumbentUpdate (e : IncEv) | launchSubmission (e : LaunchEv) | instanceEnd (id : Nat)
  | coreSuspend (c : Nat) | saveRowStreamed (part ctx row : Nat) | divertedArrival (k : Nat)
  | restoreRowLoaded (part ctx row : Nat) | hang (part ctx : Nat)
  -- host commands (24 Table 24.5): the accepted command `seq` of function `fn` starts
  | launchCommand (fn seq : Nat) | suspend (fn seq : Nat) | haltCommand (fn seq : Nat) | resume (fn seq : Nat)
  | bias (fn seq : Nat) | reset (fn seq : Nat) | ckpt (fn seq : Nat) | fenceCommand (fn seq : Nat)
  | ctxnew (fn seq : Nat) | ctxdel (fn seq : Nat) | mapinv (fn seq : Nat) | group (fn seq : Nat)
  -- configuration and platform events (24)
  | tailWrite (fn : Nat) (v : Word) | lotteryConfigWrite (cls : BitVec 8) (idx : Nat) (w : LottWrite)
  | seedWrite (owner : Nat) (seed : Word) | partitionMapWrite (part idx : Nat) (e : PMapEnt)
  | formatWindowWrite (tier w : Nat) (e : Window) | diversionEntryWrite (part ctx : Nat) (e : BitVec 128)
  | configRegisterWrite (off : Nat) (v : Word) | powerLimit (watts : Nat) | thermalLimit (hot : Bool)
  | spdmRequest (fn idx : Nat) | deviceReset (fwOk : Bool) | instructionFetchFault (va : VAddr)
  | hostAcknowledge (n : Nat) | peerCopyAccess (p : PeerAcc) | peerWriteAcknowledge (n : Nat)
  | globalPersistentFlush (ok : Bool) | voltageLoop (cycles : Nat) | equalisationLoop (lane : Nat)
  deriving DecidableEq, Repr

end Sys2Proof
end

