-- ==== Sys2Proof/Config.lean ====
section
/-! DEFINITION. What an implementation fixes and what the spec leaves open. Nothing here has a value that a proof
can see: an opaque constant is a free value (DESIGN CHOICE, log 3). -/

namespace Sys2Proof.Config

/-- A 64-bit value the spec calls undefined (00 R11): the `n`-th that the machine took (DESIGN CHOICE, log 3). -/
opaque freeWord : Nat → BitVec 64
/-- A 512-bit undefined value (DESIGN CHOICE, log 3). -/
opaque freeVec : Nat → BitVec 512
/-- An undefined byte (DESIGN CHOICE, log 3). -/
opaque freeByte : Nat → BitVec 8
/-- A choice that 02 R61 and R65 leave to the implementation: whether a cached translation is still held (DESIGN CHOICE, log 10). -/
opaque freeBool : Nat → Bool
/-- VerTok of 05 R151: for every key a bijection on 64-bit values, otherwise the implementation's own (DESIGN CHOICE, log 12). -/
opaque verTok : BitVec 64 → Equiv.Perm (BitVec 64)
/-- The `n`-th draw from the device's entropy source (18 R384, 24 R447, 05 R151). DESIGN CHOICE: log 7. -/
opaque entropy : Nat → BitVec 64
/-- An SPDM report signed with the identity key (24 R457): function, index and the measured words (DESIGN CHOICE, log 13). -/
opaque spdmSign : Nat → Nat → List (BitVec 64) → List (BitVec 8)
/-- Part number and revision of the identity block (24 Table 24.1), which no rule gives (DESIGN CHOICE, log 16). -/
opaque ident : Nat → BitVec 64
/-- The hash that names the helper slice of a line on a die, under the package key (05 R163), which no rule gives
(DESIGN CHOICE, log 8). -/
opaque helperSlice : BitVec 64 → Nat → Nat → Nat
/-- Whether a hypervisor manages the package's partition maps (02 R59; DESIGN CHOICE, log 6). -/
opaque hypervisor : Bool
/-- Without a hypervisor, the base and the length of the partition's memory that the firmware maps identically (02 R59;
DESIGN CHOICE, log 6). -/
opaque fwRange : Nat × Nat
/-- The SHA-256 digest of the firmware image that a boot loads, by FWADDR and the count of entropy draws before it (24 R456, R457;
DESIGN CHOICE, log 13). -/
opaque fwDigest : BitVec 64 → Nat → BitVec 256
/-- How many lottery instances there are beside one of a class whose number no rule gives: router output ports 0x10, die-to-die ports
0x12, and the memory controllers 0x1300 + 4 × tier + die (24 Table 24.1; DESIGN CHOICE, log 19). -/
opaque lottCount : Nat → Nat
/-- The stream of what a polder image holds without a layout in the spec, where the image has no room for it or was written without it, from
the bytes of its header (21 R425, 24 R455; DESIGN CHOICE, log 15). -/
opaque imageWords : List (BitVec 8) → List Nat
/-- The same of the sideband of the scratchpads (DESIGN CHOICE, log 15). -/
opaque imageLines : List (BitVec 8) → List Nat
/-- How many corrections of one line make it a repeatedly corrected one (02 R77), which no rule says (DEDUCED, log 90). -/
opaque retireAfter : Nat
/-- The number of banks of a memory controller (18 R379), which no rule gives (DESIGN CHOICE, log 94). -/
opaque banks : Nat
/-- Whether the deep tier is a CXL memory pool that other agents share (04 Table 4.3; DEDUCED, log 30). -/
opaque deepIsPool : Bool
/-- The correctly rounded bits of a function of 09 R253 where the model's interval evaluation runs out of fuel:
function number, operand bits and rounding (DESIGN CHOICE, log 14). -/
opaque hardRound : Nat → BitVec 64 → Nat → BitVec 64

/-- Package and number of logical cores of a member of a group (24 R458): the other packages decide them (DESIGN CHOICE, log 18). -/
opaque groupMember : Nat → Nat → Nat × Nat

/-- Fuel of the interval evaluation of 09 R253: each round adds 64 bits of precision (DESIGN CHOICE, log 14). -/
def fnFuel : Nat := 12

/-- 04 R130: PINMAX in cy. -/
def pinMax : Nat := 8192
/-- 06 R183: re-sends of a refused monitor message, in cy. -/
def monResend : Nat := 256
/-- 05 R163: the window of the hot-line count, in cy. -/
def hotWindow : Nat := 4096

end Sys2Proof.Config
end

