-- ==== Sys2Proof/Machine/State.lean ====
section
/-! DEFINITION. The state of one HCK7-2048 package (spec 00 to 24), as plain data. Every logical core of every
instance, every engine, bench, home slice and host queue is here. -/

namespace Sys2Proof.Machine

/-- Why the machine stops with a fault. -/
inductive Fault where
  /-- Raised by every processor instruction when the current core runs no task: the spec gives a program counter
  only to a task (14 R333). Safe: the model stops where the hardware has nothing to run. -/
  | noTask
  deriving DecidableEq, Repr

/-- Why the machine gives no meaning. -/
inductive Refusal where
  /-- Raised by `exec` for an instruction whose meaning is not written. Safe. -/
  | notModelled (mnemonic : String)
  deriving DecidableEq, Repr

/-! ## Memory -/

/-- HOLD of 04 Table 4.1. A pin stands in the L1 of a physical core, whose number names it (04 R128); a lock belongs to the task of a
logical core, which its identifier names (04 R124). -/
inductive Hold where
  | free
  | pinned (phys : Nat)
  | locked (core : Nat)
  deriving DecidableEq, Repr

/-- The order state of a line at its home slice (04 Table 4.1), its poison mark (02 R76) and the cy at which it was
last pinned (04 R130). DESIGN CHOICE: log 1. -/
structure Line where
  wts : Nat := 0
  rts : Nat := 0
  hold : Hold := .free
  pinnedAt : Nat := 0
  poison : Bool := false
  /-- The context of the task that last pinned it (04 R130). -/
  pinCtx : Nat × Nat := (0, 0)
  deriving DecidableEq, Repr

/-- A cached translation (02 R61): page, final page, the leaf's and the map entry's permissions, ATTR, map entry,
the lead entry's final address and whether its D bit was set. -/
structure TlbEnt where
  part : Nat
  ctx : Nat
  vbase : Nat
  logsz : Nat
  pbase : Nat
  u : Bool
  x : Bool
  w : Bool
  rd : Bool
  mx : Bool
  mw : Bool
  mrd : Bool
  attr : BitVec 2
  mapi : Nat
  lead : Nat
  dseen : Bool
  /-- The level of the leaf that it came from (02 R57). -/
  lvl : Nat := 3
  /-- log2 of the size of the page that it is of; the translation itself may cover a part of it (02 R52). -/
  pglog : Nat := 16
  deriving DecidableEq, Repr

/-- A translated access: virtual and final address, ATTR, map entry, lead entry and its D bit, the partition whose map translated it,
and the level of its leaf (02 R55 to R68). -/
structure Xlat where
  va : VAddr
  pa : Nat
  attr : BitVec 2
  mapi : Nat
  lead : Nat
  dseen : Bool
  part : Nat := 0
  lvl : Nat := 3
  deriving DecidableEq, Repr

/-! ## Messages -/

/-- The place of a task in the spawn tree (16 R350, R352). -/
structure Lineage where
  root : Bool := false
  parent : Word := 0
  index : Word := 0
  path : Word := 0
  deriving DecidableEq, Repr

/-- Who produced a message; it decides what a refusal or a full mailbox does (14 R326, R330). -/
inductive MKind where
  | soft | refusal | reply | completion | monitor | culvert | continuation | fault | report | launch | halt
  | release (b : Nat)
  deriving DecidableEq, Repr

/-- A message (14 R323) with what the hardware carries beside it (R322, 16 R352, R354). -/
structure Msg where
  hdr : Word := 0
  pay : List Word := []
  kind : MKind := .soft
  stamp : Nat := 0
  inst : Nat := 0
  sPkg : Nat := 0
  sCore : Nat := 0
  lin : Lineage := {}
  jref : Word := BitVec.allOnes 64
  arr : Nat := 0
  /-- Traps of the tasks that it has started (16 R350). -/
  traps : Nat := 0
  deriving DecidableEq, Repr

/-- What a release waits for (04 R133, R135): one write to the host, a peer or the pool that is on its way; or every such write within a
scope that a command makes, named by its number. `own` says that the release is one of the core for which the command writes to the
host. And what an effect waits for that leaves after another of its commit (13 R312). -/
inductive Await where
  | write (id : Nat)
  | cmd (ack : Nat) (sc : Scope) (own : Bool)
  | left (id : Nat)
  deriving DecidableEq, Repr

/-- Where a message is between its commit and its acceptance (14 R325 to R330). -/
inductive Transit where
  | delayed (due : Nat)
  | moving
  | held
  | resend (due : Nat)
  /-- In the saved send queue of an absent core, with its state there and its remaining delay (21 R413, R421). -/
  | saved (st left : Nat)
  deriving DecidableEq, Repr

/-- A message in flight: the core whose send queue it occupies (14 R327), its destination instance and logical
core, whether its destination is still to be placed (16 R354). -/
structure Flight where
  msg : Msg
  src : Option Nat := none
  inst : Nat := 0
  lid : Nat := 0
  place : Bool := false
  st : Transit := .moving
  /-- What a release carried on the message waits for (04 R133, R135). -/
  wait : List Await := []
  /-- The agent that produced it (14 R330): kind and number. 0 a core's queue engine, 1 a row engine, 2 a home slice, 3 a bench,
  4 the dispatcher, 5 another package, 6 a barrier's hardware, 7 a package's refusal of a core that is not there. -/
  prod : Nat × Nat := (0, 0)
  /-- A release that has reached its core and waits for room (16 R360). -/
  reached : Bool := false
  /-- The context of the channel that sent this refusal (14 R326). -/
  refCtx : Option (Nat × Nat) := none
  deriving DecidableEq, Repr

/-- Class 7 traffic (14 Table 14.3): a join return, a barrier arrival, an offer, an update of a copy, a steal. -/
inductive Ctl where
  | join (inst lid : Nat) (jref value : Word) (stamp : Nat) (lin : Lineage) (pc : VAddr) (arr ch q core : Nat) (path : Word)
  | arrive (inst b core : Nat) (drop : Bool) (ch : Nat) (stamp : Nat) (lin : Lineage)
  | offer (inst core : Nat) (max : Bool) (v p : Word)
  | update (inst core : Nat) (max : Bool) (v p : Word)
  | recall (line die : Nat)
  deriving DecidableEq, Repr

/-! ## Commands -/

/-- The issuing task of a command or an atomic, as a fault record names it (21 R408, Table 21.2). -/
structure Issuer where
  pc : VAddr := 0
  path : Word := 0
  arr : Nat := 0
  lid : Nat := 0
  ch : Nat := 0
  /-- The index of the effect, or of the schedule entry (16 R350). -/
  q : Nat := 0
  /-- Earlier faults of that effect (16 R350). -/
  faults : Nat := 0
  deriving DecidableEq, Repr

/-- What a copy-engine command does (06 R170, R171, R175, R194). -/
inductive CKind where
  | copy (var : BitVec 2)
  | redc (op : BitVec 3) (ty : Ty) (rm : RM) (fzi fzo : Bool) (n : Nat)
  | rdb (ea : Word) (off len : Nat) (ch : BitVec 6)
  deriving DecidableEq, Repr

/-- Where a copy-engine command stands (06 R180, R182, R195). -/
inductive CPhase where
  | queued
  | running
  | payloadDone
  | parked (cause : Nat)
  | pushWait
  | done
  deriving DecidableEq, Repr

/-- A word that a command has for a scratchpad and has not written yet (04 R140): core, offset, the bytes that it writes, and, with
one word of a line that it fills, the line's sideband (07 R208). -/
structure Pend where
  core : Nat
  off : Nat
  bytes : List (Option Byte)
  sb : Option (Option (BitVec 32)) := none
  deriving DecidableEq, Repr

/-- A source line of a piece of a copy that is read and not written yet: unit and piece, which of the piece's source lines, where it lies, its
bytes, and its sideband with the layout of its window (04 R138, 03 R110). -/
structure HalfLine where
  unit : Nat
  piece : Nat
  line : Nat
  key : Nat
  bytes : List Byte
  sb : Option (BitVec 32 × Option (BitVec 4)) := none
  deriving DecidableEq, Repr

/-- A command of a row copy engine (06 R166 to R196). `unit` and `off` are its cursor. -/
structure Cmd where
  id : Nat
  /-- The tag that names it once it is parked or halted (06 R196); an image keeps it. -/
  tag : Nat := 0
  kind : CKind
  desc : BitVec 512 := 0
  ar : AcqRel := ⟨false, false, .task⟩
  inst : Nat := 0
  core : Nat := 0
  row : Nat := 0
  priv : Bool := false
  sched : Option Nat := none
  ct : Nat := 0
  who : Issuer := {}
  phase : CPhase := .queued
  unit : Nat := 0
  off : Nat := 0
  last : Nat := 0
  slot : Option Nat := none
  feed : List Word := []
  status : Nat := 0
  wait : List Await := []
  /-- A schedule entry of STAGE 0, which no task released (16 R350). -/
  root : Bool := false
  /-- What was moved so far: destination, source and length, for 06 R173. -/
  moves : List (Nat × Nat × Nat) := []
  /-- Where it has read indices, for 06 R173. -/
  idx : List (Nat × Nat) := []
  /-- The pieces at and above the cursor that a copy has written: unit, number in the unit, where it lies and length (06 R173). -/
  ahead : List (Nat × Nat × Nat × Nat) := []
  /-- The indices that it has read: unit and index (06 R171). -/
  lat : List (Nat × Nat) := []
  /-- Source lines of a piece of a copy that are read before it is written (04 R138). -/
  half : List HalfLine := []
  /-- The lines whose sideband a piece at or above the cursor has settled: unit and line (06 R173, R174). -/
  sbDone : List (Nat × Nat) := []
  /-- The source of the current unit of a reduce-copy: parts with the places they were read from; and the translations of its
  destination lines (06 R175). -/
  src : List (Nat × List Byte) := []
  xl : List Xlat := []
  /-- Words that are not in their scratchpad yet. -/
  buf : List Pend := []
  /-- The number under which releases wait for its writes to the host, peers and the pool (04 R133, R135). -/
  ack : Nat := 0
  /-- The peer's cause, once it is parked with REMOTE_FLT (06 R195). -/
  peer : Nat := 0
  /-- The writes that its release waits for, once its last payload byte is written (06 R181; 04 R133, R135). -/
  relWait : List Await := []
  deriving DecidableEq, Repr

/-- What a matrix or ensemble command does (11 R288 to R293, 12 R302, R303). -/
inductive MxKind where
  | mma (zero : Bool) | mmag | bld | bfree | route | mlbe (mean : Bool) | noise (v : BitVec 2) (n0 cnt : Nat)
  deriving DecidableEq, Repr

/-- A matrix command with its captured operands (11 R280). -/
structure MxCmd where
  kind : MxKind
  bs : BitVec 2 := 0
  ty : Ty := .bf16
  rm : RM := .rn
  fzi : Bool := false
  fzo : Bool := false
  d : Word := 0
  d1 : Word := 0
  a : Word := 0
  b : Word := 0
  e : Word := 0
  comp : Word := 0
  desc : BitVec 512 := 0
  fn : Nat := 0
  inst : Nat := 0
  core : Nat := 0
  ct : Nat := 0
  who : Issuer := {}
  /-- The issuing task's count of 03 R91. -/
  n : Nat := 0
  deriving DecidableEq, Repr

/-- What ROUTE has gathered: counts, drops, and where it has written (11 R293). -/
structure Routed where
  cnt : List Nat := []
  nd : Nat := 0
  outs : List (Nat × Nat) := []
  deriving DecidableEq, Repr

/-- A command that holds the unit (11 R284, R286): the row that it works on next, what its rows have gathered, and whether it has stopped,
with cause and address. -/
structure MxRun where
  cmd : MxCmd
  last : Nat
  row : Nat := 0
  flags : BitVec 5 := 0
  rt : Routed := {}
  done : Bool := false
  cause : Nat := 0
  detailVA : Word := 0
  /-- Words of rows to come that it has read already (11 R283): offset and bytes. -/
  got : List (Nat × List Byte) := []
  /-- Words that it has still to write (04 R140). -/
  buf : List Pend := []
  deriving DecidableEq, Repr

/-- State of a B-slot (11 Table 11.1). -/
inductive SlotSt where
  | empty | loading | ready
  deriving DecidableEq, Repr

/-- A B-slot (11 R270): 256 columns of 8 blocks, each a list of 32 block integers, an exponent and a NaN flag. -/
structure BSlot where
  st : SlotSt := .empty
  part : Nat := 0
  ctx : Nat := 0
  readers : Nat := 0
  /-- An error that its code cannot correct (02 R76). -/
  poison : Bool := false
  elems : List (List (List Int)) := []
  exps : List (List Int) := []
  nans : List (List Bool) := []
  deriving DecidableEq, Repr

/-! ## Held effects (13 Table 13.1) -/

/-- An effect that waits in the sluice, with the counted-effect number of 16 R350 where it has one. -/
inductive Eff where
  | store (x : Xlat) (solo : Bool) (bytes : List (Option Byte)) (rel : Option Scope)
  | amo (x : Xlat) (op : AmoOp) (ty : Ty) (b c : Word) (rpl : Option (BitVec 6)) (ar : AcqRel) (ea : Word) (q : Nat) (pc : VAddr)
  | cst (x : Xlat) (sel : BitVec 4) (data : List VReg) (tok : List Word) (ch : BitVec 6) (q : Nat) (pc : VAddr)
  | publ (x : Xlat)
  | fence (ar : AcqRel)
  | pers (core off : Nat) (bytes : List (Option Byte)) (under : List Byte)
  | persSb (core off : Nat) (sb : BitVec 32) (sbv : Bool)
  | send (hdr : Word) (pay : List Word) (delay : Nat) (rel : Option Scope) (jref : Word) (place : Bool) (q : Nat)
  | copy (c : Cmd)
  | cres (tag : Word) (q : Nat)
  | cdrop (tag : Word) (q : Nat)
  | mx (c : MxCmd)
  | mon (x : Xlat) (ea : Word) (ch : BitVec 6) (expect : Word) (q : Nat)
  | monx (ch : BitVec 6)
  | qpush (feed : Nat) (w : Word)
  | cvrel (n : Nat) (count : Nat)
  | cflags (w : Word)
  | ttbase (w : Word)
  | maskc (bits : BitVec 7)
  | unmaskc (bits : BitVec 7)
  | park (ch : BitVec 6)
  | unpark (ch : BitVec 6) (drop : Bool)
  | htset (ch : BitVec 6) (sel : BitVec 2) (v : Word)
  | join (handle : Word) (n slots : Nat) (ch : BitVec 6) (q : Nat)
  | jret (v : Word) (q : Nat) (pc : VAddr)
  | barinit (b : BitVec 6) (ch : BitVec 6) (lo n : Nat) (q : Nat)
  | bara (b ch : BitVec 6) (q : Nat)
  | bard (b : BitVec 6) (q : Nat)
  | stage (n : Nat) (q : Nat) (pc : VAddr)
  | launch (va : Word) (ch : BitVec 6) (q : Nat)
  | incumb (max : Bool) (v p : Word) (q : Nat)
  | reseed
  | wset (bytes : List Byte)
  | tlbinv (va : VAddr)
  | tlbinvCtx
  | halt (var : BitVec 2) (va : Word) (ch : BitVec 6) (q : Nat)
  deriving DecidableEq, Repr

/-- What an effect of a commit takes with it when it leaves: its core, its context, the commit time, and the issuing task. -/
structure Sender where
  core : Nat
  inst : Nat
  part : Nat
  ctx : Nat
  ct : Nat
  priv : Bool
  /-- The join reference of the task's trigger (14 R339). -/
  jref : Word
  task : Issuer
  deriving DecidableEq, Repr

/-- An effect of a commit that waits to leave after those before it (13 R312). -/
structure Leaving where
  id : Nat
  snd : Sender
  eff : Eff
  wait : List Await
  deriving DecidableEq, Repr

/-! ## A running task -/

/-- A recorded read (04 R114): the line, its wts, the end of its lease (`none` is ∞, R131), its bytes and, for a
joined line, its sideband (03 R109). -/
structure ReadEnt where
  line : Nat
  wts : Nat
  r : Option Nat
  data : BitVec 512
  sb : BitVec 32 := 0
  deriving DecidableEq, Repr

/-- The vector and mask registers of one member of a clamp (09 R237, 10 R266). -/
structure VPart where
  v : Vector VReg 32
  m : Vector Word 8
  deriving DecidableEq, Repr

/-- A jig in progress (10 R261 to R265): body start and length in instructions, iteration and count, the body
instruction, and the renaming fields. -/
structure Jig where
  start : VAddr
  after : VAddr
  body : List VAddr
  k : Nat
  n : Nat
  idx : Nat
  step : Nat
  wbase : Nat
  wsize : Nat
  stride : Nat
  deriving DecidableEq, Repr

/-- FSTAT (09 Table 9.2). -/
structure FStat where
  dfzo : Bool := false
  dfzi : Bool := false
  drm : RM := .rn
  flags : BitVec 5 := 0
  deriving DecidableEq, Repr

/-- The running task (14 R333). -/
structure Task where
  ch : Nat
  trig : Msg
  pc : VAddr
  npc : VAddr
  ir : IWord := 0
  x : Vector Word 31
  parts : List VPart
  /-- The core identifiers of the clamp's members in the order of their positions (10 R265); one where the task is
  not clamped. -/
  members : List Nat
  /-- The leader's position among the members (10 R269). -/
  lead : Nat := 0
  fstat : FStat := {}
  sptr : Nat := 0
  fetched : Bool := false
  tcyc : Nat := 0
  tbudget : Nat
  priv : Bool
  ts : Nat
  reads : List ReadEnt := []
  locked : Bool := false
  sluice : List Eff := []
  /-- Bytes of the frames that the task has given a value: core and offset; every other byte is undefined (07 R204). -/
  frame : List (Nat × Nat) := []
  qn : Nat := 0
  q0 : List Word
  /-- Culvert pops of the task: culvert and count (06 R189). -/
  pops : List (Nat × Nat) := []
  bound : Word := 0
  hash : Word := 0
  nw : Nat := 0
  sn : Nat := 0
  jig : Option Jig := none
  jigOff : Nat := 0
  fltpops : Nat := 0
  /-- The number after the newest fault record that this task has popped (21 R433). -/
  fltat : Nat := 0
  /-- ENDT has begun and the commit waits (13 R311). -/
  committing : Bool := false
  /-- Lines of host-bias pages that loads further on have read already (04 R132). -/
  early : List (Nat × BitVec 512) := []
  /-- Lines that were written since the task started, with their bytes at its start (01 R37). -/
  icache : List (Nat × BitVec 512) := []
  deriving DecidableEq, Repr

/-! ## A logical core -/

/-- A channel (14 R321): handler entry, PARKED, mailbox, abort count (04 R122), the tick at which it entered locked mode (04 R125), and
the ring's head slot (21 Table 21.3). -/
structure Chan where
  ent : BitVec 256 := 0
  parked : Bool := false
  box : List Msg := []
  aborts : Nat := 0
  lockTick : Option Nat := none
  headSlot : Nat := 0
  deriving DecidableEq, Repr

/-- A culvert (06 Table 6.5). `ring` is the handles of the slots by slot number; `resv` the reserved slots in
order, each with its handle and status once filled out of turn (06 R188). -/
structure Culvert where
  depth : Nat := 0
  nv : Bool := false
  chan : Nat := 0
  held : Nat := 0
  rsv : Nat := 0
  filled : Nat := 0
  free : Nat := 0
  head : Nat := 0
  tail : Nat := 0
  deriving DecidableEq, Repr

/-- A join record (16 R353, R354; 21 Table 21.3). -/
structure JoinRec where
  handle : Word
  slots : Nat
  n : Nat
  ch : Nat
  stamp : Nat
  full : List Nat
  lin : Lineage
  deriving DecidableEq, Repr

/-- The incumbent's fields (20 Table 20.1). -/
structure Incumb where
  ne : Bool := false
  sense : Bool := false
  value : Word := 0
  payload : Word := 0
  deriving DecidableEq, Repr

/-- A scratchpad line's sideband and poison mark (07 R199). -/
structure SbLine where
  sb : BitVec 32 := 0
  sbv : Bool := false
  poison : Bool := false
  deriving DecidableEq, Repr

/-- A logical core of an instance with the state that its queue engine and selector keep. -/
structure Core where
  inst : Nat := 0
  lid : Nat := 0
  die : Nat := 0
  phys : Nat := 0
  /-- False while the core's context is absent (21 R404). -/
  resident : Bool := true
  /-- Switched out: another logical core that its physical core hosts is switched in (16 R347). -/
  out : Bool := false
  /-- Switched out and resting in its core record of its context's image (21 R421). -/
  stored : Bool := false
  /-- A task of its PAR group has started since the group was switched in (16 R348). -/
  parOn : Bool := false
  /-- A suspension or halt is pending (21 R411). -/
  pending : Bool := false
  regions : List (BitVec 64) := []
  spsize : Nat := 491520
  spad : List Host.Cell := []
  /-- What the core's spills beyond the carve-out hold, by virtual address (07 R209): other agents read undefined values there. -/
  ovf : List Host.Cell := []
  sbs : List (Nat × SbLine) := []
  /-- Words that commits have written since an engine last wrote them, with what stood there before (07 R206). -/
  cwords : List (Nat × List Byte) := []
  chans : List (Nat × Chan) := []
  /-- The clamp widths that the core's handler entries name, those with V = 0 included (10 R265). -/
  clampWidths : List Nat := []
  culverts : List (Nat × Culvert) := []
  arrNext : Nat := 0
  clmask : BitVec 8 := 0
  heldq : List Msg := []
  selcnt : BitVec 32 := 0
  placecnt : BitVec 32 := 0
  stealcnt : BitVec 32 := 0
  jseq : BitVec 32 := 0
  joins : List JoinRec := []
  member : BitVec 64 := 0
  arrived : BitVec 64 := 0
  sqd : List Nat := [8, 8, 8]
  creds : Nat := 16
  mxcreds : Nat := 8
  sticky : BitVec 5 := 0
  pts : Nat := 0
  inc : Incumb := {}
  ovfb : Word := 0
  ovfsize : Nat := 0
  /-- The group of the launch record's group table (16 Table 16.1). -/
  grp : Option Nat := none
  /-- The channel whose request asks for the clamp group, and whether the request holds it (10 R266). -/
  clampReq : Option Nat := none
  clampHeld : Bool := false
  task : Option Task := none
  deriving DecidableEq, Repr

/-! ## Instances, contexts and partitions -/

/-- An installed barrier (16 R358). -/
structure Barrier where
  lo : Nat
  n : Nat
  e : Nat
  phase : Nat := 0
  /-- Arrivals by BARA in this phase: core, channel, lineage. -/
  arrs : List (Nat × Nat × Lineage) := []
  drops : Nat := 0
  stamp : Nat := 0
  deriving DecidableEq, Repr

/-- A committed task's digest and its place in the spawn tree (13 R316). -/
structure Digest where
  path : Word
  parent : Word
  root : Bool
  index : Word
  td : Word
  deriving DecidableEq, Repr

/-- A schedule entry (06 R192): descriptor and control word. -/
structure SchedEnt where
  desc : BitVec 512
  ctl : Word
  released : Bool := false
  deriving DecidableEq, Repr

/-- Where the results of a launch go (16 R357, 24 R450). -/
inductive Origin where
  | host (fn seq : Nat)
  | task (core : Nat) (ch : BitVec 6) (lin : Lineage) (q : Nat)
  deriving DecidableEq, Repr

/-- A running instance (16 R345). -/
structure Inst where
  id : Nat
  part : Nat := 0
  ctx : Nat := 0
  nvc : Nat := 1
  prog : BitVec 2 := 0
  det : Bool := false
  pkey : Word := 0
  stage : Nat := 0
  ninit : Nat := 0
  sched : List SchedEnt := []
  bars : List (Nat × Barrier) := []
  inc : Incumb := {}
  digrec : Word := 0
  digests : List Digest := []
  /-- Shadow (13 R319): mode, base, size, recorded expectation, entries as (unit, bytes), overflow mark. -/
  dmode : Bool := false
  expect : Word := 0
  shbase : Word := 0
  shsize : Nat := 0
  shadow : List (Nat × List Host.Cell) := []
  shfull : Bool := false
  /-- The entries of the shadow that another package stored before the instance came here (21 R425). -/
  shback : Nat := 0
  /-- Lines that were poisoned when their unit was saved: unit and offset (02 R76). -/
  shpoison : List (Nat × Nat) := []
  /-- Initial messages, kept for the serial re-execution (13 R320). -/
  inits : List Msg := []
  /-- The cores as the launch prepared them, with their identifiers. -/
  start : List (Nat × Core) := []
  /-- Serial re-execution in progress: the digest of the first run (13 R320). -/
  rerun : Option Word := none
  origin : Origin := .host 0 0
  /-- Group: id, member count, this member's index, first group number, total of logical cores (24 R458). -/
  group : Option (Nat × Nat × Nat × Nat × Nat) := none
  deriving DecidableEq, Repr

/-- The diversion entry's STATE (21 Table 21.4). -/
inductive DivSt where
  | closed | saving | diverted | merging
  deriving DecidableEq, Repr

/-- An armed monitor (06 R183): word, effective address, core, channel, threshold, lineage. -/
structure Mon where
  pa : Nat
  ea : Word
  core : Nat
  ch : BitVec 6
  expect : Word
  lin : Lineage
  deriving DecidableEq, Repr

/-- The parts of a polder image that 21 R415 and R416 name: bench slots, unstarted matrix commands, instances and
their cores' queue-engine parts without a byte layout, engine records, and row holds. The rest of what an image holds is the model's stream
of words (Machine/Codec.lean). DESIGN CHOICE: log 15. -/
structure Image where
  halted : Bool := false
  nvc : Nat := 0
  nb : Nat := 0
  e : Nat := 0
  slots : List (Nat × BSlot) := []
  mx : List MxCmd := []
  cmds : List Cmd := []
  /-- The core identifiers in record order. -/
  order : List Nat := []
  /-- The benches of the placement, whose records follow each other; the suspension fixes them. -/
  benches : List Nat := []
  /-- Monitors that a halt disarmed (21 R423). -/
  mons : List Mon := []
  divcnt : Nat := 0
  deriving DecidableEq, Repr

/-- Who asked for a suspension, halt or resume, and is told its end (21 R432, 24 R450). -/
inductive Asker where
  | host (fn seq : Nat)
  | task (core : Nat) (ch : BitVec 6) (lin : Lineage)
  deriving DecidableEq, Repr

/-- A suspension, halt or resume (VAR of 21 R432) that waits for a context's diversion entry, with the benches and the place of the image
that it names: whether that is a guest physical address, its map entry, and the address. -/
structure DivReq where
  var : BitVec 2
  part : Nat
  ctx : Nat
  asker : Asker
  benches : List Nat := []
  img : Option (Bool × Nat × Nat) := none
  deriving DecidableEq, Repr

/-- A context of a partition (21 R404). -/
structure Ctx where
  part : Nat
  ctx : Nat
  ttbase : Word := 0
  fqbase : Word := 0
  fqlog : Nat := 4
  fqtail : Nat := 1
  fqhead : Nat := 1
  fqlost : Nat := 0
  lostc : Word := 0
  killc : Word := 0
  /-- Diversion entry (21 Table 21.4). -/
  div : DivSt := .closed
  gone : Bool := false
  pbase : Nat := 0
  gpa : Bool := false
  mapi : Nat := 0
  /-- The PART and CTX fields of the diversion entry, as they were last written. -/
  dpart : Nat := 0
  dctx : Nat := 0
  halt : Bool := false
  asker : Option Asker := none
  img : Option Image := none
  /-- LOADED (or streamed) rows and the hold queues: row and held messages (21 R414, R420). -/
  loaded : List Nat := []
  holds : List (Nat × Flight) := []
  /-- The benches a resume named (21 R419). -/
  benches : List Nat := []
  lastCommit : Nat := 0
  deriving DecidableEq, Repr

/-- A partition's configuration block (24 Table 24.1). DESIGN CHOICE: log 6. -/
structure Part where
  benches : List Nat := []
  owner : Nat := 0
  hangt : Nat := 20000000
  pmap : List (Nat × PMapEnt) := []
  deriving DecidableEq, Repr

/-- An owner's block (18 R366, R377, R380; 02 R62). DESIGN CHOICE: log 6. -/
structure Owner where
  seed : Word := 0
  plkey : Word := 0
  rways : Nat := 0
  quota : Nat := 1
  wquota : Nat := 64
  /-- Event counters of own-draw structures: (substream, instance) and count (18 R366). -/
  events : List ((Nat × Nat) × BitVec 32) := []
  deriving DecidableEq, Repr

/-- A lottery instance (18 R372 to R374, Table 18.4). DESIGN CHOICE: log 6. -/
structure Lott where
  wtab : List Byte := List.replicate 256 0xFF#8
  alloc : BitVec 64 := 0
  gw : Nat := 16
  k : BitVec 32 := 0
  lc : List (Nat × Nat) := []
  weir : List Nat := []
  deriving DecidableEq, Repr

/-! ## Host side -/

/-- STATE of a journal entry (24 Table 24.6). -/
inductive JSt where
  | accepted | started | fenced | completed
  deriving DecidableEq, Repr

/-- An accepted command and its journal entry (24 Tables 24.4 and 24.6). -/
structure HCmd where
  fn : Nat
  seq : Nat
  words : List Word
  st : JSt := .accepted
  stclass : Nat := 0
  status : Nat := 0
  result : Word := 0
  replay : Bool := false
  deriving DecidableEq, Repr

/-- Queue registers of a function (24 Table 24.3). -/
structure Fn where
  qbase : Word := 0
  jbase : Word := 0
  qlog : Nat := 0
  tail : Nat := 0
  head : Nat := 0
  fenced : Nat := 0
  deriving DecidableEq, Repr

/-- Notifications of the steward (24 R461). -/
inductive Note where
  | ch63 (part ctx core : Nat) | hang (part ctx : Nat) | retire (line : Nat) | thermal | booted
  deriving DecidableEq, Repr

/-- What left the package (04 R134, 14 R324, 24 R461). -/
inductive Out where
  | msg (pkg : Nat) (m : Msg)
  | copyRead (pkg pa n : Nat)
  | copyWrite (pkg pa : Nat) (bytes : List Byte)
  | atomic (pkg pa : Nat) (op : AmoOp) (ty : Ty) (b c : Word) (rpl : Bool)
  | barrier (group b : Nat) (core : Nat) (drop : Bool)
  | install (group b lo n : Nat)
  | offer (group : Nat) (max : Bool) (v p : Word)
  | note (n : Note)
  | spdm (fn : Nat) (bytes : List Byte)
  | flush
  /-- A message of a package's context was lost here, and its own LOSTC counts it (14 R326). -/
  | lost (pkg : Nat)
  /-- Answers to a peer's access: the bytes it read, the acknowledgement of its write, or the cause of its fault. -/
  | peerData (pkg : Nat) (bytes : List Byte)
  | peerAck (pkg : Nat)
  | peerFault (pkg cause : Nat)
  deriving DecidableEq, Repr

/-- A remote atomic that is committed and not answered (05 R156). -/
structure Remote where
  core : Nat
  inst : Nat
  pkg : Nat
  ea : Word
  rpl : Option (BitVec 6)
  ty : Ty
  ct : Nat
  who : Issuer
  /-- Its number among the writes that wait for an acknowledgement (04 R135). -/
  ack : Nat
  /-- What leaves once the writes of `wait` are acknowledged, where a release holds it back (05 R156). -/
  held : Option Out := none
  wait : List Await := []
  deriving DecidableEq, Repr

/-- What the schedule may ask of the machine next: one instruction of a core, or an event of the device (DESIGN CHOICE, log 2). -/
inductive Action where
  | core (c : Nat)
  | event (i : Instr)
  deriving DecidableEq, Repr

/-- A replica of a hot line (05 R163): die, helper slice, line and the end of its block lease; whether its data has
arrived, and whether a recall came before the data did (04 R141). -/
structure Replica where
  die : Nat
  line : Nat
  rlim : Nat
  slice : Nat := 0
  here : Bool := false
  recalled : Bool := false
  deriving DecidableEq, Repr

/-- A host-bias store or CXL write that has left for the host and is not acknowledged (04 R132, R133): its number, the physical core
that it left, what it writes, and the command that made it. -/
structure HostWrite where
  id : Nat
  core : Nat
  pa : Nat
  bytes : List (Option Byte)
  cmd : Option Nat := none
  deriving DecidableEq, Repr

/-- A write to a peer or the pool that is not acknowledged (04 R135): its number, its destination, and the command that made it. -/
structure PeerWrite where
  id : Nat
  pkg : Nat
  cmd : Option Nat := none
  deriving DecidableEq, Repr

/-- A journal entry that is to be written once some host writes are acknowledged (24 R453; 04 R133). -/
structure JWrite where
  pa : Nat
  bytes : List Byte
  wait : List Nat
  deriving DecidableEq, Repr

/-- A line request of a core's task that waits at an L2 request port (19 R385): the slice, and the task's start time. -/
structure LineReq where
  slice : Nat
  core : Nat
  line : Nat
  ts : Nat
  deriving DecidableEq, Repr

/-- Platform registers (24 R446 to R460). DESIGN CHOICE: log 6. -/
structure Plat where
  memNear : Nat := 3072
  memFar : Nat := 49152
  memDeep : Nat := 2048
  pkgKey : Word := 0
  tokKey : Word := 0
  pkgId : Nat := 0
  pkgIdLocked : Bool := false
  hmap : List (BitVec 64) := List.replicate 36 (BitVec.allOnes 64)
  mxmap : List (BitVec 72) := List.replicate 4 (BitVec.allOnes 72)
  power : Nat := 2400
  hot : Bool := false
  gated : Nat := 0
  trained : List Nat := []
  fwaddr : Word := 0
  /-- The digest of the firmware that booted (24 R456, R457). -/
  fwDigest : BitVec 256 := 0
  booted : Bool := true
  corrected : Nat := 0
  /-- Corrections of each line since it was last retired (02 R77). -/
  fixes : List (Nat × Nat) := []
  retired : List Nat := []
  lostRecords : Nat := 0
  entropyCnt : Nat := 0
  deriving DecidableEq, Repr

/-- The package. -/
structure State where
  mem : List Host.Cell
  lines : List (Nat × Line)
  leaseLen : Nat
  hotThr : Nat
  grants : List (Nat × Nat)
  grantStart : Nat
  replicas : List Replica
  /-- Redirect entries of a die's bench network interfaces: die and line (05 R163 to R165). -/
  redirects : List (Nat × Nat)
  /-- Lines that a commit has written in this window of the hot-line count (05 R163). -/
  written : List Nat
  /-- The largest pts of the logical cores that each physical core has run (04 R111, R113). -/
  corePts : List (Nat × Nat)
  /-- Walkers that LOTTERY_GRANT has given and that still walk: die and owner (02 R62). -/
  walkers : List (Nat × Nat)
  /-- Line requests at the L2 request ports, in arrival order (19 R385). -/
  lineReqs : List LineReq
  /-- The cycle in which the last slot of an L2 request port passed (18 R371). -/
  portAt : List (Nat × Nat)
  /-- Outstanding request slots of the memory controllers: controller and owner (18 R380). -/
  mcSlots : List (Nat × Nat)
  now : Nat
  plat : Plat
  parts : List (Nat × Part)
  ctxs : List Ctx
  /-- Diversion entries of contexts that do not exist, as they were written (21 R414): partition and context. -/
  dents : List ((Nat × Nat) × BitVec 128)
  windows : List ((Nat × Nat) × Window)
  owners : List (Nat × Owner)
  lotts : List ((Nat × Nat) × Lott)
  l2 : List ((Nat × Nat) × (Nat × Nat × Nat))
  /-- The bias tables (02 R70): partition and page, and whether the page is in host bias. -/
  bias : List ((Nat × Nat) × Bool)
  /-- Flips under way (02 R72): partition and page, function and SEQ. -/
  flips : List ((Nat × Nat) × Nat × Nat)
  /-- Writes to the host that are not acknowledged, in the order in which they left (04 R132, R133). -/
  hostPend : List HostWrite
  peerPend : List PeerWrite
  ackNext : Nat
  remotes : List Remote
  /-- Effects of commits that have still to leave (13 R312), in program order. -/
  leaving : List Leaving
  mons : List Mon
  cmds : List Cmd
  feeds : List ((Nat × Nat) × List Word)
  mxq : List MxCmd
  mxrun : List (Nat × MxRun)
  slots : List ((Nat × Nat) × BSlot)
  pushes : List ((Nat × Nat × Nat) × (Word × Nat × Nat × Lineage))
  net : List Flight
  ctl : List Ctl
  subs : List (Word × Nat × Nat × Origin × Nat)
  /-- Suspensions, halts and resumes that wait for a context's diversion entry (21 R420). -/
  reqs : List DivReq
  /-- HALT requests whose context block meets a line that is held (04 R129): core, variant, address, channel, lineage. -/
  haltQ : List (Nat × BitVec 2 × Word × BitVec 6 × Lineage)
  tlbs : List (Nat × TlbEnt)
  insts : List Inst
  ended : List (Nat × (Nat × Nat))
  /-- Contexts of the members of groups that have ended here (14 R326; 24 R458): group and context. -/
  endedGroups : List (Nat × (Nat × Nat))
  cores : List (Nat × Core)
  coreNext : Nat
  instNext : Nat
  cmdNext : Nat
  /-- The write times of joined lines that LDV has given tokens for, by token number (05 R151; 03 R109). -/
  joinVers : List (List Nat)
  fns : List (Nat × Fn)
  hcmds : List HCmd
  /-- Journal entries that wait to be written, in order (24 R453). -/
  jq : List JWrite
  out : List Out
  agenda : List (Nat × Action)
  cur : Nat
  freeCnt : Nat
  deriving DecidableEq, Repr

/-- The machine right after reset (04 R111, 24 R445 to R456, Tables 18.4 and 24.3; logs 1 to 11).
DESIGN CHOICE: logs 5, 6, 8. -/
def State.reset : State where
  mem := []
  lines := []
  leaseLen := 1
  hotThr := 4096
  grants := []
  grantStart := 0
  replicas := []
  redirects := []
  written := []
  corePts := []
  walkers := []
  lineReqs := []
  portAt := []
  mcSlots := []
  now := 0
  plat := {}
  parts := []
  ctxs := []
  dents := []
  windows := []
  owners := []
  lotts := []
  l2 := []
  bias := []
  flips := []
  hostPend := []
  peerPend := []
  ackNext := 0
  remotes := []
  leaving := []
  mons := []
  cmds := []
  feeds := []
  mxq := []
  mxrun := []
  slots := []
  pushes := []
  net := []
  ctl := []
  subs := []
  reqs := []
  haltQ := []
  tlbs := []
  insts := []
  ended := []
  endedGroups := []
  cores := []
  coreNext := 0
  instNext := 1
  cmdNext := 1
  joinVers := []
  fns := []
  hcmds := []
  jq := []
  out := []
  agenda := []
  cur := 0
  freeCnt := 0

end Sys2Proof.Machine
end

