-- ==== Sys2Proof/WellFormed.lean ====
section
/-! DEFINITION. Which terms of `Instr` the encoding admits: the limits that decode step 3, 5 and 6 of spec 01
Table 1.13 put on operands, types and modifiers. An event of the device is always well formed. -/

namespace Sys2Proof

/-- The code of a type (01 Table 1.9). -/
def Ty.code : Ty → BitVec 5
  | .i8 => 0x00 | .i16 => 0x01 | .i32 => 0x02 | .i64 => 0x03 | .n8 => 0x04 | .n16 => 0x05 | .n32 => 0x06
  | .n64 => 0x07 | .f16 => 0x08 | .bf16 => 0x09 | .f32 => 0x0A | .f64 => 0x0B | .e4m3 => 0x0C | .e5m2 => 0x0D
  | .blk4 => 0x0E | .blk8 => 0x0F | .mld => 0x10

/-- The code of a scope (01 Table 1.10). -/
def Scope.code : Scope → BitVec 4
  | .task => 0 | .core => 1 | .quad => 2 | .bench => 3 | .row => 4 | .die => 5 | .pkg => 6 | .host => 7
  | .board => 8 | .pod => 9 | .pool => 10 | .sys => 11

/-- The code of a rounding mode (01 Table 1.11). -/
def RM.code : RM → BitVec 3
  | .dflt => 0 | .rn => 1 | .rz => 2 | .ru => 3 | .rd => 4 | .ra => 5 | .rs => 6

/-- The VAR value of a condition (09 R248). -/
def Cond.code : Cond → BitVec 3
  | .eq => 0 | .ne => 1 | .lt => 2 | .le => 3 | .gt => 4 | .ge => 5 | .un => 6 | .ord => 7

/-- The code of an access width (05 R146). -/
def Width.code : Width → BitVec 2
  | .w1 => 0 | .w2 => 1 | .w4 => 2 | .w8 => 3

/-- Bytes of an access width. -/
def Width.bytes : Width → Nat
  | .w1 => 1 | .w2 => 2 | .w4 => 4 | .w8 => 8

/-- The eight integer codes. -/
def Ty.isInt : Ty → Bool
  | .i8 | .i16 | .i32 | .i64 | .n8 | .n16 | .n32 | .n64 => true
  | _ => false

/-- The signed integer codes. -/
def Ty.signed : Ty → Bool
  | .i8 | .i16 | .i32 | .i64 => true
  | _ => false

/-- f16, bf16, f32 and f64 (03 R80). -/
def Ty.isIeee : Ty → Bool
  | .f16 | .bf16 | .f32 | .f64 => true
  | _ => false

/-- The types whose values are floating numbers; an mld element is read as the bf16 μ (03 R88). -/
def Ty.isFloat : Ty → Bool
  | .f16 | .bf16 | .f32 | .f64 | .e4m3 | .e5m2 | .mld => true
  | _ => false

/-- Bytes of one lane (09 Table 9.1). Block codes have no lane; one byte stands for them. -/
def Ty.bytes : Ty → Nat
  | .i8 | .n8 | .e4m3 | .e5m2 | .blk4 | .blk8 => 1
  | .i16 | .n16 | .f16 | .bf16 => 2
  | .i32 | .n32 | .f32 | .mld => 4
  | .i64 | .n64 | .f64 => 8

/-- The types of 09 Table 9.1: every code but the two block types. -/
def Ty.hasLanes (t : Ty) : Bool := t != .blk4 && t != .blk8

/-- The types a masked 64-byte access takes (05 R147). -/
def Ty.memOk (t : Ty) : Bool := t.isInt || t.isIeee || t == .e4m3 || t == .e5m2

/-- Operand types of the bench (11 Table 11.2). -/
def Ty.mxOk : Ty → Bool
  | .f16 | .bf16 | .e4m3 | .e5m2 | .blk4 | .blk8 => true
  | _ => false

/-- A scope that a command's ACQ or REL may carry (06 R177): quad or wider. -/
def Scope.wide : Scope → Bool
  | .task | .core => false
  | _ => true

namespace Instr

/-- Without ACQ and REL, SCOPE is 0 (05 R148). -/
def arOk (ar : AcqRel) : Bool := ar.acq || ar.rel || ar.scope == .task
/-- 06 R177: a command's scope is quad or wider where ACQ or REL is set. -/
def cmdOk (ar : AcqRel) : Bool := if ar.acq || ar.rel then ar.scope.wide else ar.scope == .task
/-- 14 R335: REL with SCOPE 0 raises ILLOP. -/
def relOk (r : Option Scope) : Bool := r != some .task
/-- 09 R241: the types, and no mask and no `.s` on the scalar form. -/
def fOk (vec sc : Bool) (ty : Ty) (mask : SReg) : Bool := ty.isIeee && (vec || (mask == 0 && !sc))
/-- 09 R252. -/
def spOk (vec : Bool) (ty : Ty) (f : FMod) : Bool :=
  (ty == .f16 || ty == .bf16 || (ty == .f32 && (f.rm == .dflt || f.rm == .rn))) && (vec || f.mask == 0)
/-- 09 R256: the part of a vector conversion is below the ratio of the lane sizes. -/
def partOk (vec : Bool) (src dst : Ty) (part : BitVec 3) : Bool :=
  if vec then part.toNat < Nat.max src.bytes dst.bytes / Nat.min src.bytes dst.bytes else part == 0
/-- 09 R257: the source types of CVTB. -/
def cvtbSrc : Ty → Bool
  | .f16 | .bf16 | .f32 | .e4m3 | .e5m2 | .i8 | .i16 | .i32 => true
  | _ => false
/-- 05 R154: the types of the atomics. -/
def amoOk (ty : Ty) (ar : AcqRel) : Bool := (ty == .i32 || ty == .i64 || ty == .n32 || ty == .n64) && arOk ar
/-- 06 Table 6.2: types and modifiers of a reduce-copy. Every operation of a float type takes a rounding mode, `.min` and `.max` too, which
do not round. DEDUCED: log 25. -/
def redcOk (op : BitVec 3) (ty : Ty) (rm : RM) (fzi fzo : Bool) : Bool :=
  let int := ty == .i32 || ty == .i64 || ty == .n32 || ty == .n64
  op.toNat < 6 && (if op.toNat < 3 then int || ty.isIeee else int) &&
    (ty.isIeee || (rm == .dflt && !fzi && !fzo))
/-- 05 R159: every selected line has a vector register and a token register. -/
def cstoreOk (sel : BitVec 4) (b c : Reg) : Bool :=
  sel != 0 && [0, 1, 2, 3].all fun i => !sel.getLsbD i || (b.toNat + i ≤ 31 && c.toNat + i ≤ 30)
/-- The assigned special registers (21 Table 21.12). -/
def sregOk (n : BitVec 12) : Bool :=
  let k := n.toNat
  k ≤ 0x00A || (0x010 ≤ k && k ≤ 0x01A) || (0x020 ≤ k && k ≤ 0x022) || k == 0x028 || k == 0x029 ||
    (0x030 ≤ k && k ≤ 0x03C)
/-- The registers WRS may name (21 Table 21.12). -/
def sregW (n : BitVec 12) : Bool := n == 0x020#12 || n == 0x021#12 || n == 0x028#12

/-- The limits that the encodings put on an instruction's fields (01 Table 1.13 steps 3, 5 and 6). A flush bit stands only where a floating
value is read or written (01 R27): not on CVTB of an integer source nor on BLD of a block type. DEDUCED: logs 25, 79. -/
def wf : Instr → Bool
  | .fadd vec sc ty f _ _ _ | .fsub vec sc ty f _ _ _ | .fmul vec sc ty f _ _ _ | .fdiv vec sc ty f _ _ _
  | .fma vec sc ty f _ _ _ _ | .fms vec sc ty f _ _ _ _ | .fnma vec sc ty f _ _ _ _
  | .fnms vec sc ty f _ _ _ _ => fOk vec sc ty f.mask
  | .fsqrt vec ty f _ _ => fOk vec false ty f.mask
  | .fmin vec sc ty _ mask _ _ _ | .fmax vec sc ty _ mask _ _ _ | .fsgnj vec sc ty _ mask _ _ _ => fOk vec sc ty mask
  | .fabs vec ty _ mask _ _ | .fneg vec ty _ mask _ _ => fOk vec false ty mask
  | .vadd _ ty _ _ _ _ | .vsub _ ty _ _ _ _ | .vadds _ ty _ _ _ _ | .vsubs _ ty _ _ _ _ | .vmul _ ty _ _ _ _
  | .vmulh _ ty _ _ _ _ | .vmadd _ ty _ _ _ _ _ | .vmin _ ty _ _ _ _ | .vmax _ ty _ _ _ _ | .vabs ty _ _ _
  | .vand _ ty _ _ _ _ | .vor _ ty _ _ _ _ | .vxor _ ty _ _ _ _ | .vandn _ ty _ _ _ _ | .vsll _ ty _ _ _ _
  | .vsrl _ ty _ _ _ _ | .vsra _ ty _ _ _ _ => ty.isInt
  | .fcmp vec _ ty _ mask d _ _ => ty.isIeee && (if vec then d.toNat < 8 else mask == 0)
  | .icmp cond ty _ _ _ _ => ty.isInt && cond != .un && cond != .ord
  | .vbcast ty _ _ _ | .vext ty _ _ _ | .vins ty _ _ _ | .vperm ty _ _ _ _ _ | .vmov ty _ _ _ => ty.hasLanes
  | .vradd ty f _ _ => (ty.isInt && f.rm == .dflt && !f.fzi && !f.fzo) || ty.isIeee
  | .vrmin ty fzi _ _ _ | .vrmax ty fzi _ _ _ => (ty.isInt && !fzi) || ty.isIeee
  | .fexp vec ty f _ _ | .fexp2 vec ty f _ _ | .flog vec ty f _ _ | .flog2 vec ty f _ _ | .frcp vec ty f _ _
  | .frsq vec ty f _ _ | .fsin vec ty f _ _ | .fcos vec ty f _ _ | .ftanh vec ty f _ _ | .fsigm vec ty f _ _
  | .ferf vec ty f _ _ => spOk vec ty f
  | .cvt vec src dst part f _ _ =>
      src.hasLanes && dst.hasLanes && partOk vec src dst part && (vec || f.mask == 0) &&
      (src.isFloat || dst.isFloat || (f.rm == .dflt && !f.fzi && !f.fzo))
  | .cvts vec src dst part mask _ _ => src.isInt && dst.isInt && partOk vec src dst part && (vec || mask == 0)
  | .cvtb src dst part mode _ fzi _ a _ =>
      cvtbSrc src && (src.isFloat || !fzi) && (src.bytes != 4 || a.toNat ≤ 30) &&
      (if dst == .blk4 then part.toNat < 4 else dst == .blk8 && part.toNat < 2 && mode == 0)
  | .cvfb src dst part _ _ d _ _ =>
      (dst == .f16 || dst == .bf16 || (dst == .f32 && d.toNat ≤ 30)) &&
      (if src == .blk4 then part.toNat < 4 else src == .blk8 && part.toNat < 2)
  | .ldlz w _ _ | .ldz w _ _ _ => w != .w8
  | .vldl ty _ _ _ | .vstl ty _ _ _ | .vld ty _ _ _ _ | .vst ty _ _ _ _ => ty.memOk
  | .qpush a _ | .cvrel a _ => a != 0
  | .amoadd ty _ rn ar _ _ _ _ => (amoOk ty ar && !rn) || ((ty == .f32 || ty == .f64) && arOk ar)
  | .amoand ty _ ar _ _ _ _ | .amoor ty _ ar _ _ _ _ | .amoxor ty _ ar _ _ _ _ | .amomin ty _ ar _ _ _ _
  | .amomax ty _ ar _ _ _ _ | .amoswp ty _ ar _ _ _ _ | .amocas ty _ ar _ _ _ _ _ => amoOk ty ar
  | .cstore4 lm _ _ b c _ => cstoreOk lm b c
  | .fence ar => ar.acq || ar.rel
  | .copy ar _ | .copyGath ar _ | .copyScat ar _ => cmdOk ar
  | .redc op ty rm fzi fzo ar _ => redcOk op ty rm fzi fzo && cmdOk ar
  | .rdb ar _ _ _ _ _ => cmdOk ar
  | .mma _ ty _ _ _ _ _ _ _ | .mmaz _ ty _ _ _ _ _ _ _ | .mmag _ ty _ _ _ _ _ _ _ _ => ty.mxOk
  | .bld _ ty fzi _ _ => ty.mxOk && (ty.isFloat || !fzi)
  | .mlbe _ _ d _ _ _ => d.toNat ≤ 29
  | .noise v d a _ _ _ n0 cnt =>
      d.toNat ≤ 29 && v.toNat ≤ 2 && (v != 0 || a == 0) && 1 ≤ cnt.toNat && n0.toNat + cnt.toNat ≤ 256
  | .send rel _ _ | .sendd rel _ _ _ | .sendv rel _ _ | .reply rel _ _ | .fork rel _ _ _ => relOk rel
  | .illop w => let op := w.extractLsb' 2 6; op == 0x00#6 || op == 0x3E#6 || op == 0x3F#6
  | .rds _ n => sregOk n
  | .wrs _ n => sregW n
  | .jig _ _ _ wb ws _ => 1 ≤ ws.toNat && wb.toNat + ws.toNat ≤ 32
  | _ => true

end Instr
end Sys2Proof
end

