-- ==== Sys2Proof/Machine/Bits.lean ====
section
/-! DEFINITION. Tables, sparse memory, bytes, words and lanes: the plain data operations that every other file of
the machine uses (spec 00 R6, R10, 01 R20, 09 R237). -/

namespace Sys2Proof.Machine

/-! ## Tables by key -/

/-- Sets the entry of a key: replaces it where it stands, or adds it at the end. -/
def tput {κ α : Type} [DecidableEq κ] : List (κ × α) → κ → α → List (κ × α)
  | [], k, v => [(k, v)]
  | (k', v') :: t, k, v => if k' = k then (k, v) :: t else (k', v') :: tput t k v

/-- The entry of a key. -/
def tget? {κ α : Type} [DecidableEq κ] : List (κ × α) → κ → Option α
  | [], _ => none
  | (k', v') :: t, k => if k' = k then some v' else tget? t k

/-- The entry of a key, or a default. -/
def tget {κ α : Type} [DecidableEq κ] (t : List (κ × α)) (k : κ) (dflt : α) : α := (tget? t k).getD dflt

/-- Removes the entry of a key. -/
def tdel {κ α : Type} [DecidableEq κ] (t : List (κ × α)) (k : κ) : List (κ × α) := t.filter fun p => p.1 ≠ k

/-- Element `i` of a list replaced. -/
def lset {α : Type} (l : List α) (i : Nat) (v : α) : List α := l.set i v

/-- The numbers `n`, `n + 1`, …, `k` of them. -/
def iota (n k : Nat) : List Nat := (List.range k).map (n + ·)

/-! ## Sparse memory: addresses strictly rising, no entry of the default byte -/

/-- What an unlisted address reads as (DESIGN CHOICE, log 1). -/
def memDefault : Byte := 0

/-- The byte at an address. DESIGN CHOICE: log 1. -/
def mget : List Host.Cell → Nat → Byte
  | [], _ => memDefault
  | (a', b) :: m, a => if a' = a then b else if a < a' then memDefault else mget m a

/-- Writes one byte and keeps the canonical form. -/
def mset : List Host.Cell → Nat → Byte → List Host.Cell
  | [], a, b => if b = memDefault then [] else [(a, b)]
  | (a', b') :: m, a, b =>
    if a' = a then if b = memDefault then m else (a, b) :: m
    else if a < a' then if b = memDefault then (a', b') :: m else (a, b) :: (a', b') :: m
    else (a', b') :: mset m a b

/-- Every address of a memory is above `lo`, rising, and no entry is the default. -/
def memAbove : Option Nat → List Host.Cell → Bool
  | _, [] => true
  | lo, (a, b) :: m => (match lo with | none => true | some l => decide (l < a)) && b != memDefault && memAbove (some a) m

/-- The canonical form of a memory. -/
def Memory.wf (m : List Host.Cell) : Bool := memAbove none m

/-- `n` bytes from an address. -/
def mread (m : List Host.Cell) (a n : Nat) : List Byte := (List.range n).map fun i => mget m (a + i)

/-- Writes bytes from an address upward. -/
def mwrite : List Host.Cell → Nat → List Byte → List Host.Cell
  | m, _, [] => m
  | m, a, b :: bs => mwrite (mset m a b) (a + 1) bs

/-- Writes the bytes that are present; `none` leaves a byte as it is. -/
def mwriteMask : List Host.Cell → Nat → List (Option Byte) → List Host.Cell
  | m, _, [] => m
  | m, a, none :: bs => mwriteMask m (a + 1) bs
  | m, a, some b :: bs => mwriteMask (mset m a b) (a + 1) bs

/-- Removes every cell of a range, so that it reads as the default. -/
def mclear (m : List Host.Cell) (a n : Nat) : List Host.Cell := m.filter fun c => c.1 < a || a + n ≤ c.1

/-! ## Bytes and words, little-endian (00 R6) -/

/-- The number that bytes spell, the first the least significant. -/
def leNat : List Byte → Nat
  | [] => 0
  | b :: bs => b.toNat + 256 * leNat bs

/-- The low `n` bytes of a number. -/
def natBytes : Nat → Nat → List Byte
  | 0, _ => []
  | n + 1, v => BitVec.ofNat 8 v :: natBytes n (v / 256)

/-- A 64-bit word of bytes. -/
def leWord64 (bs : List Byte) : Word := BitVec.ofNat 64 (leNat bs)

/-- The eight bytes of a word. -/
def wordBytes64 (w : Word) : List Byte := natBytes 8 w.toNat

/-- The 64 bytes of a vector register or a line. -/
def vecBytes (v : VReg) : List Byte := natBytes 64 v.toNat

/-- A vector register of bytes. -/
def bytesVec (bs : List Byte) : VReg := BitVec.ofNat 512 (leNat bs)

/-- Byte `i` of a line. -/
def lineByte (v : VReg) (i : Nat) : Byte := v.extractLsb' (8 * i) 8

/-- The 64-bit words of a byte list. -/
def bytesWords : Nat → List Byte → List Word
  | 0, _ => []
  | n + 1, bs => leWord64 (bs.take 8) :: bytesWords n (bs.drop 8)

/-- Sign extension of the low `n` bytes of a number to 64 bits (05 R149). -/
def sextBytes (n v : Nat) : Word :=
  let v := v % 256 ^ n
  if 256 ^ n / 2 ≤ v then BitVec.ofInt 64 ((v : Int) - (256 ^ n : Nat)) else BitVec.ofNat 64 v

/-- Bits `hi` to `lo` of a vector register as a number. -/
def vbits (v : BitVec n) (hi lo : Nat) : Nat := (v.extractLsb' lo (hi + 1 - lo)).toNat

/-- A 32-bit field read as a signed number. -/
def sx32 (n : Nat) : Int := if n % 2 ^ 32 < 2 ^ 31 then ((n % 2 ^ 32 : Nat) : Int) else (n % 2 ^ 32 : Nat) - (2 ^ 32 : Int)

/-- A signed number modulo 2^64. -/
def wrap64 (z : Int) : Nat := (z % (2 ^ 64 : Int)).toNat

/-- The line that holds an address. -/
def lineOf (a : Nat) : Nat := a / 64 * 64

/-! ## Lanes (09 R237, Table 9.1) -/

/-- Lane `i` of `w` bits, zero-extended. -/
def lane (w : Nat) (v : VReg) (i : Nat) : Word := (v.extractLsb' (w * i) w).setWidth 64

/-- The lanes of a register. -/
def lanes (w : Nat) (v : VReg) : List Word := (List.range (512 / w)).map (lane w v)

/-- A register from lanes of `w` bits. -/
def ofLanes (w : Nat) (l : List Word) : VReg :=
  l.foldr (fun x acc => (acc <<< w) ||| ((x.setWidth w).setWidth 512)) 0

/-- Bits of one lane. -/
def tyBits (t : Ty) : Nat := 8 * t.bytes

/-- A lane value sign-extended to a signed number. -/
def laneInt (w : Nat) (v : Word) : Int := (v.setWidth w).toInt

/-- A lane value read by its type: signed for i types, unsigned otherwise. -/
def laneVal (t : Ty) (v : Word) : Int :=
  if t.signed then laneInt (tyBits t) v else ((v.setWidth (tyBits t)).toNat : Int)

/-- An exact result wrapped to a lane. -/
def laneOf (w : Nat) (z : Int) : Word := (BitVec.ofInt w z).setWidth 64

/-! ## Bit fields of handler entries, headers and records -/

/-- A field of a word. -/
def fld (w : BitVec n) (hi lo : Nat) : Nat := (w.extractLsb' lo (hi + 1 - lo)).toNat

/-- Puts a field into a word. -/
def setFld {n : Nat} (w : BitVec n) (hi lo v : Nat) : BitVec n :=
  let k := hi + 1 - lo
  let m : BitVec n := (BitVec.allOnes k).setWidth n <<< lo
  (w &&& ~~~m) ||| (((BitVec.ofNat k v).setWidth n) <<< lo)

/-! ## The generators -/

/-- One round of G (12 R295). -/
def gRound (a b : Word) (r : Nat) : Word × Word :=
  let a := a + b
  let b := b.rotateLeft r ^^^ a
  (a.rotateLeft 32, b)

/-- The counter-based generator G (12 R295). -/
def gGen (key ctr : Word) : Word :=
  let (a, b) := [13, 29, 41, 7, 53, 19].foldl (fun (p : Word × Word) r => gRound p.1 p.2 r)
    (ctr ^^^ 0x6A09E667F3BCC908#64, key)
  a ^^^ b

/-- The byte permutation S (18 R369). -/
def sBox (x : Byte) : Byte := (x * 0x5B#8).rotateLeft 3 ^^^ 0xA5#8

/-- The D generator (18 R369). -/
def drawD (seed : Word) (sub : Byte) (ctr : BitVec 32) : Byte :=
  let k (i : Nat) : Byte := seed.extractLsb' (8 * i) 8
  let c (i : Nat) : Byte := ctr.extractLsb' (8 * i) 8
  let t := sBox (c 0 ^^^ k 0)
  let t := sBox (t ^^^ c 1 ^^^ k 1)
  let t := sBox (t ^^^ c 2 ^^^ k 2)
  let t := sBox (t ^^^ c 3 ^^^ k 3)
  let t := sBox (t ^^^ sub ^^^ k 4)
  let t := sBox (t ^^^ c 0 ^^^ k 5)
  t ^^^ k 6

end Sys2Proof.Machine
end

