-- ==== Sys2Proof/Machine/Float.lean ====
section
/-! DEFINITION. Floating formats, exact values, the one rounding, flags and flush (spec 03 R80 to R98), and the
arithmetic of 09 R242 to R245 and R249 on bit patterns. -/

namespace Sys2Proof.Machine

/-! ## Flags (03 Table 3.6) -/

def fNV : BitVec 5 := 16
def fDZ : BitVec 5 := 8
def fOF : BitVec 5 := 4
def fUF : BitVec 5 := 2
def fNX : BitVec 5 := 1

/-! ## Formats (03 Tables 3.1 and 3.2) -/

/-- A floating format: total bits, fraction bits, bias, exponent of the largest binade; `fn` marks e4m3, which has no
infinity and one NaN code of each sign. -/
structure Fmt where
  w : Nat
  fb : Nat
  bias : Nat
  emax : Int
  fn : Bool := false
  deriving DecidableEq, Repr

namespace Fmt

def f64 : Fmt := ⟨64, 52, 1023, 1023, false⟩
def f32 : Fmt := ⟨32, 23, 127, 127, false⟩
def f16 : Fmt := ⟨16, 10, 15, 15, false⟩
def bf16 : Fmt := ⟨16, 7, 127, 127, false⟩
def e5m2 : Fmt := ⟨8, 2, 15, 15, false⟩
def e4m3 : Fmt := ⟨8, 3, 7, 8, true⟩

/-- Precision. -/
def p (F : Fmt) : Nat := F.fb + 1
/-- Exponent of the smallest normal value. -/
def emin (F : Fmt) : Int := 1 - F.bias
/-- Exponent of the smallest subnormal value. -/
def qmin (F : Fmt) : Int := F.emin - F.fb
/-- The exponent field of infinities and NaNs. -/
def emask (F : Fmt) : Nat := 2 ^ (F.w - 1 - F.fb) - 1
/-- The bits of +∞. -/
def infBits (F : Fmt) : Nat := F.emask * 2 ^ F.fb
/-- The bits of the largest finite value. -/
def maxBits (F : Fmt) : Nat := if F.fn then 0x7E else F.infBits - 1
def signBit (F : Fmt) (neg : Bool) : Nat := if neg then 2 ^ (F.w - 1) else 0

end Fmt

/-- The format of a floating type; the value of an mld element is its μ, bits 31:16, a bf16 (03 R88). -/
def tyFmt (t : Ty) : Fmt :=
  match t with
  | .f64 => .f64 | .f32 => .f32 | .f16 => .f16 | .e4m3 => .e4m3 | .e5m2 => .e5m2
  | _ => .bf16

/-! ## Values -/

/-- A decoded value. A NaN keeps its sign, whether it signals, and its fraction left-aligned to 52 bits; a finite
value is m × 2^e. -/
inductive Num where
  | nan (neg sig : Bool) (frac : Nat)
  | inf (neg : Bool)
  | fin (neg : Bool) (m : Nat) (e : Int)
  deriving DecidableEq, Repr

/-- 03 R80 to R82. -/
def Fmt.decode (F : Fmt) (b : Nat) : Num :=
  let b := b % 2 ^ F.w
  let neg := b.testBit (F.w - 1)
  let ex := b / 2 ^ F.fb % 2 ^ (F.w - 1 - F.fb)
  let fr := b % 2 ^ F.fb
  if F.fn then
    if ex = 15 && fr = 7 then .nan neg false (2 ^ 51)
    else if ex = 0 then .fin neg fr F.qmin
    else .fin neg (fr + 2 ^ F.fb) (F.qmin + (ex - 1 : Nat))
  else if ex = F.emask then
    if fr = 0 then .inf neg else .nan neg (!fr.testBit (F.fb - 1)) (fr * 2 ^ (52 - F.fb))
  else if ex = 0 then .fin neg fr F.qmin
  else .fin neg (fr + 2 ^ F.fb) (F.qmin + (ex - 1 : Nat))

/-- A NaN of a sign and a fraction, quieted (03 R81, R83, R97). -/
def Fmt.nanBits (F : Fmt) (neg : Bool) (frac : Nat) : Nat :=
  F.signBit neg + (if F.fn then 0x7F else F.infBits + (frac / 2 ^ (52 - F.fb) ||| 2 ^ (F.fb - 1)))
/-- The default NaN (03 R81). -/
def Fmt.dfltNaN (F : Fmt) : Nat := F.nanBits false 0

/-- Whether bits hold a subnormal. -/
def Fmt.isSub (F : Fmt) (b : Nat) : Bool := b / 2 ^ F.fb % 2 ^ (F.w - 1 - F.fb) == 0 && b % 2 ^ F.fb != 0
/-- FZI on an operand (03 R95). -/
def Fmt.flush (F : Fmt) (fzi : Bool) (b : Nat) : Nat :=
  let b := b % 2 ^ F.w
  if fzi && F.isSub b then F.signBit (b.testBit (F.w - 1)) else b

/-! ## The one rounding (03 R89 to R94) -/

/-- The modes of 03 Table 3.5, and the wide tie of 09 R253. -/
inductive Mode where
  | ne | tz | up | dn | na | st | wide
  deriving DecidableEq, Repr

/-- The mode of a code; RM 000 takes the default (03 R90). -/
def rmMode (rm drm : RM) : Mode :=
  let m (r : RM) : Mode := match r with
    | .dflt | .rn => .ne | .rz => .tz | .ru => .up | .rd => .dn | .ra => .na | .rs => .st
  match rm with
  | .dflt => m drm
  | r => m r

/-- An exact magnitude: m × 2^e, plus some part of 2^e above it when `st`. -/
structure Mag where
  m : Nat
  e : Int
  st : Bool := false
  deriving DecidableEq, Repr

/-- A magnitude in units of 2^q: whole units, the 24 bits below, and whether more lies below them. -/
def Mag.split (x : Mag) (q : Int) : Nat × Nat × Bool :=
  let sh := q - 24 - x.e
  let n := if sh ≤ 0 then x.m * 2 ^ (-sh).toNat else x.m / 2 ^ sh.toNat
  let low := x.st || (decide (0 < sh) && x.m % 2 ^ sh.toNat != 0)
  (n / 2 ^ 24, n % 2 ^ 24, low)

/-- Whether the larger magnitude of the two neighbours is taken. `a` is the part of a unit in 2^−24, `low` whether
more lies below it, `draw` the 24 bits of 03 R91. -/
def roundsUp (md : Mode) (neg : Bool) (odd : Bool) (a : Nat) (low : Bool) (draw : Nat) : Bool :=
  if a = 0 && !low then false
  else match md with
  | .ne => decide (2 ^ 23 < a) || (a == 2 ^ 23 && (low || odd))
  | .na => decide (2 ^ 23 ≤ a)
  | .tz => false
  | .up => !neg
  | .dn => neg
  | .st => if neg then decide (2 ^ 24 ≤ draw + a) else decide (draw < a) || (draw == a && low)
  | .wide =>
    if decide (2 ^ 23 + 2 ^ 14 < a) || (a == 2 ^ 23 + 2 ^ 14 && low) then true
    else if a < 2 ^ 23 - 2 ^ 14 then false
    else odd

/-- A non-zero exact value rounded into a format: bits and flags (03 R83, R89, R92 to R95). -/
def Fmt.round (F : Fmt) (md : Mode) (fzo : Bool) (draw : Nat) (neg : Bool) (x : Mag) : Nat × BitVec 5 :=
  let top := (Nat.log2 x.m : Int) + x.e
  let q0 := top - F.fb
  let q := max q0 F.qmin
  let (k, a, low) := x.split q
  let k := if roundsUp md neg (k % 2 == 1) a low draw then k + 1 else k
  let inexact := a != 0 || low
  let qtop := F.emax - F.fb
  -- 03 R83: for e4m3 the exact magnitude decides against 448, 14 units of the top binade
  let (u, b, l) := x.split qtop
  let big := if F.fn then decide (14 < u) || (u == 14 && (b != 0 || l))
    else decide (qtop < q) || (q == qtop && k == 2 ^ F.p)
  let sign := F.signBit neg
  if big then
    let toMax := F.fn || (match md with | .tz => true | .up => neg | .dn => !neg | _ => false)
    (sign + (if toMax then F.maxBits else F.infBits), fOF ||| fNX)
  else
    let bits := (q - F.qmin).toNat * 2 ^ F.fb + k
    let (k0, a0, low0) := x.split q0
    let k0 := if roundsUp md neg (k0 % 2 == 1) a0 low0 draw then k0 + 1 else k0
    let tiny := decide (top < F.emin) && !(top == F.emin - 1 && k0 == 2 ^ F.p)
    if fzo && bits != 0 && bits < 2 ^ F.fb then (sign, fUF ||| fNX)
    else (sign + bits, (if inexact then fNX else 0) ||| (if inexact && tiny then fUF else 0))

/-- What one element's rounding needs: mode, FZI, FZO, and the draw of 03 R91. -/
structure FEnv where
  md : Mode := .ne
  fzi : Bool := false
  fzo : Bool := false
  draw : Nat := 0
  deriving DecidableEq, Repr

/-- The draw of 03 R91: the top 24 bits of G(key, Cat(n[47:0], e[15:0])). -/
def draw24 (key : Word) (n e : Nat) : Nat := (gGen key (BitVec.ofNat 64 (n % 2 ^ 48 * 2 ^ 16 + e % 2 ^ 16))).toNat / 2 ^ 40

/-- Rounds a signed magnitude; a zero keeps the sign given. -/
def Fmt.finish (F : Fmt) (v : FEnv) (neg : Bool) (x : Mag) : Nat × BitVec 5 :=
  if x.m = 0 && !x.st then (F.signBit neg, 0) else F.round v.md v.fzo v.draw neg x

/-! ## Arithmetic (09 R242, R243) -/

/-- The NaN result of operands in the order c, a, b, where one is a NaN (09 R243). -/
def Fmt.pickNaN (F : Fmt) : List Num → Option Nat
  | [] => none
  | .nan neg _ fr :: _ => some (F.nanBits neg fr)
  | _ :: l => F.pickNaN l

/-- NV of a signalling NaN among the operands. -/
def sigFlag (ops : List Num) : BitVec 5 :=
  if ops.any fun o => match o with | .nan _ s _ => s | _ => false then fNV else 0

/-- Whether a value is a NaN. -/
def Num.isNaN : Num → Bool
  | .nan .. => true
  | _ => false
def Num.isSig : Num → Bool
  | .nan _ s _ => s
  | _ => false
def Num.neg : Num → Num
  | .nan n s f => .nan n s f
  | .inf n => .inf (!n)
  | .fin n m e => .fin (!n) m e
def Num.sign : Num → Bool
  | .nan n _ _ | .inf n | .fin n _ _ => n

/-- A signed exact value over 2^e. -/
def sInt (neg : Bool) (m : Nat) : Int := if neg then -(m : Int) else m

/-- The exact sum of two finite values: sign, magnitude. A zero sum of opposite signs is +0, and −0 under toward −∞
(09 R242). -/
def addFin (md : Mode) (na : Bool) (ma : Nat) (ea : Int) (nb : Bool) (mb : Nat) (eb : Int) : Bool × Mag :=
  let e := min ea eb
  let z := sInt na ma * 2 ^ (ea - e).toNat + sInt nb mb * 2 ^ (eb - e).toNat
  if z = 0 then (if na == nb then na else md == .dn, ⟨0, 0, false⟩) else (decide (z < 0), ⟨z.natAbs, e, false⟩)

/-- The sum of two values, NaNs apart. -/
def Fmt.sum (F : Fmt) (v : FEnv) (x y : Num) : Nat × BitVec 5 :=
  match x, y with
  | .inf a, .inf b => if a == b then (F.signBit a + F.infBits, 0) else (F.dfltNaN, fNV)
  | .inf a, _ => (F.signBit a + F.infBits, 0)
  | _, .inf b => (F.signBit b + F.infBits, 0)
  | .fin na ma ea, .fin nb mb eb =>
    let r := addFin v.md na ma ea nb mb eb
    F.finish v r.1 r.2
  | _, _ => (F.dfltNaN, 0)

/-- The exact product; none where it is 0 × ∞. -/
def prodNum (x y : Num) : Option Num :=
  match x, y with
  | .fin na ma ea, .fin nb mb eb => some (.fin (na != nb) (ma * mb) (ea + eb))
  | .inf na, .fin nb mb _ => if mb = 0 then none else some (.inf (na != nb))
  | .fin na ma _, .inf nb => if ma = 0 then none else some (.inf (na != nb))
  | .inf na, .inf nb => some (.inf (na != nb))
  | x, _ => some x

/-- a + b or a − b. -/
def Fmt.add (F : Fmt) (v : FEnv) (sub : Bool) (a b : Nat) : Nat × BitVec 5 :=
  let x := F.decode (F.flush v.fzi a)
  let y := F.decode (F.flush v.fzi b)
  match F.pickNaN [x, y] with
  | some r => (r, sigFlag [x, y])
  | none => F.sum v x (if sub then y.neg else y)

/-- a × b. -/
def Fmt.mul (F : Fmt) (v : FEnv) (a b : Nat) : Nat × BitVec 5 :=
  let x := F.decode (F.flush v.fzi a)
  let y := F.decode (F.flush v.fzi b)
  match F.pickNaN [x, y] with
  | some r => (r, sigFlag [x, y])
  | none => match prodNum x y with
    | none => (F.dfltNaN, fNV)
    | some (.fin n m e) => F.finish v n ⟨m, e, false⟩
    | some (.inf n) => (F.signBit n + F.infBits, 0)
    | some _ => (F.dfltNaN, 0)

/-- The exact quotient of magnitudes, to at least 95 bits. -/
def divMag (ma : Nat) (ea : Int) (mb : Nat) (eb : Int) : Mag :=
  let s := Nat.log2 mb + 96
  let n := ma * 2 ^ s
  ⟨n / mb, ea - s - eb, n % mb != 0⟩

/-- a / b (09 R242). -/
def Fmt.div (F : Fmt) (v : FEnv) (a b : Nat) : Nat × BitVec 5 :=
  let x := F.decode (F.flush v.fzi a)
  let y := F.decode (F.flush v.fzi b)
  let neg := x.sign != y.sign
  match F.pickNaN [x, y] with
  | some r => (r, sigFlag [x, y])
  | none => match x, y with
    | .inf _, .inf _ => (F.dfltNaN, fNV)
    | .inf _, _ => (F.signBit neg + F.infBits, 0)
    | _, .inf _ => (F.signBit neg, 0)
    | .fin _ ma ea, .fin _ mb eb =>
      if mb = 0 then if ma = 0 then (F.dfltNaN, fNV) else (F.signBit neg + F.infBits, fDZ)
      else if ma = 0 then (F.signBit neg, 0)
      else F.finish v neg (divMag ma ea mb eb)
    | _, _ => (F.dfltNaN, 0)

/-- The integer square root, bit by bit from bit `i − 1`. -/
def isqrtFrom (n : Nat) : Nat → Nat → Nat
  | 0, r => r
  | i + 1, r => let t := r + 2 ^ i; isqrtFrom n i (if t * t ≤ n then t else r)
/-- floor(√n). -/
def isqrt (n : Nat) : Nat := isqrtFrom n (Nat.log2 n / 2 + 1) 0

/-- The exact square root of a magnitude, to at least 96 bits. -/
def sqrtMag (m : Nat) (e : Int) : Mag :=
  let (m, e) := if e % 2 = 0 then (m, e) else (2 * m, e - 1)
  let n := m * 2 ^ 200
  let r := isqrt n
  ⟨r, e / 2 - 100, r * r != n⟩

/-- √a (09 R242). -/
def Fmt.sqrt (F : Fmt) (v : FEnv) (a : Nat) : Nat × BitVec 5 :=
  let x := F.decode (F.flush v.fzi a)
  match F.pickNaN [x] with
  | some r => (r, sigFlag [x])
  | none => match x with
    | .inf neg => if neg then (F.dfltNaN, fNV) else (F.infBits, 0)
    | .fin neg m e =>
      if m = 0 then (F.signBit neg, 0)
      else if neg then (F.dfltNaN, fNV)
      else F.finish v false (sqrtMag m e)
    | _ => (F.dfltNaN, 0)

/-- ±(a × b) ± c, rounded once (09 R242, R243): `np` negates the product, `nc` the addend. -/
def Fmt.fma (F : Fmt) (v : FEnv) (np nc : Bool) (a b c : Nat) : Nat × BitVec 5 :=
  let x := F.decode (F.flush v.fzi a)
  let y := F.decode (F.flush v.fzi b)
  let z := F.decode (F.flush v.fzi c)
  let bad := match x, y with
    | .inf _, .fin _ 0 _ | .fin _ 0 _, .inf _ => true
    | _, _ => false
  match F.pickNaN [z, x, y] with
  | some r => (r, sigFlag [z, x, y] ||| (if bad then fNV else 0))
  | none => match prodNum x y with
    | none => (F.dfltNaN, fNV)
    | some p => F.sum v (if np then p.neg else p) (if nc then z.neg else z)

/-- The order of two values that are no NaNs: below, equal or above. -/
def Num.cmp (x y : Num) : Ordering :=
  match x, y with
  | .inf a, .inf b => if a == b then .eq else if a then .lt else .gt
  | .inf a, _ => if a then .lt else .gt
  | _, .inf b => if b then .gt else .lt
  | .fin na ma ea, .fin nb mb eb =>
    let e := min ea eb
    compare (sInt na ma * 2 ^ (ea - e).toNat) (sInt nb mb * 2 ^ (eb - e).toNat)
  | _, _ => .eq

/-- FMinMax (09 R244). -/
def Fmt.minMax (F : Fmt) (fzi isMin : Bool) (a b : Nat) : Nat × BitVec 5 :=
  let a := F.flush fzi a
  let b := F.flush fzi b
  let x := F.decode a
  let y := F.decode b
  let fl := sigFlag [x, y]
  if x.isNaN && y.isNaN then ((F.pickNaN [x, y]).getD 0, fl)
  else if x.isNaN then (b, fl)
  else if y.isNaN then (a, fl)
  else match x.cmp y with
    | .eq => (if x.sign != y.sign then if x.sign == isMin then a else b else a, fl)
    | .lt => (if isMin then a else b, fl)
    | .gt => (if isMin then b else a, fl)

/-- A pattern with its sign replaced; FZI first (09 R245). -/
def Fmt.withSign (F : Fmt) (fzi : Bool) (a : Nat) (neg : Bool) : Nat :=
  F.flush fzi a % 2 ^ (F.w - 1) + F.signBit neg
/-- The sign bit of a pattern. -/
def Fmt.signOf (F : Fmt) (a : Nat) : Bool := a.testBit (F.w - 1)

/-- A float compare (09 R249): result and flags. -/
def Fmt.compare (F : Fmt) (c : Cond) (fzi : Bool) (a b : Nat) : Bool × BitVec 5 :=
  let x := F.decode (F.flush fzi a)
  let y := F.decode (F.flush fzi b)
  let nan := x.isNaN || y.isNaN
  let o := x.cmp y
  let r := match c with
    | .eq => !nan && o == .eq
    | .ne => nan || o != .eq
    | .lt => !nan && o == .lt
    | .le => !nan && o != .gt
    | .gt => !nan && o == .gt
    | .ge => !nan && o != .lt
    | .un => nan
    | .ord => !nan
  let quiet := match c with
    | .eq | .ne | .un | .ord => true
    | _ => false
  (r, if quiet then sigFlag [x, y] else if nan then fNV else 0)

/-! ## Conversions (03 R96 to R98) -/

/-- A value into a floating format (03 R83, R96, R97). -/
def Fmt.ofNum (F : Fmt) (v : FEnv) (x : Num) : Nat × BitVec 5 :=
  match x with
  | .nan neg s fr => (F.nanBits neg fr, if s then fNV else 0)
  | .inf neg => if F.fn then (F.nanBits neg 0, fNV) else (F.signBit neg + F.infBits, 0)
  | .fin neg m e => F.finish v neg ⟨m, e, false⟩

/-- A value rounded to an integer and saturated into lo to hi (03 R98). -/
def intOfNum (v : FEnv) (lo hi : Int) (x : Num) : Int × BitVec 5 :=
  match x with
  | .nan .. => (0, fNV)
  | .inf neg => (if neg then lo else hi, fNV)
  | .fin neg m e =>
    let (k, a, low) := (Mag.mk m e false).split 0
    let k := if roundsUp v.md neg (k % 2 == 1) a low v.draw then k + 1 else k
    let z := sInt neg k
    if z < lo then (lo, fNV) else if hi < z then (hi, fNV) else (z, if a != 0 || low then fNX else 0)

/-- An integer into a floating format (03 R98). -/
def Fmt.ofInt (F : Fmt) (v : FEnv) (z : Int) : Nat × BitVec 5 :=
  F.finish v (decide (z < 0)) ⟨z.natAbs, 0, false⟩

/-- The value range of an integer type. -/
def tyLo (t : Ty) : Int := if t.signed then -(2 ^ (tyBits t - 1) : Int) else 0
def tyHi (t : Ty) : Int := if t.signed then (2 ^ (tyBits t - 1) : Int) - 1 else (2 ^ tyBits t : Int) - 1

end Sys2Proof.Machine
end

