-- ==== Sys2Proof/Machine/Blocks.lean ====
section
/-! DEFINITION. Block formats and block integers (spec 03 R84 to R88, R99 to R103). -/

namespace Sys2Proof.Machine

/-! ## Code values, in half units (03 Table 3.4) -/

/-- The magnitudes 2 × V of the codes 0 to 7 of a mode. -/
def gridOf (mode : Nat) : List Nat :=
  match mode with
  | 0 => [0, 2, 4, 6, 8, 10, 12, 14, 16]
  | 1 => [0, 1, 2, 3, 4, 6, 8, 12]
  | 2 => [0, 2, 4, 8, 16, 32, 64, 128]
  | _ => [0, 2, 4, 6, 8, 12, 16, 24]

/-- Mmax (03 R99). -/
def mmaxOf (mode : Nat) : Nat := match mode with | 0 => 7 | 1 => 6 | 2 => 64 | _ => 12

/-- Sign and 2 × V of a blk4 code. -/
def codeVal (mode code : Nat) : Bool × Nat :=
  if mode = 0 then (decide (8 ≤ code), 2 * (if 8 ≤ code then 16 - code else code))
  else (code.testBit 3, (gridOf mode).getD (code % 8) 0)

/-- The exact value of element `i` of a blk4 block (03 R86): a NaN where E = 63. -/
def blk4Num (scale code : Nat) : Num :=
  let r := codeVal (scale / 64) code
  if scale % 64 = 63 then .nan false false (2 ^ 51) else .fin r.1 r.2 ((scale % 64 : Nat) - 33)

/-- The exact value of an element of a blk8 block (03 R87). -/
def blk8Num (scale code : Nat) : Num :=
  if scale % 64 = 63 || scale / 64 != 0 then .nan false false (2 ^ 51)
  else .fin (decide (128 ≤ code)) (if 128 ≤ code then 256 - code else code) ((scale % 64 : Nat) - 32)

/-- The 32 codes of a blk4 block of 16 bytes (03 R84). -/
def blk4Codes (bs : List Byte) : List Nat := bs.flatMap fun b => [b.toNat % 16, b.toNat / 16]
/-- The 16 bytes of 32 codes. -/
def blk4Bytes : List Nat → List Byte
  | a :: b :: l => BitVec.ofNat 8 (a % 16 + 16 * b) :: blk4Bytes l
  | _ => []

/-! ## Conversion to a block (03 R99) -/

/-- Whether m × 2^e is at most n × 2^k. -/
def magLe (m : Nat) (e : Int) (n : Nat) (k : Int) : Bool :=
  if k ≤ e then decide (m * 2 ^ (e - k).toNat ≤ n) else decide (m ≤ n * 2 ^ (k - e).toNat)

/-- A magnitude in half units rounded onto a grid: the index, and whether it is inexact. -/
def gridRound (grid : List Nat) (md : Mode) (neg : Bool) (draw : Nat) (x : Mag) : Nat × Bool :=
  let (k, a, low) := x.split 0
  let i := (grid.filter fun g => g ≤ k).length - 1
  let g := grid.getD i 0
  let gap := grid.getD (i + 1) (g + 1) - g
  let t := (k - g) * 2 ^ 24 + a
  let a := t / gap
  let low := low || t % gap != 0
  (if roundsUp md neg (i % 2 == 1) a low draw then i + 1 else i, a != 0 || low)

/-- One element onto a block of scale exponent E: sign and code index, flags (03 R99). `top` is the largest magnitude
of each sign in units. -/
def toCode (grid : List Nat) (topPos topNeg : Nat) (md : Mode) (draw : Nat) (E : Nat) (neg : Bool) (m : Nat) (e : Int) :
    Nat × BitVec 5 :=
  let top := if neg then topNeg else topPos
  let e' := e - E + 32
  if !magLe m e' top 0 then ((grid.findIdx? (· == 2 * top)).getD 0, fNX)
  else
    let r := gridRound grid md neg draw ⟨m, e' + 1, false⟩
    (r.1, (if r.2 then fNX else 0) ||| (if m != 0 && r.1 == 0 then fUF else 0))

/-- ToBlk4 and its blk8 form (03 R99): E or 63, sign and index of each code, flags. -/
def toBlock (grid : List Nat) (mmax topPos topNeg : Nat) (md : Mode) (draws : Nat → Nat) (xs : List Num) :
    Nat × List (Bool × Nat) × BitVec 5 :=
  let bad := xs.any fun x => match x with | .fin .. => false | _ => true
  if bad then
    let nv := xs.any fun x => match x with | .nan _ s _ => s | .inf _ => true | _ => false
    (63, xs.map fun _ => (false, 0), if nv then fNV else 0)
  else
    let fits (E : Nat) : Bool := xs.all fun x => match x with
      | .fin _ m e => magLe m e mmax ((E : Int) - 32)
      | _ => true
    let (E, fl) : Nat × BitVec 5 := match (List.range 63).find? fits with
      | some E => (E, 0)
      | none => (62, fOF ||| fNX)
    let r := xs.zipIdx.map fun (p : Num × Nat) => match p.1 with
      | .fin neg m e => let c := toCode grid topPos topNeg md (draws p.2) E neg m e; ((neg, c.1), c.2)
      | _ => ((false, 0), 0)
    (E, r.map (·.1), r.foldl (fun f x => f ||| x.2) fl)

/-- A blk4 block of a mode: scale byte, codes, flags. -/
def toBlk4 (mode : Nat) (md : Mode) (draws : Nat → Nat) (xs : List Num) : Nat × List Nat × BitVec 5 :=
  let r := toBlock (gridOf mode) (mmaxOf mode) (mmaxOf mode) (if mode = 0 then 8 else mmaxOf mode) md draws xs
  let code (p : Bool × Nat) : Nat := if mode = 0 then (if p.1 then (16 - p.2) % 16 else p.2) else (if p.1 then 8 else 0) + p.2
  (mode * 64 + r.1, if r.1 = 63 then xs.map fun _ => 0 else r.2.1.map code, r.2.2)

/-- A blk8 block: scale byte, codes, flags. -/
def toBlk8 (md : Mode) (draws : Nat → Nat) (xs : List Num) : Nat × List Nat × BitVec 5 :=
  let r := toBlock ((List.range 129).map (2 * ·)) 127 127 128 md draws xs
  (r.1, if r.1 = 63 then xs.map fun _ => 0 else r.2.1.map fun p => if p.1 then (256 - p.2) % 256 else p.2, r.2.2)

/-! ## Block integers (03 R101 to R103) -/

/-- A block of signed integers with its exponent and NaN flag. -/
structure BlockInt where
  m : List Int
  e : Int
  nan : Bool
  deriving DecidableEq, Repr

/-- EZERO. -/
def eZero : Int := -1024
/-- A block whose integers are all 0 takes EZERO; one with the NaN flag is all 0 (03 R103). -/
def BlockInt.norm (b : BlockInt) : BlockInt :=
  if b.nan then ⟨b.m.map fun _ => 0, eZero, true⟩ else if b.m.all (· == 0) then ⟨b.m, eZero, false⟩ else b

/-- RoundNE(±m × 2^e / 2^q). -/
def intNE (neg : Bool) (m : Nat) (e q : Int) : Int :=
  let (k, a, low) := (Mag.mk m e false).split q
  sInt neg (if roundsUp .ne neg (k % 2 == 1) a low 0 then k + 1 else k)

/-- ToBlockInt (03 R102). -/
def toBlockInt (xs : List Num) (w : Nat) : BlockInt :=
  if xs.any fun x => match x with | .fin .. => false | _ => true then ⟨xs.map fun _ => 0, eZero, true⟩
  else
    let tops : List Int := xs.filterMap fun x => match x with
      | .fin _ m e => if m = 0 then none else some ((Nat.log2 m : Int) + e)
      | _ => none
    match tops with
    | [] => ⟨xs.map fun _ => 0, eZero, false⟩
    | t :: ts =>
      let e := ts.foldl max t - ((w : Int) - 2)
      ⟨xs.map fun x => match x with | .fin n m k => intNE n m k e | _ => 0, e, false⟩

/-- The block integers of a blk4 block (03 Table 3.7). -/
def blk4Int (scale : Nat) (codes : List Nat) : BlockInt :=
  let mode := scale / 64
  let E : Int := (scale % 64 : Nat)
  let half (c : Nat) : Int := sInt (codeVal mode c).1 (codeVal mode c).2
  if scale % 64 = 63 then ⟨codes.map fun _ => 0, eZero, true⟩
  else match mode with
    | 1 => BlockInt.norm ⟨codes.map half, E - 33, false⟩
    | 2 => toBlockInt (codes.map (blk4Num scale)) 5
    | _ => BlockInt.norm ⟨codes.map fun c => half c / 2, E - 32, false⟩

/-- The block integers of a blk8 block (03 Table 3.7). -/
def blk8Int (scale : Nat) (codes : List Nat) : BlockInt :=
  if scale % 64 = 63 || scale / 64 != 0 then ⟨codes.map fun _ => 0, eZero, true⟩
  else BlockInt.norm ⟨codes.map fun (c : Nat) => if 128 ≤ c then (c : Int) - 256 else (c : Int), (scale % 64 : Nat) - 32, false⟩

end Sys2Proof.Machine
end

