-- ==== Sys2Proof/Machine/Funcs.lean ====
section
/-! DEFINITION. The special functions (spec 09 R252 to R254): exact cases, and an interval that closes on the exact
value until both of its ends round alike. A fixed-point number stands for itself times 2^−W. -/

namespace Sys2Proof.Machine

/-! ## Series in fixed point -/

/-- Σ over k of t^(2k+1)/(2k+1), with a sign that alternates where `alt`: atan or atanh of the rational 1/n. -/
def oddSeries (W n : Nat) (alt : Bool) : Nat → Nat → Nat → Int → Int
  | 0, _, _, acc => acc
  | f + 1, k, pow, acc =>
    let t : Int := (pow / (2 * k + 1) : Nat)
    let acc := if alt && k % 2 == 1 then acc - t else acc + t
    let pow := pow / (n * n)
    if pow = 0 then acc else oddSeries W n alt f (k + 1) pow acc

/-- ln 2 = 2 atanh(1/3). -/
def ln2Fix (W : Nat) : Nat := (2 * oddSeries W 3 false (W + 2) 0 (2 ^ W / 3) 0).toNat
/-- π by Machin's formula. -/
def piFix (W : Nat) : Nat :=
  (16 * oddSeries W 5 true (W + 2) 0 (2 ^ W / 5) 0 - 4 * oddSeries W 239 true (W + 2) 0 (2 ^ W / 239) 0).toNat

/-- Σ r^n/n!. -/
def expSeries (W r : Nat) : Nat → Nat → Nat → Nat → Nat
  | 0, _, _, acc => acc
  | f + 1, n, t, acc =>
    let t := t * r / 2 ^ W / n
    if t = 0 then acc else expSeries W r f (n + 1) t (acc + t)
/-- e^r for 0 ≤ r < 1, in fixed point. -/
def expFix (W r : Nat) : Nat := expSeries W r (W + 2) 1 (2 ^ W) (2 ^ W)

/-- atanh(t) for a fixed-point t. -/
def atanhSeries (W t2 : Nat) : Nat → Nat → Nat → Nat → Nat
  | 0, _, _, acc => acc
  | f + 1, k, pow, acc =>
    let pow := pow * t2 / 2 ^ W
    let a := pow / (2 * k + 1)
    if a = 0 then acc else atanhSeries W t2 f (k + 1) pow (acc + a)
def atanhFix (W t : Nat) : Nat := atanhSeries W (t * t / 2 ^ W) (W + 2) 1 t t

/-- Σ ± r^n/n! over the n of one parity, signs alternating: sin from n = 1, cos from n = 0. -/
def trigSeries (W r2 : Nat) : Nat → Nat → Nat → Bool → Int → Int
  | 0, _, _, _, acc => acc
  | f + 1, n, t, neg, acc =>
    let t := t * r2 / 2 ^ W / (n * (n + 1))
    if t = 0 then acc else trigSeries W r2 f (n + 2) t (!neg) (if neg then acc - (t : Int) else acc + (t : Int))
def sinFix (W r : Nat) : Int := trigSeries W (r * r / 2 ^ W) (W + 2) 2 r true r
def cosFix (W r : Nat) : Int := trigSeries W (r * r / 2 ^ W) (W + 2) 1 (2 ^ W) true (2 ^ W : Nat)

/-- Σ 2^n x^(2n+1)/(2n+1)!!. -/
def erfSeries (W x2 : Nat) : Nat → Nat → Nat → Nat → Nat
  | 0, _, _, acc => acc
  | f + 1, n, t, acc =>
    let t := t * (2 * x2) / 2 ^ W / (2 * n + 1)
    if t = 0 then acc else erfSeries W x2 f (n + 1) t (acc + t)

/-! ## Intervals -/

/-- A magnitude in fixed point, cut to W bits. -/
def fixOf (W m : Nat) (e : Int) : Nat :=
  let sh := e + W
  if 0 ≤ sh then m * 2 ^ sh.toNat else m / 2 ^ (-sh).toNat

/-- An approximation `a` × 2^e whose error is below 2^(`err` + e). -/
structure Approx where
  neg : Bool
  a : Int
  e : Int
  err : Nat
  deriving DecidableEq, Repr

/-- e^±x for a fixed-point x ≥ 0: e^x = 2^k × e^r. -/
def expApprox (W x : Nat) (neg : Bool) : Approx :=
  let l := ln2Fix W
  let k := x / l
  let r := x % l
  let (k, r) : Int × Nat := if neg then (if r = 0 then (-(k : Int), 0) else (-(k : Int) - 1, l - r)) else (k, r)
  ⟨false, expFix W r, k - W, 24⟩

/-- ln of m × 2^e with m > 0, in fixed point: k ln 2 + 2 atanh((z − 1)/(z + 1)), z from 2/3 to 4/3. -/
def lnFix (W m : Nat) (e : Int) : Int :=
  let b := Nat.log2 m
  -- m / 2^b is from 1 to 2
  let (k, d) : Int × Nat := if 4 * 2 ^ b < 3 * m then ((b : Int) + 1 + e, 2 ^ (b + 1)) else ((b : Int) + e, 2 ^ b)
  let num : Int := (m : Int) - d
  let t := num.natAbs * 2 ^ W / (m + d)
  let at2 : Int := 2 * (atanhFix W t : Nat)
  k * (ln2Fix W : Nat) + (if num < 0 then -at2 else at2)

/-- The functions of 09 Table 9.10. -/
inductive Fn9 where
  | exp | exp2 | log | log2 | rcp | rsq | sin | cos | tanh | sigm | erf
  deriving DecidableEq, Repr

/-- x reduced by multiples of π/2: the quadrant, and the rest in fixed point, from −π/4 to π/4. -/
def reduce (W m : Nat) (e : Int) : Nat × Int :=
  let X := (Nat.log2 m : Int) + e
  let W2 := W + (max 0 X).toNat + 8
  let x := fixOf W2 m e
  let p := piFix W2
  let q := (4 * x + p) / (2 * p)
  let r : Int := (2 * x : Int) - (q * p : Nat)
  (q, r / (2 ^ (W2 + 1 - W) : Nat))

/-- An approximation of a function at ±m × 2^e, m > 0, to W bits. Arguments so large that no rounding can tell the value
from its limit are not sent here. -/
def Fn9.approx (f : Fn9) (W : Nat) (neg : Bool) (m : Nat) (e : Int) : Approx :=
  let one := 2 ^ W
  let x := fixOf W m e
  match f with
  | .exp => expApprox W x neg
  | .exp2 =>
    -- 2^(i + r)
    let i := x / one
    let r := x % one
    let (i, r) : Int × Nat := if neg then (if r = 0 then (-(i : Int), 0) else (-(i : Int) - 1, one - r)) else (i, r)
    ⟨false, expFix W (r * ln2Fix W / one), i - W, 24⟩
  | .log => let l := lnFix W m e; ⟨decide (l < 0), l.natAbs, -W, 24⟩
  | .log2 =>
    let l := lnFix W m e
    ⟨decide (l < 0), (l.natAbs * one / ln2Fix W : Nat), -W, 24⟩
  | .sin | .cos =>
    let (q, r) := reduce W m e
    let q := if f = .cos then q + 1 else q
    let s := sinFix W r.natAbs
    let v : Int := if q % 2 = 0 then (if r < 0 then -s else s) else cosFix W r.natAbs
    let v := if q / 2 % 2 = 1 then -v else v
    let v := if f = .sin && neg then -v else v
    ⟨decide (v < 0), v.natAbs, -W, 24⟩
  | .tanh =>
    let y := expApprox W (2 * x) true
    let y := fixOf W y.a.toNat y.e
    ⟨neg, ((one - y) * one / (one + y) : Nat), -W, 24⟩
  | .sigm =>
    let y := expApprox W x true
    let y := fixOf W y.a.toNat y.e
    ⟨false, ((if neg then y else one) * one / (one + y) : Nat), -W, 24⟩
  | .erf =>
    let x2 := fixOf W (m * m) (2 * e)
    let s := erfSeries W x2 (4 * W + 800) 1 x x
    let ex := expApprox W x2 true
    let rp := isqrt (piFix W * one)
    -- 2/√π × e^(−x²) × s
    let v := fixOf W (2 * ex.a.toNat * s / rp) (ex.e)
    ⟨neg, v, -W, 40⟩
  | .rcp | .rsq => ⟨neg, 0, 0, 0⟩

/-- Rounds both ends of the interval of an approximation; none where they differ or reach zero. -/
def roundApprox (F : Fmt) (v : FEnv) (x : Approx) : Option (Nat × BitVec 5) :=
  let lo := x.a - (2 ^ x.err : Nat)
  let hi := x.a + (2 ^ x.err : Nat)
  if lo ≤ 0 then none
  else
    let a := F.round v.md v.fzo v.draw x.neg ⟨lo.toNat, x.e, true⟩
    let b := F.round v.md v.fzo v.draw x.neg ⟨hi.toNat - 1, x.e, true⟩
    if a = b then some a else none

/-- Widths of 64, 128, … bits above the guard bits until the interval decides. DESIGN CHOICE: log 14. -/
def ziv (F : Fmt) (v : FEnv) (f : Fn9) (neg : Bool) (m : Nat) (e : Int) : Nat → Nat → Option (Nat × BitVec 5)
  | 0, _ => none
  | n + 1, W =>
    match roundApprox F v (f.approx W neg m e) with
    | some r => some r
    | none => ziv F v f neg m e n (W + 64)

/-- Just below 1. -/
def belowOne : Mag := ⟨2 ^ 200 - 1, -200, true⟩
/-- Just above 0. -/
def tinyMag : Mag := ⟨1, -4000, true⟩
/-- Beyond every format. -/
def hugeMag : Mag := ⟨1, 4000, true⟩

/-- The value by the interval; the implementation's own bits where the fuel runs out (DESIGN CHOICE, log 14). -/
def Fn9.byInterval (f : Fn9) (F : Fmt) (v : FEnv) (neg : Bool) (m : Nat) (e : Int) : Nat × BitVec 5 :=
  match ziv F v f neg m e Config.fnFuel 96 with
  | some r => r
  | none =>
    let w := Config.hardRound (Fn9.ctorIdx f) (BitVec.ofNat 64 m) (e.toNat * 2 ^ 10 + (-e).toNat)
    (w.toNat % 2 ^ F.w, fNX)

/-- A function at a finite non-zero argument (09 R253): exact values first, then limits, then the interval. -/
def Fn9.atFin (f : Fn9) (F : Fmt) (v : FEnv) (neg : Bool) (m : Nat) (e : Int) : Nat × BitVec 5 :=
  let top := (Nat.log2 m : Int) + e
  let pow2 := m == 2 ^ Nat.log2 m
  let big (n : Int) : Bool := decide (n ≤ top)
  match f with
  | .rcp => F.finish v neg (divMag 1 0 m e)
  | .rsq =>
    if neg then (F.dfltNaN, fNV)
    else
      -- 1/√a: the square root of the reciprocal, kept exact below
      let (m, e) := if e % 2 = 0 then (m, e) else (2 * m, e - 1)
      let n := 2 ^ 400 / m
      let r := isqrt n
      F.finish v false ⟨r, -(e / 2) - 200, r * r * m != 2 ^ 400⟩
  | .exp => if big 7 then F.round v.md v.fzo v.draw false (if neg then tinyMag else hugeMag) else f.byInterval F v neg m e
  | .exp2 =>
    if big 8 then F.round v.md v.fzo v.draw false (if neg then tinyMag else hugeMag)
    else if 0 ≤ e || m % 2 ^ (-e).toNat == 0 then
      let k : Int := fixOf 0 m e
      F.finish v false ⟨1, if neg then -k else k, false⟩
    else f.byInterval F v neg m e
  | .log => if neg then (F.dfltNaN, fNV) else if pow2 && top = 0 then (0, 0) else f.byInterval F v neg m e
  | .log2 => if neg then (F.dfltNaN, fNV) else if pow2 then F.ofInt v top else f.byInterval F v neg m e
  | .sin | .cos => f.byInterval F v neg m e
  | .tanh => if big 5 then F.round v.md v.fzo v.draw neg belowOne else f.byInterval F v neg m e
  | .sigm => if big 7 then F.round v.md v.fzo v.draw false (if neg then tinyMag else belowOne) else f.byInterval F v neg m e
  | .erf => if big 3 then F.round v.md v.fzo v.draw neg belowOne else f.byInterval F v neg m e

/-- A special function of a bit pattern (09 R253, R254, Table 9.11). An f32 function other than FRCP and FRSQ takes
the wide tie of R253; those two round to nearest-even. -/
def Fn9.eval (f : Fn9) (F : Fmt) (v : FEnv) (a : Nat) : Nat × BitVec 5 :=
  let v := if F.w = 32 then { v with md := if f = .rcp || f = .rsq then .ne else .wide } else v
  let x := F.decode (F.flush v.fzi a)
  let one := F.bias * 2 ^ F.fb
  let half := (F.bias - 1) * 2 ^ F.fb
  match x with
  | .nan neg s fr => (F.nanBits neg fr, if s then fNV else 0)
  | .inf neg => match f with
    | .exp | .exp2 => (if neg then 0 else F.infBits, 0)
    | .log | .log2 | .rsq => if neg then (F.dfltNaN, fNV) else if f = .rsq then (0, 0) else (F.infBits, 0)
    | .rcp => (F.signBit neg, 0)
    | .sin | .cos => (F.dfltNaN, fNV)
    | .tanh | .erf => (F.signBit neg + one, 0)
    | .sigm => (if neg then 0 else one, 0)
  | .fin neg m e =>
    if m = 0 then match f with
      | .exp | .exp2 | .cos => (one, 0)
      | .log | .log2 => (F.signBit true + F.infBits, fDZ)
      | .rcp | .rsq => (F.signBit neg + F.infBits, fDZ)
      | .sin | .tanh | .erf => (F.signBit neg, 0)
      | .sigm => (half, 0)
    else f.atFin F v neg m e

end Sys2Proof.Machine
end

