-- ==== Sys2Proof/Machine/Cause.lean ====
section
/-! DEFINITION. The causes of spec 21 Table 21.1 and how an access or an instruction stops. -/

namespace Sys2Proof.Machine

/-- 21 Table 21.1. -/
inductive Cause where
  | illop | priv | pcAlign | addrAlign | nomap | tableErr | perm | pmapMiss | addrRsv | peerAcc | attrAcc | dataErr
  | spadRange | rsetFull | sluiceFull | sendqFull | engqFull | mxqFull | monFull | joinFull | budget | detOp
  | badDesc | badMxcmd | badMsg | badJoin | badBar | badStage | badExc | badWset | htBad | jigBad | culvBad
  | qEmpty | qBind | qOver | spillFull | spillEmpty | mxAbsent | barOver | swtrap | joinOver | remoteFlt
  | slotEmpty | sbMissing | digestMismatch | barBusy | biasTimeout | badCtx | ctxState | shape | imgSmall
  deriving DecidableEq, Repr

/-- The 16-bit code of a cause (21 Table 21.1). -/
def Cause.code : Cause → Nat
  | .illop => 1 | .priv => 2 | .pcAlign => 3 | .addrAlign => 4 | .nomap => 5 | .tableErr => 6 | .perm => 7
  | .pmapMiss => 8 | .addrRsv => 9 | .peerAcc => 10 | .attrAcc => 11 | .dataErr => 12 | .spadRange => 13
  | .rsetFull => 14 | .sluiceFull => 15 | .sendqFull => 16 | .engqFull => 17 | .mxqFull => 18 | .monFull => 19
  | .joinFull => 20 | .budget => 21 | .detOp => 22 | .badDesc => 23 | .badMxcmd => 24 | .badMsg => 25
  | .badJoin => 26 | .badBar => 27 | .badStage => 28 | .badExc => 29 | .badWset => 30 | .htBad => 31
  | .jigBad => 32 | .culvBad => 33 | .qEmpty => 34 | .qBind => 35 | .qOver => 36 | .spillFull => 37
  | .spillEmpty => 38 | .mxAbsent => 39 | .barOver => 40 | .swtrap => 41 | .joinOver => 42 | .remoteFlt => 43
  | .slotEmpty => 44 | .sbMissing => 45 | .digestMismatch => 46 | .barBusy => 47 | .biasTimeout => 48
  | .badCtx => 49 | .ctxState => 50 | .shape => 51 | .imgSmall => 52

/-- The causes whose DETAIL is the base word (21 Table 21.1). -/
def Cause.baseWord : Cause → Bool
  | .illop | .priv | .detOp | .badDesc | .badMxcmd | .badMsg | .badJoin | .badBar | .badStage | .badExc | .badWset
  | .htBad | .jigBad | .culvBad | .mxAbsent => true
  | _ => false

/-- What a fault record holds of the moment of the fault: cause, DETAIL[31:0] where it is not the base word, virtual
address, walk level, whether a fetch faulted, clamp member (21 Tables 21.1 and 21.2). -/
structure Flt where
  cause : Cause
  detail : BitVec 32 := 0
  va : Word := 0
  level : Nat := 0
  fetch : Bool := false
  mem : Nat := 0
  pc : Option VAddr := none
  deriving DecidableEq, Repr

/-- How an operation stops short: a fault, a line that answers with retry (04 R129), a request that waits at its port (19 R385),
or an abort (04 R122). -/
inductive Stop where
  | flt (f : Flt)
  | retry
  | queued
  | abort
  deriving DecidableEq, Repr

/-- An operation on the machine that may stop short; what it changed before it stopped stands. -/
abbrev M := EStateM Stop State

/-- A fault of a clamp member's own access names the member (21 Table 21.2; 10 R267). -/
def atMember {α : Type} (k : Nat) (m : M α) : M α := fun s =>
  match m s with
  | .error (.flt f) s' => .error (.flt { f with mem := k }) s'
  | r => r

/-- Stops with a cause. -/
def stop {α : Type} (c : Cause) (detail : BitVec 32 := 0) : M α := throw (.flt { cause := c, detail })

/-- Stops with a cause unless a condition holds. DEDUCED: log 22. -/
def need (b : Bool) (c : Cause) (detail : BitVec 32 := 0) : M Unit := if b then pure () else stop c detail

end Sys2Proof.Machine
end

