-- ==== Sys2Proof/Machine/Order.lean ====
section
/-! DEFINITION. The order state of lines (spec 04): leases, engine accesses, pins, publication, monitors on a write,
and the posting of messages. -/

namespace Sys2Proof.Machine

/-! ## Lookups of the package's parts -/

namespace State

/-- The core of an identifier. -/
def core? (s : State) (c : Nat) : Option Core := tget? s.cores c
/-- The state with a core's record replaced. -/
def setCore (s : State) (c : Nat) (k : Core) : State := { s with cores := tput s.cores c k }
/-- A change to a core's record, where the core exists. -/
def onCore (s : State) (c : Nat) (f : Core → Core) : State :=
  match s.core? c with
  | some k => s.setCore c (f k)
  | none => s
/-- The task of the core that runs now. -/
def task? (s : State) : Option Task := (s.core? s.cur).bind Core.task
/-- The state with the current core's task replaced. -/
def setTask (s : State) (t : Task) : State := s.onCore s.cur fun k => { k with task := some t }
/-- The instance of an identifier. -/
def inst? (s : State) (i : Nat) : Option Inst := s.insts.find? fun n => n.id == i
/-- A change to an instance. -/
def onInst (s : State) (i : Nat) (f : Inst → Inst) : State :=
  { s with insts := s.insts.map fun n => if n.id == i then f n else n }
/-- A context. -/
def ctx? (s : State) (part ctx : Nat) : Option Ctx := s.ctxs.find? fun x => x.part == part && x.ctx == ctx
/-- A change to a context. -/
def onCtx (s : State) (part ctx : Nat) (f : Ctx → Ctx) : State :=
  { s with ctxs := s.ctxs.map fun x => if x.part == part && x.ctx == ctx then f x else x }
/-- A partition's block. -/
def part (s : State) (p : Nat) : Part := tget s.parts p {}
/-- An owner's block. -/
def owner (s : State) (o : Nat) : Owner := tget s.owners o {}
/-- The context of an instance, running or ended. -/
def instCtx (s : State) (i : Nat) : Nat × Nat :=
  match s.inst? i with
  | some n => (n.part, n.ctx)
  | none => tget s.ended i (0, 0)
/-- The core identifier of logical core `lid` of an instance. -/
def coreOf (s : State) (inst lid : Nat) : Option Nat :=
  (s.cores.find? fun p => p.2.inst == inst && p.2.lid == lid).map (·.1)
/-- The order state of a line. -/
def line (s : State) (l : Nat) : Line := tget s.lines l {}
/-- The state with a line's order state replaced. -/
def setLine (s : State) (l : Nat) (x : Line) : State := { s with lines := tput s.lines l x }

/-- 04 R111: the package's logical time, the largest of every core's pts and every wts and rts. DEDUCED: log 23. -/
def pkgTime (s : State) : Nat :=
  (s.corePts.map (·.2)).foldl max
    ((s.cores.map fun p => p.2.pts).foldl max ((s.lines.map fun p => max p.2.wts p.2.rts).foldl max 0))

end State

/-- The number of the physical core that runs a logical core: 576 a die, in the order of the dense numbers (00 R3). -/
def Core.physId (k : Core) : Nat := 576 * k.die + k.phys
/-- The number of the physical core of a logical core. -/
def State.pid (s : State) (c : Nat) : Nat := match s.core? c with | some k => k.physId | none => 0
/-- The pts of a physical core: the largest of the commits made there (04 R113). -/
def State.ptsAt (s : State) (phys : Nat) : Nat :=
  ((s.cores.filter fun p => p.2.physId == phys).map fun p => p.2.pts).foldl max (tget s.corePts phys 0)
/-- A physical core remembers the pts of a logical core that leaves it (04 R113). -/
def State.leavePts (s : State) (k : Core) : State :=
  { s with corePts := tput s.corePts k.physId (max (tget s.corePts k.physId 0) k.pts) }
/-- A change to an owner. -/
def State.setOwner (s : State) (o : Nat) (f : Owner → Owner) : State := { s with owners := tput s.owners o (f (s.owner o)) }
/-- The owner for whom a core's instance acts (18 R365). -/
def State.coreFor (s : State) (k : Core) : Nat := (s.part (s.instCtx k.inst).1).owner
/-- The counter of a substream that a core draws from (18 Table 18.2): selection, placement, stealing. -/
def Core.counter (k : Core) (sub : Nat) : BitVec 32 := if sub = 1 then k.selcnt else if sub = 2 then k.placecnt else k.stealcnt
/-- A draw that a core keyed advances its counter (18 R366). The owner's counter at the physical core follows it, and a later
launch there goes on from it. DESIGN CHOICE: log 59. -/
def State.drawn (s : State) (c sub : Nat) : State :=
  match s.core? c with
  | none => s
  | some k =>
    let k := match sub with
      | 1 => { k with selcnt := k.selcnt + 1 }
      | 2 => { k with placecnt := k.placecnt + 1 }
      | _ => { k with stealcnt := k.stealcnt + 1 }
    (s.setCore c k).setOwner (s.coreFor k) fun o => { o with events := tput o.events (sub, k.physId) (k.counter sub) }
/-- A logical core of an owner, as it comes to its physical core by a launch, a switch or a resume: it starts no earlier than the
last commit there (04 R113), and draws with the owner's counters there (18 R366). DESIGN CHOICE: log 59. -/
def State.enterAs (s : State) (owner : Nat) (k : Core) : Core :=
  let n (sub : Nat) : BitVec 32 := tget (s.owner owner).events (sub, k.physId) 0
  { k with pts := max k.pts (s.ptsAt k.physId), selcnt := n 1, placecnt := n 2, stealcnt := n 4 }
/-- The same, of a core of a running instance. -/
def State.enter (s : State) (k : Core) : Core := s.enterAs (s.coreFor k) k
/-- The saved counters of a core that a resume brings to a physical core (21 R421): those of the owner there go on from them where they
are further on, in the order of numbers that wrap. DESIGN CHOICE: log 59. -/
def State.bringCounters (s : State) (k : Core) : State :=
  s.setOwner (s.coreFor k) fun o => { o with events := [1, 2, 4].foldl (fun t sub =>
    let e : BitVec 32 := tget t (sub, k.physId) 0
    if (k.counter sub - e).toNat < 2 ^ 31 && k.counter sub != e then tput t (sub, k.physId) (k.counter sub) else t) o.events }
/-- The engine row of a core (00 R3, 16 R347). -/
def Core.row (k : Core) : Nat := 9 * k.die + k.phys / 64
/-- The bench of a core in dense order, 72 benches a die. -/
def Core.bench (k : Core) : Nat := 72 * k.die + k.phys / 8

/-- Whether the HOLD of a line turns away an agent; `me` is the core that asks, none for any other agent (04 R129). -/
def State.holdBlocks (s : State) (l : Nat) (me : Option Nat) : Bool :=
  match (s.line l).hold with
  | .free => false
  | .pinned c => me.map s.pid != some c
  | .locked c => me != some c

/-! ## Messages leave (14 R327, R470) -/

/-- The header of a hardware message (14 R470). -/
def hwHeader (dcore cnt cls ch : Nat) (rch seq : Nat := 0) : Word :=
  BitVec.ofNat 64 (seq * 2 ^ 54 + rch * 2 ^ 48 + 0x1FF * 2 ^ 24 + dcore * 2 ^ 12 + cnt * 2 ^ 9 + cls * 2 ^ 6 + ch)

/-- A message starts on its way. -/
def State.post (s : State) (f : Flight) : State := { s with net := s.net ++ [f] }

/-- A hardware message to a channel of a core: class, channel, payload, stamp, kind, place in the spawn tree, and the agent that
produces it: the core's own queue engine where none is given. -/
def State.postHw (s : State) (core cls ch : Nat) (pay : List Word) (stamp : Nat) (kind : MKind) (lin : Lineage)
    (prod : Nat × Nat := (0, core)) : State :=
  match s.core? core with
  | none => s
  | some k => s.post
      { msg := { hdr := hwHeader k.lid pay.length cls ch, pay, kind, stamp, inst := k.inst, lin }, inst := k.inst, lid := k.lid,
        prod }

/-- The lineage of a message with a spawn parent and an index (16 R352). -/
def childLin (parent : Word) (index : Nat) : Lineage :=
  { parent, index := BitVec.ofNat 64 index, path := gGen parent (BitVec.ofNat 64 index) }

/-- The lineage of a root (16 R350, R352). -/
def rootLin (pkey : Word) (index : Nat) : Lineage :=
  { root := true, index := BitVec.ofNat 64 index, path := gGen pkey (BitVec.ofNat 64 index) }

/-- The spawn index of a message of effect `q`, schedule entry `sch` and kind (16 R350). -/
def spawnIndex (q sch kind : Nat) : Nat := q * 2 ^ 20 + 4 * sch + kind

/-! ## Home slices (05 R158; 24 R447) -/

/-- The home slice of a line, 0 to 255: bits 7:6 name the die, bits 5:0 the slice within it (05 R158, 24 R447). -/
def homeSlice (s : State) (a : Nat) : Nat := (gGen s.plat.pkgKey (BitVec.ofNat 64 (a % 2 ^ 52 / 256))).toNat % 256
/-- The die of a line's home slice. -/
def homeDie (s : State) (a : Nat) : Nat := homeSlice s a / 64

/-! ## Format windows (03 R104 to R110) -/

/-- Scale bytes per data line. -/
def winPer (w : Window) : Nat := if w.layout = 0 then 4 else 2
/-- The length of the scale range (03 R105). -/
def winLen (w : Window) : Nat := if w.layout = 0 then w.dlimit / 16 else w.dlimit / 32

/-- The valid window whose data range holds an address. -/
def dataWin (s : State) (a : Nat) : Option Window :=
  (s.windows.find? fun p => p.2.v && decide (p.2.dbase ≤ a) && decide (a < p.2.dbase + p.2.dlimit)).map (·.2)
/-- The joined data line and its sideband byte that a scale address describes (03 R107, R109). -/
def scaleOf (s : State) (a : Nat) : Option (Nat × Nat) :=
  (s.windows.find? fun p => p.2.v && decide (p.2.sbase ≤ a) && decide (a < p.2.sbase + winLen p.2)).map fun p =>
    (p.2.dbase + 64 * ((a - p.2.sbase) / winPer p.2), (a - p.2.sbase) % winPer p.2)
/-- The scale address of byte `k` of a data line's sideband. -/
def scaleAddr (w : Window) (l k : Nat) : Nat := w.sbase + winPer w * ((l - w.dbase) / 64) + k
/-- A joined line's sideband; none where the line is in no data range (03 R107). -/
def sideband (s : State) (l : Nat) : Option (BitVec 32) :=
  (dataWin s l).map fun w => BitVec.ofNat 32 (leNat (mread s.mem (scaleAddr w l 0) (winPer w)))

/-- The line at whose home slice one byte is ordered: a scale byte's is the joined data line (03 R109). -/
def State.keyOf (s : State) (a : Nat) : Nat := match scaleOf s a with | some (d, _) => d | none => lineOf a

/-- The lines at whose home slices the bytes at some offsets from an address are ordered, each line once (03 R109). -/
def State.keysAt (s : State) (pa : Nat) (is : List Nat) : List Nat :=
  is.foldl (fun l i => if l.contains (s.keyOf (pa + i)) then l else l ++ [s.keyOf (pa + i)]) []

/-- The lines at whose home slices an access of `n` bytes is ordered (03 R109). -/
def State.keys (s : State) (pa n : Nat) : List Nat := s.keysAt pa (List.range n)

/-- The offsets of the bytes that a masked store writes (01 R28). -/
def present (bytes : List (Option Byte)) : List Nat := (List.range bytes.length).filter fun i => (bytes.getD i none).isSome

/-- The lines at whose home slices a masked store is ordered: those of the bytes that it writes (01 R28, 03 R109). -/
def State.keysM (s : State) (pa : Nat) (bytes : List (Option Byte)) : List Nat := s.keysAt pa (present bytes)

/-- Whether a line is poisoned: its own mark, or that of a scale byte of its sideband (02 R76, 03 R107). -/
def State.poisoned (s : State) (l : Nat) : Bool :=
  (s.line l).poison || (match dataWin s l with
    | some w => (List.range (winPer w)).any fun k => (s.line (lineOf (scaleAddr w l k))).poison
    | none => false)

/-! ## Monitors (06 R183) -/

/-- Whether a slice may look at a word for a monitor: none of its lines is pinned, which waits for publication (06 R183), and none
is poisoned (02 R76). A word of a scale range is watched at its joined data lines (03 R109). -/
def State.monSees (s : State) (pa : Nat) : Bool :=
  (s.keys pa 8).all fun l => !s.poisoned l && (match (s.line l).hold with | .pinned _ => false | _ => true)

/-- MonWrite on the words ordered at a line at logical time `t`: every armed monitor whose word has reached its value
posts and is disarmed. -/
def State.monLine (s : State) (l t : Nat) : State :=
  let fires (m : Mon) : Bool :=
    (s.keys m.pa 8).contains l && s.monSees m.pa && decide (m.expect.toNat ≤ leNat (mread s.mem m.pa 8))
  let s' := (s.mons.filter fires).foldl (fun s m =>
    s.postHw m.core 6 m.ch.toNat [leWord64 (mread s.mem m.pa 8), m.ea] t .monitor m.lin (2, homeSlice s m.pa)) s
  { s' with mons := s'.mons.filter fun m => !fires m }

/-- MonArm (06 R183): a monitor whose word has already reached its value posts at once; one whose word is pinned or poisoned stays
armed. -/
def State.armMon (s : State) (m : Mon) : State :=
  let ks := s.keys m.pa 8
  let v := leWord64 (mread s.mem m.pa 8)
  let t := (ks.map fun l => (s.line l).wts).foldl max 0
  if s.monSees m.pa && decide (m.expect.toNat ≤ v.toNat) then
    s.postHw m.core 6 m.ch.toNat [v, m.ea] t .monitor m.lin (2, homeSlice s m.pa)
  else { s with mons := s.mons ++ [m] }

/-! ## Replicas (05 R163 to R165) -/

/-- The data of a replica arrives at its helper slice: it is installed, or discarded where the recall came first (04 R141). -/
def State.landReplica (s : State) (die line : Nat) : State :=
  { s with replicas := (s.replicas.filter fun r => !(r.die == die && r.line == line && r.recalled)).map fun r =>
      if r.die == die && r.line == line then { r with here := true } else r }

/-- Whether the replica of a line on a die serves a lease that ends at `r`: the die's redirect entry leads to it, its data has
arrived, and `r` is no later than rlim (05 R163, R164). A line that is held at its home is served there (04 R129). -/
def State.replicaServes (s : State) (die line r : Nat) : Bool :=
  (s.line line).hold == .free && s.redirects.contains (die, line) &&
    s.replicas.any fun p => p.die == die && p.line == line && p.here && !p.recalled && decide (r ≤ p.rlim)

/-! ## One-line accesses -/

/-- 01 R37: a running task keeps the code bytes that stood when it started. -/
def Task.keepCode (t : Task) (l : Nat) (old : BitVec 512) : Task :=
  if t.icache.any fun e => e.1 == l then t else { t with icache := t.icache ++ [(l, old)] }

/-- Every running task keeps a line's bytes before a write of it (01 R37). -/
def State.keepCode (s : State) (l : Nat) : State :=
  let old := bytesVec (mread s.mem l 64)
  { s with cores := s.cores.map fun p => (p.1, { p.2 with task := p.2.task.map fun t => t.keepCode l old }) }

/-- Whether a store writes all 64 bytes of a line (02 R76). -/
def wholeLine (pa : Nat) (bytes : List (Option Byte)) : Bool :=
  pa == lineOf pa && bytes.length == 64 && bytes.all Option.isSome

/-- A store that writes a whole line clears the poison mark of that line (02 R76). -/
def State.cleanLine (s : State) (pa : Nat) (bytes : List (Option Byte)) : State :=
  if wholeLine pa bytes && (s.line pa).poison then s.setLine pa { s.line pa with poison := false } else s

/-- The order state of one line after a write of it at time `t`: wts and rts. Its replicas are recalled and its redirect
entries removed (05 R165), and it is not hot in this window (05 R163). Monitors look at it. -/
def State.stampLine (s : State) (l t : Nat) : State :=
  let x := s.line l
  let s := s.setLine l { x with wts := t, rts := t }
  let s : State := { s with
    ctl := s.ctl ++ (s.replicas.filter fun r => r.line == l).map (fun r => Ctl.recall l r.die)
    redirects := s.redirects.filter fun e => e.2 != l
    written := if s.written.contains l then s.written else s.written ++ [l] }
  s.monLine l t

/-- Bytes written at the home slice at time `t`: memory, poison (02 R76), and the order state of each line. -/
def State.writeLine (s : State) (pa : Nat) (bytes : List (Option Byte)) (t : Nat) : State :=
  let s := (s.keepCode (lineOf pa)).cleanLine pa bytes
  let s := { s with mem := mwriteMask s.mem pa bytes }
  (s.keysM pa bytes).foldl (fun s l => s.stampLine l t) s

/-- The latest lease on some lines. -/
def State.rtsOf (s : State) (ks : List Nat) : Nat := (ks.map fun l => (s.line l).rts).foldl max 0

/-- Whether an agent is turned away from one of some lines (04 R129). -/
def State.blocked (s : State) (ks : List Nat) (me : Option Nat) : Bool := ks.any fun l => s.holdBlocks l me

/-- An engine read within one line at a time of at least `t` (04 R138): it raises the line's rts. -/
def engRead (pa n t : Nat) : M (List Byte) := fun s =>
  let ks := s.keys pa n
  if s.blocked ks none then .error .retry s
  else if ks.any s.poisoned then .error (.flt { cause := .dataErr }) s
  else
    .ok (mread s.mem pa n) (ks.foldl (fun s l =>
      let x := s.line l
      s.setLine l { x with rts := max x.rts (max t x.wts) }) s)

/-- An engine write within one line, timed as a one-line write of 04 R117; the time it takes. -/
def engWrite (pa : Nat) (bytes : List (Option Byte)) (t : Nat) : M Nat := fun s =>
  let ks := s.keysM pa bytes
  if s.blocked ks none then .error .retry s
  else
    let ct := max t (s.rtsOf ks + 1)
    .ok ct (s.writeLine pa bytes ct)

/-- The atomic OR of one bit of an 8-byte word at its home slice, written at time `t` (02 R67, R68). -/
def State.orBit (s : State) (pa bit t : Nat) : State :=
  s.writeLine pa ((natBytes 8 (leNat (mread s.mem pa 8) ||| 2 ^ bit)).map some) t

/-- A walk sets one bit of an 8-byte word by an atomic OR at the word's home slice (02 R67); a bit already set needs none. 02 R68 does
not name the walker's own ORs among the writes that set a bit of the dirty bitmap, and they set none. DEDUCED: log 101. -/
def homeOr (pa : Nat) (bit : Nat) (t : Nat) : M Unit := fun s =>
  if (leNat (mread s.mem pa 8)).testBit bit then .ok () s
  else if s.blocked (s.keys pa 8) none then .error .retry s
  else .ok () (s.orBit pa bit (max t (s.rtsOf (s.keys pa 8) + 1)))

/-- The die of a core. -/
def State.dieOf (s : State) (c : Nat) : Nat := ((s.core? c).map (·.die)).getD 0

/-- 04 R114: a lease on a line for the task of core `me` started at `t`; its wts and the lease's end. A replica of the core's
die serves one that ends by its rlim, without the home (05 R164); every other one, and that of a locked task, is the home's. -/
def lease (l t me : Nat) (lock : Bool) : M (Nat × Nat) := fun s =>
  let x := s.line l
  let r0 := max t x.wts + s.leaseLen
  if s.holdBlocks l (some me) then .error .retry s
  else if !lock && s.replicaServes (s.dieOf me) l r0 then .ok (x.wts, r0) s
  else
    let r := max x.rts r0
    let hold := if lock then (match x.hold with | .free => .locked me | h => h) else x.hold
    let s := s.setLine l { x with rts := r, hold }
    .ok (x.wts, r) { s with grants := tput s.grants l (tget s.grants l 0 + 1) }

/-- A task that has recorded a pinned line takes over the lease that its publication gives (04 R130). -/
def Task.leased (t : Task) (l r : Nat) : Task :=
  { t with reads := t.reads.map fun e => if e.line == l && e.r == none then { e with r := some r } else e }

/-- 04 R130: publication of a pinned line. The task that then runs on the holder takes the lease over for a read it has recorded. -/
def State.publish (s : State) (l : Nat) : State :=
  let x := s.line l
  match x.hold with
  | .pinned c =>
    let r := max x.wts (s.ptsAt c) + s.leaseLen
    let s := s.setLine l { x with hold := .free, rts := r }
    let s : State := { s with cores := s.cores.map fun (p : Nat × Core) =>
      if p.2.physId == c then (p.1, { p.2 with task := p.2.task.map fun t => t.leased l r }) else p }
    s.monLine l x.wts
  | _ => s

/-- Every line that a physical core has pinned is published (04 R126, R130). -/
def State.publishPhys (s : State) (phys : Nat) : State :=
  (s.lines.filter fun p => p.2.hold == .pinned phys).foldl (fun s p => s.publish p.1) s

/-- Every line that tasks of a context have pinned is published (04 R130). -/
def State.publishCtx (s : State) (part ctx : Nat) : State :=
  (s.lines.filter fun p => p.2.pinCtx == (part, ctx) && (match p.2.hold with | .pinned _ => true | _ => false)).foldl
    (fun s p => s.publish p.1) s

/-- Every line that the physical core of a logical core has pinned is published. -/
def State.publishAll (s : State) (c : Nat) : State := s.publishPhys (s.pid c)

/-! ## Host memory (02 R70; 04 R132, R133) -/

/-- Whether a scope is host or wider. -/
def scWide (sc : Scope) : Bool :=
  match sc with
  | .host | .board | .pod | .pool | .sys => true
  | _ => false

/-- Whether the bias table of a partition has a host-shared page in host bias (02 R70, DESIGN CHOICE, log 9). -/
def hostBias (s : State) (part pa : Nat) : Bool := tget s.bias (part, pa / 65536) false

/-- Whether accesses to a page of host memory that no partition makes, the host's own among them, are direct: every partition whose map
reaches the page has it in host bias, and one does (02 R70). DESIGN CHOICE: log 9. -/
def hostDirect (s : State) (pa : Nat) : Bool :=
  let mine := s.parts.filter fun p => p.2.pmap.any fun e => e.2.v && decide (e.2.hbase ≤ pa) && decide (pa < e.2.hbase + e.2.limit)
  !mine.isEmpty && mine.all fun p => hostBias s p.1 pa

/-- The core number under which the device's own writes to host memory wait for their acknowledgements. -/
def devCore : Nat := 2 ^ 32

/-- A CXL write of a physical core to host memory leaves (02 R70): it is pending until the host acknowledges it (04 R133). -/
def State.hostWrite (s : State) (core pa : Nat) (bytes : List (Option Byte)) (cmd : Option Nat := none) : State :=
  { s with hostPend := s.hostPend ++ [{ id := s.ackNext, core, pa, bytes, cmd }], ackNext := s.ackNext + 1 }

/-- A write reaches the host's memory, where every reader now sees it. -/
def State.landWrite (s : State) (w : HostWrite) : State :=
  let s := (s.keepCode (lineOf w.pa)).cleanLine w.pa w.bytes
  { s with mem := mwriteMask s.mem w.pa w.bytes, hostPend := s.hostPend.filter fun x => x.id != w.id }

/-- The host acknowledges a write as globally visible. The writes of one physical core become visible in the order in which they left, and
those of different cores in any order (04 R132). -/
def State.ackHost (s : State) (id : Nat) : State :=
  match s.hostPend.find? fun w => w.id == id with
  | none => s
  | some w => if (s.hostPend.find? fun x => x.core == w.core) == some w then s.landWrite w else s

/-- Bytes of host memory as an access of a physical core sees them: its own writes that are not visible yet come before what the host's memory
holds. DEDUCED: log 102. -/
def State.hostRead (s : State) (core pa n : Nat) : List Byte :=
  mread ((s.hostPend.filter fun w => w.core == core).foldl (fun m w => mwriteMask m w.pa w.bytes) s.mem) pa n

/-- The HOLDs of a locked task are released (04 R124). -/
def State.unlock (s : State) (c : Nat) : State :=
  { s with lines := s.lines.map fun p => if p.2.hold == .locked c then (p.1, { p.2 with hold := .free }) else p }

end Sys2Proof.Machine
end

