-- ==== Sys2Proof/Machine/Lottery.lean ====
section
/-! DEFINITION. The lottery and the weir of the structures that owners share (spec 18 R372, R373), and the L2 request ports at
which the line requests of tasks wait (19 R385). -/

namespace Sys2Proof.Machine

/-! ## The lottery and the weir (18 R372, R373) -/

/-- The default table of a bench: draw d names position d mod 8 (11 R286). -/
def benchTab : List Byte := (List.range 256).map fun d => BitVec.ofNat 8 (d % 8)
/-- A lottery instance as it is after reset (18 Table 18.4, 11 R286). -/
def lottDflt (cls : Nat) : Lott := if cls = 0x30 then { wtab := benchTab } else {}
/-- The lottery instance of a class. -/
def State.lott (s : State) (cls idx : Nat) : Lott := tget s.lotts (cls, idx) (lottDflt cls)
def State.setLott (s : State) (cls idx : Nat) (l : Lott) : State := { s with lotts := tput s.lotts (cls, idx) l }
/-- The numbers of a class's instances in the package: a walker pool for each die, a request port for each L2 slice, a copy engine for each
row, a matrix unit for each bench (00 R2; 18 Table 18.3). The spec does not say how many router ports, die-to-die ports and memory
controllers there are: at least one of each, and of controllers for each tier and die, whose numbers hold both. DESIGN CHOICE: log 19. -/
def lottIdx (cls : Nat) : List Nat :=
  match cls with
  | 0x08 => List.range 4
  | 0x11 => List.range 256
  | 0x13 => (List.range 12).flatMap fun td =>
      (List.range (min 256 (Config.lottCount (0x1300 + td) + 1))).map fun i => 1024 * (td / 4) + 256 * (td % 4) + i
  | 0x14 => List.range 36
  | 0x30 => List.range 288
  | 0x10 | 0x12 => List.range (min 4096 (Config.lottCount cls + 1))
  | _ => []

/-- Whether a contender counts as allocated at an instance: at a bench every position does (18 R372). -/
def Lott.isAlloc (l : Lott) (bench : Bool) (o : Nat) : Bool := bench || l.alloc.getLsbD o

/-- The weight of a contender: the entries that name it. -/
def Lott.weight (l : Lott) (o : Nat) : Nat := (l.wtab.filter fun b => b.toNat == o).length

/-- The draw of a slot: the holder's own at a bench, the XOR over the allocated owners elsewhere. -/
def State.slotDraw (s : State) (cls idx : Nat) (holder : Option Nat) : Byte :=
  let l := s.lott cls idx
  let one (o : Nat) : Byte := drawD (s.owner o).seed (BitVec.ofNat 8 cls) l.k
  match holder with
  | some o => one o
  | none => ((List.range 64).filter fun o => l.alloc.getLsbD o).foldl (fun d o => d ^^^ one o) 0

/-- The winner of a slot among contenders in rising order, once the weir queue holds only contenders. -/
def Lott.pick (l : Lott) (bench : Bool) (d : Byte) (want weir : List Nat) : Option Nat :=
  match weir with
  | g :: _ => some g
  | [] =>
    let found := (List.range 256).findSome? fun i =>
      let o := (l.wtab.getD ((d.toNat + i) % 256) 0xFF#8).toNat
      if o != 0xFF && l.isAlloc bench o && want.contains o then some o else none
    found.orElse fun _ => (want.find? fun o => l.isAlloc bench o).orElse fun _ => want.head?

/-- A slot's grant and what it leaves at the instance (18 R372, R373). -/
def Lott.grant (l : Lott) (bench : Bool) (d : Byte) (want : List Nat) : Option (Nat × Lott) :=
  let weir := l.weir.filter want.contains
  match l.pick bench d want weir with
  | none => none
  | some g =>
    let weir := weir.filter (· != g)
    let lc := (want.filter fun o => o != g && l.isAlloc bench o).map fun o => (o, tget l.lc o 0 + 1)
    let joins := (lc.filter fun p => decide (l.gw ≤ p.2) && !weir.contains p.1).map (·.1)
    some (g, { l with k := l.k + 1, lc, weir := weir ++ joins })

/-- A slot at an instance: the granted contender and the machine after it. -/
def State.lottery (s : State) (cls idx : Nat) (holder : Option Nat) (want : List Nat) : Option (Nat × State) :=
  ((s.lott cls idx).grant holder.isSome (s.slotDraw cls idx holder) want).map fun r => (r.1, s.setLott cls idx r.2)

/-- A slot in which nobody contends: every loss count returns to 0 and WeirQueue is empty; the slot counter stands (18 R372, R373). -/
def State.idleSlot (s : State) (cls idx : Nat) : State :=
  let l := s.lott cls idx
  if l.lc.isEmpty && l.weir.isEmpty then s else s.setLott cls idx { l with lc := [], weir := [] }

/-! ## L2 request ports (19 R385) -/

/-- The owner that a core's tasks act for (18 R365). -/
def State.coreOwner (s : State) (c : Nat) : Nat :=
  match s.core? c with
  | some k => (s.part (s.instCtx k.inst).1).owner
  | none => 0

/-- Whether a line request still waits for a task: the one that sent it runs, and has not recorded the line. -/
def LineReq.live (s : State) (r : LineReq) : Bool :=
  match (s.core? r.core).bind Core.task with
  | some t => t.ts == r.ts && !t.committing && !t.reads.any fun e => e.line == r.line
  | none => false

/-- The slice at which a line request of a core's task is served: the helper slice of a replica on the core's die that serves it,
else the home slice (05 R158, R164). -/
def State.servingSlice (s : State) (c l ts : Nat) : Nat :=
  let die := s.dieOf c
  if s.replicaServes die l (max ts (s.line l).wts + s.leaseLen) then
    64 * die + ((s.replicas.find? fun p => p.die == die && p.line == l).map (·.slice)).getD 0 % 64
  else homeSlice s l

/-- The requests that wait at a port, in arrival order. -/
def State.portReqs (s : State) (slice : Nat) : List LineReq := s.lineReqs.filter fun r => r.slice == slice && r.live s

/-- The slot after the last at a port: the owners with a request waiting contend, and the grant goes to the oldest request of the
winner (19 R385); none where no request waits. -/
def State.portSlot (s : State) (slice : Nat) : Option (LineReq × State) :=
  let reqs := s.portReqs slice
  match s.lottery 0x11 slice none ((List.range 64).filter fun o => reqs.any fun r => s.coreOwner r.core == o) with
  | none => none
  | some (g, s1) => match reqs.find? fun r => s.coreOwner r.core == g with
    | none => none
    | some r => some (r, { s1 with lineReqs := s1.lineReqs.erase r, portAt := tput s1.portAt slice s1.now })

/-- Whether a slot of a port has passed in this cycle: the next one passes in a later cycle (18 R371, R372). -/
def State.portBusy (s : State) (slice : Nat) : Bool := tget? s.portAt slice == some s.now

/-- A line request of a core's task joins the queue of its port, unless it waits there already or the core has 8 outstanding
(19 R385). -/
def State.sendReq (s : State) (r : LineReq) : State :=
  let s := { s with lineReqs := s.lineReqs.filter (LineReq.live s) }
  if s.lineReqs.contains r || decide (8 ≤ (s.lineReqs.filter fun x => x.core == r.core).length) then s
  else { s with lineReqs := s.lineReqs ++ [r] }

end Sys2Proof.Machine
end

