-- ==== Sys2Proof/Machine/Trans.lean ====
section
/-! DEFINITION. Translation (spec 02 R50 to R69): page walk, partition map, access checks, translation caches,
A and D bits and the dirty bitmap. -/

namespace Sys2Proof.Machine

/-- 02 Table 2.2. `bad` is a reserved region, a bit that must be zero, or an offset at or above the populated size. -/
inductive Region where
  | near | far | deep | host | peer | config | bad
  deriving DecidableEq, Repr

/-- The region of a final physical address (02 R47, R48; 24 R446). -/
def region (pl : Plat) (pa : Nat) : Region :=
  let off := pa % 2 ^ 48
  match pa / 2 ^ 48 with
  | 0 => if off < 2 ^ 34 && off % 2 ^ 32 < pl.memNear * 2 ^ 20 then .near else .bad
  | 1 => if off < 2 ^ 38 && off % 2 ^ 36 < pl.memFar * 2 ^ 20 then .far else .bad
  | 2 => if off < 2 ^ 41 && off < pl.memDeep * 2 ^ 30 then .deep else .bad
  | 3 => .host
  | 4 => .peer
  | 14 => .config
  | _ => .bad

/-- Whether an address lies in memory that an agent of the package may reach by itself (02 R48, R49). -/
def inMemory (pl : Plat) (pa : Nat) : Bool :=
  match region pl pa with
  | .near | .far | .deep | .host => true
  | _ => false

/-- The one map entry that a guest physical address matches (02 R59). -/
def mapMatch (s : State) (part gpa : Nat) : Option (Nat × PMapEnt) :=
  match (s.part part).pmap.filter fun p => p.2.v && decide (p.2.gbase ≤ gpa) && decide (gpa < p.2.gbase + p.2.limit) with
  | [e] => some e
  | _ => none

/-- A fault of a walk, with the level whose entry could not be read or used (02 R57). -/
def walkFault {α : Type} (c : Cause) (va : VAddr) (lvl : Nat) : M α :=
  throw (.flt { cause := c, va := va.setWidth 64, level := lvl })

/-- The final address of a page-table entry (02 R55): checked as any read is. -/
def tableAddr (part gpa : Nat) (va : VAddr) (lvl : Nat) : M Nat := do
  let s ← get
  match mapMatch s part gpa with
  | none => walkFault .pmapMiss va lvl
  | some (_, e) =>
    if !e.rd then walkFault .pmapMiss va lvl
    else
      let pa := gpa - e.gbase + e.hbase
      match region s.plat pa with
      | .peer => walkFault .peerAcc va lvl
      | .bad | .config => walkFault .addrRsv va lvl
      | _ => return pa

/-- One page-table entry at the value most recently committed (02 R63); one in a scale range is read at its joined data lines
(03 R109). DEDUCED: log 26. -/
def tableRead (pa : Nat) (va : VAddr) (lvl : Nat) : M Word := fun s =>
  let ks := s.keys pa 8
  if s.blocked ks none then .error .retry s
  else if ks.any s.poisoned then .error (.flt { cause := .dataErr, va := va.setWidth 64, level := lvl }) s
  else .ok (leWord64 (mread s.mem pa 8)) s

/-- A leaf that a walk reached: the entry, its level, guest address, log2 of the page size, lead entry's address, and whether the other
entries of its group hold the same. -/
structure Leaf where
  e : Word
  lvl : Nat
  gpa : Nat
  logsz : Nat
  lead : Nat
  alike : Bool
  deriving DecidableEq, Repr

/-- Whether the `n` entries of a group from a lead entry are all `e`, apart from A and D (02 R52). -/
def groupAlike (s : State) (lead n : Nat) (e : Word) : Bool :=
  let bare (w : Word) : Word := w &&& ~~~(3 <<< 6 : Word)
  (List.range n).all fun i => bare (leWord64 (mread s.mem (lead + 8 * i) 8)) == bare e

/-- The page walk (02 R55) over `n` levels from table `tab`. -/
def walkFrom (part : Nat) (va : VAddr) : Nat → Nat → M Leaf
  | 0, _ => walkFault .tableErr va 3
  | n + 1, tab => do
    let lvl := 3 - n
    let idx := fld va (55 - 10 * lvl) (46 - 10 * lvl)
    let pa ← tableAddr part (tab + 8 * idx) va lvl
    let e ← tableRead pa va lvl
    if !e.getLsbD 0 then walkFault .nomap va lvl
    else if e.getLsbD 1 then
      if lvl == 3 || fld e 12 2 != 0 then walkFault .tableErr va lvl
      else walkFrom part va n (fld e 51 13 * 2 ^ 13)
    else
      let sz := fld e 9 8
      if fld e 15 13 != 0 || e.getLsbD 10 || fld e 12 11 == 3 then walkFault .tableErr va lvl
      else if e.getLsbD 3 && !e.getLsbD 2 then walkFault .tableErr va lvl
      else
        let leaf (log group : Nat) : M Leaf := do
          if fld e 51 16 * 2 ^ 16 % 2 ^ log != 0 then walkFault .tableErr va lvl
          else
            let lead ← tableAddr part (tab + 8 * (idx / group * group)) va lvl
            return { e, lvl, gpa := fld e 51 16 * 2 ^ 16 + va.toNat % 2 ^ log, logsz := log, lead, alike := groupAlike (← get) lead group e }
        if lvl == 2 && sz == 2 then leaf 30 16
        else if lvl == 3 && sz == 0 then leaf 16 1
        else if lvl == 3 && sz == 1 then leaf 21 32
        else walkFault .tableErr va lvl

/-- Whether the leaf's and the map entry's bits allow an access kind (02 Table 2.7 steps 2 and 3). -/
def kindOk (k : AccKind) (rd w x : Bool) : Bool :=
  match k with
  | .load => rd
  | .store => w
  | .atomic => rd && w
  | .fetch => x

/-- Steps 1 to 5 of 02 Table 2.7 on a translation. -/
def accessCheck (pl : Plat) (e : TlbEnt) (priv : Bool) (k : AccKind) (peerOk : Bool) (pa : Nat) : Option Cause :=
  let r := region pl pa
  if !e.u && !priv then some .perm
  else if !kindOk k e.rd e.w e.x then some .perm
  else if !kindOk k e.mrd e.mw e.mx then some .pmapMiss
  else if (e.attr == 1 && r != .host) || ((e.attr == 2) != (r == .config)) then some .tableErr
  else if r == .bad then some .addrRsv
  else if r == .peer && !peerOk then some .peerAcc
  else none

/-- The cached translation of an address that is still held (02 R61). The choice is the implementation's. -/
def tlbFind (s : State) (key : Nat) (part ctx : Nat) (va : VAddr) : Option TlbEnt :=
  (s.tlbs.find? fun p => p.1 == key && p.2.part == part && p.2.ctx == ctx &&
    decide (p.2.vbase ≤ va.toNat) && decide (va.toNat < p.2.vbase + 2 ^ p.2.logsz)).map (·.2)

/-- A cache takes a translation; the oldest of more than `cap` leaves (02 R61). DESIGN CHOICE: log 10. -/
def tlbAdd (t : List (Nat × TlbEnt)) (key cap : Nat) (e : TlbEnt) : List (Nat × TlbEnt) :=
  let mine := t.filter fun p => p.1 == key
  let rest := t.filter fun p => p.1 != key
  rest ++ ((mine.drop (mine.length + 1 - cap)) ++ [(key, e)])

/-- The names of the micro-TLB of the physical core and of the TLB of the bench that core `c` runs on (02 R61). -/
def tlbKeys (s : State) (c : Nat) : Nat × Nat :=
  match s.core? c with
  | some k => (2 * k.physId, 2 * k.bench + 1)
  | none => (0, 1)

/-- The walkers that an owner holds on a die, and all that are held there (02 R62). -/
def walkersOf (s : State) (die owner : Nat) : Nat := (s.walkers.filter fun w => w == (die, owner)).length
def walkersOn (s : State) (die : Nat) : Nat := (s.walkers.filter fun w => w.1 == die).length

/-- Whether a walk of an owner may take a walker of a die: 64 a die, and at most WQUOTA for the owner (02 R62). -/
def walkerFree (s : State) (die owner : Nat) : Bool :=
  decide (walkersOn s die < 64) && decide (walkersOf s die owner < (s.owner owner).wquota)

/-- Whether one map entry, and no other, translates every address of a page (02 R59). A page that is not whole is cached by units of
64 KiB, which an entry translates whole or not at all. -/
def pageWhole (s : State) (part mi : Nat) (me : PMapEnt) (base size : Nat) : Bool :=
  decide (me.gbase ≤ base) && decide (base + size ≤ me.gbase + me.limit) &&
    !(s.part part).pmap.any fun p => p.1 != mi && p.2.v && decide (p.2.gbase < base + size) && decide (base < p.2.gbase + p.2.limit)

/-- The translation of an address by a fresh walk and its checks; A is set once every check has passed (02 R67). A walk ahead of
the instruction that needs it is dropped where the lead entry has A = 0 (02 R66).
`key` names the core whose micro-TLB and bench TLB take the translation (02 R61): of the whole page where the entries of its group agree,
else of what the indexed entry alone translates (02 R52). DESIGN CHOICE: log 10. -/
def walkEntry (key : Option Nat) (part ctx : Nat) (priv : Bool) (k : AccKind) (peerOk ahead : Bool) (va : VAddr) : M Xlat := do
  let s ← get
  let root := match s.ctx? part ctx with | some c => fld c.ttbase 51 13 * 2 ^ 13 | none => 0
  let l ← walkFrom part va 4 root
  let b (i : Nat) := l.e.getLsbD i
  if !b 5 && !priv then walkFault .perm va l.lvl
  else if !kindOk k (b 2) (b 3) (b 4) then walkFault .perm va l.lvl
  else match mapMatch s part l.gpa with
  | none => walkFault .pmapMiss va l.lvl
  | some (mi, me) =>
    let pa := l.gpa - me.gbase + me.hbase
    let span := if l.alike then l.logsz else if l.lvl == 2 then 26 else 16
    let log := if pageWhole s part mi me (l.gpa / 2 ^ span * 2 ^ span) (2 ^ span) then span else 16
    let e : TlbEnt :=
      { part, ctx, vbase := va.toNat / 2 ^ log * 2 ^ log, logsz := log, pbase := pa - va.toNat % 2 ^ log,
        u := b 5, x := b 4, w := b 3, rd := b 2, mx := me.x, mw := me.w, mrd := me.rd,
        attr := l.e.extractLsb' 11 2, mapi := mi, lead := l.lead, dseen := b 7, lvl := l.lvl, pglog := l.logsz }
    match accessCheck s.plat e priv k peerOk pa with
    | some c => walkFault c va l.lvl
    | none => do
      let lw ← tableRead l.lead va l.lvl
      if ahead && !lw.getLsbD 6 then throw .abort
      homeOr l.lead 6 0
      let e := { e with dseen := lw.getLsbD 7 }
      match key with
      | none => pure ()
      | some c => modify fun s =>
          { s with tlbs := tlbAdd (tlbAdd s.tlbs (tlbKeys s c).1 32 e) (tlbKeys s c).2 1024 e }
      return { va, pa, attr := e.attr, mapi := mi, lead := l.lead, dseen := e.dseen, part, lvl := l.lvl }

/-- A walk takes a walker of a die and gives it back when it ends: the owner contends in a slot of the die's pool (18 Table 18.2). One
whose owner holds its quota, or that finds no free walker, waits at its requester and does not contend (02 R62). -/
def takeWalker (die owner : Nat) : M Unit := fun s =>
  if !walkerFree s die owner then .error .retry s
  else match s.lottery 0x08 die none [owner] with
    | some (_, s1) => .ok () s1
    | none => .ok () s

/-- A walk for a core or, of a die, for an engine (02 R62). -/
def walkXlat (key : Option Nat) (die part ctx : Nat) (priv : Bool) (k : AccKind) (peerOk : Bool) (va : VAddr) : M Xlat := do
  let s ← get
  takeWalker ((key.map s.dieOf).getD die) (s.part part).owner
  walkEntry key part ctx priv k peerOk false va

/-- What a cached translation gives for an address. -/
def TlbEnt.xlat (e : TlbEnt) (va : VAddr) : Xlat :=
  { va, pa := e.pbase + va.toNat % 2 ^ e.logsz, attr := e.attr, mapi := e.mapi, lead := e.lead, dseen := e.dseen,
    part := e.part, lvl := e.lvl }

/-- Whether a fresh walk would give the same translation and find A set: then it is the same which one an access uses.
DESIGN CHOICE: log 10. -/
def walkAgrees (part ctx : Nat) (priv : Bool) (k : AccKind) (peerOk : Bool) (x : Xlat) (s : State) : Bool :=
  match walkEntry none part ctx priv k peerOk false x.va s with
  | .ok y _ => decide (y = x) && (leNat (mread s.mem x.lead 8)).testBit 6
  | .error .. => false

/-- Translation and checks of an access (02 R55, R56), through the caches of 02 R61 where they still hold it. Where a walk would
now find something else, a free value says whether the caches still hold it (DESIGN CHOICE, log 10). `die` is an engine's. -/
def translate (key : Option Nat) (die part ctx : Nat) (priv : Bool) (k : AccKind) (peerOk : Bool) (va : VAddr) : M Xlat := do
  let s ← get
  let hit := match key with
    | none => none
    | some c => (tlbFind s (tlbKeys s c).1 part ctx va).orElse fun _ => tlbFind s (tlbKeys s c).2 part ctx va
  match hit with
  | none => walkXlat key die part ctx priv k peerOk va
  | some e =>
    let x := e.xlat va
    let fault := accessCheck s.plat e priv k peerOk x.pa
    if fault.isNone && walkAgrees part ctx priv k peerOk x s then return x
    else do
      set { s with freeCnt := s.freeCnt + 1 }
      if Config.freeBool s.freeCnt then
        match fault with
        | some c => walkFault c va e.lvl
        | none => return x
      else walkXlat key die part ctx priv k peerOk va

/-- The translation that run-ahead of core `c` finds for an access of its task: from the caches, or by a walk, which takes a walker as
any walk does and is dropped where it fails or reaches a lead entry with A = 0 (02 R62, R66). -/
def xlatAhead (c : Nat) (part ctx : Nat) (priv : Bool) (k : AccKind) (va : VAddr) : M Xlat := do
  let s ← get
  match (tlbFind s (tlbKeys s c).1 part ctx va).orElse fun _ => tlbFind s (tlbKeys s c).2 part ctx va with
  | some e => if (accessCheck s.plat e priv k false (e.xlat va).pa).isNone then return e.xlat va else throw .abort
  | none =>
    takeWalker (s.dieOf c) (s.part part).owner
    walkEntry (some c) part ctx priv k false true va

/-- The word and bit of the dirty bitmap for an address that a map entry with DT translates (02 R68). A word that lies in no memory of
the package or the host takes no bit: the OR would raise ADDR_RSV or PEER_ACC (02 R48, R49) and no agent makes it. DEDUCED: log 101. -/
def dirtyBit (s : State) (part mapi pa : Nat) : List (Nat × Nat) :=
  match tget? (s.part part).pmap mapi with
  | some e =>
    if e.dt && decide (e.hbase ≤ pa) then
      let n := (pa - e.hbase) / 65536
      let a := e.dtbase + 8 * (n / 64)
      if inMemory s.plat a then [(a, n % 64)] else []
    else []
  | none => []

/-- The bits that a write through a translation sets: D of the lead entry where the translation recorded it clear (02 R67), and
one of the dirty bitmap (02 R68). -/
def Xlat.dirty (s : State) (x : Xlat) : List (Nat × Nat) :=
  (if x.dseen then [] else [(x.lead, 7)]) ++ dirtyBit s x.part x.mapi x.pa

/-- The lines of those bits: they are written at the time of the write itself (02 R67 to R69). -/
def Xlat.dirtyKeys (s : State) (x : Xlat) : List Nat := (x.dirty s).flatMap fun w => s.keys w.1 8

/-- Some bits are set by atomic ORs at one time. -/
def State.orBits (s : State) (ws : List (Nat × Nat)) (t : Nat) : State := ws.foldl (fun s w => s.orBit w.1 w.2 t) s

/-- D and the dirty bitmap, as part of a write at time `t` (02 R67 to R69). -/
def State.markDirty (s : State) (x : Xlat) (t : Nat) : State := s.orBits (x.dirty s) t

/-- An engine write within one line through a translation: the line, D and the dirty bitmap at one time (02 R67, R68; 04
R138). -/
def engWriteX (x : Xlat) (bytes : List (Option Byte)) (t : Nat) : M Nat := fun s =>
  let ks := s.keysM x.pa bytes ++ x.dirtyKeys s
  if s.blocked ks none then .error .retry s
  else
    let ct := max t (s.rtsOf ks + 1)
    .ok ct ((s.writeLine x.pa bytes ct).markDirty x ct)

/-- An access that acts for a context outside a task: engines, the dispatcher, the fault queue (06 R168). Copies, RDB and
remote atomics alone reach peer memory, and any other access to region 4 raises PEER_ACC (02 R49). Its walks use the walkers of
`die`: those of a row for its engines, of die 0 for the dispatcher and the steward. DEDUCED: log 27. -/
def engXlat (part ctx : Nat) (priv : Bool) (k : AccKind) (va : Nat) (peerOk : Bool := false) (die : Nat := 0) : M Xlat := do
  let x ← translate none die part ctx priv k peerOk (BitVec.ofNat 56 va)
  if x.attr == 2 then throw (.flt { cause := .attrAcc, va := BitVec.ofNat 64 va }) else return x

/-- The address of a fault that an engine meets at a global address (06 R195). -/
def atVA {α : Type} (va : Nat) (m : M α) : M α := fun s =>
  match m s with
  | .error (.flt f) s' => .error (.flt { f with va := BitVec.ofNat 64 (va % 2 ^ 56) }) s'
  | r => r

/-- Whether an access through a translation goes to the host (02 R70). -/
def Xlat.toHost (s : State) (x : Xlat) : Bool := x.attr == 1 && hostBias s x.part x.pa

/-- A write that leaves the package through a translation: D and the dirty bitmap are set at a time of at least `t` (02 R67, R68), which
it answers. -/
def farDirty (x : Xlat) (t : Nat) : M Nat := fun s =>
  let ks := x.dirtyKeys s
  if s.blocked ks none then .error .retry s
  else
    let ct := max t (s.rtsOf ks + 1)
    .ok ct (s.markDirty x ct)

/-- Bytes of a host-bias page, as an access of core `c` reads them (02 R70, R76). -/
def hostGet (c pa n : Nat) : M (List Byte) := fun s =>
  if s.poisoned (lineOf pa) then .error (.flt { cause := .dataErr }) s else .ok (s.hostRead c pa n) s

/-- Bytes read by an engine at a virtual address, within one line. -/
def engLoad (part ctx : Nat) (priv : Bool) (va n t : Nat) : M (List Byte) := atVA va do
  let x ← engXlat part ctx priv .load va
  if x.toHost (← get) then hostGet devCore x.pa n else engRead x.pa n t

/-- Bytes written by an engine at a virtual address, within one line; the time the write takes. -/
def engStore (part ctx : Nat) (priv : Bool) (va : Nat) (bytes : List (Option Byte)) (t : Nat) : M Nat := atVA va do
  let x ← engXlat part ctx priv .store va
  if x.toHost (← get) then do
    let ct ← farDirty x t
    modify fun s => s.hostWrite devCore x.pa bytes
    return ct
  else engWriteX x bytes t

/-- `n` bytes from a virtual address, line by line. -/
def engLoadAll (part ctx : Nat) (priv : Bool) : Nat → Nat → Nat → Nat → M (List Byte)
  | 0, _, _, _ => return []
  | fuel + 1, va, n, t =>
    if n == 0 then return []
    else do
      let k := min n (64 - va % 64)
      let b ← engLoad part ctx priv va k t
      let r ← engLoadAll part ctx priv fuel (va + k) (n - k) t
      return b ++ r

end Sys2Proof.Machine
end

