-- ==== Sys2Proof/Machine/Ops.lean ====
section
/-! DEFINITION. Registers of the running task, the sluice's entries, validation, abort, taking a trap and the fault
record (spec 13, 14, 21), and the one way a processor instruction runs. -/

namespace Sys2Proof.Machine

/-! ## Handler entries (14 Table 14.1) -/

def entV (e : BitVec 256) : Bool := e.getLsbD 0
def entPrio (e : BitVec 256) : Nat := fld e 3 1
def entSteal (e : BitVec 256) : Bool := e.getLsbD 4
def entPrune (e : BitVec 256) : Bool := e.getLsbD 5
/-- The clamp width, 1, 2, 4 or 8. -/
def entClamp (e : BitVec 256) : Nat := 2 ^ fld e 7 6
def entPriv (e : BitVec 256) : Bool := e.getLsbD 8
def entZregs (e : BitVec 256) : Bool := e.getLsbD 9
def entDfzi (e : BitVec 256) : Bool := e.getLsbD 10
def entDfzo (e : BitVec 256) : Bool := e.getLsbD 11
def entDrm (e : BitVec 256) : Nat := fld e 14 12
def entGen (e : BitVec 256) : Nat := fld e 29 16
def entFrameLines (e : BitVec 256) : Nat := fld e 44 32
def entBudget (e : BitVec 256) : Nat := fld e 62 48
def entEpc (e : BitVec 256) : VAddr := BitVec.ofNat 56 (4 * fld e 117 64)
/-- QBIND of q1 to q7. -/
def entQbind (e : BitVec 256) (q : Nat) : Nat := if q = 0 then 0 else fld e (128 + 5 * (q - 1) + 4) (128 + 5 * (q - 1))
/-- AMIN of q1 to q7. -/
def entAmin (e : BitVec 256) (q : Nat) : Nat := if q = 0 then 0 else fld e (192 + 5 * (q - 1) + 4) (192 + 5 * (q - 1))
def entMbd (e : BitVec 256) : Nat := fld e 233 227

/-- A channel of a core; one never set is not valid. -/
def Core.chan (k : Core) (c : Nat) : Chan := tget k.chans c {}
def Core.setChan (k : Core) (c : Nat) (x : Chan) : Core := { k with chans := tput k.chans c x }
def Core.culvert (k : Core) (n : Nat) : Culvert := tget k.culverts n {}
def Core.setCulvert (k : Core) (n : Nat) (x : Culvert) : Core := { k with culverts := tput k.culverts n x }

/-! ## Registers -/

namespace Task

/-- x[r]; x31 reads zero (01 R21). -/
def rx (t : Task) (r : Reg) : Word := if h : r.toNat < 31 then t.x[r.toNat] else 0
/-- Writes x[r]; a write of x31 is dropped (01 R21). -/
def wx (t : Task) (r : Reg) (v : Word) : Task := if h : r.toNat < 31 then { t with x := t.x.set r.toNat v } else t
/-- v[r] of one part. -/
def rv (t : Task) (k : Nat) (r : Reg) : VReg :=
  match t.parts[k]? with
  | some p => p.v[r.toNat]
  | none => 0
/-- Writes v[r] of one part. -/
def wv (t : Task) (k : Nat) (r : Reg) (v : VReg) : Task :=
  { t with parts := t.parts.modify k fun p => { p with v := p.v.set r.toNat v } }
/-- m[r] of one part. -/
def rm (t : Task) (k : Nat) (r : SReg) : Word :=
  match t.parts[k]? with
  | some p => p.m[r.toNat]
  | none => 0
/-- Writes m[r] of one part. -/
def wm (t : Task) (k : Nat) (r : SReg) (v : Word) : Task :=
  { t with parts := t.parts.modify k fun p => { p with m := p.m.set r.toNat v } }
/-- Clamp width: the number of parts. -/
def width (t : Task) : Nat := t.parts.length
/-- The instruction completes: the program counter takes the next address. -/
def step (t : Task) : Task := { t with pc := t.npc }

end Task

/-! ## The sluice's entries (13 R305, Table 13.1) -/

/-- Removes repeats. -/
def distinct {α : Type} [DecidableEq α] : List α → List α
  | [] => []
  | a :: l => if l.contains a then distinct l else a :: distinct l

/-- The PERS line of an effect, with the core whose scratchpad it is in. -/
def Eff.persLine : Eff → Option (Nat × Nat)
  | .pers m off _ _ => some (m, lineOf off)
  | .persSb m off _ _ => some (m, lineOf off)
  | _ => none
/-- The global line entries after one more effect: lines that later stores merge into, lines of atomics and CSTORE4,
and the count (13 Table 13.1). A store to a scale range counts the scale array's own line, once, and merges with no store to the data
lines that it is joined to. DEDUCED: log 29. -/
def globalEntry (acc : List Nat × List Nat × Nat) (e : Eff) : List Nat × List Nat × Nat :=
  match e with
  | .store x false _ _ => if acc.1.contains (lineOf x.pa) then acc else (lineOf x.pa :: acc.1, acc.2.1, acc.2.2 + 1)
  | .store x true _ _ => (acc.1, lineOf x.pa :: acc.2.1, acc.2.2 + 1)
  | .amo x .. => (acc.1, lineOf x.pa :: acc.2.1, acc.2.2 + 1)
  | .cst x sel .. =>
    let ls := ((List.range 4).filter fun i => sel.getLsbD i).map fun i => lineOf x.pa + 64 * i
    (acc.1, ls ++ acc.2.1, acc.2.2 + ls.length)
  | .publ x =>
    if acc.1.contains (lineOf x.pa) || acc.2.1.contains (lineOf x.pa) then acc
    else (lineOf x.pa :: acc.1, acc.2.1, acc.2.2 + 1)
  | _ => acc
/-- Whether an effect takes a message entry. -/
def Eff.isMsg : Eff → Bool
  | .send .. | .copy _ | .cres .. | .cdrop .. | .mx _ | .join .. | .jret .. | .barinit .. | .bara .. | .bard .. | .stage ..
  | .launch .. | .incumb .. => true
  | _ => false

/-- Line entries in use in the sluice of a core: the PERS lines of its scratchpad, and on the leader every global
entry (10 Table 10.1). DEDUCED: log 29. -/
def lineEntries (es : List Eff) (leader : Bool) (core : Nat) : Nat :=
  (if leader then (es.foldl globalEntry ([], [], 0)).2.2 else 0) +
    ((distinct (es.filterMap Eff.persLine)).filter fun p => p.1 == core).length
/-- Message entries in use. -/
def msgEntries (es : List Eff) : Nat := (es.filter Eff.isMsg).length

/-- 14 R324: the network of a route class: 0 request, 1 reply, 2 bulk. -/
def network (cls : Nat) : Nat := if cls < 4 then 0 else if cls < 6 then 1 else 2

/-- The route class of a header (14 Table 14.2). -/
def hdrCls (h : Word) : Nat := fld h 8 6
def hdrCnt (h : Word) : Nat := fld h 11 9
def hdrCh (h : Word) : Nat := fld h 5 0
def hdrCore (h : Word) : Nat := fld h 23 12
def hdrPkg (h : Word) : Nat := fld h 32 24
def hdrGen (h : Word) : Nat := fld h 47 34
def hdrRch (h : Word) : Nat := fld h 53 48
def hdrHb (h : Word) : Bool := h.getLsbD 33

/-- 14 R336: SQUSED, the entries of committed messages and those the running task has reserved. -/
def sqUsed (s : State) (c : Nat) (es : List Eff) (n : Nat) : Nat :=
  ((s.net ++ s.ctxs.flatMap fun x => x.holds.map (·.2)).filter fun f => f.src == some c && network (hdrCls f.msg.hdr) == n).length +
    (es.filter fun e => match e with | .send h .. => network (hdrCls h) == n | _ => false).length

/-! ## Validation and the commit time (04 R117, R123) -/

/-- The lines that CSTORE4 selects of the block at an address. -/
def selLines (pa : Nat) (sel : BitVec 4) : List Nat := ((List.range 4).filter fun i => sel.getLsbD i).map fun i => pa + 64 * i

/-- The lines that a commit writes at home slices of this package (04 R117): those of the stored bytes, and those of the D bits
and of the dirty bitmap, which are set at the commit time of the write (02 R67 to R69). -/
def Eff.writes (s : State) : Eff → List Nat
  | .store x _ bs _ =>
    if bs.all Option.isNone then []
    else (if x.attr == 2 || x.toHost s then [] else s.keysM x.pa bs) ++ x.dirtyKeys s
  | .amo x _ ty .. => (if x.pa / 2 ^ 48 = 4 || x.toHost s then [] else s.keys x.pa ty.bytes) ++ x.dirtyKeys s
  | .cst x sel .. => (if x.toHost s then [] else (selLines x.pa sel).flatMap fun l => s.keys l 64) ++ x.dirtyKeys s
  | _ => []

/-- The time at which a task would commit now (04 R117). -/
def commitTime (s : State) (t : Task) : Nat :=
  let ct := (t.sluice.flatMap (Eff.writes s)).foldl (fun ct l => max ct ((s.line l).rts + 1)) t.ts
  t.reads.foldl (fun ct e => max ct e.wts) ct

/-- Whether the read set is consistent at a commit time (04 R117). -/
def validAt (s : State) (t : Task) (ct : Nat) : Bool :=
  t.reads.all fun e => match e.r with
    | none => true
    | some r => decide (ct ≤ r) || (s.line e.line).wts == e.wts

/-- 04 R123: the read set as it stands. -/
def validates (s : State) (t : Task) : Bool := validAt s t (commitTime s t)

/-! ## Discard, abort and kill (04 R122, 13 R313, 20 R396) -/

/-- Pops of culverts go back to the head (06 R190). -/
def undoPops (k : Core) (pops : List (Nat × Nat)) : Core :=
  pops.foldl (fun k p =>
    let c := k.culvert p.1
    if c.depth = 0 then k
    else k.setCulvert p.1 { c with
      held := c.held - p.2, filled := c.filled + p.2, head := (c.head + 16 * c.depth - p.2) % c.depth }) k

/-- Copy-engine credits that the held effects took (06 R179). -/
def copyCreds (es : List Eff) : Nat := (es.filter fun e => match e with | .copy _ => true | _ => false).length
/-- Matrix credits that the held effects took (11 R281). -/
def mxCreds (es : List Eff) : Nat := (es.filter fun e => match e with | .mx _ => true | _ => false).length

/-- The task of a core is undone: sluice and read set discarded, credits returned, pops undone, HOLDs released. Its
message stays at the head of its mailbox. -/
def State.discardTask (s : State) (c : Nat) : State :=
  match s.core? c with
  | none => s
  | some k =>
    match k.task with
    | none => s
    | some t =>
      let k := undoPops k t.pops
      (s.setCore c { k with
        task := none, creds := k.creds + copyCreds t.sluice, mxcreds := k.mxcreds + mxCreds t.sluice }).unlock c

/-- 04 R122: an abort counts against the message and the task will run again. -/
def State.abortTask (s : State) (c : Nat) : State :=
  match s.core? c with
  | none => s
  | some k =>
    match k.task with
    | none => s
    | some t => (s.discardTask c).onCore c fun k =>
        let ch := k.chan t.ch
        k.setChan t.ch { ch with aborts := ch.aborts + 1 }

/-- The head message of a channel leaves its mailbox, and its counts with it (04 R122). -/
def Chan.pop (x : Chan) : Chan :=
  { x with box := x.box.drop 1, aborts := 0, lockTick := none,
           headSlot := if entMbd x.ent = 0 then 0 else (x.headSlot + 1) % entMbd x.ent }

def Core.popHead (k : Core) (c : Nat) : Core := k.setChan c (k.chan c).pop

/-- A kill: nothing is released, the trigger is popped, KILLC counts (20 R396). -/
def State.killTask (s : State) (c : Nat) : State :=
  match s.core? c with
  | none => s
  | some k =>
    match k.task with
    | none => s
    | some t =>
      let (p, x) := s.instCtx k.inst
      ((s.discardTask c).onCore c fun k => k.popHead t.ch).onCtx p x fun y => { y with killc := y.killc + 1 }

/-! ## Fault records (21 R408, R409) -/

/-- What a fault record holds (21 Table 21.2). -/
structure Record where
  kind : Nat
  cause : Nat
  detail : Word := 0
  va : Word := 0
  tag : Word := 0
  level : Nat := 0
  who : Issuer := {}
  deriving DecidableEq, Repr

/-- The 64 bytes of a fault record (21 Table 21.2). -/
def Record.bytes (r : Record) (seq : Nat) : List Byte :=
  let mid := r.kind * 2 ^ 8 + r.level * 2 ^ 12 + r.who.ch * 2 ^ 14 + r.who.lid * 2 ^ 20 + r.who.arr % 2 ^ 32 * 2 ^ 40 +
    r.who.pc.toNat * 2 ^ 72
  natBytes 8 (1 + r.cause * 2 ^ 16) ++ natBytes 8 seq ++ natBytes 16 mid ++ natBytes 8 r.tag.toNat ++
    natBytes 8 r.who.path.toNat ++ natBytes 8 r.va.toNat ++ natBytes 8 r.detail.toNat

/-- 21 R409: the record of a fault goes to the context's fault queue, or is dropped, which FQLOST and the steward's counter of lost
records show (24 R445); its SEQ and the time at which it was written (the fault's own time where it was dropped). The A and D bits
that its walk has set stay (02 R67). DEDUCED: log 27. -/
def writeRecord (part ctx : Nat) (r : Record) (t : Nat) : M (Nat × Nat) := fun s =>
  let drop (s : State) : EStateM.Result Stop State (Nat × Nat) :=
    .ok (0, t) ({ s with plat := { s.plat with lostRecords := s.plat.lostRecords + 1 } }.onCtx part ctx fun x =>
      { x with fqlost := min 4095 (x.fqlost + 1) })
  match s.ctx? part ctx with
  | none => .ok (0, t) s
  | some x =>
    if x.fqtail - x.fqhead = 2 ^ x.fqlog then drop s
    else
      let va := x.fqbase.toNat + 64 * (x.fqtail % 2 ^ x.fqlog)
      let w : M Nat := do
        let y ← engXlat part ctx true .store va
        if y.attr != 0 then stop .attrAcc
        engWriteX y ((r.bytes x.fqtail).map some) t
      match w s with
      | .ok ct s' => .ok (x.fqtail, ct) (s'.onCtx part ctx fun x => { x with fqtail := x.fqtail + 1 })
      | .error (.flt _) s' => drop s'
      | .error e _ => .error e s

/-- The fault message to channel 63 (21 R406 step 5). -/
def State.faultMsg (s : State) (core kind cause seq t : Nat) (lin : Lineage) (prod : Nat × Nat := (0, core)) : State :=
  s.postHw core 6 63 [BitVec.ofNat 64 (kind * 2 ^ 16 + cause), BitVec.ofNat 64 seq] t .fault lin prod

/-- The issuer fields of the running task of a core. -/
def issuer (k : Core) (t : Task) (q : Nat) : Issuer :=
  { pc := t.pc, path := t.trig.lin.path, arr := t.trig.arr, lid := k.lid, ch := t.ch, q }

/-- DETAIL of a record of KIND 0 (21 Tables 21.1, 21.2; 10 R264). The member field of a trap that no member's access raised is
0. DEDUCED: log 86. -/
def trapDetail (t : Task) (f : Flt) : Word :=
  let low := if f.cause.baseWord && !f.fetch then t.ir.toNat else f.detail.toNat
  let jig := match t.jig with | some j => j.k % 2 ^ 16 | none => 0
  BitVec.ofNat 64 (low + jig * 2 ^ 32 + f.mem % 2 ^ 8 * 2 ^ 48 + (if f.fetch then 2 ^ 63 else 0))

/-- TAKING A TRAP (21 R406, R407), the one operation for every cause: validation first (R123); the task is
discarded; its channel is parked and the abort count reset; a fault record of KIND 0; a fault message to channel 63,
unless the task ran on channel 63, where the steward notifies instead. -/
def takeTrap (c : Nat) (f : Flt) : M Unit := do
  let s ← get
  match s.core? c with
  | none => pure ()
  | some k =>
    match k.task with
    | none => pure ()
    | some t =>
      if !validates s t then set (s.abortTask c)
      else
        let (part, ctx) := s.instCtx k.inst
        let n := (((k.chan t.ch).box.head?).map (·.traps)).getD 0
        set ((s.discardTask c).onCore c fun k =>
          let x := k.chan t.ch
          k.setChan t.ch { x with
            parked := true, aborts := 0, lockTick := none, box := x.box.modify 0 fun m => { m with traps := m.traps + 1 } })
        let who := { issuer k t 0 with pc := f.pc.getD t.pc }
        let (seq, ct) ← writeRecord part ctx
          { kind := 0, cause := f.cause.code, detail := trapDetail t f, va := f.va, level := f.level, who } t.ts
        if t.ch = 63 then
          modify fun s => { s with out := s.out ++ [.note (.ch63 part ctx c)] }
        else
          modify fun s => s.faultMsg c 0 f.cause.code seq ct (childLin t.trig.lin.path (2 ^ 62 + n))

/-- A device operation as one event: one that meets a line which answers with retry is re-issued later (04 R129), and changes
nothing now; `flt` says what a fault leaves. DEDUCED: log 28. -/
def orWait {α : Type} (m : M α) (ok : α → State → State) (flt : Flt → State) (s : State) : State :=
  match m s with
  | .ok a s' => ok a s'
  | .error (.flt f) _ => flt f
  | .error _ _ => s

/-! ## The jig's issue (10 R263) -/

/-- The fetch of a task in a jig (10 R263): the iteration and the body instruction that are issued now; a jig whose
last instruction has been issued is over. -/
def Task.jigIssue (t : Task) : Task :=
  match t.jig with
  | none => t
  | some j =>
    if j.n * j.body.length ≤ j.idx then { t with jig := none, jigOff := 0 }
    else
      let k := j.idx / j.body.length
      { t with jig := some { j with idx := j.idx + 1, k }, jigOff := 64 * j.stride * k }

/-- An instruction of the current task that is to run again: in a jig, the one that was issued is issued again (01 R14). -/
def State.reissue (s : State) (c : Nat) : State :=
  match (s.core? c).bind Core.task with
  | none => s
  | some t => match t.jig with
    | none => s
    | some j => s.onCore c fun k => { k with task := some { t with jig := some { j with idx := j.idx - 1 } } }

/-! ## Running an instruction of the current task -/

/-- The end of an instruction of core `c` that stopped short: a trap is taken; a retry, of the instruction or of the trap's own
record, leaves the machine as it was, and the instruction runs again (04 R129); one whose request waits runs again too, and what
the port's slot did stands (19 R385); an abort undoes the task. -/
def State.stopped (s0 s : State) (c : Nat) (e : Stop) : State :=
  match e with
  | .retry => s0.reissue c
  | .queued => s.reissue c
  | .abort => s.abortTask c
  | .flt f =>
    match takeTrap c f s with
    | .ok _ s' => s'
    | .error _ _ => s0.reissue c

/-- The program counter of the current task moves on, where the task still runs. -/
def State.advance (s : State) : State :=
  match s.task? with
  | some t => s.setTask t.step
  | none => s

/-- An instruction of the current task: its operation, then the next address; a stop is taken as `stopped` says. -/
def runTask (f : Task → M Unit) (s : State) : Host.Outcome State Fault Refusal :=
  match s.task? with
  | none => .fault .noTask
  | some t =>
    match f t s with
    | .ok _ s' => .next s'.advance
    | .error e s' => .next (s.stopped s' s.cur e)

/-- An instruction that only changes registers of the current task. -/
def runRegs (f : Task → Task) (s : State) : Host.Outcome State Fault Refusal :=
  match s.task? with
  | none => .fault .noTask
  | some t => .next (s.setTask (f t).step)

/-- The current task inside an operation. -/
def getTask : M Task := do
  match (← get).task? with
  | some t => return t
  | none => throw .abort
/-- The current core inside an operation. -/
def getCore : M Core := do
  let s ← get
  match s.core? s.cur with
  | some k => return k
  | none => throw .abort
/-- The instance of the current core. -/
def getInst : M Inst := do
  match (← get).inst? (← getCore).inst with
  | some n => return n
  | none => return { id := 0 }
/-- Changes the current task. -/
def modTask (f : Task → Task) : M Unit := modify fun s =>
  match s.task? with
  | some t => s.setTask (f t)
  | none => s
/-- Changes the current core. -/
def modCore (f : Core → Core) : M Unit := modify fun s => s.onCore s.cur f

/-- DET_OP in a launch with DET set. -/
def noDet : M Unit := do need (!(← getInst).det) .detOp

/-- An effect joins the sluice of the current task. -/
def hold (e : Eff) : M Unit := modTask fun t => { t with sluice := t.sluice ++ [e] }

/-- The held effects still fit the sluice of a core, of clamp member `m`, when more join them (13 R305, R306; 10 R267). -/
def fits (es : List Eff) (leader : Bool) (core : Nat) (m : Nat := 0) : M Unit :=
  atMember m (need (decide (lineEntries es leader core ≤ 256)) .sluiceFull)
/-- A free message entry is needed (13 R306). -/
def needMsg (t : Task) : M Unit := need (decide (msgEntries t.sluice < 32)) .sluiceFull

/-- The number of the next counted effect (16 R350), and the count moves on. -/
def countEff : M Nat := do
  let t ← getTask
  modTask fun t => { t with qn := t.qn + 1 }
  return t.qn

/-- Words fold into the digest of a DET task, in order (13 R315). -/
def fold (ws : List Word) : M Unit := do
  if (← getInst).det then
    modTask fun t => { t with hash := ws.foldl gGen t.hash, nw := t.nw + ws.length }
  else pure ()

/-- A free 64-bit value (DESIGN CHOICE, log 3). -/
def freeWord : M Word := fun s => .ok (Config.freeWord s.freeCnt) { s with freeCnt := s.freeCnt + 1 }
/-- A free byte (DESIGN CHOICE, log 3). -/
def freeByte : M Byte := fun s => .ok (Config.freeByte s.freeCnt) { s with freeCnt := s.freeCnt + 1 }

end Sys2Proof.Machine
end

