-- ==== Sys2Proof/Machine/Flags.lean ====
section
/-! DEFINITION. The task's flags and defaults: FSTAT, effective rounding and flush, and the count of keyed stochastic
rounding (spec 09 R239, R242; 03 R90, R91, R93). -/

namespace Sys2Proof.Machine

/-- Flags are ORed into FSTAT (09 R239). -/
def Task.orFlags (t : Task) (f : BitVec 5) : Task := { t with fstat := { t.fstat with flags := t.fstat.flags ||| f } }

/-- The effective mode of an instruction (03 R90). -/
def Task.mode (t : Task) (rm : RM) : Mode := rmMode rm t.fstat.drm

/-- What element `e` of a rounding instruction sees (09 R239, R242). The draw is of use under keyed stochastic
rounding only. -/
def Task.env (t : Task) (f : FMod) (e : Nat) : FEnv :=
  let md := t.mode f.rm
  { md, fzi := f.fzi || t.fstat.dfzi, fzo := f.fzo || t.fstat.dfzo,
    draw := if md = .st then draw24 t.trig.lin.path t.sn e else 0 }

/-- An instruction that rounds stochastically counts once (03 R91). DEDUCED: log 32. -/
def Task.count (t : Task) (rm : RM) : Task := if t.mode rm = .st then { t with sn := t.sn + 1 } else t

/-- Effective input flush. -/
def Task.fzi (t : Task) (fzi : Bool) : Bool := fzi || t.fstat.dfzi

/-- FSTAT as a word (09 Table 9.2). -/
def FStat.word (f : FStat) : Word :=
  BitVec.ofNat 64 (f.flags.toNat + f.drm.code.toNat * 2 ^ 8 + (if f.dfzi then 2 ^ 12 else 0) + (if f.dfzo then 2 ^ 13 else 0))

/-- A rounding mode of its code; none for 000 and 111. -/
def drmOf (n : Nat) : Option RM :=
  match n with
  | 1 => some .rn | 2 => some .rz | 3 => some .ru | 4 => some .rd | 5 => some .ra | 6 => some .rs
  | _ => none

/-- A write of FSTAT (09 Table 9.2): 000 and 111 leave DRM unchanged. -/
def FStat.put (f : FStat) (w : Word) : FStat :=
  { dfzo := w.getLsbD 13, dfzi := w.getLsbD 12, drm := (drmOf (fld w 10 8)).getD f.drm, flags := w.setWidth 5 }

end Sys2Proof.Machine
end

