-- ==== Sys2Proof/Machine/Operands.lean ====
section
/-! DEFINITION. Operand forms: memory operands, execution masks, lanes and the members of a clamp (spec 01 R28; 05
R143, R147; 07 R211; 09 R237, R241, R259). -/

namespace Sys2Proof.Machine

/-! ## Memory operands -/

/-- x[a] + (x[b] << sh) + imm modulo 2^64 (05 R143, 07 R211). -/
def Task.ea (t : Task) (m : MemOp) : Word := t.rx m.a + (t.rx m.b <<< m.sh.toNat) + m.imm.signExtend 64
/-- x[a] + imm. -/
def Task.eaImm (t : Task) (a : Reg) (imm : BitVec 32) : Word := t.rx a + imm.signExtend 64

/-! ## Masks -/

/-- Whether lane `i` of member `k` takes part under an execution mask (01 R28). -/
def Task.on (t : Task) (mask : SReg) (k i : Nat) : Bool := mask == 0 || (t.rm k mask).getLsbD i

/-- The bytes of a 64-byte access that a member's mask enables, by lanes of a type (05 R147). -/
def Task.byteMask (t : Task) (ty : Ty) (mask : SReg) (k : Nat) : List Bool :=
  (List.range 64).map fun b => t.on mask k (b / ty.bytes)

/-! ## Lanes -/

/-- Lane `i` of member `k` of the second operand: a lane of v[B], or x[B] in every lane under `.s` (09 R241). -/
def Task.bLane (t : Task) (sc : Bool) (w : Nat) (b : Reg) (k i : Nat) : Word :=
  if sc then (((t.rx b).setWidth w).setWidth 64) else lane w (t.rv k b) i

/-- Writes v[D] of every member, lane by lane; a lane that is off keeps its old value. Flags are ORed. `f` reads the
registers as they were before (09 R238). -/
def Task.mapLanes (t : Task) (w : Nat) (mask : SReg) (d : Reg) (f : Nat → Nat → Word × BitVec 5) : Task :=
  (List.range t.width).foldl (fun acc k =>
    let r := ((lanes w (t.rv k d)).zipIdx).map fun (p : Word × Nat) => if t.on mask k p.2 then f k p.2 else (p.1, 0)
    (acc.wv k d (ofLanes w (r.map (·.1)))).orFlags (r.foldl (fun fl x => fl ||| x.2) 0)) t

/-- Writes m[D] of every member from its own lanes: bit i is the result of lane i, a masked lane keeps its bit, and
bits at and above the lane count are 0 (09 R249). -/
def Task.mapMask (t : Task) (w : Nat) (mask d : SReg) (f : Nat → Nat → Bool × BitVec 5) : Task :=
  (List.range t.width).foldl (fun acc k =>
    let old := t.rm k d
    let r := (List.range (512 / w)).map fun i => if t.on mask k i then f k i else (old.getLsbD i, 0)
    (acc.wm k d (BitVec.ofNat 64 ((r.zipIdx.map fun (p : (Bool × BitVec 5) × Nat) => if p.1.1 then 2 ^ p.2 else 0).sum))).orFlags
      (r.foldl (fun fl x => fl ||| x.2) 0)) t

/-- All lanes of a register over the members of a clamp, in lane order (09 R259). -/
def Task.allLanes (t : Task) (w : Nat) (r : Reg) : List Word := (List.range t.width).flatMap fun k => lanes w (t.rv k r)

/-- The number of lanes over the members of a clamp. -/
def Task.laneCount (t : Task) (w : Nat) : Nat := t.width * (512 / w)

/-- A lane value written to a scalar register: sign-extended for i types, zero-extended otherwise. -/
def extLane (ty : Ty) (v : Word) : Word :=
  if ty.signed then (v.setWidth (tyBits ty)).signExtend 64 else (v.setWidth (tyBits ty)).setWidth 64

end Sys2Proof.Machine
end

