-- ==== Sys2Proof/Machine/FloatOps.lean ====
section
/-! DEFINITION. Floating arithmetic, scalar and vector: OP 0x14 and 0x15 (spec 09 R241 to R245). -/

namespace Sys2Proof.Machine

/-- A floating operation on up to three patterns. -/
abbrev FOp := Fmt → FEnv → Nat → Nat → Nat → Nat × BitVec 5

/-- One result of a floating operation as a word. -/
def fres (r : Nat × BitVec 5) : Word × BitVec 5 := (BitVec.ofNat 64 r.1, r.2)

/-- A floating instruction without its count: every lane of every member, or one scalar result (09 R237, R242). -/
def Task.floatOp (t : Task) (op : FOp) (vec sc : Bool) (ty : Ty) (f : FMod) (d a b c : Reg) : Task :=
  let F := tyFmt ty
  let w := tyBits ty
  let l := 512 / w
  if vec then
    t.mapLanes w f.mask d fun k i =>
      fres (op F (t.env f (l * k + i)) (lane w (t.rv k a) i).toNat (t.bLane sc w b k i).toNat (lane w (t.rv k c) i).toNat)
  else
    let r := fres (op F (t.env f 0) (t.rx a).toNat (t.rx b).toNat (t.rx c).toNat)
    (t.wx d r.1).orFlags r.2

/-- A rounding instruction. -/
def floatRound (op : FOp) (vec sc : Bool) (ty : Ty) (f : FMod) (d a b c : Reg) : State → Host.Outcome State Fault Refusal :=
  runRegs fun t => (t.floatOp op vec sc ty f d a b c).count f.rm

/-- An instruction that does not round: RM and FZO are 0, and DFZO has no effect (09 R239). -/
def floatPlain (op : FOp) (vec sc : Bool) (ty : Ty) (fzi : Bool) (mask : SReg) (d a b : Reg) :
    State → Host.Outcome State Fault Refusal :=
  runRegs fun t => t.floatOp op vec sc ty ⟨.rn, fzi, false, mask⟩ d a b 31

def execFadd (vec sc : Bool) (ty : Ty) (f : FMod) (d a b : Reg) :=
  floatRound (fun F v x y _ => F.add v false x y) vec sc ty f d a b 31
def execFsub (vec sc : Bool) (ty : Ty) (f : FMod) (d a b : Reg) :=
  floatRound (fun F v x y _ => F.add v true x y) vec sc ty f d a b 31
def execFmul (vec sc : Bool) (ty : Ty) (f : FMod) (d a b : Reg) :=
  floatRound (fun F v x y _ => F.mul v x y) vec sc ty f d a b 31
def execFdiv (vec sc : Bool) (ty : Ty) (f : FMod) (d a b : Reg) :=
  floatRound (fun F v x y _ => F.div v x y) vec sc ty f d a b 31
def execFsqrt (vec : Bool) (ty : Ty) (f : FMod) (d a : Reg) :=
  floatRound (fun F v x _ _ => F.sqrt v x) vec false ty f d a 31 31
def execFma (vec sc : Bool) (ty : Ty) (f : FMod) (d a b c : Reg) :=
  floatRound (fun F v x y z => F.fma v false false x y z) vec sc ty f d a b c
def execFms (vec sc : Bool) (ty : Ty) (f : FMod) (d a b c : Reg) :=
  floatRound (fun F v x y z => F.fma v false true x y z) vec sc ty f d a b c
def execFnma (vec sc : Bool) (ty : Ty) (f : FMod) (d a b c : Reg) :=
  floatRound (fun F v x y z => F.fma v true false x y z) vec sc ty f d a b c
def execFnms (vec sc : Bool) (ty : Ty) (f : FMod) (d a b c : Reg) :=
  floatRound (fun F v x y z => F.fma v true true x y z) vec sc ty f d a b c
def execFmin (vec sc : Bool) (ty : Ty) (fzi : Bool) (mask : SReg) (d a b : Reg) :=
  floatPlain (fun F v x y _ => F.minMax v.fzi true x y) vec sc ty fzi mask d a b
def execFmax (vec sc : Bool) (ty : Ty) (fzi : Bool) (mask : SReg) (d a b : Reg) :=
  floatPlain (fun F v x y _ => F.minMax v.fzi false x y) vec sc ty fzi mask d a b
def execFabs (vec : Bool) (ty : Ty) (fzi : Bool) (mask : SReg) (d a : Reg) :=
  floatPlain (fun F v x _ _ => (F.withSign v.fzi x false, 0)) vec false ty fzi mask d a 31
def execFneg (vec : Bool) (ty : Ty) (fzi : Bool) (mask : SReg) (d a : Reg) :=
  floatPlain (fun F v x _ _ => (F.withSign v.fzi x (!F.signOf x), 0)) vec false ty fzi mask d a 31
def execFsgnj (vec sc : Bool) (ty : Ty) (fzi : Bool) (mask : SReg) (d a b : Reg) :=
  floatPlain (fun F v x y _ => (F.withSign v.fzi x (F.signOf y), 0)) vec sc ty fzi mask d a b

/-! ## Special functions: OP 0x19 (09 R252 to R254) -/

/-- A special function. For f32 the rounding is that of R253 whatever DRM holds, and nothing is counted. -/
def special (fn : Fn9) (vec : Bool) (ty : Ty) (f : FMod) (d a : Reg) : State → Host.Outcome State Fault Refusal :=
  runRegs fun t =>
    (t.floatOp (fun F v x _ _ => fn.eval F v x) vec false ty f d a 31 31).count (if ty = .f32 then .rn else f.rm)

def execFexp (vec : Bool) (ty : Ty) (f : FMod) (d a : Reg) := special .exp vec ty f d a
def execFexp2 (vec : Bool) (ty : Ty) (f : FMod) (d a : Reg) := special .exp2 vec ty f d a
def execFlog (vec : Bool) (ty : Ty) (f : FMod) (d a : Reg) := special .log vec ty f d a
def execFlog2 (vec : Bool) (ty : Ty) (f : FMod) (d a : Reg) := special .log2 vec ty f d a
def execFrcp (vec : Bool) (ty : Ty) (f : FMod) (d a : Reg) := special .rcp vec ty f d a
def execFrsq (vec : Bool) (ty : Ty) (f : FMod) (d a : Reg) := special .rsq vec ty f d a
def execFsin (vec : Bool) (ty : Ty) (f : FMod) (d a : Reg) := special .sin vec ty f d a
def execFcos (vec : Bool) (ty : Ty) (f : FMod) (d a : Reg) := special .cos vec ty f d a
def execFtanh (vec : Bool) (ty : Ty) (f : FMod) (d a : Reg) := special .tanh vec ty f d a
def execFsigm (vec : Bool) (ty : Ty) (f : FMod) (d a : Reg) := special .sigm vec ty f d a
def execFerf (vec : Bool) (ty : Ty) (f : FMod) (d a : Reg) := special .erf vec ty f d a

end Sys2Proof.Machine
end

