-- ==== Sys2Proof/Machine/Convert.lean ====
section
/-! DEFINITION. Conversions: OP 0x1A (spec 09 R255 to R258; 03 R79, R83, R88, R96 to R100). -/

namespace Sys2Proof.Machine

/-- The bits of a floating element; an mld element is read as its μ (03 R88). -/
def elemBits (ty : Ty) (v : Nat) : Nat := if ty = .mld then v / 2 ^ 16 else v
/-- A floating result stored as a type: an mld element takes ℓ = −∞ (03 R88). -/
def elemPut (ty : Ty) (b : Nat) : Nat := if ty = .mld then b * 2 ^ 16 + 0xFF80 else b

/-- One element converted (09 R256). -/
def convElem (src dst : Ty) (v : FEnv) (x : Word) : Word × BitVec 5 :=
  if src.isFloat then
    let n := (tyFmt src).decode ((tyFmt src).flush v.fzi (elemBits src x.toNat))
    if dst.isFloat then
      let r := (tyFmt dst).ofNum v n
      (BitVec.ofNat 64 (elemPut dst r.1), r.2)
    else
      let r := intOfNum v (tyLo dst) (tyHi dst) n
      (laneOf (tyBits dst) r.1, r.2)
  else
    let z := laneVal src x
    if dst.isFloat then
      let r := (tyFmt dst).ofInt v z
      (BitVec.ofNat 64 (elemPut dst r.1), r.2)
    else (laneOf (tyBits dst) z, 0)

/-- One integer converted with saturation (03 R79). -/
def satElem (src dst : Ty) (x : Word) : Word :=
  laneOf (tyBits dst) (max (tyLo dst) (min (tyHi dst) (laneVal src x)))

/-- A vector conversion of part `p` (09 R256): narrowing fills one part of the destination, widening reads one part of
the source. Off lanes keep their old value. In a clamp the parts and the blocks of CVT, CVTS, CVTB and CVFB are those of each member's
own 64-byte register, since 09 R259 has lane-wise instructions act on every member's lanes. DEDUCED: log 33. -/
def Task.convLanes (t : Task) (src dst : Ty) (p : Nat) (mask : SReg) (d a : Reg) (f : Nat → Word → Word × BitVec 5) : Task :=
  let sb := src.bytes
  let db := dst.bytes
  let n := 64 / max sb db
  (List.range t.width).foldl (fun acc k =>
    let r := ((lanes (8 * db) (t.rv k d)).zipIdx).map fun (o : Word × Nat) =>
      let i := o.2
      let within := if db ≤ sb then decide (p * n ≤ i) && decide (i < p * n + n) else true
      let from' := if db ≤ sb then i - p * n else p * n + i
      if within && t.on mask k i then f (512 / (8 * db) * k + i) (lane (8 * sb) (t.rv k a) from') else (o.1, 0)
    (acc.wv k d (ofLanes (8 * db) (r.map (·.1)))).orFlags (r.foldl (fun fl x => fl ||| x.2) 0)) t

/-- CVT (09 R256). -/
def execCvt (vec : Bool) (src dst : Ty) (part : BitVec 3) (f : FMod) (d a : Reg) :=
  runRegs fun t =>
    let t' :=
      if vec then t.convLanes src dst part.toNat f.mask d a fun e x => convElem src dst (t.env f e) x
      else
        let r := convElem src dst (t.env f 0) ((t.rx a).setWidth (tyBits src) |>.setWidth 64)
        (t.wx d (if dst.isFloat then r.1 else extLane dst r.1)).orFlags r.2
    if src.isFloat || dst.isFloat then t'.count f.rm else t'

/-- CVTS (09 R256). -/
def execCvts (vec : Bool) (src dst : Ty) (part : BitVec 3) (mask : SReg) (d a : Reg) :=
  runRegs fun t =>
    if vec then t.convLanes src dst part.toNat mask d a fun _ x => (satElem src dst x, 0)
    else t.wx d (extLane dst (satElem src dst ((t.rx a).setWidth (tyBits src) |>.setWidth 64)))

/-- The value of an element that a block conversion reads. -/
def elemNum (ty : Ty) (fzi : Bool) (x : Word) : Num :=
  if ty.isFloat then (tyFmt ty).decode ((tyFmt ty).flush fzi x.toNat)
  else let z := laneVal ty x; .fin (decide (z < 0)) z.natAbs 0

/-- Bytes of a register replaced from byte `at'`. -/
def putBytes (v : VReg) (at' : Nat) (bs : List Byte) : VReg :=
  let old := vecBytes v
  bytesVec (old.take at' ++ bs ++ old.drop (at' + bs.length))

/-- CVTB (09 R257). In a clamp x[C] takes the leader's scale byte. DEDUCED: log 33. -/
def execCvtb (src dst : Ty) (part : BitVec 3) (mode : BitVec 2) (rm : RM) (fzi : Bool) (d a c : Reg) :=
  runRegs fun t =>
    let w := tyBits src
    let p := part.toNat
    let f : FMod := ⟨rm, fzi, false, 0⟩
    let block (k : Nat) : Nat × List Nat × BitVec 5 :=
      let ls := (lanes w (t.rv k a) ++ (if w = 32 then lanes w (t.rv k (a + 1)) else [])).take 32
      let xs := ls.map (elemNum src (t.fzi fzi))
      let draws (i : Nat) : Nat := (t.env f i).draw
      if dst = .blk4 then toBlk4 mode.toNat (t.mode rm) draws xs else toBlk8 (t.mode rm) draws xs
    let t' := (List.range t.width).foldl (fun acc k =>
      let r := block k
      let bs := if dst = .blk4 then blk4Bytes r.2.1 else r.2.1.map (BitVec.ofNat 8)
      (acc.wv k d (putBytes (t.rv k d) (bs.length * p) bs)).orFlags r.2.2) t
    let sc := (block t.lead).1
    (t'.wx c (setFld (t.rx c) (8 * p + 7) (8 * p) sc)).count rm

/-- CVFB (09 R258). Element i of member k draws as lane 32k + i (03 R91, 09 R259). DEDUCED: log 33. -/
def execCvfb (src dst : Ty) (part : BitVec 3) (rm : RM) (fzo : Bool) (d a c : Reg) :=
  runRegs fun t =>
    let F := tyFmt dst
    let p := part.toNat
    let f : FMod := ⟨rm, false, fzo, 0⟩
    let sc := fld (t.rx c) (8 * p + 7) (8 * p)
    ((List.range t.width).foldl (fun acc k =>
      let v := vecBytes (t.rv k a)
      let nums : List Num := if src = .blk4 then (blk4Codes ((v.drop (16 * p)).take 16)).map (blk4Num sc)
        else ((v.drop (32 * p)).take 32).map fun b => blk8Num sc b.toNat
      let r := nums.zipIdx.map fun (n : Num × Nat) => fres (F.ofNum (t.env f (32 * k + n.2)) n.1)
      let ls := r.map (·.1)
      let acc := if dst = .f32 then (acc.wv k d (ofLanes 32 (ls.take 16))).wv k (d + 1) (ofLanes 32 (ls.drop 16))
        else acc.wv k d (ofLanes 16 ls)
      acc.orFlags (r.foldl (fun fl x => fl ||| x.2) 0)) t).count rm

end Sys2Proof.Machine
end

