-- ==== Sys2Proof/Decode.lean ====
section
/-! DEFINITION. The decoder, total on any bytes, in the order of spec 01 Table 1.13, and after it the encoder
(spec 01 R12 to R44 and the encoding table of each instruction chapter). -/

namespace Sys2Proof

/-- Why a word sequence is not an instruction: the step of 01 Table 1.13 that fails. Each raises ILLOP. -/
inductive Reject where
  | opUnassigned   -- step 2 (R31, R32)
  | fnUndefined    -- step 3 (R32)
  | lenInvalid     -- step 3 (R17)
  | truncated      -- the bytes end before the instruction does
  | regCode        -- step 5: a mask or queue code of 8 to 31 (R20)
  | reserved       -- step 5 or 6: an unused field is not zero (R18, R22)
  | fieldCode      -- step 6: a reserved TYPE, SCOPE, RM or VAR code (R23, R24, R26, R29)
  | limit          -- step 5 or 6: a limit of the instruction's own table
  deriving DecidableEq, Repr

/-- The fields of an instruction's words (01 Tables 1.2 and 1.6, R16). -/
structure Fields where
  fn : BitVec 9
  d : Reg
  a : Reg
  b : Reg
  c : Reg
  e : Reg
  ty : BitVec 5
  scope : BitVec 4
  acq : Bool
  rel : Bool
  fzi : Bool
  fzo : Bool
  rm : BitVec 3
  mask : SReg
  var : BitVec 3
  imm : BitVec 32
  deriving DecidableEq, Repr

/-- Names of the fields that an instruction may leave unused (01 R22). -/
inductive Fld where
  | d | a | b | c | e | ty | scope | acq | rel | fzi | fzo | rm | mask | var | imm
  deriving DecidableEq, Repr

/-- Whether a field is zero. -/
def Fields.zero (f : Fields) : Fld → Bool
  | .d => f.d == 0 | .a => f.a == 0 | .b => f.b == 0 | .c => f.c == 0 | .e => f.e == 0
  | .ty => f.ty == 0 | .scope => f.scope == 0 | .acq => !f.acq | .rel => !f.rel
  | .fzi => !f.fzi | .fzo => !f.fzo | .rm => f.rm == 0 | .mask => f.mask == 0
  | .var => f.var == 0 | .imm => f.imm == 0

/-- Every field outside `used` is zero (01 R22). -/
def Fields.onlyUses (f : Fields) (used : List Fld) : Bool :=
  [Fld.d, .a, .b, .c, .e, .ty, .scope, .acq, .rel, .fzi, .fzo, .rm, .mask, .var, .imm].all
    fun x => used.contains x || f.zero x

/-- The fields of a base word of format A with extension word 1 and IMM32 (01 Tables 1.2 and 1.6). -/
def Fields.of (w e1 imm : IWord) : Fields where
  fn := w.extractLsb' 23 9
  b := w.extractLsb' 18 5
  a := w.extractLsb' 13 5
  d := w.extractLsb' 8 5
  var := e1.extractLsb' 29 3
  mask := e1.extractLsb' 26 3
  rm := e1.extractLsb' 23 3
  fzo := e1.getLsbD 22
  fzi := e1.getLsbD 21
  rel := e1.getLsbD 20
  acq := e1.getLsbD 19
  scope := e1.extractLsb' 15 4
  ty := e1.extractLsb' 10 5
  e := e1.extractLsb' 5 5
  c := e1.extractLsb' 0 5
  imm := imm

/-- 01 Table 1.9. -/
def Ty.ofCode (c : BitVec 5) : Option Ty :=
  match c.toNat with
  | 0 => some .i8 | 1 => some .i16 | 2 => some .i32 | 3 => some .i64 | 4 => some .n8 | 5 => some .n16
  | 6 => some .n32 | 7 => some .n64 | 8 => some .f16 | 9 => some .bf16 | 10 => some .f32 | 11 => some .f64
  | 12 => some .e4m3 | 13 => some .e5m2 | 14 => some .blk4 | 15 => some .blk8 | 16 => some .mld
  | _ => none

/-- 01 Table 1.10. -/
def Scope.ofCode (c : BitVec 4) : Option Scope :=
  match c.toNat with
  | 0 => some .task | 1 => some .core | 2 => some .quad | 3 => some .bench | 4 => some .row | 5 => some .die
  | 6 => some .pkg | 7 => some .host | 8 => some .board | 9 => some .pod | 10 => some .pool | 11 => some .sys
  | _ => none

/-- 01 Table 1.11. -/
def RM.ofCode (c : BitVec 3) : Option RM :=
  match c.toNat with
  | 0 => some .dflt | 1 => some .rn | 2 => some .rz | 3 => some .ru | 4 => some .rd | 5 => some .ra
  | 6 => some .rs
  | _ => none

/-- 09 R248. -/
def Cond.ofCode (c : BitVec 3) : Cond :=
  match c.toNat with
  | 0 => .eq | 1 => .ne | 2 => .lt | 3 => .le | 4 => .gt | 5 => .ge | 6 => .un
  | _ => .ord

/-- 05 R146. -/
def Width.ofCode (c : BitVec 2) : Width :=
  match c.toNat with
  | 0 => .w1 | 1 => .w2 | 2 => .w4
  | _ => .w8

/-- A mask or queue code, below 8 (01 R20). -/
def sreg (r : Reg) : Except Reject SReg := if r.toNat < 8 then .ok (r.setWidth 3) else .error .regCode

namespace Fields

def tyOf (f : Fields) : Except Reject Ty := match Ty.ofCode f.ty with | some t => .ok t | none => .error .fieldCode
def scopeOf (f : Fields) : Except Reject Scope :=
  match Scope.ofCode f.scope with | some t => .ok t | none => .error .fieldCode
def rmOf (f : Fields) : Except Reject RM := match RM.ofCode f.rm with | some t => .ok t | none => .error .fieldCode
def modOf (f : Fields) : Except Reject FMod := f.rmOf.map fun rm => ⟨rm, f.fzi, f.fzo, f.mask⟩
def arOf (f : Fields) : Except Reject AcqRel := f.scopeOf.map fun s => ⟨f.acq, f.rel, s⟩
def memOf (f : Fields) : MemOp := ⟨f.a, f.b, f.fn.extractLsb' 2 2, f.imm⟩
def widthOf (f : Fields) : Width := Width.ofCode (f.fn.extractLsb' 0 2)
/-- A single ACQ or REL bit with its scope: SCOPE is 0 without the bit (05 R148, 14 R335). -/
def oneScope (f : Fields) (bit : Bool) : Except Reject (Option Scope) := do
  let s ← f.scopeOf
  if bit then .ok (some s) else if s = .task then .ok none else .error .reserved
/-- VAR 0 or 1 as a Boolean (01 R29). -/
def flag (f : Fields) : Except Reject Bool :=
  if f.var = 0 then .ok false else if f.var = 1 then .ok true else .error .fieldCode
/-- VAR[1:0] is a B-slot and VAR[2] is 0 (11 R278). -/
def slotOf (f : Fields) : Except Reject (BitVec 2) :=
  if f.var.toNat < 4 then .ok (f.var.setWidth 2) else .error .fieldCode

end Fields

/-- What an encoding table says of one FN value: the accepted LEN values, the fields used, and the term. -/
structure Row where
  lens : List Nat
  used : List Fld
  build : Fields → Except Reject Instr

namespace Row

/-- Slots D, A and B, LEN 00. -/
def dab (mk : Reg → Reg → Reg → Instr) : Row := ⟨[0], [.d, .a, .b], fun f => .ok (mk f.d f.a f.b)⟩
/-- Slots D and A, LEN 00. -/
def da (mk : Reg → Reg → Instr) : Row := ⟨[0], [.d, .a], fun f => .ok (mk f.d f.a)⟩
/-- Slots D, A, B and C, LEN 01. -/
def dabc (mk : Reg → Reg → Reg → Reg → Instr) : Row :=
  ⟨[1], [.d, .a, .b, .c], fun f => .ok (mk f.d f.a f.b f.c)⟩
/-- A shift: IMM32 joins the amount (08 R225). -/
def shift (mk : Reg → Reg → Reg → BitVec 32 → Instr) : Row :=
  ⟨[0, 1], [.d, .a, .b, .imm], fun f => .ok (mk f.d f.a f.b f.imm)⟩
/-- A bit-field instruction (08 R226): IMM32[7] and [31:15] are zero. -/
def bitField (mk : Reg → Reg → Reg → Reg → BitVec 7 → BitVec 7 → Instr) : Row :=
  ⟨[1], [.d, .a, .b, .c, .imm], fun f =>
    if f.imm.extractLsb' 7 1 = 0 ∧ f.imm.extractLsb' 15 17 = 0 then
      .ok (mk f.d f.a f.b f.c (f.imm.extractLsb' 0 7) (f.imm.extractLsb' 8 7)) else .error .limit⟩
/-- A rounding instruction with VAR 1 for `.s` (09 Table 9.5). -/
def fab (vec : Bool) (mk : Bool → Bool → Ty → FMod → Reg → Reg → Reg → Instr) : Row :=
  ⟨[1], [.d, .a, .b, .ty, .rm, .fzi, .fzo, .mask, .var], fun f => do
    .ok (mk vec (← f.flag) (← f.tyOf) (← f.modOf) f.d f.a f.b)⟩
/-- A fused instruction. -/
def fabc (vec : Bool) (mk : Bool → Bool → Ty → FMod → Reg → Reg → Reg → Reg → Instr) : Row :=
  ⟨[1], [.d, .a, .b, .c, .ty, .rm, .fzi, .fzo, .mask, .var], fun f => do
    .ok (mk vec (← f.flag) (← f.tyOf) (← f.modOf) f.d f.a f.b f.c)⟩
/-- A one-operand rounding instruction: FSQRT and OP 0x19. -/
def fa (vec : Bool) (mk : Bool → Ty → FMod → Reg → Reg → Instr) : Row :=
  ⟨[1], [.d, .a, .ty, .rm, .fzi, .fzo, .mask], fun f => do .ok (mk vec (← f.tyOf) (← f.modOf) f.d f.a)⟩
/-- FMIN, FMAX and FSGNJ: RM and FZO are zero. -/
def fmm (vec : Bool) (mk : Bool → Bool → Ty → Bool → SReg → Reg → Reg → Reg → Instr) : Row :=
  ⟨[1], [.d, .a, .b, .ty, .fzi, .mask, .var], fun f => do
    .ok (mk vec (← f.flag) (← f.tyOf) f.fzi f.mask f.d f.a f.b)⟩
/-- FABS and FNEG. -/
def fsign (vec : Bool) (mk : Bool → Ty → Bool → SReg → Reg → Reg → Instr) : Row :=
  ⟨[1], [.d, .a, .ty, .fzi, .mask], fun f => do .ok (mk vec (← f.tyOf) f.fzi f.mask f.d f.a)⟩
/-- A vector integer instruction (09 Table 9.7). -/
def vab (mk : Bool → Ty → SReg → Reg → Reg → Reg → Instr) : Row :=
  ⟨[0, 1], [.d, .a, .b, .ty, .mask, .var], fun f => do .ok (mk (← f.flag) (← f.tyOf) f.mask f.d f.a f.b)⟩
/-- Three mask registers (09 Table 9.8). -/
def mmm (mk : SReg → SReg → SReg → Instr) : Row :=
  ⟨[0], [.d, .a, .b], fun f => do .ok (mk (← sreg f.d) (← sreg f.a) (← sreg f.b))⟩
/-- A scalar from a mask register. -/
def xm (mk : Reg → SReg → Instr) : Row := ⟨[0], [.d, .a], fun f => do .ok (mk f.d (← sreg f.a))⟩
/-- VRMIN and VRMAX. -/
def red (mk : Ty → Bool → SReg → Reg → Reg → Instr) : Row :=
  ⟨[0, 1], [.d, .a, .ty, .fzi, .mask], fun f => do .ok (mk (← f.tyOf) f.fzi f.mask f.d f.a)⟩
/-- A scalar local access; `none` where FN[1:0] must be zero and is not. -/
def loc (mk : Width → Reg → MemOp → Instr) : Row :=
  ⟨[0, 1], [.d, .a, .b, .imm], fun f => .ok (mk f.widthOf f.d f.memOf)⟩
/-- A vector local access (07 Table 7.3). -/
def vloc (mk : Ty → SReg → Reg → MemOp → Instr) : Row :=
  ⟨[0, 1], [.d, .a, .b, .imm, .ty, .mask], fun f => do .ok (mk (← f.tyOf) f.mask f.d f.memOf)⟩
/-- A scalar global load (05 Table 5.1). -/
def gld (mk : Width → Option Scope → Reg → MemOp → Instr) : Row :=
  ⟨[0, 1], [.d, .a, .b, .imm, .acq, .scope], fun f => do .ok (mk f.widthOf (← f.oneScope f.acq) f.d f.memOf)⟩
/-- An atomic with one data operand (05 Table 5.1). -/
def amo (mk : Ty → Bool → AcqRel → Reg → Reg → Reg → BitVec 32 → Instr) : Row :=
  ⟨[1], [.d, .a, .b, .imm, .ty, .var, .acq, .rel, .scope], fun f => do
    .ok (mk (← f.tyOf) (← f.flag) (← f.arOf) f.d f.a f.b f.imm)⟩
/-- A matrix multiplication (11 Table 11.4). -/
def mm (mk : BitVec 2 → Ty → RM → Bool → Bool → Reg → Reg → Reg → Reg → Instr) : Row :=
  ⟨[1], [.d, .a, .b, .c, .ty, .rm, .fzi, .fzo, .var], fun f => do
    .ok (mk (← f.slotOf) (← f.tyOf) (← f.rmOf) f.fzi f.fzo f.d f.a f.b f.c)⟩
/-- A send of two slots (14 Table 14.5). -/
def snd (mk : Option Scope → Reg → Reg → Instr) : Row :=
  ⟨[0, 1], [.a, .b, .rel, .scope], fun f => do .ok (mk (← f.oneScope f.rel) f.a f.b)⟩
/-- A send of three slots. -/
def snd3 (mk : Option Scope → Reg → Reg → Reg → Instr) : Row :=
  ⟨[1], [.a, .b, .c, .rel, .scope], fun f => do .ok (mk (← f.oneScope f.rel) f.a f.b f.c)⟩
/-- One slot, LEN 00. -/
def ra (mk : Reg → Instr) : Row := ⟨[0], [.a], fun f => .ok (mk f.a)⟩
def rd (mk : Reg → Instr) : Row := ⟨[0], [.d], fun f => .ok (mk f.d)⟩
/-- Slots A and B, LEN 00. -/
def rab (mk : Reg → Reg → Instr) : Row := ⟨[0], [.a, .b], fun f => .ok (mk f.a f.b)⟩
/-- No slot, LEN 00. -/
def nul (i : Instr) : Row := ⟨[0], [], fun _ => .ok i⟩

end Row

open Row

/-- 08 Table 8.1. -/
def row01 : Nat → Option Row
  | 0x000 => some (dab .add) | 0x100 => some (dab .addw) | 0x001 => some (dab .sub) | 0x101 => some (dab .subw)
  | 0x002 => some (dab .and) | 0x003 => some (dab .or) | 0x004 => some (dab .xor) | 0x005 => some (dab .andn)
  | 0x006 => some (dab .orn) | 0x007 => some (dab .xnor) | 0x008 => some (dab .min) | 0x009 => some (dab .max)
  | 0x00A => some (dab .minn) | 0x00B => some (dab .maxn) | 0x00C => some (dab .slt) | 0x00D => some (dab .sltn)
  | 0x00E => some (dab .seq) | 0x00F => some (dab .sne) | 0x010 => some (dabc .sel) | 0x011 => some (dab .addco)
  | _ => none

/-- 08 Table 8.2. -/
def row02 : Nat → Option Row
  | 0x000 => some (dab .mul) | 0x100 => some (dab .mulw) | 0x001 => some (dab .mulh) | 0x002 => some (dab .mulhn)
  | 0x003 => some (dab .mulhsn) | 0x004 => some (dab .div) | 0x104 => some (dab .divw) | 0x005 => some (dab .divn)
  | 0x105 => some (dab .divnw) | 0x006 => some (dab .rem) | 0x106 => some (dab .remw) | 0x007 => some (dab .remn)
  | 0x107 => some (dab .remnw) | 0x008 => some (dabc .madd)
  | _ => none

/-- 08 Table 8.4. -/
def row03 : Nat → Option Row
  | 0x000 => some (shift .sll) | 0x100 => some (shift .sllw) | 0x001 => some (shift .srl)
  | 0x101 => some (shift .srlw) | 0x002 => some (shift .sra) | 0x102 => some (shift .sraw)
  | 0x003 => some (shift .rol) | 0x004 => some (shift .ror) | 0x005 => some (da .clz) | 0x006 => some (da .ctz)
  | 0x007 => some (da .popc) | 0x008 => some (da .brev) | 0x009 => some (da .bswap)
  | 0x00A => some (bitField .bfx) | 0x00B => some (bitField .bfxn) | 0x00C => some (bitField .bfi)
  | _ => none

/-- 08 Table 8.8. -/
def row12 : Nat → Option Row
  | 0x000 => some (ra .jr) | 0x001 => some (da .jalr)
  | 0x002 => some ⟨[1], [.a, .imm], fun f => .ok (.loop f.a f.imm)⟩
  | _ => none

/-- 09 Table 9.5, for OP 0x14 and 0x15. -/
def row14 (vec : Bool) : Nat → Option Row
  | 0x000 => some (fab vec .fadd) | 0x001 => some (fab vec .fsub) | 0x002 => some (fab vec .fmul)
  | 0x003 => some (fab vec .fdiv) | 0x004 => some (fa vec .fsqrt) | 0x005 => some (fabc vec .fma)
  | 0x006 => some (fabc vec .fms) | 0x007 => some (fabc vec .fnma) | 0x008 => some (fabc vec .fnms)
  | 0x009 => some (fmm vec .fmin) | 0x00A => some (fmm vec .fmax) | 0x00B => some (fsign vec .fabs)
  | 0x00C => some (fsign vec .fneg) | 0x00D => some (fmm vec .fsgnj)
  | _ => none

/-- 09 Table 9.7. -/
def row16 : Nat → Option Row
  | 0x000 => some (vab .vadd) | 0x001 => some (vab .vsub) | 0x002 => some (vab .vadds) | 0x003 => some (vab .vsubs)
  | 0x004 => some (vab .vmul) | 0x005 => some (vab .vmulh)
  | 0x006 => some ⟨[0, 1], [.d, .a, .b, .c, .ty, .mask, .var], fun f => do
      .ok (.vmadd (← f.flag) (← f.tyOf) f.mask f.d f.a f.b f.c)⟩
  | 0x007 => some (vab .vmin) | 0x008 => some (vab .vmax)
  | 0x009 => some ⟨[0, 1], [.d, .a, .ty, .mask], fun f => do .ok (.vabs (← f.tyOf) f.mask f.d f.a)⟩
  | 0x00A => some (vab .vand) | 0x00B => some (vab .vor) | 0x00C => some (vab .vxor) | 0x00D => some (vab .vandn)
  | 0x00E => some (vab .vsll) | 0x00F => some (vab .vsrl) | 0x010 => some (vab .vsra)
  | _ => none

/-- 09 Table 9.8. -/
def row17 : Nat → Option Row
  | 0x000 => some ⟨[1], [.d, .a, .b, .ty, .fzi, .mask, .var], fun f => do
      let d ← sreg f.d
      .ok (.fcmp true (Cond.ofCode f.var) (← f.tyOf) f.fzi f.mask (d.setWidth 5) f.a f.b)⟩
  | 0x001 => some ⟨[1], [.d, .a, .b, .ty, .fzi, .var], fun f => do
      .ok (.fcmp false (Cond.ofCode f.var) (← f.tyOf) f.fzi 0 f.d f.a f.b)⟩
  | 0x002 => some ⟨[1], [.d, .a, .b, .ty, .mask, .var], fun f => do
      .ok (.icmp (Cond.ofCode f.var) (← f.tyOf) f.mask (← sreg f.d) f.a f.b)⟩
  | 0x010 => some (mmm .mand) | 0x011 => some (mmm .mor) | 0x012 => some (mmm .mxor) | 0x013 => some (mmm .mandn)
  | 0x014 => some ⟨[0], [.d, .a], fun f => do .ok (.mnot (← sreg f.d) (← sreg f.a))⟩
  | 0x015 => some ⟨[0], [.d, .a], fun f => do .ok (.mset (← sreg f.d) f.a)⟩
  | 0x016 => some (xm .mget) | 0x017 => some (xm .mpopc) | 0x018 => some (xm .mfirst)
  | _ => none

/-- 09 Table 9.9. -/
def row18 : Nat → Option Row
  | 0x000 => some ⟨[0, 1], [.d, .a, .ty, .mask], fun f => do .ok (.vbcast (← f.tyOf) f.mask f.d f.a)⟩
  | 0x001 => some ⟨[0, 1], [.d, .a, .b, .ty], fun f => do .ok (.vext (← f.tyOf) f.d f.a f.b)⟩
  | 0x002 => some ⟨[0, 1], [.d, .a, .b, .ty], fun f => do .ok (.vins (← f.tyOf) f.d f.a f.b)⟩
  | 0x003 => some ⟨[1], [.d, .a, .b, .c, .ty, .mask], fun f => do
      .ok (.vperm (← f.tyOf) f.mask f.d f.a f.b f.c)⟩
  | 0x004 => some ⟨[0, 1], [.d, .a, .ty, .mask], fun f => do .ok (.vmov (← f.tyOf) f.mask f.d f.a)⟩
  | 0x010 => some ⟨[0, 1], [.d, .a, .ty, .rm, .fzi, .fzo, .mask], fun f => do
      .ok (.vradd (← f.tyOf) (← f.modOf) f.d f.a)⟩
  | 0x011 => some (red .vrmin) | 0x012 => some (red .vrmax)
  | _ => none

/-- 09 Table 9.10. -/
def row19 (fn : Nat) : Option Row :=
  let vec := 0x100 ≤ fn
  match fn % 0x100 with
  | 0x00 => some (fa vec .fexp) | 0x01 => some (fa vec .fexp2) | 0x02 => some (fa vec .flog)
  | 0x03 => some (fa vec .flog2) | 0x04 => some (fa vec .frcp) | 0x05 => some (fa vec .frsq)
  | 0x06 => some (fa vec .fsin) | 0x07 => some (fa vec .fcos) | 0x08 => some (fa vec .ftanh)
  | 0x09 => some (fa vec .fsigm) | 0x0A => some (fa vec .ferf)
  | _ => none

/-- The source type code stands in E (09 R255). -/
def srcTy (f : Fields) : Except Reject Ty := match Ty.ofCode f.e with | some t => .ok t | none => .error .fieldCode

/-- 09 Table 9.12. -/
def row1A (fn : Nat) : Option Row :=
  let vec := 0x100 ≤ fn
  match fn % 0x100 with
  | 0x00 => some ⟨[1], [.d, .a, .e, .ty, .rm, .fzi, .fzo, .mask, .var], fun f => do
      .ok (.cvt vec (← srcTy f) (← f.tyOf) f.var (← f.modOf) f.d f.a)⟩
  | 0x01 => some ⟨[1], [.d, .a, .e, .ty, .mask, .var], fun f => do
      .ok (.cvts vec (← srcTy f) (← f.tyOf) f.var f.mask f.d f.a)⟩
  | 0x02 => if vec then some ⟨[1], [.d, .a, .c, .e, .ty, .rm, .fzi, .var, .imm], fun f => do
      if f.imm.toNat < 4 then
        .ok (.cvtb (← srcTy f) (← f.tyOf) f.var (f.imm.setWidth 2) (← f.rmOf) f.fzi f.d f.a f.c)
      else .error .limit⟩ else none
  | 0x03 => if vec then some ⟨[1], [.d, .a, .c, .e, .ty, .rm, .fzo, .var], fun f => do
      .ok (.cvfb (← srcTy f) (← f.tyOf) f.var (← f.rmOf) f.fzo f.d f.a f.c)⟩ else none
  | _ => none

/-- 07 Table 7.3, OP 0x1C: FN[8:4] selects, FN[3:2] is SH, FN[1:0] the width. -/
def row1C (fn : Nat) : Option Row :=
  let w0 := fn % 4 = 0
  match fn / 16 with
  | 0x00 => some (loc .ldl)
  | 0x01 => if fn % 4 = 3 then none else some (loc .ldlz)
  | 0x02 => if w0 then some (vloc .vldl) else none
  | 0x03 => some (loc .stl)
  | 0x04 => if w0 then some (vloc .vstl) else none
  | 0x05 => if w0 then some ⟨[0, 1], [.d, .a, .b, .imm], fun f => .ok (.ldsb f.d f.memOf)⟩ else none
  | 0x06 => if w0 then some ⟨[0, 1], [.d, .a, .b, .imm], fun f => .ok (.stsb f.d f.memOf)⟩ else none
  | 0x07 => if fn % 16 = 0 then some (rd .spill) else none
  | 0x08 => if fn % 16 = 0 then some (rd .spillv) else none
  | 0x09 => if fn % 16 = 0 then some (rd .fill) else none
  | 0x0A => if fn % 16 = 0 then some (rd .fillv) else none
  | _ => none

/-- 07 Table 7.3, OP 0x1D. -/
def row1D : Nat → Option Row
  | 0x000 => some (xm .qpop)
  | 0x010 => some ⟨[0], [.a, .b], fun f => do .ok (.qpush (← sreg f.a) f.b)⟩
  | 0x020 => some (xm .qcnt) | 0x030 => some (xm .qpeek)
  | _ => none

/-- 05 Table 5.1, OP 0x1E. -/
def row1E (fn : Nat) : Option Row :=
  let w0 := fn % 4 = 0
  match fn / 16 with
  | 0x00 => some (gld .ld)
  | 0x01 => if fn % 4 = 3 then none else some (gld .ldz)
  | 0x02 => if w0 then some ⟨[0, 1], [.d, .a, .b, .imm, .acq, .scope, .ty, .mask], fun f => do
      .ok (.vld (← f.tyOf) (← f.oneScope f.acq) f.mask f.d f.memOf)⟩ else none
  | 0x03 => if w0 then some ⟨[1], [.d, .a, .b, .c, .imm], fun f => .ok (.ldv f.d f.c f.memOf)⟩ else none
  | 0x04 => if w0 then some ⟨[0, 1], [.a, .b, .imm, .var], fun f => do .ok (.pref (← f.flag) f.memOf)⟩ else none
  | _ => none

/-- 05 Table 5.1, OP 0x1F. -/
def row1F (fn : Nat) : Option Row :=
  match fn / 16 with
  | 0x00 => some ⟨[0, 1], [.d, .a, .b, .imm, .rel, .scope], fun f => do
      .ok (.st f.widthOf (← f.oneScope f.rel) f.d f.memOf)⟩
  | 0x01 => if fn % 4 = 0 then some ⟨[0, 1], [.d, .a, .b, .imm, .rel, .scope, .ty, .mask], fun f => do
      .ok (.vst (← f.tyOf) (← f.oneScope f.rel) f.mask f.d f.memOf)⟩ else none
  | _ => none

/-- 05 Table 5.1, OP 0x20. -/
def row20 (fn : Nat) : Option Row :=
  if fn / 16 = 0x08 then
    some ⟨[1], [.d, .a, .b, .c, .imm], fun f => .ok (.cstore4 (f.fn.extractLsb' 0 4) f.d f.a f.b f.c f.imm)⟩
  else if fn % 16 ≠ 0 then none
  else match fn / 16 with
  | 0x00 => some ⟨[1], [.d, .a, .b, .imm, .ty, .rm, .var, .acq, .rel, .scope], fun f => do
      if f.rm.toNat ≤ 1 then
        .ok (.amoadd (← f.tyOf) (← f.flag) (f.rm == 1#3) (← f.arOf) f.d f.a f.b f.imm)
      else .error .fieldCode⟩
  | 0x01 => some (amo .amoand) | 0x02 => some (amo .amoor) | 0x03 => some (amo .amoxor)
  | 0x04 => some (amo .amomin) | 0x05 => some (amo .amomax) | 0x06 => some (amo .amoswp)
  | 0x07 => some ⟨[1], [.d, .a, .b, .c, .imm, .ty, .var, .acq, .rel, .scope], fun f => do
      .ok (.amocas (← f.tyOf) (← f.flag) (← f.arOf) f.d f.a f.b f.c f.imm)⟩
  | _ => none

/-- 05 Table 5.1, OP 0x21. -/
def row21 : Nat → Option Row
  | 0x000 => some ⟨[1], [.acq, .rel, .scope], fun f => do .ok (.fence (← f.arOf))⟩
  | 0x010 => some ⟨[0, 1], [.a, .imm], fun f => .ok (.publ f.a f.imm)⟩
  | _ => none

/-- 06 Table 6.3, OP 0x22. -/
def row22 : Nat → Option Row
  | 0x000 => some ⟨[0, 1], [.b, .acq, .rel, .scope, .var], fun f => do
      let ar ← f.arOf
      match f.var.toNat with
      | 0 => .ok (.copy ar f.b)
      | 1 => .ok (.copyGath ar f.b)
      | 2 => .ok (.copyScat ar f.b)
      | _ => .error .fieldCode⟩
  | 0x001 => some ⟨[1], [.b, .acq, .rel, .scope, .ty, .rm, .fzi, .fzo, .var], fun f => do
      .ok (.redc f.var (← f.tyOf) (← f.rmOf) f.fzi f.fzo (← f.arOf) f.b)⟩
  | 0x002 => some ⟨[1], [.d, .a, .b, .c, .acq, .rel, .scope, .imm], fun f => do
      .ok (.rdb (← f.arOf) f.d f.a f.b f.c f.imm)⟩
  | 0x003 => some (ra .cres) | 0x004 => some (ra .cdrop)
  | _ => none

/-- 06 Table 6.3, OP 0x23. -/
def row23 : Nat → Option Row
  | 0x000 => some ⟨[0, 1], [.d, .a, .b, .imm], fun f => .ok (.mon f.d f.a f.b f.imm)⟩
  | 0x001 => some (rd .monx)
  | 0x002 => some ⟨[0], [.a, .b], fun f => do .ok (.cvrel (← sreg f.a) f.b)⟩
  | 0x003 => some (da .cvstat)
  | _ => none

/-- 11 Table 11.4. -/
def row24 : Nat → Option Row
  | 0x000 => some (mm .mma) | 0x001 => some (mm .mmaz)
  | 0x002 => some ⟨[1], [.d, .a, .b, .c, .e, .ty, .rm, .fzi, .fzo, .var], fun f => do
      .ok (.mmag (← f.slotOf) (← f.tyOf) (← f.rmOf) f.fzi f.fzo f.d f.a f.b f.c f.e)⟩
  | 0x003 => some ⟨[1], [.a, .c, .ty, .fzi, .var], fun f => do .ok (.bld (← f.slotOf) (← f.tyOf) f.fzi f.a f.c)⟩
  | 0x004 => some ⟨[1], [.c, .var], fun f => do .ok (.bfree (← f.slotOf) f.c)⟩
  | 0x005 => some ⟨[1], [.b, .c], fun f => .ok (.route f.b f.c)⟩
  | _ => none

/-- 12 Table 12.3. -/
def row25 : Nat → Option Row
  | 0x000 => some ⟨[1], [.d, .a, .c, .e, .ty, .var], fun f => do
      if f.ty = 0x10 then .ok (.mlbe (f.var.setWidth 2) (f.var.getLsbD 2) f.d f.a f.c f.e) else .error .fieldCode⟩
  | 0x001 => some ⟨[1], [.d, .a, .b, .c, .e, .var, .imm], fun f => do
      if f.var.toNat ≤ 2 ∧ f.imm.extractLsb' 17 15 = 0 then
        .ok (.noise (f.var.setWidth 2) f.d f.a f.b f.c f.e (f.imm.extractLsb' 0 8) (f.imm.extractLsb' 8 9))
      else .error .limit⟩
  | _ => none

/-- 14 Table 14.5. -/
def row26 : Nat → Option Row
  | 0x000 => some (snd .send) | 0x001 => some (snd3 .sendd) | 0x002 => some (snd .sendv) | 0x003 => some (snd .reply)
  | 0x004 => some (ra .maskc) | 0x005 => some (ra .unmaskc) | 0x006 => some (ra .park)
  | 0x007 => some ⟨[0, 1], [.a, .var], fun f => do
      if ← f.flag then .ok (.unparkDrop f.a) else .ok (.unpark f.a)⟩
  | 0x008 => some (rab .htset)
  | _ => none

/-- 16 Table 16.5. -/
def row27 : Nat → Option Row
  | 0x000 => some (snd3 .fork) | 0x001 => some (dabc .join) | 0x002 => some (ra .jret)
  | 0x003 => some ⟨[1], [.a, .b, .c], fun f => .ok (.barinit f.a f.b f.c)⟩
  | 0x004 => some (rab .bara) | 0x005 => some (ra .bard) | 0x006 => some (ra .stage) | 0x007 => some (rab .launch)
  | _ => none

/-- 18 Table 18.6. -/
def row28 : Nat → Option Row
  | 0x000 => some (dab .draw) | 0x001 => some (nul .reseed) | 0x002 => some (dab .excq) | 0x003 => some (dab .excqp)
  | 0x004 => some (ra .wset)
  | _ => none

/-- 20 Table 20.2. -/
def row29 : Nat → Option Row
  | 0x000 => some ⟨[0, 1], [.a, .b, .var], fun f => do
      if ← f.flag then .ok (.incumbMax f.a f.b) else .ok (.incumbMin f.a f.b)⟩
  | 0x001 => some ⟨[0, 1], [.d, .var], fun f =>
      match f.var.toNat with
      | 0 => .ok (.rdinc f.d) | 1 => .ok (.rdincPay f.d) | 2 => .ok (.rdincSt f.d)
      | _ => .error .fieldCode⟩
  | 0x002 => some (nul .killpt) | 0x003 => some (ra .bound)
  | _ => none

/-- 21 Table 21.11. -/
def row2A : Nat → Option Row
  | 0x000 => some (ra .trap) | 0x001 => some (rab .sysc)
  | 0x002 => some ⟨[1], [.d, .imm], fun f =>
      if f.imm.extractLsb' 12 20 = 0 then .ok (.rds f.d (f.imm.setWidth 12)) else .error .limit⟩
  | 0x003 => some ⟨[1], [.a, .imm], fun f =>
      if f.imm.extractLsb' 12 20 = 0 then .ok (.wrs f.a (f.imm.setWidth 12)) else .error .limit⟩
  | 0x004 => some ⟨[0, 1], [.a, .var], fun f => do
      if ← f.flag then (if f.a = 0 then .ok .tlbinvCtx else .error .reserved) else .ok (.tlbinv f.a)⟩
  | 0x005 => some ⟨[0, 1], [.a, .b, .var], fun f =>
      match f.var.toNat with
      | 0 => .ok (.haltSusp f.a f.b) | 1 => .ok (.haltHalt f.a f.b) | 2 => .ok (.haltRes f.a f.b)
      | _ => .error .fieldCode⟩
  | 0x006 => some (rd .fltpop)
  | _ => none

/-- 10 R261, R269. -/
def row2B : Nat → Option Row
  | 0x000 => some ⟨[1], [.a, .imm], fun f =>
      if f.imm.extractLsb' 28 4 = 0 then
        .ok (.jig f.a (f.imm.extractLsb' 0 4) (f.imm.extractLsb' 4 5) (f.imm.extractLsb' 9 5)
          (f.imm.extractLsb' 14 6) (f.imm.extractLsb' 20 8))
      else .error .limit⟩
  | 0x001 => some (nul .unclamp) | 0x002 => some (rd .clw)
  | _ => none

/-- 13 Table 13.2. -/
def row2C : Nat → Option Row
  | 0x000 => some (nul .endt) | 0x001 => some (rd .dgrd) | 0x002 => some (ra .dgmix) | 0x003 => some (rd .slstat)
  | _ => none

/-- The encoding tables of the format A opcodes (01 Table 1.12). `none` outside is an opcode without a table. -/
def tableA (op fn : Nat) : Option (Option Row) :=
  match op with
  | 0x01 => some (row01 fn) | 0x02 => some (row02 fn) | 0x03 => some (row03 fn) | 0x12 => some (row12 fn)
  | 0x14 => some (row14 false fn) | 0x15 => some (row14 true fn) | 0x16 => some (row16 fn)
  | 0x17 => some (row17 fn) | 0x18 => some (row18 fn) | 0x19 => some (row19 fn) | 0x1A => some (row1A fn)
  | 0x1C => some (row1C fn) | 0x1D => some (row1D fn) | 0x1E => some (row1E fn) | 0x1F => some (row1F fn)
  | 0x20 => some (row20 fn) | 0x21 => some (row21 fn) | 0x22 => some (row22 fn) | 0x23 => some (row23 fn)
  | 0x24 => some (row24 fn) | 0x25 => some (row25 fn) | 0x26 => some (row26 fn) | 0x27 => some (row27 fn)
  | 0x28 => some (row28 fn) | 0x29 => some (row29 fn) | 0x2A => some (row2A fn) | 0x2B => some (row2B fn)
  | 0x2C => some (row2C fn)
  | _ => none

/-- OP of a base word. -/
def opOf (w : IWord) : Nat := (w.extractLsb' 2 6).toNat
/-- LEN of a base word. -/
def lenOf (w : IWord) : Nat := (w.extractLsb' 0 2).toNat
/-- FN of a format A base word. -/
def fnOf (w : IWord) : Nat := (w.extractLsb' 23 9).toNat

/-- 01 Table 1.1: words of an instruction by LEN. -/
def lenWords (len : Nat) : Nat := match len with | 0 => 1 | 1 => 3 | 2 => 3 | _ => 5

/-- Bytes of the instruction that a base word opens, by its LEN alone (01 R13). -/
def wordsOf (w : IWord) : Nat := lenWords (lenOf w)

/-- Steps 2 and 3 of 01 Table 1.13 on the base word: the number of words, or the refusal. A permanently
illegal opcode (R31) is one word. -/
def plan (w : IWord) : Except Reject Nat :=
  let op := opOf w
  let len := lenOf w
  if op = 0x00 ∨ op = 0x3E ∨ op = 0x3F then .ok 1
  else if 0x04 ≤ op ∧ op ≤ 0x09 then if len ≤ 2 then .ok (lenWords len) else .error .lenInvalid
  else if 0x0A ≤ op ∧ op ≤ 0x0F then if len ≤ 1 then .ok (lenWords len) else .error .lenInvalid
  else if op = 0x10 ∨ op = 0x11 then if len = 0 then .ok 1 else .error .lenInvalid
  else match tableA op (fnOf w) with
    | none => .error .opUnassigned
    | some none => .error .fnUndefined
    | some (some r) => if r.lens.contains len then .ok (lenWords len) else .error .lenInvalid

/-- The immediate of format I (01 Table 1.7). -/
def immI (w : IWord) (len : Nat) (x y : IWord) : Except Reject Word :=
  let imm14 : BitVec 14 := w.extractLsb' 18 14
  match len with
  | 0 => .ok (imm14.signExtend 64)
  | 1 => if x = 0 then .ok ((y ++ imm14 : BitVec 46).signExtend 64) else .error .reserved
  | _ => if imm14 = 0 then .ok (y ++ x : BitVec 64) else .error .reserved

/-- The word offset of format J (01 Table 1.7). -/
def offJ (w : IWord) (len : Nat) (x y : IWord) : Except Reject (BitVec 46) :=
  let off14 : BitVec 14 := w.extractLsb' 18 14
  if len = 0 then .ok (off14.signExtend 46) else if x = 0 then .ok (y ++ off14 : BitVec 46) else .error .reserved

/-- Formats I, J and L (01 Tables 1.3 to 1.5). -/
def decodeIJL (w x y : IWord) : Except Reject Instr :=
  let len := lenOf w
  let d : Reg := w.extractLsb' 8 5
  let a : Reg := w.extractLsb' 13 5
  match opOf w with
  | 0x04 => do .ok (.addi d a (← immI w len x y))
  | 0x05 => do .ok (.andi d a (← immI w len x y))
  | 0x06 => do .ok (.ori d a (← immI w len x y))
  | 0x07 => do .ok (.xori d a (← immI w len x y))
  | 0x08 => if a = 0 then do .ok (.li d (← immI w len x y)) else .error .reserved
  | 0x09 => if a = 0 then do .ok (.pcadd d (← immI w len x y)) else .error .reserved
  | 0x0A => do .ok (.beq d a (← offJ w len x y))
  | 0x0B => do .ok (.bne d a (← offJ w len x y))
  | 0x0C => do .ok (.blt d a (← offJ w len x y))
  | 0x0D => do .ok (.bge d a (← offJ w len x y))
  | 0x0E => do .ok (.bltn d a (← offJ w len x y))
  | 0x0F => do .ok (.bgen d a (← offJ w len x y))
  | 0x10 => .ok (.br (w.extractLsb' 8 24))
  | 0x11 => .ok (.call (w.extractLsb' 8 24))
  | _ => .error .opUnassigned

/-- Steps 5 and 6 of 01 Table 1.13: the instruction that a base word and the two words after it are. `x` and `y`
are read only where `plan` asks for them, and count as zero otherwise (01 R17). DEDUCED: logs 25, 79. -/
def decodeWords (w x y : IWord) : Except Reject Instr :=
  let op := opOf w
  if op = 0x00 ∨ op = 0x3E ∨ op = 0x3F then .ok (.illop w)
  else match tableA op (fnOf w) with
    | none => decodeIJL w x y
    | some none => .error .fnUndefined
    | some (some r) =>
      let f := if lenOf w = 0 then Fields.of w 0 0 else Fields.of w x y
      if f.onlyUses r.used then do
        let i ← r.build f
        if i.wf then .ok i else .error .limit
      else .error .reserved

/-- Little-endian word of four bytes (01 R12). -/
def leWord (b0 b1 b2 b3 : Byte) : IWord := b3 ++ b2 ++ b1 ++ b0

/-- One instruction word off the front of a byte list. -/
def takeWord : List Byte → Option (IWord × List Byte)
  | b0 :: b1 :: b2 :: b3 :: rest => some (leWord b0 b1 b2 b3, rest)
  | _ => none

/-- The decoder: one instruction and the bytes after it, or the reason there is none (01 R34). -/
def decode (bs : List Byte) : Except Reject (Instr × List Byte) :=
  match takeWord bs with
  | none => .error .truncated
  | some (w, r) => do
    let n ← plan w
    if n = 1 then return (← decodeWords w 0 0, r)
    else match takeWord r with
      | none => .error .truncated
      | some (x, r) => match takeWord r with
        | none => .error .truncated
        | some (y, r) => return (← decodeWords w x y, r)

/-- The bytes of a word in memory (01 R12). -/
def wordBytes (w : IWord) : List Byte :=
  [w.extractLsb' 0 8, w.extractLsb' 8 8, w.extractLsb' 16 8, w.extractLsb' 24 8]

/-- The `n` instruction words of a number, bit 0 of the first word first. -/
def wordsOfNat : Nat → Nat → List IWord
  | 0, _ => []
  | n + 1, w => BitVec.ofNat 32 w :: wordsOfNat n (w >>> 32)

/-- The instruction read from words numbered as spec/opcode_table.json numbers their bits; every bit above
`nbits` is zero, up to the longest instruction of three words that this part accepts. -/
def decodeTableWord (nbits w : Nat) : Option Instr :=
  match decode ((wordsOfNat 5 (w % 2 ^ nbits)).flatMap wordBytes) with
  | .ok (i, _) => some i
  | .error _ => none

/-! ## The encoder -/

/-- A format A instruction's words before LEN is chosen. -/
structure Enc where
  op : BitVec 6
  fn : BitVec 9 := 0
  d : Reg := 0
  a : Reg := 0
  b : Reg := 0
  c : Reg := 0
  e : Reg := 0
  ty : BitVec 5 := 0
  scope : BitVec 4 := 0
  acq : Bool := false
  rel : Bool := false
  fzi : Bool := false
  fzo : Bool := false
  rm : BitVec 3 := 0
  mask : SReg := 0
  var : BitVec 3 := 0
  imm : BitVec 32 := 0
  /-- LEN 00 is accepted. -/
  short : Bool := true

/-- Extension word 1 (01 Table 1.6). -/
def Enc.ext (e : Enc) : IWord :=
  e.var ++ e.mask ++ e.rm ++ BitVec.ofBool e.fzo ++ BitVec.ofBool e.fzi ++ BitVec.ofBool e.rel ++
    BitVec.ofBool e.acq ++ e.scope ++ e.ty ++ e.e ++ e.c

/-- The base word of format A with a LEN (01 Table 1.2). -/
def Enc.base (e : Enc) (len : BitVec 2) : IWord := e.fn ++ e.b ++ e.a ++ e.d ++ e.op ++ len

/-- The words, in the smallest LEN that holds them (01 R44). -/
def Enc.words (e : Enc) : List IWord :=
  if e.short && e.ext == 0 && e.imm == 0 then [e.base 0] else [e.base 1, e.ext, e.imm]

/-- Format I (01 Table 1.3, Table 1.7), in the smallest LEN. -/
def encI (op : BitVec 6) (d a : Reg) (imm : Word) : List IWord :=
  let base (i : BitVec 14) (len : BitVec 2) : IWord := i ++ a ++ d ++ op ++ len
  if (imm.setWidth 14).signExtend 64 = imm then [base (imm.setWidth 14) 0]
  else if (imm.setWidth 46).signExtend 64 = imm then [base (imm.setWidth 14) 1, 0, imm.extractLsb' 14 32]
  else [base 0 2, imm.extractLsb' 0 32, imm.extractLsb' 32 32]

/-- Format J (01 Table 1.4), in the smallest LEN. -/
def encJ (op : BitVec 6) (a b : Reg) (off : BitVec 46) : List IWord :=
  let base (len : BitVec 2) : IWord := off.setWidth 14 ++ b ++ a ++ op ++ len
  if (off.setWidth 14).signExtend 46 = off then [base 0] else [base 1, 0, off.extractLsb' 14 32]

/-- Format L (01 Table 1.5). -/
def encL (op : BitVec 6) (off : BitVec 24) : List IWord := [off ++ op ++ (0 : BitVec 2)]

def encR (op : BitVec 6) (fn : BitVec 9) (d a b : Reg) : List IWord := Enc.words { op, fn, d, a, b }
def encR4 (op : BitVec 6) (fn : BitVec 9) (d a b c : Reg) : List IWord :=
  Enc.words { op, fn, d, a, b, c, short := false }
def encSh (fn : BitVec 9) (d a b : Reg) (imm : BitVec 32) : List IWord := Enc.words { op := 0x03, fn, d, a, b, imm }
def encBf (fn : BitVec 9) (d a b c : Reg) (io iw : BitVec 7) : List IWord :=
  Enc.words { op := 0x03, fn, d, a, b, c, imm := (0 : BitVec 17) ++ iw ++ (0 : BitVec 1) ++ io, short := false }
def encF (vec sc : Bool) (fn : BitVec 9) (ty : Ty) (f : FMod) (d a b c : Reg) : List IWord :=
  Enc.words
      { op := if vec then 0x15 else 0x14, fn, d, a, b, c, ty := ty.code, rm := f.rm.code, fzi := f.fzi, fzo := f.fzo,
        mask := f.mask, var := if sc then 1 else 0, short := false }
def encV (sc : Bool) (fn : BitVec 9) (ty : Ty) (mask : SReg) (d a b c : Reg) : List IWord :=
  Enc.words { op := 0x16, fn, d, a, b, c, ty := ty.code, mask, var := if sc then 1 else 0 }
def encM (fn : BitVec 9) (d a b : SReg) : List IWord :=
  Enc.words { op := 0x17, fn, d := d.setWidth 5, a := a.setWidth 5, b := b.setWidth 5 }
def encXM (op : BitVec 6) (fn : BitVec 9) (d : Reg) (a : SReg) : List IWord :=
  Enc.words { op, fn, d, a := a.setWidth 5 }
def encSp (vec : Bool) (k : BitVec 8) (ty : Ty) (f : FMod) (d a : Reg) : List IWord :=
  Enc.words
      { op := 0x19, fn := BitVec.ofBool vec ++ k, d, a, ty := ty.code, rm := f.rm.code, fzi := f.fzi, fzo := f.fzo,
        mask := f.mask, short := false }
/-- FN of a memory instruction (05 R146): the selector, SH and the width. -/
def memFn (k : BitVec 5) (sh w : BitVec 2) : BitVec 9 := k ++ sh ++ w
def encMem (op : BitVec 6) (k : BitVec 5) (w : BitVec 2) (d : Reg) (m : MemOp) (ty : BitVec 5 := 0) (mask : SReg := 0) :
    List IWord :=
  Enc.words { op, fn := memFn k m.sh w, d, a := m.a, b := m.b, imm := m.imm, ty, mask }
def encAcq (k : BitVec 5) (w : BitVec 2) (acq : Option Scope) (d : Reg) (m : MemOp) (ty : BitVec 5 := 0)
    (mask : SReg := 0) : List IWord :=
  Enc.words
      { op := 0x1E, fn := memFn k m.sh w, d, a := m.a, b := m.b, imm := m.imm, ty, mask, acq := acq.isSome,
        scope := (acq.map Scope.code).getD 0 }
def encRel (k : BitVec 5) (w : BitVec 2) (rel : Option Scope) (d : Reg) (m : MemOp) (ty : BitVec 5 := 0)
    (mask : SReg := 0) : List IWord :=
  Enc.words
      { op := 0x1F, fn := memFn k m.sh w, d, a := m.a, b := m.b, imm := m.imm, ty, mask, rel := rel.isSome,
        scope := (rel.map Scope.code).getD 0 }
def encAmo (k : BitVec 5) (ty : Ty) (rpl : Bool) (ar : AcqRel) (d a b c : Reg) (imm : BitVec 32) (rm : BitVec 3 := 0) :
    List IWord :=
  Enc.words
      { op := 0x20, fn := memFn k 0 0, d, a, b, c, imm, ty := ty.code, rm, var := if rpl then 1 else 0,
        acq := ar.acq, rel := ar.rel, scope := ar.scope.code, short := false }
def encMm (fn : BitVec 9) (bs : BitVec 2) (ty : Ty) (rm : RM) (fzi fzo : Bool) (d a b c e : Reg) : List IWord :=
  Enc.words
      { op := 0x24, fn, d, a, b, c, e, ty := ty.code, rm := rm.code, fzi, fzo, var := bs.setWidth 3,
        short := false }
def encSnd (op : BitVec 6) (fn : BitVec 9) (rel : Option Scope) (a b c : Reg) (short : Bool) : List IWord :=
  Enc.words { op, fn, a, b, c, rel := rel.isSome, scope := (rel.map Scope.code).getD 0, short }
def encAr (op : BitVec 6) (fn : BitVec 9) (var : BitVec 3) (ar : AcqRel) (b : Reg) : List IWord :=
  Enc.words { op, fn, b, var, acq := ar.acq, rel := ar.rel, scope := ar.scope.code }

/-- The words of a well-formed instruction, each from the encoding table of its chapter. An event of the device has
no words. -/
def encode : Instr → List IWord
  | .add d a b => encR 0x01 0x000 d a b | .addw d a b => encR 0x01 0x100 d a b
  | .sub d a b => encR 0x01 0x001 d a b | .subw d a b => encR 0x01 0x101 d a b
  | .and d a b => encR 0x01 0x002 d a b | .or d a b => encR 0x01 0x003 d a b
  | .xor d a b => encR 0x01 0x004 d a b | .andn d a b => encR 0x01 0x005 d a b
  | .orn d a b => encR 0x01 0x006 d a b | .xnor d a b => encR 0x01 0x007 d a b
  | .min d a b => encR 0x01 0x008 d a b | .max d a b => encR 0x01 0x009 d a b
  | .minn d a b => encR 0x01 0x00A d a b | .maxn d a b => encR 0x01 0x00B d a b
  | .slt d a b => encR 0x01 0x00C d a b | .sltn d a b => encR 0x01 0x00D d a b
  | .seq d a b => encR 0x01 0x00E d a b | .sne d a b => encR 0x01 0x00F d a b
  | .sel d a b c => encR4 0x01 0x010 d a b c | .addco d a b => encR 0x01 0x011 d a b
  | .mul d a b => encR 0x02 0x000 d a b | .mulw d a b => encR 0x02 0x100 d a b
  | .mulh d a b => encR 0x02 0x001 d a b | .mulhn d a b => encR 0x02 0x002 d a b
  | .mulhsn d a b => encR 0x02 0x003 d a b | .div d a b => encR 0x02 0x004 d a b
  | .divw d a b => encR 0x02 0x104 d a b | .divn d a b => encR 0x02 0x005 d a b
  | .divnw d a b => encR 0x02 0x105 d a b | .rem d a b => encR 0x02 0x006 d a b
  | .remw d a b => encR 0x02 0x106 d a b | .remn d a b => encR 0x02 0x007 d a b
  | .remnw d a b => encR 0x02 0x107 d a b | .madd d a b c => encR4 0x02 0x008 d a b c
  | .sll d a b n => encSh 0x000 d a b n | .sllw d a b n => encSh 0x100 d a b n
  | .srl d a b n => encSh 0x001 d a b n | .srlw d a b n => encSh 0x101 d a b n
  | .sra d a b n => encSh 0x002 d a b n | .sraw d a b n => encSh 0x102 d a b n
  | .rol d a b n => encSh 0x003 d a b n | .ror d a b n => encSh 0x004 d a b n
  | .clz d a => encR 0x03 0x005 d a 0 | .ctz d a => encR 0x03 0x006 d a 0 | .popc d a => encR 0x03 0x007 d a 0
  | .brev d a => encR 0x03 0x008 d a 0 | .bswap d a => encR 0x03 0x009 d a 0
  | .bfx d a b c o n => encBf 0x00A d a b c o n | .bfxn d a b c o n => encBf 0x00B d a b c o n
  | .bfi d a b c o n => encBf 0x00C d a b c o n
  | .addi d a n => encI 0x04 d a n | .andi d a n => encI 0x05 d a n | .ori d a n => encI 0x06 d a n
  | .xori d a n => encI 0x07 d a n | .li d n => encI 0x08 d 0 n | .pcadd d n => encI 0x09 d 0 n
  | .beq a b o => encJ 0x0A a b o | .bne a b o => encJ 0x0B a b o | .blt a b o => encJ 0x0C a b o
  | .bge a b o => encJ 0x0D a b o | .bltn a b o => encJ 0x0E a b o | .bgen a b o => encJ 0x0F a b o
  | .br o => encL 0x10 o | .call o => encL 0x11 o
  | .jr a => encR 0x12 0x000 0 a 0 | .jalr d a => encR 0x12 0x001 d a 0
  | .loop a o => Enc.words { op := 0x12, fn := 0x002, a, imm := o, short := false }
  | .illop w => [w]
  | .fadd v s t f d a b => encF v s 0x000 t f d a b 0 | .fsub v s t f d a b => encF v s 0x001 t f d a b 0
  | .fmul v s t f d a b => encF v s 0x002 t f d a b 0 | .fdiv v s t f d a b => encF v s 0x003 t f d a b 0
  | .fsqrt v t f d a => encF v false 0x004 t f d a 0 0
  | .fma v s t f d a b c => encF v s 0x005 t f d a b c | .fms v s t f d a b c => encF v s 0x006 t f d a b c
  | .fnma v s t f d a b c => encF v s 0x007 t f d a b c | .fnms v s t f d a b c => encF v s 0x008 t f d a b c
  | .fmin v s t z m d a b => encF v s 0x009 t ⟨.dflt, z, false, m⟩ d a b 0
  | .fmax v s t z m d a b => encF v s 0x00A t ⟨.dflt, z, false, m⟩ d a b 0
  | .fabs v t z m d a => encF v false 0x00B t ⟨.dflt, z, false, m⟩ d a 0 0
  | .fneg v t z m d a => encF v false 0x00C t ⟨.dflt, z, false, m⟩ d a 0 0
  | .fsgnj v s t z m d a b => encF v s 0x00D t ⟨.dflt, z, false, m⟩ d a b 0
  | .vadd s t m d a b => encV s 0x000 t m d a b 0 | .vsub s t m d a b => encV s 0x001 t m d a b 0
  | .vadds s t m d a b => encV s 0x002 t m d a b 0 | .vsubs s t m d a b => encV s 0x003 t m d a b 0
  | .vmul s t m d a b => encV s 0x004 t m d a b 0 | .vmulh s t m d a b => encV s 0x005 t m d a b 0
  | .vmadd s t m d a b c => encV s 0x006 t m d a b c
  | .vmin s t m d a b => encV s 0x007 t m d a b 0 | .vmax s t m d a b => encV s 0x008 t m d a b 0
  | .vabs t m d a => encV false 0x009 t m d a 0 0
  | .vand s t m d a b => encV s 0x00A t m d a b 0 | .vor s t m d a b => encV s 0x00B t m d a b 0
  | .vxor s t m d a b => encV s 0x00C t m d a b 0 | .vandn s t m d a b => encV s 0x00D t m d a b 0
  | .vsll s t m d a b => encV s 0x00E t m d a b 0 | .vsrl s t m d a b => encV s 0x00F t m d a b 0
  | .vsra s t m d a b => encV s 0x010 t m d a b 0
  | .fcmp v k t z m d a b => Enc.words
      { op := 0x17, fn := if v then 0x000 else 0x001, d, a, b, ty := t.code, fzi := z, mask := m, var := k.code,
        short := false }
  | .icmp k t m d a b => Enc.words
      { op := 0x17, fn := 0x002, d := d.setWidth 5, a, b, ty := t.code, mask := m, var := k.code, short := false }
  | .mand d a b => encM 0x010 d a b | .mor d a b => encM 0x011 d a b | .mxor d a b => encM 0x012 d a b
  | .mandn d a b => encM 0x013 d a b | .mnot d a => encM 0x014 d a 0
  | .mset d a => Enc.words { op := 0x17, fn := 0x015, d := d.setWidth 5, a }
  | .mget d a => encXM 0x17 0x016 d a | .mpopc d a => encXM 0x17 0x017 d a | .mfirst d a => encXM 0x17 0x018 d a
  | .vbcast t m d a => Enc.words { op := 0x18, fn := 0x000, d, a, ty := t.code, mask := m }
  | .vext t d a b => Enc.words { op := 0x18, fn := 0x001, d, a, b, ty := t.code }
  | .vins t d a b => Enc.words { op := 0x18, fn := 0x002, d, a, b, ty := t.code }
  | .vperm t m d a b c => Enc.words { op := 0x18, fn := 0x003, d, a, b, c, ty := t.code, mask := m, short := false }
  | .vmov t m d a => Enc.words { op := 0x18, fn := 0x004, d, a, ty := t.code, mask := m }
  | .vradd t f d a => Enc.words
      { op := 0x18, fn := 0x010, d, a, ty := t.code, rm := f.rm.code, fzi := f.fzi, fzo := f.fzo, mask := f.mask }
  | .vrmin t z m d a => Enc.words { op := 0x18, fn := 0x011, d, a, ty := t.code, fzi := z, mask := m }
  | .vrmax t z m d a => Enc.words { op := 0x18, fn := 0x012, d, a, ty := t.code, fzi := z, mask := m }
  | .fexp v t f d a => encSp v 0x00 t f d a | .fexp2 v t f d a => encSp v 0x01 t f d a
  | .flog v t f d a => encSp v 0x02 t f d a | .flog2 v t f d a => encSp v 0x03 t f d a
  | .frcp v t f d a => encSp v 0x04 t f d a | .frsq v t f d a => encSp v 0x05 t f d a
  | .fsin v t f d a => encSp v 0x06 t f d a | .fcos v t f d a => encSp v 0x07 t f d a
  | .ftanh v t f d a => encSp v 0x08 t f d a | .fsigm v t f d a => encSp v 0x09 t f d a
  | .ferf v t f d a => encSp v 0x0A t f d a
  | .cvt v s t p f d a => Enc.words
      { op := 0x1A, fn := if v then 0x100 else 0x000, d, a, e := s.code, ty := t.code, rm := f.rm.code, fzi := f.fzi,
        fzo := f.fzo, mask := f.mask, var := p, short := false }
  | .cvts v s t p m d a => Enc.words
      { op := 0x1A, fn := if v then 0x101 else 0x001, d, a, e := s.code, ty := t.code, mask := m, var := p,
        short := false }
  | .cvtb s t p mode rm z d a c => Enc.words
      { op := 0x1A, fn := 0x102, d, a, c, e := s.code, ty := t.code, rm := rm.code, fzi := z, var := p,
        imm := mode.setWidth 32, short := false }
  | .cvfb s t p rm z d a c => Enc.words
      { op := 0x1A, fn := 0x103, d, a, c, e := s.code, ty := t.code, rm := rm.code, fzo := z, var := p,
        short := false }
  | .ldl w d m => encMem 0x1C 0x00 w.code d m | .ldlz w d m => encMem 0x1C 0x01 w.code d m
  | .vldl t k d m => encMem 0x1C 0x02 0 d m t.code k | .stl w d m => encMem 0x1C 0x03 w.code d m
  | .vstl t k d m => encMem 0x1C 0x04 0 d m t.code k
  | .ldsb d m => encMem 0x1C 0x05 0 d m | .stsb d m => encMem 0x1C 0x06 0 d m
  | .spill d => encR 0x1C 0x070 d 0 0 | .spillv d => encR 0x1C 0x080 d 0 0
  | .fill d => encR 0x1C 0x090 d 0 0 | .fillv d => encR 0x1C 0x0A0 d 0 0
  | .qpop d a => encXM 0x1D 0x000 d a | .qcnt d a => encXM 0x1D 0x020 d a | .qpeek d a => encXM 0x1D 0x030 d a
  | .qpush a b => Enc.words { op := 0x1D, fn := 0x010, a := a.setWidth 5, b }
  | .ld w q d m => encAcq 0x00 w.code q d m | .ldz w q d m => encAcq 0x01 w.code q d m
  | .vld t q k d m => encAcq 0x02 0 q d m t.code k
  | .ldv d c m => Enc.words { op := 0x1E, fn := memFn 0x03 m.sh 0, d, a := m.a, b := m.b, c, imm := m.imm, short := false }
  | .pref l m => Enc.words
      { op := 0x1E, fn := memFn 0x04 m.sh 0, a := m.a, b := m.b, imm := m.imm, var := if l then 1 else 0 }
  | .st w q d m => encRel 0x00 w.code q d m | .vst t q k d m => encRel 0x01 0 q d m t.code k
  | .amoadd t r n ar d a b i => encAmo 0x00 t r ar d a b 0 i (if n then 1 else 0)
  | .amoand t r ar d a b i => encAmo 0x01 t r ar d a b 0 i | .amoor t r ar d a b i => encAmo 0x02 t r ar d a b 0 i
  | .amoxor t r ar d a b i => encAmo 0x03 t r ar d a b 0 i | .amomin t r ar d a b i => encAmo 0x04 t r ar d a b 0 i
  | .amomax t r ar d a b i => encAmo 0x05 t r ar d a b 0 i | .amoswp t r ar d a b i => encAmo 0x06 t r ar d a b 0 i
  | .amocas t r ar d a b c i => encAmo 0x07 t r ar d a b c i
  | .cstore4 k d a b c i => Enc.words { op := 0x20, fn := (0x08 : BitVec 5) ++ k, d, a, b, c, imm := i, short := false }
  | .fence ar => Enc.words { op := 0x21, acq := ar.acq, rel := ar.rel, scope := ar.scope.code, short := false }
  | .publ a i => Enc.words { op := 0x21, fn := 0x010, a, imm := i }
  | .copy ar b => encAr 0x22 0x000 0 ar b | .copyGath ar b => encAr 0x22 0x000 1 ar b
  | .copyScat ar b => encAr 0x22 0x000 2 ar b
  | .redc o t rm z y ar b => Enc.words
      { op := 0x22, fn := 0x001, b, var := o, ty := t.code, rm := rm.code, fzi := z, fzo := y, acq := ar.acq,
        rel := ar.rel, scope := ar.scope.code, short := false }
  | .rdb ar d a b c i => Enc.words
      { op := 0x22, fn := 0x002, d, a, b, c, imm := i, acq := ar.acq, rel := ar.rel, scope := ar.scope.code,
        short := false }
  | .cres a => encR 0x22 0x003 0 a 0 | .cdrop a => encR 0x22 0x004 0 a 0
  | .mon d a b i => Enc.words { op := 0x23, d, a, b, imm := i }
  | .monx d => encR 0x23 0x001 d 0 0 | .cvrel a b => encR 0x23 0x002 0 (a.setWidth 5) b
  | .cvstat d a => encR 0x23 0x003 d a 0
  | .mma s t rm z y d a b c => encMm 0x000 s t rm z y d a b c 0
  | .mmaz s t rm z y d a b c => encMm 0x001 s t rm z y d a b c 0
  | .mmag s t rm z y d a b c e => encMm 0x002 s t rm z y d a b c e
  | .bld s t z a c => encMm 0x003 s t .dflt z false 0 a 0 c 0
  | .bfree s c => Enc.words { op := 0x24, fn := 0x004, c, var := s.setWidth 3, short := false }
  | .route b c => Enc.words { op := 0x24, fn := 0x005, b, c, short := false }
  | .mlbe s mean d a c e => Enc.words { op := 0x25, d, a, c, e, ty := 0x10, var := BitVec.ofBool mean ++ s, short := false }
  | .noise v d a b c e n0 cnt => Enc.words
      { op := 0x25, fn := 0x001, d, a, b, c, e, var := v.setWidth 3, imm := (0 : BitVec 15) ++ cnt ++ n0,
        short := false }
  | .endt => encR 0x2C 0x000 0 0 0 | .dgrd d => encR 0x2C 0x001 d 0 0 | .dgmix a => encR 0x2C 0x002 0 a 0
  | .slstat d => encR 0x2C 0x003 d 0 0
  | .send r a b => encSnd 0x26 0x000 r a b 0 true | .sendd r a b c => encSnd 0x26 0x001 r a b c false
  | .sendv r a b => encSnd 0x26 0x002 r a b 0 true | .reply r a b => encSnd 0x26 0x003 r a b 0 true
  | .maskc a => encR 0x26 0x004 0 a 0 | .unmaskc a => encR 0x26 0x005 0 a 0 | .park a => encR 0x26 0x006 0 a 0
  | .unpark a => encR 0x26 0x007 0 a 0 | .unparkDrop a => Enc.words { op := 0x26, fn := 0x007, a, var := 1 }
  | .htset a b => encR 0x26 0x008 0 a b
  | .fork r a b c => encSnd 0x27 0x000 r a b c false | .join d a b c => encR4 0x27 0x001 d a b c
  | .jret a => encR 0x27 0x002 0 a 0 | .barinit a b c => encR4 0x27 0x003 0 a b c
  | .bara a b => encR 0x27 0x004 0 a b | .bard a => encR 0x27 0x005 0 a 0 | .stage a => encR 0x27 0x006 0 a 0
  | .launch a b => encR 0x27 0x007 0 a b
  | .draw d a b => encR 0x28 0x000 d a b | .reseed => encR 0x28 0x001 0 0 0 | .excq d a b => encR 0x28 0x002 d a b
  | .excqp d a b => encR 0x28 0x003 d a b | .wset a => encR 0x28 0x004 0 a 0
  | .incumbMin a b => encR 0x29 0x000 0 a b | .incumbMax a b => Enc.words { op := 0x29, a, b, var := 1 }
  | .rdinc d => encR 0x29 0x001 d 0 0 | .rdincPay d => Enc.words { op := 0x29, fn := 0x001, d, var := 1 }
  | .rdincSt d => Enc.words { op := 0x29, fn := 0x001, d, var := 2 }
  | .killpt => encR 0x29 0x002 0 0 0 | .bound a => encR 0x29 0x003 0 a 0
  | .trap a => encR 0x2A 0x000 0 a 0 | .sysc a b => encR 0x2A 0x001 0 a b
  | .rds d n => Enc.words { op := 0x2A, fn := 0x002, d, imm := n.setWidth 32, short := false }
  | .wrs a n => Enc.words { op := 0x2A, fn := 0x003, a, imm := n.setWidth 32, short := false }
  | .tlbinv a => encR 0x2A 0x004 0 a 0 | .tlbinvCtx => Enc.words { op := 0x2A, fn := 0x004, var := 1 }
  | .haltSusp a b => encR 0x2A 0x005 0 a b | .haltHalt a b => Enc.words { op := 0x2A, fn := 0x005, a, b, var := 1 }
  | .haltRes a b => Enc.words { op := 0x2A, fn := 0x005, a, b, var := 2 }
  | .fltpop d => encR 0x2A 0x006 d 0 0
  | .jig a m s wb ws ast => Enc.words { op := 0x2B, a, imm := (0 : BitVec 4) ++ ast ++ ws ++ wb ++ s ++ m, short := false }
  | .unclamp => encR 0x2B 0x001 0 0 0 | .clw d => encR 0x2B 0x002 d 0 0
  | _ => []

end Sys2Proof
end

