-- ==== Sys2Proof/Machine/Codec.lean ====
section
/-! DEFINITION. What a polder image holds beside the bytes that the spec lays out (spec 21 R415, R416, R423, R425): a stream of words from
which a package that did not save the image takes up its instances, cores, commands and messages as they were. Its place and its form are
DESIGN CHOICE: log 15. -/

namespace Sys2Proof.Machine

/-! ## Words out of and into a stream -/

/-- A reader of a stream of words; what is missing reads as 0. -/
abbrev Rd (α : Type) := StateM (List Nat) α

/-- The next word. -/
def rd : Rd Nat := do
  let ws ← get
  set ws.tail
  return ws.headD 0

def rdBits (w : Nat) : Rd (BitVec w) := do return BitVec.ofNat w (← rd)
def rdBool : Rd Bool := do return (← rd) == 1

/-- `n` items. -/
def rdMany {α : Type} (f : Rd α) : Nat → Rd (List α)
  | 0 => return []
  | n + 1 => do
    let x ← f
    return x :: (← rdMany f n)

/-- A list: its length, then its items, each of one word or more. -/
def rdList {α : Type} (f : Rd α) : Rd (List α) := do
  let n ← rd
  rdMany f (min n (← get).length)

def rdOpt {α : Type} (f : Rd α) : Rd (Option α) := do
  if (← rd) == 1 then return some (← f) else return none

/-- A value of `w` bits, 64 to a word. -/
def rdWide (w : Nat) : Rd (BitVec w) := do
  let ws ← rdMany rd ((w + 63) / 64)
  return BitVec.ofNat w (ws.foldr (fun x n => x + 2 ^ 64 * n) 0)

def putBool (b : Bool) : List Nat := [if b then 1 else 0]
def putList {α : Type} (f : α → List Nat) (xs : List α) : List Nat := xs.length :: xs.flatMap f
def putOpt {α : Type} (f : α → List Nat) (x : Option α) : List Nat :=
  match x with
  | some x => 1 :: f x
  | none => [0]
def putWide {w : Nat} (b : BitVec w) : List Nat := (List.range ((w + 63) / 64)).map fun i => b.toNat / 2 ^ (64 * i) % 2 ^ 64
def putWords (ws : List Word) : List Nat := putList (fun w => [w.toNat]) ws

/-- How a stream numbers cores and instances, or how those numbers are read: 0 for what is not of the context. -/
structure Names where
  core : Nat → Nat
  inst : Nat → Nat

/-! ## Messages -/

def putLin (l : Lineage) : List Nat := putBool l.root ++ [l.parent.toNat, l.index.toNat, l.path.toNat]
def rdLin : Rd Lineage := do return { root := ← rdBool, parent := ← rdBits 64, index := ← rdBits 64, path := ← rdBits 64 }

def MKind.code : MKind → Nat
  | .soft => 0
  | .refusal => 1
  | .reply => 2
  | .completion => 3
  | .monitor => 4
  | .culvert => 5
  | .continuation => 6
  | .fault => 7
  | .report => 8
  | .launch => 9
  | .halt => 10
  | .release b => 16 + b

def MKind.ofCode (n : Nat) : MKind :=
  match n with
  | 0 => .soft
  | 1 => .refusal
  | 2 => .reply
  | 3 => .completion
  | 4 => .monitor
  | 5 => .culvert
  | 6 => .continuation
  | 7 => .fault
  | 8 => .report
  | 9 => .launch
  | 10 => .halt
  | n => .release (n - 16)

def putMsg (r : Names) (m : Msg) : List Nat :=
  m.hdr.toNat :: putWords m.pay ++ [m.kind.code, m.stamp, r.inst m.inst, m.sPkg, m.sCore] ++ putLin m.lin ++ [m.jref.toNat, m.arr, m.traps]

def rdMsg (r : Names) : Rd Msg := do return {
  hdr := ← rdBits 64, pay := ← rdList (rdBits 64), kind := MKind.ofCode (← rd), stamp := ← rd, inst := r.inst (← rd), sPkg := ← rd,
  sCore := ← rd, lin := ← rdLin, jref := ← rdBits 64, arr := ← rd, traps := ← rd }

/-- A message in transit. What a release on it waits for stays with the package that makes those writes. -/
def putFlight (r : Names) (now : Nat) (f : Flight) : List Nat :=
  putMsg r f.msg ++ [((f.src.map r.core).getD 0), r.inst f.inst, f.lid] ++ putBool f.place ++
    (match f.st with
     | .delayed due => [1, due - now, 0]
     | .moving => [2, 0, 0]
     | .held => [3, 0, 0]
     | .resend due => [4, due - now, 0]
     | .saved st n => [5, st, n]) ++
    [f.prod.1, if f.prod.1 = 0 then r.core f.prod.2 else f.prod.2] ++ putBool f.reached ++ putBool f.refCtx.isSome

def rdFlight (r : Names) (now : Nat) (own : Nat × Nat) : Rd Flight := do
  let msg ← rdMsg r
  let src ← rd
  let inst := r.inst (← rd)
  let lid ← rd
  let place ← rdBool
  let st ← rd
  let a ← rd
  let b ← rd
  let kind ← rd
  let num ← rd
  let reached ← rdBool
  let mine ← rdBool
  return {
    msg, src := if src = 0 then none else some (r.core src), inst, lid, place,
    st := match st with
      | 1 => .delayed (now + a)
      | 3 => .held
      | 4 => .resend (now + a)
      | 5 => .saved a b
      | _ => .moving
    prod := (kind, if kind = 0 then r.core num else num), reached, refCtx := if mine then some own else none }

/-! ## Commands -/

def putIssuer (w : Issuer) : List Nat := [w.pc.toNat, w.path.toNat, w.arr, w.lid, w.ch, w.q, w.faults]
def rdIssuer : Rd Issuer := do return {
  pc := ← rdBits 56, path := ← rdBits 64, arr := ← rd, lid := ← rd, ch := ← rd, q := ← rd, faults := ← rd }

/-- The OP, FN and modifiers of a command as an engine record holds them (21 R416; their places are log 15). -/
def CKind.word : CKind → Nat
  | .copy v => 0x22 + v.toNat * 2 ^ 16
  | .redc op ty rm fzi fzo _ => 0x22 + 1 * 2 ^ 6 + op.toNat * 2 ^ 16 + ty.code.toNat * 2 ^ 19 + rm.code.toNat * 2 ^ 24 +
      (if fzi then 2 ^ 27 else 0) + (if fzo then 2 ^ 28 else 0)
  | .rdb _ _ _ _ => 0x22 + 2 * 2 ^ 6

/-- The operands of a command that its engine record has no place for. -/
def CKind.rest : CKind → List Nat
  | .copy _ => [0, 0, 0, 0]
  | .redc _ _ _ _ _ n => [n, 0, 0, 0]
  | .rdb ea off len ch => [ea.toNat, off, len, ch.toNat]

/-- The command of an engine record's OP, FN and modifiers, and the operands beside them. -/
def CKind.ofWord (w : Nat) (rest : List Nat) : CKind :=
  match w / 2 ^ 6 % 2 ^ 10 with
  | 0 => .copy (BitVec.ofNat 2 (w / 2 ^ 16))
  | 1 => .redc (BitVec.ofNat 3 (w / 2 ^ 16)) ((Ty.ofCode (BitVec.ofNat 5 (w / 2 ^ 19))).getD .i32)
      ((RM.ofCode (BitVec.ofNat 3 (w / 2 ^ 24))).getD .rn) (w / 2 ^ 27 % 2 == 1) (w / 2 ^ 28 % 2 == 1) (rest.getD 0 0)
  | _ => .rdb (BitVec.ofNat 64 (rest.getD 0 0)) (rest.getD 1 0) (min (rest.getD 2 0) 65536) (BitVec.ofNat 6 (rest.getD 3 0))

def CPhase.code : CPhase → Nat
  | .queued => 0
  | .running => 1
  | .payloadDone => 2
  | .parked cause => 3 + 16 * cause
  | .pushWait => 4
  | .done => 5

def CPhase.ofCode (n : Nat) : CPhase :=
  match n % 16 with
  | 0 => .queued
  | 2 => .payloadDone
  | 3 => .parked (n / 16)
  | 4 => .pushWait
  | 5 => .done
  | _ => .running

/-- A command that stands at its cursor. What it has read, the places in memory that it has touched and what its release waits for belong to
the package that it leaves. -/
def putCmd (r : Names) (c : Cmd) : List Nat :=
  c.kind.word :: c.kind.rest ++ putWide c.desc ++ putBool c.ar.acq ++ putBool c.ar.rel ++
    [c.ar.scope.code.toNat, r.inst c.inst, r.core c.core] ++ putBool c.priv ++ putOpt (fun n => [n]) c.sched ++ [c.ct] ++ putIssuer c.who ++
    [c.phase.code, c.unit, c.last] ++ putOpt (fun n => [n]) c.slot ++ putWords c.feed ++ [c.status] ++ putBool c.root ++ [c.peer, c.tag]

def rdCmd (r : Names) : Rd Cmd := do
  let w ← rd
  let rest ← rdMany rd 4
  return {
    id := 0, kind := CKind.ofWord w rest, desc := ← rdWide 512
    ar := ⟨← rdBool, ← rdBool, (Scope.ofCode (← rdBits 4)).getD .task⟩
    inst := r.inst (← rd), core := r.core (← rd), priv := ← rdBool, sched := ← rdOpt rd, ct := ← rd, who := ← rdIssuer
    phase := CPhase.ofCode (← rd), unit := ← rd, last := ← rd, slot := ← rdOpt rd, feed := ← rdList (rdBits 64), status := ← rd,
    root := ← rdBool, peer := ← rd, tag := ← rd }

/-- The kind of a matrix command as a bench record holds it: the kind, and what a NOISE or MLBE adds. -/
def MxKind.word : MxKind → Nat
  | .mma false => 1
  | .mma true => 2
  | .mmag => 3
  | .bld => 4
  | .bfree => 5
  | .route => 6
  | .mlbe false => 7
  | .mlbe true => 8
  | .noise v n0 cnt => 9 + v.toNat * 2 ^ 4 + n0 * 2 ^ 6 + cnt * 2 ^ 14

/-- The kind that a word holds. -/
def MxKind.ofWord (w : Nat) : MxKind :=
  match w % 16 with
  | 1 => .mma false
  | 2 => .mma true
  | 3 => .mmag
  | 4 => .bld
  | 6 => .route
  | 7 => .mlbe false
  | 8 => .mlbe true
  | 9 => .noise (BitVec.ofNat 2 (w / 2 ^ 4)) (w / 2 ^ 6 % 2 ^ 8) (w / 2 ^ 14 % 2 ^ 9)
  | _ => .bfree

def putMx (r : Names) (c : MxCmd) : List Nat :=
  [c.kind.word, c.bs.toNat, c.ty.code.toNat, c.rm.code.toNat] ++ putBool c.fzi ++ putBool c.fzo ++
    [c.d.toNat, c.d1.toNat, c.a.toNat, c.b.toNat, c.e.toNat, c.comp.toNat] ++ putWide c.desc ++
    [c.fn, r.inst c.inst, r.core c.core, c.ct] ++ putIssuer c.who ++ [c.n]

def rdMx (r : Names) : Rd MxCmd := do return {
  kind := MxKind.ofWord (← rd), bs := ← rdBits 2, ty := (Ty.ofCode (← rdBits 5)).getD .bf16, rm := (RM.ofCode (← rdBits 3)).getD .rn
  fzi := ← rdBool, fzo := ← rdBool, d := ← rdBits 64, d1 := ← rdBits 64, a := ← rdBits 64, b := ← rdBits 64, e := ← rdBits 64
  comp := ← rdBits 64, desc := ← rdWide 512, fn := ← rd, inst := r.inst (← rd), core := r.core (← rd), ct := ← rd, who := ← rdIssuer
  n := ← rd }

def putMon (r : Names) (m : Mon) : List Nat := [m.pa, m.ea.toNat, r.core m.core, m.ch.toNat, m.expect.toNat] ++ putLin m.lin
def rdMon (r : Names) : Rd Mon := do return {
  pa := ← rd, ea := ← rdBits 64, core := r.core (← rd), ch := ← rdBits 6, expect := ← rdBits 64, lin := ← rdLin }

/-! ## Effects that have still to leave (13 R312) -/

def putSender (r : Names) (m : Sender) : List Nat :=
  [r.core m.core, r.inst m.inst, m.ct] ++ putBool m.priv ++ [m.jref.toNat] ++ putIssuer m.task
def rdSender (r : Names) (own : Nat × Nat) : Rd Sender := do return {
  core := r.core (← rd), inst := r.inst (← rd), part := own.1, ctx := own.2, ct := ← rd, priv := ← rdBool, jref := ← rdBits 64
  task := ← rdIssuer }

/-- The effects of `Eff.queues`; no other is put by. -/
def putEff (r : Names) : Eff → List Nat
  | .cres tag q => [1, tag.toNat, q]
  | .cdrop tag q => [2, tag.toNat, q]
  | .mx c => 3 :: putMx r c
  | .qpush f w => [4, f, w.toNat]
  | .jret v q pc => [5, v.toNat, q, pc.toNat]
  | .barinit b ch lo n q => [6, b.toNat, ch.toNat, lo, n, q]
  | .bara b ch q => [7, b.toNat, ch.toNat, q]
  | .bard b q => [8, b.toNat, q]
  | .stage n q pc => [9, n, q, pc.toNat]
  | .launch va ch q => [10, va.toNat, ch.toNat, q]
  | .halt var va ch q => [11, var.toNat, va.toNat, ch.toNat, q]
  | _ => [0]

def rdEff (r : Names) : Rd Eff := do
  match ← rd with
  | 1 => return .cres (← rdBits 64) (← rd)
  | 2 => return .cdrop (← rdBits 64) (← rd)
  | 3 => return .mx (← rdMx r)
  | 4 => return .qpush (← rd) (← rdBits 64)
  | 5 => return .jret (← rdBits 64) (← rd) (← rdBits 56)
  | 6 => return .barinit (← rdBits 6) (← rdBits 6) (← rd) (← rd) (← rd)
  | 7 => return .bara (← rdBits 6) (← rdBits 6) (← rd)
  | 8 => return .bard (← rdBits 6) (← rd)
  | 9 => return .stage (← rd) (← rd) (← rdBits 56)
  | 10 => return .launch (← rdBits 64) (← rdBits 6) (← rd)
  | 11 => return .halt (← rdBits 2) (← rdBits 64) (← rdBits 6) (← rd)
  | _ => return .fence ⟨false, false, .task⟩

/-- An effect that has still to leave. What it waits for stays with the package that makes those writes. -/
def putLeaving (r : Names) (x : Leaving) : List Nat := putSender r x.snd ++ putEff r x.eff
def rdLeaving (r : Names) (own : Nat × Nat) : Rd Leaving := do return { id := 0, snd := ← rdSender r own, eff := ← rdEff r, wait := [] }

/-! ## Cores -/

/-- A channel, with its handler entry as it was launched. -/
def putChan (r : Names) (launched : BitVec 256) (p : Nat × Chan) : List Nat :=
  p.1 :: putWide p.2.ent ++ putWide launched ++ putBool p.2.parked ++ putList (putMsg r) p.2.box ++ [p.2.aborts] ++
    putOpt (fun n => [n]) p.2.lockTick ++ [p.2.headSlot]

def rdChan (r : Names) : Rd (BitVec 256 × Nat × Chan) := do
  let c ← rd
  let ent ← rdWide 256
  let launched ← rdWide 256
  return (launched, c, { ent, parked := ← rdBool, box := ← rdList (rdMsg r), aborts := ← rd, lockTick := ← rdOpt rd, headSlot := ← rd })

def putJoin (j : JoinRec) : List Nat := [j.handle.toNat, j.slots, j.n, j.ch, j.stamp] ++ putList (fun i => [i]) j.full ++ putLin j.lin
def rdJoin : Rd JoinRec := do return {
  handle := ← rdBits 64, slots := ← rd, n := ← rd, ch := ← rd, stamp := ← rd, full := ← rdList rd, lin := ← rdLin }

/-- A culvert's state word (06 Table 6.5). -/
def Culvert.word (c : Culvert) : Word :=
  BitVec.ofNat 64 (c.chan % 64 + (if c.nv then 64 else 0) + c.depth * 2 ^ 7 + c.tail * 2 ^ 12 + c.head * 2 ^ 16 +
    c.free * 2 ^ 20 + c.filled * 2 ^ 25 + c.rsv * 2 ^ 30 + c.held * 2 ^ 35)

/-- A culvert of its state word. -/
def Culvert.ofWord (w : Word) : Culvert where
  chan := fld w 5 0
  nv := w.getLsbD 6
  depth := fld w 11 7
  tail := fld w 15 12
  head := fld w 19 16
  free := fld w 24 20
  filled := fld w 29 25
  rsv := fld w 34 30
  held := fld w 39 35

def putInc (i : Incumb) : List Nat := putBool i.ne ++ putBool i.sense ++ [i.value.toNat, i.payload.toNat]
def rdInc : Rd Incumb := do return { ne := ← rdBool, sense := ← rdBool, value := ← rdBits 64, payload := ← rdBits 64 }

/-- A core beside its core record, and beside the sideband of its scratchpad; `start` is the core as the launch prepared it. -/
def putCore (r : Names) (start : Core) (k : Core) : List Nat :=
  [r.inst k.inst, k.lid, k.spsize] ++ putList putWide k.regions ++
    putList (fun p => putChan r (tget start.chans p.1 p.2).ent p) k.chans ++ putList (fun w => [w]) k.clampWidths ++
    putList (fun p => [p.1, p.2.word.toNat]) k.culverts ++ putList (putMsg r) k.heldq ++ putList putJoin k.joins ++
    putList (fun n => [n]) k.sqd ++ putInc k.inc ++ [k.ovfb.toNat, k.ovfsize] ++ putOpt (fun g => [g]) k.grp ++
    putList (fun c => [c.1, c.2.toNat]) start.spad

/-- The core, and the core as the launch prepared it; both are where `host` places their logical core. -/
def rdCore (r : Names) (host : Nat → Nat × Nat) : Rd (Core × Core) := do
  let inst := r.inst (← rd)
  let lid ← rd
  let spsize ← rd
  let regions ← rdList (rdWide 64)
  let chans ← rdList (rdChan r)
  let clampWidths ← rdList rd
  let culverts ← rdList (do return (← rd, Culvert.ofWord (← rdBits 64)))
  let heldq ← rdList (rdMsg r)
  let joins ← rdList rdJoin
  let sqd ← rdList rd
  let inc ← rdInc
  let ovfb ← rdBits 64
  let ovfsize ← rd
  let grp ← rdOpt rd
  let spad ← rdList (do return (← rd, ← rdBits 8))
  let k : Core := { inst, lid, die := (host lid).1, phys := (host lid).2, regions, spsize, clampWidths, sqd, ovfb, ovfsize, grp }
  return ({ k with resident := false, pending := true, chans := chans.map (·.2), culverts, heldq, joins, inc },
    { k with
      spad := spad.foldl (fun m c => mset m c.1 c.2) []
      chans := chans.map fun c => (c.2.1, { ent := c.1 })
      culverts := culverts.map fun c => (c.1, { depth := c.2.depth, nv := c.2.nv, chan := c.2.chan, free := c.2.depth }) })

/-- The sideband of a core's scratchpad, and what stood under its newest commits (07 R199, R206). -/
def putLines (k : Core) : List Nat :=
  putList (fun p => [p.1, p.2.sb.toNat + (if p.2.sbv then 2 ^ 32 else 0)]) k.sbs ++
    putList (fun p => [p.1, leNat p.2]) k.cwords

def rdLines (k : Core) : Rd Core := do return { k with
  sbs := ← rdList (do
    let o ← rd
    let w ← rdBits 64
    return (o, { sb := w.setWidth 32, sbv := w.getLsbD 32 }))
  cwords := ← rdList (do return (← rd, natBytes 8 (← rd))) }

/-! ## Instances -/

def putBar (r : Names) (b : Nat × Barrier) : List Nat :=
  [b.1, b.2.lo, b.2.n, b.2.e, b.2.phase] ++ putList (fun a => [r.core a.1, a.2.1] ++ putLin a.2.2) b.2.arrs ++ [b.2.drops, b.2.stamp]
def rdBar (r : Names) : Rd (Nat × Barrier) := do return (← rd, {
  lo := ← rd, n := ← rd, e := ← rd, phase := ← rd, arrs := ← rdList (do return (r.core (← rd), ← rd, ← rdLin)), drops := ← rd, stamp := ← rd })

def putDigest (d : Digest) : List Nat := [d.path.toNat, d.parent.toNat] ++ putBool d.root ++ [d.index.toNat, d.td.toNat]
def rdDigest : Rd Digest := do return { path := ← rdBits 64, parent := ← rdBits 64, root := ← rdBool, index := ← rdBits 64, td := ← rdBits 64 }

def putSched (e : SchedEnt) : List Nat := putWide e.desc ++ [e.ctl.toNat] ++ putBool e.released
def rdSched : Rd SchedEnt := do return { desc := ← rdWide 512, ctl := ← rdBits 64, released := ← rdBool }

/-- The entries of the shadow of a checked launch (13 R319). -/
def Inst.shadowed (n : Inst) : Nat := n.shback + n.shadow.length

/-- An instance beside its cores. The entries of its shadow stay at SHBASE. -/
def putInstWords (r : Names) (n : Inst) : List Nat :=
  [n.nvc, n.prog.toNat] ++ putBool n.det ++ [n.pkey.toNat, n.stage, n.ninit] ++ putList putSched n.sched ++ putList (putBar r) n.bars ++
    putInc n.inc ++ [n.digrec.toNat] ++ putList putDigest n.digests ++ putBool n.dmode ++
    [n.expect.toNat, n.shbase.toNat, n.shsize, n.shadowed] ++ putBool n.shfull ++ putList (fun p => [p.1, p.2]) n.shpoison ++
    putList (putMsg r) n.inits ++ putOpt (fun w => [w.toNat]) n.rerun ++
    putOpt (fun g => [g.1, g.2.1, g.2.2.1, g.2.2.2.1, g.2.2.2.2]) n.group

def rdInst (r : Names) (id part ctx : Nat) : Rd Inst := do return {
  id, part, ctx, nvc := min 4096 (← rd), prog := ← rdBits 2, det := ← rdBool, pkey := ← rdBits 64, stage := ← rd, ninit := ← rd
  sched := ← rdList rdSched, bars := ← rdList (rdBar r), inc := ← rdInc, digrec := ← rdBits 64, digests := ← rdList rdDigest
  dmode := ← rdBool, expect := ← rdBits 64, shbase := ← rdBits 64, shsize := ← rd, shback := ← rd, shfull := ← rdBool
  shpoison := ← rdList (do return (← rd, ← rd)), inits := ← rdList (rdMsg r), rerun := ← rdOpt (rdBits 64)
  group := ← rdOpt (do return (← rd, ← rd, ← rd, ← rd, ← rd)), origin := .host (2 ^ 32) 0 }

/-! ## The stream of a context -/

/-- What a stream holds of a context: its instances, its cores now and as they were launched, engine commands, unstarted matrix commands,
monitors, feeds, culvert pushes that wait, effects that have still to leave, and the messages of its hold areas and of its saved send queues. -/
structure Packed where
  insts : List Inst := []
  cores : List (Core × Core) := []
  cmds : List Cmd := []
  mx : List MxCmd := []
  mons : List Mon := []
  feeds : List ((Nat × Nat) × List Word) := []
  pushes : List ((Nat × Nat × Nat) × (Word × Nat × Nat × Lineage)) := []
  leaving : List Leaving := []
  holds : List (Nat × Flight) := []
  queues : List Flight := []

def Packed.words (r : Names) (now : Nat) (p : Packed) : List Nat :=
  putList (putInstWords r) p.insts ++ putList (fun k => putCore r k.2 k.1) p.cores ++ putList (putCmd r) p.cmds ++ putList (putMx r) p.mx ++
    putList (putMon r) p.mons ++ putList (fun f => [r.core f.1.1, f.1.2] ++ putWords f.2) p.feeds ++
    putList (fun q => [r.core q.1.1, q.1.2.1, q.1.2.2, q.2.1.toNat, q.2.2.1, q.2.2.2.1] ++ putLin q.2.2.2.2) p.pushes ++
    putList (putLeaving r) p.leaving ++ putList (fun h => h.1 :: putFlight r now h.2) p.holds ++ putList (putFlight r now) p.queues

/-- A context of a stream: `first` is the identifier of its first instance. -/
def rdPacked (r : Names) (now first part ctx : Nat) (host : Nat → Nat × Nat) : Rd Packed := do
  let insts ← rdList (rdInst r 0 part ctx)
  return {
    insts := insts.zipIdx.map fun i => { i.1 with id := first + i.2 }
    cores := ← rdList (rdCore r host), cmds := ← rdList (rdCmd r), mx := ← rdList (rdMx r), mons := ← rdList (rdMon r)
    feeds := ← rdList (do return ((r.core (← rd), ← rd), ← rdList (rdBits 64)))
    pushes := ← rdList (do return ((r.core (← rd), ← rd, ← rd), (← rdBits 64, ← rd, ← rd, ← rdLin)))
    leaving := ← rdList (rdLeaving r (part, ctx))
    holds := ← rdList (do return (← rd, ← rdFlight r now (part, ctx))), queues := ← rdList (rdFlight r now (part, ctx)) }

end Sys2Proof.Machine
end

