-- ==== Sys2Proof/Machine/Image.lean ====
section
/-! DEFINITION. The core record of a polder image (spec 07 R207, 21 R413, R415, Tables 21.3, 21.5 and 21.6): a
logical core's scratchpad, save tail and mailbox metadata as bytes of memory, both ways. -/

namespace Sys2Proof.Machine

/-! ## Lines of a scratchpad (07 R199) -/

/-- Sideband and poison of a scratchpad line. -/
def Core.sbLine (k : Core) (off : Nat) : SbLine := tget k.sbs (lineOf off) {}
def Core.setSb (k : Core) (off : Nat) (x : SbLine) : Core := { k with sbs := tput k.sbs (lineOf off) x }
/-- An address as 06 R173 compares it: a final address, or an offset in a core's scratchpad. -/
def spadKey (core off : Nat) : Nat := 2 ^ 60 * (core + 1) + off

/-! ## Regions of the scratchpad (07 Table 7.1) -/

def regKind (r : BitVec 64) : Nat := fld r 10 8
def regBase (r : BitVec 64) : Nat := 64 * fld r 28 16
def regLen (r : BitVec 64) : Nat := 64 * fld r 44 32
def regLr (r : BitVec 64) : Bool := r.getLsbD 0
def regLw (r : BitVec 64) : Bool := r.getLsbD 1
def regEr (r : BitVec 64) : Bool := r.getLsbD 2
def regEw (r : BitVec 64) : Bool := r.getLsbD 3

/-- The entry of a kind. -/
def Core.regionOf (k : Core) (kind : Nat) : Option (BitVec 64) := k.regions.find? fun r => regKind r == kind
/-- The used entry that holds an offset. -/
def Core.regionAt (k : Core) (off : Nat) : Option (BitVec 64) :=
  k.regions.find? fun r => regKind r != 0 && decide (regBase r ≤ off) && decide (off < regBase r + regLen r)
/-- The QUEUE region's start. -/
def Core.queueBase (k : Core) : Nat := match k.regionOf 3 with | some r => regBase r | none => 0

/-- The mailbox slots below channel `c` (07 R207). -/
def Core.slotsBelow (k : Core) (c : Nat) : Nat :=
  ((k.chans.filter fun p => decide (p.1 < c) && entV p.2.ent).map fun p => entMbd p.2.ent).sum

/-- The scratchpad offset of slot `s` of channel `c`'s ring (07 R207). -/
def Core.slotOff (k : Core) (c s : Nat) : Nat := k.queueBase + 2048 + 64 * (k.slotsBelow c + s)
/-- The scratchpad offset of slot `s` of culvert `n`'s ring (07 R207). -/
def Core.ringOff (k : Core) (n s : Nat) : Nat := k.queueBase + 128 * n + 8 * s

/-- The scratchpad offset of the slot of the `i`-th message of channel `c`'s mailbox. -/
def Core.msgOff (k : Core) (c i : Nat) : Nat :=
  let x := k.chan c
  k.slotOff c (if entMbd x.ent = 0 then 0 else (x.headSlot + i) % entMbd x.ent)

/-- A whole line of the scratchpad is written, which clears its poison mark (02 R76). -/
def Core.cleanLine (k : Core) (off : Nat) : Core :=
  if (k.sbLine off).poison then k.setSb off { k.sbLine off with poison := false } else k

/-- The 64 bytes of a message (14 R323). -/
def Msg.bytes (m : Msg) : List Byte :=
  ((m.hdr :: m.pay) ++ List.replicate (7 - m.pay.length) 0).flatMap wordBytes64

/-- The metadata of a mailbox slot (21 Table 21.5). -/
def Msg.meta (m : Msg) : List Byte :=
  natBytes 2 m.sPkg ++ natBytes 2 m.sCore ++ natBytes 4 m.arr ++ natBytes 8 m.stamp ++ wordBytes64 m.lin.path ++
    wordBytes64 m.jref ++ wordBytes64 m.lin.parent ++ wordBytes64 m.lin.index ++ List.replicate 16 0

/-- The message of a ring slot and its metadata. What neither carries is that of `m0`. -/
def Msg.ofBytes (b md : List Byte) (m0 : Msg) : Msg :=
  let w := bytesWords 8 b
  let h := w.headD 0
  let n (i k : Nat) := leNat ((md.drop i).take k)
  { m0 with
    hdr := h, pay := (w.drop 1).take (hdrCnt h), sPkg := n 0 2, sCore := n 2 2, arr := n 4 4, stamp := n 8 8,
    jref := BitVec.ofNat 64 (n 24 8),
    lin := { m0.lin with path := BitVec.ofNat 64 (n 16 8), parent := BitVec.ofNat 64 (n 32 8), index := BitVec.ofNat 64 (n 40 8) } }

/-- A join record's 64 bytes (21 Table 21.3; the order of its fields is log 15). -/
def JoinRec.bytes (j : JoinRec) : List Byte :=
  wordBytes64 j.handle ++ natBytes 4 j.slots ++ natBytes 2 j.n ++ natBytes 2 j.ch ++ natBytes 8 j.stamp ++
    natBytes 32 ((j.full.map fun i => 2 ^ i).sum) ++ List.replicate 8 0

/-- A channel's 16 bytes of the save tail (21 Table 21.3). Its four bits of the abort count hold 15 for any larger count, which is
above the eight of 04 R122 too. -/
def Chan.tail (x : Chan) : List Byte :=
  natBytes 4 ((if x.parked then 1 else 0) + min x.aborts 15 * 2 + x.headSlot % 64 * 32 + x.box.length % 128 * 2 ^ 11) ++
    natBytes 2 (entPrio x.ent) ++ natBytes 2 (entBudget x.ent) ++ natBytes 2 (entGen x.ent) ++ List.replicate 6 0

/-- The bytes of the save tail (21 Table 21.3), but for the send queues, which follow. -/
def Core.tailBytes (k : Core) (sq : List (Msg × Nat × Nat)) : List Byte :=
  let parked := (k.chans.filter fun p => p.2.parked).length
  let head := natBytes 8 k.pts ++ natBytes 4 k.selcnt.toNat ++ natBytes 4 k.placecnt.toNat ++ natBytes 4 k.stealcnt.toNat ++
    natBytes 4 k.jseq.toNat ++ natBytes 4 k.arrNext ++ natBytes 4 (k.clmask.toNat + parked * 256) ++
    wordBytes64 k.member ++ wordBytes64 k.arrived ++ natBytes 8 k.sticky.toNat ++ natBytes 4 (16 - k.creds) ++
    natBytes 4 (8 - k.mxcreds)
  let chans := (List.range 64).flatMap fun c => (k.chan c).tail
  let culv := (List.range 16).flatMap fun n => wordBytes64 (k.culvert n).word
  let joins := (List.range 16).flatMap fun i => match k.joins[i]? with | some j => j.bytes | none => List.replicate 64 0
  let sqs := (List.range 48).flatMap fun i => match sq[i]? with
    | some (m, st, d) => m.bytes ++ natBytes 8 st ++ natBytes 8 d
    | none => List.replicate 80 0
  head ++ List.replicate 192 0 ++ chans ++ culv ++ joins ++ sqs ++ List.replicate 1920 0

/-- The messages of a core that wait in a row's hold queue; they keep their send-queue entries. -/
def sentHeld (s : State) (c : Nat) : List Flight := (s.ctxs.flatMap fun x => x.holds.map (·.2)).filter fun f => f.src == some c

/-- The send-queue entries of a core, those that wait in a hold queue first: message, state (1 in flight, 2 held, 3 delayed) and
remaining delay. -/
def sendQueue (s : State) (c : Nat) : List (Msg × Nat × Nat) :=
  (sentHeld s c ++ s.net.filter fun f => f.src == some c).map fun f => match f.st with
    | .delayed due => (f.msg, 3, due - s.now)
    | .saved st n => (f.msg, st, n)
    | .held => (f.msg, 2, 0)
    | _ => (f.msg, 1, 0)

/-- 21 R415: CSTRIDE. -/
def cstride (k : Core) : Nat := k.spsize + 0x40000
/-- 21 R415: CBASE for `nb` benches. -/
def cbase (nb : Nat) : Nat := (0x1100000 + nb * 0x88000 + 0xFFFFF) / 0x100000 * 0x100000

/-- The cores of a context, instance by instance and in logical order: its virtual cores (21 Table 21.5). -/
def ctxCores (s : State) (part ctx : Nat) : List (Nat × Core) :=
  (s.insts.filter fun n => n.part == part && n.ctx == ctx).flatMap fun n =>
    (List.range n.nvc).filterMap fun l => s.cores.find? fun p => p.2.inst == n.id && p.2.lid == l

/-- The rows that hold the context's cores. -/
def ctxRows (s : State) (part ctx : Nat) : List Nat := distinct ((ctxCores s part ctx).map fun p => p.2.row)

/-- Whether a slot holds a B that a context owns (11 R294). -/
def BSlot.ownedBy (b : BSlot) (part ctx : Nat) : Bool := b.st == .ready && b.part == part && b.ctx == ctx

/-- The benches of the context's placement, in dense order: those with a core or a slot of it (21 R415, 23 R438; 11 R294).
DEDUCED: log 73. -/
def ctxBenches (s : State) (part ctx : Nat) : List Nat :=
  let bs := ((ctxCores s part ctx).map fun p => p.2.bench) ++ (s.slots.filter fun p => p.2.ownedBy part ctx).map fun p => p.1.1
  (List.range 288).filter bs.contains

/-- The cores of a context in record order, and the number of its benches: as its image has them, or as they stand. -/
def imgOrder (s : State) (x : Ctx) : List Nat :=
  match x.img with
  | some g => g.order
  | none => (ctxCores s x.part x.ctx).map (·.1)
def imgBenches (s : State) (x : Ctx) : Nat :=
  match x.img with
  | some g => g.nb
  | none => (ctxBenches s x.part x.ctx).length

/-- The number of benches that hold a core of a context: where its cores rest in records while it runs, only those benches have records
before them (21 R421), so that a record stays where it is while slots come and go. DESIGN CHOICE: log 15. -/
def coreBenches (s : State) (x : Ctx) : Nat := (distinct ((ctxCores s x.part x.ctx).map fun p => p.2.bench)).length

/-- The final address of a context's image (21 Table 21.4). -/
def imgBase (s : State) (x : Ctx) : Nat :=
  if x.gpa then
    match tget? (s.part x.part).pmap x.mapi with
    | some e => x.pbase - e.gbase + e.hbase
    | none => x.pbase
  else x.pbase

/-- The size of a context's image (21 R415): as its cores stand, or, of one that this package has not saved, as its header has NB, NVC and
SPSIZE. -/
def imgSize (s : State) (x : Ctx) : Nat :=
  let n (o : Nat) := leNat (mread s.mem (imgBase s x + o) 4)
  if x.div == .diverted && x.img.isNone then cbase (n 0x18) + n 0x10 * (n 0x14 + 0x40000)
  else cbase (imgBenches s x) + ((ctxCores s x.part x.ctx).map fun p => cstride p.2).sum

/-- Why memory at an address is not the package's to reach; none where it is (02 R48, R49). -/
def reachCause (s : State) (pa : Nat) : Option Cause :=
  match region s.plat pa with
  | .near | .far | .deep | .host => none
  | .peer => some .peerAcc
  | .bad | .config => some .addrRsv

/-- The same of `n` bytes. What is populated is a prefix of each 4 GiB (02 R48; 24 R446), so their ends and the whole are tested. -/
def rangeCause (s : State) (a n : Nat) : Option Cause :=
  let cuts := (List.range (n / 2 ^ 32 + 1)).flatMap fun i =>
    let m := (a / 2 ^ 32 + 1 + i) * 2 ^ 32
    if m < a + n then [m - 1, m] else []
  (a :: (a + n - 1) :: cuts).findSome? (reachCause s)

/-- Why an image of `n` bytes at `base` cannot be accessed: its map entry is not valid or does not cover it (02 R59), or it does not lie
in memory of the package (02 R48, R49). -/
def imgCause (s : State) (part : Nat) (gpa : Bool) (mapi pbase n : Nat) : Option Cause :=
  if gpa then
    match tget? (s.part part).pmap mapi with
    | none => some .pmapMiss
    | some e =>
      if e.v && decide (e.gbase ≤ pbase) && decide (pbase + n ≤ e.gbase + e.limit) then rangeCause s (pbase - e.gbase + e.hbase) n
      else some .pmapMiss
  else rangeCause s pbase n

/-- Whether a context's image can be accessed where its entry names it. -/
def imgOk (s : State) (x : Ctx) : Bool := (imgCause s x.part x.gpa x.mapi x.pbase (imgSize s x)).isNone

/-- The lines of a range that some bytes of it, or what memory lists there, touch. -/
def touchedLines (s : State) (a n : Nat) (cells : List Host.Cell) : List Nat :=
  distinct (cells.map (fun c => lineOf (a + c.1)) ++
    ((s.mem.filter fun c => decide (a ≤ c.1) && decide (c.1 < a + n)).map fun c => lineOf c.1))

/-- Whether a line of a range answers with retry (04 R129). -/
def rangeHeld (s : State) (a n : Nat) : Bool :=
  s.lines.any fun p => decide (lineOf a ≤ p.1) && decide (p.1 < a + n) && p.2.hold != .free
/-- Whether a line of a range is poisoned (02 R76). -/
def rangePoisoned (s : State) (a n : Nat) : Bool :=
  s.lines.any fun p => decide (lineOf a ≤ p.1) && decide (p.1 < a + n) && p.2.poison

/-- Bulk bytes of a device engine, timed as writes later than everything (21 R417, 04 R142): a range takes the given bytes, zero
elsewhere. A running task keeps the code that stood there (01 R37). -/
def State.bulk (s : State) (a n : Nat) (cells : List Host.Cell) : State :=
  let t := s.pkgTime + 1
  let touched := touchedLines s a n cells
  let s := touched.foldl State.keepCode s
  let mem := cells.foldl (fun m c => mset m (a + c.1) c.2) (mclear s.mem a n)
  let lines := s.lines.map fun p =>
    if decide (lineOf a ≤ p.1) && decide (p.1 < a + n) then
      (p.1, { p.2 with wts := t, rts := t, poison := p.2.poison && !(decide (a ≤ p.1) && decide (p.1 + 64 ≤ a + n)) })
    else p
  { s with mem, lines := touched.foldl (fun ls l => tput ls l { tget ls l {} with wts := t, rts := t }) lines }

/-- The lines of the dirty bitmap that writes of a context's image set (02 R68). -/
def imgDirtyKeys (s : State) (x : Ctx) : List Nat :=
  if x.gpa then
    distinct (((List.range ((imgSize s x + 65535) / 65536)).flatMap fun i => dirtyBit s x.part x.mapi (imgBase s x + 65536 * i)).flatMap
      fun w => s.keys w.1 8)
  else []

/-- Whether the device's engines wait for a context's image: a line of it, or of the dirty bitmap of its units, is held (04 R124, R129),
or it cannot be accessed. DESIGN CHOICE: log 95. -/
def imgWaits (s : State) (x : Ctx) : Bool :=
  !imgOk s x || rangeHeld s (imgBase s x) (imgSize s x) || s.blocked (imgDirtyKeys s x) none

/-- Some lines take a poison mark, which travels with the data that is put there (02 R76). -/
def State.poisonLines (s : State) (ls : List Nat) : State := ls.foldl (fun s l => s.setLine l { s.line l with poison := true }) s

/-- A lost message counts in a context's LOSTC (14 R326). -/
def State.lose (s : State) (pc : Nat × Nat) : State :=
  s.onCtx pc.1 pc.2 fun x => { x with lostc := x.lostc + 1 }

/-- Bytes of a polder image land in memory on the context's behalf: where its map entry tracks writes, the bits of the units are
set at the same time (02 R68). -/
def State.bulkImg (s : State) (x : Ctx) (a n : Nat) (cells : List Host.Cell) : State :=
  let units := (List.range ((a + n + 65535) / 65536 - a / 65536)).map fun i => (a / 65536 + i) * 65536
  let t := s.pkgTime + 1
  let s := s.bulk a n cells
  if x.gpa then s.orBits (distinct (units.flatMap fun u => dirtyBit s x.part x.mapi u)) t else s

/-- The cells of bytes from an offset. -/
def cellsAt (off : Nat) (bs : List Byte) : List Host.Cell := (bs.zipIdx off).map fun p => (p.2, p.1)

/-! ## Instance and bench records (21 Table 21.5). The places of their fields are DESIGN CHOICE: log 15. -/

/-- A shadow barrier record. -/
def Barrier.bytes (b : Barrier) : List Byte :=
  natBytes 8 b.lo ++ natBytes 8 b.n ++ natBytes 8 b.e ++ natBytes 8 b.phase ++ natBytes 8 b.arrs.length ++ natBytes 8 b.drops ++
    natBytes 8 b.stamp ++ List.replicate 8 0

/-- The state of an incumbent unit. -/
def Incumb.bytes (i : Incumb) : List Byte :=
  natBytes 8 ((if i.ne then 1 else 0) + (if i.sense then 2 else 0)) ++ wordBytes64 i.value ++ wordBytes64 i.payload

/-- An armed monitor of an instance record, `lid` its logical core: 64 bytes (21 R423). -/
def Mon.bytes (m : Mon) (lid : Nat) : List Byte :=
  natBytes 8 m.pa ++ wordBytes64 m.ea ++ wordBytes64 m.expect ++ natBytes 2 lid ++ natBytes 6 m.ch.toNat ++ wordBytes64 m.lin.path ++
    wordBytes64 m.lin.parent ++ wordBytes64 m.lin.index ++ natBytes 8 (if m.lin.root then 1 else 0)

/-- A schedule entry of an instance record that is not released: 80 bytes, its index last (21 R423). -/
def SchedEnt.bytes (e : SchedEnt) (i : Nat) : List Byte := vecBytes e.desc ++ wordBytes64 e.ctl ++ natBytes 8 i

/-- An instance record: id, stage counter, the entries that were released, the incumbent unit, the monitors that a halt disarmed and the
entries that are not released, as far as they fit, and the shadow barrier records (21 Table 21.5, R423). -/
def Inst.record (n : Inst) (mons : List (Mon × Nat)) : List Host.Cell :=
  let left := n.sched.zipIdx.filter fun p => !p.1.released
  cellsAt 0 (natBytes 8 n.id ++ natBytes 8 n.stage ++ natBytes 8 (n.sched.filter fun e => e.released).length ++ n.inc.bytes ++
    natBytes 4 left.length ++ natBytes 4 mons.length) ++
    (cellsAt 256 ((mons.flatMap fun m => m.1.bytes m.2) ++ left.flatMap fun p => p.1.bytes p.2)).take 3840 ++
    n.bars.flatMap fun b => cellsAt (4096 + 64 * b.1) b.2.bytes

/-- The instances of a context in the order of their records. -/
def ctxInsts (s : State) (part ctx : Nat) : List Inst := s.insts.filter fun n => n.part == part && n.ctx == ctx

/-- The monitors that a halt captured for an instance, each with its logical core (21 R423). -/
def Ctx.monsOf (s : State) (y : Ctx) (id : Nat) : List (Mon × Nat) :=
  ((y.img.map (·.mons)).getD []).filterMap fun m => (s.core? m.core).bind fun k => if k.inst == id then some (m, k.lid) else none

/-! ## The stream beside them. DESIGN CHOICE: log 15. -/

/-- The number of a row among those of the saved placement, which name the image's hold areas (21 Table 21.5). -/
def rowIndex (s : State) (part ctx row : Nat) : Nat :=
  (distinct ((s.cores.filter fun p => s.instCtx p.2.inst == (part, ctx)).map fun p => p.2.row)).filter (· < row) |>.length

/-- The core number that stands for an arrival of another package: no core of this one has it. -/
def peerCore : Nat := 2 ^ 32

/-- The numbers from 1 on that items of a list have in a stream; 0 for any other, and `peerCore` stands for itself. -/
def numbers (ids : List Nat) (i : Nat) : Nat := if i = peerCore then i else if ids.contains i then ids.idxOf i + 1 else 0
/-- The item of a number, where those of a stream have the identifiers from `first` on. -/
def ofNumber (first n : Nat) : Nat := if n = peerCore then n else if n = 0 then 0 else first + n - 1

/-- How the stream of a context's image names its cores and instances. -/
def imgNames (s : State) (x : Ctx) : Names where
  core := numbers (imgOrder s x)
  inst := numbers ((ctxInsts s x.part x.ctx).map (·.id))

/-- What a context's image holds beside the bytes that the spec lays out. -/
def State.packed (s : State) (x : Ctx) : Packed :=
  let ids := imgOrder s x
  let g := x.img.getD {}
  let insts := ctxInsts s x.part x.ctx
  let start (c : Nat) (k : Core) : Core := (((s.inst? k.inst).map fun n => tget n.start c k)).getD k
  { insts, cores := ids.filterMap fun c => (s.core? c).map fun k => (k, start c k)
    cmds := g.cmds, mx := g.mx, mons := g.mons
    feeds := if g.halted then ids.flatMap fun c => s.feeds.filter fun f => f.1.1 == c else []
    pushes := s.pushes.filter fun p => ids.contains p.1.1
    leaving := s.leaving.filter fun x => ids.contains x.snd.core
    holds := x.holds.map fun h => (rowIndex s x.part x.ctx h.1, h.2)
    queues := ids.flatMap fun c => s.net.filter fun f => f.src == some c }

/-- Where the stream lies in an image: between the hold areas of 36 rows and the instance records, which no rule assigns; and its room. -/
def streamOff : Nat := 0x910000
def streamRoom : Nat := 0x6F0000
/-- The first word of a stream. -/
def streamMagic : Nat := 0x4D52545337504B43

/-- The words of a stream: its mark, the length of its main part, whether the sideband follows, and both parts. Where the whole does not
fit, the sideband is left out, and where the main part does not fit, everything. -/
def streamWords (main lines : List Nat) : List Nat :=
  if 8 * (3 + main.length + lines.length) ≤ streamRoom then [streamMagic, main.length, 1] ++ main ++ lines
  else if 8 * (3 + main.length) ≤ streamRoom then [streamMagic, main.length, 0] ++ main
  else []

/-- The stream of a context's image is written. -/
def State.putStream (s : State) (x : Ctx) : State :=
  let lines := (imgOrder s x).flatMap fun c => ((s.core? c).map putLines).getD []
  s.bulkImg x (imgBase s x + streamOff) streamRoom
    (cellsAt 0 ((streamWords ((s.packed x).words (imgNames s x) s.now) lines).flatMap (natBytes 8)))

/-- The image of an absent context takes in its stream what has changed since it was captured. -/
def State.restream (s : State) (part ctx : Nat) : State :=
  match s.ctx? part ctx with
  | some y => if y.div == .diverted && y.img.isSome && !y.gone then s.putStream y else s
  | none => s

/-- `n` words of a stream from an address. -/
def readWords (m : List Host.Cell) (a n : Nat) : List Nat := (List.range n).map fun i => leNat (mread m (a + 8 * i) 8)

/-- The two parts of the stream of an image at `base` whose header is `hdr`. -/
def readStream (s : State) (base : Nat) (hdr : List Byte) : List Nat × List Nat :=
  let a := base + streamOff
  let h := readWords s.mem a 3
  let n := min (h.getD 1 0) (streamRoom / 8)
  if h.getD 0 0 = streamMagic then
    (readWords s.mem (a + 24) n,
      if h.getD 2 0 = 1 then readWords s.mem (a + 24 + 8 * n) (streamRoom / 8 - 3 - n) else Config.imageLines hdr)
  else (Config.imageWords hdr, Config.imageLines hdr)

/-- An instance's record is written in its context's image. -/
def State.putInst (s : State) (y : Ctx) (id : Nat) : State :=
  match s.inst? id with
  | none => s
  | some n =>
    let i := (ctxInsts s y.part y.ctx).findIdx fun n => n.id == id
    s.bulkImg y (imgBase s y + 0x1000000 + 8192 * i) 8192 (n.record (y.monsOf s id))

/-- DIVCNT counts an arrival that is applied to the image of an absent context (21 R417). -/
def State.countDiv (s : State) (part ctx : Nat) : State :=
  match s.ctx? part ctx with
  | some y => match y.img.filter fun _ => !y.gone with
    | some g =>
      let s := s.onCtx part ctx fun y => { y with img := some { g with divcnt := g.divcnt + 1 } }
      s.bulkImg y (imgBase s y + 0x28) 8 (cellsAt 0 (natBytes 8 (g.divcnt + 1)))
    | none => s
  | none => s

/-- A B-slot of a bench record, 132 KiB: 256 columns of block integers in two bytes each, the eight exponents of each column in 12 bits
each, NaN flags. -/
def BSlot.bytes (b : BSlot) : List Host.Cell :=
  let two (i : Int) : List Byte := natBytes 2 (i % 2 ^ 16).toNat
  cellsAt 0 ((b.elems.flatten.flatten).flatMap two) ++
    cellsAt 0x20000 (b.exps.flatMap fun es => natBytes 12 ((es.zipIdx.map fun e => (e.1 % 2 ^ 12).toNat * 2 ^ (12 * e.2)).sum)) ++
    cellsAt 0x20C00 (natBytes 256 ((b.nans.flatten.zipIdx.map fun p => if p.1 then 2 ^ p.2 else 0).sum))

/-- An unstarted matrix command of a bench record; `v` is the virtual core that issued it. -/
def MxCmd.record (c : MxCmd) (v : Nat) : List Byte :=
  natBytes 8 (c.fn + c.bs.toNat * 16 + c.ty.code.toNat * 64 + c.rm.code.toNat * 2 ^ 11 + (if c.fzi then 2 ^ 14 else 0) +
    (if c.fzo then 2 ^ 15 else 0) + c.kind.word * 2 ^ 16) ++ wordBytes64 c.d ++ wordBytes64 c.d1 ++ wordBytes64 c.a ++ wordBytes64 c.b ++ wordBytes64 c.e ++
    wordBytes64 c.comp ++ vecBytes c.desc ++ natBytes 8 c.ct ++ natBytes 8 c.who.lid ++
    natBytes 8 v ++ wordBytes64 c.who.path ++ natBytes 8 c.n ++ natBytes 8 c.who.pc.toNat ++ natBytes 8 c.who.arr ++ natBytes 8 c.who.ch ++
    natBytes 8 c.who.q

/-- A bench record: four slots, their states, and the queue of each core position, eight commands each with its virtual core. -/
def benchRecord (slots : List (Nat × BSlot)) (queues : List (Nat × List (MxCmd × Nat))) : List Host.Cell :=
  let at' (off : Nat) (cs : List Host.Cell) : List Host.Cell := cs.map fun c => (off + c.1, c.2)
  slots.flatMap (fun p => at' (p.1 * 0x21000) p.2.bytes ++ cellsAt (0x84000 + 16 * p.1) (natBytes 1 (if p.2.st == .ready then 2 else 0))) ++
    queues.flatMap fun q => cellsAt (0x84080 + 2032 * q.1) ((q.2.map fun c =>
      (c.1.record c.2 ++ List.replicate 254 0).take 254).flatten)

/-- A core's record is written at `a` (21 Table 21.5): scratchpad with rings, save tail, metadata. The poison mark of a scratchpad line
travels with it (02 R76). -/
def State.saveCore (s : State) (x : Ctx) (c a : Nat) : State :=
  match s.core? c with
  | none => s
  | some k =>
    let boxes := k.chans.flatMap fun p => (p.2.box.zipIdx).flatMap fun m =>
      let slot := if entMbd p.2.ent = 0 then 0 else (p.2.headSlot + m.2) % entMbd p.2.ent
      cellsAt (k.slotOff p.1 slot) m.1.bytes ++ cellsAt (k.spsize + 64 * (k.slotsBelow p.1 + slot)) m.1.meta
    let tail := cellsAt (k.spsize - 8192) (k.tailBytes (sendQueue s c))
    (s.bulkImg x a (cstride k) (k.spad ++ boxes ++ tail)).poisonLines ((k.sbs.filter fun p => p.2.poison).map fun p => a + p.1)

/-- A core's record read back from `a`: every field that the layout holds (21 R413, R415, R421), and the poison marks of its scratchpad
lines (02 R76). -/
def State.loadCore (s : State) (c a : Nat) : State :=
  s.onCore c fun k =>
    let tl := k.spsize - 8192
    let n (off w : Nat) := leNat (mread s.mem (a + tl + off) w)
    let chans := k.chans.map fun p =>
      let w := n (0x100 + 16 * p.1) 4
      let e := setFld (setFld (setFld p.2.ent 3 1 (n (0x104 + 16 * p.1) 2)) 62 48 (n (0x106 + 16 * p.1) 2)) 29 16
        (n (0x108 + 16 * p.1) 2)
      let hs := w / 32 % 64
      let cnt := w / 2 ^ 11 % 128
      let box := (List.range cnt).map fun i =>
        let slot := if entMbd e = 0 then 0 else (hs + i) % entMbd e
        Msg.ofBytes (mread s.mem (a + k.slotOff p.1 slot) 64)
          (mread s.mem (a + k.spsize + 64 * (k.slotsBelow p.1 + slot)) 64) ((p.2.box[i]?).getD { inst := k.inst })
      (p.1, { p.2 with ent := e, parked := w % 2 == 1, aborts := w / 2 % 16, headSlot := hs, box })
    let joins := ((List.range 16).filterMap fun i =>
      let h := BitVec.ofNat 64 (n (0x580 + 64 * i) 8)
      if h = 0 then none else some
        { handle := h, slots := n (0x588 + 64 * i) 4, n := n (0x58C + 64 * i) 2, ch := n (0x58E + 64 * i) 2,
          stamp := n (0x590 + 64 * i) 8,
          full := (List.range 256).filter fun b => (n (0x598 + 64 * i) 32).testBit b,
          lin := ((k.joins.find? fun j => j.handle == h).map (·.lin)).getD {} : JoinRec })
    let bad := (s.lines.filter fun p => p.2.poison && decide (a ≤ p.1) && decide (p.1 < a + k.spsize)).map fun p => p.1 - a
    { k with
      sbs := bad.foldl (fun t o => tput t o { tget t o {} with poison := true }) (k.sbs.map fun p => (p.1, { p.2 with poison := false }))
      pts := n 0 8, selcnt := BitVec.ofNat 32 (n 8 4), placecnt := BitVec.ofNat 32 (n 12 4),
      stealcnt := BitVec.ofNat 32 (n 16 4), jseq := BitVec.ofNat 32 (n 20 4), arrNext := n 24 4,
      clmask := BitVec.ofNat 8 (n 28 1), member := BitVec.ofNat 64 (n 0x20 8), arrived := BitVec.ofNat 64 (n 0x28 8),
      sticky := BitVec.ofNat 5 (n 0x30 8), creds := 16 - n 0x38 4, mxcreds := 8 - n 0x3C 4,
      chans, joins, culverts := k.culverts.map fun p => (p.1, Culvert.ofWord (BitVec.ofNat 64 (n (0x500 + 8 * p.1) 8))),
      spad := (s.mem.filter fun m => decide (a ≤ m.1) && decide (m.1 < a + k.spsize)).map fun m => (m.1 - a, m.2) }

/-- An entry of a saved send queue at `a`: message, state and remaining delay; none where the slot is empty. -/
def queueEntry (s : State) (a : Nat) : Option (List Byte × Nat × Nat) :=
  let st := leNat (mread s.mem (a + 64) 8)
  if st = 0 then none else some (mread s.mem a 64, st, leNat (mread s.mem (a + 72) 8))

/-- The send queue of a core stands still while its record is in the image (21 R413, R421). -/
def State.freezeQueue (s : State) (c : Nat) : State :=
  { s with net := s.net.map fun f =>
      if f.src == some c then
        { f with st := match f.st with
            | .delayed due => .saved 3 (due - s.now)
            | .held => .saved 2 0
            | .saved st n => .saved st n
            | _ => .saved 1 0 }
      else f }

/-- The entries of the saved send queue of core `k` at `a`. -/
def savedQueue (s : State) (k : Core) (a : Nat) : List (List Byte × Nat × Nat) :=
  (List.range 48).filterMap fun i => queueEntry s (a + k.spsize - 8192 + 0x980 + 80 * i)

/-- Flights with the entries of a saved send queue that are theirs, both in order: an entry whose flight a hold queue has delivered since is
passed over. -/
def pairQueue : List Flight → List (List Byte × Nat × Nat) → List (Flight × (List Byte × Nat × Nat))
  | f :: fs, e :: es => if fs.length < es.length && f.msg.bytes != e.1 then pairQueue (f :: fs) es else (f, e) :: pairQueue fs es
  | _, _ => []

/-- A core's saved send-queue entries are offered again in their order, as its record at `a` has them, delayed ones with their
remaining delay (21 R421). Those that waited in a hold queue when it was saved stand first, and are on their way or delivered. -/
def State.thawQueue (s : State) (c a : Nat) : State :=
  match s.core? c with
  | none => s
  | some k =>
    let mine := s.net.filter fun f => f.src == some c
    let es := savedQueue s k a
    let back (f : Flight) (e : List Byte × Nat × Nat) : Flight :=
      let w := bytesWords 8 e.1
      let h := w.headD 0
      { f with msg := { f.msg with hdr := h, pay := (w.drop 1).take (hdrCnt h) }
               st := if e.2.1 = 3 then .delayed (s.now + e.2.2) else .moving }
    { s with net := (s.net.filter fun f => f.src != some c) ++ (pairQueue mine es).map fun p => back p.1 p.2 }

/-- The record address of a core in its context's image. The spec gives one SPSIZE and CSTRIDE for the image; where instances of the
context have different L1 sizes, every record is strided by its own core's. DESIGN CHOICE: log 117. -/
def recordAddr (s : State) (x : Ctx) (c : Nat) : Nat :=
  match s.core? c with
  | some k =>
    let nb := if x.img.isSome then imgBenches s x else coreBenches s x
    imgBase s x + cbase nb + (imgOrder s x).findIdx (· == c) * cstride k
  | none => imgBase s x

/-- The diversion state that decides an arrival for a core (21 R414, R420): delivered, applied to the image, held for its row, or left
waiting at its interface. -/
inductive Route where
  | direct | image | hold | wait
  deriving DecidableEq, Repr

/-- Whether the save tail or the metadata of a core's record is poisoned: nothing is applied to the record or read from it (02 R76). The
mark of a scratchpad line goes with the line. DESIGN CHOICE: log 95. -/
def recordPoisoned (s : State) (x : Ctx) (k : Core) : Bool :=
  match s.coreOf k.inst k.lid with
  | some c => rangePoisoned s (recordAddr s x c + k.spsize - 8192) (8192 + 0x40000)
  | none => false

/-- Whether what a resume reads of an image beside its cores' records and the slots is poisoned (02 R76): its header, hold areas, instance
and engine records, and the queues of its bench records. -/
def imgPoisoned (s : State) (x : Ctx) (nb : Nat) : Bool :=
  rangePoisoned s (imgBase s x) 0x1100000 ||
    (List.range nb).any fun b => rangePoisoned s (imgBase s x + 0x1100000 + 0x88000 * b + 0x84000) 0x4000

/-- Whether an engine or a matrix unit has words for a core's scratchpad that it has not written yet (04 R140). -/
def State.wordsFor (s : State) (c : Nat) : Bool :=
  (s.cmds.any fun x => x.buf.any fun w => w.core == c) || s.mxrun.any fun r => r.2.buf.any fun w => w.core == c

/-- Whether a core that is switched out may go to its core record of its context's image, as one that its physical core does not run
(21 R421). A context that has no image at an address it can reach, or whose image has a held or poisoned line there, keeps it in the
package, and so does one for which a line is half written. DEDUCED: log 108. -/
def canStow (s : State) (y : Ctx) (c : Nat) (k : Core) : Bool :=
  !s.wordsFor c && k.out && !k.stored && y.div == .closed && y.pbase != 0 && !imgWaits s y && !recordPoisoned s y k

/-- 21 Table 21.8. An arrival for an image that waits, or for a poisoned record, waits at its interface. -/
def routeOf (s : State) (k : Core) : Route :=
  let (p, x) := s.instCtx k.inst
  let img (y : Ctx) : Route := if imgWaits s y || recordPoisoned s y k then .wait else .image
  match s.ctx? p x with
  | none => .direct
  | some y => match y.div with
    | .closed => if k.stored then img y else .direct
    | .saving => if y.loaded.contains k.row then img y else .hold
    | .diverted => img y
    | .merging => if y.loaded.contains k.row then .direct else .hold

/-- Where what an engine keeps for a core lies (06 R179, 21 R421): in the image once its row is streamed out and until it is
streamed in. -/
def inImage (s : State) (k : Core) : Bool :=
  let (p, x) := s.instCtx k.inst
  match s.ctx? p x with
  | none => false
  | some y => match y.div with
    | .closed => k.stored
    | .saving => y.loaded.contains k.row
    | .diverted => true
    | .merging => !y.loaded.contains k.row

/-- Whether an arrival for a core is lost, since its context has left the package (21 R425). -/
def State.goneFor (s : State) (c : Nat) : Bool :=
  match s.core? c with
  | some k => inImage s k && ((s.ctx? (s.instCtx k.inst).1 (s.instCtx k.inst).2).map (·.gone)).getD false
  | none => false

/-- Whether the context of an instance has left the package (21 R425). -/
def State.goneInst (s : State) (id : Nat) : Bool :=
  ((s.ctx? (s.instCtx id).1 (s.instCtx id).2).map fun y => y.div == .diverted && y.gone).getD false

/-- DIVCNT counts an arrival for a core that rests in its image (21 R417). -/
def State.countArrival (s : State) (c : Nat) : State :=
  match s.core? c with
  | none => s
  | some k => if inImage s k then s.countDiv (s.instCtx k.inst).1 (s.instCtx k.inst).2 else s

/-- Whether the records of an instance's image cannot be written now (04 R129; 21 R417). -/
def instWaits (s : State) (id : Nat) : Bool :=
  match s.ctx? (s.instCtx id).1 (s.instCtx id).2 with
  | some y => y.div == .diverted && imgWaits s y
  | none => false

/-- The record of an instance whose context is absent follows a change of its incumbent unit (21 R415). -/
def State.saveInst (s : State) (id : Nat) : State :=
  match s.ctx? (s.instCtx id).1 (s.instCtx id).2 with
  | some y => if y.div == .diverted then (s.putInst y id).restream y.part y.ctx else s
  | none => s

/-- An arrival of a barrier, or its installation, by another package or in transit, that finds its context absent: the shadow barrier
record and the core records' bits in the image take it (21 R417). -/
def State.shadowInst (s : State) (id : Nat) : State :=
  let (p, x) := s.instCtx id
  match s.ctx? p x with
  | some y => if y.div == .diverted then
      let s := s.putInst y id
      let s := (s.cores.filter fun k => k.2.inst == id).foldl (fun s k =>
        let a := recordAddr s y k.1 + k.2.spsize - 8192 + 0x20
        s.bulkImg y a 16 (cellsAt 0 (wordBytes64 k.2.member ++ wordBytes64 k.2.arrived))) s
      (s.restream p x).countDiv p x
    else s
  | none => s

/-- The messages that the hold areas keep for a core which runs in the package go to its interface again, in order. -/
def State.releaseHolds (s : State) (part ctx : Nat) (k : Core) : State :=
  match s.ctx? part ctx with
  | none => s
  | some y =>
    let mine (h : Nat × Flight) : Bool := h.2.inst == k.inst && h.2.lid == k.lid
    let back : List Flight := (y.holds.filter mine).map fun h => { h.2 with st := .held }
    let s := { s with net := back ++ s.net }
    s.onCtx part ctx fun y => { y with holds := y.holds.filter fun h => !mine h }

/-- A core that rests in its context's image comes back to the package, with what the hold area of its row has for it; any other stays as
it is (21 R417, R421). -/
def State.unstowCore (s : State) (c : Nat) : State :=
  match s.core? c with
  | none => s
  | some k =>
    match s.ctx? (s.instCtx k.inst).1 (s.instCtx k.inst).2 with
    | some y => if k.stored then
        ((s.loadCore c (recordAddr s y c)).onCore c fun k => { k with stored := false }).releaseHolds y.part y.ctx k
      else s
    | none => s

/-- Every switched-out core of a context that rests in the image comes back to the package, before its image's layout or place changes
(21 R421). -/
def State.unstow (s : State) (part ctx : Nat) : State :=
  (ctxCores s part ctx).foldl (fun s p => s.unstowCore p.1) s

/-- Every switched-out core of a context goes to its record in the image, where it can (21 R421). -/
def State.stow (s : State) (part ctx : Nat) : State :=
  match s.ctx? part ctx with
  | none => s
  | some y => (ctxCores s part ctx).foldl (fun s p =>
      if canStow s y p.1 p.2 then (s.saveCore y p.1 (recordAddr s y p.1)).onCore p.1 fun k => { k with stored := true } else s) s

/-- Whether cores that rest in the image of a context cannot be read from it now (04 R129; 02 R76). -/
def stowWaits (s : State) (part ctx : Nat) : Bool :=
  match s.ctx? part ctx with
  | none => false
  | some y => (ctxCores s part ctx).any fun p => p.2.stored && (imgWaits s y || recordPoisoned s y p.2)

/-- An arrival applied to a core wherever it rests (21 R417): the resident core, or its record in the image. One for a context that has
left the package is lost, and counts in the context's LOSTC, since the arrivals that come here are its own (21 R425). -/
def State.arrive (s : State) (c : Nat) (f : Core → State → State) : State :=
  match s.core? c with
  | none => s
  | some k =>
    if inImage s k then
      let (p, x) := s.instCtx k.inst
      match s.ctx? p x with
      | none => s
      | some y =>
        if y.gone then s.lose (p, x)
        else
        let a := recordAddr s y c
        let s := s.loadCore c a
        let s := match s.core? c with | some k => f k s | none => s
        (s.saveCore y c a).restream p x
    else f k s

end Sys2Proof.Machine
end

