-- ==== Sys2Proof/Machine/ConfigSpace.lean ====
section
/-! DEFINITION. Configuration space, the command queues' acceptance and journal, the platform (spec 24; 02 R60;
03 R105, R106; 18 R366, R374, R377, R380; 21 R414). -/

namespace Sys2Proof.Machine

/-! ## Time -/

/-- `n` cycles pass: WCLK, and the TCYC of every running task whose budget counts (14 R334, 24 R459).
DESIGN CHOICE: log 4. DEDUCED: log 77. -/
def State.passTime (s : State) (n : Nat) : State :=
  { s with
    now := s.now + n
    cores := s.cores.map fun p => (p.1, { p.2 with task := p.2.task.map fun t =>
      if t.fetched && !t.committing then { t with tcyc := t.tcyc + n } else t }) }

/-! ## Writes with their conditions -/

/-- The region of an exact address, which may lie below 0. -/
def regionOf (a : Int) : Int := a / 2 ^ 48

/-- 02 R60: whether an entry may have V set. The rule's sums are exact (00 R9), so an empty range ends below its start. -/
def pmapOk (e : PMapEnt) : Bool :=
  let r := regionOf e.gbase
  !e.v || (regionOf (e.gbase + e.limit - 1) == r && regionOf e.hbase == r && regionOf (e.hbase + e.limit - 1) == r)

/-- The fields that an entry's registers hold (02 Table 2.8). DEDUCED: log 57. -/
def pmapTrim (e : PMapEnt) : PMapEnt :=
  { e with gbase := e.gbase % 2 ^ 52 / 65536 * 65536, hbase := e.hbase % 2 ^ 52 / 65536 * 65536,
           dtbase := e.dtbase % 2 ^ 52 / 8 * 8 }

/-- A write of a partition map entry (02 R60): one that sets V on an invalid range is ignored, and so is a length
that is no multiple of 64 KiB or above 2^48. R60 speaks of a write that sets V; one that would break the ranges of an entry whose V is
set already is ignored too. DEDUCED: log 103. -/
def State.setPmap (s : State) (part i : Nat) (e : PMapEnt) : State :=
  let e := pmapTrim e
  if pmapOk e && e.limit % 65536 == 0 && decide (e.limit ≤ 2 ^ 48) && decide (i < 64) then
    let p := s.part part
    { s with parts := tput s.parts part { p with pmap := tput p.pmap i e } }
  else s

/-- A hypervisor's write, which reaches its register unless the device is in recovery: there FWADDR and the boot status alone are
reachable (24 R456). -/
def State.config (s : State) (s' : State) : Host.Outcome State Fault Refusal := .next (if s.plat.booted then s' else s)

/-- PARTITION_MAP_WRITE. -/
def execPartitionMapWrite (part i : Nat) (e : PMapEnt) (s : State) : Host.Outcome State Fault Refusal :=
  s.config (s.setPmap part i e)

/-- Whether two ranges meet; an empty one meets none. -/
def rangesMeet (a n b m : Nat) : Bool := n != 0 && m != 0 && decide (a < b + m) && decide (b < a + n)

/-- Whether a range lies in one tier below its populated size (03 R105). -/
def inTier (pl : Plat) (tier a n : Nat) : Bool :=
  n == 0 || (a / 2 ^ 48 == tier && (a + n - 1) / 2 ^ 48 == tier && region pl a != .bad && region pl (a + n - 1) != .bad &&
    (match tier with
     | 0 => a % 2 ^ 48 / 2 ^ 32 == (a + n - 1) % 2 ^ 48 / 2 ^ 32
     | 1 => a % 2 ^ 48 / 2 ^ 36 == (a + n - 1) % 2 ^ 48 / 2 ^ 36
     | _ => true))

/-- 03 R105: whether a window may be valid. -/
def winOk (s : State) (tier i : Nat) (w : Window) : Bool :=
  !w.v || (decide (w.layout.toNat ≤ 1) && inTier s.plat tier w.dbase w.dlimit && inTier s.plat tier w.sbase (winLen w) &&
    !rangesMeet w.dbase w.dlimit w.sbase (winLen w) &&
    !(s.windows.any fun p => p.1.1 == tier && p.1.2 != i && p.2.v &&
      (rangesMeet w.dbase w.dlimit p.2.dbase p.2.dlimit || rangesMeet w.dbase w.dlimit p.2.sbase (winLen p.2) ||
        rangesMeet w.sbase (winLen w) p.2.dbase p.2.dlimit || rangesMeet w.sbase (winLen w) p.2.sbase (winLen p.2))))

/-- A write of a format window (03 R105, R106): fields do not change while V is set, and clearing V changes V alone; one whose DLIMIT is no
multiple of 64 KiB is ignored as a whole, since Table 3.8 gives no other reading of it;
the lines of its ranges leave every cache before V takes effect: pinned ones are published, L2 and the replicas drop theirs. Every line keeps
its write time and lease, so that a line which becomes joined has those of its data line. DESIGN CHOICE: logs 110, 119. -/
def State.setWindow (s : State) (tier i : Nat) (w : Window) : State :=
  let old := tget s.windows (tier, i) { v := false, dbase := 0, dlimit := 0, sbase := 0, layout := 0 }
  let w := { w with dbase := w.dbase % 2 ^ 52 / 65536 * 65536, sbase := w.sbase % 2 ^ 52 / 64 * 64 }
  let same := old.dbase == w.dbase && old.dlimit == w.dlimit && old.sbase == w.sbase && old.layout == w.layout
  if old == w || 2 < tier || 15 < i || (old.v && !same) || w.dlimit % 65536 != 0 || !winOk s tier i w then s
  else
    let inside (l : Nat) : Bool := rangesMeet l 64 w.dbase w.dlimit || rangesMeet l 64 w.sbase (winLen w)
    let s := if old.v == w.v then s else
      (s.lines.filter fun p => inside p.1).foldl (fun s p => s.publish p.1) s
    { s with
      windows := tput s.windows (tier, i) w
      l2 := s.l2.filter fun e => !inside e.2.2.2
      replicas := s.replicas.filter fun r => !inside r.line
      redirects := s.redirects.filter fun r => !inside r.2 }

/-- FORMAT_WINDOW_WRITE. -/
def execFormatWindowWrite (tier w : Nat) (e : Window) (s : State) : Host.Outcome State Fault Refusal :=
  s.config (s.setWindow tier w e)

/-- What a write of some fields of a lottery block leaves (18 R374), from the bytes of WTAB that it writes, ALLOC and GW: a value
outside its field's range is ignored; if one is taken, K is 0 and LC and WeirQueue are empty; else nothing changes. -/
def lottPut (l : Lott) (wtab : List (Option Byte)) (alloc : Option (BitVec 64)) (gw : Option Nat) : Option Lott :=
  let okByte (b : Byte) : Bool := b.toNat < 0x40 || b == 0xFF#8
  let taken (i : Nat) : Option Byte := (wtab.getD i none).filter okByte
  let gw := gw.filter fun g => decide (4 ≤ g) && decide (g ≤ 64)
  if (List.range l.wtab.length).any (fun i => (taken i).isSome) || alloc.isSome || gw.isSome then
    some { wtab := l.wtab.zipIdx.map fun p => (taken p.2).getD p.1, alloc := alloc.getD l.alloc, gw := gw.getD l.gw,
           k := 0, lc := [], weir := [] }
  else none

/-- A hypervisor write of a lottery block (18 R374). -/
def lottWrite (l : Lott) (w : LottWrite) : Lott :=
  (lottPut l ((w.wtab.getD []).map some) w.alloc (w.gw.map BitVec.toNat)).getD l

/-- A lottery instance takes what a write leaves of it, where the write is not ignored (00 R11); a block of no instance of the package is
reserved and takes nothing (24 R445). -/
def State.putLott (s : State) (cls idx : Nat) (l : Option Lott) : State :=
  match l with
  | some l => if (lottIdx cls).contains idx then s.setLott cls idx l else s
  | none => s

/-- LOTTERY_CONFIG_WRITE (18 R374). -/
def execLotteryConfigWrite (cls : BitVec 8) (idx : Nat) (w : LottWrite) (s : State) : Host.Outcome State Fault Refusal :=
  s.config (s.putLott cls.toNat idx
    (lottPut (s.lott cls.toNat idx) ((w.wtab.getD []).map some) w.alloc (w.gw.map BitVec.toNat)))

/-- SEED_WRITE (18 R366, R367). -/
def execSeedWrite (owner : Nat) (seed : Word) (s : State) : Host.Outcome State Fault Refusal :=
  s.config (if owner < 64 then s.setOwner owner fun o => { o with seed } else s)

/-- A diversion entry's 128 bits (21 Table 21.4). -/
def DivSt.code : DivSt → Nat
  | .closed => 0 | .saving => 1 | .diverted => 2 | .merging => 3
def divOfCode (n : Nat) : DivSt := match n with | 0 => .closed | 1 => .saving | 2 => .diverted | _ => .merging

/-- The diversion entry of a context as its 128 bits. -/
def divBits (x : Ctx) : Nat :=
  x.div.code + (if x.gone then 4 else 0) + x.mapi * 2 ^ 40 + (if x.gpa then 2 ^ 46 else 0) + x.dctx * 2 ^ 47 + x.dpart * 2 ^ 50 +
    x.pbase / 65536 % 2 ^ 36 * 2 ^ 64

/-- A context's record with the fields of a written diversion entry. The hardware changes STATE as 21 Table 21.8 gives (21 R420). Where
the context has nothing here that a suspension or resume moves (`free`), a write of STATE makes the entry CLOSED or DIVERTED, which is
how a target learns of an image that was copied to it (21 R425, 24 R455); any other leaves STATE. DEDUCED: log 91. -/
def Ctx.putDiv (x : Ctx) (free : Bool) (e : BitVec 128) : Ctx :=
  let st := divOfCode (fld e 1 0)
  { x with div := if free && (st == .closed || st == .diverted) then st else x.div
           pbase := fld e 99 64 * 65536, gpa := e.getLsbD 46, mapi := fld e 45 40, gone := e.getLsbD 2,
           dpart := fld e 55 50, dctx := fld e 49 47 }

/-- The diversion entry of context `ctx` of a partition, whether or not the context exists (21 R414). -/
def State.dent (s : State) (part ctx : Nat) : Ctx :=
  match s.ctx? part ctx with
  | some x => x
  | none => ({ part, ctx } : Ctx).putDiv true (tget s.dents (part, ctx) 0)

/-- Whether nothing of a context stands here that a suspension or resume moves: no instance, no image captured here, no request. -/
def State.ctxFree (s : State) (x : Ctx) : Bool :=
  x.img.isNone && x.asker.isNone && x.holds.isEmpty && (x.div == .closed || x.div == .diverted) &&
    !(s.insts.any fun n => n.part == x.part && n.ctx == x.ctx) && !(s.reqs.any fun r => r.part == x.part && r.ctx == x.ctx)

/-- A write of the diversion entry of a context (21 R414). -/
def State.setDiv (s : State) (part ctx : Nat) (e : BitVec 128) : State :=
  match s.ctx? part ctx with
  | some y => s.onCtx part ctx fun x => x.putDiv (s.ctxFree y) e
  | none => if part < 64 && ctx < 8 then
      { s with dents := tput s.dents (part, ctx) (BitVec.ofNat 128 (divBits ((s.dent part ctx).putDiv true e))) } else s

/-- DIVERSION_ENTRY_WRITE. -/
def execDiversionEntryWrite (part ctx : Nat) (e : BitVec 128) (s : State) : Host.Outcome State Fault Refusal :=
  s.config (s.setDiv part ctx e)

/-! ## Command queues (24 R448 to R454) -/

/-- The final address of a host physical address (02 Table 2.2). -/
def hostPA (a : Nat) : Nat := 3 * 2 ^ 48 + a % 2 ^ 48

def HCmd.opc (c : HCmd) : Nat := fld (c.words.headD 0) 63 56
def HCmd.part (c : HCmd) : Nat := fld (c.words.headD 0) 55 50
def HCmd.ctx (c : HCmd) : Nat := fld (c.words.headD 0) 49 47
def HCmd.tag (c : HCmd) : Word := c.words.getD 3 0
def HCmd.addr (c : HCmd) : Word := c.words.getD 4 0
def HCmd.arg (c : HCmd) (i : Nat) : Word := c.words.getD (5 + i) 0

def JSt.code : JSt → Nat
  | .accepted => 1 | .started => 2 | .fenced => 3 | .completed => 4

/-- A journal entry's 32 bytes (24 Table 24.6). -/
def HCmd.journal (c : HCmd) : List Byte :=
  natBytes 8 (c.status + c.st.code * 2 ^ 32 + (if c.replay then 2 ^ 37 else 0) + c.stclass * 2 ^ 38 + c.ctx * 2 ^ 47 +
    c.part * 2 ^ 50 + c.opc * 2 ^ 56) ++ natBytes 8 c.seq ++ wordBytes64 c.tag ++ wordBytes64 c.result

def State.fn (s : State) (f : Nat) : Fn := tget s.fns f {}

/-- The writes to the host that are not acknowledged (04 R133). -/
def State.hostWaits (s : State) (ids : List Nat) : Bool := s.hostPend.any fun w => ids.contains w.id

/-- A journal entry lands: at its home slice where the host page is in device bias (02 R70, 04 R119), else in the host's memory; none
where it waits for an acknowledgement (04 R133) or a line (04 R129). -/
def State.landJournal (s : State) (j : JWrite) : Option State :=
  let bs := j.bytes.map some
  if s.hostWaits j.wait then none
  else if hostDirect s j.pa then some (s.landWrite { id := s.ackNext, core := devCore, pa := j.pa, bytes := bs })
  else match engWrite j.pa bs s.pkgTime s with
    | .ok _ s' => some s'
    | .error _ _ => none

/-- The journal entries that can be written now are written, in order. -/
def State.drainJournal (s : State) : State :=
  (s.jq.foldl (fun (p : State × Bool) j =>
    if p.2 then p
    else match p.1.landJournal j with
      | some s' => ({ s' with jq := s'.jq.drop 1 }, false)
      | none => (p.1, true)) (s, false)).1

/-- The journal entry of a command is to be written in host memory, with a release at host scope: after every write to the host that is
under way (24 R451, R453; 04 R133). -/
def State.writeJournal (s : State) (c : HCmd) : State :=
  let f := s.fn c.fn
  let pa := hostPA (f.jbase.toNat / 4096 * 4096 + 32 * (c.seq % 2 ^ f.qlog))
  let j : JWrite := { pa, bytes := c.journal, wait := s.hostPend.map fun w => w.id }
  ({ s with jq := s.jq ++ [j] } : State).drainJournal

/-- A change to a command's journal entry; STATE only increases (24 R453). -/
def State.onCmd (s : State) (fn seq : Nat) (g : HCmd → HCmd) : State :=
  match s.hcmds.find? fun c => c.fn == fn && c.seq == seq with
  | none => s
  | some c =>
    let c' := g c
    let l := s.hcmds.map fun (x : HCmd) => if x.fn == fn && x.seq == seq then c' else x
    { s with hcmds := l }.writeJournal c'

/-- 24 R450: a command that completes with BAD_CMD. -/
def badCmd (c : HCmd) : Bool :=
  let w0 := c.words.headD 0
  let vf := [0x01, 0x02, 0x03, 0x04, 0x05, 0x08].contains c.opc
  !(1 ≤ c.opc && c.opc ≤ 0x0C) || fld w0 46 0 != 0 || c.words.getD 1 0 != 0 || c.words.getD 2 0 != 0 ||
    (c.fn != 0 && (!vf || c.part != c.fn - 1)) || (c.opc == 0x09 && fld (c.arg 2) 3 0 < 4)

/-- The 64 bytes of a queue entry, read in the order of its line (04 R119); a line that is held is waited for (04 R129), and so is one
that is poisoned (02 R76). DEDUCED: log 105. -/
def queueRead (pa : Nat) : M (List Byte) := do
  if hostDirect (← get) pa then hostGet devCore pa 64 else engRead pa 64 (← get).pkgTime

/-- The device accepts the next command of a function, where R448 lets it (24 R448, R449). -/
def State.acceptOne (s : State) (fn : Nat) : State :=
  let f := s.fn fn
  let s0 := f.head
  let prevDone := s0 < 2 ^ f.qlog ||
    (s.hcmds.any fun c => c.fn == fn && c.seq == s0 - 2 ^ f.qlog && c.st == .completed)
  if f.qlog = 0 || f.tail ≤ s0 || !prevDone || !s.plat.booted then s
  else match queueRead (hostPA (f.qbase.toNat / 4096 * 4096 + 64 * (s0 % 2 ^ f.qlog))) s with
  | .error _ _ => s
  | .ok bs s =>
    let c : HCmd := { fn, seq := s0, words := bytesWords 8 bs }
    let c := if badCmd c then { c with st := .completed, stclass := 2, status := 1 } else c
    let s := { s with fns := tput s.fns fn { f with head := s0 + 1 }, hcmds := s.hcmds ++ [c] }
    s.writeJournal c

/-- Every command that can be accepted now. -/
def State.acceptAll : Nat → State → Nat → State
  | 0, s, _ => s
  | n + 1, s, fn => State.acceptAll n (s.acceptOne fn) fn

/-- Journal entries and queue entries that waited for a line or an acknowledgement are tried again. -/
def State.service (s : State) : State :=
  s.fns.foldl (fun s p => State.acceptAll (min ((s.fn p.1).tail - (s.fn p.1).head) 32768) s p.1) s.drainJournal

/-- A command completes; what that lets in is accepted (24 R448). -/
def State.complete (s : State) (fn seq cls status : Nat) (result : Word := 0) : State :=
  let s := s.onCmd fn seq fun c => { c with st := .completed, stclass := cls, status, result }
  State.acceptAll (min ((s.fn fn).tail - (s.fn fn).head) 32768) s fn

/-- TAIL_WRITE (24 R448): TAIL moves, and the device accepts. -/
def State.setTail (s : State) (fn : Nat) (v : Word) : State :=
  let f := s.fn fn
  let s := { s with fns := tput s.fns fn { f with tail := v.toNat } }
  State.acceptAll (min (v.toNat - f.head) 32768) s fn

/-- TAIL_WRITE. -/
def execTailWrite (fn : Nat) (v : Word) (s : State) : Host.Outcome State Fault Refusal := s.config (s.setTail fn v).service

/-! ## Configuration registers (24 Table 24.1). Offsets inside the identity, owner and queue blocks: log 16. -/

/-- MEMSZ (24 Table 24.2). -/
def memszWord (pl : Plat) : Word := BitVec.ofNat 64 (pl.memNear + pl.memFar * 2 ^ 32 + pl.memDeep * 2 ^ 48)

/-- The 288-bit bench mask of a partition. -/
def benchMask (p : Part) : Nat := (p.benches.map fun b => 2 ^ b).sum

/-- The four words of a partition map entry (02 Table 2.8). -/
def pmapWord (e : PMapEnt) (i : Nat) : Word :=
  let b (x : Bool) (n : Nat) : Nat := if x then 2 ^ n else 0
  BitVec.ofNat 64 (match i with
    | 0 => b e.v 0 + b e.rd 1 + b e.w 2 + b e.x 3 + b e.dt 4 + e.gbase
    | 1 => e.hbase
    | 2 => e.limit
    | _ => 0)

/-- An entry with one of its words replaced. -/
def pmapPut (e : PMapEnt) (i : Nat) (w : Word) : PMapEnt :=
  match i with
  | 0 => { e with v := w.getLsbD 0, rd := w.getLsbD 1, w := w.getLsbD 2, x := w.getLsbD 3, dt := w.getLsbD 4,
                  gbase := fld w 51 16 * 65536 }
  | 1 => { e with hbase := fld w 51 16 * 65536 }
  | 2 => { e with limit := w.toNat }
  | _ => e

def pmapZero : PMapEnt := ⟨false, false, false, false, false, 0, 0, 0, 0⟩
def winZero : Window := ⟨false, 0, 0, 0, 0⟩

/-- The three words of a format window (03 Table 3.8). -/
def winWord (w : Window) (i : Nat) : Word :=
  BitVec.ofNat 64 (match i with
    | 0 => (if w.v then 1 else 0) + w.dbase
    | 1 => w.dlimit
    | 2 => w.sbase / 64 % 2 ^ 46 + w.layout.toNat * 2 ^ 48
    | _ => 0)

def winPut (w : Window) (i : Nat) (v : Word) : Window :=
  match i with
  | 0 => { w with v := v.getLsbD 0, dbase := fld v 51 16 * 65536 }
  | 1 => { w with dlimit := v.toNat }
  | 2 => { w with sbase := fld v 45 0 * 64, layout := BitVec.ofNat 4 (fld v 51 48) }
  | _ => w

/-- DFLAGS of a die (09 R240): the OR of STICKY over the logical cores that the die's physical cores host now. DEDUCED: log 66. -/
def dflags (s : State) (die : Nat) : BitVec 5 :=
  (s.cores.filter fun p => p.2.die == die && p.2.resident && !p.2.out).foldl (fun f p => f ||| p.2.sticky) 0

/-- FWADDR and the boot status register stand behind the queue registers of function 0 (24 R456). DESIGN CHOICE: log 16. -/
def fwaddrOff : Nat := 0x8000030
def bootOff : Nat := 0x8000038

/-- Where the event counters of the owners stand (18 R366): by owner, substream and instance. DESIGN CHOICE: log 16. -/
def eventBase : Nat := 0x100000000
def eventOf (off : Nat) : Nat × Nat × Nat :=
  let n := (off - eventBase) / 2 ^ 20
  (n / 256, n % 256, (off - eventBase) % 2 ^ 20 / 8)

/-- The word of configuration space at an offset that is a multiple of 8; offsets not listed read zero (24 R445). In recovery only
FWADDR and the boot status are reachable (24 R456). DESIGN CHOICE: log 16. DEDUCED: log 84. -/
def cfgRead (s : State) (off : Nat) : Word :=
  if off = fwaddrOff then s.plat.fwaddr
  else if off = bootOff then (if s.plat.booted then 1 else 0)
  else if !s.plat.booted then 0
  else if eventBase ≤ off && off < eventBase + 64 * 256 * 2 ^ 20 then
    let e := eventOf off
    ((tget (s.owner e.1).events e.2 0).setWidth 64)
  else if off < 0x10000 then
    match off with
    | 0 => Config.ident 0 | 8 => Config.ident 1 | 16 => s.plat.pkgKey | 24 => memszWord s.plat
    | 32 => BitVec.ofNat 64 s.plat.pkgId
    | o => if 0x800 ≤ o && o < 0x1000 then BitVec.ofNat 64 (lottIdx ((o - 0x800) / 8)).length else 0
  else if off < 0x50000 then
    let p := (off - 0x10000) / 0x1000
    let o := (off - 0x10000) % 0x1000
    let pt := s.part p
    if o < 0x800 then pmapWord (tget pt.pmap (o / 32) pmapZero) (o % 32 / 8)
    else if o < 0xA00 then BitVec.ofNat 64 (tget pt.pmap ((o - 0x800) / 8) pmapZero).dtbase
    else if o < 0xA80 then
      BitVec.ofNat 64 (divBits (s.dent p ((o - 0xA00) / 16)) / 2 ^ (64 * ((o - 0xA00) % 16 / 8)))
    else if o < 0xAC0 then BitVec.ofNat 64 (benchMask pt / 2 ^ (8 * (o - 0xA80)))
    else if o = 0xAC0 then BitVec.ofNat 64 pt.owner
    else if o = 0xAC8 then BitVec.ofNat 64 pt.hangt
    else 0
  else if 0x100000 ≤ off && off < 0x104000 then
    let w := s.owner ((off - 0x100000) / 0x100)
    match (off - 0x100000) % 0x100 with
    | 0 => w.seed | 8 => w.plkey | 16 => BitVec.ofNat 64 w.rways | 24 => BitVec.ofNat 64 w.quota
    | 32 => BitVec.ofNat 64 w.wquota
    | _ => 0
  else if 0x200000 ≤ off && off < 0x200600 then
    let t := (off - 0x200000) / 0x200
    winWord (tget s.windows (t, (off - 0x200000) % 0x200 / 32) winZero) (off % 32 / 8)
  else if 0x1000000 ≤ off && off < 0x8000000 then
    let i := (off - 0x1000000) / 0x200
    let l := s.lott (i / 4096) (i % 4096)
    let o := (off - 0x1000000) % 0x200
    if !(lottIdx (i / 4096)).contains (i % 4096) then 0
    else if o < 256 then leWord64 ((l.wtab.drop o).take 8)
    else if o = 256 then l.alloc
    else if o = 264 then BitVec.ofNat 64 (l.gw + l.k.toNat * 2 ^ 32)
    else 0
  else if 0x8000000 ≤ off && off < 0x8004100 then
    let f := s.fn ((off - 0x8000000) / 0x100)
    match (off - 0x8000000) % 0x100 with
    | 0 => f.qbase | 8 => f.jbase | 16 => BitVec.ofNat 64 f.qlog | 24 => BitVec.ofNat 64 f.tail
    | 32 => BitVec.ofNat 64 f.head | 40 => BitVec.ofNat 64 f.fenced
    | _ => 0
  else match off with
    | 0x10000000 => BitVec.ofNat 64 s.plat.corrected
    | 0x10000008 => BitVec.ofNat 64 s.plat.retired.length
    | 0x10000010 => BitVec.ofNat 64 s.plat.lostRecords
    | 0x10000018 => (dflags s 0).setWidth 64
    | 0x10000020 => (dflags s 1).setWidth 64
    | 0x10000028 => (dflags s 2).setWidth 64
    | 0x10000030 => (dflags s 3).setWidth 64
    | _ => 0

/-- The sum of a quantity over the other owners of the 64 (18 R365). -/
def othersSum (s : State) (o : Nat) (f : Owner → Nat) : Nat :=
  (((List.range 64).filter fun i => i != o).map fun i => f (s.owner i)).sum

/-- Whether an owner holds memory or a cached line (18 R366). -/
def ownerHolds (s : State) (o : Nat) : Bool :=
  (s.parts.any fun p => p.2.owner == o && p.2.pmap.any fun e => e.2.v) || s.l2.any fun e => e.2.2.1 == o

/-- 24 R458, R445, R448; 18 R366, R377, R380; 02 R62: a write of a configuration register of 8 bytes, of which `en` says
which are written; `v` holds the others as they are. Offsets not listed, read-only and reserved fields and values outside a
register's limits are ignored (00 R7, R8). DESIGN CHOICE: log 16. DEDUCED: logs 57, 84. -/
def cfgWrite (s : State) (off : Nat) (v : Word) (en : List Bool := List.replicate 8 true) : State :=
  if off = fwaddrOff then { s with plat := { s.plat with fwaddr := v } }
  else if !s.plat.booted then s
  else if off < 0x10000 then
    match off with
    | 32 => if s.plat.pkgIdLocked || 287 < v.toNat then s else { s with plat := { s.plat with pkgId := v.toNat } }
    | _ => s
  else if off < 0x50000 then
    let p := (off - 0x10000) / 0x1000
    let o := (off - 0x10000) % 0x1000
    let pt := s.part p
    let free := !(s.ctxs.any fun x => x.part == p)
    if o < 0x800 then
      if o % 32 / 8 = 3 then s else s.setPmap p (o / 32) (pmapPut (tget pt.pmap (o / 32) pmapZero) (o % 32 / 8) v)
    else if o < 0xA00 then
      let e := tget pt.pmap ((o - 0x800) / 8) pmapZero
      s.setPmap p ((o - 0x800) / 8) { e with dtbase := fld v 51 3 * 8 }
    else if o < 0xA80 then
      let b : BitVec 128 := BitVec.ofNat 128 (divBits (s.dent p ((o - 0xA00) / 16)))
      let lo := 64 * ((o - 0xA00) % 16 / 8)
      s.setDiv p ((o - 0xA00) / 16) (setFld b (lo + 63) lo v.toNat)
    else if o < 0xAC0 then
      if free then
        let lo := 8 * (o - 0xA80)
        let mask := setFld (BitVec.ofNat 512 (benchMask pt)) (lo + 63) lo v.toNat
        { s with parts := tput s.parts p { pt with benches := (List.range 288).filter fun i => mask.getLsbD i } }
      else s
    else if o = 0xAC0 then
      if free && v.toNat < 64 then { s with parts := tput s.parts p { pt with owner := v.toNat } } else s
    else if o = 0xAC8 then
      if 2000000 ≤ v.toNat && v.toNat ≤ 2000000000 then { s with parts := tput s.parts p { pt with hangt := v.toNat } } else s
    else s
  else if 0x100000 ≤ off && off < 0x104000 then
    let i := (off - 0x100000) / 0x100
    let n := v.toNat
    match (off - 0x100000) % 0x100 with
    | 0 => s.setOwner i fun o => { o with seed := v }
    | 8 => if ownerHolds s i then s else s.setOwner i fun o => { o with plkey := v }
    | 16 => if n ≤ 15 && othersSum s i (·.rways) + n ≤ 15 then s.setOwner i fun o => { o with rways := n } else s
    | 24 => if 1 ≤ n && n ≤ 64 && othersSum s i (·.quota) + n ≤ 256 then s.setOwner i fun o => { o with quota := n } else s
    | 32 => if 1 ≤ n && n ≤ 64 then s.setOwner i fun o => { o with wquota := n } else s
    | _ => s
  else if 0x200000 ≤ off && off < 0x200600 then
    let t := (off - 0x200000) / 0x200
    let i := (off - 0x200000) % 0x200 / 32
    s.setWindow t i (winPut (tget s.windows (t, i) winZero) (off % 32 / 8) v)
  else if 0x1000000 ≤ off && off < 0x8000000 then
    let i := (off - 0x1000000) / 0x200
    let o := (off - 0x1000000) % 0x200
    let l := s.lott (i / 4096) (i % 4096)
    s.putLott (i / 4096) (i % 4096)
      (if o < 256 then lottPut l (List.replicate o none ++ (wordBytes64 v).zipWith (fun b w => if w then some b else none) en) none none
      else if o = 256 then lottPut l [] (some v) none
      else if o = 264 && en.getD 0 false then lottPut l [] none (some (fld v 6 0))
      else none)
  else if 0x8000000 ≤ off && off < 0x8004100 then
    let i := (off - 0x8000000) / 0x100
    let f := s.fn i
    let idle := f.head == f.tail
    let put (f : Fn) : State := { s with fns := tput s.fns i f }
    match (off - 0x8000000) % 0x100 with
    | 0 => if idle then put { f with qbase := setFld v 11 0 0 } else s
    | 8 => if idle then put { f with jbase := setFld v 11 0 0 } else s
    | 16 =>
      let q := fld v 3 0
      if idle && (q == 0 || (6 ≤ q && q ≤ 15)) then put { f with qlog := q } else s
    | 24 => s.setTail i v
    | _ => s
  else s

/-- CONFIG_REGISTER_WRITE (24 R445). -/
def execConfigRegisterWrite (off : Nat) (v : Word) (s : State) : Host.Outcome State Fault Refusal :=
  .next (if off % 8 = 0 then cfgWrite s off v else s)

/-- Bytes of configuration space written by a store of a device page (02 R58): the 8-byte registers that hold them
are written with the other bytes as they are. DEDUCED: log 84. -/
def cfgStore (s : State) (off : Nat) (bytes : List (Option Byte)) : State :=
  let lo := off / 8
  let hi := (off + bytes.length - 1) / 8
  (iota lo (hi + 1 - lo)).foldl (fun s r =>
    let b : List (Option Byte) := (List.range 8).map fun i => if 8 * r + i < off then none else (bytes[8 * r + i - off]?).join
    if b.all Option.isNone then s
    else
      let old := wordBytes64 (cfgRead s (8 * r))
      cfgWrite s (8 * r) (leWord64 ((b.zip old).map fun p => p.1.getD p.2)) (b.map Option.isSome)) s

/-- What no instruction returns: PKGKEY, which function 0 alone can read (24 R447); seeds, keys, event counters, weights, loss counts and
slot counters of owners (18 R381). -/
def cfgHidden (off : Nat) : Bool :=
  off == 16 || (decide (0x100000 ≤ off) && decide (off < 0x104000) && decide (off % 0x100 < 16)) ||
    (decide (0x1000000 ≤ off) && decide (off < 0x8000000)) || decide (eventBase ≤ off)

/-- Bytes of configuration space read by a load of a device page; what no instruction returns reads zero. DEDUCED: log 84. -/
def cfgLoad (s : State) (off n : Nat) : List Byte :=
  (List.range n).map fun i =>
    let r := (off + i) / 8 * 8
    (wordBytes64 (if cfgHidden r then 0 else cfgRead s r)).getD ((off + i) % 8) 0

/-! ## Platform -/

/-- POWER_LIMIT (24 R460): 1,200 W to 2,400 W in steps of 100 W. -/
def execPowerLimit (watts : Nat) (s : State) : Host.Outcome State Fault Refusal :=
  s.config (if 1200 ≤ watts && watts ≤ 2400 && watts % 100 == 0 then { s with plat := { s.plat with power := watts } } else s)

/-- THERMAL_LIMIT (24 R460): above the limit the host is notified; issue is gated as R459 gives. -/
def execThermalLimit (hot : Bool) (s : State) : Host.Outcome State Fault Refusal :=
  let s' := { s with plat := { s.plat with hot } }
  .next (if hot && !s.plat.hot then { s' with out := s'.out ++ [.note .thermal] } else s')

/-- VOLTAGE_LOOP (24 R459): instruction issue is gated for whole cycles, which count in TCYC, WCLK and budgets. -/
def execVoltageLoop (cycles : Nat) (s : State) : Host.Outcome State Fault Refusal :=
  .next { s.passTime cycles with plat := { s.plat with gated := s.plat.gated + cycles } }

/-- EQUALISATION_LOOP (24 R459): a lane is trained. -/
def execEqualisationLoop (lane : Nat) (s : State) : Host.Outcome State Fault Refusal :=
  .next { s with plat := { s.plat with trained := if s.plat.trained.contains lane then s.plat.trained else s.plat.trained ++ [lane] } }

/-- The words that a measurement covers (24 R457). DESIGN CHOICE: log 13. -/
def measure (s : State) (idx : Nat) : List Word :=
  let words (n : Nat) (v : Nat) : List Word := (List.range n).map fun i => BitVec.ofNat 64 (v / 2 ^ (64 * i))
  if idx = 1 then [Config.ident 2] else if idx = 2 then words 4 s.plat.fwDigest.toNat
  else if idx = 3 then s.plat.hmap ++ s.plat.mxmap.flatMap fun m => words 2 m.toNat
  else
    let p := s.part (idx - 16)
    let o := s.owner p.owner
    (List.range 64).flatMap (fun i =>
        let e := tget p.pmap i pmapZero
        (List.range 3).map (pmapWord e) ++ [BitVec.ofNat 64 e.dtbase]) ++
      words 5 (benchMask p) ++ [BitVec.ofNat 64 p.owner, BitVec.ofNat 64 o.rways, BitVec.ofNat 64 o.quota] ++
      (List.range 256).flatMap fun c => (lottIdx c).flatMap fun i =>
        bytesWords 8 (s.lott c i).wtab ++ [(s.lott c i).alloc, BitVec.ofNat 64 (s.lott c i).gw]

/-- SPDM_REQUEST (24 R457): function 0 reports any measurement, a virtual function its own partition's.
DESIGN CHOICE: log 13. -/
def execSpdmRequest (fn idx : Nat) (s : State) : Host.Outcome State Fault Refusal :=
  s.config (if fn = 0 || idx = 16 + (fn - 1) then
    { s with out := s.out ++ [.spdm fn (Config.spdmSign fn idx (measure s idx))] } else s)

/-- The one entry that the firmware loads where no hypervisor manages the maps: it maps the partition's memory identically
(02 R59). DESIGN CHOICE: log 6. -/
def fwEntry : PMapEnt :=
  let b := Config.fwRange.1 % 2 ^ 52 / 65536 * 65536
  { v := true, rd := true, w := true, x := true, dt := false, gbase := b, hbase := b, limit := Config.fwRange.2 / 65536 * 65536,
    dtbase := 0 }

/-- DEVICE_RESET (24 R456, R447; 04 R111): every logical time is 0, the keys are drawn, the firmware boots or the
device is in recovery. Memory keeps its contents (DESIGN CHOICE, log 6). DESIGN CHOICE: log 7. -/
def execDeviceReset (fwOk : Bool) (s : State) : Host.Outcome State Fault Refusal :=
  let n := s.plat.entropyCnt
  let pl : Plat := { memNear := s.plat.memNear, memFar := s.plat.memFar, memDeep := s.plat.memDeep, hmap := s.plat.hmap,
                     mxmap := s.plat.mxmap, retired := s.plat.retired, fwaddr := s.plat.fwaddr, pkgKey := Config.entropy n,
                     tokKey := Config.entropy (n + 1), entropyCnt := n + 2, booted := fwOk,
                     fwDigest := if fwOk then Config.fwDigest s.plat.fwaddr n else 0 }
  .next { State.reset with
    parts := if Config.hypervisor then [] else (State.reset.setPmap 0 0 fwEntry).parts
    mem := s.mem, plat := pl, agenda := s.agenda, freeCnt := s.freeCnt
    lines := (s.lines.filter fun p => p.2.poison).map fun p => (p.1, { poison := true })
    out := if fwOk then s.out ++ [.note .booted] else s.out }

/-- The place of a line is retired (02 R77): a far or deep page is reported to the host; elsewhere a spare takes over, and the
corrections counted start again. DEDUCED: log 90. -/
def State.retire (s : State) (l : Nat) : State :=
  { s with
    plat := { s.plat with retired := s.plat.retired ++ [l], fixes := tdel s.plat.fixes l }
    out := if 2 ^ 48 ≤ l && l < 3 * 2 ^ 48 then s.out ++ [.note (.retire l)] else s.out }

/-- A scratchpad line, or a slot of a bench, is poisoned (02 R76). DEDUCED: log 90. -/
def State.poisonArray (s : State) (key : Nat) : State :=
  if key < 2 ^ 100 then
    s.onCore (key / 2 ^ 60 - 1) fun k => k.setSb (key % 2 ^ 60) { k.sbLine (key % 2 ^ 60) with poison := true }
  else
    let b := (key % 2 ^ 60 / 4, key % 4)
    match tget? s.slots b with
    | some x => { s with slots := tput s.slots b { x with poison := true } }
    | none => s

/-- A line of memory, a line of a scratchpad or a slot of a bench is poisoned (02 R76). -/
def State.poisonAt (s : State) (l : Nat) : State :=
  if 2 ^ 60 ≤ l then s.poisonArray l else s.setLine l { s.line l with poison := true }

/-- FLIT_REPLAY (02 R74, R76, R77): a transfer that fails up to seven times, or an error that a code corrects, is corrected, and a line
that is corrected again and again is retired; the eighth failure, or an error that the line's code cannot correct, poisons the line, whose
place is retired. A line of a scratchpad or a slot of a bench is named as log 90 says. DEDUCED: log 90. -/
def execFlitReplay (line attempts : Nat) (s : State) : Host.Outcome State Fault Refusal :=
  let l := if 2 ^ 60 ≤ line then line else lineOf line
  .next (if attempts = 0 then s
    else if attempts < 8 then
      let n := tget s.plat.fixes l 0 + 1
      let s := { s with plat := { s.plat with corrected := s.plat.corrected + 1, fixes := tput s.plat.fixes l n } }
      if 1 < n && decide (Config.retireAfter ≤ n) then s.retire l else s
    else (s.poisonAt l).retire l)

end Sys2Proof.Machine
end

