-- ==== Sys2Proof/Machine/Fetch.lean ====
section
/-! DEFINITION. Instruction fetch and the order of its checks (spec 01 R34 to R37), and the access checks of a
task (02 R57; 05 R145). -/

namespace Sys2Proof.Machine

/-- A task's access: translated and checked for the context of the current core (05 R145). -/
def taskXlat (t : Task) (k : AccKind) (peerOk : Bool) (va : Word) : M Xlat := do
  let s ← get
  let inst := ((s.core? s.cur).map (·.inst)).getD 0
  let (p, x) := s.instCtx inst
  translate (some s.cur) 0 p x t.priv k peerOk (va.setWidth 56)

/-- Region 0xE is reached by privileged accesses only (02 Table 2.2, 03 R104, 18 R381, 24 R444). 02 Table 2.7 names no cause for an
unprivileged one that a device page with U = 1 lets through; the PERM of its step 1 is taken. DEDUCED: log 85. -/
def devicePriv (t : Task) (x : Xlat) : M Unit := do
  if x.attr == 2 && !t.priv then walkFault .perm x.va x.lvl

/-- A fault at a global address. -/
def faultAt {α : Type} (c : Cause) (va : VAddr) : M α := throw (.flt { cause := c, va := va.setWidth 64 })

/-- A fault of a fetch: its cause, DETAIL[63] and the fetch address (21 R405). -/
def fetchFault {α : Type} (va : VAddr) (m : M α) : M α := fun s =>
  match m s with
  | .error (.flt f) s' => .error (.flt { f with fetch := true, va := va.setWidth 64 }) s'
  | r => r

/-- One word of code (01 R36, R37): from a page that may be fetched, as memory stood at the task's start; no lease, no
read set, nothing of the sluice. A line that another agent holds answers with retry (04 R129). DEDUCED: log 56. -/
def fetchWord (t : Task) (va : VAddr) : M IWord := fetchFault va do
  let x ← taskXlat t .fetch false (va.setWidth 64)
  devicePriv t x
  let s ← get
  let ks := s.keys x.pa 4
  let bs : List Byte ← if x.attr == 2 then pure (cfgLoad s (x.pa % 2 ^ 48) 4)
    else match t.icache.find? fun e => e.1 == lineOf x.pa with
    | some e => pure (((vecBytes e.2).drop (x.pa % 64)).take 4)
    | none =>
      if s.blocked ks (some s.cur) then throw .retry
      else if ks.any s.poisoned then faultAt .dataErr va
      else pure (mread s.mem x.pa 4)
  return BitVec.ofNat 32 (leNat bs)

/-- A fetched instruction: its base word, what it decodes to, and its length in bytes. -/
structure Fetched where
  w : IWord
  i : Instr
  len : Nat
  deriving DecidableEq, Repr

/-- The instruction at an address (01 Table 1.13 steps 1 to 6): the base word, then the other words where OP, FN and
LEN are valid; every failed check of the encoding is ILLOP with the base word. -/
def fetchInstr (t : Task) (pc : VAddr) : M Fetched := do
  let w ← fetchWord t pc
  match plan w with
  | .error _ => return { w, i := .illop w, len := 4 * wordsOf w }
  | .ok n => do
    let x ← if n = 1 then pure 0 else fetchWord t (pc + 4)
    let y ← if n = 1 then pure 0 else fetchWord t (pc + 8)
    match decodeWords w x y with
    | .ok i => return { w, i, len := 4 * n }
    | .error _ => return { w, i := .illop w, len := 4 * n }

end Sys2Proof.Machine
end

