-- ==== Sys2Proof/Machine/Local.lean ====
section
/-! DEFINITION. Local loads and stores, sideband, spill and fill, and queue registers: OP 0x1C and 0x1D (spec 07;
10 R267). -/

namespace Sys2Proof.Machine

/-! ## The scratchpad (07 R199, R203 to R208) -/

/-- Bytes written to the array; a whole line clears its poison mark (02 R76). -/
def Core.spWrite (k : Core) (off : Nat) (bytes : List (Option Byte)) : Core :=
  let k := { k with spad := mwriteMask k.spad off bytes }
  if off % 64 = 0 && bytes.length = 64 && bytes.all Option.isSome && (k.sbLine off).poison then
    k.setSb off { k.sbLine off with poison := false }
  else k

/-- The aligned 8-byte words that some bytes touch, from the first on: each byte where it lies, and none elsewhere. -/
def padWords (off : Nat) (bytes : List (Option Byte)) : List (Option Byte) :=
  let o := off / 8 * 8
  (List.range ((off + bytes.length + 7) / 8 * 8 - o)).map fun i => if off ≤ o + i then bytes.getD (o + i - off) none else none

/-- Whether some byte of the aligned word `i` of a padded list is written. -/
def wordHit (bytes : List (Option Byte)) (i : Nat) : Bool := (List.range 8).any fun j => (bytes.getD (8 * i + j) none).isSome

/-- A padded list with every word that it touches whole (07 R206): the bytes left out are those of `under`. -/
def fillWords (bytes : List (Option Byte)) (under : List Byte) : List (Option Byte) :=
  (List.range bytes.length).map fun i => if wordHit bytes (i / 8) then some ((bytes.getD i none).getD (under.getD i 0)) else none

/-- A commit writes some words whole at an aligned offset (07 R206), and what stood in each before is kept until an engine writes it. A
store of all 64 bytes of a line clears its poison mark (02 R76). -/
def Core.spCommit (k : Core) (off : Nat) (bytes : List (Option Byte)) (under : List Byte) : Core :=
  let old (k : Core) (i : Nat) : Core :=
    let o := off + 8 * i
    if wordHit bytes i && (tget? k.cwords o).isNone then { k with cwords := k.cwords ++ [(o, mread k.spad o 8)] } else k
  let k := (List.range (bytes.length / 8)).foldl old k
  let k := if bytes.all Option.isSome then k.spWrite off bytes else k
  { k with spad := mwriteMask k.spad off (fillWords bytes under) }

/-- An engine writes bytes of one aligned word, and the word whole: a byte that it leaves out is as it was before the commits that wrote
the word since an engine last did, so that no word ends as a mix of the two (07 R206). DEDUCED: log 106. -/
def Core.spEngine (k : Core) (off : Nat) (bytes : List (Option Byte)) : Core :=
  let o := off / 8 * 8
  let base := (tget? k.cwords o).getD (mread k.spad o 8)
  { k with spad := mwriteMask k.spad o (fillWords (padWords off bytes) base), cwords := tdel k.cwords o }

/-- Where a local access of a member may go. -/
inductive Place where
  | frame | pers
  deriving DecidableEq, Repr

/-- SpadCheck of member `m`, whose core is `k` (07 R203). -/
def spadCheck (k : Core) (m frameSz off size : Nat) (store : Bool) : M Place :=
  let bad (c : Cause) (d : Nat) : M Place := throw (.flt { cause := c, detail := BitVec.ofNat 32 d, mem := m })
  if off % size != 0 then bad .addrAlign 0
  else match k.regionAt off with
    | none => bad .spadRange off
    | some g =>
      let kind := regKind g
      if kind != 1 && kind != 2 then bad .spadRange off
      else if (if store then !regLw g else !regLr g) then bad .spadRange off
      else if kind == 1 && decide (regBase g + frameSz < off + size) then bad .spadRange off
      else return if kind == 1 then .frame else .pers

/-- The members of the current task with their positions and cores. DEDUCED: log 34. -/
def membersOf (s : State) (t : Task) : List (Nat × Nat × Core) :=
  t.members.zipIdx.filterMap fun p => (s.core? p.1).map fun k => (p.2, p.1, k)

/-- The frame size of the task's handler entry (07 R203). -/
def frameSz (s : State) (t : Task) : Nat :=
  match s.core? s.cur with
  | some k => 64 * entFrameLines (k.chan t.ch).ent
  | none => 0

/-- Bytes of a scratchpad as the task sees them: its held PERS bytes over the array (07 R205, 13 R308). Each byte says
whether it is forwarded. -/
def spadView (t : Task) (c : Nat) (k : Core) (off n : Nat) : List (Byte × Bool) :=
  (List.range n).map fun i =>
    let a := off + i
    match (t.sluice.reverse.findSome? fun (e : Eff) => match e with
      | .pers c' o bs _ => if c' = c && o ≤ a then (bs[a - o]?).join else none
      | _ => none) with
    | some b => (b, true)
    | none => (mget k.spad a, false)

/-- A frame byte that the task has not written takes a free value, which then stands (07 R204). DESIGN CHOICE: log 67. -/
def freshen (c off : Nat) : M Unit := do
  let t ← getTask
  if t.frame.contains (c, off) then pure ()
  else do
    let b ← freeByte
    modify fun s => s.onCore c fun k => { k with spad := mset k.spad off b }
    modTask fun t => { t with frame := t.frame ++ [(c, off)] }

/-- A checked local load of one member (07 R212): one that touches a poisoned line traps, whatever is forwarded. -/
def localLoad (m c : Nat) (k : Core) (off n : Nat) : M (List Byte) := do
  let t ← getTask
  let s ← get
  match ← spadCheck k m (frameSz s t) off n false with
  | .frame => (List.range n).forM fun i => freshen c (off + i)
  | .pers => pure ()
  let k := (((← get).core? c)).getD k
  if (k.sbLine off).poison then throw (.flt { cause := .dataErr, mem := m })
  return (spadView t c k off n).map (·.1)

/-- A checked local store of one member: at once in FRAME; held in PERS (07 R204, R205). Its words are written whole at commit (R206):
the bytes that it leaves out are then as the task sees them now. DEDUCED: log 107. -/
def localStore (m c : Nat) (off n : Nat) (bytes : List (Option Byte)) : M Unit := do
  let t ← getTask
  let s ← get
  match s.core? c with
  | none => pure ()
  | some k =>
    match ← spadCheck k m (frameSz s t) off n true with
    | .frame => do
      modify fun s => s.onCore c fun k => k.spWrite off bytes
      modTask fun t => { t with frame := t.frame ++ ((bytes.zipIdx).filter fun p => p.1.isSome).map fun p => (c, off + p.2) }
    | .pers =>
      let o := off / 8 * 8
      let w := padWords off bytes
      let e : Eff := .pers c o w ((spadView t c k o w.length).map (·.1))
      fits (t.sluice ++ [e]) (c == s.cur) c m
      hold e

/-- The offset of a local access (07 R211), moved on by a jig's iteration for VLDL and VSTL (10 R263). -/
def Task.off (t : Task) (m : MemOp) : Nat := (t.ea m).toNat
def Task.jigged (t : Task) (m : MemOp) : Nat := (t.ea m + BitVec.ofNat 64 t.jigOff).toNat

/-- The leader's own core among the members. DEDUCED: log 33. -/
def leaderCore (s : State) (t : Task) : Nat := t.members.getD t.lead s.cur

/-- A scalar local load: every member's access is checked, the leader's value is taken (10 R267). DEDUCED: log 34. -/
def loadLocal (ext : Nat → Nat → Word) (w : Width) (d : Reg) (m : MemOp) : Task → M Unit := fun t => do
  let s ← get
  let off := t.off m
  let vals ← (membersOf s t).mapM fun p => localLoad p.1 p.2.1 p.2.2 off w.bytes
  modTask fun t => t.wx d (ext w.bytes (leNat (vals.getD t.lead [])))

def execLdl (w : Width) (d : Reg) (m : MemOp) := runTask (loadLocal sextBytes w d m)
def execLdlz (w : Width) (d : Reg) (m : MemOp) := runTask (loadLocal (fun _ v => BitVec.ofNat 64 v) w d m)

/-- One member's part of a VLDL (07 R212): one whose lanes are all off accesses nothing. -/
def vldlMember (t : Task) (off : Nat) (ty : Ty) (mask : SReg) (d : Reg) (p : Nat × Nat × Core) : M Unit := do
  let on := t.byteMask ty mask p.1
  if on.any id then
    let bs ← localLoad p.1 p.2.1 p.2.2 off 64
    let old := vecBytes (t.rv p.1 d)
    modTask fun t' => t'.wv p.1 d (bytesVec (((bs.zip old).zip on).map fun x => if x.2 then x.1.1 else x.1.2))
  else pure ()

/-- VLDL (07 R212). -/
def execVldl (ty : Ty) (mask : SReg) (d : Reg) (m : MemOp) := runTask fun t => do
  let s ← get
  (membersOf s t).forM (vldlMember t (t.jigged m) ty mask d)

/-- STL (07 R212). DEDUCED: log 34. -/
def execStl (w : Width) (d : Reg) (m : MemOp) := runTask fun t => do
  let s ← get
  (membersOf s t).forM fun p => localStore p.1 p.2.1 (t.off m) w.bytes ((natBytes w.bytes (t.rx d).toNat).map some)

/-- One member's part of a VSTL. -/
def vstlMember (t : Task) (off : Nat) (ty : Ty) (mask : SReg) (d : Reg) (p : Nat × Nat × Core) : M Unit := do
  let on := t.byteMask ty mask p.1
  if on.any id then
    localStore p.1 p.2.1 off 64 (((vecBytes (t.rv p.1 d)).zip on).map fun x => if x.2 then some x.1 else none)
  else pure ()

/-- VSTL (07 R212). -/
def execVstl (ty : Ty) (mask : SReg) (d : Reg) (m : MemOp) := runTask fun t => do
  let s ← get
  (membersOf s t).forM (vstlMember t (t.jigged m) ty mask d)

/-! ## Sideband (07 R213) -/

/-- A line's sideband as the task sees it: SB and SBV. -/
def sbView (t : Task) (c : Nat) (k : Core) (off : Nat) : BitVec 32 × Bool :=
  match (t.sluice.reverse.findSome? fun (e : Eff) => match e with
    | .persSb c' o sb v => if c' = c && o = off then some (sb, v) else none
    | _ => none) with
  | some x => x
  | none => ((k.sbLine off).sb, (k.sbLine off).sbv)

/-- One member's part of an LDSB. DEDUCED: log 37. -/
def ldsbMember (s : State) (t : Task) (off : Nat) (p : Nat × Nat × Core) : M (BitVec 32 × Bool) := do
  let _ ← spadCheck p.2.2 p.1 (frameSz s t) off 64 false
  if (p.2.2.sbLine off).poison then throw (.flt { cause := .dataErr, mem := p.1 })
  return sbView t p.2.1 p.2.2 off

/-- LDSB (07 R213). -/
def execLdsb (d : Reg) (m : MemOp) := runTask fun t => do
  let s ← get
  let vals ← (membersOf s t).mapM (ldsbMember s t (t.off m))
  let r := vals.getD t.lead (0, false)
  modTask fun t => t.wx d (r.1.setWidth 64 + (if r.2 then 0x100000000 else 0))

/-- One member's part of an STSB. -/
def stsbMember (s : State) (t : Task) (off : Nat) (sb : BitVec 32) (v : Bool) (p : Nat × Nat × Core) : M Unit := do
  match ← spadCheck p.2.2 p.1 (frameSz s t) off 64 true with
  | .frame => modify fun s => s.onCore p.2.1 fun k => k.setSb off { k.sbLine off with sb, sbv := v }
  | .pers =>
    let t ← getTask
    fits (t.sluice ++ [.persSb p.2.1 off sb v]) (p.2.1 == s.cur) p.2.1 p.1
    hold (.persSb p.2.1 off sb v)

/-- STSB (07 R213). -/
def execStsb (d : Reg) (m : MemOp) := runTask fun t => do
  let s ← get
  (membersOf s t).forM (stsbMember s t (t.off m) ((t.rx d).setWidth 32) ((t.rx d).getLsbD 32))

/-! ## Spill and fill (07 R209) -/

/-- Where a slot of the spill stack lies. -/
inductive Slot where
  | carve (off : Nat)
  | over (va : VAddr)
  deriving DecidableEq, Repr

/-- The start and length of the SPILL carve-out. -/
def Core.spillRegion (k : Core) : Nat × Nat := match k.regionOf 4 with | some g => (regBase g, regLen g) | none => (0, 0)

/-- SpillSlot (07 R209) at stack depth `p`; the trap's DETAIL is SPTR. -/
def spillSlot (k : Core) (m sptr p size : Nat) : M Slot :=
  let bad (c : Cause) (d : Nat) : M Slot := throw (.flt { cause := c, detail := BitVec.ofNat 32 d, mem := m })
  let g := k.spillRegion
  if p % size != 0 then bad .addrAlign 0
  else if p + size ≤ g.2 then return .carve (g.1 + p)
  else if g.2 + k.ovfsize < p + size then bad .spillFull sptr
  else return .over ((k.ovfb + BitVec.ofNat 64 (p - g.2)).setWidth 56)

/-- The final address of an overflow slot of `n` bytes, of member `m`: only a page of ATTR 00 (07 R209); a line that another
agent holds answers with retry (04 R129). DEDUCED: log 81. -/
def overflowPA (k : Core) (m : Nat) (priv : Bool) (kind : AccKind) (va : VAddr) (n : Nat) : M Nat := atMember m do
  let s ← get
  let (p, x) := s.instCtx k.inst
  let y ← translate (some s.cur) 0 p x priv kind false va
  if y.attr != 0 then throw (.flt { cause := .attrAcc, va := va.setWidth 64 })
  if (← get).blocked (s.keys y.pa n) (some s.cur) then throw .retry
  return y.pa

/-- Free bytes (DESIGN CHOICE, log 3). -/
def freeBytes : Nat → M (List Byte)
  | 0 => return []
  | n + 1 => do
    let b ← freeByte
    return b :: (← freeBytes n)

/-- Bytes written to a slot: no sluice, no lease, no D bit (07 R209). What other agents read of an overflow slot is undefined; a
whole line written clears its poison mark (02 R76). DEDUCED: log 81. -/
def slotWrite (c : Nat) (k : Core) (m : Nat) (priv : Bool) (sl : Slot) (bs : List Byte) : M Unit := do
  match sl with
  | .carve off => modify fun s => s.onCore c fun k => k.spWrite off (bs.map some)
  | .over va =>
    let pa ← overflowPA k m priv .store va bs.length
    let shown ← freeBytes bs.length
    modify fun s =>
      let s := (s.keepCode (lineOf pa)).cleanLine pa (bs.map some)
      { s with mem := mwrite s.mem pa shown }.onCore c fun k => { k with ovf := mwrite k.ovf va.toNat bs }

/-- Bytes read from a slot. DEDUCED: logs 37, 81. -/
def slotRead (k : Core) (m : Nat) (priv : Bool) (sl : Slot) (n : Nat) : M (List Byte) := do
  match sl with
  | .carve off =>
    if (k.sbLine off).poison then throw (.flt { cause := .dataErr, mem := m })
    return mread k.spad off n
  | .over va =>
    let pa ← overflowPA k m priv .load va n
    let s ← get
    if s.poisoned (lineOf pa) || s.poisoned (lineOf (pa + n - 1)) then
      throw (.flt { cause := .dataErr, va := va.setWidth 64, mem := m })
    return mread k.ovf va.toNat n

/-- SPILL (07 R209). -/
def execSpill (d : Reg) := runTask fun t => do
  let s ← get
  let c := leaderCore s t
  match s.core? c with
  | none => pure ()
  | some k =>
    slotWrite c k t.lead t.priv (← spillSlot k t.lead t.sptr t.sptr 8) (wordBytes64 (t.rx d))
    modTask fun t => { t with sptr := t.sptr + 8 }

/-- One member's part of a SPILLV. -/
def spillvMember (t : Task) (d : Reg) (p : Nat × Nat × Core) : M Unit := do
  slotWrite p.2.1 p.2.2 p.1 t.priv (← spillSlot p.2.2 p.1 t.sptr t.sptr 64) (vecBytes (t.rv p.1 d))

/-- SPILLV (07 R209): each member spills its own part. -/
def execSpillv (d : Reg) := runTask fun t => do
  let s ← get
  (membersOf s t).forM (spillvMember t d)
  modTask fun t => { t with sptr := t.sptr + 64 }

/-- FILL (07 R209). -/
def execFill (d : Reg) := runTask fun t => do
  need (decide (8 ≤ t.sptr)) .spillEmpty (BitVec.ofNat 32 t.sptr)
  let s ← get
  match s.core? (leaderCore s t) with
  | none => pure ()
  | some k =>
    let bs ← slotRead k t.lead t.priv (← spillSlot k t.lead t.sptr (t.sptr - 8) 8) 8
    modTask fun t => { t.wx d (leWord64 bs) with sptr := t.sptr - 8 }

/-- One member's part of a FILLV. -/
def fillvMember (t : Task) (d : Reg) (p : Nat × Nat × Core) : M Unit := do
  let bs ← slotRead p.2.2 p.1 t.priv (← spillSlot p.2.2 p.1 t.sptr (t.sptr - 64) 64) 64
  modTask fun t => t.wv p.1 d (bytesVec bs)

/-- FILLV (07 R209). -/
def execFillv (d : Reg) := runTask fun t => do
  need (decide (64 ≤ t.sptr)) .spillEmpty (BitVec.ofNat 32 t.sptr)
  let s ← get
  (membersOf s t).forM (fillvMember t d)
  modTask fun t => { t with sptr := t.sptr - 64 }

/-! ## Queue registers (07 R215 to R218) -/

/-- What a queue register is bound to (14 Table 14.1). -/
inductive QBind where
  | payload | unbound | feed (f : Nat) | culv (n : Nat)
  deriving DecidableEq, Repr

/-- The binding of q[a] in the task's handler entry. -/
def qbind (k : Core) (t : Task) (a : SReg) : QBind :=
  if a = 0 then .payload
  else
    let b := entQbind (k.chan t.ch).ent a.toNat
    if b = 0 then .unbound else if b < 16 then .feed b else .culv (b - 16)

/-- A trap whose DETAIL is the queue register's number. -/
def qTrap {α : Type} (c : Cause) (a : SReg) : M α := stop c (a.setWidth 32)

/-- Pushes that the task has made to a feed. DEDUCED: log 38. -/
def pushesTo (t : Task) (f : Nat) : Nat := (t.sluice.filter fun e => match e with | .qpush g _ => g == f | _ => false).length

/-- QPOP and QPEEK (07 R216; 06 R189). A handle in a poisoned line of the ring is not used (02 R76). -/
def queueHead (pop : Bool) (d : Reg) (a : SReg) : Task → M Unit := fun t => do
  let k ← getCore
  match qbind k t a with
  | .payload => match t.q0 with
    | [] => qTrap .qEmpty a
    | w :: l => modTask fun t => { t.wx d w with q0 := if pop then l else t.q0 }
  | .culv n =>
    let cv := k.culvert n
    if cv.filled = 0 then qTrap .qEmpty a
    else if (k.sbLine (k.ringOff n cv.head)).poison then stop .dataErr
    else
      let w := leWord64 (mread k.spad (k.ringOff n cv.head) 8)
      if pop then
        modCore fun k => k.setCulvert n { cv with
          head := (cv.head + 1) % cv.depth, filled := cv.filled - 1, held := cv.held + 1 }
        modTask fun t => { t.wx d w with pops := tput t.pops n (tget t.pops n 0 + 1) }
      else modTask fun t => t.wx d w
  | _ => qTrap .qBind a

def execQpop (d : Reg) (a : SReg) := runTask (queueHead true d a)
def execQpeek (d : Reg) (a : SReg) := runTask (queueHead false d a)

/-- QPUSH (07 R217). DEDUCED: log 38. -/
def execQpush (a : SReg) (b : Reg) := runTask fun t => do
  match qbind (← getCore) t a with
  | .feed f => if pushesTo t f ≥ 16 then qTrap .qOver a else hold (.qpush f (t.rx b))
  | _ => qTrap .qBind a

/-- QCNT (07 R218). DEDUCED: log 38. -/
def execQcnt (d : Reg) (a : SReg) := runTask fun t => do
  let k ← getCore
  match qbind k t a with
  | .payload => modTask fun t => t.wx d (BitVec.ofNat 64 t.q0.length)
  | .feed f => modTask fun t' => t'.wx d (BitVec.ofNat 64 (16 - pushesTo t f))
  | .culv n => do
    noDet
    modTask fun t => t.wx d (BitVec.ofNat 64 (k.culvert n).filled)
  | .unbound => qTrap .qBind a

end Sys2Proof.Machine
end

