-- ==== Sys2Proof/Machine/Scalar.lean ====
section
/-! DEFINITION. Scalar integer, shift, bit-field, immediate and control instructions (spec 08). -/

namespace Sys2Proof.Machine

/-! ## Shapes -/

/-- x[D] = f(x[A], x[B]) (08 R223). -/
def bin (f : Word → Word → Word) (d a b : Reg) : State → Host.Outcome State Fault Refusal :=
  runRegs fun t => t.wx d (f (t.rx a) (t.rx b))
/-- x[D] = f(x[A], x[B], x[C]). -/
def tern (f : Word → Word → Word → Word) (d a b c : Reg) : State → Host.Outcome State Fault Refusal :=
  runRegs fun t => t.wx d (f (t.rx a) (t.rx b) (t.rx c))
/-- x[D] = f(x[A]). -/
def unary (f : Word → Word) (d a : Reg) : State → Host.Outcome State Fault Refusal :=
  runRegs fun t => t.wx d (f (t.rx a))

/-- A W form: the low 32 bits of the operands, the result sign-extended from bit 31 (08 R223). -/
def wForm (f : BitVec 32 → BitVec 32 → BitVec 32) (a b : Word) : Word :=
  (f (a.setWidth 32) (b.setWidth 32)).signExtend 64
/-- 1 or 0. -/
def bit (b : Bool) : Word := if b then 1 else 0

/-! ## Operations (08 Tables 8.1 to 8.5) -/

def opMin (a b : Word) : Word := if a.toInt ≤ b.toInt then a else b
def opMax (a b : Word) : Word := if b.toInt ≤ a.toInt then a else b
def opMinn (a b : Word) : Word := if a.toNat ≤ b.toNat then a else b
def opMaxn (a b : Word) : Word := if b.toNat ≤ a.toNat then a else b

/-- Bits 127 to 64 of an exact product (08 Table 8.2). -/
def hiProd (x y : Int) : Word := BitVec.ofInt 64 (x * y / 2 ^ 64)

/-- DivS of 08 R224: quotient and remainder. -/
def divS {n : Nat} (a b : BitVec n) : BitVec n × BitVec n :=
  if b = 0 then (BitVec.allOnes n, a)
  else (BitVec.ofInt n (a.toInt.tdiv b.toInt), BitVec.ofInt n (a.toInt.tmod b.toInt))
/-- DivN of 08 R224. -/
def divN {n : Nat} (a b : BitVec n) : BitVec n × BitVec n :=
  if b = 0 then (BitVec.allOnes n, a)
  else (BitVec.ofNat n (a.toNat / b.toNat), BitVec.ofNat n (a.toNat % b.toNat))

/-- The shift amount (08 R225). -/
def shiftAmt (n : Nat) (x : Word) (imm : BitVec 32) : Nat := (x.toNat + imm.toNat) % n

/-- CLZ of 64 bits. -/
def clz64 (a : Word) : Nat := (((List.range 64).find? fun i => a.getLsbD (63 - i)).getD 64)
/-- CTZ of 64 bits. -/
def ctz64 (a : Word) : Nat := (((List.range 64).find? fun i => a.getLsbD i).getD 64)
/-- Set bits. -/
def popc64 (a : Word) : Nat := ((List.range 64).filter fun i => a.getLsbD i).length
/-- Bits reversed. -/
def brev64 (a : Word) : Word := a.reverse
/-- Bytes reversed. -/
def bswap64 (a : Word) : Word := leWord64 (wordBytes64 a).reverse

/-- The offset of a bit field (08 R226). -/
def bfOff (x : Word) (io : BitVec 7) : Nat := (x.toNat + io.toNat) % 128
/-- The width of a bit field (08 R226). -/
def bfWid (x : Word) (iw : BitVec 7) : Nat := min ((x.toNat + iw.toNat) % 128) 64

/-- BitField with BFXN and BFX (08 R227). -/
def bitExtract (signed : Bool) (a : Word) (o w : Nat) : Word :=
  if w = 0 ∨ 64 ≤ o then 0
  else
    let n := min (o + w) 64 - o
    let f := a.extractLsb' o n
    if signed then f.signExtend 64 else f.setWidth 64
/-- BitField with BFI (08 R227). -/
def bitInsert (old a : Word) (o w : Nat) : Word :=
  if w = 0 ∨ 64 ≤ o then old else setFld old (min (o + w) 64 - 1) o (fld a (min (o + w) 64 - o - 1) 0)

/-! ## 08 Table 8.1 -/

def execAdd (d a b : Reg) := bin (· + ·) d a b
def execAddw (d a b : Reg) := bin (wForm (· + ·)) d a b
def execSub (d a b : Reg) := bin (· - ·) d a b
def execSubw (d a b : Reg) := bin (wForm (· - ·)) d a b
def execAnd (d a b : Reg) := bin (· &&& ·) d a b
def execOr (d a b : Reg) := bin (· ||| ·) d a b
def execXor (d a b : Reg) := bin (· ^^^ ·) d a b
def execAndn (d a b : Reg) := bin (fun x y => x &&& ~~~y) d a b
def execOrn (d a b : Reg) := bin (fun x y => x ||| ~~~y) d a b
def execXnor (d a b : Reg) := bin (fun x y => ~~~(x ^^^ y)) d a b
def execMin (d a b : Reg) := bin opMin d a b
def execMax (d a b : Reg) := bin opMax d a b
def execMinn (d a b : Reg) := bin opMinn d a b
def execMaxn (d a b : Reg) := bin opMaxn d a b
def execSlt (d a b : Reg) := bin (fun x y => bit (x.toInt < y.toInt)) d a b
def execSltn (d a b : Reg) := bin (fun x y => bit (x.toNat < y.toNat)) d a b
def execSeq (d a b : Reg) := bin (fun x y => bit (x == y)) d a b
def execSne (d a b : Reg) := bin (fun x y => bit (x != y)) d a b
def execSel (d a b c : Reg) := tern (fun x y z => if z = 0 then y else x) d a b c
def execAddco (d a b : Reg) := bin (fun x y => bit (2 ^ 64 ≤ x.toNat + y.toNat)) d a b

/-! ## 08 Table 8.2 -/

def execMul (d a b : Reg) := bin (· * ·) d a b
def execMulw (d a b : Reg) := bin (wForm (· * ·)) d a b
def execMulh (d a b : Reg) := bin (fun x y => hiProd x.toInt y.toInt) d a b
def execMulhn (d a b : Reg) := bin (fun x y => hiProd x.toNat y.toNat) d a b
def execMulhsn (d a b : Reg) := bin (fun x y => hiProd x.toInt y.toNat) d a b
def execDiv (d a b : Reg) := bin (fun x y => (divS x y).1) d a b
def execDivw (d a b : Reg) := bin (wForm fun x y => (divS x y).1) d a b
def execDivn (d a b : Reg) := bin (fun x y => (divN x y).1) d a b
def execDivnw (d a b : Reg) := bin (wForm fun x y => (divN x y).1) d a b
def execRem (d a b : Reg) := bin (fun x y => (divS x y).2) d a b
def execRemw (d a b : Reg) := bin (wForm fun x y => (divS x y).2) d a b
def execRemn (d a b : Reg) := bin (fun x y => (divN x y).2) d a b
def execRemnw (d a b : Reg) := bin (wForm fun x y => (divN x y).2) d a b
def execMadd (d a b c : Reg) := tern (fun x y z => x * y + z) d a b c

/-! ## 08 Table 8.4 -/

def execSll (d a b : Reg) (imm : BitVec 32) := bin (fun x y => x <<< shiftAmt 64 y imm) d a b
def execSllw (d a b : Reg) (imm : BitVec 32) := bin (fun x y => wForm (fun u _ => u <<< shiftAmt 32 y imm) x y) d a b
def execSrl (d a b : Reg) (imm : BitVec 32) := bin (fun x y => x >>> shiftAmt 64 y imm) d a b
def execSrlw (d a b : Reg) (imm : BitVec 32) := bin (fun x y => wForm (fun u _ => u >>> shiftAmt 32 y imm) x y) d a b
def execSra (d a b : Reg) (imm : BitVec 32) := bin (fun x y => x.sshiftRight (shiftAmt 64 y imm)) d a b
def execSraw (d a b : Reg) (imm : BitVec 32) :=
  bin (fun x y => wForm (fun u _ => u.sshiftRight (shiftAmt 32 y imm)) x y) d a b
def execRol (d a b : Reg) (imm : BitVec 32) := bin (fun x y => x.rotateLeft (shiftAmt 64 y imm)) d a b
def execRor (d a b : Reg) (imm : BitVec 32) := bin (fun x y => x.rotateRight (shiftAmt 64 y imm)) d a b
def execClz (d a : Reg) := unary (fun x => BitVec.ofNat 64 (clz64 x)) d a
def execCtz (d a : Reg) := unary (fun x => BitVec.ofNat 64 (ctz64 x)) d a
def execPopc (d a : Reg) := unary (fun x => BitVec.ofNat 64 (popc64 x)) d a
def execBrev (d a : Reg) := unary brev64 d a
def execBswap (d a : Reg) := unary bswap64 d a
def execBfx (d a b c : Reg) (io iw : BitVec 7) := tern (fun x y z => bitExtract true x (bfOff y io) (bfWid z iw)) d a b c
def execBfxn (d a b c : Reg) (io iw : BitVec 7) := tern (fun x y z => bitExtract false x (bfOff y io) (bfWid z iw)) d a b c
/-- BFI reads x[D] as well as writing it (08 R227). -/
def execBfi (d a b c : Reg) (io iw : BitVec 7) :=
  runRegs fun t => t.wx d (bitInsert (t.rx d) (t.rx a) (bfOff (t.rx b) io) (bfWid (t.rx c) iw))

/-! ## 08 Table 8.6 -/

def execAddi (d a : Reg) (imm : Word) := unary (· + imm) d a
def execAndi (d a : Reg) (imm : Word) := unary (· &&& imm) d a
def execOri (d a : Reg) (imm : Word) := unary (· ||| imm) d a
def execXori (d a : Reg) (imm : Word) := unary (· ^^^ imm) d a
def execLi (d : Reg) (imm : Word) := runRegs fun t => t.wx d imm
/-- PCADD: modulo 2^56, bits 63:56 zero. -/
def execPcadd (d : Reg) (imm : Word) := runRegs fun t => t.wx d ((t.pc + imm.setWidth 56).setWidth 64)

/-! ## Control (08 Tables 8.7 and 8.8) -/

/-- The target of a word offset (01 R19). -/
def target (pc : VAddr) (off : BitVec n) : VAddr := pc + (off.signExtend 56 <<< 2)

/-- A compare and branch (08 R229). -/
def branch (c : Word → Word → Bool) (a b : Reg) (off : BitVec 46) : State → Host.Outcome State Fault Refusal :=
  runRegs fun t => if c (t.rx a) (t.rx b) then { t with npc := target t.pc off } else t

def execBeq (a b : Reg) (off : BitVec 46) := branch (· == ·) a b off
def execBne (a b : Reg) (off : BitVec 46) := branch (· != ·) a b off
def execBlt (a b : Reg) (off : BitVec 46) := branch (fun x y => x.toInt < y.toInt) a b off
def execBge (a b : Reg) (off : BitVec 46) := branch (fun x y => y.toInt ≤ x.toInt) a b off
def execBltn (a b : Reg) (off : BitVec 46) := branch (fun x y => x.toNat < y.toNat) a b off
def execBgen (a b : Reg) (off : BitVec 46) := branch (fun x y => y.toNat ≤ x.toNat) a b off
def execBr (off : BitVec 24) := runRegs fun t => { t with npc := target t.pc off }
/-- CALL writes x30 = (PC + 4) mod 2^56 (08 R230). -/
def execCall (off : BitVec 24) := runRegs fun t => { t.wx 30 ((t.pc + 4).setWidth 64) with npc := target t.pc off }

/-- A transfer to a register target (01 R19): PC_ALIGN where its low bits are not zero. -/
def jumpTo (v : Word) : M Unit := do
  need (v.extractLsb' 0 2 == 0) .pcAlign (v.setWidth 32)
  modTask fun t => { t with npc := v.setWidth 56 }

def execJr (a : Reg) := runTask fun t => jumpTo (t.rx a)
/-- JALR reads x[A] before it writes x[D]; the trap comes before the write (08 R231). -/
def execJalr (d a : Reg) := runTask fun t => do
  jumpTo (t.rx a)
  modTask fun t => t.wx d ((t.pc + 4).setWidth 64)
/-- LOOP (08 R232). -/
def execLoop (a : Reg) (off : BitVec 32) := runRegs fun t =>
  if 1 < (t.rx a).toNat then { t.wx a (t.rx a - 1) with npc := target t.pc off } else t.wx a 0

end Sys2Proof.Machine
end

