-- ==== Sys2Proof/Machine/Messages.lean ====
section
/-! DEFINITION. Sends, masks, parking, HTSET and FORK: OP 0x26 and FN 0 of OP 0x27 (spec 14 R335 to R338; 16 R354). -/

namespace Sys2Proof.Machine

/-- Whether an instance's group has a member on another package (24 R458). DESIGN CHOICE: log 18. -/
def Inst.memberOn (n : Inst) (p : Nat) : Bool :=
  match n.group with
  | some (g, cnt, me, _, _) => (List.range cnt).any fun i => i != me && (Config.groupMember g i).1 == p
  | none => false

/-- Which of the sends an instruction is. -/
inductive SendOp where
  | send | sendd | sendv | reply | fork
  deriving DecidableEq, Repr

/-- The header of a REPLY (14 R336): the trigger's sender, the reply channel in x0, generation 0. DEDUCED: log 45. -/
def replyHeader (h x0 : Word) (m : Msg) : Word :=
  setFld (setFld (setFld (setFld h 32 24 m.sPkg) 23 12 m.sCore) 5 0 (fld x0 53 48)) 47 34 0

/-- The checks of SendExec (14 R336) before the queues; what it answers is the header that leaves. -/
def sendCheck (op : SendOp) (h0 : Word) (b : Reg) (delay : Nat) : Task → M Word := fun t => do
  if op = .reply then need (t.trig.kind == .soft) .badMsg
  let h := if op = .reply then replyHeader h0 (t.rx 0) t.trig else h0
  let n := hdrCnt h
  let cls := hdrCls h
  need (cls != 7 && (op != .reply || cls == 4 || cls == 5)) .badMsg
  need (op != .fork || decide (cls < 4)) .badMsg
  need (!(hdrHb h && n == 0)) .badMsg
  let s ← get
  let i ← getInst
  let p := if hdrPkg h = 0x1FF then s.plat.pkgId else hdrPkg h
  need (decide (p ≤ 287)) .badMsg
  let placed := op == .fork && hdrCore h == 0xFFF
  need (p != s.plat.pkgId || placed || decide (hdrCore h < i.nvc)) .badMsg
  need (p == s.plat.pkgId || i.memberOn p) .badMsg
  need (op == .sendv || b == 31 || decide (b.toNat + n ≤ 31)) .badMsg
  need (decide (delay ≤ 2 ^ 20)) .badMsg
  return h

/-- The payload registers (14 R336); register 31 sends zeros. -/
def payload (t : Task) (b : Reg) (n : Nat) : List Word :=
  if b = 31 then List.replicate n 0 else (List.range n).map fun i => t.rx (b + BitVec.ofNat 5 i)
/-- The payload of a vector register. DEDUCED: log 33. -/
def payloadV (t : Task) (b : Reg) (n : Nat) : List Word := (bytesWords 8 (vecBytes (t.rv t.lead b))).take n

/-- The mark that a send folds (13 Table 13.4). -/
def sendMark (h : Word) : Word := BitVec.ofNat 64 (3 * 2 ^ 56 + fld h 23 0)

/-- A send takes its queue entry and its message entry and is held (14 R327, R336). -/
def holdSend (h : Word) (pay : List Word) (delay : Nat) (rel : Option Scope) (jref : Word) (place : Bool) : Task → M Unit :=
  fun t => do
    let s ← get
    let net := network (hdrCls h)
    let sqd := (((s.core? s.cur).map (·.sqd)).getD []).getD net 0
    need (decide (sqUsed s s.cur t.sluice net + 1 ≤ sqd)) .sendqFull (BitVec.ofNat 32 net)
    needMsg t
    let q ← countEff
    hold (.send h pay delay rel jref place q)

/-- No join reference (16 R353). -/
def noJref : Word := BitVec.allOnes 64

/-- A send of a header and a payload. -/
def sendExec (op : SendOp) (rel : Option Scope) (a b : Reg) (delay : Word) : Task → M Unit := fun t => do
  let h ← sendCheck op (t.rx a) b delay.toNat t
  let pay := if op = .sendv then payloadV t b (hdrCnt h) else payload t b (hdrCnt h)
  holdSend h pay delay.toNat rel noJref false t
  fold (sendMark (if op = .reply then setFld h 23 12 0 else h) :: pay)

def execSend (rel : Option Scope) (a b : Reg) := runTask (sendExec .send rel a b 0)
def execSendd (rel : Option Scope) (a b c : Reg) := runTask fun t => sendExec .sendd rel a b (t.rx c) t
def execSendv (rel : Option Scope) (a b : Reg) := runTask (sendExec .sendv rel a b 0)
def execReply (rel : Option Scope) (a b : Reg) := runTask (sendExec .reply rel a b 0)

/-- FORK (16 R354). DEDUCED: log 40. -/
def execFork (rel : Option Scope) (a b c : Reg) := runTask fun t => do
  let h ← sendCheck .fork (t.rx a) b 0 t
  let j := t.rx c
  need (fld j 63 56 == 0 && fld j 47 44 == 0) .badJoin
  let pay := payload t b (hdrCnt h)
  holdSend h pay 0 rel (if j = 0 then noJref else j) (hdrCore h == 0xFFF) t
  fold (sendMark h :: pay)

/-! ## Masks and parking (14 R337), HTSET (14 R338) -/

def execMaskc (a : Reg) := runTask fun t => hold (.maskc ((t.rx a).setWidth 7))
def execUnmaskc (a : Reg) := runTask fun t => hold (.unmaskc ((t.rx a).setWidth 7))
def execPark (a : Reg) := runTask fun t => hold (.park ((t.rx a).setWidth 6))
def execUnpark (a : Reg) := runTask fun t => hold (.unpark ((t.rx a).setWidth 6) false)
def execUnparkDrop (a : Reg) := runTask fun t => hold (.unpark ((t.rx a).setWidth 6) true)

/-- HTSET; the checks in the order of 14 R338. -/
def execHtset (a b : Reg) := runTask fun t => do
  need t.priv .priv
  let sel := (t.rx a).extractLsb' 8 2
  need (sel != 3) .htBad
  if sel = 2 then noDet
  let k ← getCore
  need (entV (k.chan (fld (t.rx a) 5 0)).ent) .htBad
  need (sel != 1 || decide (fld (t.rx b) 14 0 ≤ 16384)) .htBad
  hold (.htset ((t.rx a).setWidth 6) sel (t.rx b))

/-- HTSET's field at commit (14 R338). -/
def htPut (e : BitVec 256) (sel : BitVec 2) (v : Word) : BitVec 256 :=
  match sel.toNat with
  | 0 => setFld e 3 1 (fld v 2 0)
  | 1 => setFld e 62 48 (fld v 14 0)
  | 2 => setFld e 29 16 (fld v 13 0)
  | _ => e

end Sys2Proof.Machine
end

