-- ==== Sys2Proof/Machine/Special.lean ====
section
/-! DEFINITION. RDS and the values of the special registers (spec 21 R430, Tables 21.12 and 21.13; 07 R210; 09 R239; 14 R339; 16 R349; 18
R368). -/

namespace Sys2Proof.Machine

/-! ## Special registers (21 Table 21.12) -/

/-- SENDER (14 Table 14.7): zero for hardware messages. -/
def senderWord (m : Msg) : Word := match m.kind with | .soft => BitVec.ofNat 64 (m.sPkg * 2 ^ 12 + m.sCore) | _ => 0

/-- FQSTAT (21 Table 21.13). -/
def fqstat (x : Ctx) : Word :=
  BitVec.ofNat 64 (x.fqlog % 16 * 2 ^ 60 + x.fqlost % 2 ^ 12 * 2 ^ 48 + x.fqtail % 2 ^ 24 * 2 ^ 24 + x.fqhead % 2 ^ 24)

/-- Bench bits of a die (16 Table 16.3): `f b` for bench `b` of the die, from `lo` on. -/
def benchBits (lo n : Nat) (f : Nat → Bool) : Word :=
  BitVec.ofNat 64 (((List.range n).filter fun j => f (lo + j)).map fun j => 2 ^ j).sum

/-- What an RDS checks (21 Table 21.12): PRIV first, then DET_OP. -/
def rdsPriv (n : Nat) : Bool := n == 0x016 || n == 0x022 || n == 0x028 || n == 0x029
def rdsDet (n : Nat) (stealable : Bool) : Bool :=
  [0x000, 0x003, 0x004, 0x007, 0x008, 0x009, 0x00A, 0x010, 0x011, 0x013, 0x014, 0x016, 0x017, 0x021, 0x022].contains n ||
    (decide (0x030 ≤ n) && decide (n ≤ 0x03C)) || (n == 0x001 && stealable)

/-- The value of a special register (21 Table 21.12 and the tables it names). -/
def sregValue (s : State) (k : Core) (t : Task) (i : Inst) (n : Nat) : Word :=
  let w (x : Nat) : Word := BitVec.ofNat 64 x
  let p := s.part i.part
  let x := (s.ctx? i.part i.ctx).getD { part := i.part, ctx := i.ctx }
  match n with
  | 0x000 => w (k.die * 2 ^ 10 + k.phys)
  | 0x001 => w k.lid
  | 0x002 => w i.nvc
  | 0x003 => w s.plat.pkgId
  | 0x004 => w i.id
  | 0x005 => t.trig.lin.path
  | 0x006 => t.trig.jref
  | 0x007 => w i.stage
  | 0x008 => w p.owner
  | 0x009 => (s.owner p.owner).seed
  | 0x00A => w i.ctx
  | 0x010 => w t.tcyc
  | 0x011 => w s.now
  | 0x012 => w t.tbudget
  | 0x013 => senderWord t.trig
  | 0x014 => w (t.trig.arr % 2 ^ 32)
  | 0x015 => k.clmask.setWidth 64
  | 0x016 => x.lostc
  | 0x017 => x.killc
  | 0x018 => w k.spsize
  | 0x019 => w t.sptr
  | 0x01A => k.ovfb
  | 0x020 => t.fstat.word
  | 0x021 => k.sticky.setWidth 64
  | 0x022 => (dflags s k.die).setWidth 64
  | 0x028 => x.ttbase
  | 0x029 => fqstat x
  | 0x039 => benchBits 0 64 fun j => p.benches.contains (72 * k.die + j)
  | 0x03A => benchBits 64 8 fun j => p.benches.contains (72 * k.die + j)
  | 0x03B => benchBits 0 64 fun j => (s.plat.mxmap.getD k.die 0).getLsbD j
  | 0x03C => benchBits 64 8 fun j => (s.plat.mxmap.getD k.die 0).getLsbD j
  | _ => s.plat.hmap.getD (9 * k.die + (n - 0x030)) 0

/-- RDS (21 R430). DEDUCED: log 40. -/
def execRds (d : Reg) (num : BitVec 12) := runTask fun t => do
  let i ← getInst
  let k ← getCore
  let n := num.toNat
  need (t.priv || !rdsPriv n) .priv
  need (!(i.det && rdsDet n (entSteal (k.chan t.ch).ent))) .detOp
  let s ← get
  modTask fun t => t.wx d (sregValue s k t i n)

end Sys2Proof.Machine
end

