-- ==== Sys2Proof/Machine/VecInt.lean ====
section
/-! DEFINITION. Vector integer arithmetic, compares, mask operations, permutes and reductions: OP 0x16 to 0x18 (spec 09
R246 to R251, R259). -/

namespace Sys2Proof.Machine

/-! ## OP 0x16 (09 Table 9.7) -/

/-- Lane by lane on up to three operands. -/
def vecInt (op : Ty → Word → Word → Word → Word) (sc : Bool) (ty : Ty) (mask : SReg) (d a b c : Reg) :
    State → Host.Outcome State Fault Refusal :=
  runRegs fun t =>
    let w := tyBits ty
    t.mapLanes w mask d fun k i =>
      (op ty (lane w (t.rv k a) i) (t.bLane sc w b k i) (lane w (t.rv k c) i), 0)

/-- An exact signed or unsigned operation, wrapped to the lane. -/
def exactLane (g : Int → Int → Int → Int) (ty : Ty) (x y z : Word) : Word :=
  laneOf (tyBits ty) (g (laneVal ty x) (laneVal ty y) (laneVal ty z))
/-- Clamped to the range of the type (09 R247). -/
def satLane (g : Int → Int → Int) (ty : Ty) (x y _z : Word) : Word :=
  laneOf (tyBits ty) (max (tyLo ty) (min (tyHi ty) (g (laneVal ty x) (laneVal ty y))))
/-- The shift amount of a lane (09 R247). -/
def laneShift (ty : Ty) (y : Word) : Nat := y.toNat % tyBits ty

def execVadd (sc : Bool) (ty : Ty) (mask : SReg) (d a b : Reg) := vecInt (exactLane fun x y _ => x + y) sc ty mask d a b 31
def execVsub (sc : Bool) (ty : Ty) (mask : SReg) (d a b : Reg) := vecInt (exactLane fun x y _ => x - y) sc ty mask d a b 31
def execVadds (sc : Bool) (ty : Ty) (mask : SReg) (d a b : Reg) := vecInt (satLane (· + ·)) sc ty mask d a b 31
def execVsubs (sc : Bool) (ty : Ty) (mask : SReg) (d a b : Reg) := vecInt (satLane (· - ·)) sc ty mask d a b 31
def execVmul (sc : Bool) (ty : Ty) (mask : SReg) (d a b : Reg) := vecInt (exactLane fun x y _ => x * y) sc ty mask d a b 31
def execVmulh (sc : Bool) (ty : Ty) (mask : SReg) (d a b : Reg) :=
  vecInt (fun ty => exactLane (fun x y _ => x * y / (2 ^ tyBits ty : Nat)) ty) sc ty mask d a b 31
def execVmadd (sc : Bool) (ty : Ty) (mask : SReg) (d a b c : Reg) := vecInt (exactLane fun x y z => x * y + z) sc ty mask d a b c
def execVmin (sc : Bool) (ty : Ty) (mask : SReg) (d a b : Reg) := vecInt (exactLane fun x y _ => min x y) sc ty mask d a b 31
def execVmax (sc : Bool) (ty : Ty) (mask : SReg) (d a b : Reg) := vecInt (exactLane fun x y _ => max x y) sc ty mask d a b 31
def execVabs (ty : Ty) (mask : SReg) (d a : Reg) := vecInt (exactLane fun x _ _ => x.natAbs) false ty mask d a 31 31
def execVand (sc : Bool) (ty : Ty) (mask : SReg) (d a b : Reg) := vecInt (fun _ x y _ => x &&& y) sc ty mask d a b 31
def execVor (sc : Bool) (ty : Ty) (mask : SReg) (d a b : Reg) := vecInt (fun _ x y _ => x ||| y) sc ty mask d a b 31
def execVxor (sc : Bool) (ty : Ty) (mask : SReg) (d a b : Reg) := vecInt (fun _ x y _ => x ^^^ y) sc ty mask d a b 31
def execVandn (sc : Bool) (ty : Ty) (mask : SReg) (d a b : Reg) := vecInt (fun _ x y _ => x &&& ~~~y) sc ty mask d a b 31
def execVsll (sc : Bool) (ty : Ty) (mask : SReg) (d a b : Reg) := vecInt (fun ty x y _ => x <<< laneShift ty y) sc ty mask d a b 31
def execVsrl (sc : Bool) (ty : Ty) (mask : SReg) (d a b : Reg) := vecInt (fun ty x y _ => x >>> laneShift ty y) sc ty mask d a b 31
def execVsra (sc : Bool) (ty : Ty) (mask : SReg) (d a b : Reg) :=
  vecInt (fun ty x y _ => laneOf (tyBits ty) (laneInt (tyBits ty) x / (2 ^ laneShift ty y : Nat))) sc ty mask d a b 31

/-! ## OP 0x17 (09 Table 9.8) -/

/-- FCMP, vector and scalar (09 R249). -/
def execFcmp (vec : Bool) (cond : Cond) (ty : Ty) (fzi : Bool) (mask : SReg) (d a b : Reg) :=
  runRegs fun t =>
    let F := tyFmt ty
    let w := tyBits ty
    let z := t.fzi fzi
    if vec then
      t.mapMask w mask (d.setWidth 3) fun k i => F.compare cond z (lane w (t.rv k a) i).toNat (lane w (t.rv k b) i).toNat
    else
      let r := F.compare cond z (t.rx a).toNat (t.rx b).toNat
      (t.wx d (if r.1 then 1 else 0)).orFlags r.2

/-- A condition on integers (09 R248). -/
def intCond (c : Cond) (x y : Int) : Bool :=
  match c with
  | .eq => x == y
  | .ne => x != y
  | .lt => decide (x < y)
  | .le => decide (x ≤ y)
  | .gt => decide (y < x)
  | .ge => decide (y ≤ x)
  | .un | .ord => false

def execIcmp (cond : Cond) (ty : Ty) (mask d : SReg) (a b : Reg) :=
  runRegs fun t =>
    let w := tyBits ty
    t.mapMask w mask d fun k i => (intCond cond (laneVal ty (lane w (t.rv k a) i)) (laneVal ty (lane w (t.rv k b) i)), 0)

/-- A mask operation on every member's own copy (09 R259). -/
def maskOp (op : Word → Word → Word) (d a b : SReg) : State → Host.Outcome State Fault Refusal :=
  runRegs fun t => (List.range t.width).foldl (fun acc k => acc.wm k d (op (t.rm k a) (t.rm k b))) t

def execMand (d a b : SReg) := maskOp (· &&& ·) d a b
def execMor (d a b : SReg) := maskOp (· ||| ·) d a b
def execMxor (d a b : SReg) := maskOp (· ^^^ ·) d a b
def execMandn (d a b : SReg) := maskOp (fun x y => x &&& ~~~y) d a b
def execMnot (d a : SReg) := maskOp (fun x _ => ~~~x) d a a
/-- MSET writes every member's copy (09 R259). -/
def execMset (d : SReg) (a : Reg) :=
  runRegs fun t => (List.range t.width).foldl (fun acc k => acc.wm k d (t.rx a)) t
/-- MGET, MPOPC and MFIRST read the leader's copy (09 R259). -/
def execMget (d : Reg) (a : SReg) := runRegs fun t => t.wx d (t.rm t.lead a)
def execMpopc (d : Reg) (a : SReg) :=
  runRegs fun t => t.wx d (BitVec.ofNat 64 ((List.range 64).filter fun i => (t.rm t.lead a).getLsbD i).length)
def execMfirst (d : Reg) (a : SReg) :=
  runRegs fun t => t.wx d (BitVec.ofNat 64 (((List.range 64).find? fun i => (t.rm t.lead a).getLsbD i).getD 64))

/-! ## OP 0x18: permutes (09 Table 9.9) -/

def execVbcast (ty : Ty) (mask : SReg) (d a : Reg) :=
  runRegs fun t => t.mapLanes (tyBits ty) mask d fun _ _ => (t.rx a, 0)
def execVext (ty : Ty) (d a b : Reg) :=
  runRegs fun t =>
    let w := tyBits ty
    t.wx d (extLane ty ((t.allLanes w a).getD ((t.rx b).toNat % t.laneCount w) 0))
def execVins (ty : Ty) (d a b : Reg) :=
  runRegs fun t =>
    let w := tyBits ty
    let n := (t.rx b).toNat % t.laneCount w
    t.mapLanes w 0 d fun k i => (if 512 / w * k + i = n then t.rx a else lane w (t.rv k d) i, 0)
def execVperm (ty : Ty) (mask : SReg) (d a b c : Reg) :=
  runRegs fun t =>
    let w := tyBits ty
    let l := t.laneCount w
    let src := t.allLanes w a ++ t.allLanes w c
    t.mapLanes w mask d fun k i => (src.getD ((lane w (t.rv k b) i).toNat % (2 * l)) 0, 0)
def execVmov (ty : Ty) (mask : SReg) (d a : Reg) :=
  runRegs fun t => t.mapLanes (tyBits ty) mask d fun k i => (lane (tyBits ty) (t.rv k a) i, 0)

/-! ## OP 0x18: reductions (09 R251) -/

/-- One level of the tree: neighbours combined, an absent one passed over. `e` is the index of the first node. -/
def redLevel {α : Type} (op : α → α → Nat → α × BitVec 5) : Nat → List (Option α) → List (Option α) × BitVec 5
  | e, x :: y :: l =>
    let r := redLevel op (e + 1) l
    match x, y with
    | some a, some b => let c := op a b e; (some c.1 :: r.1, c.2 ||| r.2)
    | some a, none => (some a :: r.1, r.2)
    | none, y => (y :: r.1, r.2)
  | _, l => (l, 0)

/-- The tree over `L` lanes, level by level: node j of a level of n values has index L − n + j. -/
def redTree {α : Type} (op : α → α → Nat → α × BitVec 5) (L : Nat) : Nat → List (Option α) → BitVec 5 → Option α × BitVec 5
  | 0, l, fl => ((l.head?).join, fl)
  | f + 1, l, fl =>
    if l.length ≤ 1 then ((l.head?).join, fl)
    else
      let r := redLevel op (L - l.length) l
      redTree op L f r.1 (fl ||| r.2)

/-- The lanes that take part, over every member, in lane order. -/
def Task.redLanes (t : Task) (w : Nat) (mask : SReg) (a : Reg) : List (Option Word) :=
  (List.range t.width).flatMap fun k => ((lanes w (t.rv k a)).zipIdx).map fun (p : Word × Nat) =>
    if t.on mask k p.2 then some p.1 else none

/-- An integer reduction on extended lanes. -/
def Task.redInt (t : Task) (op : Word → Word → Word) (ident : Word) (ty : Ty) (mask : SReg) (d a : Reg) : Task :=
  let w := tyBits ty
  let l := (t.redLanes w mask a).map (Option.map (extLane ty))
  t.wx d ((redTree (fun x y _ => (op x y, 0)) (t.laneCount w) 10 l 0).1.getD ident)

/-- A float reduction: enabled subnormal lanes are flushed first under FZI. -/
def Task.redFloat (t : Task) (op : Fmt → FEnv → Nat → Nat → Nat × BitVec 5) (ident : Fmt → Nat) (ty : Ty) (f : FMod)
    (d a : Reg) : Task :=
  let F := tyFmt ty
  let w := tyBits ty
  let l := (t.redLanes w f.mask a).map (Option.map fun x => F.flush (t.fzi f.fzi) x.toNat)
  let r := redTree (fun x y e => op F (t.env f e) x y) (t.laneCount w) 10 l 0
  (t.wx d (BitVec.ofNat 64 (r.1.getD (ident F)))).orFlags r.2

def execVradd (ty : Ty) (f : FMod) (d a : Reg) :=
  runRegs fun t =>
    if ty.isInt then t.redInt (· + ·) 0 ty f.mask d a
    else (t.redFloat (fun F v x y => F.add v false x y) (fun _ => 0) ty f d a).count f.rm

/-- The smaller or larger of two extended lanes by a type. -/
def pickInt (ty : Ty) (isMin : Bool) (x y : Word) : Word :=
  let below := if ty.signed then decide (x.toInt ≤ y.toInt) else decide (x.toNat ≤ y.toNat)
  if below == isMin then x else y

def execVrmin (ty : Ty) (fzi : Bool) (mask : SReg) (d a : Reg) :=
  runRegs fun t =>
    if ty.isInt then t.redInt (pickInt ty true) (BitVec.ofInt 64 (tyHi ty)) ty mask d a
    else t.redFloat (fun F v x y => F.minMax v.fzi true x y) (fun F => F.infBits) ty ⟨.rn, fzi, false, mask⟩ d a
def execVrmax (ty : Ty) (fzi : Bool) (mask : SReg) (d a : Reg) :=
  runRegs fun t =>
    if ty.isInt then t.redInt (pickInt ty false) (BitVec.ofInt 64 (tyLo ty)) ty mask d a
    else t.redFloat (fun F v x y => F.minMax v.fzi false x y) (fun F => F.signBit true + F.infBits) ty ⟨.rn, fzi, false, mask⟩ d a

end Sys2Proof.Machine
end

