-- ==== Sys2Proof/Machine/Ahead.lean ====
section
/-! DEFINITION. Run-ahead: the global loads that follow in a task and that do not wait for one before them (spec 02 R66; 19 R385; 01 R38;
04 R132). -/

namespace Sys2Proof.Machine

/-! ## Code ahead (02 R66) -/

/-- What run-ahead finds at an address of the task of core `c`. -/
def Task.ahead (t : Task) (c : Nat) (k : AccKind) (va : Word) : M Xlat := do
  let s ← get
  let (p, x) := s.instCtx (((s.core? c).map (·.inst)).getD 0)
  xlatAhead c p x t.priv k (va.setWidth 56)

/-- One word of code as run-ahead sees it. -/
def Task.wordAhead (t : Task) (c : Nat) (va : VAddr) : M IWord := do
  let x ← t.ahead c .fetch (va.setWidth 64)
  let s ← get
  if x.attr == 2 then throw .abort
  match t.icache.find? fun e => e.1 == lineOf x.pa with
  | some e => return BitVec.ofNat 32 (leNat (((vecBytes e.2).drop (x.pa % 64)).take 4))
  | none =>
    if s.blocked (s.keys x.pa 4) (some c) || (s.keys x.pa 4).any s.poisoned then throw .abort
    return BitVec.ofNat 32 (leNat (mread s.mem x.pa 4))

/-- The instruction at an address as run-ahead sees it, with its length in bytes. -/
def Task.instrAhead (t : Task) (c : Nat) (pc : VAddr) : M (Instr × Nat) := do
  let w ← t.wordAhead c pc
  match plan w with
  | .error _ => throw .abort
  | .ok n =>
    let x ← if n = 1 then pure 0 else t.wordAhead c (pc + 4)
    let y ← if n = 1 then pure 0 else t.wordAhead c (pc + 8)
    match decodeWords w x y with
    | .ok i => return (i, 4 * n)
    | .error _ => throw .abort

/-- A load that run-ahead reaches: its translation, the offsets of the bytes that it wants from its line or page, and whether it acquires
at host scope or wider. -/
structure Ahead where
  x : Xlat
  want : List Nat
  acq : Bool
  deriving DecidableEq, Repr

/-- The load that an instruction is (05 R149): its scalar destination with the extension of its bytes, or its vector destination; its
address operand and acquire; and the offsets of the wanted bytes from an address: for VLD those of every member's lanes that are on. -/
structure LoadForm where
  x : Option (Reg × (Nat → Nat → Word))
  v : Option Reg
  m : MemOp
  acq : Option Scope
  want : List Nat

def Task.loadOf (t : Task) : Instr → Option LoadForm
  | .ld w a d m => some { x := some (d, sextBytes), v := none, m, acq := a, want := List.range w.bytes }
  | .ldz w a d m => some { x := some (d, fun _ v => BitVec.ofNat 64 v), v := none, m, acq := a, want := List.range w.bytes }
  | .vld ty a mask d m => some { x := none, v := some d, m, acq := a, want := (List.range t.width).flatMap fun k =>
      ((List.range 64).filter fun i => (t.byteMask ty mask k).getD i false).map fun i => 64 * k + i }
  | _ => none

/-- Scalar registers, or scalar and vector registers of a code, as run-ahead numbers them; x31 waits for nothing. -/
def xs (rs : List Reg) : List Nat := (rs.filter fun r => r != 31).map fun r => r.toNat
def vs (rs : List Reg) : List Nat := rs.map fun r => 32 + r.toNat
def both (rs : List Reg) : List Nat := xs rs ++ vs rs

/-- An instruction that accesses no global line: the registers that it may read, and its meaning. A vector register and a scalar one of
the same code stand for each other. -/
def Instr.aside : Instr → Option (List Nat × (State → Host.Outcome State Fault Refusal))
  | .add d a b => some (xs [a, b], execAdd d a b)
  | .addw d a b => some (xs [a, b], execAddw d a b)
  | .sub d a b => some (xs [a, b], execSub d a b)
  | .subw d a b => some (xs [a, b], execSubw d a b)
  | .and d a b => some (xs [a, b], execAnd d a b)
  | .or d a b => some (xs [a, b], execOr d a b)
  | .xor d a b => some (xs [a, b], execXor d a b)
  | .andn d a b => some (xs [a, b], execAndn d a b)
  | .orn d a b => some (xs [a, b], execOrn d a b)
  | .xnor d a b => some (xs [a, b], execXnor d a b)
  | .min d a b => some (xs [a, b], execMin d a b)
  | .max d a b => some (xs [a, b], execMax d a b)
  | .minn d a b => some (xs [a, b], execMinn d a b)
  | .maxn d a b => some (xs [a, b], execMaxn d a b)
  | .slt d a b => some (xs [a, b], execSlt d a b)
  | .sltn d a b => some (xs [a, b], execSltn d a b)
  | .seq d a b => some (xs [a, b], execSeq d a b)
  | .sne d a b => some (xs [a, b], execSne d a b)
  | .sel d a b c => some (xs [a, b, c], execSel d a b c)
  | .addco d a b => some (xs [a, b], execAddco d a b)
  | .mul d a b => some (xs [a, b], execMul d a b)
  | .mulw d a b => some (xs [a, b], execMulw d a b)
  | .mulh d a b => some (xs [a, b], execMulh d a b)
  | .mulhn d a b => some (xs [a, b], execMulhn d a b)
  | .mulhsn d a b => some (xs [a, b], execMulhsn d a b)
  | .div d a b => some (xs [a, b], execDiv d a b)
  | .divw d a b => some (xs [a, b], execDivw d a b)
  | .divn d a b => some (xs [a, b], execDivn d a b)
  | .divnw d a b => some (xs [a, b], execDivnw d a b)
  | .rem d a b => some (xs [a, b], execRem d a b)
  | .remw d a b => some (xs [a, b], execRemw d a b)
  | .remn d a b => some (xs [a, b], execRemn d a b)
  | .remnw d a b => some (xs [a, b], execRemnw d a b)
  | .madd d a b c => some (xs [a, b, c], execMadd d a b c)
  | .sll d a b imm => some (xs [a, b], execSll d a b imm)
  | .sllw d a b imm => some (xs [a, b], execSllw d a b imm)
  | .srl d a b imm => some (xs [a, b], execSrl d a b imm)
  | .srlw d a b imm => some (xs [a, b], execSrlw d a b imm)
  | .sra d a b imm => some (xs [a, b], execSra d a b imm)
  | .sraw d a b imm => some (xs [a, b], execSraw d a b imm)
  | .rol d a b imm => some (xs [a, b], execRol d a b imm)
  | .ror d a b imm => some (xs [a, b], execRor d a b imm)
  | .clz d a => some (xs [a], execClz d a)
  | .ctz d a => some (xs [a], execCtz d a)
  | .popc d a => some (xs [a], execPopc d a)
  | .brev d a => some (xs [a], execBrev d a)
  | .bswap d a => some (xs [a], execBswap d a)
  | .bfx d a b c io iw => some (xs [a, b, c], execBfx d a b c io iw)
  | .bfxn d a b c io iw => some (xs [a, b, c], execBfxn d a b c io iw)
  | .bfi d a b c io iw => some (xs [d, a, b, c], execBfi d a b c io iw)
  | .addi d a imm => some (xs [a], execAddi d a imm)
  | .andi d a imm => some (xs [a], execAndi d a imm)
  | .ori d a imm => some (xs [a], execOri d a imm)
  | .xori d a imm => some (xs [a], execXori d a imm)
  | .li d imm => some ([], execLi d imm)
  | .pcadd d imm => some ([], execPcadd d imm)
  | .beq a b off => some (xs [a, b], execBeq a b off)
  | .bne a b off => some (xs [a, b], execBne a b off)
  | .blt a b off => some (xs [a, b], execBlt a b off)
  | .bge a b off => some (xs [a, b], execBge a b off)
  | .bltn a b off => some (xs [a, b], execBltn a b off)
  | .bgen a b off => some (xs [a, b], execBgen a b off)
  | .br off => some ([], execBr off)
  | .call off => some ([], execCall off)
  | .jr a => some (xs [a], execJr a)
  | .jalr d a => some (xs [a], execJalr d a)
  | .loop a off => some (xs [a], execLoop a off)
  | .rds d num => some ([], execRds d num)
  | .fadd vec sc ty f d a b => some (both [d, a, b], execFadd vec sc ty f d a b)
  | .fsub vec sc ty f d a b => some (both [d, a, b], execFsub vec sc ty f d a b)
  | .fmul vec sc ty f d a b => some (both [d, a, b], execFmul vec sc ty f d a b)
  | .fdiv vec sc ty f d a b => some (both [d, a, b], execFdiv vec sc ty f d a b)
  | .fsqrt vec ty f d a => some (both [d, a], execFsqrt vec ty f d a)
  | .fma vec sc ty f d a b c => some (both [d, a, b, c], execFma vec sc ty f d a b c)
  | .fms vec sc ty f d a b c => some (both [d, a, b, c], execFms vec sc ty f d a b c)
  | .fnma vec sc ty f d a b c => some (both [d, a, b, c], execFnma vec sc ty f d a b c)
  | .fnms vec sc ty f d a b c => some (both [d, a, b, c], execFnms vec sc ty f d a b c)
  | .fmin vec sc ty fzi mask d a b => some (both [d, a, b], execFmin vec sc ty fzi mask d a b)
  | .fmax vec sc ty fzi mask d a b => some (both [d, a, b], execFmax vec sc ty fzi mask d a b)
  | .fabs vec ty fzi mask d a => some (both [d, a], execFabs vec ty fzi mask d a)
  | .fneg vec ty fzi mask d a => some (both [d, a], execFneg vec ty fzi mask d a)
  | .fsgnj vec sc ty fzi mask d a b => some (both [d, a, b], execFsgnj vec sc ty fzi mask d a b)
  | .fexp vec ty f d a => some (both [d, a], execFexp vec ty f d a)
  | .fexp2 vec ty f d a => some (both [d, a], execFexp2 vec ty f d a)
  | .flog vec ty f d a => some (both [d, a], execFlog vec ty f d a)
  | .flog2 vec ty f d a => some (both [d, a], execFlog2 vec ty f d a)
  | .frcp vec ty f d a => some (both [d, a], execFrcp vec ty f d a)
  | .frsq vec ty f d a => some (both [d, a], execFrsq vec ty f d a)
  | .fsin vec ty f d a => some (both [d, a], execFsin vec ty f d a)
  | .fcos vec ty f d a => some (both [d, a], execFcos vec ty f d a)
  | .ftanh vec ty f d a => some (both [d, a], execFtanh vec ty f d a)
  | .fsigm vec ty f d a => some (both [d, a], execFsigm vec ty f d a)
  | .ferf vec ty f d a => some (both [d, a], execFerf vec ty f d a)
  | .vadd sc ty mask d a b => some (both [d, a, b], execVadd sc ty mask d a b)
  | .vsub sc ty mask d a b => some (both [d, a, b], execVsub sc ty mask d a b)
  | .vadds sc ty mask d a b => some (both [d, a, b], execVadds sc ty mask d a b)
  | .vsubs sc ty mask d a b => some (both [d, a, b], execVsubs sc ty mask d a b)
  | .vmul sc ty mask d a b => some (both [d, a, b], execVmul sc ty mask d a b)
  | .vmulh sc ty mask d a b => some (both [d, a, b], execVmulh sc ty mask d a b)
  | .vmadd sc ty mask d a b c => some (both [d, a, b, c], execVmadd sc ty mask d a b c)
  | .vmin sc ty mask d a b => some (both [d, a, b], execVmin sc ty mask d a b)
  | .vmax sc ty mask d a b => some (both [d, a, b], execVmax sc ty mask d a b)
  | .vabs ty mask d a => some (both [d, a], execVabs ty mask d a)
  | .vand sc ty mask d a b => some (both [d, a, b], execVand sc ty mask d a b)
  | .vor sc ty mask d a b => some (both [d, a, b], execVor sc ty mask d a b)
  | .vxor sc ty mask d a b => some (both [d, a, b], execVxor sc ty mask d a b)
  | .vandn sc ty mask d a b => some (both [d, a, b], execVandn sc ty mask d a b)
  | .vsll sc ty mask d a b => some (both [d, a, b], execVsll sc ty mask d a b)
  | .vsrl sc ty mask d a b => some (both [d, a, b], execVsrl sc ty mask d a b)
  | .vsra sc ty mask d a b => some (both [d, a, b], execVsra sc ty mask d a b)
  | .fcmp vec cond ty fzi mask d a b => some (both [d, a, b], execFcmp vec cond ty fzi mask d a b)
  | .icmp cond ty mask d a b => some (both [a, b], execIcmp cond ty mask d a b)
  | .mand d a b => some ([], execMand d a b)
  | .mor d a b => some ([], execMor d a b)
  | .mxor d a b => some ([], execMxor d a b)
  | .mandn d a b => some ([], execMandn d a b)
  | .mnot d a => some ([], execMnot d a)
  | .mset d a => some (both [a], execMset d a)
  | .mget d a => some (both [d], execMget d a)
  | .mpopc d a => some (both [d], execMpopc d a)
  | .mfirst d a => some (both [d], execMfirst d a)
  | .vbcast ty mask d a => some (both [d, a], execVbcast ty mask d a)
  | .vext ty d a b => some (both [d, a, b], execVext ty d a b)
  | .vins ty d a b => some (both [d, a, b], execVins ty d a b)
  | .vperm ty mask d a b c => some (both [d, a, b, c], execVperm ty mask d a b c)
  | .vmov ty mask d a => some (both [d, a], execVmov ty mask d a)
  | .vradd ty f d a => some (both [d, a], execVradd ty f d a)
  | .vrmin ty fzi mask d a => some (both [d, a], execVrmin ty fzi mask d a)
  | .vrmax ty fzi mask d a => some (both [d, a], execVrmax ty fzi mask d a)
  | .cvt vec src dst part f d a => some (both [d, a], execCvt vec src dst part f d a)
  | .cvts vec src dst part mask d a => some (both [d, a], execCvts vec src dst part mask d a)
  | .cvtb src dst part mode rm fzi d a c => some (both [d, a, c], execCvtb src dst part mode rm fzi d a c)
  | .cvfb src dst part rm fzo d a c => some (both [d, a, c], execCvfb src dst part rm fzo d a c)
  | .ldl w d m => some (both [d] ++ xs [m.a, m.b], execLdl w d m)
  | .ldlz w d m => some (both [d] ++ xs [m.a, m.b], execLdlz w d m)
  | .vldl ty mask d m => some (both [d] ++ xs [m.a, m.b], execVldl ty mask d m)
  | .stl w d m => some (both [d] ++ xs [m.a, m.b], execStl w d m)
  | .vstl ty mask d m => some (both [d] ++ xs [m.a, m.b], execVstl ty mask d m)
  | .ldsb d m => some (both [d] ++ xs [m.a, m.b], execLdsb d m)
  | .stsb d m => some (both [d] ++ xs [m.a, m.b], execStsb d m)
  | .qpop d a => some (both [d], execQpop d a)
  | .qpush a b => some (both [b], execQpush a b)
  | .qcnt d a => some (both [d], execQcnt d a)
  | .qpeek d a => some (both [d], execQpeek d a)
  | _ => none

/-- The task's own held byte at a final address (04 R115). -/
def forwarded (t : Task) (a : Nat) : Option Byte :=
  t.sluice.reverse.findSome? fun (e : Eff) => match e with
    | .store x _ bs _ => if x.pa ≤ a then (bs[a - x.pa]?).join else none
    | _ => none

/-- A byte of a recorded line, or of the sideband that a scale address describes (03 R109). -/
def recorded (s : State) (es : List ReadEnt) (a : Nat) : Byte :=
  match scaleOf s a with
  | some (d, k) => match es.find? fun e => e.line == d with
    | some e => e.sb.extractLsb' (8 * k) 8
    | none => 0
  | none => match es.find? fun e => e.line == lineOf a with
    | some e => lineByte e.data (a % 64)
    | none => 0

/-- Whether every wanted byte of a load is in the task's sluice or read set, so that it sends no request (19 R385). -/
def Task.hits (t : Task) (s : State) (x : Xlat) (want : List Nat) : Bool :=
  x.attr != 2 && !x.toHost s && want.all fun i =>
    (forwarded t (x.pa + i)).isSome || t.reads.any fun e => e.line == s.keyOf (x.pa + i)

/-- What a task would be after an instruction that accesses no global line; none where it would not go on. -/
def Task.past (t : Task) (s : State) (c : Nat) (run : State → Host.Outcome State Fault Refusal) : Option Task :=
  match run ({ s with cur := c }.setTask t) with
  | .next s' => (s'.core? c).bind Core.task
  | _ => none

/-- A store that run-ahead passes stays in the sluice (05 R153). -/
def Task.storesAhead (t : Task) (s : State) (x : Xlat) (bs : List (Option Byte)) : Task :=
  { t with sluice := t.sluice ++ [.store x (x.attr == 2 || x.toHost s) bs none] }

/-- The store of one register that an instruction is (05 R153): the registers that it reads, its address operand and its bytes. -/
def Task.storeOf (t : Task) : Instr → Option (List Nat × MemOp × List (Option Byte))
  | .st w _ d m => some (xs [d], m, (natBytes w.bytes (t.rx d).toNat).map some)
  | .vst ty _ mask d m => if t.width = 1 then
      some (vs [d], m, ((vecBytes (t.rv 0 d)).zip (t.byteMask ty mask 0)).map fun b => if b.2 then some b.1 else none) else none
  | _ => none

/-- The loads that the task of core `c` reaches in its next `n` instructions, in program order, `t` being what it is by then and `late` the
registers that loads before have still to write: run-ahead ends at an instruction that reads one of those (01 R38; 19 R385), at one that
it cannot pass, and at an access whose translation it cannot have (02 R66). DEDUCED: log 76. -/
def loadsAhead (c : Nat) : Nat → Task → List Nat → M (List Ahead)
  | 0, _, _ => return []
  | n + 1, t, late => fun s =>
    match t.instrAhead c t.pc s with
    | .error _ s => .ok [] s
    | .ok (i, len) s =>
      let t := { t with npc := t.pc + BitVec.ofNat 56 len }
      let waits (rs : List Nat) : Bool := rs.any late.contains
      match t.loadOf i with
      | some l =>
        if waits (xs [l.m.a, l.m.b]) then .ok [] s
        else match t.ahead c .load (t.ea l.m) s with
          | .error _ s => .ok [] s
          | .ok x s =>
            let acq := (l.acq.map scWide).getD false
            if t.hits s x l.want then
              let bs := l.want.map fun i => (forwarded t (x.pa + i)).getD (recorded s t.reads (x.pa + i))
              let t := (l.x.map fun d => t.wx d.1 (d.2 l.want.length (leNat bs))).getD t
              match loadsAhead c n t.step ((l.v.toList.map fun d => 32 + d.toNat) ++ late) s with
              | .ok ls s => .ok ({ x, want := [], acq } :: ls) s
              | .error _ s => .ok [] s
            else
              let one : Ahead := { x, want := l.want.filter fun i => decide (x.pa % 65536 + i < 65536), acq }
              match loadsAhead c n t.step (xs (l.x.toList.map (·.1)) ++ vs l.v.toList ++ late) s with
              | .ok ls s => .ok (one :: ls) s
              | .error _ s => .ok [one] s
      | none => match t.storeOf i with
        | some (rs, m, bs) =>
          if waits (rs ++ xs [m.a, m.b]) then .ok [] s
          else match t.ahead c .store (t.ea m) s with
            | .error _ s => .ok [] s
            | .ok x s => loadsAhead c n (t.storesAhead s x bs).step late s
        | none => match Instr.aside i with
          | none => .ok [] s
          | some (rs, run) =>
            if waits rs then .ok [] s
            else match t.past s c run with
              | none => .ok [] s
              | some t => loadsAhead c n t late s

/-- The next loads of the task of core `c`, from the instruction that it executes, among the 32 instructions from there on; and the machine
after the walks that find them. -/
def Task.nextLoads (t : Task) (c : Nat) (s : State) : List Ahead × State :=
  if t.jig.isSome then ([], s)
  else match loadsAhead c 32 t [] s with
    | .ok ls s => (ls, s)
    | .error _ s => ([], s)

/-- The lines that some loads lease, in program order: those of wanted bytes that the task's own sluice does not hold (19 R385). -/
def Task.leasedBy (t : Task) (s : State) (ls : List Ahead) : List Nat :=
  ls.flatMap fun l => if l.x.attr == 2 || l.x.toHost s then []
    else s.keysAt l.x.pa (l.want.filter fun i => (forwarded t (l.x.pa + i)).isNone)

/-- The lines of host-bias pages that some loads read, up to one that acquires at host scope or wider (04 R132). -/
def hostAhead (s : State) (ls : List Ahead) : List Nat :=
  let n := (ls.takeWhile fun l => !l.acq).length + 1
  (ls.take n).flatMap fun l => if l.x.toHost s then distinct (l.want.map fun i => lineOf (l.x.pa + i)) else []

end Sys2Proof.Machine
end

