-- ==== Sys2Proof/Machine/Global.lean ====
section
/-! DEFINITION. Global loads, stores, atomics, fences: OP 0x1E to 0x21 (spec 05; 04 R114 to R116, R124, R125; 10
R267). -/

namespace Sys2Proof.Machine

/-- 05 R144: a misaligned address traps before translation. DEDUCED: log 22. -/
def aligned (va : Word) (n : Nat) : M Unit := need (va.toNat % n == 0) .addrAlign

/-! ## Leases of the running task -/

/-- The order of locked tasks (04 R125): the tick at which each entered locked mode, then the rank of its physical core, which
follows the dense numbers (04 R120). DEDUCED: log 62. -/
def lockRank (s : State) (c : Nat) : Nat × Nat :=
  match s.core? c with
  | some k => match k.task with
    | some t => (((k.chan t.ch).lockTick).getD 0, k.physId)
    | none => (0, k.physId)
  | none => (0, 0)

/-- 04 R125: a locked task of core `me` that requests a line which a younger locked task holds aborts that task. -/
def State.bumpFor (s : State) (me l : Nat) : State :=
  match (s.line l).hold with
  | .locked c =>
    let mine := lockRank s me
    let other := lockRank s c
    let locked := (((s.core? me).bind Core.task).map (·.locked)).getD false
    if locked && c != me && (decide (mine.1 < other.1) || (mine.1 == other.1 && decide (mine.2 < other.2))) then s.abortTask c
    else s
  | _ => s

/-- The current task requests a line (04 R125). -/
def bump (l : Nat) : M Unit := modify fun s => s.bumpFor s.cur l

/-- A new line comes into the L1 of core `c`: lines that the core has pinned may leave it, which publishes them (04 R130, 07
R198). Which ones leave is the implementation's choice. DESIGN CHOICE: log 87. -/
def State.evictPins (s : State) (c l : Nat) : State :=
  (s.lines.filter fun p => p.1 != l && p.2.hold == .pinned (s.pid c)).foldl (fun s p =>
    let s1 := { s with freeCnt := s.freeCnt + 1 }
    if Config.freeBool s.freeCnt then s1.publish p.1 else s1) s

/-- A line joins the read set of the current task, by a lease (04 R114 to R116); one pinned by this core is in its L1, and is
recorded with r = ∞. A poisoned line traps even where every wanted byte is forwarded. DEDUCED: log 37. -/
def takeLine (l : Nat) (va : VAddr) : M ReadEnt := do
  let t ← getTask
  need (decide (t.reads.length < 512)) .rsetFull
  bump l
  let s ← get
  let x := s.line l
  if s.poisoned l then faultAt .dataErr va
  let data := bytesVec (mread s.mem l 64)
  let sb := (sideband s l).getD 0
  let e : ReadEnt ← if x.hold = .pinned (s.pid s.cur) then pure { line := l, wts := x.wts, r := none, data, sb }
    else do
      let (w, r) ← lease l t.ts s.cur t.locked
      modify fun s => s.evictPins s.cur l
      pure { line := l, wts := w, r := some r, data, sb }
  modTask fun t => { t with reads := t.reads ++ [e] }
  return e

/-- A port serves a request: the line joins the read set of the task that sent it. One that meets a held or poisoned line is sent
again by its load (04 R129). -/
def State.serve (s : State) (r : LineReq) : State :=
  match takeLine r.line 0 { s with cur := r.core } with
  | .ok _ s' => { s' with cur := s.cur }
  | .error _ _ => s

/-- A line request of the task of core `c`. -/
def State.lineReq (s : State) (c : Nat) (t : Task) (l : Nat) : LineReq :=
  { slice := s.servingSlice c l t.ts, core := c, line := l, ts := t.ts }

/-- The requests of the loads that follow are sent too, in program order, for the lines that are neither recorded nor in the core's
L1 by a pin (19 R385). -/
def State.sendAhead (s : State) (c : Nat) (t : Task) : State :=
  let (ls, s) := t.nextLoads c s
  (t.leasedBy s ls).foldl (fun s l =>
    if (t.reads.any fun e => e.line == l) || (s.line l).hold == .pinned (s.pid c) then s else s.sendReq (s.lineReq c t l)) s

/-- A load that misses the L1 sends its line request, or has sent it, the loads that follow send theirs, and a slot passes at the port
of the line's slice, if none has passed there in this cycle. Where the slot goes to another request, that one is served and this load waits
(19 R385, 18 R372). DESIGN CHOICE: log 100. -/
def request (l : Nat) : M Unit := do
  let s ← get
  let t ← getTask
  let r := s.lineReq s.cur t l
  let s := (s.sendReq r).sendAhead s.cur t
  match if s.portBusy r.slice then none else s.portSlot r.slice with
  | none => set s; throw .queued
  | some (w, s1) =>
    if w == r then set s1
    else do
      set (s1.serve w)
      throw .queued

/-- The entry of a line in the read set; a line that is neither there nor in the L1 by a pin is requested and leased
(04 R114 to R116, 19 R385). A load that the task's own sluice serves sends no request (19 R385). -/
def readEnt (l : Nat) (va : VAddr) (hit : Bool := false) : M ReadEnt := do
  let t ← getTask
  match t.reads.find? fun e => e.line == l with
  | some e => return e
  | none => do
    need (decide (t.reads.length < 512)) .rsetFull
    let s ← get
    if (s.line l).hold != .pinned (s.pid s.cur) && !hit then request l
    takeLine l va

/-- ReadGlobal of `n` bytes within one line (05 R149): by lease, from the sluice, or by the host-bias or device
rules. Of a scale range, only the lines that describe the wanted bytes are leased (01 R28, 03 R109). A host-bias load that was
performed ahead of program order takes what it read then (04 R132). -/
def readGlobal (va : Word) (n : Nat) (want : List Nat := List.range n) : M (List Byte) := do
  let t ← getTask
  let x ← taskXlat t .load false va
  devicePriv t x
  let s ← get
  if x.attr == 2 then return cfgLoad s (x.pa % 2 ^ 48) n
  else if x.toHost s then
    match t.early.find? fun e => e.1 == lineOf x.pa with
    | some e =>
      modTask fun t => { t with early := t.early.erase e }
      return ((vecBytes e.2).drop (x.pa % 64)).take n
    | none => atVA x.va.toNat (hostGet (s.pid s.cur) x.pa n)
  else
    let hit (l : Nat) : Bool := want.all fun i => s.keyOf (x.pa + i) != l || (forwarded t (x.pa + i)).isSome
    let es ← (s.keysAt x.pa want).mapM fun l => readEnt l x.va (hit l)
    let s ← get
    return (List.range n).map fun i => (forwarded t (x.pa + i)).getD (recorded s es (x.pa + i))

/-! ## Loads (05 R149 to R152) -/

/-- An acquire at host scope or wider: host-bias loads that follow are performed after it (04 R132, 05 R150). DEDUCED: log 80. -/
def Task.acquire (t : Task) (acq : Option Scope) : Task := if (acq.map scWide).getD false then { t with early := [] } else t

/-- LD and LDZ. -/
def loadGlobal (ext : Nat → Nat → Word) (w : Width) (acq : Option Scope) (d : Reg) (m : MemOp) : Task → M Unit := fun t => do
  let ea := t.ea m
  aligned ea w.bytes
  let bs ← readGlobal ea w.bytes
  modTask fun t => (t.wx d (ext w.bytes (leNat bs))).acquire acq

def execLd (w : Width) (acq : Option Scope) (d : Reg) (m : MemOp) := runTask (loadGlobal sextBytes w acq d m)
def execLdz (w : Width) (acq : Option Scope) (d : Reg) (m : MemOp) :=
  runTask (loadGlobal (fun _ v => BitVec.ofNat 64 v) w acq d m)

/-- The line that a member of a clamp accesses (10 R267). -/
def memberEA (ea : Word) (k : Nat) : Word := ea + BitVec.ofNat 64 (64 * k)

/-- One member's part of a VLD: one whose lanes are all off accesses nothing (05 R144). -/
def vldMember (t : Task) (ea : Word) (ty : Ty) (mask : SReg) (d : Reg) (k : Nat) : M Unit := do
  let on := t.byteMask ty mask k
  if on.any id then
    aligned ea 64
    let bs ← atMember k (readGlobal (memberEA ea k) 64 ((List.range 64).filter fun i => on.getD i false))
    let old := vecBytes (t.rv k d)
    modTask fun t' => t'.wv k d (bytesVec (((bs.zip old).zip on).map fun x => if x.2 then x.1.1 else x.1.2))
  else pure ()

/-- The write times of the lines at which the bytes of an LDV line are ordered. -/
def State.versOf (s : State) (ks : List Nat) : List Nat := ks.map fun l => (s.line l).wts

/-- The version token of those lines (05 R151): VerTok of the line's wts; where several joined data lines hold the bytes, VerTok of
the number under which LDV has entered their write times, and none where it has not. DESIGN CHOICE: log 12. -/
def State.token (s : State) (ks : List Nat) : Option Word :=
  let tok (n : Nat) : Word := Config.verTok s.plat.tokKey (BitVec.ofNat 64 n)
  match ks with
  | [l] => some (tok (s.line l).wts)
  | _ => (s.joinVers.findIdx? fun v => v == s.versOf ks).map fun i => tok (2 ^ 63 + i)

/-- LDV enters the write times of joined lines that have no number yet, so that equal tokens mean equal write times. -/
def State.enterVers (s : State) (ks : List Nat) : State :=
  if (s.token ks).isSome then s else { s with joinVers := s.joinVers ++ [s.versOf ks] }

/-- VLD (05 R149). -/
def execVld (ty : Ty) (acq : Option Scope) (mask : SReg) (d : Reg) (m : MemOp) := runTask fun t => do
  (List.range t.width).forM (vldMember t (t.ea m) ty mask d)
  modTask fun t => t.acquire acq

/-- LDV (05 R145, R151, R160): no lease, no read set, no forwarding; a held line answers with retry. In a clamp it
reads one line, into the leader's part. DESIGN CHOICE: log 12. DEDUCED: logs 33, 36. -/
def execLdv (d c : Reg) (m : MemOp) := runTask fun t => do
  noDet
  let ea := t.ea m
  aligned ea 64
  let x ← taskXlat t .load false ea
  let s ← get
  if x.attr == 2 || x.toHost s then faultAt .attrAcc x.va
  let ks := s.keys x.pa 64
  let own : Hold := if t.locked then .locked s.cur else .free
  ks.forM bump
  let s ← get
  if ks.any fun l => (s.line l).hold != .free && (s.line l).hold != own then throw .retry
  if ks.any s.poisoned then faultAt .dataErr x.va
  modify fun s => s.enterVers ks
  let tok := ((← get).token ks).getD 0
  modTask fun t => (t.wv t.lead d (bytesVec (mread s.mem x.pa 64))).wx c tok

/-- PREF is a hint that a core may ignore (05 R152). -/
def execPref (_l1 : Bool) (_m : MemOp) := runTask fun _ => pure ()

/-! ## Stores (05 R153) -/

/-- The mark of 13 Table 13.4 over an address. -/
def digestMark (tag : Nat) (va : Word) : Word := BitVec.ofNat 64 (tag * 2 ^ 56 + va.toNat % 2 ^ 56)

/-- A store joins the sluice. One to a device page or a page in host bias is never merged (13 Table 13.1). DEDUCED: log 54. -/
def holdStore (t : Task) (va : Word) (bytes : List (Option Byte)) (rel : Option Scope) : M Unit := do
  let x ← taskXlat t .store false va
  devicePriv t x
  let s ← get
  let e : Eff := .store x (x.attr == 2 || x.toHost s) bytes rel
  let t ← getTask
  fits (t.sluice ++ [e]) true s.cur
  hold e

/-- ST. -/
def execSt (w : Width) (rel : Option Scope) (d : Reg) (m : MemOp) := runTask fun t => do
  let ea := t.ea m
  aligned ea w.bytes
  let bs := natBytes w.bytes (t.rx d).toNat
  holdStore t ea (bs.map some) rel
  fold [digestMark 1 ea, BitVec.ofNat 64 (leNat bs)]

/-- One member's part of a VST. The words fold even where every lane is off; such a store holds nothing, so that its release waits
for nothing and publishes nothing: 05 R153 gives it no write and does not name its release. DEDUCED: logs 35, 104. -/
def vstMember (t : Task) (ea : Word) (ty : Ty) (rel : Option Scope) (mask : SReg) (d : Reg) (k : Nat) : M Unit := do
  let on := t.byteMask ty mask k
  let bs := (vecBytes (t.rv k d)).zip on
  if on.any id then
    aligned ea 64
    atMember k (holdStore t (memberEA ea k) (bs.map fun x => if x.2 then some x.1 else none) rel)
  else pure ()
  let lanesOn := ((List.range (64 / ty.bytes)).map fun i => if t.on mask k i then 2 ^ i else 0).sum
  fold (digestMark 1 (memberEA ea k) :: bytesWords 8 (bs.map fun x => if x.2 then x.1 else 0) ++ [BitVec.ofNat 64 lanesOn])

/-- VST. -/
def execVst (ty : Ty) (rel : Option Scope) (mask : SReg) (d : Reg) (m : MemOp) := runTask fun t =>
  (List.range t.width).forM (vstMember t (t.ea m) ty rel mask d)

/-! ## Atomics and the conditional store (05 R154 to R160) -/

/-- FN[8:4] of an atomic (05 Table 5.2). -/
def amoCode : AmoOp → Nat
  | .add => 0 | .and => 1 | .or => 2 | .xor => 3 | .min => 4 | .max => 5 | .swp => 6 | .cas => 7

/-- An atomic is captured and held (05 R154, R155). DEDUCED: log 39. -/
def holdAmo (op : AmoOp) (ty : Ty) (rpl : Bool) (ar : AcqRel) (d a b c : Reg) (imm : BitVec 32) : Task → M Unit := fun t => do
  let float := ty == .f32 || ty == .f64
  if op = .swp || op = .cas || float || rpl then noDet
  let ea := t.eaImm a imm
  aligned ea ty.bytes
  let x ← taskXlat t .atomic true ea
  if x.attr == 2 then faultAt .attrAcc x.va
  let q ← if rpl then countEff else pure t.qn
  let e : Eff := .amo x op ty (t.rx b) (t.rx c) (if rpl then some ((t.rx d).setWidth 6) else none) ar ea q t.pc
  fits (t.sluice ++ [e]) true (← get).cur
  hold e
  fold ([digestMark 2 ea, BitVec.ofNat 64 (amoCode op * 32 + ty.code.toNat), t.rx b] ++ (if op = .cas then [t.rx c] else []))

def execAmoadd (ty : Ty) (rpl _rn : Bool) (ar : AcqRel) (d a b : Reg) (imm : BitVec 32) :=
  runTask (holdAmo .add ty rpl ar d a b 31 imm)
def execAmoand (ty : Ty) (rpl : Bool) (ar : AcqRel) (d a b : Reg) (imm : BitVec 32) :=
  runTask (holdAmo .and ty rpl ar d a b 31 imm)
def execAmoor (ty : Ty) (rpl : Bool) (ar : AcqRel) (d a b : Reg) (imm : BitVec 32) :=
  runTask (holdAmo .or ty rpl ar d a b 31 imm)
def execAmoxor (ty : Ty) (rpl : Bool) (ar : AcqRel) (d a b : Reg) (imm : BitVec 32) :=
  runTask (holdAmo .xor ty rpl ar d a b 31 imm)
def execAmomin (ty : Ty) (rpl : Bool) (ar : AcqRel) (d a b : Reg) (imm : BitVec 32) :=
  runTask (holdAmo .min ty rpl ar d a b 31 imm)
def execAmomax (ty : Ty) (rpl : Bool) (ar : AcqRel) (d a b : Reg) (imm : BitVec 32) :=
  runTask (holdAmo .max ty rpl ar d a b 31 imm)
def execAmoswp (ty : Ty) (rpl : Bool) (ar : AcqRel) (d a b : Reg) (imm : BitVec 32) :=
  runTask (holdAmo .swp ty rpl ar d a b 31 imm)
def execAmocas (ty : Ty) (rpl : Bool) (ar : AcqRel) (d a b c : Reg) (imm : BitVec 32) :=
  runTask (holdAmo .cas ty rpl ar d a b c imm)

/-- CSTORE4 (05 R159). -/
def execCstore4 (sel : BitVec 4) (d a b c : Reg) (imm : BitVec 32) := runTask fun t => do
  noDet
  let ea := t.eaImm a imm
  aligned ea 256
  let x ← taskXlat t .atomic false ea
  if x.attr == 2 then faultAt .attrAcc x.va
  let q ← countEff
  let data := (List.range 4).map fun i => if sel.getLsbD i then t.rv t.lead (b + BitVec.ofNat 5 i) else 0
  let tok := (List.range 4).map fun i => if sel.getLsbD i then t.rx (c + BitVec.ofNat 5 i) else 0
  let e : Eff := .cst x sel data tok ((t.rx d).setWidth 6) q t.pc
  fits (t.sluice ++ [e]) true (← get).cur
  hold e

/-! ## Fences (05 R161, R162) -/

/-- FENCE: its release part is performed at commit; its acquire part orders host-bias loads that follow (04 R132). -/
def execFence (ar : AcqRel) := runTask fun _ => do
  hold (.fence ar)
  modTask fun t => t.acquire (if ar.acq then some ar.scope else none)

/-- PUBL: checked as a load, with no read set. DEDUCED: log 29. -/
def execPubl (a : Reg) (imm : BitVec 32) := runTask fun t => do
  let x ← taskXlat t .load false (t.eaImm a imm)
  devicePriv t x
  let t ← getTask
  fits (t.sluice ++ [.publ x]) true (← get).cur
  hold (.publ x)

end Sys2Proof.Machine
end

