-- ==== Sys2Proof/Machine/CopyCmd.lean ====
section
/-! DEFINITION. Issue of copy-engine commands, monitors and culvert instructions: OP 0x22 and 0x23 (spec 06 R166 to
R168, R175 to R179, R183, R184, R190, R191, R194, R196). -/

namespace Sys2Proof.Machine

/-! ## The descriptor (06 Table 6.1) -/

def dSrc (d : BitVec 512) : Nat := fld d 63 0
def dDst (d : BitVec 512) : Nat := fld d 127 64
def dXlen (d : BitVec 512) : Nat := fld d 151 128
def dY (d : BitVec 512) : Nat := fld d 175 160 + 1
def dZ (d : BitVec 512) : Nat := fld d 191 176 + 1
def dSstrY (d : BitVec 512) : Int := sx32 (fld d 223 192)
def dSstrZ (d : BitVec 512) : Int := sx32 (fld d 255 224)
def dDstrY (d : BitVec 512) : Int := sx32 (fld d 287 256)
def dDstrZ (d : BitVec 512) : Int := sx32 (fld d 319 288)
/-- IDX of a gather or scatter. -/
def dIdx (d : BitVec 512) : Nat := fld d 255 192
/-- NIDX. -/
def dNidx (d : BitVec 512) : Nat := fld d 287 256
def dStamp (d : BitVec 512) : Nat := fld d 383 320
def dStval (d : BitVec 512) : Word := d.extractLsb' 384 64
def dSloc (d : BitVec 512) : Nat := fld d 449 448
def dDloc (d : BitVec 512) : Nat := fld d 451 450
def dOrd (d : BitVec 512) : Bool := d.getLsbD 463
def dCmch (d : BitVec 512) : Nat := fld d 469 464
def dCm (d : BitVec 512) : Bool := d.getLsbD 470
def dCv (d : BitVec 512) : Bool := d.getLsbD 471
def dCnum (d : BitVec 512) : Nat := fld d 475 472
def dCcore (d : BitVec 512) : Nat := fld d 487 476
def dScore (d : BitVec 512) : Nat := fld d 499 488
def dDcore (d : BitVec 512) : Nat := fld d 511 500

/-- The feed that IDX names, where its bit 0 is set (06 R166). -/
def dFeed (d : BitVec 512) : Option Nat := if dIdx d % 2 = 1 then some (dIdx d / 2 % 16) else none

/-- The checks of 06 R167 that concern every form: `gs` says gather or scatter, `depth c n` is the DEPTH of culvert `n`
of logical core `c`. -/
def descOk (gs : Bool) (nvc : Nat) (depth : Nat → Nat → Nat) (d : BitVec 512) : Bool :=
  fld d 462 452 == 0 && fld d 159 152 == 0 && decide (dDloc d ≤ 1) && decide (dSloc d ≤ 1) && dXlen d != 0 &&
  (if gs then
      fld d 191 160 == 0 && dNidx d != 0 && decide (dNidx d ≤ 2 ^ 24) && decide (dXlen d * dNidx d ≤ 2 ^ 32) &&
        (if dIdx d % 2 = 0 then dIdx d % 4 == 0 else decide (dIdx d < 32) && dIdx d / 2 % 16 != 0)
    else decide (dXlen d * dY d * dZ d ≤ 2 ^ 32)) &&
  dStamp d % 8 == 0 &&
  (dDloc d != 1 || decide (dDcore d < nvc)) && (dSloc d != 1 || decide (dScore d < nvc)) &&
  (!dCv d || (decide (dCcore d < nvc) && depth (dCcore d) (dCnum d) != 0))

/-- The further checks of a reduce-copy: multiples of the element size (06 R167). -/
def redcOk (es : Nat) (d : BitVec 512) : Bool :=
  [dSrc d, dDst d, dXlen d, fld d 223 192, fld d 255 224, fld d 287 256, fld d 319 288].all fun v => v % es == 0

/-- DEPTH of a culvert of a logical core of an instance. -/
def State.depth (s : State) (inst c n : Nat) : Nat :=
  (((s.coreOf inst c).bind s.core?).map fun k => (k.culvert n).depth).getD 0

/-- The first word that a command folds (13 Table 13.4). -/
def cmdMark (op fn var : Nat) : Word := BitVec.ofNat 64 (4 * 2 ^ 56 + op * 2 ^ 12 + fn * 2 ^ 3 + var)

/-- The 64-bit words of a vector register. -/
def vecWords (d : VReg) : List Word := bytesWords 8 (vecBytes d)

/-- 06 R179: a credit of the row engine is taken. -/
def takeCredit : M Unit := do
  need (decide ((← getCore).creds ≠ 0)) .engqFull
  modCore fun k => { k with creds := k.creds - 1 }

/-- A copy-engine command is held with its credit, its message entry and its effect number (06 R178, R179). -/
def holdCmd (kind : CKind) (desc : BitVec 512) (ar : AcqRel) : Task → M Unit := fun t => do
  let k ← getCore
  need (decide (k.creds ≠ 0)) .engqFull
  needMsg t
  takeCredit
  let q ← countEff
  hold (.copy { id := 0, kind, desc, ar, inst := k.inst, core := (← get).cur, row := k.row, priv := t.priv, who := issuer k t q })

/-! ## OP 0x22 -/

/-- COPY of a shape (06 R166, R167). DEDUCED: log 33. -/
def copyCmd (var : BitVec 2) (ar : AcqRel) (b : Reg) : Task → M Unit := fun t => do
  let d := t.rv t.lead b
  let n ← getInst
  let s ← get
  need (descOk (var != 0) n.nvc (s.depth n.id) d) .badDesc
  holdCmd (.copy var) d ar t
  fold (cmdMark 0x22 0 var.toNat :: vecWords d)

def execCopy (ar : AcqRel) (b : Reg) := runTask (copyCmd 0 ar b)
def execCopyGath (ar : AcqRel) (b : Reg) := runTask (copyCmd 1 ar b)
def execCopyScat (ar : AcqRel) (b : Reg) := runTask (copyCmd 2 ar b)

/-- REDC (06 R175, R176): RM 000 takes the task's default, and one that rounds stochastically counts once (03 R91).
DEDUCED: logs 32, 52. -/
def execRedc (op : BitVec 3) (ty : Ty) (rm : RM) (fzi fzo : Bool) (ar : AcqRel) (b : Reg) := runTask fun t => do
  let float := [Ty.f16, .bf16, .f32, .f64].contains ty
  if float then noDet
  let d := t.rv t.lead b
  let n ← getInst
  let s ← get
  need (descOk false n.nvc (s.depth n.id) d && redcOk ty.bytes d) .badDesc
  let eff := if rm = .dflt then t.fstat.drm else rm
  holdCmd (.redc op ty eff (float && t.fzi fzi) (float && (fzo || t.fstat.dfzo)) t.sn) d ar t
  if float && op == 0 then modTask fun t => t.count rm
  fold (cmdMark 0x22 1 op.toNat :: vecWords d)

/-- RDB (06 R194). -/
def execRdb (ar : AcqRel) (d a b c : Reg) (imm : BitVec 32) := runTask fun t => do
  let ea := t.eaImm a imm
  let len := (t.rx c).toNat
  need (ea.toNat % 64 == 0 && (t.rx b).toNat % 64 == 0 && len % 64 == 0 && decide (64 ≤ len) && decide (len ≤ 65536)) .badDesc
  holdCmd (.rdb ea (t.rx b).toNat len ((t.rx d).setWidth 6)) 0 ar t
  fold [cmdMark 0x22 2 0, t.rx d, t.rx a, t.rx b, t.rx c]

/-- CRES and CDROP (06 R178, R196). -/
def tagCmd (fn : Nat) (mk : Word → Nat → Eff) (a : Reg) : Task → M Unit := fun t => do
  needMsg t
  let q ← countEff
  hold (mk (t.rx a) q)
  fold [cmdMark 0x22 fn 0, t.rx a]

def execCres (a : Reg) := runTask (tagCmd 3 .cres a)
def execCdrop (a : Reg) := runTask (tagCmd 4 .cdrop a)

/-! ## OP 0x23 -/

/-- Monitors of a core: armed, and held in its sluice (06 R183). -/
def monCount (s : State) (c : Nat) (t : Task) : Nat :=
  (s.mons.filter fun m => m.core == c).length + (t.sluice.filter fun e => match e with | .mon .. => true | _ => false).length

/-- MON (06 R183). -/
def execMon (d a b : Reg) (imm : BitVec 32) := runTask fun t => do
  let ea := t.eaImm a imm
  aligned ea 8
  let x ← taskXlat t .load false ea
  let s ← get
  if x.attr == 2 || x.toHost s then faultAt .attrAcc x.va
  need (decide (monCount s s.cur t < 16)) .monFull
  let q ← countEff
  hold (.mon x ea ((t.rx d).setWidth 6) (t.rx b) q)

/-- MONX (06 R184). -/
def execMonx (d : Reg) := runTask fun t => hold (.monx ((t.rx d).setWidth 6))

/-- CVREL (06 R190). -/
def execCvrel (a : SReg) (b : Reg) := runTask fun t => do
  match qbind (← getCore) t a with
  | .culv n => hold (.cvrel n (t.rx b).toNat)
  | _ => stop .culvBad

/-- CVSTAT (06 R191). -/
def execCvstat (d a : Reg) := runTask fun _ => do
  noDet
  let k ← getCore
  modTask fun t => t.wx d (k.culvert (fld (t.rx a) 3 0)).word

end Sys2Proof.Machine
end

