-- ==== Sys2Proof/Machine/Shadow.lean ====
section
/-! DEFINITION. What precedes or follows a write outside the plain order: the shadow of a checked launch (spec 13 R319),
CXL writes to host memory (02 R70, 04 R132) and writes to peer memory (04 R134). -/

namespace Sys2Proof.Machine

/-- Bytes that an engine stores from a virtual address, line by line; the latest time. -/
def engStoreAll (part ctx : Nat) (priv : Bool) : Nat → Nat → List Byte → Nat → M Nat
  | 0, _, _, t => return t
  | fuel + 1, va, bs, t =>
    if bs.isEmpty then return t
    else do
      let k := min bs.length (64 - va % 64)
      let ct ← engStore part ctx priv va ((bs.take k).map some) t
      engStoreAll part ctx priv fuel (va + k) (bs.drop k) ct

/-- The unit of 64 KiB that holds an address. -/
def unitOf (a : Nat) : Nat := a / 65536 * 65536

/-- The virtual address of entry `j` of the shadow (13 R319). -/
def Inst.shadowAt (n : Inst) (j : Nat) : Nat := n.shbase.toNat + 65600 * j

/-- The unit of an entry that another package stored: word 0 of its header; none where it cannot be read. -/
def shadowName (n : Inst) (j : Nat) : M (Option Nat) := fun s =>
  match engLoad n.part n.ctx true (n.shadowAt j) 8 s.pkgTime s with
  | .ok bs s' => .ok (some (leNat bs)) s'
  | .error (.flt _) s' => .ok none s'
  | .error e s' => .error e s'

/-- Whether the shadow has an entry of a unit. -/
def shadowHas (n : Inst) (u : Nat) : M Bool := do
  if n.shadow.any fun e => e.1 == u then return true
  else (List.range n.shback).anyM fun j => return (← shadowName n j) == some u

/-- The lines of a shadow entry at a virtual address take the marks of the lines `bad` of its unit (02 R76). -/
def State.markShadow (s : State) (n : Inst) (a : Nat) (bad : List Nat) : State :=
  bad.foldl (fun s i => match engXlat n.part n.ctx true .store (a + 64 + 64 * i) false 0 s with
    | .ok x s' => s'.poisonLines [lineOf x.pa]
    | .error _ _ => s) s

/-- Whether an agent is turned away from a line of the 64 KiB unit at `base`, or from a data line whose scale bytes lie there, so that it
can neither read nor write the unit now (04 R129, 03 R109). -/
def State.unitHeld (s : State) (base : Nat) (me : Option Nat) : Bool :=
  let inside (a : Nat) : Bool := decide (base ≤ a) && decide (a < base + 65536)
  s.lines.any fun p => s.holdBlocks p.1 me && (inside p.1 || ((dataWin s p.1).map fun w => inside (scaleAddr w p.1 0)).getD false)

/-- 13 R319: before the first write of a checked launch to a 64 KiB unit, its prior bytes go to the next shadow entry; a unit met once the
shadow is full, or whose entry cannot be written, marks the launch as not re-executable. A line of the unit or of the shadow that another
agent than `me` holds makes the write wait (04 R129). The poison mark of a line is kept with it (02 R76). `u` names the unit, `base` is its
final address. DEDUCED: log 122. -/
def shadowUnit (me : Option Nat) (inst u base : Nat) : M Unit := do
  let s ← get
  match s.inst? inst with
  | none => pure ()
  | some n =>
    if !n.dmode || n.rerun.isSome then pure ()
    else if ← shadowHas n u then pure ()
    else if n.shsize / 65600 ≤ n.shadowed then modify fun s => s.onInst inst fun n => { n with shfull := true }
    else if s.unitHeld base me then throw .retry
    else
      let old := s.mem.filter fun c => decide (base ≤ c.1) && decide (c.1 < base + 65536)
      let at' := n.shadowAt n.shadowed
      let bytes := natBytes 64 u ++ mread s.mem base 65536
      let bad := (List.range 1024).filter fun i => (s.line (base + 64 * i)).poison
      match engStoreAll n.part n.ctx true 1100 at' bytes s.pkgTime s with
      | .ok _ s' => set ((s'.markShadow n at' bad).onInst inst fun n => { n with
          shadow := n.shadow ++ [(u, old.map fun c => (c.1 - base, c.2))], shpoison := n.shpoison ++ bad.map fun i => (u, 64 * i) })
      | .error (.flt _) s' => set (s'.onInst inst fun n => { n with shfull := true })
      | .error _ _ => throw .retry

/-- The shadow before a write through a virtual address (13 R319); pages in host bias and of ATTR 10 are never shadowed. -/
def shadowBefore (me : Option Nat) (inst va pa : Nat) (normal : Bool) : M Unit :=
  if normal then shadowUnit me inst (unitOf (va % 2 ^ 56)) (pa - va % 65536) else pure ()

/-- The shadow before a joined line's sideband is written with its data (03 R110): the unit of the scale address, which the write
reaches through no virtual address, is named by its final address above the virtual ones. DESIGN CHOICE: log 93. -/
def shadowScale (me : Option Nat) (inst a : Nat) : M Unit := shadowUnit me inst (2 ^ 56 + unitOf a) (unitOf a)

/-- The package that a peer address names (02 Table 2.2). -/
def peerPkg (pa : Nat) : Nat := pa / 2 ^ 39 % 2 ^ 9

/-- A write of the command of number `cmd` that leaves for a peer (04 R134, R135): it is pending until it is acknowledged. -/
def State.peerWrite (s : State) (o : Out) (pkg cmd : Nat) : State :=
  { s with out := s.out ++ [o], peerPend := s.peerPend ++ [{ id := s.ackNext, pkg, cmd := some cmd }], ackNext := s.ackNext + 1 }

/-- The destination of pool writes among the packages' numbers (04 R135). DEDUCED: log 30. -/
def poolPkg : Nat := 512

/-- A write to the deep tier where it is a pool that other agents share: it is pending until it is acknowledged (04 R135).
DEDUCED: log 30. -/
def State.poolWrite (s : State) (pa : Nat) (cmd : Option Nat := none) : State :=
  if region s.plat pa == .deep && Config.deepIsPool then
    { s with peerPend := s.peerPend ++ [{ id := s.ackNext, pkg := poolPkg, cmd }], ackNext := s.ackNext + 1 }
  else s

/-- Whether the scope of a release covers a destination (04 Table 4.3): board, pod, then pool and sys. DEDUCED: log 30. -/
def covers (sc : Scope) (mine pkg : Nat) : Bool :=
  match sc with
  | .board => mine / 8 == pkg / 8
  | .pod => pkg != poolPkg
  | .pool | .sys => true
  | _ => false

/-- Whether a release at a scope publishes the core's pins (04 R126). -/
def scPublishes (sc : Scope) : Bool :=
  match sc with
  | .task | .core => false
  | _ => true

end Sys2Proof.Machine
end

