-- ==== Sys2Proof/Machine/Engine.lean ====
section
/-! DEFINITION. The row copy engines and the culverts (spec 06 R168 to R175, R180 to R182, R185 to R189, R193 to R196; 03
R110; 04 R134, R138; 07 R203, R208; 21 R417). -/

namespace Sys2Proof.Machine

/-! ## Where a command stands -/

/-- The rows that hold a bench of a partition, in dense order. -/
def partRows (p : Part) : List Nat := (List.range 36).filter fun r => p.benches.any fun b => b / 8 == r

/-- The lineage of a message that a command produces, of a kind of 16 R350. -/
def Cmd.lin (s : State) (c : Cmd) (kind : Nat) : Lineage :=
  let sch := c.sched.getD 0
  if c.root then
    let n := (s.inst? c.inst).getD { id := 0 }
    rootLin n.pkey (n.ninit + 4 * sch + kind)
  else childLin c.who.path (spawnIndex c.who.q sch kind)

/-- The lineage of a fault message of a command (16 R350). -/
def Cmd.faultLin (s : State) (c : Cmd) : Lineage :=
  let n := c.who.faults % 2 ^ 24
  match c.sched with
  | none => childLin c.who.path (2 ^ 62 + (c.who.q + 1) * 2 ^ 24 + n)
  | some e =>
    let i := 2 ^ 62 + 2 ^ 61 + e * 2 ^ 24 + n
    if c.root then rootLin ((s.inst? c.inst).getD { id := 0 }).pkey i else childLin c.who.path i

/-- Whether two commands belong to one issuing stream (06 R180, R193). -/
def Cmd.sameStream (a b : Cmd) : Bool :=
  a.row == b.row && (match a.sched, b.sched with
    | none, none => a.core == b.core
    | some _, some _ => a.inst == b.inst
    | _, _ => false)

/-- Gather or scatter. -/
def Cmd.gs (c : Cmd) : Bool := match c.kind with | .copy v => v != 0 | _ => false
/-- Whether a command pushes into a culvert. -/
def Cmd.cv (c : Cmd) : Bool := match c.kind with | .rdb .. => false | _ => dCv c.desc
/-- The number of units (06 R170, R171, R194). -/
def Cmd.units (c : Cmd) : Nat :=
  match c.kind with
  | .rdb _ _ len _ => len / 64
  | _ => if c.gs then dNidx c.desc else dY c.desc * dZ c.desc
/-- The feed that a command draws from. -/
def Cmd.drawsFrom (c : Cmd) : Option Nat := if c.gs then dFeed c.desc else none
/-- The words that a command takes from its feed (06 R172). -/
def Cmd.feedNeed (c : Cmd) : Nat := match c.drawsFrom with | some _ => (dNidx c.desc + 1) / 2 | none => 0
/-- The units that a command may move now: those whose feed words it has (06 R172). -/
def Cmd.hi (c : Cmd) : Nat := match c.drawsFrom with | some _ => min c.units (2 * c.feed.length) | none => c.units
/-- Whether a command waits for a word of its feed (06 R172). -/
def Cmd.starved (c : Cmd) : Bool := decide (c.unit < c.units) && decide (c.hi ≤ c.unit)

/-- The index of a unit of a gather or scatter, once it is taken from the feed or read (06 R171, R172). -/
def Cmd.indexAt (c : Cmd) (u : Nat) : Option Nat :=
  match c.drawsFrom with
  | some _ => (c.feed[u / 2]?).map fun w => w.toNat / 2 ^ (32 * (u % 2)) % 2 ^ 32
  | none => (c.lat.find? fun p => p.1 == u).map (·.2)

/-- Destination and source of a unit (06 R170, R171). -/
def Cmd.segAt (c : Cmd) (u : Nat) : Nat × Nat :=
  let d := c.desc
  let i := (c.indexAt u).getD 0
  match c.kind with
  | .copy 1 => (wrap64 (dDst d + u * dXlen d), wrap64 (dSrc d + i * dDstrZ d))
  | .copy 2 => (wrap64 (dDst d + i * dDstrZ d), wrap64 (dSrc d + u * dXlen d))
  | .rdb ea off _ _ => (off + 64 * u, wrap64 (ea.toNat + 64 * u))
  | _ =>
    let z : Int := (u / dY d : Nat)
    let y : Int := (u % dY d : Nat)
    (wrap64 (dDst d + z * dDstrZ d + y * dDstrY d), wrap64 (dSrc d + z * dSstrZ d + y * dSstrY d))
/-- Destination and source of the current unit. -/
def Cmd.seg (c : Cmd) : Nat × Nat := c.segAt c.unit

/-! ## Writes to peers and pools that a release waits for (04 R133, R135) -/

/-- Every command of the package: at its engine, or in the image of a halted context. -/
def State.allCmds (s : State) : List Cmd := s.cmds ++ s.ctxs.flatMap fun x => (x.img.map (·.cmds)).getD []

/-- Whether a command still has payload to write. -/
def Cmd.moving (c : Cmd) : Bool :=
  match c.phase with
  | .queued | .running | .parked _ => true
  | _ => false

/-- The die of the row whose engine runs a command. -/
def Cmd.die (c : Cmd) : Nat := c.row / 9

/-- The core whose pins a command's release publishes, and among whose host writes its own count (06 R181, R193; 04 R133): that of the
task that issued it or released its schedule entry; none for an entry of STAGE 0. -/
def Cmd.releaser (s : State) (c : Cmd) : Option Nat :=
  match c.sched with
  | none => some c.core
  | some _ => if c.root then none else s.coreOf c.inst c.who.lid
/-- The physical core, or agent of its own, for which a command writes to the host (04 R132, R133). -/
def Cmd.hostCore (s : State) (c : Cmd) : Nat := ((c.releaser s).map s.pid).getD (devCore + 1 + c.id)

/-- The host among the destinations of writes. -/
def hostDest : Nat := 513

/-- Where a write of a command to a virtual address would go as its translation stands now: nothing for this package's own memory, the
host, a package or the pool, or `none` where the translation faults or waits. -/
def Cmd.farPkg (s : State) (c : Cmd) (va : Nat) : List (Option Nat) :=
  let (p, x) := s.instCtx c.inst
  match engXlat p x c.priv .store va true c.die s with
  | .ok y _ => match region s.plat y.pa with
    | .peer => [some (peerPkg y.pa)]
    | .deep => if Config.deepIsPool then [some poolPkg] else []
    | _ => if y.toHost s then [some hostDest] else []
  | .error .. => [none]

/-- The same of every page of `n` bytes. -/
def Cmd.farRange (s : State) (c : Cmd) (va n : Nat) : List (Option Nat) :=
  (List.range ((va % 65536 + n + 65535) / 65536)).flatMap fun i => c.farPkg s (max va ((va / 65536 + i) * 65536))

/-- Where a command has still to write in the host, other packages or the pool: its units' destinations, `none` for one of a scatter whose index
it has not read, and its stamp. DEDUCED: log 30. -/
def Cmd.farPkgs (s : State) (c : Cmd) : List (Option Nat) :=
  let unit (u : Nat) : List (Option Nat) := match c.kind with
    | .copy 2 => if (c.indexAt u).isNone then [none] else c.farRange s (c.segAt u).1 (dXlen c.desc)
    | _ => c.farRange s (c.segAt u).1 (dXlen c.desc)
  match c.kind with
  | .rdb .. => []
  | _ =>
    (if c.moving && dDloc c.desc != 1 then ((List.range c.units).drop c.unit).flatMap unit else []) ++
      (if dStamp c.desc = 0 || c.phase == .pushWait || c.phase == .done then [] else c.farPkg s (dStamp c.desc))

/-- Whether the scope of a release covers such a write. One to the host counts for a release by the core for which it is made, `own`; one
whose destination is not known counts for every scope that could cover it. -/
def coversFar (sc : Scope) (mine : Nat) (own : Bool) (g : Option Nat) : Bool :=
  match g with
  | some g => if g = hostDest then own && scWide sc else covers sc mine g
  | none => (own && scWide sc) || (match sc with | .board | .pod | .pool | .sys => true | _ => false)

/-- What a release at a scope waits for (04 R133, R135): the host writes of a physical core or agent, peer and pool writes on their way,
and the commands that `cmds` accepts and that have still to make such writes. DEDUCED: log 30. -/
def State.awaitsOf (s : State) (agent : Nat) (sc : Scope) (cmds : Cmd → Bool) : List Await :=
  (if scWide sc then (s.hostPend.filter fun w => w.core == agent).map fun w => .write w.id else []) ++
    (s.peerPend.filter fun p => covers sc s.plat.pkgId p.pkg).map (fun p => .write p.id) ++
    (s.allCmds.filter fun c => cmds c && (c.farPkgs s).any fun g => coversFar sc s.plat.pkgId (c.hostCore s == agent) g).map
      fun c => .cmd c.ack sc (c.hostCore s == agent)

/-- Those of a release by a core. -/
def State.awaits (s : State) (core : Nat) (sc : Scope) : List Await := s.awaitsOf (s.pid core) sc fun _ => true

/-- Whether something that a release waits for is still to come or not acknowledged yet. -/
def State.outstanding (s : State) (w : Await) : Bool :=
  match w with
  | .write id => s.hostPend.any (fun x => x.id == id) || s.peerPend.any fun x => x.id == id
  | .left id => s.leaving.any fun x => x.id == id
  | .cmd ack sc own =>
    s.peerPend.any (fun p => p.cmd == some ack && covers sc s.plat.pkgId p.pkg) ||
      (own && scWide sc && s.hostPend.any fun x => x.cmd == some ack) ||
      s.allCmds.any fun c => c.ack == ack && (c.farPkgs s).any fun g => coversFar sc s.plat.pkgId own g

/-- Whether anything that a release waits for is outstanding. -/
def State.unacked (s : State) (ws : List Await) : Bool := ws.any s.outstanding

/-! ## Lookups -/

def State.cmd? (s : State) (id : Nat) : Option Cmd := s.cmds.find? fun c => c.id == id
def State.putCmd (s : State) (c : Cmd) : State := { s with cmds := s.cmds.map fun x => if x.id == c.id then c else x }

/-! ## Scratchpads as engines reach them (06 R169, 07 R203, 21 R417) -/

/-- A core as an engine finds it: resident, or in its image; one whose row is held answers with retry. -/
def coreNow (c : Nat) : M Core := fun s =>
  match s.core? c with
  | none => .error .retry s
  | some k =>
    match routeOf s k with
    | .direct => .ok k s
    | .hold | .wait => .error .retry s
    | .image =>
      let (p, x) := s.instCtx k.inst
      match s.ctx? p x with
      | none => .ok k s
      | some y => .ok (((s.loadCore c (recordAddr s y c)).core? c).getD k) s

/-- SpadCheck of an engine: only PERS, against ER or EW. VA of the record is the offset (06 R195). -/
def engSpad (k : Core) (off : Nat) (store : Bool) : M Unit :=
  match k.regionAt off with
  | some g =>
    if regKind g == 2 && (if store then regEw g else regEr g) then pure ()
    else throw (.flt { cause := .spadRange, va := BitVec.ofNat 64 off })
  | none => throw (.flt { cause := .spadRange, va := BitVec.ofNat 64 off })

/-- The core identifier of a logical core of a command's launch. -/
def Cmd.target (s : State) (c : Cmd) (lid : Nat) : Nat := (s.coreOf c.inst lid).getD c.core

/-! ## One line read, one line written -/

/-- What an engine read gives: bytes, sideband with the layout of its window (none for a scratchpad line), the read's
time, and where it lies. -/
structure Got where
  bytes : List Byte
  sb : Option (BitVec 32 × Option (BitVec 4)) := none
  t : Nat
  key : Nat
  deriving DecidableEq, Repr

/-- A peer that refuses an access: REMOTE_FLT carries the peer's cause (06 R195). Whether it does, and which cause, is not the
package's to decide (DESIGN CHOICE, log 17). -/
def peerAnswer : M Unit := fun s =>
  let s' := { s with freeCnt := s.freeCnt + 1 }
  if Config.freeBool s.freeCnt then
    .error (.flt { cause := .remoteFlt, detail := BitVec.ofNat 32 ((Config.freeWord s.freeCnt).toNat % 2 ^ 16) }) s'
  else .ok () s'

/-- A command's translation of a virtual address (06 R168). -/
def Cmd.xlat (c : Cmd) (k : AccKind) (va : Nat) : M Xlat := do
  let (p, x) := (← get).instCtx c.inst
  engXlat p x c.priv k va true c.die

/-- An engine read of `n` bytes within one line at a translation; `ask` says whether a peer may refuse it. DESIGN CHOICE: log 17. -/
def engGetX (c : Cmd) (y : Xlat) (n t : Nat) (ask : Bool := true) : M Got := do
  let s ← get
  match region s.plat y.pa with
  | .peer =>
    if ask then peerAnswer
    modify fun s => { s with out := s.out ++ [.copyRead (peerPkg y.pa) y.pa n] }
    return { bytes := ← freeBytes n, t, key := y.pa }
  | _ =>
    if y.toHost s then return { bytes := ← hostGet (c.hostCore s) y.pa n, t, key := y.pa }
    else
      let w := ((s.keys y.pa n).map fun l => (s.line l).wts).foldl max t
      let bytes ← engRead y.pa n t
      let sb := if n = 64 then (dataWin s y.pa).bind fun d => (sideband s y.pa).map fun b => (b, some d.layout) else none
      return { bytes, sb, t := w, key := y.pa }

/-- An engine read of `n` bytes within one line of a virtual address (06 R168). -/
def engGet (c : Cmd) (va n t : Nat) : M Got := atVA va do engGetX c (← c.xlat .load va) n t

/-- The sideband that moves into a line with its data (03 R110). DEDUCED: log 42. -/
def movedSb (s : State) (pa : Nat) (sb : Option (BitVec 32 × Option (BitVec 4))) : Option (Nat × List Byte) :=
  match dataWin s pa, sb with
  | some w, some (b, lay) =>
    if (lay.getD w.layout) == w.layout then some (scaleAddr w (lineOf pa) 0, natBytes (winPer w) b.toNat) else none
  | _, _ => none

/-- An engine write within one line at a translation of `va`, at a time of at least `t` (06 R168, 03 R110); the time and where
it lies. A line that counts as `whole` takes the sideband of a joined source with it; bytes of it that are not given stand as they are.
DESIGN CHOICE: log 17. -/
def engPutX (c : Cmd) (y : Xlat) (va : Nat) (bytes : List (Option Byte)) (sb : Option (BitVec 32 × Option (BitVec 4))) (t : Nat)
    (ask : Bool := true) (whole : Bool := false) : M (Nat × Nat) := do
  let s ← get
  if region s.plat y.pa == .peer then
    if ask then peerAnswer
    let t ← farDirty y t
    modify fun s => (present bytes).foldl (fun s i =>
      if i != 0 && (present bytes).contains (i - 1) then s
      else
        let run := (bytes.drop i).takeWhile Option.isSome
        s.peerWrite (.copyWrite (peerPkg y.pa) (y.pa + i) (run.map fun b => b.getD 0)) (peerPkg y.pa) c.ack) s
    return (t, y.pa)
  else if y.toHost s then
    let t ← farDirty y t
    modify fun s => s.hostWrite (c.hostCore s) y.pa bytes (some c.ack)
    return (t, y.pa)
  else
    let moved := movedSb s y.pa (if whole then sb else none)
    let bytes := if whole then bytes.zipIdx.map fun b => some (b.1.getD (mget s.mem (y.pa + b.2))) else bytes
    if s.blocked (s.keysM y.pa bytes ++ y.dirtyKeys s) none then throw .retry
    shadowBefore none c.inst va y.pa true
    match moved with
    | some (a, _) => shadowScale none c.inst a
    | none => pure ()
    let ct ← engWriteX y bytes t
    match moved with
    | some (a, b) => modify fun s => s.writeLine a (b.map some) ct
    | none => pure ()
    modify fun s => s.poolWrite y.pa (some c.ack)
    return (ct, y.pa)

/-- An engine write within one line of a virtual address. -/
def engPut (c : Cmd) (va : Nat) (bytes : List (Option Byte)) (sb : Option (BitVec 32 × Option (BitVec 4))) (t : Nat)
    (whole : Bool := false) : M (Nat × Nat) := atVA va do engPutX c (← c.xlat .store va) va bytes sb t true whole

/-- A scratchpad read of an engine within one line; of an absent core it is an arrival (21 R417). DEDUCED: log 42. -/
def spadGet (core off n t : Nat) : M Got := do
  let k ← coreNow core
  engSpad k off false
  let l := k.sbLine off
  if l.poison then throw (.flt { cause := .dataErr, va := BitVec.ofNat 64 off })
  modify fun s => s.countArrival core
  return { bytes := mread k.spad off n, sb := if n = 64 && l.sbv then some (l.sb, none) else none, t, key := spadKey core off }

/-- One word of a scratchpad is written whole (07 R206), with what it does to the line's sideband (07 R208). -/
def State.putPend (s : State) (w : Pend) : State := s.arrive w.core fun k s =>
  let k := k.spEngine w.off w.bytes
  s.setCore w.core (match w.sb with
    | some (some b) => k.setSb w.off { k.sbLine w.off with sb := b, sbv := true, poison := false }
    | some none => if (k.sbLine w.off).sbv || (k.sbLine w.off).poison
        then k.setSb w.off { k.sbLine w.off with sbv := false, poison := false } else k
    | none => k)

/-- The words of a write within one line of a scratchpad. One that counts as `whole`, or fills the line, takes the sideband of a joined
source, or clears the line's, with its last word (07 R208). -/
def spadWords (core off : Nat) (bytes : List (Option Byte)) (sb : Option (BitVec 32 × Option (BitVec 4)))
    (whole : Bool := false) : List Pend :=
  let whole := whole || (off % 64 = 0 && bytes.length = 64 && bytes.all Option.isSome)
  let n := (off + bytes.length + 7) / 8 - off / 8
  ((List.range n).map fun i =>
    let a := max off ((off / 8 + i) * 8)
    let e := min (off + bytes.length) ((off / 8 + i + 1) * 8)
    ({ core, off := a, bytes := (bytes.drop (a - off)).take (e - a),
       sb := if whole && i + 1 = n then some (sb.map (·.1)) else none } : Pend)).filter fun w => w.bytes.any Option.isSome || w.sb.isSome

/-- A scratchpad write of an engine within one line: where it lies, and its words. They are written one by one, in any order, so a task
of the core may see any mix of them (04 R140). One for a context that has left the package is lost (21 R425). -/
def spadPut (core off : Nat) (bytes : List (Option Byte)) (sb : Option (BitVec 32 × Option (BitVec 4))) (whole : Bool := false) :
    M (Nat × List Pend) := do
  let k ← coreNow core
  engSpad k off true
  if (← get).goneFor core then
    modify fun s => s.lose (s.instCtx k.inst)
    return (spadKey core off, [])
  else
    modify fun s => s.countArrival core
    return (spadKey core off, spadWords core off bytes sb whole)

/-- Some words reach their scratchpads; the time of those that reach one in an image (04 R142), 0 where none does. -/
def flushPend (ws : List Pend) : M Nat := fun s =>
  let s' := ws.foldl State.putPend s
  .ok (if ws.any fun w => ((s.core? w.core).map (inImage s)).getD false then s'.pkgTime else 0) s'

/-- Whether two words are one word of a scratchpad. -/
def Pend.same (a b : Pend) : Bool := a.core == b.core && a.off / 8 == b.off / 8

/-- Words join those that a command has still to write; one of them that waits for the same word of a scratchpad is written first. -/
def Cmd.keepWords (c : Cmd) (ws : List Pend) : M Cmd := do
  let old (w : Pend) : Bool := ws.any w.same
  let t ← flushPend (c.buf.filter old)
  return { c with buf := (c.buf.filter fun w => !old w) ++ ws, last := max c.last t }

/-- The reads of `n` bytes of a command's source side, line by line. -/
def Cmd.rdAll (c : Cmd) (loc core : Nat) : Nat → Nat → Nat → M (List Got)
  | 0, _, _ => return []
  | fuel + 1, a, n =>
    if n = 0 then return []
    else do
      let k := min n (64 - a % 64)
      let g ← if loc = 1 then spadGet (c.target (← get) core) a k (c.ct + 1) else engGet c a k (c.ct + 1)
      let r ← c.rdAll loc core fuel ((a + k) % 2 ^ 64) (n - k)
      return g :: r

/-- Where a write of a command's destination side would lie. -/
def Cmd.wrKey (c : Cmd) (loc core a : Nat) : M Nat := do
  if loc = 1 then return spadKey (c.target (← get) core) a
  else atVA a do return (← c.xlat .store a).pa

/-- A write of a command's destination side within one line: the command with the words that it has still to write, and the time. `whole`
says that the line takes the source's sideband, or loses its own, as one that is written whole. -/
def Cmd.wr (c : Cmd) (loc core a : Nat) (bytes : List (Option Byte)) (sb : Option (BitVec 32 × Option (BitVec 4))) (t : Nat)
    (whole : Bool) : M (Cmd × Nat) := do
  if loc = 1 then
    let (_, ws) ← spadPut (c.target (← get) core) a bytes sb whole
    return (← c.keepWords ws, t)
  else
    let (t, _) ← engPut c a bytes sb t whole
    return (c, t)

/-! ## Overlap (06 R173) -/

def inAny (a : Nat) (ms : List (Nat × Nat)) : Bool := ms.any fun m => decide (m.1 ≤ a) && decide (a < m.1 + m.2)

/-- The destination bytes whose value is undefined: a byte that the command both reads, as payload or as an index, and writes, and
every byte written from one. DESIGN CHOICE: log 43. -/
def overlapped (ms : List (Nat × Nat × Nat)) (idx : List (Nat × Nat)) : List Nat :=
  let dsts := ms.map fun m => (m.1, m.2.2)
  let srcs := (ms.map fun m => (m.2.1, m.2.2)) ++ idx
  ms.flatMap fun m => (List.range m.2.2).filterMap fun i =>
    if inAny (m.2.1 + i) dsts || inAny (m.1 + i) srcs then some (m.1 + i) else none

/-- The map entry of a partition through which a final address is reached, for the dirty bitmap (02 R68). -/
def mapOver (s : State) (part pa : Nat) : Nat :=
  (((s.part part).pmap.find? fun p => p.2.v && decide (p.2.hbase ≤ pa) && decide (pa < p.2.hbase + p.2.limit)).map (·.1)).getD 64

/-- One byte that a command of a partition has written takes a free value where it lies, by a write like any of its own; the byte of
another package is that package's. DESIGN CHOICE: log 43. -/
def freeAt (part key t : Nat) : M Nat := do
  let b ← freeByte
  let s ← get
  if 2 ^ 60 ≤ key then
    let core := key / 2 ^ 60 - 1
    modify fun s => s.arrive core fun k s => s.setCore core (k.spEngine (key % 2 ^ 60) [some b])
    return t
  else if region s.plat key == .peer then return t
  else if hostBias s part key then
    modify fun s => s.hostWrite devCore key [some b]
    return t
  else engWriteX { va := 0, pa := key, attr := 0, mapi := mapOver s part key, lead := 0, dseen := true, part } [some b] t

/-- The moves after one more, joined to the last where it goes on from it. -/
def addMove (ms : List (Nat × Nat × Nat)) (d s n : Nat) : List (Nat × Nat × Nat) :=
  match ms.getLast? with
  | some (d', s', n') => if d' + n' = d && s' + n' = s then ms.dropLast ++ [(d', s', n' + n)] else ms ++ [(d, s, n)]
  | none => [(d, s, n)]

/-- Bytes moved are recorded, and those that overlap take free values. DESIGN CHOICE: log 43. -/
def Cmd.moved (c : Cmd) (d s n t : Nat) : M Cmd := do
  let part := ((← get).instCtx c.inst).1
  let ms := addMove c.moves d s n
  let meets := (ms.any fun m =>
    (decide (m.1 < s + n) && decide (s < m.1 + m.2.2)) || (decide (m.2.1 < d + n) && decide (d < m.2.1 + m.2.2))) ||
    c.idx.any fun i => decide (i.1 < d + n) && decide (d < i.1 + i.2)
  let t ← if meets then pure (max t (← flushPend c.buf)) else pure t
  let t ← if meets then (overlapped ms c.idx).foldlM (fun t a => freeAt part a t) t else pure t
  return { c with moves := ms, last := max c.last t, buf := if meets then [] else c.buf }

/-- The bytes of some source parts, each with the place it was read from, are recorded as moved to `d` on. -/
def Cmd.movedParts (t : Nat) : List (Nat × List Byte) → Nat → Cmd → M Cmd
  | [], _, c => return c
  | (key, bs) :: ps, d, c => do
    let c ← c.moved d key bs.length t
    Cmd.movedParts t ps (d + bs.length) c

/-! ## A unit's progress -/

/-- A free choice among `n` numbers; none is drawn where there is one. DESIGN CHOICE: log 3. -/
def pick (n : Nat) : M Nat := fun s =>
  if n ≤ 1 then .ok 0 s else .ok ((Config.freeWord s.freeCnt).toNat % n) { s with freeCnt := s.freeCnt + 1 }

/-- The index of a unit is read before the unit (06 R171); a byte of it that the command has written is undefined (06 R173).
DEDUCED: log 41. DESIGN CHOICE: log 43. -/
def Cmd.latch (c : Cmd) (u : Nat) : M Cmd := do
  if !c.gs || (c.indexAt u).isSome then return c
  else
    let part := ((← get).instCtx c.inst).1
    let get4 := engGet c (wrap64 (dIdx c.desc + 4 * u)) 4 (c.ct + 1)
    let g ← get4
    let idx := c.idx ++ [(g.key, 4)]
    let bad := (List.range 4).filter fun i => inAny (g.key + i) (c.moves.map fun m => (m.1, m.2.2))
    let t ← if bad.isEmpty then pure g.t else (overlapped c.moves idx).foldlM (fun t a => freeAt part a t) g.t
    let g ← if bad.isEmpty then pure g else get4
    return { c with lat := c.lat ++ [(u, leNat g.bytes)], idx, last := max c.last (max t g.t) }

/-- The bytes of a unit (06 R170, R194). -/
def Cmd.unitLen (c : Cmd) : Nat := match c.kind with | .rdb .. => 64 | _ => dXlen c.desc
/-- The pieces of a unit: one for each line of its destination. -/
def Cmd.pieces (c : Cmd) (u : Nat) : Nat := ((c.segAt u).1 % 64 + c.unitLen + 63) / 64
/-- Offset and length of a piece of a unit. -/
def Cmd.pieceAt (c : Cmd) (u i : Nat) : Nat × Nat :=
  let dst := (c.segAt u).1
  let o := if i = 0 then 0 else 64 * i - dst % 64
  (o, min (c.unitLen - o) (64 - (dst + o) % 64))
/-- The pieces of a unit that are still to be written. -/
def Cmd.left (c : Cmd) (u : Nat) : List Nat :=
  (List.range (c.pieces u)).filter fun i => !c.ahead.any fun p => p.1 == u && p.2.1 == i

/-- The cursor passes the units that are wholly written. -/
def Cmd.settle : Nat → Cmd → Cmd
  | 0, c => c
  | n + 1, c =>
    if c.unit < c.units && !(c.ahead.all fun p => p.1 != c.unit) && (c.left c.unit).isEmpty then
      Cmd.settle n { c with
        unit := c.unit + 1, ahead := c.ahead.filter fun p => p.1 != c.unit, lat := c.lat.filter fun p => p.1 != c.unit
        sbDone := c.sbDone.filter fun p => p.1 != c.unit }
    else c

/-- The two source lines of a piece: address and length of each; the second is empty where one line holds it all. -/
def Cmd.srcLines (c : Cmd) (u i : Nat) : (Nat × Nat) × (Nat × Nat) :=
  let (o, k) := c.pieceAt u i
  let a := ((c.segAt u).2 + o) % 2 ^ 64
  let n := min k (64 - a % 64)
  ((a, n), ((a + n) % 2 ^ 64, k - n))

/-- A source line of a piece that is read already. -/
def Cmd.held (c : Cmd) (u i j : Nat) : Option HalfLine := c.half.find? fun h => h.unit == u && h.piece == i && h.line == j

/-- The source lines of a piece that are still to be read. -/
def Cmd.unread (c : Cmd) (u i : Nat) : List Nat :=
  (if (c.srcLines u i).2.2 = 0 then [0] else [0, 1]).filter fun j => (c.held u i j).isNone

/-- The source lines of a piece, read: those that were read before, and the others now (04 R138). -/
def Cmd.readPiece (c : Cmd) (u i : Nat) : M (List Got) := do
  let d := c.desc
  let one (j : Nat) (r : Nat × Nat) : M (List Got) := do
    match c.held u i j with
    | some h => return [{ bytes := h.bytes, sb := h.sb, t := 0, key := h.key }]
    | none => c.rdAll (dSloc d) (dScore d) 1 r.1 r.2
  let (r0, r1) := c.srcLines u i
  let a ← one 0 r0
  let b ← if r1.2 = 0 then pure [] else one 1 r1
  return a ++ b

/-- The faults of a piece of a unit, without its write. -/
def Cmd.tryPiece (c : Cmd) (u i : Nat) : M Unit := do
  let _ ← c.readPiece u i
  let _ ← c.wrKey (dDloc c.desc) (dDcore c.desc) (((c.segAt u).1 + (c.pieceAt u i).1) % 2 ^ 64)

/-- The fault of a line of a unit: that of the first line of the unit that is still to be written and faults (23 Table 23.9). -/
def firstFault (c : Cmd) (u i : Nat) (m : M Cmd) : M Cmd := fun s =>
  match m s with
  | .error (.flt f) s' =>
    match (c.left u).findSome? fun j => if i ≤ j then none else match c.tryPiece u j s with
      | .error (.flt f) s => some (f, s)
      | _ => none with
    | some (f, s) => .error (.flt f) s
    | none => .error (.flt f) s'
  | r => r

/-- Bytes for a place, without those that a later unit has written there already. -/
def Cmd.unlessLater (c : Cmd) (u key : Nat) (bs : List Byte) : List (Option Byte) :=
  let later (a : Nat) : Bool := c.ahead.any fun p => decide (u < p.1) && decide (p.2.2.1 ≤ a) && decide (a < p.2.2.1 + p.2.2.2)
  bs.zipIdx.map fun b => if later (key + b.2) then none else some b.1

/-- One line of a copy is written, from one source line or two: those that are not read yet are read, and the line is written once (04 R138,
06 R174). A byte that a later unit has written already keeps that value, and so does the sideband that one has settled: a line that the
unit moves whole takes its sideband also where a later unit has written some of its bytes (03 R110, 06 R173). A scratchpad line that two
source lines fill takes the sideband of neither. DEDUCED: log 42. -/
def copyPiece (c : Cmd) (u i : Nat) : M Cmd := do
  let d := c.desc
  let (o, k) := c.pieceAt u i
  let dst := ((c.segAt u).1 + o) % 2 ^ 64
  let gs ← c.readPiece u i
  let c := { c with half := c.half.filter fun h => h.unit != u || h.piece != i }
  let t := gs.foldl (fun t g => max t g.t) (c.ct + 1)
  let key ← c.wrKey (dDloc d) (dDcore d) dst
  let bytes := c.unlessLater u key (gs.flatMap fun g => g.bytes)
  let sb := match gs with | [g] => g.sb | _ => none
  let settles := k = 64 && key % 64 = 0 && (dDloc d = 1 || (movedSb (← get) key sb).isSome)
  let whole := k = 64 && key % 64 = 0 && !c.sbDone.any fun p => decide (u < p.1) && p.2 == key
  let (c, t) ← if bytes.all Option.isNone && !(whole && settles) then pure (c, t) else c.wr (dDloc d) (dDcore d) dst bytes sb t whole
  let c := { c with sbDone := if settles then c.sbDone ++ [(u, key)] else c.sbDone }
  let c ← Cmd.movedParts t (gs.map fun g => (g.key, g.bytes)) key { c with ahead := c.ahead ++ [(u, i, key, k)], last := max c.last t }
  return c.settle (c.ahead.length + 1)

/-- One of the source lines of a piece is read before the piece is written (04 R138). -/
def copyHalf (c : Cmd) (u i j : Nat) : M Cmd := do
  let (r0, r1) := c.srcLines u i
  let r := if j = 0 then r0 else r1
  let gs ← c.rdAll (dSloc c.desc) (dScore c.desc) 1 r.1 r.2
  return { c with half := c.half ++ gs.map fun g => ({ unit := u, piece := i, line := j, key := g.key, bytes := g.bytes, sb := g.sb } : HalfLine)
                  last := gs.foldl (fun t g => max t g.t) c.last }

/-- One line of a copy: any unit that may move, and any line of it that is still to be written (06 R173). The line is written, or one of
the source lines that it comes from is read ahead of that; the index of a unit may be read by itself too (06 R171, 04 R138). -/
def copyLine (c : Cmd) : M Cmd := do
  let u0 := c.unit + (← pick (c.hi - c.unit))
  let known (u : Nat) : Bool := !c.gs || (c.indexAt u).isSome
  let u := if known u0 && (c.left u0).isEmpty then c.unit else u0
  if !known u && (← pick 2) = 1 then c.latch u
  else
    let c ← c.latch u
    let ls := c.left u
    let i := ls.getD (← pick ls.length) 0
    let js := c.unread u i
    let j ← pick (js.length + 1)
    firstFault c u i (match js[j]? with
      | some j => copyHalf c u i j
      | none => copyPiece c u i)

/-- Table 6.2 on one element. -/
def redcOp (op : BitVec 3) (ty : Ty) (v : FEnv) (old src : Nat) : Nat :=
  let w := tyBits ty
  let o : Word := BitVec.ofNat 64 old
  let x : Word := BitVec.ofNat 64 src
  let pick (small : Bool) : Nat := if (decide (laneVal ty o ≤ laneVal ty x)) == small then old else src
  if [Ty.f16, .bf16, .f32, .f64].contains ty then
    let F := tyFmt ty
    match op.toNat with
    | 0 => (F.add v false old src).1
    | 1 => (F.minMax v.fzi true old src).1
    | _ => (F.minMax v.fzi false old src).1
  else
    match op.toNat with
    | 0 => (old + src) % 2 ^ w
    | 1 => pick true
    | 2 => if laneVal ty o = laneVal ty x then old else pick false
    | 3 => old &&& src
    | 4 => old ||| src
    | _ => old ^^^ src

/-- The combined bytes of a segment; `e` is the index of its first element (06 R175). -/
def redcBytes (c : Cmd) (op : BitVec 3) (ty : Ty) (rm : RM) (fzi fzo : Bool) (n e : Nat) (old src : List Byte) : List Byte :=
  let es := ty.bytes
  let md := rmMode rm .rn
  (List.range (old.length / es)).flatMap fun i =>
    let at' (l : List Byte) : Nat := leNat ((l.drop (es * i)).take es)
    let draw := if md = .st then
      (gGen c.who.path (BitVec.ofNat 64 (n % 2 ^ 24 * 2 ^ 40 + (e + i) % 2 ^ 40))).toNat / 2 ^ 40 else 0
    natBytes es (redcOp op ty { md, fzi, fzo, draw } (at' old) (at' src))

/-- The bytes of some parts from an offset on, at most `n`, with the places that they were read from. -/
def sliceParts : List (Nat × List Byte) → Nat → Nat → List (Nat × List Byte)
  | [], _, _ => []
  | (key, bs) :: ps, o, n =>
    if bs.length ≤ o then sliceParts ps (o - bs.length) n
    else
      let b := (bs.drop o).take n
      (key + o, b) :: (if n ≤ b.length then [] else sliceParts ps 0 (n - b.length))

/-- A destination line of a reduce-copy before its unit starts: every check of its read and of its write, and its translation. -/
def Cmd.redcCheck (c : Cmd) (dst k : Nat) : M (List Xlat) := do
  let d := c.desc
  if dDloc d = 1 then
    let x ← coreNow (c.target (← get) (dDcore d))
    engSpad x dst false
    engSpad x dst true
    if (x.sbLine dst).poison then throw (.flt { cause := .dataErr, va := BitVec.ofNat 64 dst })
    return []
  else atVA dst do
    let _ ← c.xlat .load dst
    let y ← c.xlat .store dst
    let s ← get
    if region s.plat y.pa == .peer then peerAnswer
    else if (s.keys y.pa k).any s.poisoned then stop .dataErr
    return [y]

/-- The bytes of a reduce-copy's unit that are read already. -/
def Cmd.srcLen (c : Cmd) : Nat := (c.src.map fun p => p.2.length).sum

/-- The next source line of a unit of a reduce-copy is read, in order (06 R175). Once the source is read every line of the destination is
checked, so that a unit faults with exactly the units below the cursor written (06 R195). -/
def Cmd.redcRead (c : Cmd) : M Cmd := do
  let d := c.desc
  let a := (c.seg.2 + c.srcLen) % 2 ^ 64
  let gs ← c.rdAll (dSloc d) (dScore d) 1 a (min (dXlen d - c.srcLen) (64 - a % 64))
  let c := { c with src := c.src ++ gs.map (fun g => (g.key, g.bytes)), last := gs.foldl (fun t g => max t g.t) c.last }
  if c.srcLen < dXlen d then return c
  else
    let xl ← (List.range (c.pieces c.unit)).mapM fun i =>
      let p := c.pieceAt c.unit i
      c.redcCheck ((c.seg.1 + p.1) % 2 ^ 64) p.2
    return { c with xl := xl.flatten }

/-- One destination line of a reduce-copy: read, combined and written as one indivisible access (06 R175). A scratchpad line that it
writes whole is written as a line without sideband, which clears SBV: 07 R208 does not name it. DEDUCED: logs 41, 42. -/
def redcComb (op : BitVec 3) (ty : Ty) (rm : RM) (fzi fzo : Bool) (n : Nat) (c : Cmd) : M Cmd := do
  let d := c.desc
  let dst := (c.seg.1 + c.off) % 2 ^ 64
  let k := min (dXlen d - c.off) (64 - dst % 64)
  let t := max (c.ct + 1) c.last
  let parts := sliceParts c.src c.off k
  let comb (old : List Byte) : List (Option Byte) :=
    (redcBytes c op ty rm fzi fzo n ((c.unit * dXlen d + c.off) / ty.bytes) old (parts.flatMap (·.2))).map some
  let (key, t) ←
    if dDloc d = 1 then do
      let core := c.target (← get) (dDcore d)
      let o ← spadGet core dst k t
      let (key, ws) ← spadPut core dst (comb o.bytes) none
      pure (key, max t (← flushPend ws))
    else match c.xl[((c.seg.1 % 64) + c.off) / 64]? with
      | none => pure (0, t)
      | some y => atVA dst do
        let o ← engGetX c y k t false
        let (t, key) ← engPutX c y dst (comb o.bytes) none (max t o.t) false
        pure (key, t)
  let c ← Cmd.movedParts t parts key { c with last := max c.last t }
  return if dXlen d ≤ c.off + k then { c with unit := c.unit + 1, off := 0, src := [], xl := [] } else { c with off := c.off + k }

/-- One line of a reduce-copy: one of its unit's source lines, then one of its destination lines (06 R175). -/
def redcLine (op : BitVec 3) (ty : Ty) (rm : RM) (fzi fzo : Bool) (n : Nat) (c : Cmd) : M Cmd :=
  if c.off = 0 && c.srcLen < dXlen c.desc then c.redcRead else redcComb op ty rm fzi fzo n c

/-- The lines of a split-phase read that are still to be read. -/
def Cmd.rdbLeft (c : Cmd) : List Nat := ((List.range c.units).drop c.unit).filter fun u => !(c.left u).isEmpty

/-- One line of a split-phase read: any that is still to be read (06 R194; 04 R138). -/
def rdbLine (c : Cmd) : M Cmd := do
  let us := c.rdbLeft
  let u := us.getD (← pick us.length) c.unit
  let g ← engGet c (c.segAt u).2 64 (c.ct + 1)
  let (key, ws) ← spadPut c.core (c.segAt u).1 (g.bytes.map some) g.sb
  let c ← c.keepWords ws
  let c := { c with ahead := c.ahead ++ [(u, 0, key, 64)], last := max c.last g.t }
  return c.settle (c.ahead.length + 1)

/-- The bytes of a split-phase read that were not written when it failed keep undefined values (06 R194); the lines' sideband and
poison marks stand (07 R208). DESIGN CHOICE: log 47. -/
def rdbRest (c : Cmd) : M Unit :=
  match c.kind with
  | .rdb _ off _ _ => (c.rdbLeft.flatMap fun u => (List.range 8).map fun i => off + 64 * u + 8 * i).forM fun a => fun s =>
      match (do engSpad (← coreNow c.core) a true; freeBytes 8 : M _) s with
      | .ok bs s' => .ok () (s'.putPend { core := c.core, off := a, bytes := bs.map some })
      | .error _ _ => .ok () s
  | _ => pure ()

/-! ## Faults (06 R195) -/

/-- Where a command goes on after a stop (06 R195, R196): at the start of its cursor unit. A reduce-copy some of whose unit is
written goes on after those lines, so that no element is combined twice. DEDUCED: log 41. -/
def Cmd.restart (c : Cmd) : Cmd :=
  match c.kind with
  | .redc .. => if c.off = 0 then { c with src := [], xl := [] } else c
  | _ => { c with off := 0, ahead := [], lat := [], half := [], sbDone := [] }

/-- Words of a command reach their scratchpads before it stops; they wait with it where one is not to be reached. -/
def Cmd.flush (c : Cmd) : M Cmd := do
  c.buf.forM fun w => do let _ ← coreNow w.core
  let t ← flushPend c.buf
  return { c with buf := [], last := max c.last t }

/-- A command parks: every unit below its cursor is written, its record and its fault message leave. A peer's cause stays with it: DETAIL
of its record holds the cursor (21 Table 21.2). DESIGN CHOICE: log 17. -/
def parkCmd (c : Cmd) (f : Flt) : M Unit := do
  let c ← c.flush
  let s ← get
  let (p, x) := s.instCtx c.inst
  let kind := if c.sched.isSome then 2 else 1
  set (s.putCmd { c.restart with
    phase := .parked f.cause.code, status := f.cause.code, peer := if f.cause == .remoteFlt then f.detail.toNat else 0,
    who := { c.who with faults := c.who.faults + 1 } })
  let t := max (c.ct + 1) c.last
  let (seq, ct) ← writeRecord p x
    { kind, cause := f.cause.code, detail := BitVec.ofNat 64 c.unit, va := f.va, tag := BitVec.ofNat 64 c.tag, level := f.level,
      who := c.who } t
  modify fun s => s.faultMsg c.core kind f.cause.code seq ct (c.faultLin s) (1, c.row)

/-- What a command's release waits for once its last payload byte is written (06 R181; 04 R133, R135): the host writes of its releaser
and its own, the peer and pool writes that its scope covers, and the earlier commands that have still to make such writes. DEDUCED:
log 44. -/
def Cmd.relIds (s : State) (c : Cmd) : List Await :=
  if c.ar.rel then
    s.awaitsOf (c.hostCore s) c.ar.scope fun x => x.id != c.id && decide (x.ack < c.ack)
  else []

/-- A command whose last payload byte is written stands at its release. -/
def Cmd.payload (s : State) (c : Cmd) : Cmd :=
  if c.phase == .running && c.buf.isEmpty && decide (c.units ≤ c.unit) then { c with phase := .payloadDone, relWait := c.relIds s } else c

/-- Runs part of a command: a retry leaves everything as it was, a fault parks it or, for a split-phase read, ends it. The A and D bits
that its walks have set stay (02 R67). -/
def runCmd (c : Cmd) (f : Cmd → M Cmd) (s : State) : State :=
  match f c s with
  | .ok c' s' => s'.putCmd (c'.payload (s'.putCmd c'))
  | .error (.flt e) s' =>
    match c.kind with
    | .rdb .. => match c.flush s' with
      | .error _ _ => s
      | .ok c s1 =>
        let c := { c with status := e.cause.code }
        let s2 := s1.putCmd { c with phase := .payloadDone, relWait := c.relIds s1 }
        match rdbRest c s2 with
        | .ok _ s3 => s3
        | .error _ _ => s2
    | _ => match parkCmd c e s' with
      | .ok _ s2 => s2
      | .error _ _ => s
  | .error _ _ => s

/-- A command writes one of the words that it has still to write, whichever (04 R140). -/
def Cmd.word (c : Cmd) : M Cmd := do
  let i ← pick c.buf.length
  match c.buf[i]? with
  | none => return c
  | some w =>
    let _ ← coreNow w.core
    let t ← flushPend [w]
    return { c with buf := c.buf.eraseIdx i, last := max c.last t }

/-- The next line of a command. -/
def Cmd.line (c : Cmd) : M Cmd :=
  match c.kind with
  | .copy _ => copyLine c
  | .redc op ty rm fzi fzo n => redcLine op ty rm fzi fzo n c
  | .rdb .. => rdbLine c

/-- Whether a command has a line to move now. -/
def Cmd.more (c : Cmd) : Bool := decide (c.unit < c.hi) && (!c.cv || c.slot.isSome)

/-- One line of a command (18 Table 18.3), or a scratchpad word of a line before; which of them is open. -/
def Cmd.step (c : Cmd) : M Cmd := do
  if c.buf.isEmpty then c.line
  else if c.more && (← pick 2) = 1 then c.line
  else c.word

/-- Whether a command has something to move now. -/
def Cmd.ready (c : Cmd) : Bool := c.phase == .running && (!c.buf.isEmpty || c.more)

/-- The owner that a command acts for (18 R365). -/
def Cmd.owner (s : State) (c : Cmd) : Nat := (s.part (s.instCtx c.inst).1).owner

/-! ## Start (06 R180, R181, R186) -/

/-- The culvert that a command pushes into, as core and number. -/
def Cmd.culv (s : State) (c : Cmd) : Nat × Nat := (c.target s (dCcore c.desc), dCnum c.desc)

/-- A slot is reserved for a command where one is free and no command that reached its engine before it has still to reserve one of the
same culvert (06 R186). One that its release holds back has not reached it (05 R161). DEDUCED: log 41. -/
def reserve (s : State) (c : Cmd) : State :=
  let (k, n) := c.culv s
  let waits := (s.cmds.takeWhile fun x => x.id != c.id).any fun x =>
    x.row == c.row && (x.phase == .running || (x.phase == .queued && !s.unacked x.wait)) && x.cv && x.slot.isNone && x.culv s == (k, n)
  match coreNow k s with
  | .ok core _ =>
    let cv := core.culvert n
    if waits || cv.free = 0 || cv.depth = 0 || !c.cv || c.slot.isSome || c.phase != .running then s
    else
      (s.arrive k fun core s =>
        let cv := core.culvert n
        s.setCore k (core.setCulvert n { cv with free := cv.free - 1, rsv := cv.rsv + 1, tail := (cv.tail + 1) % cv.depth })).putCmd
        { c with slot := some cv.tail }
  | .error _ _ => s

/-- Whether a command may start (06 R180, R181). -/
def canStart (s : State) (c : Cmd) : Bool :=
  let before := (s.cmds.takeWhile fun x => x.id != c.id).filter c.sameStream
  c.phase == .queued && !s.unacked c.wait && !before.any (fun x => x.phase == .queued) &&
    (match c.kind with | .rdb .. => true | _ => !dOrd c.desc || before.isEmpty)

/-- ENGINE_COMMAND_START: a command reaches its first read, and asks for its culvert slot. -/
def execEngineCommandStart (id : Nat) (s : State) : Host.Outcome State Fault Refusal :=
  match s.cmd? id with
  | none => .next s
  | some c =>
    if !canStart s c then .next s
    else
      let c := { c with phase := .running }
      let c := c.payload (s.putCmd c)
      .next (reserve (s.putCmd c) c)

/-- CULVERT_RESERVE: a command that waits for a slot gets one (06 R186, R187). -/
def execCulvertReserve (id : Nat) (s : State) : Host.Outcome State Fault Refusal :=
  match s.cmd? id with
  | none => .next s
  | some c => .next (reserve s c)

/-- Whether a command may take the next word of its feed (06 R172). One with CV takes it also before it has its culvert slot: what waits for
the slot is what the command reads and writes through its descriptor (06 R186). DEDUCED: log 120. -/
def canFeed (s : State) (c : Cmd) : Bool :=
  match c.drawsFrom with
  | none => false
  | some f =>
    c.phase == .running && c.starved && !(tget s.feeds (c.core, f) []).isEmpty &&
      !((s.cmds.takeWhile fun x => x.id != c.id).any fun x =>
        x.core == c.core && x.drawsFrom == some f && x.phase != .queued && decide (x.feed.length < x.feedNeed))

/-- FEED_CONSUME. -/
def execFeedConsume (id : Nat) (s : State) : Host.Outcome State Fault Refusal :=
  match s.cmd? id with
  | none => .next s
  | some c =>
    if !canFeed s c then .next s
    else
      let f := c.drawsFrom.getD 0
      let ws := tget s.feeds (c.core, f) []
      .next ({ s with feeds := tput s.feeds (c.core, f) (ws.drop 1) }.putCmd { c with feed := c.feed ++ ws.take 1 })

/-! ## Completion (06 R182, R188, R194) -/

/-- Whether a core rests in an image that waits, or in a record that is poisoned: nothing is applied to it now (04 R129; 02 R48, R49, R59,
R76). -/
def recordWaits (s : State) (c : Nat) : Bool :=
  match s.core? c with
  | some k => inImage s k && (match s.ctx? (s.instCtx k.inst).1 (s.instCtx k.inst).2 with
    | some y => imgWaits s y || recordPoisoned s y k
    | none => false)
  | none => false

/-- Whether the record of the core to which a command's credit returns waits. -/
def creditWaits (s : State) (c : Cmd) : Bool := c.sched.isNone && recordWaits s c.core

/-- A command's credit returns to its core, wherever that rests (06 R179, 21 R421). -/
def State.returnCredit (s : State) (c : Cmd) : State :=
  match c.sched with
  | none => s.arrive c.core fun k s => s.setCore c.core { k with creds := min 16 (k.creds + 1) }
  | some _ => s

/-- The engine record of the command with a tag is emptied in the image of a halted context (21 R416). -/
def State.dropRecord (s : State) (y : Ctx) (tag : Nat) : State :=
  let a (i : Nat) : Nat := imgBase s y + 0x1040000 + 128 * i
  let is (i : Nat) : Bool := leNat (mread s.mem (a i + 64) 8) == tag && [1, 2].contains (leNat (mread s.mem (a i + 96) 4))
  match (List.range 2048).find? is with
  | some i => (s.bulkImg y (a i) 128 []).restream y.part y.ctx
  | none => s

/-- A command is gone from its engine, or from the image of its halted context. -/
def State.forget (s : State) (id : Nat) : State :=
  let s' := { s with
    cmds := s.cmds.filter fun x => x.id != id
    ctxs := s.ctxs.map fun y => { y with img := y.img.map fun g => { g with cmds := g.cmds.filter fun x => x.id != id } } }
  s.ctxs.foldl (fun s' y => match ((y.img.map (·.cmds)).getD []).find? fun c => c.id == id with
    | some c => if y.div == .diverted && !y.gone then s'.dropRecord y c.tag else s'
    | none => s') s'

/-- The completion message or reply leaves, the credit returns, the command is gone. -/
def finishCmd (c : Cmd) (s : State) : State :=
  let s := match c.kind with
    | .rdb _ off len ch =>
      s.postHw c.core 4 ch.toNat [BitVec.ofNat 64 off, BitVec.ofNat 64 c.status, BitVec.ofNat 64 len] c.last .reply (c.lin s 0)
        (1, c.row)
    | _ => if dCm c.desc then
        s.postHw c.core 6 (dCmch c.desc) [dStval c.desc, 0] c.last .completion (c.lin s 0) (1, c.row) else s
  (s.returnCredit c).forget c.id

/-- The stamp is written later than every payload write (06 R182, 04 R138). Of the writes that 06 R173 compares with a command's reads it
is none: a source byte that it overwrites keeps its value. DESIGN CHOICE: log 43. -/
def stampCmd (c : Cmd) : M Cmd := do
  match c.kind with
  | .rdb .. => return c
  | _ =>
    if dStamp c.desc = 0 then return c
    else
      let (t, _) ← engPut c (dStamp c.desc) ((wordBytes64 (dStval c.desc)).map some) none (max (c.ct + 1) c.last + 1)
      return { c with last := t }

/-- The slot of a completed or dropped command takes its handle (06 R188, R196). -/
def fillSlot (s : State) (c : Cmd) (handle : Word) (status : Nat) : State :=
  let (k, n) := c.culv s
  { s with pushes := tput s.pushes (k, n, c.slot.getD 0) (handle, status, c.last, c.lin s 1) }

/-- Whether a command's release still waits for an acknowledgement. DEDUCED: log 44. -/
def releaseWaits (s : State) (c : Cmd) : Bool := c.ar.rel && s.unacked c.relWait

/-- ENGINE_COMPLETION: release, stamp, then the push or the message (06 R182). DEDUCED: log 44. -/
def execEngineCompletion (id : Nat) (s : State) : Host.Outcome State Fault Refusal :=
  match s.cmd? id with
  | none => .next s
  | some c =>
    if c.phase != .payloadDone || releaseWaits s c || creditWaits s c then .next s
    else
      let s1 := match c.releaser s with
        | some k => if c.ar.rel && scPublishes c.ar.scope then s.publishAll k else s
        | none => s
      .next (match stampCmd c s1 with
        | .ok c s2 => if c.cv then fillSlot (s2.putCmd { c with phase := .pushWait }) c (BitVec.ofNat 64 (dDst c.desc)) 0
                      else finishCmd c s2
        | .error (.flt f) s2 => match parkCmd c f s2 with
          | .ok _ s3 => s3
          | .error _ _ => s
        | .error _ _ => s)

/-- The oldest reserved slot of a culvert. -/
def Culvert.nextFill (c : Culvert) : Nat := if c.depth = 0 then 0 else (c.tail + c.depth * 2 - c.rsv) % c.depth

/-- CULVERT_PUSH: the handle of the oldest reserved slot of culvert `n` of core `c`, where its data is complete, becomes
FILLED (06 R188). -/
def execCulvertPush (c n : Nat) (s : State) : Host.Outcome State Fault Refusal :=
  match coreNow c s with
  | .error _ _ => .next s
  | .ok k _ =>
    let cv := k.culvert n
    if cv.rsv = 0 then .next s
    else match tget? s.pushes (c, n, cv.nextFill) with
      | none => .next s
      | some (h, st, t, lin) =>
        let done := s.allCmds.find? fun x => x.phase == .pushWait && x.culv s == (c, n) && x.slot == some cv.nextFill
        if (done.map (creditWaits s)).getD false then .next s
        else
        let s1 := { s with pushes := tdel s.pushes (c, n, cv.nextFill) }
        let s2 := (s1.arrive c fun k s =>
          let cv := k.culvert n
          let k := { k with spad := mwrite k.spad (k.ringOff n cv.nextFill) (wordBytes64 h) }
          s.setCore c (k.setCulvert n { cv with rsv := cv.rsv - 1, filled := cv.filled + 1 })).countArrival c
        let s3 := if cv.nv then s2.postHw c 6 cv.chan [h, BitVec.ofNat 64 st] t .culvert lin (0, c + 2 ^ 32 * (n + 1)) else s2
        .next (match done with
          | some x => finishCmd x s3
          | none => s3)

/-! ## CRES and CDROP at commit (06 R196) -/

/-- The parked command of a context that a tag names. -/
def parkedCmd (s : State) (part ctx : Nat) (tag : Word) : Option Cmd :=
  s.cmds.find? fun c => BitVec.ofNat 64 c.tag == tag && s.instCtx c.inst == (part, ctx) &&
    (match c.phase with | .parked _ => true | _ => false)

/-- CRES. -/
def State.resumeCmd (s : State) (part ctx : Nat) (tag : Word) : State :=
  match parkedCmd s part ctx tag with
  | none => s
  | some c =>
    let c := { c with phase := .running, status := 0, peer := 0 }
    s.putCmd (c.payload (s.putCmd c))

/-- Whether the credit of the command that a CDROP names has to wait. -/
def dropWaits (s : State) (c : Nat) (tag : Word) : Bool :=
  match s.core? c with
  | some k => ((parkedCmd s (s.instCtx k.inst).1 (s.instCtx k.inst).2 tag).map (creditWaits s)).getD false
  | none => false

/-- CDROP: the credit returns, and a reserved slot takes the void handle. -/
def State.dropCmd (s : State) (part ctx : Nat) (tag : Word) : State :=
  match parkedCmd s part ctx tag with
  | none => s
  | some c =>
    let s := if c.cv && c.slot.isSome then fillSlot s c (BitVec.allOnes 64) c.status else s
    (s.returnCredit c).forget c.id

end Sys2Proof.Machine
end

