-- ==== Sys2Proof/Machine/Owners.lean ====
section
/-! DEFINITION. Owners, lotteries and L2 fills: OP 0x28, LOTTERY_GRANT and L2_FILL (spec 18; 11 R286). -/

namespace Sys2Proof.Machine

/-! ## Grants (18 R372, R373, R380; 02 R62) -/

/-- Whether an owner may contend at an instance whose requests `want` names: at a walker pool and a memory controller an owner that
holds its quota waits at its requester (02 R62, 18 R380). -/
def mayContend (s : State) (cls : BitVec 8) (idx o : Nat) : Bool :=
  if cls = 0x08 then walkerFree s idx o
  else if cls = 0x13 then decide ((s.mcSlots.filter fun x => x == (idx, o)).length < (s.owner o).quota)
  else true

/-- What a grant hands out besides the slot: a walker of the die (02 R62), or a request slot of the controller (18 R380). -/
def State.handOut (s : State) (cls : BitVec 8) (idx o : Nat) : State :=
  if cls = 0x08 then { s with walkers := s.walkers ++ [(idx, o)] }
  else if cls = 0x13 then { s with mcSlots := s.mcSlots ++ [(idx, o)] }
  else s

/-- LOTTERY_GRANT (18 R372). At the copy engine of row `idx` the owners with a line to move contend, and the one of the winner's such
commands, whichever, moves it (06 R168, R180); at an L2 request port those with a line request waiting, and the winner's oldest is served
(19 R385); at the other instances, whose requests change timing only, `want` says who contends. A slot that nobody contends for returns
every LC to 0 and empties WeirQueue (18 R373). A bench's slots are MATRIX_GRANTs. -/
def execLotteryGrant (cls : BitVec 8) (idx : Nat) (want : BitVec 64) (s : State) : Host.Outcome State Fault Refusal :=
  if cls = 0x14 then
    let ready := s.cmds.filter fun c => c.row == idx && c.ready
    let owners := (List.range 64).filter fun o => ready.any fun c => c.owner s == o
    match s.lottery 0x14 idx none owners with
    | none => .next (s.idleSlot 0x14 idx)
    | some (g, s1) =>
      let mine := ready.filter fun c => c.owner s == g
      match pick mine.length s1 with
      | .error _ _ => .next s1
      | .ok i s2 => .next ((mine[i]?.map fun c => runCmd c Cmd.step s2).getD s2)
  else if cls = 0x11 then
    match s.portSlot idx with
    | none => .next (s.idleSlot 0x11 idx)
    | some (r, s1) => .next (s1.serve r)
  else if [0x08#8, 0x10#8, 0x12#8, 0x13#8].contains cls then
    match s.lottery cls.toNat idx none ((List.range 64).filter fun o => want.getLsbD o && mayContend s cls idx o) with
    | none => .next (s.idleSlot cls.toNat idx)
    | some (g, s1) => .next (s1.handOut cls idx g)
  else .next s

/-! ## L2 slices (18 R377 to R379) -/

/-- The owner whose partition map maps a final address, of those that have one (18 R379). -/
def State.mapOwner (s : State) (line : Nat) : Option Nat :=
  (s.parts.find? fun p => p.2.pmap.any fun (e : Nat × PMapEnt) =>
    e.2.v && decide (e.2.hbase ≤ line) && decide (line < e.2.hbase + e.2.limit)).map fun p => p.2.owner

/-- The key that places a line in sets and banks: the package's for host memory, else the PLKEY of the owner whose map maps it
(18 R379); `o` stands for it where no map does. -/
def State.placeKey (s : State) (line o : Nat) : Word :=
  if line / 2 ^ 48 = 3 then s.plat.pkgKey else (s.owner ((s.mapOwner line).getD o)).plkey

/-- The set of a line in its L2 slice (18 R379). -/
def State.l2Set (s : State) (line o : Nat) : Nat := fld (gGen (s.placeKey line o) (BitVec.ofNat 64 line)) 9 0

/-- The bank of a line at its memory controller; the number of banks is the part's (18 R379). DESIGN CHOICE: log 94. -/
def State.memBank (s : State) (line o : Nat) : Nat :=
  (gGen (s.placeKey line o) (BitVec.ofNat 64 line)).toNat % (max 1 Config.banks)

/-- The controllers of a line's tier and die, as class 0x13 numbers them. -/
def mcOf (line i : Nat) : Bool :=
  i / 1024 == line / 2 ^ 48 && i % 1024 / 256 == (match line / 2 ^ 48 with
    | 0 => line % 2 ^ 48 / 2 ^ 32 | 1 => line % 2 ^ 48 / 2 ^ 36 | _ => 0)

/-- Whether a slice may fill a line: its home slice, or the helper slice of a replica (05 R158, R163). -/
def State.fillsAt (s : State) (slice line : Nat) : Bool :=
  slice == homeSlice s line || s.replicas.any fun r => r.line == line && slice == 64 * r.die + r.slice % 64

/-- The ways an owner may fill: its reserved ways and the shared ones. Reserved ways stand in the order of the owners'
numbers from way 0 (DESIGN CHOICE, log 21). -/
def State.l2Ways (s : State) (o : Nat) : List Nat :=
  let r (x : Nat) : Nat := (s.owner x).rways
  let first := ((List.range o).map r).sum
  let shared := ((List.range 64).map r).sum
  (List.range 16).filter fun w => decide (shared ≤ w) || (decide (first ≤ w) && decide (w < first + r o))

/-- L2_FILL (18 R378): a fill of a line by an owner at a slice takes an invalid candidate, or evicts a drawn one. The request slot
that the owner holds at a controller of the line is free again (18 R380). DESIGN CHOICE: logs 8, 94. -/
def execL2Fill (slice line owner : Nat) (s : State) : Host.Outcome State Fault Refusal :=
  let l := lineOf line
  let s0 := s
  let s := { s with mcSlots := s.mcSlots.eraseP fun x => x.2 == owner && mcOf l x.1 }
  if !s0.fillsAt slice l then .next s0
  else
  let key := (slice, s.l2Set l owner)
  let mine := s.l2.filter fun e => e.1 == key
  if mine.any fun e => e.2.2.2 == l then .next s
  else
    let ways := s.l2Ways owner
    match ways.find? fun w => !mine.any fun e => e.2.1 == w with
    | some w => .next { s with l2 := s.l2 ++ [(key, (w, owner, l))] }
    | none =>
      if ways.isEmpty then .next s
      else
        let e := tget (s.owner owner).events (0x21, slice) 0
        let w := ways.getD ((drawD (s.owner owner).seed 0x21 e).toNat % ways.length) 0
        let rest := s.l2.filter fun x => !(x.1 == key && x.2.1 == w)
        let s1 := { s with l2 := rest ++ [(key, (w, owner, l))] }
        .next (s1.setOwner owner fun o => { o with events := tput o.events (0x21, slice) (e + 1) })

/-! ## The stated law (18 R375, R383) -/

/-- What a bound needs of a class: weight, allocated owners, GW; none where the owner has no bound there. -/
structure BoundAt where
  w : Nat
  a : Nat
  gw : Nat
  deriving DecidableEq, Repr

def BoundAt.h (b : BoundAt) : Nat := b.gw + b.a - 2
def BoundAt.v (b : BoundAt) : Nat := (b.a - 1) * ((b.h + b.gw) / (b.gw + 1))
/-- T(n) as a numerator over a power of 256: numerator and exponent. -/
def BoundAt.tail (b : BoundAt) (n : Nat) : Nat × Nat :=
  if b.a < 2 || b.h ≤ n then (0, 0)
  else let e := n + 1 - b.v; ((256 - b.w) ^ e, e)

/-- The lottery classes of 18 Table 18.3 with their SP. -/
def lottSp (c : Nat) : Option Nat :=
  match c with
  | 0x08 => some 512 | 0x10 => some 8 | 0x11 => some 2 | 0x12 => some 4 | 0x13 => some 16 | 0x14 => some 64
  | 0x30 => some 32768
  | _ => none

/-- Whether a valid entry of a partition's map maps into the share of a tier and die. -/
def Part.mapsTo (p : Part) (tier die : Nat) : Bool :=
  p.pmap.any fun (e : Nat × PMapEnt) => e.2.v && decide (e.2.limit ≠ 0) && e.2.hbase / 2 ^ 48 == tier && tier < 3 &&
    (let sh := if tier = 0 then 32 else if tier = 1 then 36 else 41
     let lo := e.2.hbase % 2 ^ 48 / 2 ^ sh
     let hi := (e.2.hbase % 2 ^ 48 + e.2.limit - 1) / 2 ^ sh
     decide (lo ≤ die) && decide (die ≤ hi))

/-- The instances of a class that a partition reaches (18 R383). -/
def reachOf (s : State) (p : Part) (cls : Nat) : List Lott :=
  ((lottIdx cls).filter fun i => match cls with
    | 0x08 => p.benches.any fun b => b / 72 == i
    | 0x13 => p.mapsTo (i / 1024) (i % 1024 / 256)
    | 0x14 => (partRows p).contains i
    | _ => true).map (s.lott cls)

/-- The parameters of a class for the executing core (18 R383); none where the owner is not allocated. At the bench
`a` counts the positions its table maps (11 R286). DESIGN CHOICE: log 19. DEDUCED: log 48. -/
def boundAt (s : State) (k : Core) (cls : Nat) : Option BoundAt :=
  if cls = 0x30 then
    let l := s.lott 0x30 k.bench
    some { w := l.weight (k.phys % 8), a := ((List.range 8).filter fun o => decide (0 < l.weight o)).length, gw := l.gw }
  else
    let p := s.part (s.instCtx k.inst).1
    let ls := reachOf s p cls
    if ls.any fun l => !l.alloc.getLsbD p.owner then none
    else some {
      w := (ls.map fun l => l.weight p.owner).foldl min 256
      a := (ls.map fun l => ((List.range 64).filter fun o => l.alloc.getLsbD o).length).foldl max 0
      gw := (ls.map fun l => l.gw).foldl max 0 }

/-- ceil(num × 2^32 / den). -/
def ceilQ32 (num den : Nat) : Nat := (num * 2 ^ 32 + den - 1) / den

/-- The Q0.32 value of one. -/
def qOne : Word := 0x100000000

/-- A distribution: cost and weight pairs; the weights are over one common denominator. -/
abbrev Dist := List (Nat × Nat)

/-- Adds weight at a cost. -/
def Dist.put (d : Dist) (c w : Nat) : Dist := tput d c (tget d c 0 + w)
/-- The sum of two independent costs. -/
def Dist.plus (a b : Dist) : Dist :=
  a.foldl (fun d x => b.foldl (fun d y => Dist.put d (x.1 + y.1) (x.2 * y.2)) d) []
/-- `m` independent costs added. -/
def Dist.times (a : Dist) : Nat → Dist
  | 0 => [(0, 1)]
  | m + 1 => (a.times m).plus a

/-- W′ of one instance, each wait costing SP: weights over 256 to the power of the second component. -/
def BoundAt.dist (b : BoundAt) (sp : Nat) : Dist × Nat :=
  let e := b.h
  let tailAt (n : Nat) : Nat := (b.tail n).1 * 256 ^ (e - (b.tail n).2)
  let p (n : Nat) : Nat := (if n = 0 then 256 ^ e else tailAt (n - 1)) - tailAt n
  (((List.range (e + 1)).map fun n => ((sp * n, p n) : Nat × Nat)).filter fun (x : Nat × Nat) => x.2 != 0, e)

/-- The entries of a path vector up to its end, with whether each one's reserved bits and class are right (18 R383). -/
def pathEntries (v : VReg) : List (Nat × Nat × Bool) :=
  let es := (bytesWords 8 (vecBytes v)).map fun w => (fld w 7 0, fld w 15 8, fld w 63 16 == 0)
  let n := (es.findIdx? fun e => e.2.1 == 0).getD 8
  es.take (n + 1)

/-! ## OP 0x28 -/

/-- The owner of the executing partition. -/
def ownerNow (s : State) (k : Core) : Nat := (s.part (s.instCtx k.inst).1).owner

/-- DRAW (18 R383). -/
def execDraw (d a b : Reg) := runTask fun t => do
  noDet
  let s ← get
  let k ← getCore
  let v := drawD (s.owner (ownerNow s k)).seed ((t.rx a).setWidth 8) ((t.rx b).setWidth 32)
  modTask fun t => t.wx d (v.setWidth 64)

/-- RESEED (18 R384). DEDUCED: log 40. -/
def execReseed := runTask fun t => do
  need t.priv .priv
  noDet
  hold .reseed

/-- EXCQ (18 R383). DEDUCED: log 48. -/
def execExcq (d a b : Reg) := runTask fun t => do
  noDet
  let s ← get
  let k ← getCore
  let c := fld (t.rx a) 7 0
  need (fld (t.rx a) 63 8 == 0 && (lottSp c).isSome) .badExc
  let v : Word := match boundAt s k c with
    | none => qOne
    | some q => BitVec.ofNat 64 (ceilQ32 (q.tail (t.rx b).toNat).1 (256 ^ (q.tail (t.rx b).toNat).2))
  modTask fun t => t.wx d v

/-- The probability that the waits of a path cost more than `lim` (18 R383), one where the owner has no bound at a class.
DEDUCED: log 48. -/
def pathTail (s : State) (k : Core) (path : List (Nat × Nat × Bool)) (lim : Nat) : Word :=
  let bounds := path.map fun e => (boundAt s k e.1, e.2.1, (lottSp e.1).getD 0)
  if bounds.any fun x => x.1.isNone then qOne
  else
    let tot := bounds.foldl (fun (acc : Dist × Nat) x =>
      match x.1 with
      | some q => let y := q.dist x.2.2; (acc.1.plus (y.1.times x.2.1), acc.2 + y.2 * x.2.1)
      | none => acc) ([(0, 1)], 0)
    let over' := ((tot.1.filter fun p => decide (lim < p.1)).map (·.2)).sum
    BitVec.ofNat 64 (ceilQ32 over' (256 ^ tot.2))

/-- EXCQP (18 R383). DEDUCED: log 48. -/
def execExcqp (d a b : Reg) := runTask fun t => do
  noDet
  let s ← get
  let k ← getCore
  let es := pathEntries (t.rv t.lead a)
  let path := es.filter fun e => e.2.1 != 0
  need (es.all (fun e => e.2.2) && !path.isEmpty && path.all fun e => (lottSp e.1).isSome) .badExc
  modTask fun t => t.wx d (pathTail s k path (t.rx b).toNat)

/-- WSET (18 R384): a clamped task acts on the leader's bench. -/
def execWset (a : Reg) := runTask fun t => do
  need t.priv .priv
  let off := (t.rx a).toNat
  need (off % 64 == 0) .addrAlign
  let k ← getCore
  let s ← get
  let rows ← (List.range 4).mapM fun i => localLoad t.lead s.cur k (off + 64 * i) 64
  let bytes := rows.flatten
  need (bytes.all fun b => decide (b.toNat < 8) || b == 0xFF#8) .badWset
  need ((s.plat.mxmap.getD k.die 0).getLsbD (k.bench % 72)) .mxAbsent
  hold (.wset bytes)

/-- WSET at commit: the table of the bench is replaced; K, LC and WeirQueue are kept (18 R374). -/
def State.wset (s : State) (bench : Nat) (bytes : List Byte) : State :=
  s.setLott 0x30 bench { s.lott 0x30 bench with wtab := bytes }

/-- RESEED at commit (18 R384). -/
def State.reseed (s : State) (o : Nat) : State :=
  { s with plat := { s.plat with entropyCnt := s.plat.entropyCnt + 1 } }.setOwner o fun x =>
    { x with seed := Config.entropy s.plat.entropyCnt }

end Sys2Proof.Machine
end

