-- ==== Sys2Proof/Machine/Progress.lean ====
section
/-! DEFINITION. Joins, barriers, the stage counter and LAUNCH: OP 0x27, JOIN_ARRIVE and BARRIER_ARRIVAL (spec 16 R353,
R354, R356 to R360; 06 R192, R193). -/

namespace Sys2Proof.Machine

/-! ## At execution -/

/-- JOINs that a task holds. -/
def heldJoins (t : Task) : Nat := (t.sluice.filter fun e => match e with | .join .. => true | _ => false).length

/-- JOIN (16 R353). -/
def execJoin (d a b c : Reg) := runTask fun t => do
  let k ← getCore
  let n := (t.rx a).toNat
  let off := (t.rx b).toNat
  let ch : BitVec 6 := (t.rx c).setWidth 6
  need (decide (1 ≤ n) && decide (n ≤ 256) && fld (t.rx c) 63 6 == 0 && entV (k.chan ch.toNat).ent) .badJoin
  let ok := match k.regionAt off with
    | some g => regKind g == 2 && regEw g && off % 8 == 0 && decide (off + 8 * n ≤ regBase g + regLen g)
    | none => false
  need ok .spadRange ((t.rx b).setWidth 32)
  need (decide (k.joins.length + heldJoins t < 16)) .joinFull
  needMsg t
  let h : Word := BitVec.ofNat 64 (k.lid * 2 ^ 32 + (k.jseq.toNat + heldJoins t + 1) % 2 ^ 32)
  let q ← countEff
  hold (.join h n off ch q)
  modTask fun t => t.wx d h

/-- JRET (16 R354). -/
def execJret (a : Reg) := runTask fun t => do
  let i ← getInst
  let j := t.trig.jref
  let again := t.sluice.any fun e => match e with | .jret .. => true | _ => false
  need (j != noJref && decide (fld j 43 32 < i.nvc) && !again) .badJoin
  needMsg t
  let q ← countEff
  hold (.jret (t.rx a) q t.pc)

/-- BARINIT (16 R359). -/
def execBarinit (a b c : Reg) := runTask fun t => do
  let i ← getInst
  let total := match i.group with | some (_, _, _, _, tot) => max tot i.nvc | none => i.nvc
  let w := t.rx a
  need (fld w 7 6 == 0 && fld w 63 14 == 0 && (t.rx c).toNat != 0 && decide ((t.rx b).toNat + (t.rx c).toNat ≤ total)) .badBar
  needMsg t
  let q ← countEff
  hold (.barinit (w.setWidth 6) (w.extractLsb' 8 6) (t.rx b).toNat (t.rx c).toNat q)

/-- Whether a task holds an arrival at a barrier. -/
def holdsArrival (t : Task) (b : BitVec 6) : Bool :=
  t.sluice.any fun e => match e with | .bara b' _ _ => b' == b | .bard b' _ => b' == b | _ => false

/-- The checks of BARA and BARD (16 R360). DEDUCED: log 40. -/
def arrivalCheck (t : Task) (w : Word) : M Unit := do
  need (fld w 63 6 == 0) .badBar
  let k ← getCore
  let b := fld w 5 0
  need (k.member.getLsbD b && !k.arrived.getLsbD b && !holdsArrival t (w.setWidth 6)) .barOver (BitVec.ofNat 32 b)
  needMsg t

def execBara (a b : Reg) := runTask fun t => do
  arrivalCheck t (t.rx a)
  let q ← countEff
  hold (.bara ((t.rx a).setWidth 6) ((t.rx b).setWidth 6) q)
def execBard (a : Reg) := runTask fun t => do
  arrivalCheck t (t.rx a)
  let q ← countEff
  hold (.bard ((t.rx a).setWidth 6) q)

/-- STAGE (16 R356). -/
def execStage (a : Reg) := runTask fun t => do
  need (decide ((t.rx a).toNat ≤ 65536)) .badStage
  needMsg t
  let q ← countEff
  hold (.stage (t.rx a).toNat q t.pc)

/-- LAUNCH (16 R357). -/
def execLaunch (a b : Reg) := runTask fun t => do
  need t.priv .priv
  need (fld (t.rx a) 6 0 == 0) .addrAlign
  needMsg t
  let q ← countEff
  hold (.launch (t.rx a) ((t.rx b).setWidth 6) q)

/-! ## The stage counter at commit (16 R356, 06 R193) -/

/-- The command of a schedule entry (06 Table 6.6, R193). -/
def schedCmd (s : State) (n : Inst) (i : Nat) (e : SchedEnt) (ct : Nat) (who : Issuer) (root priv : Bool) : Cmd :=
  let w := e.ctl
  { id := 0, kind := .copy (w.extractLsb' 8 2), desc := e.desc,
    ar := ⟨w.getLsbD 4, w.getLsbD 5, (Scope.ofCode (w.extractLsb' 0 4)).getD .task⟩, inst := n.id,
    core := (s.coreOf n.id 0).getD 0, row := (partRows (s.part n.part)).getD (fld w 23 18) 0, priv, sched := some i, ct, who, root,
    last := ct }

/-- A command reaches its engine with a tag of its own (06 R196), and a number under which its far writes are acknowledged (04
R135). -/
def State.issue (s : State) (c : Cmd) : State :=
  { s with cmds := s.cmds ++ [{ c with id := s.cmdNext, tag := s.cmdNext, ack := s.ackNext }], cmdNext := s.cmdNext + 1, ackNext := s.ackNext + 1 }

/-- Every entry that the stage counter has reached and that is not released yet leaves, in schedule order (06 R193). -/
def State.releaseStage (s : State) (inst ct : Nat) (who : Issuer) (root priv : Bool) : State :=
  match s.inst? inst with
  | none => s
  | some n =>
    let due (e : SchedEnt) : Bool := !e.released && decide (fld e.ctl 63 32 ≤ n.stage)
    let s := (n.sched.zipIdx).foldl (fun s p => if due p.1 then s.issue (schedCmd s n p.2 p.1 ct who root priv) else s) s
    s.onInst inst fun n => { n with sched := n.sched.map fun e => if due e then { e with released := true } else e }

/-- STAGE at commit. -/
def State.advanceStage (s : State) (inst n ct : Nat) (who : Issuer) (priv : Bool) : State :=
  (s.onInst inst fun i => { i with stage := min (i.stage + n) (2 ^ 64 - 1) }).releaseStage inst ct who false priv

/-! ## Joins (16 R353, R354) -/

/-- A join is armed at commit. DEDUCED: log 46. -/
def Core.armJoin (k : Core) (h : Word) (n slots ch : Nat) (lin : Lineage) : Core :=
  { k with jseq := k.jseq + 1, joins := k.joins ++ [{ handle := h, slots, n, ch, stamp := 0, full := [], lin }] }

/-- JoinOver (16 R354): a record of KIND 5 and a fault message to the joining core; the value is discarded. -/
def joinOver (c : Nat) (jref : Word) (who : Issuer) (t : Nat) : M Unit := do
  let s ← get
  match s.core? c with
  | none => pure ()
  | some k =>
    let (p, x) := s.instCtx k.inst
    let detail := jref &&& BitVec.ofNat 64 (0xFF * 2 ^ 48 + (2 ^ 44 - 1))
    let (seq, ct) ← writeRecord p x { kind := 5, cause := Cause.joinOver.code, detail, who } t
    modify fun s => s.faultMsg c 5 Cause.joinOver.code seq ct (childLin who.path (2 ^ 62 + (who.q + 1) * 2 ^ 24))

/-- The handle and the slot that a join reference names (16 R353). -/
def jrefHandle (jref : Word) : Word := jref &&& BitVec.ofNat 64 (2 ^ 44 - 1)
def jrefIdx (jref : Word) : Nat := fld jref 55 48

/-- The join of a core that takes a value: armed, with the reference's slot in range and empty (16 R354). -/
def Core.joinFor (k : Core) (jref : Word) : Option JoinRec :=
  (k.joins.find? fun j => j.handle == jrefHandle jref).filter fun j => jrefIdx jref < j.n && !j.full.contains (jrefIdx jref)

/-- A value reaches its slot; the last one posts the continuation (16 R354). -/
def State.fillJoin (s : State) (c : Nat) (jref value : Word) (t : Nat) : State :=
  (s.arrive c fun k s =>
    let h := jrefHandle jref
    match k.joinFor jref with
    | some j =>
      let j' := { j with full := j.full ++ [jrefIdx jref], stamp := max j.stamp t }
      let k := k.spEngine (j.slots + 8 * jrefIdx jref) ((wordBytes64 value).map some)
      if j'.full.length = j.n then
        (s.setCore c { k with joins := k.joins.filter fun x => x.handle != h }).postHw c 6 j.ch [h] j'.stamp .continuation j.lin
      else s.setCore c { k with joins := k.joins.map fun x => if x.handle == h then j' else x }
    | none => s).countArrival c

/-- JoinArrive at a core, resident or in its image; one whose row is held waits (16 R354, 21 R417, R420). -/
def joinArrive (c : Nat) (jref value : Word) (t : Nat) (who : Issuer) : M Unit := do
  let k ← coreNow c
  if (k.joinFor jref).isSome then modify fun s => s.fillJoin c jref value t
  else do
    modify fun s => s.countArrival c
    joinOver c jref who t

/-- JOIN_ARRIVE: the `k`-th item of the control network; where it must wait, nothing happens. A value for a context that has left the
package is lost, and counts in the sender's LOSTC (21 R425). -/
def execJoinArrive (k : Nat) (s : State) : Host.Outcome State Fault Refusal :=
  match s.ctl[k]? with
  | some (.join inst lid jref value stamp _ pc arr ch q core path) =>
    let s1 := { s with ctl := s.ctl.eraseIdx k }
    match s.coreOf inst (fld jref 43 32) with
    | some c =>
      if s.goneInst inst then .next (s1.lose (((s.core? core).map fun k => s.instCtx k.inst).getD (s.instCtx inst)))
      else match joinArrive c jref value stamp { pc, path, arr, lid := ((s.core? core).map (·.lid)).getD lid, ch, q } s1 with
      | .ok _ s2 => .next s2
      | .error _ _ => .next s
    | none => .next s1
  | _ => .next s

/-! ## Barriers (16 R358 to R360) -/

def Inst.bar (n : Inst) (b : Nat) : Barrier := tget n.bars b { lo := 0, n := 0, e := 0 }

/-- The first group number of an instance's cores; 0 where it is in no group (24 R458). -/
def Inst.first (n : Inst) : Nat := match n.group with | some (_, _, _, f, _) => f | none => 0

/-- Member and arrived bits after an installation over `lo` to `lo + n - 1` (16 R359), wherever the instance's cores rest (21 R417). -/
def State.setMembers (s : State) (inst b lo n : Nat) : State :=
  let first := ((s.inst? inst).map Inst.first).getD 0
  let m : BitVec 64 := (1 : BitVec 64) <<< b
  (s.cores.filter fun p => p.2.inst == inst).foldl (fun s p => s.arrive p.1 fun k s =>
    let inside := decide (lo ≤ first + k.lid) && decide (first + k.lid < lo + n)
    s.setCore p.1 { k with member := if inside then k.member ||| m else k.member &&& ~~~m, arrived := k.arrived &&& ~~~m }) s

/-- Whether the interface of some core of an instance keeps a barrier update waiting (21 Table 21.8). -/
def State.barWaits (s : State) (inst : Nat) : Bool :=
  s.cores.any fun p => p.2.inst == inst && (routeOf s p.2 == .hold || routeOf s p.2 == .wait)

/-- BARINIT at commit (16 R359); the status of its report. -/
def State.install (s : State) (inst b lo n : Nat) : State × Nat :=
  match s.inst? inst with
  | none => (s, 0)
  | some i =>
    let old := i.bar b
    if !old.arrs.isEmpty || old.drops != 0 then (s, Cause.barBusy.code)
    else ((s.onInst inst fun i => { i with bars := tput i.bars b { lo, n, e := n } }).setMembers inst b lo n, 0)

/-- PhaseComplete (16 R360). -/
def State.phaseDone (s : State) (inst b : Nat) : State :=
  match s.inst? inst with
  | none => s
  | some i =>
    let x := i.bar b
    if x.e = 0 || x.arrs.length + x.drops < x.e then s
    else
      let e := x.e - x.drops
      let s := x.arrs.foldl (fun s a =>
        s.postHw a.1 7 a.2.1 [BitVec.ofNat 64 x.phase, BitVec.ofNat 64 e] x.stamp (.release b) a.2.2 (6, b)) s
      if e = 0 then s.onInst inst fun i => { i with bars := tdel i.bars b }
      else s.onInst inst fun i =>
        { i with bars := tput i.bars b { x with e, phase := x.phase + 1, arrs := [], drops := 0, stamp := 0 } }

/-- An arrival or a drop reaches a barrier. An arrival of another package counts, and its own package releases it. -/
def State.arriveBar (s : State) (inst b : Nat) (f : Barrier → Barrier) : State :=
  (s.onInst inst fun i => if (i.bar b).e = 0 then i else { i with bars := tput i.bars b (f (i.bar b)) }).phaseDone inst b

/-- A member's arrival leaves for the other packages of its group once its offers are applied (20 R393, 24 R458). -/
def State.tellGroup (s : State) (inst : Nat) (f : Nat → Out) : State :=
  match (s.inst? inst).bind Inst.group with
  | some g => { s with out := s.out ++ [f g.1] }
  | none => s

/-- Offers of a core that are not applied yet among some items of the control network (20 R393). -/
def offersOf (l : List Ctl) (inst core : Nat) : Bool :=
  l.any fun x => match x with | .offer i c _ _ _ => i == inst && c == core | _ => false

/-- BARRIER_ARRIVAL (16 R360; 20 R393: the offers of its core go before it). One for a context that has left the package is lost (21 R425).
DEDUCED: log 83. -/
def execBarrierArrival (e : BarEv) (s : State) : Host.Outcome State Fault Refusal :=
  let member (g : Nat) : Option Inst := s.insts.find? fun n => (n.group.map (·.1)) == some g
  match e with
  | .item k =>
    match s.ctl[k]? with
    | some (.arrive inst b core drop ch stamp lin) =>
      let lid := ((s.core? core).map (·.lid)).getD 0
      if offersOf (s.ctl.take k) inst core then .next s
      else if s.goneInst inst then .next ({ s with ctl := s.ctl.eraseIdx k }.lose (s.instCtx inst))
      else if instWaits s inst then .next s
      else .next ((({ s with ctl := s.ctl.eraseIdx k }.tellGroup inst fun g => .barrier g b lid drop).arriveBar inst b fun x =>
        { x with arrs := if drop then x.arrs else x.arrs ++ [(core, ch, lin)], drops := if drop then x.drops + 1 else x.drops,
                 stamp := max x.stamp stamp }).shadowInst inst)
    | _ => .next s
  | .peerArrive g b drop pkg =>
    match member g with
    | some n =>
      if s.goneInst n.id then .next { s with out := s.out ++ [.lost pkg] }
      else if instWaits s n.id then .next s
      else .next ((s.arriveBar n.id b fun x => { x with
        arrs := if drop then x.arrs else x.arrs ++ [(peerCore, 0, {})],
        drops := if drop then x.drops + 1 else x.drops }).shadowInst n.id)
    | none => .next s
  | .peerInstall g b lo n =>
    match member g with
    | some i => if s.goneInst i.id || s.barWaits i.id || instWaits s i.id then .next s else .next ((s.install i.id b lo n).1.shadowInst i.id)
    | none => .next s

end Sys2Proof.Machine
end

