-- ==== Sys2Proof/Machine/Search.lean ====
section
/-! DEFINITION. The incumbent, bounds and kills: OP 0x29 and the incumbent unit's events (spec 20). -/

namespace Sys2Proof.Machine

/-- 20 R390. -/
def better (mx : Bool) (v p vv pp : Word) : Bool :=
  (if mx then decide (vv.toInt < v.toInt) else decide (v.toInt < vv.toInt)) || (v == vv && decide (p.toNat < pp.toNat))
/-- A bound that cannot beat a value (20 R390). -/
def worse (mx : Bool) (b v : Word) : Bool := if mx then decide (b.toInt < v.toInt) else decide (v.toInt < b.toInt)

/-- An offer or an update applied to the fields of 20 Table 20.1 (20 R390, R392). -/
def Incumb.take (i : Incumb) (mx : Bool) (v p : Word) : Incumb :=
  if !i.ne then { ne := true, sense := mx, value := v, payload := p }
  else if i.sense == mx && better mx v p i.value i.payload then { i with value := v, payload := p }
  else i

/-- Whether a bound is killed by a core's copy (20 R395, R396). -/
def Core.kills (k : Core) (bound : Word) : Bool := k.inc.ne && worse k.inc.sense bound k.inc.value

/-- Whether the current task can be killed at all: PRUNE and HB, and not DET (20 R396, R398). -/
def prunable (s : State) (k : Core) (t : Task) : Bool :=
  entPrune (k.chan t.ch).ent && hdrHb t.trig.hdr && !(((s.inst? k.inst).map (·.det)).getD false)

/-- A running task is kill-pending (20 R396). -/
def killPending (s : State) (k : Core) (t : Task) : Bool := prunable s k t && k.kills t.bound

/-! ## OP 0x29 -/

/-- INCUMB (20 R400). -/
def holdOffer (mx : Bool) (a b : Reg) : Task → M Unit := fun t => do
  needMsg t
  let q ← countEff
  hold (.incumb mx (t.rx a) (t.rx b) q)

def execIncumbMin (a b : Reg) := runTask (holdOffer false a b)
def execIncumbMax (a b : Reg) := runTask (holdOffer true a b)

/-- RDINC (20 R401). -/
def readInc (f : Incumb → Word) (d : Reg) : Task → M Unit := fun _ => do
  noDet
  let k ← getCore
  modTask fun t => t.wx d (f k.inc)

def execRdinc (d : Reg) := runTask (readInc (fun i => if i.ne then i.value else 0) d)
def execRdincPay (d : Reg) := runTask (readInc (fun i => if i.ne then i.payload else 0) d)
def execRdincSt (d : Reg) := runTask (readInc (fun i => BitVec.ofNat 64 ((if i.ne then 1 else 0) + (if i.sense then 2 else 0))) d)

/-- KILLPT (20 R396, R402). -/
def execKillpt := runTask fun t => do
  let s ← get
  let k ← getCore
  if killPending s k t then set (s.killTask s.cur) else pure ()

/-- BOUND (20 R402): without effect where the task is not prunable or its trigger has HB = 0. -/
def execBound (a : Reg) := runTask fun t => do
  let k ← getCore
  if entPrune (k.chan t.ch).ent && hdrHb t.trig.hdr then modTask fun t => { t with bound := t.rx a } else pure ()

/-! ## The unit and the copies (20 R390 to R392) -/

/-- An offer reaches the unit of an instance, which of an absent context is kept in its image too (21 R415); a change goes to every copy,
and to the group where it did not come from there. -/
def State.applyOffer (s : State) (inst : Nat) (mx : Bool) (v p : Word) (fromGroup : Bool) : State :=
  match s.inst? inst with
  | none => s
  | some n =>
    let i := n.inc.take mx v p
    if i = n.inc then s
    else
      let s := (s.onInst inst fun n => { n with inc := i }).saveInst inst
      let ups := (s.cores.filter fun c => c.2.inst == inst).map fun c => Ctl.update inst c.1 mx v p
      let s := { s with ctl := s.ctl ++ ups }
      match n.group with
      | some g => if fromGroup then s else { s with out := s.out ++ [.offer g.1 mx v p] }
      | none => s

/-- INCUMBENT_OFFER: the `k`-th item of the control network. One for a context that has left the package is lost (21 R425). -/
def execIncumbentOffer (k : Nat) (s : State) : Host.Outcome State Fault Refusal :=
  match s.ctl[k]? with
  | some (.offer inst _ mx v p) =>
    let s0 := { s with ctl := s.ctl.eraseIdx k }
    if s.goneInst inst then .next (s0.lose (s.instCtx inst))
    else if instWaits s inst then .next s
    else .next (s0.applyOffer inst mx v p false)
  | _ => .next s

/-- INCUMBENT_UPDATE: the `k`-th item reaches its copy, or the group's incumbent improves (20 R392). -/
def execIncumbentUpdate (e : IncEv) (s : State) : Host.Outcome State Fault Refusal :=
  match e with
  | .item k =>
    match s.ctl[k]? with
    | some (.update _ c mx v p) =>
      .next ({ s with ctl := s.ctl.eraseIdx k }.onCore c fun k => { k with inc := k.inc.take mx v p })
    | _ => .next s
  | .peer group mx v p =>
    match s.insts.find? fun n => (n.group.map (·.1)) == some group with
    | some n => if s.goneInst n.id || instWaits s n.id then .next s else .next (s.applyOffer n.id mx v p true)
    | none => .next s

end Sys2Proof.Machine
end

