-- ==== Sys2Proof/Machine/Deliver.lean ====
section
/-! DEFINITION. Delivery, refusal, holding and loss of messages (spec 14 R325 to R330, 21 R417, R420). -/

namespace Sys2Proof.Machine

/-- What the destination's queue engine does with a message (14 Table 14.4). -/
inductive Verdict where
  | accept | wait | refuse (cause : Nat)
  deriving DecidableEq, Repr

/-- Whether a message is a barrier's release, which is never refused (16 R360). -/
def Msg.isRelease (m : Msg) : Bool := match m.kind with | .release _ => true | _ => false

/-- 14 Table 14.4 on a core that exists. A held kind waits for room instead of a refusal (06 R188, 16 R354, R360). In a DET launch a
full mailbox refuses nothing (14 R329); R329 says of a request that it is held, and any other message waits as one does. DEDUCED:
log 24. -/
def judge (k : Core) (det : Bool) (m : Msg) : Verdict :=
  let cls := hdrCls m.hdr
  let x := k.chan (hdrCh m.hdr)
  if k.clmask.getLsbD cls then .wait
  else if !entV x.ent then (if m.isRelease then .wait else .refuse 3)
  else if cls < 4 && hdrGen m.hdr != entGen x.ent then .refuse 2
  else if entMbd x.ent ≤ x.box.length then
    match m.kind with
    | .culvert | .continuation | .release _ => .wait
    | _ => if det then .wait else .refuse 1
  else .accept

/-- Acceptance at the tail, with the next arrival number (14 R322). The message fills the line of its slot (02 R76). -/
def Core.accept (k : Core) (m : Msg) : Core :=
  let c := hdrCh m.hdr
  let x := k.chan c
  let k' := k.cleanLine (k.msgOff c x.box.length)
  { k'.setChan c { x with box := x.box ++ [{ m with arr := k.arrNext }] } with arrNext := (k.arrNext + 1) % 2 ^ 32 }

/-- The refusal of a request (14 R326, R470). DEDUCED: log 24. -/
def refusal (m : Msg) (cause t : Nat) : Msg where
  hdr := hwHeader m.sCore (min (hdrCnt m.hdr + 1) 7) 5 (hdrRch m.hdr) cause (fld m.hdr 63 54)
  pay := m.hdr :: m.pay.take 6
  kind := .refusal
  stamp := t
  inst := m.inst
  lin := { childLin m.lin.parent (m.lin.index.toNat / 4 * 4 + 2) with root := false }

/-- The agent that refuses a message: the queue engine of its destination core, where there is one (14 R326). -/
def State.refuser (s : State) (f : Flight) : Nat × Nat :=
  match s.coreOf f.inst f.lid with
  | some c => (0, c)
  | none => (7, f.inst)

/-- What becomes of a message that its destination refuses (14 R326): a refusal goes back, or the message is lost,
or a monitor message is sent again (06 R183). `dst` is the context that owns the destination channel. DEDUCED: log 23. -/
def State.refuse (s : State) (f : Flight) (cause : Nat) (dst : Nat × Nat) : State :=
  let m := f.msg
  match m.kind with
  | .soft =>
    if m.sPkg != s.plat.pkgId then
      if hdrCls m.hdr < 4 then { s with out := s.out ++ [.msg m.sPkg (refusal m cause s.pkgTime)] } else s.lose dst
    else if hdrCls m.hdr < 4 then
      match s.inst? m.inst with
      | none => s.lose dst
      | some _ =>
        let r := refusal m cause s.pkgTime
        s.post { msg := r, inst := m.inst, lid := m.sCore, prod := s.refuser f, refCtx := some dst }
    else s.lose dst
  | .refusal => s.lose (s.instCtx f.inst)
  | .monitor =>
    if cause = 1 then s.post { f with st := .resend (s.now + Config.monResend) } else s.lose dst
  | _ => s.lose dst

/-- A release that reaches its core clears the arrived bit (16 R360). -/
def Core.released (k : Core) (m : Msg) : Core :=
  match m.kind with
  | .release b => { k with arrived := k.arrived &&& ~~~((1 : BitVec 64) <<< b) }
  | _ => k

/-- A message stays where it waits, in its sender's send queue or with the agent that produced it, in its place among those that
are in flight (14 R328, R330). -/
def State.keepAt (s : State) (i : Nat) (f : Flight) : State := { s with net := s.net.insertIdx i f }

/-- The most entries of a row's hold area (21 Table 21.5), and of its hold queue. DEDUCED: log 96. -/
def holdMax : Nat := 2048
/-- The flights that a context holds for a row. -/
def Ctx.rowHolds (y : Ctx) (row : Nat) : List Flight := (y.holds.filter fun h => h.1 == row).map (·.2)

/-- An entry of a hold area: the message and its metadata (21 Table 21.5). DESIGN CHOICE: log 15. -/
def Flight.entry (f : Flight) : List Byte := f.msg.bytes ++ f.msg.meta

/-- A message that is never refused and finds its mailbox full goes to the hold area of its row in the image (21 R417). -/
def State.holdArea (s : State) (k : Core) (f : Flight) : State :=
  let (p, x) := s.instCtx k.inst
  match s.ctx? p x with
  | none => s
  | some y =>
    let a := imgBase s y + 0x10000 + rowIndex s p x k.row * 0x40000 + 128 * (y.rowHolds k.row).length
    ((s.bulkImg y a 128 (cellsAt 0 f.entry)).onCtx p x fun y => { y with holds := y.holds ++ [(k.row, f)] }).restream p x

/-- Whether a core's queue engine holds something that goes before a hardware message: of its class, and offered first or bound
for the same channel (14 R330). -/
def heldBefore (k : Core) (det : Bool) (m : Msg) : Bool :=
  k.heldq.any fun x => hdrCls x.hdr == hdrCls m.hdr && (judge k det x != .wait || hdrCh x.hdr == hdrCh m.hdr)

/-- The offer of a message to a core that exists and takes arrivals (14 R325, R330). A soft message that waits stays
at its sender; a hardware message goes to the queue engine's store while it has room, and of a core in an image to the hold area of
its row (21 R417). DIVCNT counts one that does not stay where it is. `i` is its place among the flights. DEDUCED: log 66. -/
def State.offer (s : State) (i c : Nat) (f : Flight) : State :=
  let away := ((s.core? c).map (inImage s)).getD false
  let hw := f.src.isNone && f.msg.kind != .soft
  s.arrive c fun k s =>
    let det := ((s.inst? k.inst).map (·.det)).getD false
    let k := if f.reached then k else k.released f.msg
    let s := s.setCore c k
    let room := ((s.ctx? (s.instCtx k.inst).1 (s.instCtx k.inst).2).map fun y => decide ((y.rowHolds k.row).length < holdMax)).getD false
    match (if hw && !away && heldBefore k det f.msg && judge k det f.msg == .accept then .wait else judge k det f.msg) with
    | .accept => (s.setCore c (k.accept f.msg)).countArrival c
    | .refuse r =>
      (if away && f.msg.kind == .monitor && r == 1 && room then s.holdArea k f else s.refuse f r (s.instCtx k.inst)).countArrival c
    | .wait =>
      if hw && away && !k.clmask.getLsbD (hdrCls f.msg.hdr) && room then (s.holdArea k { f with reached := true }).countArrival c
      else if hw && !away && k.heldq.length < 64 then s.setCore c { k with heldq := k.heldq ++ [f.msg] }
      else s.keepAt i { f with st := .held, reached := f.msg.isRelease }

/-- A message is lost because its destination context has left the package: the sending context counts it, here or at the package
that sent it (14 R326). -/
def State.loseGone (s : State) (f : Flight) : State :=
  if f.prod.1 = 5 then { s with out := s.out ++ [.lost f.msg.sPkg] }
  else s.lose (f.refCtx.getD (s.instCtx f.msg.inst))

/-- A refusal whose sending instance has ended is lost, and the context of the channel that refused counts it (14 R326). -/
def State.loseRefusal (s : State) (f : Flight) : State :=
  match f.refCtx with
  | some d => s.lose d
  | none => { s with out := s.out ++ [.lost f.msg.sPkg] }

/-- A flight arrives (14 R325; 21 R420, R425). It has left place `i` of `net` already. A row's full hold queue, and an image that
cannot be written, make it wait at its interface (21 R420). -/
def State.land (s : State) (i : Nat) (f : Flight) : State :=
  let dst := s.instCtx f.inst
  match s.coreOf f.inst f.lid with
  | none =>
    if (s.inst? f.inst).isSome then s.refuse f 4 dst
    else if f.msg.kind = .refusal then s.loseRefusal f
    else s.lose dst
  | some c =>
    match s.ctx? dst.1 dst.2 with
    | some y =>
      if y.gone then
        if f.msg.kind = .soft && hdrCls f.msg.hdr < 4 then s.refuse f 2 dst else s.loseGone f
      else match s.core? c with
        | some k =>
          match routeOf s k with
          | .hold =>
            if (y.rowHolds k.row).length < holdMax then s.onCtx dst.1 dst.2 fun y => { y with holds := y.holds ++ [(k.row, f)] }
            else s.keepAt i f
          | .wait => s.keepAt i f
          | _ => s.offer i c f
        | none => s.lose dst
    | none => s.offer i c f

/-- Whether a flight is for another package (14 Table 14.2). -/
def Flight.abroad (s : State) (f : Flight) : Bool :=
  let p := hdrPkg f.msg.hdr
  f.msg.kind == .soft && p != 0x1FF && p != s.plat.pkgId

/-- The core whose message a flight is: its sender, or the queue engine that made it (14 R326). -/
def Flight.agent (f : Flight) : Nat × Nat :=
  match f.src with
  | some c => (0, c)
  | none => f.prod

/-- The package that a flight is for: 0x1FF names this one (14 Table 14.2). -/
def Flight.pkg (s : State) (f : Flight) : Nat := if hdrPkg f.msg.hdr = 0x1FF then s.plat.pkgId else hdrPkg f.msg.hdr

/-- Whether two flights are for one core. A fork that asks for placement and has not left may be for any (16 R354); the messages of its
core leave after it (13 R312). -/
def Flight.sameCore (f g : Flight) : Bool := f.inst == g.inst && (f.lid == g.lid || f.place || g.place)

/-- Two flights that 13 R312 and 14 R328 order: one core's messages, its refusals among them, to one channel of one core on one
class; and the messages of one culvert, which go in slot order (06 R188). -/
def Flight.ordered (s : State) (f g : Flight) : Bool :=
  let ofCore := (f.src.isSome || f.msg.kind == .refusal) && f.agent == g.agent &&
    (f.src == g.src || f.msg.kind == .refusal || g.msg.kind == .refusal)
  let ofPeer := f.src.isNone && f.prod.1 == 5 && f.prod == g.prod && f.msg.sCore == g.msg.sCore
  let ofCulvert := f.msg.kind == .culvert && g.msg.kind == .culvert && f.prod == g.prod
  (if f.prod.1 == 5 then ofPeer else ofCore || ofCulvert) && f.pkg s == g.pkg s && f.sameCore g && hdrCh f.msg.hdr == hdrCh g.msg.hdr &&
    hdrCls f.msg.hdr == hdrCls g.msg.hdr

/-- The agent that keeps a hardware message; the culverts of a core belong to its queue engine. -/
def Flight.keeper (f : Flight) : Nat × Nat := (f.prod.1, f.prod.2 % 2 ^ 32)

/-- Whether a flight waits behind an earlier one: those that R312 orders, and, for a hardware message, one to the same core that the
same agent keeps (14 R330). -/
def Flight.behind (s : State) (f g : Flight) : Bool :=
  match g.st with
  | .delayed _ => false
  | .held => f.ordered s g || (f.src.isNone && g.src.isNone && f.keeper == g.keeper && f.sameCore g)
  | _ => f.ordered s g

/-- Whether a core's arrivals must wait at their interfaces: its row's hold queue is full, or its image cannot be written (21 R420). -/
def State.stuck (s : State) (k : Core) : Bool :=
  match routeOf s k with
  | .wait => true
  | .hold => ((s.ctx? (s.instCtx k.inst).1 (s.instCtx k.inst).2).map fun y => decide (holdMax ≤ (y.rowHolds k.row).length)).getD false
  | _ => false

/-- Whether the `i`-th flight may be offered now: it is not delayed and stands in no saved send queue, nothing that precedes it is
still in flight, a held one would not wait again, or finds room in the store of its destination, and a hardware message follows those
its destination holds (14 R330). -/
def canLand (s : State) (i : Nat) : Bool :=
  match s.net[i]? with
  | none => false
  | some f =>
    let ready := match f.st with
      | .delayed _ | .saved _ _ => false
      | .resend due => decide (due ≤ s.now)
      | st =>
        match (if f.place then none else s.coreOf f.inst f.lid).bind s.core? with
        | none => true
        | some k =>
          let det := ((s.inst? k.inst).map (·.det)).getD false
          let away := inImage s k
          if s.stuck k then false
          else if f.src.isSome || f.msg.kind == .soft then st != .held || judge k det f.msg != .wait
          else if judge k det f.msg = .wait then st != .held || (!away && decide (k.heldq.length < 64))
          else away || !heldBefore k det f.msg
    let copyAhead := match f.msg.kind with
      | .release _ => s.ctl.any fun x => match x with
          | .update inst c _ _ _ => inst == f.inst && some c == s.coreOf f.inst f.lid
          | _ => false
      | _ => false
    ready && !s.unacked f.wait && !copyAhead && !((s.net.take i).any fun g => f.behind s g)

/-- 16 R354: a fork that asks for placement gets its core when it leaves: at its commit, or, where a release on it waits, once that
is done. Its draw is the next of the owner's placement stream at the physical core (18 R366). DEDUCED: log 83. -/
def placeFlight (s : State) (f : Flight) : State × Flight :=
  if !f.place then (s, f)
  else match s.inst? f.inst, f.src with
    | some n, some c =>
      if n.det then
        let v := fld (gGen n.pkey f.msg.lin.path) 15 0
        (s, { f with lid := v * n.nvc / 65536, place := false })
      else match s.core? c with
        | some k =>
          let k := s.enter k
          let seed := (s.owner (s.part n.part).owner).seed
          let v := (drawD seed 2 (2 * k.placecnt + 1)).toNat * 256 + (drawD seed 2 (2 * k.placecnt)).toNat
          ((s.setCore c k).drawn c 2, { f with lid := v * n.nvc / 65536, place := false })
        | none => (s, { f with place := false })
    | _, _ => (s, { f with place := false })

/-- The header with the DCORE that placement chose (16 R354). -/
def Flight.withCore (f : Flight) (placed : Bool) : Flight :=
  if placed then { f with msg := { f.msg with hdr := setFld f.msg.hdr 23 12 f.lid } } else f

/-- A message leaves: with its core, where it asks for placement. -/
def State.leave (s : State) (f : Flight) : State × Flight :=
  let p := placeFlight s f
  (p.1, p.2.withCore f.place)

/-- MESSAGE_DELIVERY of the `i`-th flight; where it may not be offered, nothing happens. One that asks for placement leaves now, and
is delivered later. DEDUCED: log 83. -/
def deliverFlight (s : State) (i : Nat) : State :=
  if !canLand s i then s
  else match s.net[i]? with
    | none => s
    | some f =>
      let s := { s with net := s.net.eraseIdx i }
      if f.place then
        let p := s.leave f
        p.1.keepAt i p.2
      else if f.abroad s then { s with out := s.out ++ [.msg (hdrPkg f.msg.hdr) f.msg] }
      else s.land i f

/-- A message of another package as a flight to the logical core that its DCORE names, of the member instance `inst` (14 R324). -/
def peerFlight (inst : Nat) (ref : Bool) (hdr : Word) (pay : List Word) (stamp pkg core : Nat) (parent index jref : Word) :
    Flight where
  msg := { hdr, pay, kind := if ref then .refusal else .soft, stamp, inst, sPkg := pkg, sCore := core,
           lin := childLin parent index.toNat, jref }
  inst
  lid := hdrCore hdr
  prod := (5, pkg)

/-- Whether a message of another package must wait where it is: a soft one that its core turns away for now, at its sender (14 R325
step 1, R329), and any that finds no way to its core or to the image (21 R420), or an earlier one of its sender before it (R328). -/
def peerWaits (s : State) (f : Flight) : Bool :=
  s.net.any (fun g => f.ordered s g) || (match (s.coreOf f.inst f.lid).bind s.core? with
    | some k => s.stuck k || (f.msg.kind == .soft && routeOf s k != .hold && judge k (((s.inst? k.inst).map (·.det)).getD false) f.msg == .wait)
    | none => false)

/-- A message of a group whose member here has ended is lost, and counts in the LOSTC of the context that the member ran in (14 R326). -/
def State.loseEnded (s : State) (group : Nat) : State :=
  match tget? s.endedGroups group with
  | some x => s.lose x
  | none => s

/-- MESSAGE_DELIVERY (14 R324 to R326). A message of a group with no member here finds no core: a request is refused with NOCORE, and one of
classes 4 to 6 is lost. A loss that another package reports counts in the LOSTC of the context of the group's member, also once that has
ended. -/
def execMessageDelivery (e : MsgEv) (s : State) : Host.Outcome State Fault Refusal :=
  let member (group : Nat) : Option Inst := s.insts.find? fun n => (n.group.map (·.1)) == some group
  match e with
  | .flight k => .next (deliverFlight s k)
  | .peer group ref hdr pay stamp pkg core parent index jref =>
    match member group with
    | none =>
      let f := peerFlight 0 ref hdr pay stamp pkg core parent index jref
      .next (if ref then { s with out := s.out ++ [.lost pkg] }
        else if hdrCls hdr < 4 then { s with out := s.out ++ [.msg pkg (refusal f.msg 4 s.pkgTime)] }
        else s.loseEnded group)
    | some n =>
      let f := peerFlight n.id ref hdr pay stamp pkg core parent index jref
      .next (if peerWaits s f then s else s.land s.net.length f)
  | .lost group => .next (match member group with
    | some n => s.lose (n.part, n.ctx)
    | none => s.loseEnded group)

/-- The first message of a queue engine's store that would not wait, with nothing of its channel and class before
it. -/
def heldReady (k : Core) (det : Bool) (q : List Msg) : Option Nat :=
  q.findIdx? fun m => judge k det m != .wait &&
    !((q.takeWhile fun x => x != m).any fun x => hdrCh x.hdr == hdrCh m.hdr && hdrCls x.hdr == hdrCls m.hdr)

/-- HELD_MESSAGE_ACCEPT (14 R330, 06 R188): a core's queue engine offers a message it holds. -/
def execHeldMessageAccept (c : Nat) (s : State) : Host.Outcome State Fault Refusal :=
  match s.core? c with
  | none => .next s
  | some k =>
    let det := ((s.inst? k.inst).map (·.det)).getD false
    match heldReady k det k.heldq with
    | none => .next s
    | some i =>
      match k.heldq[i]? with
      | none => .next s
      | some m =>
        if routeOf s k = .hold || s.stuck k then .next s
        else .next ((s.setCore c { k with heldq := k.heldq.eraseIdx i }).arrive c fun k s =>
          match judge k det m with
          | .accept => (s.setCore c (k.accept m)).countArrival c
          | .refuse r => s.refuse { msg := m, inst := k.inst, lid := k.lid, prod := (0, c) } r (s.instCtx k.inst)
          | .wait => s)

/-- SENDD_DELAY (14 R336): the `k`-th delayed message of a core leaves once its delay has passed. -/
def execSenddDelay (c k : Nat) (s : State) : Host.Outcome State Fault Refusal :=
  let mine := (s.net.zipIdx).filter fun p => p.1.src == some c && (match p.1.st with | .delayed _ => true | _ => false)
  match mine[k]? with
  | none => .next s
  | some (f, i) =>
    match f.st with
    | .delayed due =>
      if due ≤ s.now then .next { s with net := s.net.eraseIdx i ++ [{ f with st := .moving }] } else .next s
    | _ => .next s

/-- MONITOR_RESEND (06 R183): the `k`-th flight, a monitor message that a full mailbox refused, is offered again. -/
def execMonitorResend (k : Nat) (s : State) : Host.Outcome State Fault Refusal :=
  match s.net[k]? with
  | some f => match f.st with
    | .resend due => if due ≤ s.now then .next (deliverFlight s k) else .next s
    | _ => .next s
  | none => .next s

end Sys2Proof.Machine
end

