-- ==== Sys2Proof/Machine/Suspend.lean ====
section
/-! DEFINITION. Placement of logical cores, suspension, halt, diversion and resume of a context (spec 16 R347, 10 R265,
21 R411 to R426, R432). -/

namespace Sys2Proof.Machine

/-! ## Placement (00 R3, 16 R347) -/

/-- The enabled cores of benches, die-major and then in physical order: die and position. -/
def enabledCores (pl : Plat) (benches : List Nat) : List (Nat × Nat) :=
  ((List.range 288).filter benches.contains).flatMap fun b => (List.range 8).filterMap fun i =>
    let p := 8 * (b % 72) + i
    if (pl.hmap.getD (9 * (b / 72) + p / 64) 0).getLsbD (p % 64) then some (b / 72, p) else none

/-- The core that hosts logical core `n` (16 R347). -/
def hostOf (es : List (Nat × Nat)) (n : Nat) : Nat × Nat := if es.length = 0 then (0, 0) else es.getD (n % es.length) (0, 0)

/-- The logical cores of a clamp group in the order of their positions; none where a member is fused, outside the
instance or unlike the leader (10 R265). -/
def clampGroup (s : State) (c w : Nat) : Option (List Nat) :=
  match s.core? c with
  | none => none
  | some k =>
    let base := k.phys / w * w
    (List.range w).mapM fun i =>
      (s.cores.find? fun p => p.2.inst == k.inst && p.2.die == k.die && p.2.phys == base + i &&
        p.2.regions == k.regions && p.2.spsize == k.spsize).map (·.1)

/-- Whether a core is a member of a running clamp, or a follower whose PERS stores wait for the leader's end (10 R268). -/
def followerOf (s : State) (c : Nat) : Bool :=
  s.cores.any fun p => p.1 != c && match p.2.task with
    | some t => t.members.contains c || t.sluice.any fun e => match e with
        | .pers m _ _ _ => m == c
        | .persSb m _ _ _ => m == c
        | _ => false
    | none => false

/-- A core between tasks (21 R411). -/
def atBoundary (s : State) (c : Nat) : Bool :=
  match s.core? c with
  | some k => k.task.isNone && !followerOf s c
  | none => true

/-- A core that comes to a physical core is switched out where another resident one holds it (16 R347). -/
def State.seat (s : State) (c : Nat) : State :=
  s.onCore c fun k => { k with
    out := s.cores.any fun p => p.1 != c && p.2.resident && !p.2.out && p.2.die == k.die && p.2.phys == k.phys }

/-! ## Contexts -/

/-- Whoever asked for a suspension, halt or resume learns its end (21 R432, 24 R450). DEDUCED: log 23. -/
def State.answer (s : State) (a : Option Asker) (cause ctx : Nat) : State :=
  match a with
  | none => s
  | some (.host fn seq) => s.complete fn seq 0 cause
  | some (.task c ch lin) => s.postHw c 6 ch.toNat [BitVec.ofNat 64 cause, BitVec.ofNat 64 ctx] s.pkgTime .halt lin (4, 0)

/-- 21 Table 21.6: the image header; `recs` counts the engine records. DEDUCED: log 72. -/
def imageHeader (s : State) (x : Ctx) (g : Image) (recs : Nat) : List Byte :=
  let cs := ctxCores s x.part x.ctx
  natBytes 8 0x48434B37504F4C44 ++ natBytes 4 2 ++ natBytes 4 ((if g.halted then 1 else 0) + (if x.gpa then 2 else 0)) ++
    natBytes 4 g.nvc ++ natBytes 4 ((cs.head?.map fun p => p.2.spsize).getD 0) ++ natBytes 4 g.nb ++ natBytes 4 g.e ++
    natBytes 4 (ctxInsts s x.part x.ctx).length ++ natBytes 4 recs ++
    natBytes 8 g.divcnt ++ natBytes 1 (s.part x.part).owner ++ natBytes 1 x.ctx ++ List.replicate 6 0 ++ natBytes 8 s.pkgTime

/-- An engine record (21 R416). DESIGN CHOICE: log 15. -/
def Cmd.record (c : Cmd) : List Byte :=
  let st := match c.phase with | .parked cause => 2 + cause * 2 ^ 32 | _ => 1
  vecBytes c.desc ++ natBytes 8 c.tag ++ natBytes 8 c.unit ++ natBytes 8 (c.who.lid + c.kind.word * 2 ^ 16) ++ natBytes 8 c.ct ++
    natBytes 8 st ++ List.replicate 24 0

/-- The records of a feed's words, 11 to a record (21 R416). -/
def feedRecords (lid feed : Nat) : Nat → List Word → List (List Byte)
  | 0, _ => []
  | n + 1, ws =>
    if ws.isEmpty then []
    else
      let w := ws.take 11
      (natBytes 2 lid ++ natBytes 1 feed ++ natBytes 1 w.length ++ List.replicate 4 0 ++
        (w ++ List.replicate (11 - w.length) 0).flatMap wordBytes64 ++ natBytes 8 4 ++ List.replicate 24 0) ::
        feedRecords lid feed n (ws.drop 11)

/-- Whether an inner suspension or resume must stand still: its asker's own context is not CLOSED (21 R426). DEDUCED: log 82. -/
def nested (s : State) (x : Ctx) : Bool :=
  match x.asker with
  | some (.task c _ _) =>
    match s.core? c with
    | some k =>
      let (p, o) := s.instCtx k.inst
      (match s.ctx? p o with | some y => y.div != .closed | none => false)
    | none => false
  | _ => false

/-- The engine records of state 3 (21 R426): of every suspension or resume in progress that one of the cores asked for, the
entry, its LOADED rows, how many messages its hold queues hold, and its cursor; then, 128 bytes each, those messages in arrival order.
DEDUCED: log 82. -/
def innerRecords (s : State) (ids : List Nat) : List (List Byte) :=
  (s.ctxs.filter fun y => (y.div == .saving || y.div == .merging) &&
    (match y.asker with | some (.task c _ _) => ids.contains c | _ => false)).flatMap fun y =>
      (natBytes 16 (divBits y) ++ natBytes 8 ((y.loaded.map fun r => 2 ^ r).sum) ++ natBytes 8 y.holds.length ++ List.replicate 40 0 ++
        natBytes 8 y.loaded.length ++ List.replicate 16 0 ++ natBytes 8 3 ++ List.replicate 24 0) :: y.holds.map fun h => h.2.entry

/-- A command whose scratchpad words are written stands at its cursor; at its release where its last payload byte is written. -/
def State.settleCmd (s : State) (c : Cmd) : State := let c := { c with buf := [] }; s.putCmd (c.payload (s.putCmd c))

/-- The words that a command has taken from a feed and not consumed below its cursor go back to the feed's head: the engine record that a
halt writes has the cursor alone (06 R172; 21 R416). -/
def State.unfeed (s : State) (id : Nat) : State :=
  match s.cmd? id with
  | none => s
  | some c => match c.drawsFrom with
    | none => s
    | some f =>
      let k := if c.units ≤ c.unit then c.feed.length else c.unit / 2
      let s := if c.feed.length ≤ k then s else
        { s with feeds := tput s.feeds (c.core, f) (c.feed.drop k ++ tget s.feeds (c.core, f) []) }
      s.putCmd { c with feed := c.feed.take k }

/-- Every command of a context that a halt stops writes the scratchpad words that it holds back, and stands at its cursor (21 R423, 06
R195); the feeds take back what the commands have not consumed, those of the first command first. -/
def State.flushCmds (s : State) (part ctx : Nat) : State :=
  let mine := s.cmds.filter fun c => s.instCtx c.inst == (part, ctx)
  let s := mine.foldl (fun s c => (c.buf.foldl State.putPend s).settleCmd c.restart) s
  mine.reverse.foldl (fun s c => s.unfeed c.id) s

/-- The words that engines and matrix units have for the scratchpads of some cores are written, before those are streamed (21 R412 step
3). Each was counted or not as its line arrived (R417). -/
def State.flushFor (s : State) (cs : List Nat) : State :=
  let mine (w : Pend) : Bool := cs.contains w.core
  let s := (s.cmds.filter fun c => c.buf.any mine).foldl (fun s c =>
    let s := (c.buf.filter mine).foldl State.putPend s
    let c := { c with buf := c.buf.filter fun w => !mine w }
    s.putCmd (c.payload (s.putCmd c))) s
  s.mxrun.foldl (fun s r => ({ s with mxrun := tput s.mxrun r.1 { r.2 with buf := r.2.buf.filter fun w => !mine w } }) |> fun s =>
    (r.2.buf.filter mine).foldl State.putPend s) s

/-- The bench records of an image: slots, slot states and the queues of unstarted commands (21 R412 step 4), as many of a position's as fit;
the stream has them all. The poison mark of a slot stands at the first line of its record (02 R76). -/
def State.putBenches (s : State) (x : Ctx) (g : Image) (benches : List Nat) : State :=
  benches.zipIdx.foldl (fun s b =>
    let slots := (g.slots.filter fun p => p.1 / 4 == b.2).map fun p => (p.1 % 4, p.2)
    let queues := (List.range 8).map fun i => (i, (g.mx.filter fun m => match s.core? m.core with
      | some k => k.bench == b.1 && k.phys % 8 == i
      | none => false).take 8 |>.map fun m => (m, (imgOrder s x).findIdx (· == m.core)))
    let a := imgBase s x + 0x1100000 + 0x88000 * b.2
    (s.bulkImg x a 0x88000 (benchRecord slots queues)).poisonLines
      ((slots.filter fun p => p.2.poison).map fun p => a + 0x21000 * p.1)) s

/-- The hold areas of an image: what the context holds for each row of its placement (21 Table 21.5). -/
def State.putHolds (s : State) (x : Ctx) : State :=
  (ctxRows s x.part x.ctx).foldl (fun s r =>
    s.bulkImg x (imgBase s x + 0x10000 + rowIndex s x.part x.ctx r * 0x40000) 0x40000 (cellsAt 0 ((x.rowHolds r).flatMap Flight.entry))) s

/-- The last row is streamed: the matrix units' slots and unstarted queues and, for a halt, the engines' commands and
the monitors are captured, the records are written, and the entry is DIVERTED (21 R412, R415, R423; 11 R294). DESIGN CHOICE: log
15. DEDUCED: log 73. -/
def State.finishSuspend (s : State) (part ctx : Nat) : State :=
  match s.ctx? part ctx with
  | none => s
  | some x =>
    let s := if x.halt then s.flushCmds part ctx else s
    let x := (s.ctx? part ctx).getD x
    let cs := ctxCores s part ctx
    let ids := cs.map (·.1)
    let mineSlot (b : BSlot) : Bool := b.ownedBy part ctx
    let g0 := x.img.getD {}
    let benches := g0.benches
    let slots := (s.slots.filter fun p => mineSlot p.2).map fun p => (4 * benches.findIdx (· == p.1.1) + p.1.2, p.2)
    let mine (c : Cmd) : Bool := s.instCtx c.inst == (part, ctx)
    let g : Image := { g0 with
      halted := x.halt, nvc := ids.length, e := (enabledCores s.plat benches).length, slots,
      mx := s.mxq.filter fun m => ids.contains m.core, cmds := if x.halt then s.cmds.filter mine else [],
      mons := if x.halt then s.mons.filter (fun m => ids.contains m.core) else [] }
    let s := { s with
      slots := s.slots.filter fun p => !mineSlot p.2
      mxq := s.mxq.filter fun m => !ids.contains m.core
      cmds := if x.halt then s.cmds.filter fun c => !mine c else s.cmds
      mons := if x.halt then s.mons.filter fun m => !ids.contains m.core else s.mons }
    let x := { x with img := some g }
    let s := s.onCtx part ctx fun _ => x
    let feeds := if x.halt then cs.flatMap fun p => (s.feeds.filter fun f => f.1.1 == p.1).flatMap fun f =>
      feedRecords p.2.lid f.1.2 4 f.2 else []
    let recs := g.cmds.map Cmd.record ++ feeds ++ innerRecords s ids
    let base := imgBase s x
    let s := s.bulkImg x (base + 0x1040000) (128 * recs.length) (cellsAt 0 recs.flatten)
    let s := s.bulkImg x base 65536 (cellsAt 0 (imageHeader s x g recs.length))
    let s := (ctxInsts s part ctx).foldl (fun s n => s.putInst x n.id) s
    let s := ((s.putBenches x g benches).putHolds x).putStream x
    let s := s.publishCtx part ctx
    let s := s.onCtx part ctx fun x => { x with div := .diverted, loaded := [], asker := none }
    s.answer x.asker 0 ctx

/-- Whether a suspension can be completed: every row is streamed, the matrix units have finished the commands that they had started
(21 R412 step 4), a reduce-copy that a halt stops stands at the start of a unit (06 R195), and the image can be written. -/
def suspendReady (s : State) (x : Ctx) : Bool :=
  let mine (i : Nat) : Bool := s.instCtx i == (x.part, x.ctx)
  x.div == .saving && (ctxRows s x.part x.ctx).all x.loaded.contains && !(s.mxrun.any fun r => mine r.2.cmd.inst) && !imgWaits s x &&
    !(x.halt && s.cmds.any fun c => mine c.inst && c.phase == .running && c.off != 0 && (match c.kind with | .redc .. => true | _ => false))

/-- Whether every clamp handler entry of a context meets 10 R265 once its logical cores stand on the enabled cores `es`: each
member of each group hosts a logical core with the leader's region table and L1 size. -/
def clampsFit (s : State) (x : Ctx) (es : List (Nat × Nat)) : Bool :=
  let cs := ctxCores s x.part x.ctx
  cs.all fun p => p.2.clampWidths.all fun w =>
    let h := hostOf es p.2.lid
    w == 1 || ((List.range w).all fun i => cs.any fun o =>
      o.2.inst == p.2.inst && hostOf es o.2.lid == (h.1, h.2 / w * w + i) && o.2.regions == p.2.regions && o.2.spsize == p.2.spsize)

/-- Whether a resume may have its benches (21 R419): the cause, 0 where it may. An image whose header, records or queues are poisoned is
not read (02 R76).
DESIGN CHOICE: log 95. -/
def resumeCheck (s : State) (x : Ctx) (benches : List Nat) : Nat :=
  let base := imgBase s x
  let n (o w : Nat) := leNat (mread s.mem (base + o) w)
  if imgPoisoned s x (n 0x18 4) then Cause.dataErr.code
  else
    let es := enabledCores s.plat benches
    let nvc := n 0x10 4
    let g := x.img.getD {}
    let sizeOk := benches.length == n 0x18 4 && (es.length == n 0x1C 4 || (decide (nvc ≤ n 0x1C 4) && decide (nvc ≤ es.length)))
    let clampOk := clampsFit s x es && (decide (nvc ≤ es.length) || (ctxCores s x.part x.ctx).all fun p => p.2.clampWidths.all (· == 1))
    let slotsOk := g.slots.all fun p =>
      let b := ((List.range 288).filter benches.contains).getD (p.1 / 4) 0
      (s.plat.mxmap.getD (b / 72) 0).getLsbD (b % 72)
    if sizeOk && clampOk && slotsOk then 0 else Cause.shape.code

/-! ## An image that another package, or this one before a reset, has saved (21 R425, 24 R455). What the spec lays out is read from its place;
the rest comes from the stream of Machine/Codec.lean, and where an image has none, from `Config.imageWords`. DESIGN CHOICE: log 15. -/

/-- The saved header's MAGIC and VER (21 R415). -/
def imgMagic (s : State) (x : Ctx) : Bool :=
  leNat (mread s.mem (imgBase s x) 8) == 0x48434B37504F4C44 && leNat (mread s.mem (imgBase s x + 8) 4) == 2

/-- An instance of a stream, with what its instance record at `a` says of its stage counter, its incumbent unit and its barriers. -/
def readInst (s : State) (a : Nat) (i : Inst) : Inst :=
  let n (o k : Nat) := leNat (mread s.mem (a + o) k)
  { i with
    stage := n 8 8
    inc := { ne := n 24 8 % 2 == 1, sense := n 24 8 / 2 % 2 == 1, value := BitVec.ofNat 64 (n 32 8), payload := BitVec.ofNat 64 (n 40 8) }
    bars := (List.range 64).filterMap fun b =>
      let o := 4096 + 64 * b
      if n (o + 16) 8 = 0 then none else some (b, {
        lo := n o 8, n := n (o + 8) 8, e := n (o + 16) 8, phase := n (o + 24) 8, drops := n (o + 40) 8, stamp := n (o + 48) 8
        arrs := (tget i.bars b { lo := 0, n := 0, e := 0 }).arrs.take (n (o + 32) 8) }) }

/-- The command of an engine record of state 1 or 2 (21 R416); what the record has no place for is that of the stream's command with its tag.
Words of a feed below the cursor are consumed (06 R172). -/
def readCmd (cmds : List Cmd) (id ack : Nat) (bs : List Byte) : Cmd :=
  let n (o k : Nat) := leNat ((bs.drop o).take k)
  let c := (cmds.find? fun c => c.tag == n 64 8).getD { id, kind := .copy 0 }
  let parked := n 96 4 == 2
  { c with
    id, ack, tag := n 64 8, desc := BitVec.ofNat 512 (n 0 64), unit := n 72 8, ct := n 88 8, kind := CKind.ofWord (n 82 6) c.kind.rest
    who := { c.who with lid := n 80 2 }
    feed := (List.range (if c.units ≤ n 72 8 then c.feed.length else n 72 8 / 2)).map fun i => c.feed.getD i 0
    phase := if parked then .parked (n 100 4) else match c.phase with | .parked _ => .running | p => p
    status := if parked then n 100 4 else c.status }

/-- The feeds of a stream with the words of the records of state 4, in order, 11 to a record (21 R416). -/
def readFeeds : List ((Nat × Nat) × List Word) → List (List Word) → List ((Nat × Nat) × List Word)
  | [], _ => []
  | f :: fs, rs =>
    let k := (f.2.length + 10) / 11
    (f.1, (rs.take k).flatten) :: readFeeds fs (rs.drop k)

/-- The slot of a bench record at `a`. -/
def readSlot (s : State) (part ctx a : Nat) : BSlot :=
  let bs := mread s.mem a 0x21000
  let signed (w v : Nat) : Int := if 2 ^ (w - 1) ≤ v then (v : Int) - 2 ^ w else v
  let elem (c b i : Nat) : Int := signed 16 (leNat ((bs.drop (2 * (256 * c + 32 * b + i))).take 2))
  { st := .ready, part, ctx
    elems := (List.range 256).map fun c => (List.range 8).map fun b => (List.range 32).map (elem c b)
    exps := (List.range 256).map fun c => (List.range 8).map fun b => signed 12 (leNat ((bs.drop (0x20000 + 12 * c)).take 12) / 2 ^ (12 * b) % 2 ^ 12)
    nans := (List.range 256).map fun c => (List.range 8).map fun b => (leNat ((bs.drop (0x20C00 + c)).take 1)).testBit b
    poison := rangePoisoned s a 0x21000 }

/-- The messages of the hold areas of an image at `base`, in the order of the areas: what an entry does not hold is that of the stream's. An
entry of zeros holds none. -/
def readHolds (s : State) (held : List (Nat × Flight)) (base rows : Nat) : List Flight :=
  ((List.range rows).flatMap fun r => (List.range holdMax).map fun j => (r, j)).filterMap fun p =>
    let bs := mread s.mem (base + 0x10000 + 0x40000 * p.1 + 128 * p.2) 128
    if bs.all (· == 0) then none
    else
      let f : Flight := (((held.filter fun h => h.1 == p.1).map (·.2))[p.2]?).getD { msg := { kind := .continuation }, prod := (1, p.1) }
      some { f with msg := Msg.ofBytes (bs.take 64) (bs.drop 64) f.msg }

/-- The package takes an image that it has not saved itself: its instances and cores with new identifiers, its commands, slots,
monitors, feeds, send queues and held messages. The cores' records are read row by row as any are (21 R421), which also rebases their times
(R425). -/
def State.readImage (s : State) (part ctx : Nat) (benches : List Nat) : State :=
  match s.ctx? part ctx with
  | none => s
  | some x =>
    let base := imgBase s x
    let hdr := mread s.mem base 64
    let n (o k : Nat) := leNat (mread s.mem (base + o) k)
    let nb := min 288 (n 0x18 4)
    let (main, lines) := readStream s base hdr
    let r : Names := { core := ofNumber s.coreNext, inst := ofNumber s.instNext }
    let p := (Id.run ((rdPacked r s.now s.instNext part ctx (hostOf (enabledCores s.plat benches))).run main)).1
    let ks := (Id.run ((p.cores.mapM fun k => rdLines k.1 : Rd (List Core)).run lines)).1
    let named {α : Type} (l : List α) : List (Nat × α) := l.zipIdx.map fun k => (s.coreNext + k.2, k.1)
    let cores := named ks
    let insts := p.insts.zipIdx.map fun i =>
      { readInst s (base + 0x1000000 + 8192 * i.2) i.1 with start := (named (p.cores.map (·.2))).filter fun c => c.2.inst == i.1.id }
    let recs := (List.range (min 2048 (n 0x24 4))).map fun i => mread s.mem (base + 0x1040000 + 128 * i) 128
    let st (b : List Byte) : Nat := leNat ((b.drop 96).take 4)
    let cmds := ((recs.zipIdx).filter fun b => st b.1 == 1 || st b.1 == 2).map fun b =>
      readCmd p.cmds (s.cmdNext + b.2) (s.ackNext + b.2) b.1
    let words := (recs.filter fun b => st b == 4).map fun b => (bytesWords 8 ((b.drop 8).take 88)).take (leNat ((b.drop 3).take 1))
    let slots := ((List.range nb).flatMap fun b => (List.range 4).map fun i => (b, i)).filterMap fun q =>
      let a := base + 0x1100000 + 0x88000 * q.1
      if leNat (mread s.mem (a + 0x84000 + 16 * q.2) 1) = 2 then some (4 * q.1 + q.2, readSlot s part ctx (a + 0x21000 * q.2)) else none
    let g : Image := { halted := n 0x0C 4 % 2 == 1, nvc := n 0x10 4, nb, e := n 0x1C 4, slots, cmds, mons := p.mons, mx := p.mx,
                       order := cores.map (·.1), divcnt := n 0x28 8 }
    let held := readHolds s p.holds base (distinct (cores.map fun c => c.2.row)).length
    let s := s.onCtx part ctx fun x => { x with img := some g, holds := held.map fun f => (0, f) }
    { s with
      insts := s.insts ++ insts, cores := s.cores ++ cores, instNext := s.instNext + insts.length, coreNext := s.coreNext + cores.length
      net := s.net ++ p.queues
      pushes := p.pushes.foldl (fun t q => tput t q.1 q.2) s.pushes
      leaving := s.leaving ++ p.leaving.zipIdx.map fun x => { x.1 with id := s.ackNext + recs.length + x.2 }
      feeds := (readFeeds p.feeds words).foldl (fun t f => tput t f.1 f.2) s.feeds
      cmdNext := (cmds.map fun c => c.tag + 1).foldl max (s.cmdNext + recs.length)
      ackNext := s.ackNext + recs.length + p.leaving.length }

/-- Whether a slot may be taken over by a restore: no command reads it and no load runs on it (11 R294). -/
def slotIdle (s : State) (b : Nat × Nat) : Bool :=
  (tget s.slots b {}).readers == 0 && !s.mxrun.any fun r => r.1 == b.1 && r.2.cmd.bs.toNat == b.2 &&
    (match r.2.cmd.kind with | .bld | .mlbe _ => true | _ => false)

/-- The slots of a resumed context's bench records that may return to the units do so, as a load leaves them (11 R294). -/
def State.restoreSlots (s : State) (part ctx : Nat) : State :=
  match s.ctx? part ctx with
  | none => s
  | some x =>
    let bs := (List.range 288).filter x.benches.contains
    let g := x.img.getD {}
    let home (p : Nat × BSlot) : Nat × Nat := (bs.getD (p.1 / 4) 0, p.1 % 4)
    let now := g.slots.filter fun p => slotIdle s (home p)
    let bad (p : Nat × BSlot) : Bool :=
      p.2.poison || rangePoisoned s (imgBase s x + 0x1100000 + 0x88000 * (p.1 / 4) + 0x21000 * (p.1 % 4)) 0x21000
    let slots := now.foldl (fun t p => tput t (home p) { p.2 with st := .ready, part, ctx, readers := 0, poison := bad p }) s.slots
    let s := { s with slots }
    s.onCtx part ctx fun x => { x with img := some { g with slots := g.slots.filter fun p => !slotIdle s (home p) } }

/-- A held message keeps with the row of its core (21 R420, R422). -/
def State.rekeyHolds (s : State) (part ctx : Nat) : State :=
  let row (h : Nat × Flight) : Nat := (((s.coreOf h.2.inst h.2.lid).bind s.core?).map Core.row).getD h.1
  s.onCtx part ctx fun x => { x with holds := x.holds.map fun h => (row h, h.2) }

/-- The place of the image that a request names becomes the context's. -/
def State.placeImage (s : State) (part ctx : Nat) (img : Option (Bool × Nat × Nat)) : State :=
  match img with
  | some (gpa, mapi, pbase) => s.onCtx part ctx fun x => { x with pbase, gpa, mapi }
  | none => s

/-- The requests that waited for a context are served in order once its entry has settled (21 R420); one that has to wait again joins
those that wait. -/
def State.serveReqs (s : State) (part ctx : Nat) (begins : State → DivReq → State) : State :=
  let mine (r : DivReq) : Bool := r.part == part && r.ctx == ctx
  (s.reqs.filter mine).foldl begins { s with reqs := s.reqs.filter fun r => !mine r }

/-- A suspension or halt begins: every core of the context takes it at its boundary (21 R411, R412); cores that rest in the image come
back to the package first. A context without cores has nothing to stream. DEDUCED: log 74. -/
def State.beginSuspend (s : State) (q : DivReq) : State :=
  let s := (s.unstow q.part q.ctx).placeImage q.part q.ctx q.img
  let s := s.onCtx q.part q.ctx fun x => { x with halt := q.var == 1, asker := some q.asker, loaded := [] }
  let ids := (ctxCores s q.part q.ctx).map (·.1)
  let s := ids.foldl (fun s c => s.onCore c fun k => { k with pending := true, clampReq := none, clampHeld := false }) s
  if ids.isEmpty then
    let benches := ctxBenches s q.part q.ctx
    s.onCtx q.part q.ctx fun x => { x with div := .saving, img := some { nb := benches.length, benches } }
  else s

/-- A resume is accepted: benches are taken, bench records return to the units, the entry is MERGING (21 R419, R420;
11 R294). DESIGN CHOICE: log 15. DEDUCED: log 74. -/
def State.beginResume (s0 : State) (q : DivReq) : State :=
  let s := s0.placeImage q.part q.ctx q.img
  match s.ctx? q.part q.ctx with
  | none => s0.answer (some q.asker) Cause.badCtx.code q.ctx
  | some x0 =>
    if !imgMagic s x0 then s0.answer (some q.asker) Cause.badCtx.code q.ctx
    else
      let s := if x0.img.isNone then s.readImage q.part q.ctx q.benches else s
      match s.ctx? q.part q.ctx with
      | none => s0
      | some x =>
        let e := resumeCheck s x q.benches
        if e != 0 then s0.answer (some q.asker) e q.ctx
        else
          let es := enabledCores s.plat q.benches
          let s := (ctxCores s q.part q.ctx).foldl (fun s p => (s.leavePts p.2).onCore p.1 fun k =>
            { k with die := (hostOf es k.lid).1, phys := (hostOf es k.lid).2 }) s
          ((s.onCtx q.part q.ctx fun x => { x with div := .merging, loaded := [], benches := q.benches, asker := some q.asker }).rekeyHolds
            q.part q.ctx).restoreSlots q.part q.ctx

/-- The cause for which the image that a request names, or the entry's, cannot be accessed; 0 where it can (02 R48, R49, R59).
DESIGN CHOICE: log 95. -/
def reqCause (s : State) (x : Ctx) (q : DivReq) : Nat :=
  let (gpa, mapi, pbase) := q.img.getD (x.gpa, x.mapi, x.pbase)
  ((imgCause s x.part gpa mapi pbase (imgSize s { x with gpa, mapi, pbase })).map Cause.code).getD 0

/-- Whether the image that a request names, or the entry's, has a line that is held (04 R129). -/
def reqHeld (s : State) (x : Ctx) (q : DivReq) : Bool :=
  let (gpa, mapi, pbase) := q.img.getD (x.gpa, x.mapi, x.pbase)
  imgWaits s { x with gpa, mapi, pbase }

/-- 21 R412, R420: a suspension, halt or resume is taken in the order the steward takes them; the status where it
cannot be acted on. One that meets SAVING or MERGING waits, and so does a resume whose image has a held line (04 R129). -/
def State.takeReq (s : State) (q : DivReq) : State :=
  match s.ctx? q.part q.ctx with
  | none => s.answer (some q.asker) Cause.badCtx.code q.ctx
  | some x =>
    let no (c : Nat) : State := s.answer (some q.asker) c q.ctx
    let wait : State := { s with reqs := s.reqs ++ [q] }
    let go (f : State → DivReq → State) : State := if reqCause s x q != 0 then no (reqCause s x q) else f s q
    if q.var = 2 then
      match x.div with
      | .diverted => if reqCause s x q == 0 && reqHeld s x q then wait else go State.beginResume
      | .saving => wait
      | _ => no Cause.ctxState.code
    else
      match x.div with
      | .closed => if x.asker.isSome then no Cause.ctxState.code else go State.beginSuspend
      | .merging => wait
      | _ => no Cause.ctxState.code

/-- The first `n` flights from place `i` on land, in order; one that must wait again keeps its place before every later one (13 R312, 14
R328). -/
def State.landFirst : Nat → Nat → State → State
  | 0, _, s => s
  | n + 1, i, s =>
    match s.net[i]? with
    | none => s
    | some f =>
      let s0 : State := { s with net := s.net.eraseIdx i }
      let s1 := s0.land i f
      State.landFirst n (if s1.net[i]? == s0.net[i]? then i else i + 1) s1

/-- The holds of a row are delivered in arrival order (21 Table 21.8): they came before every flight that they are ordered with. The save
tail of a sender that is absent then lists what is left of its send queue (21 R413). -/
def State.drainHolds (s : State) (part ctx row : Nat) : State :=
  match s.ctx? part ctx with
  | none => s
  | some x =>
    let mine := x.holds.filter fun h => h.1 == row
    let s := s.onCtx part ctx fun x => { x with holds := x.holds.filter fun h => h.1 != row }
    let s := State.landFirst mine.length 0 { s with net := mine.map (·.2) ++ s.net }
    (distinct (mine.filterMap fun h => h.2.src)).foldl (fun s c => match s.core? c with
      | some k => if inImage s k then s.arrive c fun _ s => s else s
      | none => s) s

/-- The last row is streamed and nothing of the context is left to finish: the suspension is complete (21 R412 step 5), and a request that
waited for it begins. -/
def State.suspendDone (s : State) (part ctx : Nat) : State :=
  match s.ctx? part ctx with
  | none => s
  | some x => if suspendReady s x then (s.finishSuspend part ctx).serveReqs part ctx State.takeReq else s

/-- SAVE_ROW_STREAMED (21 R412 steps 3 to 5, Table 21.8): the cores' records are written, their send queues stand still (R413, R421), and
the row's holds are applied. An image with a held line is waited for (04 R129). Once every row is streamed the event completes what is
left. -/
def execSaveRowStreamed (part ctx row : Nat) (s : State) : Host.Outcome State Fault Refusal :=
  match s.ctx? part ctx with
  | none => .next s
  | some x =>
    if x.div != .saving || nested s x || imgWaits s x then .next s
    else if x.loaded.contains row then .next (s.suspendDone part ctx)
    else
      let s := s.flushFor (((ctxCores s part ctx).filter fun p => p.2.row == row).map (·.1))
      let mine := (ctxCores s part ctx).filter fun p => p.2.row == row
      let s := mine.foldl (fun s p => (s.saveCore x p.1 (recordAddr s x p.1)).freezeQueue p.1) s
      let s := s.onCtx part ctx fun x => { x with loaded := x.loaded ++ [row] }
      .next ((s.drainHolds part ctx row).suspendDone part ctx)

/-- The spillway closes (21 Table 21.8, R421, R423): the cores select again, those for which there is no room on their physical cores
rest in the image, halted commands restart from their cursors, and a request that waited begins. A command of a schedule entry goes to the
engine of its ROWI row (06 Table 6.6), any other to its core's. A monitor watches the address where its word lies now. A matrix command that
was queued goes to the bench of its core's new place, also where that bench's matrix unit is fused: R419 tests slots alone. DEDUCED: log
113. -/
def State.resumeDone (s : State) (part ctx : Nat) : State :=
  match s.ctx? part ctx with
  | none => s
  | some x =>
    let g := x.img.getD {}
    let s := (ctxCores s part ctx).foldl (fun s p => (s.seat p.1).onCore p.1 fun k => { k with resident := true, pending := false }) s
    let rowi (c : Cmd) : Option Nat := c.sched.bind fun i => ((s.inst? c.inst).bind fun n => n.sched[i]?).map fun e =>
      (partRows (s.part part)).getD (fld e.ctl 23 18) 0
    let back (c : Cmd) : Cmd := { c.restart with row := (rowi c).getD (((s.core? c.core).map Core.row).getD c.row) }
    let home (m : Mon) : Mon := match engXlat part ctx true .load m.ea.toNat false 0 s with
      | .ok y _ => { m with pa := y.pa }
      | .error .. => m
    let s := (g.mons.map home).foldl State.armMon { s with cmds := s.cmds ++ g.cmds.map back, mxq := s.mxq ++ g.mx }
    let s := g.cmds.foldl (fun s c => match s.cmd? c.id with | some c => s.putCmd (c.payload s) | none => s) s
    let s := s.onCtx part ctx fun x => { x with div := .closed, loaded := [], img := none, asker := none, halt := false }
    ((s.stow part ctx).answer x.asker 0 ctx).serveReqs part ctx State.takeReq

/-- RESTORE_ROW_LOADED (21 R420, R421): a row's cores are read back, pts no earlier than the package's logical time at the merge, their
send queues offered again, its holds delivered, LOADED set; at the last row the spillway closes. Slots that a running command keeps
busy are waited for (11 R294), and so are held lines of the image (04 R129); a row with a poisoned record is not read (02 R76). The owner's
counters on the new cores go on from the saved ones (18 R366). Where the resume itself waits for a held line, it is tried again. -/
def execRestoreRowLoaded (part ctx row : Nat) (s : State) : Host.Outcome State Fault Refusal :=
  match s.ctx? part ctx with
  | none => .next s
  | some x =>
    if x.div == .diverted then .next (s.serveReqs part ctx State.takeReq)
    else if x.div != .merging || nested s x || imgWaits s x then .next s
    else
      let s := s.restoreSlots part ctx
      let mine := (ctxCores s part ctx).filter fun p => p.2.row == row
      let new := !x.loaded.contains row && !mine.isEmpty
      if new && mine.any fun p => recordPoisoned s x p.2 then .next s
      else
        let load (s : State) (c : Nat) : State :=
          let a := recordAddr s x c
          let s := (s.loadCore c a).thawQueue c a
          let s := match s.core? c with | some k => s.bringCounters k | none => s
          s.onCore c fun k => { s.enter k with pts := max k.pts s.pkgTime }
        let s := if new then
          ((mine.foldl (fun s p => load s p.1) s).onCtx part ctx fun x => { x with loaded := x.loaded ++ [row] }).drainHolds part ctx row
          else s
        let all := (ctxRows s part ctx).all (((s.ctx? part ctx).map (·.loaded)).getD []).contains
        let busy := !(((s.ctx? part ctx).bind (·.img)).getD {}).slots.isEmpty
        .next (if all && !busy then s.resumeDone part ctx else s)

/-- DIVERTED_ARRIVAL (21 R417): the `k`-th flight, whose context is absent, is applied to the image. -/
def execDivertedArrival (k : Nat) (s : State) : Host.Outcome State Fault Refusal :=
  match s.net[k]? with
  | none => .next s
  | some f =>
    match (s.coreOf f.inst f.lid).bind s.core? with
    | some c => if routeOf s c = .image then .next (deliverFlight s k) else .next s
    | none => .next s

/-- 21 R432: a request with its context block. `own` is the asking context, which may not name itself. DEDUCED: logs 68, 72. -/
def State.blockReq (s : State) (var : BitVec 2) (part : Nat) (own : Option Nat) (b : BitVec 1024) (a : Asker) : State :=
  let target := fld b 2 0
  let img := fld b 191 128
  let size := fld b 255 192
  let bench := fld b 1023 736
  let partBenches := (List.range 288).filter (s.part part).benches.contains
  let named := (partBenches.zipIdx).filterMap fun p => if bench.testBit p.2 then some p.1 else none
  let mbz := fld b 735 256 != 0 || fld b 127 3 != 0 || img % 65536 != 0 || (var != 2 && bench != 0)
  let no (c : Cause) : State := s.answer (some a) c.code target
  match s.ctx? part target with
  | none => no .badCtx
  | some x =>
    if own == some target || mbz then no .badCtx
    else
      let wrong := if var = 2 then x.div != .diverted && x.div != .saving else x.div != .closed && x.div != .merging
      if wrong then no .ctxState
      else match mapMatch s part img with
        | none => no .pmapMiss
        | some (mapi, _) =>
          if decide (size < imgSize s { x with pbase := img, gpa := true, mapi }) then no .imgSmall
          else s.takeReq { var, part, ctx := target, asker := a, benches := named, img := some (true, mapi, img) }

/-- 21 R432: a HALT instruction's request at its commit: the context block is read as an engine read; one that meets a held line
waits (04 R129). DEDUCED: log 27. -/
def haltBlock (core : Nat) (var : BitVec 2) (va : Word) (ch : BitVec 6) (lin : Lineage) : M Unit := fun s =>
  match s.core? core with
  | none => .ok () s
  | some k =>
    let (part, ctx) := s.instCtx k.inst
    let a : Asker := .task core ch lin
    match engLoadAll part ctx true 3 va.toNat 128 (k.pts + 1) s with
    | .error (.flt f) s' => .ok () (s'.answer (some a) f.cause.code 0)
    | .error e _ => .error e s
    | .ok bs s =>
      let b : BitVec 1024 := BitVec.ofNat 1024 (leNat bs)
      if stowWaits s part (fld b 2 0) then .error .retry s else .ok () (s.blockReq var part (some ctx) b a)

/-- A HALT instruction's request is made, or waits for its context block. -/
def State.haltReq (s : State) (core : Nat) (var : BitVec 2) (va : Word) (ch : BitVec 6) (lin : Lineage) : State :=
  match (if s.haltQ.any fun r => r.1 == core then throw .retry else haltBlock core var va ch lin : M Unit) s with
  | .ok _ s => s
  | .error _ _ => { s with haltQ := s.haltQ ++ [(core, var, va, ch, lin)] }

/-- The oldest request of a core that waits for its context block is tried again. -/
def State.retryHalt (s : State) (core : Nat) : State :=
  match s.haltQ.find? fun r => r.1 == core with
  | none => s
  | some r => orWait (haltBlock core r.2.1 r.2.2.1 r.2.2.2.1 r.2.2.2.2) (fun _ s' => { s' with haltQ := s'.haltQ.erase r }) (fun _ => s) s

end Sys2Proof.Machine
end

