-- ==== Sys2Proof/Machine/Commit.lean ====
section
/-! DEFINITION. The end of a task: OP 0x2C and COMMIT (spec 13; 04 R117, R118, R126 to R135; 05 R153 to R162; 06 R190;
07 R205; 09 R240). -/

namespace Sys2Proof.Machine

/-! ## What a commit waits for, and what stops it -/

/-- Scopes of the releases that a commit itself performs: those of stores, of atomics in this package, and of fences (04 Table
4.3; 05 R153, R155, R161). A remote atomic carries its own (05 R156). -/
def Eff.waitScope : Eff → Option Scope
  | .store _ _ _ rel => rel
  | .amo x _ _ _ _ _ ar _ _ _ => if ar.rel && x.pa / 2 ^ 48 != 4 then some ar.scope else none
  | .fence ar => if ar.rel then some ar.scope else none
  | _ => none

/-- Every release that publishes the core's pins before the commit (04 R126, R130). -/
def Eff.relScope : Eff → Option Scope
  | .amo _ _ _ _ _ _ ar _ _ _ => if ar.rel then some ar.scope else none
  | .send _ _ _ rel _ _ _ => rel
  | e => e.waitScope

/-- Whether an effect of a task waits for the interface of a core (21 R420): an installation that reaches one in the image. -/
def barWaits (s : State) (c : Nat) (t : Task) : Bool :=
  (t.sluice.any fun e => match e with | .barinit .. => true | _ => false) &&
    ((s.core? c).map fun k => s.barWaits k.inst).getD false

/-- Whether the commit of a task waits (13 R311): for a line that another agent holds, or for an acknowledgement that a
release needs (04 R133, R135). DEDUCED: log 50. -/
def commitWaits (s : State) (c : Nat) (t : Task) : Bool :=
  (t.reads.any fun e => s.holdBlocks e.line (some c)) ||
    s.blocked (t.sluice.flatMap (Eff.writes s)) (some c) ||
    ((t.sluice.filterMap Eff.waitScope).any fun sc => s.unacked (s.awaits c sc)) || barWaits s c t ||
    (t.sluice.any fun e => match e with | .cdrop tag _ => dropWaits s c tag | _ => false)

/-- Whether every selected line of a CSTORE4 still has its token; bit i of what it answers is a changed line
(05 R159). Joined lines whose write times have no number stand as no LDV saw them. DESIGN CHOICE: log 12. -/
def cstChanged (s : State) (x : Xlat) (sel : BitVec 4) (tok : List Word) : Nat :=
  ((List.range 4).map fun i =>
    if sel.getLsbD i && s.token (s.keys (x.pa + 64 * i) 64) != some (tok.getD i 0) then 2 ^ i else 0).sum

/-- The poison marks that an effect clears at its commit: it writes whole lines (02 R76). -/
def Eff.cleans (s : State) : Eff → List Nat
  | .store x _ bs _ => if wholeLine x.pa bs && x.attr != 2 then [x.pa] else []
  | .cst x sel _ tok .. => if cstChanged s x sel tok = 0 then selLines x.pa sel else []
  | _ => []

/-- CommitFault (13 R310; 05 R145, 02 R76) of the effects from `es` on, once the lines `cleaned` are whole again: the first atomic
or CSTORE4 on a page in host bias, or atomic on a line that is still poisoned. -/
def faultFrom (s : State) : List Nat → List Eff → Option Flt
  | _, [] => none
  | cleaned, e :: es =>
    let flt (cause : Cause) (x : Xlat) (pc : VAddr) : Option Flt := some { cause, va := x.va.setWidth 64, pc := some pc }
    let bad (l : Nat) : Bool := s.poisoned l && !cleaned.contains l
    let here : Option Flt := match e with
      | .amo x _ ty _ _ _ _ _ _ pc =>
        if x.pa / 2 ^ 48 = 4 then none
        else if x.toHost s then flt .attrAcc x pc
        else if (s.keys x.pa ty.bytes).any bad then flt .dataErr x pc
        else none
      | .cst x _ _ _ _ _ pc => if x.toHost s then flt .attrAcc x pc else none
      | _ => none
    match here with
    | some f => some f
    | none => faultFrom s (cleaned ++ e.cleans s) es

/-- CommitFault of a task (13 R310). -/
def commitFault (s : State) (t : Task) : Option Flt := faultFrom s [] t.sluice

/-! ## Pins (04 R126 to R128; 05 R153, R161) -/

/-- What releases leave of the lines that a task stores: a line with true is pinned, one with false is published. -/
structure PinPlan where
  lines : List Nat := []
  plan : List (Nat × Bool) := []
  deriving DecidableEq, Repr

/-- A release at a scope over the lines stored so far. -/
def PinPlan.release (p : PinPlan) (sc : Option Scope) : PinPlan :=
  match sc with
  | none | some .task => p
  | some .core => { p with plan := p.lines.foldl (fun l x => tput l x true) p.plan }
  | some _ => { p with plan := p.plan.map fun x => (x.1, false) }

/-- One effect's part in the plan. A store releases its own line with those before it; an atomic with `.rel.core` those of the stores before
it, and leaves its own line unpinned. DEDUCED: log 50. -/
def PinPlan.next (s : State) (p : PinPlan) (e : Eff) : PinPlan :=
  match e with
  | .store x _ bs rel =>
    let ls := if x.attr == 2 || x.toHost s then [] else s.keysM x.pa bs
    let add (p : PinPlan) : PinPlan := { p with lines := p.lines ++ ls }
    if rel = some .core then (add p).release rel else add (p.release rel)
  | e => p.release e.relScope

/-- DEDUCED: log 50. -/
def pinPlan (s : State) (es : List Eff) : List (Nat × Bool) := (es.foldl (PinPlan.next s) {}).plan

/-- The physical core of a logical core pins a line, for a task of its context (04 R128, R130). -/
def State.pin (s : State) (c l : Nat) : State :=
  let ctx := ((s.core? c).map fun k => s.instCtx k.inst).getD (0, 0)
  s.setLine l { s.line l with hold := .pinned (s.pid c), pinnedAt := s.now, pinCtx := ctx }

/-- A commit's write leaves the lines of the plan pinned, so that no monitor looks at them before their publication (06 R183). -/
def State.prePin (s : State) (c : Nat) (plan : List (Nat × Bool)) (ks : List Nat) : State :=
  (ks.filter fun l => plan.any fun p => p.1 == l).foldl (fun s l => s.pin c l) s

/-- The plan after the writes: what a wider release covers is published. DEDUCED: log 50. -/
def State.applyPins (s : State) (c : Nat) (plan : List (Nat × Bool)) : State :=
  plan.foldl (fun s p => if p.2 then s.pin c p.1 else (s.pin c p.1).publish p.1) s

/-! ## Global lines at ct -/

/-- Apply of 05 Table 5.2. DEDUCED: log 31. -/
def amoNew (op : AmoOp) (ty : Ty) (old b c : Nat) : Nat :=
  let w := tyBits ty
  let b := b % 2 ^ w
  let le (x y : Nat) : Bool := decide (laneVal ty (BitVec.ofNat 64 x) ≤ laneVal ty (BitVec.ofNat 64 y))
  match op with
  | .add => if ty = .f32 || ty = .f64 then ((tyFmt ty).add {} false old b).1 else (old + b) % 2 ^ w
  | .and => old &&& b
  | .or => old ||| b
  | .xor => old ^^^ b
  | .min => if le old b then old else b
  | .max => if le b old then old else b
  | .swp => b
  | .cas => if old = b then c % 2 ^ w else old

/-- Word 1 of an atomic's reply (05 R157). -/
def amoReply (ty : Ty) (old : Nat) : Word := if ty = .i32 then sextBytes 4 old else BitVec.ofNat 64 old

/-- What a commit knows of its task. -/
structure Com where
  c : Nat
  k : Core
  t : Task
  part : Nat
  ctx : Nat
  det : Bool
  ct : Nat
  /-- What its releases leave pinned, and what they publish (04 R126, R127). -/
  plan : List (Nat × Bool) := []
  deriving DecidableEq, Repr

/-- What its effects take with them. -/
def Com.sender (m : Com) : Sender where
  core := m.c
  inst := m.k.inst
  part := m.part
  ctx := m.ctx
  ct := m.ct
  priv := m.t.priv
  jref := m.t.trig.jref
  task := issuer m.k m.t 0

/-- The lineage of a message of the committing task's effect `q` (16 R350). -/
def Sender.lin (m : Sender) (q : Nat) (kind : Nat := 0) : Lineage := childLin m.task.path (spawnIndex q 0 kind)
def Com.lin (m : Com) (q : Nat) (kind : Nat := 0) : Lineage := m.sender.lin q kind
/-- The committing task as an issuer. -/
def Sender.who (m : Sender) (q : Nat) (pc : VAddr) : Issuer := { m.task with q, pc }

/-- A write of the commit at home slices: shadow, bytes at ct, D and the dirty bitmap. -/
def commitWrite (m : Com) (x : Xlat) (pa : Nat) (bytes : List (Option Byte)) : M Unit := do
  shadowBefore (some m.c) m.k.inst (x.va.toNat + (pa - x.pa)) pa true
  modify fun s => (((s.prePin m.c m.plan (s.keysM pa bytes)).writeLine pa bytes m.ct).markDirty x m.ct).poolWrite pa

/-- An effect's write at ct, with the reply of an atomic or CSTORE4. The effects are applied in program order, so an earlier
store of the task to a selected line of a CSTORE4 has set its wts to ct, and the CSTORE4 finds it changed. DEDUCED: log 88. -/
def commitLine (m : Com) (e : Eff) : M Unit := do
  let s ← get
  match e with
  | .store x _ bs _ =>
    if x.attr == 2 || x.toHost s || bs.all Option.isNone then pure () else commitWrite m x x.pa bs
  | .amo x op ty b c rpl _ ea q _ =>
    if x.pa / 2 ^ 48 = 4 then pure ()
    else do
      let old := leNat (mread s.mem x.pa ty.bytes)
      commitWrite m x x.pa ((natBytes ty.bytes (amoNew op ty old b.toNat c.toNat)).map some)
      match rpl with
      | some ch =>
        modify fun s => s.postHw m.c 4 ch.toNat [amoReply ty old, ea] m.ct .reply (m.lin q) (2, homeSlice s x.pa)
      | none => pure ()
  | .cst x sel data tok ch q _ => do
    let changed := cstChanged s x sel tok
    if changed = 0 then
      (List.range 4).forM fun i =>
        if sel.getLsbD i then commitWrite m x (x.pa + 64 * i) ((vecBytes (data.getD i 0)).map some) else pure ()
    modify fun s => s.postHw m.c 4 ch.toNat [if changed = 0 then 1 else 0, BitVec.ofNat 64 (sel.toNat * 16 + changed)] m.ct
      .reply (m.lin q) (2, homeSlice s x.pa)
  | _ => pure ()

/-! ## PERS lines, host and device stores -/

/-- A held PERS store reaches the array (07 R205). -/
def commitPers (e : Eff) (s : State) : State :=
  match e with
  | .pers c off bs under => s.onCore c fun k => k.spCommit off bs under
  | .persSb c off sb sbv => s.onCore c fun k => k.setSb off { k.sbLine off with sb, sbv }
  | _ => s

/-- A store to a page in host bias or to a device page, in program order (04 R132, 02 R58); it, and a remote atomic, set D and the
dirty bitmap as any write does (02 R67, R68). DEDUCED: log 54. -/
def commitFar (m : Com) (e : Eff) (s : State) : State :=
  match e with
  | .store x _ bs _ =>
    if bs.all Option.isNone then s
    else if x.attr == 2 then (cfgStore s (x.pa % 2 ^ 48) bs).markDirty x m.ct
    else if x.toHost s then (s.hostWrite (s.pid m.c) x.pa bs).markDirty x m.ct
    else s
  | .amo x .. => if x.pa / 2 ^ 48 = 4 then s.markDirty x m.ct else s
  | _ => s

/-! ## Messages, commands and the rest, in program order -/

/-- UNPARK and PARK of a channel (14 R337). DEDUCED: log 49. -/
def Core.parkOp (k : Core) (e : Eff) : Core :=
  match e with
  | .park ch => k.setChan ch.toNat { k.chan ch.toNat with parked := true }
  | .unpark ch drop =>
    let x := k.chan ch.toNat
    if !x.parked then k
    else
      let x := if drop && !x.box.isEmpty then x.pop else x
      k.setChan ch.toNat { x with parked := false }
  | _ => k

/-- Whether an effect parks or unparks a channel. -/
def Eff.parks (e : Eff) (ch : Nat) : Bool :=
  match e with
  | .park c => c.toNat == ch
  | .unpark c _ => c.toNat == ch
  | _ => false

/-- A message leaves the core (14 R327, R336). -/
def Sender.flight (m : Sender) (s : State) (hdr : Word) (pay : List Word) (delay : Nat) (jref : Word) (place : Bool) (q : Nat)
    (wait : List Await) : Flight where
  msg := { hdr, pay, kind := .soft, stamp := m.ct, inst := m.inst, sPkg := s.plat.pkgId, sCore := m.task.lid, lin := m.lin q, jref }
  src := some m.core
  inst := m.inst
  lid := hdrCore hdr
  place
  st := if delay = 0 then .moving else .delayed (s.now + delay)
  wait

/-- A remote atomic leaves, or waits for the release it carries (05 R156). -/
def Sender.remote (m : Sender) (s : State) (x : Xlat) (op : AmoOp) (ty : Ty) (b c : Word) (rpl : Option (BitVec 6)) (ea : Word)
    (q : Nat) (pc : VAddr) (wait : List Await) : State :=
  let pkg := peerPkg x.pa
  let o : Out := .atomic pkg x.pa op ty b c rpl.isSome
  let free := !s.unacked wait
  { s with
    out := if free then s.out ++ [o] else s.out
    remotes := s.remotes ++ [{ core := m.core, inst := m.inst, pkg, ea, rpl, ty, ct := m.ct, who := m.who q pc, ack := s.ackNext,
                               held := if free then none else some o, wait }]
    peerPend := s.peerPend ++ [{ id := s.ackNext, pkg }]
    ackNext := s.ackNext + 1 }

/-- An offer goes before the barrier arrivals of its own commit, wherever the program has it (20 R393). -/
def putOffer (l : List Ctl) (c ct : Nat) (o : Ctl) : List Ctl :=
  let n := (l.findIdx? fun x => match x with | .arrive _ _ core _ _ st _ => core == c && st == ct | _ => false).getD l.length
  l.insertIdx n o

/-- The release that a message or a remote atomic carries of its own (05 R156, 14 R336). -/
def Eff.ownScope : Eff → Option Scope
  | .amo x _ _ _ _ _ ar _ _ _ => if ar.rel && x.pa / 2 ^ 48 == 4 then some ar.scope else none
  | .send _ _ _ rel _ _ _ => rel
  | _ => none

/-- Commands and requests that carry no release and leave the core at their turn (13 R312). -/
def Eff.queues : Eff → Bool
  | .cres .. | .cdrop .. | .mx _ | .qpush .. | .jret .. | .barinit .. | .bara .. | .bard .. | .stage .. | .launch .. | .halt .. => true
  | _ => false

/-- What an effect waits for before it leaves: `ws`, since effects leave in program order (13 R312); and, for a message, a copy command
and a remote atomic, its own release and those of the fences `fs` before it (05 R161). -/
def Eff.leaveWaits (s : State) (c : Nat) (fs : List Scope) (ws : List Await) (e : Eff) : List Await :=
  if e.queues then ws else ws ++ (e.ownScope.toList ++ fs).flatMap (s.awaits c)

/-- One effect leaves; `ws` is what it waits for where it holds itself back. DEDUCED: log 46. -/
def commitRelease (m : Sender) (ws : List Await) (e : Eff) (s : State) : State :=
  match e with
  | .amo x op ty b c rpl _ ea q pc =>
    if x.pa / 2 ^ 48 = 4 then m.remote s x op ty b c rpl ea q pc ws else s
  | .send h pay delay _ jref place q =>
    let f := m.flight s h pay delay jref place q ws
    if f.wait.isEmpty then (s.leave f).1.post (s.leave f).2 else s.post f
  | .copy c => s.issue { c with ct := m.ct, last := m.ct, wait := ws }
  | .cres tag _ => s.resumeCmd m.part m.ctx tag
  | .cdrop tag _ => s.dropCmd m.part m.ctx tag
  | .mx c => { s with mxq := s.mxq ++ [{ c with ct := m.ct }] }
  | .qpush f w => { s with feeds := tput s.feeds (m.core, f) (tget s.feeds (m.core, f) [] ++ [w]) }
  | .maskc b => s.onCore m.core fun k => { k with clmask := k.clmask ||| b.setWidth 8 }
  | .unmaskc b => s.onCore m.core fun k => { k with clmask := k.clmask &&& ~~~(b.setWidth 8) }
  | .park ch => if ch.toNat = m.task.ch then s else s.onCore m.core fun k => k.parkOp e
  | .unpark ch _ => if ch.toNat = m.task.ch then s else s.onCore m.core fun k => k.parkOp e
  | .htset ch sel v => s.onCore m.core fun k =>
      k.setChan ch.toNat { k.chan ch.toNat with ent := htPut (k.chan ch.toNat).ent sel v }
  | .join h n slots ch q => s.onCore m.core fun k => k.armJoin h n slots ch.toNat (m.lin q)
  | .jret v q pc => { s with ctl := s.ctl ++
      [.join m.inst m.task.lid m.jref v m.ct (m.lin q) pc m.task.arr m.task.ch q m.core m.task.path] }
  | .barinit b ch lo n q =>
    let (s1, st) := s.install m.inst b.toNat lo n
    let s2 := if st = 0 then s1.tellGroup m.inst fun g => .install g b.toNat lo n else s1
    s2.postHw m.core 6 ch.toNat [b.setWidth 64, BitVec.ofNat 64 st] m.ct .report (m.lin q)
  | .bara b ch q => { s with ctl := s.ctl ++ [.arrive m.inst b.toNat m.core false ch.toNat m.ct (m.lin q)] }
  | .bard b q => { s with ctl := s.ctl ++ [.arrive m.inst b.toNat m.core true 0 m.ct (m.lin q)] }
  | .stage n q pc => s.advanceStage m.inst n m.ct (m.who q pc) m.priv
  | .launch va ch q => { s with subs := s.subs ++ [(va, m.part, m.ctx, .task m.core ch (m.lin q) q, m.ct)] }
  | .incumb mx v p _ => { s with ctl := putOffer s.ctl m.core m.ct (.offer m.inst m.core mx v p) }
  | .reseed => s.reseed (s.part m.part).owner
  | .wset bs => match s.core? m.core with
    | some k => s.wset k.bench bs
    | none => s
  | .ttbase w => s.onCtx m.part m.ctx fun x => { x with ttbase := w }
  | .tlbinv va => { s with tlbs := s.tlbs.filter fun p => !(p.2.part == m.part && p.2.ctx == m.ctx &&
      p.2.vbase / 2 ^ p.2.pglog == va.toNat / 2 ^ p.2.pglog) }
  | .tlbinvCtx => { s with tlbs := s.tlbs.filter fun p => !(p.2.part == m.part && p.2.ctx == m.ctx) }
  | .halt var va ch q => s.haltReq m.core var va ch (m.lin q)
  | _ => s

/-- The core's own record of its barriers: it has arrived, and a drop ends its membership (16 R360). -/
def commitMember (m : Com) (e : Eff) (s : State) : State :=
  match e with
  | .bara b .. => s.onCore m.c fun k => { k with arrived := k.arrived ||| (1 : BitVec 64) <<< b.toNat }
  | .bard b _ => s.onCore m.c fun k => { k with
      arrived := k.arrived ||| (1 : BitVec 64) <<< b.toNat, member := k.member &&& ~~~((1 : BitVec 64) <<< b.toNat) }
  | _ => s

/-- Whether what an effect waits for holds back what leaves after it: a delayed message leaves when its delay ends (14 R328). -/
def Eff.holdsBack : Eff → Bool
  | .send _ _ delay .. => delay == 0
  | .amo x .. => x.pa / 2 ^ 48 == 4
  | .copy _ => true
  | _ => false

/-- Every effect leaves in program order: where one without a release of its own has to wait for those before it, it is put by, and those
after it wait for it. DEDUCED: log 46. -/
def commitReleases (m : Sender) : List Scope → List Await → List Eff → State → State
  | _, _, [], s => s
  | fs, ws, e :: es, s =>
    let fs' := match e with | .fence ar => if ar.rel then fs ++ [ar.scope] else fs | _ => fs
    let mine := e.leaveWaits s m.core fs ws
    if e.queues && s.unacked mine then
      commitReleases m fs' (ws ++ [.left s.ackNext]) es
        { s with leaving := s.leaving ++ [{ id := s.ackNext, snd := m, eff := e, wait := mine }], ackNext := s.ackNext + 1 }
    else commitReleases m fs' (if e.holdsBack then mine else ws) es (commitRelease m mine e s)

/-- The held carriers whose awaited writes are all acknowledged leave (04 R135, 05 R156). -/
def State.releaseRemotes (s : State) : State :=
  s.remotes.zipIdx.foldl (fun (s : State) (r : Remote × Nat) =>
    match r.1.held with
    | none => s
    | some o =>
      if s.unacked r.1.wait then s
      else { s with out := s.out ++ [o], remotes := s.remotes.modify r.2 fun r => { r with held := none } }) s

/-- Whether an effect that was put by can leave: its core is here, nothing that it waits for is outstanding, and what it acts on can be
reached (21 R420; 04 R129). -/
def State.mayLeave (s : State) (x : Leaving) : Bool :=
  (((s.core? x.snd.core).map (·.resident)).getD false) && !s.unacked x.wait &&
    (match x.eff with
     | .cdrop tag _ => !dropWaits s x.snd.core tag
     | .barinit .. => !s.barWaits x.snd.inst
     | _ => true)

/-- The effects of a core's commits that can leave do so, in order. -/
def State.leaveOf (s : State) (c : Nat) : State :=
  ((s.leaving.filter fun x => x.snd.core == c).foldl (fun s x =>
    if s.mayLeave x then commitRelease x.snd [] x.eff { s with leaving := s.leaving.filter fun y => y.id != x.id } else s) s).releaseRemotes

/-- Monitors are armed and cancelled (06 R183, R184), lines published (05 R162). -/
def commitArm (m : Com) (e : Eff) (s : State) : State :=
  match e with
  | .mon x ea ch expect q => s.armMon { pa := x.pa, ea, core := m.c, ch, expect, lin := m.lin q 3 }
  | .monx ch => { s with mons := s.mons.filter fun y => !(y.core == m.c && y.ch == ch) }
  | _ => s

/-- PUBL (05 R162) of the line at EA; of a scale range, of the joined data lines that it describes (03 R109). -/
def commitPubl (m : Com) (e : Eff) (s : State) : State :=
  match e with
  | .publ x => (s.keys (lineOf x.pa) 64).foldl (fun s l => if (s.line l).hold = .pinned (s.pid m.c) then s.publish l else s) s
  | _ => s

/-- Culvert releases, and the return of what was popped and not released (06 R190). -/
def Core.settleCulverts (k : Core) (t : Task) : Core :=
  t.pops.foldl (fun k p =>
    let freed := min p.2 (t.sluice.map fun e => match e with | .cvrel n c => if n = p.1 then c else 0 | _ => 0).sum
    let cv := k.culvert p.1
    undoPops (k.setCulvert p.1 { cv with held := cv.held - freed, free := cv.free + freed }) [(p.1, p.2 - freed)]) k

/-- CFLAGS at commit (09 R240). -/
def Core.commitFlags (k : Core) (t : Task) : Core :=
  t.sluice.foldl (fun k (e : Eff) => match e with
    | .cflags w => { k with sticky := k.sticky &&& ~~~(w.setWidth 5) }
    | _ => k) { k with sticky := k.sticky ||| t.fstat.flags }

/-- The task's digest joins the launch's (13 R315, R316). -/
def Com.digest (m : Com) (s : State) : State :=
  if !m.det then s
  else
    let l := m.t.trig.lin
    s.onInst m.k.inst fun n => { n with digests := n.digests ++
      [{ path := l.path, parent := l.parent, root := l.root, index := l.index, td := gGen m.t.hash (BitVec.ofNat 64 m.t.nw) }] }

/-- The renewal of the recorded leases that end before `ct` (04 R117). -/
def State.renew (s : State) (reads : List ReadEnt) (ct : Nat) : State :=
  reads.foldl (fun s e =>
    let x := s.line e.line
    if (match e.r with | some r => decide (r < ct) | none => false) then s.setLine e.line { x with rts := max x.rts ct } else s) s

/-- The indivisible step of 04 R118: renewal, then every write at ct. It stops short only where the shadow of a checked launch
must wait (13 R319). -/
def commitLines (m : Com) : M Unit := do
  modify fun s => s.renew m.t.reads m.ct
  m.t.sluice.forM (commitLine m)

/-- The rest of a commit (13 R310), once the lines are written. In a clamp the leader's pts alone takes ct.
DEDUCED: logs 49, 89. -/
def commitRest (m : Com) (s : State) : State :=
  let es := m.t.sluice
  let s := ((s.unlock m.c).onCore m.c fun k => { k with pts := m.ct }).applyPins m.c m.plan
  let s := es.foldl (fun s e => commitPubl m e s) s
  let s := es.foldl (fun s e => commitPers e s) s
  let s := es.foldl (fun s e => commitFar m e s) s
  let s := m.digest (s.onCore m.c fun k => k.commitFlags m.t)
  let s := es.foldl (fun s e => commitMember m e s) s
  let s := commitReleases m.sender [] [] es s
  let s := es.foldl (fun s e => commitArm m e s) s
  let s := s.onCore m.c fun k =>
    let k := (k.settleCulverts m.t).popHead m.t.ch
    let k := (es.filter fun e => e.parks m.t.ch).foldl Core.parkOp k
    { k with task := none }
  s.onCtx m.part m.ctx fun x => { x with fqhead := min x.fqtail (x.fqhead + m.t.fltpops), lastCommit := s.now }

/-- The indivisible step and the release of the sluice (13 R310, 04 R118): the task has validated at `ct`. Where the shadow must
wait, the commit waits whole. -/
def commitAt (m : Com) (s : State) : State :=
  let m := { m with plan := pinPlan s m.t.sluice }
  match commitLines m s with
  | .ok _ s' => commitRest m s'
  | .error _ _ => s

/-- The requests of a locked task's waiting commit abort younger locked holders (04 R125). -/
def bumpCommit (s : State) (c : Nat) (t : Task) : State :=
  if t.locked then ((t.reads.map (·.line)) ++ t.sluice.flatMap (Eff.writes s)).foldl (fun s l => s.bumpFor c l) s else s

/-- COMMIT (13 R310 to R312; 04 R117): a task that has executed ENDT commits once nothing of it waits. On a core where none commits, the
messages and commands of earlier commits that can leave do so. -/
def execCommit (c : Nat) (s : State) : Host.Outcome State Fault Refusal :=
  match s.core? c with
  | none => .next s
  | some k =>
    match k.task with
    | none => .next (s.leaveOf c)
    | some t =>
      if !t.committing then .next (s.leaveOf c)
      else
      let s := bumpCommit s c t
      if commitWaits s c t then .next (s.leaveOf c)
      else match commitFault s t with
      | some f =>
        match takeTrap c f s with
        | .ok _ s' => .next s'
        | .error _ _ => .next s
      | none =>
        let s := if (t.sluice.filterMap Eff.relScope).any scPublishes then s.publishAll c else s
        match (s.core? c).bind Core.task with
        | none => .next s
        | some t =>
          if !validates s t then .next (s.abortTask c)
          else
            let (part, ctx) := s.instCtx k.inst
            let det := ((s.inst? k.inst).map (·.det)).getD false
            .next (commitAt { c, k, t, part, ctx, det, ct := commitTime s t } s)

/-! ## A suspension at a task boundary (21 R411, R412) -/

/-- CORE_SUSPEND (21 R411, R412 step 1; 13 R311): a core with a pending suspension, at its boundary, publishes its pins
and stops selecting. A commit that still waits for a line aborts, its abort count unchanged. When every core of the
context has done so the entry is SAVING. One that waits for nothing commits first (21 R411). The physical core keeps the time of
the last commit there (04 R113). A HALT request of the core that waits for its context block is tried again (04 R129). -/
def execCoreSuspend (c : Nat) (s : State) : Host.Outcome State Fault Refusal :=
  let s := s.retryHalt c
  match s.core? c with
  | none => .next s
  | some k =>
    if !k.pending || !k.resident then .next s
    else
      let s := match k.task with
        | some t => if t.committing && commitWaits s c t then s.discardTask c else s
        | none => s
      if !atBoundary s c then .next s
      else
        let (part, ctx) := s.instCtx k.inst
        let s := ((s.publishAll c).leavePts k).onCore c fun k => { k with resident := false }
        let done := (ctxCores s part ctx).all fun p => !p.2.resident
        .next (if done then s.onCtx part ctx fun x =>
          { x with div := .saving, loaded := [], img := some { order := (ctxCores s part ctx).map (·.1), benches := ctxBenches s part ctx,
                                                               nb := (ctxBenches s part ctx).length } } else s)

/-! ## OP 0x2C -/

/-- ENDT (13 R310): the kill check, validation, then the commit, which may wait. -/
def execEndt := runTask fun t => do
  let s ← get
  let k ← getCore
  if killPending s k t then set (s.killTask s.cur)
  else if !validates s t then throw .abort
  else match commitFault s t with
  | some f => throw (.flt f)
  | none => modTask fun t => { t with committing := true }

/-- DGRD and DGMIX (13 R317). -/
def execDgrd (d : Reg) := runTask fun t => do
  let det := (← getInst).det
  modTask fun _ => t.wx d (if det then t.hash else 0)
def execDgmix (a : Reg) := runTask fun t => fold [BitVec.ofNat 64 (5 * 2 ^ 56), t.rx a]

/-- SLSTAT (13 R314). -/
def execSlstat (d : Reg) := runTask fun t => do
  let c := (← get).cur
  modTask fun t' => t'.wx d (BitVec.ofNat 64 (lineEntries t.sluice true c + msgEntries t.sluice * 2 ^ 16))

end Sys2Proof.Machine
end

