-- ==== Sys2Proof/Machine/Launch.lean ====
section
/-! DEFINITION. Launch records, their checks, the start and the end of an instance (spec 16 R343 to R348; 06 R185,
R192; 07 R197 to R202; 10 R265; 11 R286; 13 R316 to R320; 20 R398; 24 R450). -/

namespace Sys2Proof.Machine

/-! ## The record (16 Table 16.1) -/

def lrGrps (r : BitVec 1024) : Nat := fld r 831 768
def lrLott (r : BitVec 1024) : Nat := fld r 767 704
def lrDigrec (r : BitVec 1024) : Nat := fld r 703 640
def lrOvfSize (r : BitVec 1024) : Nat := fld r 607 576
def lrOvfBase (r : BitVec 1024) : Nat := fld r 575 512
def lrNinit (r : BitVec 1024) : Nat := fld r 511 480
def lrNsched (r : BitVec 1024) : Nat := fld r 479 448
def lrSched (r : BitVec 1024) : Nat := fld r 447 384
def lrInit (r : BitVec 1024) : Nat := fld r 383 320
def lrCtab (r : BitVec 1024) : Nat := fld r 319 256
def lrRtab (r : BitVec 1024) : Nat := fld r 255 192
def lrHtab (r : BitVec 1024) : Nat := fld r 191 128
def lrPkey (r : BitVec 1024) : Word := r.extractLsb' 64 64
def lrVer (r : BitVec 1024) : Nat := fld r 63 56
def lrPart (r : BitVec 1024) : Nat := fld r 53 48
def lrProg (r : BitVec 1024) : Nat := fld r 47 46
def lrDet (r : BitVec 1024) : Bool := r.getLsbD 45
def lrL1sz (r : BitVec 1024) : Nat := fld r 43 42
/-- Depths of the request, reply and bulk send queues (14 R327): 0 means 8. -/
def lrSqd (r : BitVec 1024) : List Nat := [fld r 39 35, fld r 34 30, fld r 29 25]
def lrNvc (r : BitVec 1024) : Nat := fld r 11 0 + 1

/-- Check 1 of 16 Table 16.2. DEDUCED: logs 57, 58. -/
def recordOk (va : Nat) (r : BitVec 1024) : Bool :=
  va % 128 == 0 && lrVer r == 1 && fld r 1023 832 == 0 && fld r 639 608 == 0 && fld r 55 54 == 0 && fld r 44 44 == 0 &&
    fld r 41 40 == 0 && fld r 24 12 == 0 && lrProg r != 3 && (lrSqd r).all (fun q => decide (q ≤ 16)) &&
    decide (lrNvc r ≤ 4095) && decide (1 ≤ lrNinit r) && decide (lrNinit r ≤ 65536) && decide (lrNsched r ≤ 65536) &&
    lrOvfSize r % 64 == 0 && decide (lrOvfSize r ≤ 2 ^ 24) && (lrDet r || lrDigrec r == 0) &&
    lrHtab r % 64 == 0 && lrSched r % 128 == 0 && lrInit r % 64 == 0

/-- What a record names, as bytes read it (16 R343). -/
structure Tables where
  r : BitVec 1024
  /-- 64 handler entries, 16 region entries and 16 culvert entries for every logical core. -/
  htab : List (List (BitVec 256))
  rtab : List (List (BitVec 64))
  ctab : List (List (BitVec 16))
  /-- Initial messages of 64 bytes. -/
  init : List (List Byte)
  /-- Schedule entries of 128 bytes. -/
  sched : List (List Byte)
  grps : List Nat
  lott : List (List Byte)
  dig : BitVec 512
  deriving DecidableEq, Repr

/-- The bits of a handler entry and of a region entry that hold a field; the others are reserved and read zero (14 Table 14.1, 07 Table
7.1; 00 R7). -/
def bitsOf (fs : List (Nat × Nat)) : Nat := (fs.map fun f => 2 ^ (f.1 + 1) - 2 ^ f.2).sum
def entMask : BitVec 256 :=
  BitVec.ofNat 256 (bitsOf [(233, 192), (162, 128), (117, 64), (62, 48), (44, 32), (29, 16), (14, 0)])
def regMask : BitVec 64 := BitVec.ofNat 64 (bitsOf [(44, 32), (28, 16), (10, 8), (3, 0)])

/-- A byte list cut into `k` pieces of `n` bytes. -/
def chunks (n : Nat) : Nat → List Byte → List (List Byte)
  | 0, _ => []
  | k + 1, bs => bs.take n :: chunks n k (bs.drop n)

/-- Bit vectors of byte pieces. -/
def bitPieces (w : Nat) (k : Nat) (bs : List Byte) : List (BitVec w) := (chunks (w / 8) k bs).map fun b => BitVec.ofNat w (leNat b)

/-- `n` bytes of the submitter's virtual space, read as the dispatcher reads them. DEDUCED: log 27. -/
def loadVA (part ctx va n t : Nat) : M (List Byte) := engLoadAll part ctx true (n / 64 + 2) va n t

/-- An access of the dispatcher: one that faults is cause 2 (16 Table 16.2), one that meets a held line waits (04 R129). -/
def dispatched {α : Type} (m : M α) : ExceptT Nat M α := ExceptT.mk fun s =>
  match m s with
  | .ok b s' => .ok (.ok b) s'
  | .error (.flt _) s' => .ok (.error 2) s'
  | .error e s' => .error e s'

/-- Checks 1 and 2 of 16 Table 16.2, and everything that the record names. The error is the cause. -/
def readTables (va part ctx t : Nat) : ExceptT Nat M Tables := do
  let opt (a n : Nat) : ExceptT Nat M (List Byte) := if a = 0 then return [] else dispatched (loadVA part ctx a n t)
  if va % 128 != 0 then throwThe Nat 1
  let r : BitVec 1024 := BitVec.ofNat 1024 (leNat (← dispatched (loadVA part ctx va 128 t)))
  if !recordOk va r then throwThe Nat 1
  let n := lrNvc r
  let hb ← dispatched (loadVA part ctx (lrHtab r) (2048 * n) t)
  let tb ← dispatched (loadVA part ctx (lrRtab r) (128 * n) t)
  let cb ← dispatched (loadVA part ctx (lrCtab r) (32 * n) t)
  let ib ← dispatched (loadVA part ctx (lrInit r) (64 * lrNinit r) t)
  let sb ← dispatched (loadVA part ctx (lrSched r) (128 * lrNsched r) t)
  let gb ← opt (lrGrps r) (2 * n)
  let nb := ((← getThe State).part part).benches.length
  let lb ← opt (lrLott r) (256 * nb)
  let db ← opt (lrDigrec r / 64 * 64) 64
  return { r, htab := (chunks 2048 n hb).map fun b => (bitPieces 256 64 b).map (· &&& entMask)
           rtab := (chunks 128 n tb).map fun b => (bitPieces 64 16 b).map (· &&& regMask)
           ctab := (chunks 32 n cb).map (bitPieces 16 16), init := chunks 64 (lrNinit r) ib
           sched := chunks 128 (lrNsched r) sb, grps := if lrGrps r = 0 then [] else (bitPieces 16 n gb).map (·.toNat)
           lott := if lrLott r = 0 then [] else chunks 256 nb lb, dig := BitVec.ofNat 512 (leNat db) }

/-! ## Checks 3 to 14 (16 Table 16.2) -/

/-- SPSIZE of an L1SZ code (07 R197). -/
def spsizeOf (l1 : Nat) : Nat := 524288 - 32768 * 2 ^ l1

/-- Whether a region entry is used. -/
def regUsed (g : BitVec 64) : Bool := regKind g != 0
def regPerms (g : BitVec 64) : Bool := regLr g || regLw g || regEr g || regEw g

/-- 07 R202 and R207 on one logical core. The frame of a handler entry that is not valid is not checked (14 R321). DEDUCED: log 112. -/
def regionsOk (sp : Nat) (tab : List (BitVec 64)) (hs : List (BitVec 256)) : Bool :=
  let used := tab.filter regUsed
  let of (k : Nat) := used.filter fun g => regKind g == k
  let valid := hs.filter entV
  (tab.all fun g => decide (regKind g ≤ 4)) &&
    (used.all fun g => decide (64 ≤ regLen g) && decide (regLen g ≤ 7680 * 64) && decide (regBase g + regLen g ≤ sp - 8192)) &&
    (used.zipIdx.all fun p => used.zipIdx.all fun q => p.2 == q.2 || !rangesMeet (regBase p.1) (regLen p.1) (regBase q.1) (regLen q.1)) &&
    (of 3).length == 1 && decide ((of 1).length ≤ 1) && decide ((of 4).length ≤ 1) &&
    ((of 3 ++ of 4).all fun g => !regPerms g) && ((of 1).all fun g => !regEr g && !regEw g) &&
    ((of 3).all fun g => decide (2048 + 64 * (valid.map entMbd).sum ≤ regLen g)) &&
    (valid.all fun e => decide (64 * entFrameLines e ≤ ((of 1).map regLen).sum))

/-- DEPTH, NV and CHAN of a culvert table entry. -/
def ctDepth (c : BitVec 16) : Nat := fld c 10 6
def ctNv (c : BitVec 16) : Bool := c.getLsbD 11
def ctChan (c : BitVec 16) : Nat := fld c 5 0

/-- The limits of 14 Table 14.1 on a valid entry. DEDUCED: log 57. -/
def entryOk (cs : List (BitVec 16)) (e : BitVec 256) : Bool :=
  decide (1 ≤ entDrm e) && decide (entDrm e ≤ 6) && decide (entBudget e ≤ 16384) && decide (1 ≤ entMbd e) && decide (entMbd e ≤ 64) &&
    (iota 1 7).all fun q =>
      let b := entQbind e q
      let a := entAmin e q
      a == 0 || (decide (16 ≤ b) && decide (a ≤ 16) && decide (a ≤ ctDepth (cs.getD (b - 16) 0)))

/-- 14 R321, and the stealable channels of 16 Table 16.2 check 8. -/
def handlersOk (htab : List (List (BitVec 256))) (ctab : List (List (BitVec 16))) : Bool :=
  ((htab.zip ctab).all fun p => entV (p.1.getD 63 0) && (p.1.all fun e => !entV e || entryOk p.2 e)) &&
    (List.range 64).all fun c =>
      let es := htab.map fun h => h.getD c 0
      !(es.any fun e => entV e && entSteal e) || es.all fun e => setFld e 3 1 0 == setFld (es.headD 0) 3 1 0

/-- 10 R265 and check 9, for any handler entry, valid or not. DEDUCED: log 57. -/
def clampsOk (es : List (Nat × Nat)) (htab : List (List (BitVec 256))) (rtab : List (List (BitVec 64))) : Bool :=
  htab.zipIdx.all fun p => p.1.all fun e =>
    let w := entClamp e
    w == 1 ||
      (let h := es.getD p.2 (0, 0)
       decide (htab.length ≤ es.length) && (List.range w).all fun i =>
         let m := es.findIdx (· == (h.1, h.2 / w * w + i))
         decide (m < htab.length) && (rtab.getD m []).filter regUsed == (rtab.getD p.2 []).filter regUsed)

/-- 06 R185 and check 10. Bits [15:12] of a culvert entry must be zero; check 10 rejects others. A handler entry that is not valid binds no
culvert. DEDUCED: logs 112, 115. -/
def culvertsOk (htab : List (List (BitVec 256))) (ctab : List (List (BitVec 16))) : Bool :=
  (htab.zip ctab).all fun p =>
    let valid := p.1.filter entV
    p.2.zipIdx.all fun c =>
      let bound := valid.any fun e => (iota 1 7).any fun q => entQbind e q == 16 + c.2
      let h := p.1.getD (ctChan c.1) 0
      fld c.1 15 12 == 0 && decide (ctDepth c.1 ≤ 16) && !((bound || ctNv c.1) && ctDepth c.1 == 0) &&
        !(ctNv c.1 && decide ((if entV h then entMbd h else 0) < ctDepth c.1))

/-- 06 R192 and check 11 on one entry. DEDUCED: log 58. -/
def schedOk (rows nvc : Nat) (ctab : List (List (BitVec 16))) (e : List Byte) : Bool :=
  let d : BitVec 512 := bytesVec (e.take 64)
  let w := leWord64 ((e.drop 64).take 8)
  let var := fld w 10 8
  let sc := fld w 3 0
  ((e.drop 72).all fun b => b == 0) && fld w 31 24 == 0 && fld w 17 11 == 0 && fld w 7 6 == 0 && decide (var ≤ 2) &&
    decide (fld w 23 18 < rows) && (!(w.getLsbD 4 || w.getLsbD 5) || (decide (2 ≤ sc) && decide (sc ≤ 11))) &&
    descOk (var != 0) nvc (fun c n => ctDepth ((ctab.getD c []).getD n 0)) d

/-- 13 R318, 20 R398 and check 12. -/
def digestOk (r : BitVec 1024) (d : BitVec 512) : Bool :=
  !lrDet r || (lrDigrec r != 0 && lrDigrec r % 64 == 0 && fld d 511 384 == 0 && fld d 255 195 == 0 && fld d 63 1 == 0 &&
    fld d 319 256 % 64 == 0)

/-- 16 R343 and check 13. -/
def initsOk (pl : Plat) (nvc : Nat) (htab : List (List (BitVec 256))) (init : List (List Byte)) : Bool :=
  let hs := init.map fun b => leWord64 (b.take 8)
  let ent (h : Word) : BitVec 256 := (htab.getD (hdrCore h) []).getD (hdrCh h) 0
  (hs.all fun h =>
    (hdrPkg h == pl.pkgId || hdrPkg h == 0x1FF) && decide (hdrCore h < nvc) && decide (hdrCls h ≤ 6) && entV (ent h) &&
      (decide (4 ≤ hdrCls h) || hdrGen h == entGen (ent h))) &&
    hs.all fun h => decide ((hs.filter fun g => hdrCore g == hdrCore h && hdrCh g == hdrCh h).length ≤ entMbd (ent h))

/-- 11 R286 and check 14. -/
def lottOk (tabs : List (List Byte)) : Bool := tabs.all fun t => t.all fun b => decide (b.toNat < 8) || b == 0xFF#8

/-- The group of every logical core; none for 0xFFFF or where there is no table. Any other number names a group, those above the range of
Table 16.1 too. DEDUCED: log 116. -/
def Tables.grp (t : Tables) (n : Nat) : Option Nat := (t.grps[n]?).bind fun g => if g = 0xFFFF then none else some g

/-- Whether every core of a group can be resident at once: no two of its members share a host (16 R347, R348). A group that is larger
than the partition has cores always shares one. DEDUCED: log 57. -/
def groupFits (es : List (Nat × Nat)) (members : List Nat) : Bool :=
  decide (members.length ≤ es.length) && (distinct (members.map (hostOf es))).length == members.length

/-- Checks 3 to 14 in order: the first that fails; 0 where none does (16 R344). -/
def launchCause (s : State) (part : Nat) (t : Tables) : Nat :=
  let p := s.part part
  let es := enabledCores s.plat p.benches
  let n := lrNvc t.r
  let running := s.insts.filter fun i => i.part == part
  let members (g : Nat) : List Nat := (List.range n).filter fun i => t.grp i == some g
  if lrPart t.r != part then 3
  else if running.any fun i => i.prog == 2 then 4
  else if lrProg t.r == 2 && (decide (es.length < n) || !running.isEmpty) then 5
  else if lrProg t.r == 1 && ((List.range n).filterMap t.grp).any fun g => !groupFits es (members g) then 6
  else if lrL1sz t.r == 3 || !((t.rtab.zip t.htab).all fun x => regionsOk (spsizeOf (lrL1sz t.r)) x.1 x.2) then 7
  else if !handlersOk t.htab t.ctab then 8
  else if !clampsOk es t.htab t.rtab then 9
  else if !culvertsOk t.htab t.ctab then 10
  else if !(t.sched.all (schedOk (partRows p).length n t.ctab)) then 11
  else if !digestOk t.r t.dig then 12
  else if !initsOk s.plat n t.htab t.init then 13
  else if !lottOk t.lott then 14
  else 0

/-! ## The start of an instance (16 R345, R347) -/

/-- The indices of a list's elements that a condition accepts. -/
def indexed {α : Type} (l : List α) (f : α → Bool) : List (Nat × α) := (l.zipIdx.filter fun p => f p.1).map fun p => (p.2, p.1)

/-- Logical core `n` as the launch prepares it. A culvert table entry of DEPTH 0 makes no culvert, and CVSTAT reads zero in every
field of it, CHAN included. Every byte of its scratchpad is zero (07 R199), but for what the launch places in PERS (15 R341). DESIGN
CHOICE: log 98. -/
def freshCore (t : Tables) (id n : Nat) (host : Nat × Nat) : Core where
  inst := id
  lid := n
  die := host.1
  phys := host.2
  regions := (t.rtab.getD n []).filter regUsed
  spsize := spsizeOf (lrL1sz t.r)
  chans := (indexed (t.htab.getD n []) entV).map fun p => (p.1, { ent := p.2 })
  clampWidths := distinct ((t.htab.getD n []).map entClamp)
  culverts := (indexed (t.ctab.getD n []) fun c => ctDepth c != 0).map fun p =>
    (p.1, { depth := ctDepth p.2, nv := ctNv p.2, chan := ctChan p.2, free := ctDepth p.2 })
  sqd := (lrSqd t.r).map fun q => if q = 0 then 8 else q
  ovfb := BitVec.ofNat 64 (lrOvfBase t.r + n * lrOvfSize t.r)
  ovfsize := lrOvfSize t.r
  grp := t.grp n

/-- An initial message (16 R343, R350): a root with its own index. DEDUCED: log 46. -/
def initMsg (id : Nat) (pkey : Word) (stamp : Nat) (b : List Byte) (i : Nat) : Msg :=
  let w := bytesWords 8 b
  let h := w.headD 0
  { hdr := h, pay := (w.drop 1).take (hdrCnt h), kind := .launch, stamp, inst := id, lin := rootLin pkey i }

/-- The initial messages are accepted in record order (16 R345 step 4). -/
def State.acceptInits (s : State) (id : Nat) (ms : List Msg) : State :=
  ms.foldl (fun s m => match s.coreOf id (hdrCore m.hdr) with
    | some c => s.onCore c fun k => k.accept m
    | none => s) s

/-- The cores of an instance are set to what the launch prepared (16 R345, R347). -/
def State.placeCores (s : State) (ks : List (Nat × Core)) : State := ks.foldl (fun s p => (s.setCore p.1 p.2).seat p.1) s

/-- A word that the launch places in a core's PERS region (15 R341); what lies elsewhere is not placed. -/
def Core.place (k : Core) (p : Nat × Word) : Core :=
  match k.regionAt p.1 with
  | some g => if regKind g == 2 && decide (p.1 + 8 ≤ regBase g + regLen g) then { k with spad := mwrite k.spad p.1 (wordBytes64 p.2) } else k
  | none => k

/-- A logical core as a launch prepares it, with the words of `pers` that are for it: logical core, offset and word. DEDUCED: log 114. -/
def launchCore (t : Tables) (pers : List (Nat × Nat × Word)) (id n : Nat) (host : Nat × Nat) : Core :=
  ((pers.filter fun p => p.1 == n).map (·.2)).foldl Core.place (freshCore t id n host)

/-- 16 R345: the instance starts. With LOTT = 0 the benches keep the tables that they have. Cores of the context that rest in its image
leave it and go back, since the launch changes the order of its records (21 R421). DEDUCED: logs 27, 99. -/
def startInstance (s0 : State) (part ctx t : Nat) (tb : Tables) (pers : List (Nat × Nat × Word)) (o : Origin) : State :=
  let s := s0.unstow part ctx
  let id := s.instNext
  let n := lrNvc tb.r
  let es := enabledCores s.plat (s.part part).benches
  let start := (List.range n).map fun i => (s.coreNext + i, s.enterAs (s.part part).owner (launchCore tb pers id i (hostOf es i)))
  let inits := tb.init.zipIdx.map fun p => initMsg id (lrPkey tb.r) t p.1 p.2
  let i : Inst :=
    { id, part, ctx, nvc := n, prog := BitVec.ofNat 2 (lrProg tb.r), det := lrDet tb.r, pkey := lrPkey tb.r, ninit := lrNinit tb.r
      sched := tb.sched.map fun e => { desc := bytesVec (e.take 64), ctl := leWord64 ((e.drop 64).take 8) }
      digrec := BitVec.ofNat 64 (lrDigrec tb.r), dmode := lrDet tb.r && tb.dig.getLsbD 0, expect := tb.dig.extractLsb' 64 64
      shbase := tb.dig.extractLsb' 256 64, shsize := fld tb.dig 383 320, inits, start, origin := o }
  let benches := (List.range 288).filter (s.part part).benches.contains
  let s := { s with insts := s.insts ++ [i], instNext := id + 1, coreNext := s.coreNext + n }
  let s := s.placeCores start
  let s := (benches.zip tb.lott).foldl (fun s p => s.wset p.1 p.2) s
  let s := s.releaseStage id t {} true false
  (s.acceptInits id inits).stow part ctx

/-- What a submission or an instance's end tells whoever submitted (16 R357, 24 R450). `w2` is word 2. DEDUCED: log 23. -/
def State.tellLaunch (s : State) (o : Origin) (w1 w2 : Word) : State :=
  match o with
  | .host _ _ => s
  | .task core ch lin _ => s.postHw core 6 ch.toNat [w1, w2] s.pkgTime .launch lin (4, 0)

/-- The cause for which a host's LAUNCH finds its context in a state that it cannot act on (24 R452); 0 where it can. -/
def launchCtx (s : State) (part ctx : Nat) : Nat :=
  match s.ctx? part ctx with
  | none => Cause.badCtx.code
  | some x => if x.div != .closed || x.asker.isSome then Cause.ctxState.code else 0

/-- LAUNCH_SUBMISSION: the submission that the event names is checked and starts, or is rejected with no change but its result and the A bits that its
walks have set (16 R344, R345; 02 R67). One that meets a held line waits (04 R129). A context that another queue has taken away meanwhile
answers a host's LAUNCH (24 R452); an instruction's waits until its own context is back (21 R422). Word 2 of a rejection is not stated
(DESIGN CHOICE, log 3). `e.pers` is the program's data, which the launch places in PERS (15 R341; DEDUCED, log 114). -/
def execLaunchSubmission (e : LaunchEv) (s : State) : Host.Outcome State Fault Refusal :=
  let s0 := s
  match s.subs[e.sub]? with
  | none => .next s
  | some (va, part, ctx, o, t) =>
    let s := { s with subs := s.subs.eraseIdx e.sub }
    let reject (s : State) (cause : Nat) : State :=
      match o with
      | .host fn seq => s.complete fn seq 1 cause
      | .task .. => { s with freeCnt := s.freeCnt + 1 }.tellLaunch o (BitVec.ofNat 64 cause) (Config.freeWord s.freeCnt)
    let away := launchCtx s part ctx
    if away != 0 || stowWaits s part ctx then
      .next (match o with
        | .host fn seq => if away != 0 then s.complete fn seq 0 away else s0
        | .task .. => s0)
    else match (readTables va.toNat part ctx t).run s with
    | .error _ _ => .next s0
    | .ok (.error c) s1 => .next (reject s1 c)
    | .ok (.ok tb) s1 =>
      let c := launchCause s part tb
      if c != 0 then .next (reject s1 c)
      else
        let id := s1.instNext
        let s2 := startInstance s1 part ctx t tb e.pers o
        .next (match o with
          | .host fn seq => s2.onCmd fn seq fun c => { c with st := .started, result := BitVec.ofNat 64 id }
          | .task .. => s2.tellLaunch o 0 (BitVec.ofNat 64 id))

/-! ## The launch digest (13 R316) -/

/-- Inserts by spawn index. -/
def insertIdx (d : Digest) : List Digest → List Digest
  | [] => [d]
  | x :: l => if d.index.toNat ≤ x.index.toNat then d :: x :: l else x :: insertIdx d l
def sortIdx (l : List Digest) : List Digest := l.foldr insertIdx []

/-- SD of a committed task, down to `fuel` levels of the tree. -/
def subtree (all : List Digest) : Nat → Digest → Word
  | 0, d => d.td
  | fuel + 1, d => (sortIdx (all.filter fun c => !c.root && c.parent == d.path)).foldl (fun h c => gGen h (subtree all fuel c)) d.td

/-- LD of an instance: no tree is deeper than it has tasks. -/
def launchDigest (all : List Digest) : Word :=
  (sortIdx (all.filter (·.root))).foldl (fun h c => gGen h (subtree all all.length c)) 0

/-! ## The end of an instance (16 R346) -/

/-- Whether a core of an ending instance is idle and holds no message. -/
def Core.quiet (k : Core) : Bool := k.task.isNone && k.heldq.isEmpty && k.chans.all fun p => p.2.box.isEmpty

/-- Whether an item of the control network belongs to an instance. -/
def Ctl.ofInst (id : Nat) : Ctl → Bool
  | .join i .. | .arrive i .. | .offer i .. | .update i .. => i == id
  | .recall .. => false

/-- Whether an instance is quiescent: nothing of it runs, waits or travels (16 R346). Its context must be resident. An arrival by
BARA whose phase is not complete is a barrier command that is pending, and so is a handle that its culvert has not taken, a dropped
command's among them (06 R188, R196). DEDUCED: log 60. -/
def quiescent (s : State) (n : Inst) : Bool :=
  let mine (c : Nat) : Bool := ((s.core? c).map (·.inst)) == some n.id
  let closed := match s.ctx? n.part n.ctx with | some x => x.div == .closed && x.asker.isNone | none => true
  closed && (s.cores.all fun p => p.2.inst != n.id || p.2.quiet) &&
    !(s.net.any fun f => f.inst == n.id || f.msg.inst == n.id) &&
    !(s.ctxs.any fun x => x.holds.any fun h => h.2.inst == n.id || h.2.msg.inst == n.id) &&
    !(s.cmds.any fun c => c.inst == n.id) && !(s.mxq.any fun c => c.inst == n.id) &&
    !(s.mxrun.any fun r => r.2.cmd.inst == n.id) && !(s.ctl.any (Ctl.ofInst n.id)) &&
    !(s.remotes.any fun r => r.inst == n.id) && !(s.leaving.any fun x => x.snd.inst == n.id) && !(s.haltQ.any fun r => mine r.1) && !(s.pushes.any fun p => mine p.1.1) &&
    !(n.bars.any fun b => b.2.arrs.any fun a => a.1 != peerCore) &&
    !(s.subs.any fun x => match x.2.2.2.1 with | .task c _ _ _ => mine c | _ => false)

/-- The digest record as it is written at the end (13 Table 13.5, 20 R398). -/
def digestRecord (n : Inst) (result : Word) (status : Nat) : List Byte :=
  natBytes 8 (if n.dmode then 1 else 0) ++ wordBytes64 n.expect ++ wordBytes64 result ++
    natBytes 8 (status + (if n.inc.ne then 8 else 0)) ++ wordBytes64 n.shbase ++ natBytes 8 n.shsize ++
    wordBytes64 n.inc.value ++ wordBytes64 n.inc.payload

/-- The logical cores that some of the machine's cores are leave it: their physical cores keep their pts (04 R113). -/
def State.leaveAll (s : State) (ks : List (Nat × Core)) : State := ks.foldl (fun s p => s.leavePts p.2) s

/-- The instance leaves: what it armed is dropped, its cores return to the partition, whoever submitted it learns it (16
R346, 24 R450). A line that a core of it has pinned stays in the L1 of its physical core: a wider release there, its eviction or its
PINMAX publishes it. DEDUCED: log 97. -/
def finishInstance (s : State) (n : Inst) (cls status : Nat) : State :=
  let mine := s.cores.filter fun p => p.2.inst == n.id
  let ids := mine.map (·.1)
  let s := (s.leaveAll mine).tellLaunch n.origin 0x10000 (BitVec.ofNat 64 n.id)
  let s := { s with
    insts := s.insts.filter fun i => i.id != n.id
    ended := tput s.ended n.id (n.part, n.ctx)
    endedGroups := match n.group with | some g => tput s.endedGroups g.1 (n.part, n.ctx) | none => s.endedGroups
    mons := s.mons.filter fun m => !ids.contains m.core
    feeds := s.feeds.filter fun f => !ids.contains f.1.1
    lineReqs := s.lineReqs.filter fun r => !ids.contains r.core }
  match n.origin with
  | .host fn seq => { s with cores := s.cores.filter fun p => p.2.inst != n.id }.complete fn seq cls status (BitVec.ofNat 64 n.id)
  | .task .. => { s with cores := s.cores.filter fun p => p.2.inst != n.id }

/-- The digest record is written as an engine write of the context; then the instance leaves (13 R318). A record line that is held
is waited for (04 R129). Where it faults, the A bits that its walk set stay (02 R67). DEDUCED: logs 27, 60. -/
def endWith (n : Inst) (result : Word) (status : Nat) : M Unit := fun s =>
  match engStore n.part n.ctx true n.digrec.toNat ((digestRecord n result status).map some) s.pkgTime s with
  | .ok _ s' => .ok () (finishInstance s' n 3 status)
  | .error (.flt f) s' => .ok () (finishInstance s' n 0 f.cause.code)
  | .error e s' => .error e s'

/-- The bytes of a unit leave for a page in host bias as CXL writes of the device (02 R70). -/
def State.hostUnit (s : State) (pa : Nat) (cells : List Host.Cell) : State :=
  (List.range 1024).foldl (fun s i => s.hostWrite devCore (pa + 64 * i)
    ((List.range 64).map fun b => some ((cells.lookup (64 * i + b)).getD 0))) s

/-- A shadowed unit is restored as a write of the instance's context (13 R320); a line of it that is held is waited for (04 R129).
The poison marks that its lines had come back with it (02 R76). The unit of a scale array is named by its final address (log 93); a
page that is in host bias now takes CXL writes (02 R70). DEDUCED: log 61. -/
def restoreUnit (n : Inst) (u : Nat) (cells : List Host.Cell) (bad : List Nat) : M Unit := fun s =>
  let put (pa : Nat) (s : State) : State := (s.bulk pa 65536 cells).poisonLines (bad.map fun o => pa + o)
  if 2 ^ 56 ≤ u then
    if s.unitHeld (u - 2 ^ 56) none then .error .retry s else .ok () (put (u - 2 ^ 56) s)
  else match engXlat n.part n.ctx true .store u false 0 s with
    | .ok x s' =>
      if x.toHost s' then .ok () (((s'.hostUnit x.pa cells).poisonLines (bad.map fun o => x.pa + o)).markDirty x (s'.pkgTime + 1))
      else if s'.unitHeld x.pa none || s'.blocked (x.dirtyKeys s') none then .error .retry s'
      else .ok () ((put x.pa s').markDirty x (s'.pkgTime + 1))
    | .error (.flt _) s' => .ok () s'
    | .error e s' => .error e s'

/-- An entry of the shadow that another package stored, read back from memory: the unit, its bytes, and its poisoned lines; none where
it cannot be read. -/
def readShadow (n : Inst) (j : Nat) : M (Option (Nat × List Host.Cell × List Nat)) := fun s =>
  let line (acc : List Host.Cell × List Nat) (i : Nat) : M (List Host.Cell × List Nat) := fun s =>
    match engLoad n.part n.ctx true (n.shadowAt j + 64 + 64 * i) 64 s.pkgTime s with
    | .ok bs s' => .ok (acc.1 ++ cellsAt (64 * i) bs, acc.2) s'
    | .error (.flt f) s' => if f.cause == .dataErr then .ok (acc.1, acc.2 ++ [64 * i]) s' else .error (.flt f) s'
    | .error e s' => .error e s'
  match (do return ((← shadowName n j), (← (List.range 1024).foldlM line ([], []))) : M _) s with
  | .ok (u, r) s' => .ok (u.map fun u => (u, r)) s'
  | .error (.flt _) s' => .ok none s'
  | .error e s' => .error e s'

/-- The serial re-execution begins (13 R320): memory is restored, the last shadowed unit first, and everything of the instance is
as at its launch, with no monitor armed, no word in a feed and no handle waiting for a culvert. DEDUCED: log 61. -/
def beginRerun (n : Inst) (ld : Word) : M Unit := do
  n.shadow.reverse.forM fun e => restoreUnit n e.1 e.2 ((n.shpoison.filter fun p => p.1 == e.1).map (·.2))
  (List.range n.shback).forM fun j => do
    match ← readShadow n j with
    | some (u, cells, bad) => restoreUnit n u cells bad
    | none => pure ()
  modify fun s => Id.run do
  let ids := n.start.map (·.1)
  let s := { s with
    mons := s.mons.filter fun m => !ids.contains m.core
    feeds := s.feeds.filter fun f => !ids.contains f.1.1
    pushes := s.pushes.filter fun p => !ids.contains p.1.1 }
  let s := n.start.foldl (fun s p => s.onCore p.1 fun k =>
    { p.2 with die := k.die, phys := k.phys, out := k.out, pts := k.pts, selcnt := k.selcnt, placecnt := k.placecnt,
               stealcnt := k.stealcnt }) s
  let s := s.onInst n.id fun i => { i with
    rerun := some ld, stage := 0, bars := [], inc := {}, digests := []
    sched := i.sched.map fun e => { e with released := false } }
  let s := s.releaseStage n.id s.pkgTime {} true false
  return s.acceptInits n.id (n.inits.map fun m => { m with stamp := s.pkgTime })

/-- The end of a checked launch (13 R318, R320). -/
def endChecked (n : Inst) : M Unit := do
  let ld := launchDigest n.digests
  if !n.dmode then endWith n ld 1
  else match n.rerun with
  | some _ => endWith n ld (if ld = n.expect then 3 else 4)
  | none =>
    if ld = n.expect then endWith n ld 2
    else
      let _ ← writeRecord n.part n.ctx { kind := 6, cause := Cause.digestMismatch.code, detail := ld, va := n.expect } (← get).pkgTime
      if n.shfull then endWith n ld 5 else beginRerun n ld

/-- INSTANCE_END (16 R346; 13 R318, R320). Cores of the context that rest in its image leave it and go back, since the order of its
records changes (21 R421). -/
def execInstanceEnd (id : Nat) (s : State) : Host.Outcome State Fault Refusal :=
  match s.inst? id with
  | none => .next s
  | some n =>
    if !quiescent s n || stowWaits s n.part n.ctx then .next s
    else
      let s1 := s.unstow n.part n.ctx
      .next (if !n.det then (finishInstance s1 n 0 0).stow n.part n.ctx
        else match endChecked n s1 with
          | .ok _ s2 => s2.stow n.part n.ctx
          | .error (.flt _) s2 => s2.stow n.part n.ctx
          | .error _ _ => s)

end Sys2Proof.Machine
end

