-- ==== Sys2Proof/Machine/HostCmd.lean ====
section
/-! DEFINITION. The host's commands and the events that complete them (spec 24 R450 to R458, Table 24.5; 02 R72, R73; 21
R427). -/

namespace Sys2Proof.Machine

/-! ## Which command may start (24 R452) -/

/-- A command that reaches its context. -/
def HCmd.reachesCtx (c : HCmd) : Bool := [0x01, 0x02, 0x03, 0x04, 0x09, 0x0A, 0x0C].contains c.opc
/-- A command that reaches the whole partition. -/
def HCmd.reachesPart (c : HCmd) : Bool := [0x06, 0x07, 0x0B].contains c.opc

/-- Whether command `c` must follow the earlier command `d` of its queue (24 R452, R454). -/
def HCmd.follows (c d : HCmd) : Bool :=
  if c.opc = 0x08 then true
  else if c.reachesPart then d.opc != 0x08
  else if c.opc = 0x05 then
    (d.opc == 0x05 && d.part == c.part && d.addr.toNat / 65536 == c.addr.toNat / 65536) || (d.reachesPart && d.part == c.part)
  else d.part == c.part && ((d.reachesCtx && d.ctx == c.ctx) || d.reachesPart)

/-- Whether a launch of a command is with the dispatcher. -/
def submitted (s : State) (c : HCmd) : Bool :=
  s.subs.any fun x => match x.2.2.2.1 with | .host fn seq => fn == c.fn && seq == c.seq | _ => false

/-- Whether an accepted command is free to start (24 R452). -/
def freeToStart (s : State) (c : HCmd) : Bool :=
  c.st == .accepted && !submitted s c &&
    s.hcmds.all fun d => d.fn != c.fn || decide (c.seq ≤ d.seq) || d.st == .completed || !c.follows d

/-- Whether bytes at a guest physical address lie in a line that is held (04 R129). -/
def guestHeld (s : State) (part gpa n : Nat) : Bool :=
  match mapMatch s part gpa with
  | none => false
  | some (_, e) => rangeHeld s (gpa - e.gbase + e.hbase) n

/-- The ranges of a checkpoint, in entry order: HBASE and LIMIT. -/
def ckptRanges (s : State) (part : Nat) : List (Nat × Nat) :=
  (List.range 64).filterMap fun i => (tget? (s.part part).pmap i).bind fun e =>
    if e.v && decide (e.hbase / 2 ^ 48 ≤ 1) then some (e.hbase, e.limit) else none

/-- The bytes that a checkpoint writes (24 R455). -/
def ckptSize (s : State) (part : Nat) : Nat := 65536 + ((ckptRanges s part).map (·.2)).sum

/-- The class and cause of a checkpoint that is turned away (24 R455). DEDUCED: log 71. -/
def ckptCause (s : State) (c : HCmd) : Option (Nat × Nat) :=
  let a := c.addr.toNat
  let size := ckptSize s c.part
  if !((s.ctxs.filter fun x => x.part == c.part).all fun x => x.div == .diverted) then some (0, Cause.ctxState.code)
  else if (c.arg 0).toNat < size then some (0, Cause.imgSmall.code)
  else if a % 65536 != 0 || (a / 2 ^ 48 != 2 && a / 2 ^ 48 != 3) || (rangeCause s a size).isSome then some (2, 3)
  else if (ckptRanges s c.part).any fun r => (rangeCause s r.1 r.2).isSome then some (0, Cause.addrRsv.code)
  else none

/-- Whether a command that is free to start waits for lines that it reads or writes (04 R129): those of the image that cores rest in, of
its context block, or of its checkpoint. -/
def HCmd.stalled (s : State) (c : HCmd) : Bool :=
  match c.opc with
  | 0x02 | 0x03 => stowWaits s c.part c.ctx
  | 0x04 => guestHeld s c.part c.addr.toNat 128
  | 0x07 => (ckptCause s c).isNone &&
      (rangeHeld s c.addr.toNat (ckptSize s c.part) || (ckptRanges s c.part).any fun r => rangeHeld s r.1 r.2)
  | _ => false

/-- The command `seq` of function `fn`, where it is free to start, is `opc`, and no lower one of its queue is free; one that waits for a
held line holds none back (24 R452). -/
def startable (s : State) (fn seq opc : Nat) : Option HCmd :=
  (s.hcmds.find? fun c => c.fn == fn && c.seq == seq).filter fun c =>
    c.opc == opc && freeToStart s c &&
      !(s.hcmds.any fun d => d.fn == fn && decide (d.seq < seq) && freeToStart s d && !d.stalled s)

/-- The start of a command: nothing where it may not start. -/
def onStart (fn seq opc : Nat) (f : HCmd → State → State) (s : State) : Host.Outcome State Fault Refusal :=
  match startable s fn seq opc with
  | none => .next s
  | some c => .next (f c s)

/-- A command is started (24 Table 24.6). -/
def State.started (s : State) (c : HCmd) : State := s.onCmd c.fn c.seq fun c => { c with st := .started }

/-- The diversion state of a command's context; none where there is no such context. -/
def divOf (s : State) (c : HCmd) : Option DivSt := (s.ctx? c.part c.ctx).map (·.div)

/-! ## LAUNCH, SUSPEND, HALT, RESUME -/

/-- LAUNCH (24 R450, 16 R343): the submission goes to the dispatcher. -/
def execLaunchCommand (fn seq : Nat) : State → Host.Outcome State Fault Refusal := onStart fn seq 0x01 fun c s =>
  match divOf s c with
  | none => s.complete fn seq 0 Cause.badCtx.code
  | some .closed => { s with subs := s.subs ++ [(c.addr, c.part, c.ctx, .host fn seq, s.pkgTime)] }
  | some _ => s.complete fn seq 0 Cause.ctxState.code

/-- A host's SUSPEND or HALT (21 R412, R423) is taken; one that finds cores at rest in an image with a held line waits (04 R129). -/
def State.hostReq (s : State) (var : BitVec 2) (c : HCmd) : State :=
  if stowWaits s c.part c.ctx then s
  else (s.started c).takeReq { var, part := c.part, ctx := c.ctx, asker := .host c.fn c.seq }

/-- SUSPEND (21 R412). DEDUCED: log 68. -/
def execSuspend (fn seq : Nat) : State → Host.Outcome State Fault Refusal := onStart fn seq 0x02 fun c s => s.hostReq 0 c
/-- HALT (21 R423). DEDUCED: log 68. -/
def execHaltCommand (fn seq : Nat) : State → Host.Outcome State Fault Refusal := onStart fn seq 0x03 fun c s => s.hostReq 1 c

/-- The bytes at a guest physical address of a partition (02 R59). DEDUCED: log 68. -/
def guestRead (s : State) (part gpa n : Nat) : Except Cause (List Byte) :=
  match mapMatch s part gpa with
  | none => .error .pmapMiss
  | some (_, e) =>
    let pa := gpa - e.gbase + e.hbase
    match region s.plat pa with
    | .bad | .config => .error .addrRsv
    | .peer => .error .peerAcc
    | _ => if !e.rd then .error .pmapMiss else if rangePoisoned s pa n then .error .dataErr else .ok (mread s.mem pa n)

/-- RESUME (21 R419, R420, R432): the context block lies at guest physical ADDR; one that is held is waited for. An ADDR that is no
multiple of 128, or a block that names another context, ends with BAD_CTX. DEDUCED: logs 68, 118. -/
def execResume (fn seq : Nat) : State → Host.Outcome State Fault Refusal := onStart fn seq 0x04 fun c s =>
  if guestHeld s c.part c.addr.toNat 128 then s
  else match guestRead s c.part c.addr.toNat 128 with
  | .error e => s.complete fn seq 0 e.code
  | .ok bs =>
    let b : BitVec 1024 := BitVec.ofNat 1024 (leNat bs)
    if fld b 2 0 != c.ctx || c.addr.toNat % 128 != 0 then s.complete fn seq 0 Cause.badCtx.code
    else (s.started c).blockReq 2 c.part none b (.host fn seq)

/-! ## BIAS (02 R72, R73) -/

/-- BIAS: a page already in the target bias completes at once; otherwise its flip is under way. DEDUCED: log 69. -/
def execBias (fn seq : Nat) : State → Host.Outcome State Fault Refusal := onStart fn seq 0x05 fun c s =>
  match mapMatch s c.part c.addr.toNat with
  | none => s.complete fn seq 0 Cause.pmapMiss.code
  | some (_, e) =>
    let page := (c.addr.toNat - e.gbase + e.hbase) / 65536
    if tget s.bias (c.part, page) false == (c.arg 0).getLsbD 0 then s.complete fn seq 0 0
    else { s.started c with flips := s.flips ++ [((c.part, page), fn, seq)] }

/-- Every flip of a page of a partition ends: the commands of all queues that asked for it complete (24 R450, R452). -/
def State.endFlips (s : State) (page : Nat × Nat) (status : Nat) : State :=
  (s.flips.filter fun f => f.1 == page).foldl (fun s f => s.complete f.2.1 f.2.2 0 status)
    { s with flips := s.flips.filter fun f => f.1 != page }

/-- The oldest flip of a page that is under way: partition and page (02 R72). -/
def State.flipOf (s : State) (page : Nat) : Option (Nat × Nat) := (s.flips.find? fun f => f.1.2 == page).map (·.1)

/-- BIAS_SWITCH (02 R72 steps 1 to 4) of the partition whose flip of the page is the oldest: once no line of the page is locked and no
write to it is on its way to the host, its pins are published, its replicas and cached lines go, its lines take the time Tb, later than
every lease, and the bias switches: it is not what it was. DEDUCED: log 69. -/
def execBiasSwitch (page : Nat) (s : State) : Host.Outcome State Fault Refusal :=
  match s.flipOf page with
  | none => .next s
  | some f =>
    let mine (l : Nat) : Bool := l / 65536 == page
    let lines := s.lines.filter fun p => mine p.1
    if (lines.any fun p => match p.2.hold with | .locked _ => true | _ => false) || s.hostPend.any fun w => mine w.pa then .next s
    else
      let s := lines.foldl (fun s p => s.publish p.1) s
      let tb := ((s.lines.filter fun p => mine p.1).map fun p => p.2.rts).foldl max 0 + 1
      .next (State.endFlips { s with
        lines := s.lines.map fun (p : Nat × Line) => if mine p.1 then (p.1, { p.2 with wts := tb, rts := tb }) else p
        replicas := s.replicas.filter fun r => !mine r.line
        redirects := s.redirects.filter fun e => !mine e.2
        l2 := s.l2.filter fun e => !mine e.2.2.2
        bias := tput s.bias f !(tget s.bias f false) } f 0)

/-- BIAS_TIMEOUT (02 R73), of the same flip. -/
def execBiasTimeout (page : Nat) (s : State) : Host.Outcome State Fault Refusal :=
  .next (match s.flipOf page with
    | some f => s.endFlips f Cause.biasTimeout.code
    | none => s)

/-! ## RESET (21 R427, 24 R454) -/

/-- Everything of a partition's instances ends (21 R427): cores, commands, messages, diversion entries; every slot of the
partition's benches is EMPTY (11 R271). -/
def State.clearPart (s : State) (part : Nat) : State :=
  let mine (i : Nat) : Bool := (s.instCtx i).1 == part
  let ids := (s.cores.filter fun p => mine p.2.inst).map (·.1)
  let s := ids.foldl (fun s c => (s.discardTask c).publishAll c) s
  let s := ((s.ctxs.filter fun x => x.part == part).foldl (fun s x => s.publishCtx part x.ctx) s).leaveAll
    (s.cores.filter fun p => mine p.2.inst)
  let dead := s.insts.filter fun n => n.part == part
  let s := dead.foldl (fun s n => match n.origin with
    | .host fn seq => s.onCmd fn seq fun c => { c with st := .completed, stclass := 2, status := 2 }
    | .task .. => s) s
  let wipe (x : Ctx) : Ctx :=
    if x.part != part then x
    else { x with div := .closed, gone := false, pbase := 0, gpa := false, mapi := 0, dpart := 0, dctx := 0, halt := false, asker := none,
                  img := none, loaded := [], holds := [], benches := [] }
  { s with
    cores := s.cores.filter fun p => !mine p.2.inst
    cmds := s.cmds.filter fun c => !mine c.inst
    feeds := s.feeds.filter fun f => !ids.contains f.1.1
    mxq := s.mxq.filter fun c => !mine c.inst
    mxrun := s.mxrun.filter fun r => !mine r.2.cmd.inst
    slots := s.slots.filter fun b => !(s.part part).benches.contains b.1.1
    pushes := s.pushes.filter fun p => !ids.contains p.1.1
    net := s.net.filter fun f => !mine f.inst
    ctl := s.ctl.filter fun x => !(dead.any fun n => x.ofInst n.id)
    mons := s.mons.filter fun m => !ids.contains m.core
    remotes := s.remotes.filter fun r => !mine r.inst
    leaving := s.leaving.filter fun x => !mine x.snd.inst
    subs := s.subs.filter fun x => x.2.1 != part
    reqs := s.reqs.filter fun r => r.part != part
    haltQ := s.haltQ.filter fun r => !ids.contains r.1
    lineReqs := s.lineReqs.filter fun r => !ids.contains r.core
    walkers := s.walkers.filter fun w => w.2 != (s.part part).owner
    flips := s.flips.filter fun f => !(s.hcmds.any fun c => c.fn == f.2.1 && c.seq == f.2.2 && c.part == part)
    ctxs := s.ctxs.map wipe
    dents := s.dents.filter fun e => e.1.1 != part
    insts := s.insts.filter fun n => n.part != part
    ended := dead.foldl (fun e n => tput e n.id (n.part, n.ctx)) s.ended
    endedGroups := dead.foldl (fun e n => match n.group with | some g => tput e g.1 (n.part, n.ctx) | none => e) s.endedGroups }

/-- The commands that a reset re-runs (24 R454 step 2): those of the partition at or above their queue's FENCED, but for
RESET. DEDUCED: log 70. -/
def replayed (s : State) (part : Nat) (c : HCmd) : Bool :=
  c.part == part && decide ((s.fn c.fn).fenced ≤ c.seq) && c.opc != 0x06

/-- A command is accepted again, with REPLAY set; one that is no command completes as it did (24 R450). DEDUCED: log 70. -/
def State.replay (s : State) (c : HCmd) : State :=
  s.onCmd c.fn c.seq fun c =>
    if badCmd c then { c with st := .completed, stclass := 2, status := 1, replay := true }
    else { c with st := .accepted, stclass := 0, status := 0, result := 0, replay := true }

/-- RESET. DEDUCED: log 70. -/
def execReset (fn seq : Nat) : State → Host.Outcome State Fault Refusal := onStart fn seq 0x06 fun c s =>
  let again := s.hcmds.filter (replayed s c.part)
  let s := again.foldl State.replay ((s.started c).clearPart c.part)
  s.complete fn seq 0 0 (BitVec.ofNat 64 again.length)

/-! ## CKPT (24 R455) -/

/-- The header of a checkpoint; the widths of its fields are log 20. -/
def ckptHeader (rs : List (Nat × Nat)) : List Byte :=
  natBytes 8 0x48434B37434B5054 ++ natBytes 4 1 ++ natBytes 4 rs.length ++ rs.flatMap fun r => natBytes 8 r.1 ++ natBytes 8 r.2

/-- One range of a checkpoint is copied to `a`. The poison mark of a line goes with it (02 R76). -/
def State.copyRange (s : State) (a : Nat) (r : Nat × Nat) : State :=
  let src := (s.mem.filter fun m => decide (r.1 ≤ m.1) && decide (m.1 < r.1 + r.2)).map fun m => (m.1 - r.1, m.2)
  let bad := s.lines.filter fun p => p.2.poison && decide (r.1 ≤ p.1) && decide (p.1 < r.1 + r.2)
  bad.foldl (fun s p => s.setLine (a + (p.1 - r.1)) { s.line (a + (p.1 - r.1)) with poison := true }) (s.bulk a r.2 src)

/-- The header and the ranges are written one after the other. -/
def State.writeCkpt (s : State) (a : Nat) (rs : List (Nat × Nat)) : State :=
  let s1 := s.bulk a 65536 (cellsAt 0 (ckptHeader rs))
  (rs.foldl (fun (p : State × Nat) r => (p.1.copyRange p.2 r, p.2 + r.2)) (s1, a + 65536)).1

/-- CKPT: into the deep tier it completes when written; into the safe tier after a global persistent flush. A line that is held,
where it reads or writes, is waited for (04 R129). DEDUCED: log 71. -/
def execCkpt (fn seq : Nat) : State → Host.Outcome State Fault Refusal := onStart fn seq 0x07 fun c s =>
  match ckptCause s c with
  | some (cls, cause) => s.complete fn seq cls cause
  | none =>
    if c.stalled s then s
    else
    let a := c.addr.toNat
    let s := (s.started c).writeCkpt a (ckptRanges s c.part)
    if a / 2 ^ 48 = 2 then s.complete fn seq 0 0 else { s with out := s.out ++ [.flush] }

/-- GLOBAL_PERSISTENT_FLUSH (24 R455): the pool's answer to the oldest checkpoint that waits for it. DEDUCED: log 71. -/
def execGlobalPersistentFlush (ok : Bool) (s : State) : Host.Outcome State Fault Refusal :=
  match s.hcmds.find? fun c => c.opc == 0x07 && c.st == .started with
  | none => .next s
  | some c => .next (if ok then s.complete c.fn c.seq 0 0 else s.complete c.fn c.seq 2 3)

/-! ## FENCE, CTXNEW, CTXDEL, MAPINV, GROUP -/

/-- FENCE (24 R454): every earlier command of its queue has completed, so it is fenced; FENCED moves and it completes. -/
def execFenceCommand (fn seq : Nat) : State → Host.Outcome State Fault Refusal := onStart fn seq 0x08 fun _ s =>
  let s := s.onCmd fn seq fun c => { c with st := .fenced }
  let f := s.fn fn
  { s with fns := tput s.fns fn { f with fenced := seq + 1 } }.complete fn seq 0 0

/-- CTXNEW: the package number is fixed from the first one on (24 R458). The context takes over the diversion entry that was written for
it (21 R414, R425). DEDUCED: log 71. -/
def execCtxnew (fn seq : Nat) : State → Host.Outcome State Fault Refusal := onStart fn seq 0x09 fun c s =>
  match s.ctx? c.part c.ctx with
  | some _ => s.complete fn seq 0 Cause.ctxState.code
  | none =>
    let x : Ctx := { s.dent c.part c.ctx with
      ttbase := BitVec.ofNat 64 (fld (c.arg 0) 51 13 * 2 ^ 13), fqbase := c.arg 1, fqlog := fld (c.arg 2) 3 0, lastCommit := s.now }
    { s with ctxs := s.ctxs ++ [x], dents := tdel s.dents (c.part, c.ctx), plat := { s.plat with pkgIdLocked := true } }.complete fn seq 0 0

/-- CTXDEL: the context must be CLOSED with no instance. Its diversion entry stays as it was last written (21 R414). -/
def execCtxdel (fn seq : Nat) : State → Host.Outcome State Fault Refusal := onStart fn seq 0x0A fun c s =>
  match s.ctx? c.part c.ctx with
  | none => s.complete fn seq 0 Cause.badCtx.code
  | some x =>
    if x.div != .closed || s.insts.any fun n => n.part == c.part && n.ctx == c.ctx then s.complete fn seq 0 Cause.ctxState.code
    else { s with
      ctxs := s.ctxs.filter fun y => !(y.part == c.part && y.ctx == c.ctx)
      dents := tput s.dents (c.part, c.ctx) (BitVec.ofNat 128 (divBits x))
      tlbs := s.tlbs.filter fun p => !(p.2.part == c.part && p.2.ctx == c.ctx) }.complete fn seq 0 0

/-- MAPINV (02 R65). -/
def execMapinv (fn seq : Nat) : State → Host.Outcome State Fault Refusal := onStart fn seq 0x0B fun c s =>
  { s with tlbs := s.tlbs.filter fun p => p.2.part != c.part }.complete fn seq 0 0

/-- The first group number of member `m` and the total of a group's logical cores (24 R458); the own count is `nvc`.
DESIGN CHOICE: log 18. -/
def groupNumbers (g cnt m nvc : Nat) : Nat × Nat :=
  let size (i : Nat) : Nat := if i = m then nvc else (Config.groupMember g i).2
  (((List.range m).map size).sum, ((List.range cnt).map size).sum)

/-- GROUP (24 R458): the instance joins; the command completes when the event comes again, every member having joined.
The group shares one incumbent (20 R392): what the joining instance holds is offered to the others. DEDUCED: log 71. -/
def execGroup (fn seq : Nat) (s : State) : Host.Outcome State Fault Refusal :=
  match s.hcmds.find? fun c => c.fn == fn && c.seq == seq && c.opc == 0x0C && c.st == .started with
  | some _ => .next (s.complete fn seq 0 0)
  | none => onStart fn seq 0x0C (fun c s =>
      let g := (c.arg 0).toNat
      let cnt := (c.arg 1).toNat
      let m := (c.arg 2).toNat
      match s.insts.find? fun n => n.id == c.addr.toNat && n.part == c.part && n.ctx == c.ctx with
      | none => s.complete fn seq 0 (if (s.ctx? c.part c.ctx).isSome then Cause.ctxState.code else Cause.badCtx.code)
      | some n =>
        if cnt < 2 || 288 < cnt || cnt ≤ m then s.complete fn seq 2 1
        else if n.group.isSome || s.insts.any fun i => (i.group.map (·.1)) == some g then s.complete fn seq 0 Cause.ctxState.code
        else
          let r := groupNumbers g cnt m n.nvc
          let s := (s.started c).onInst n.id fun n => { n with group := some (g, cnt, m, r.1, r.2) }
          if n.inc.ne then { s with out := s.out ++ [.offer g n.inc.sense n.inc.value n.inc.payload] } else s) s

end Sys2Proof.Machine
end

