-- ==== Sys2Proof/Machine/JigClamp.lean ====
section
/-! DEFINITION. OP 0x2B: the jig, UNCLAMP and CLW (spec 10), and ILLOP (spec 01 R31, R32). -/

namespace Sys2Proof.Machine

/-! ## The jig (10 R261 to R264) -/

/-- Whether the base word of a body instruction is on the list of 10 R262. DEDUCED: log 55. -/
def bodyOk (w : IWord) : Bool :=
  let fn := fnOf w
  match opOf w with
  | 0x15 | 0x16 => true
  | 0x17 => fn == 0x000 || fn == 0x002 || (decide (0x010 ≤ fn) && decide (fn ≤ 0x015))
  | 0x18 => fn == 0x000 || (decide (0x002 ≤ fn) && decide (fn ≤ 0x004))
  | 0x19 => decide (0x100 ≤ fn)
  | 0x1A => fn == 0x100 || fn == 0x101 || fn == 0x103
  | 0x1C => fn / 16 == 0x02 || fn / 16 == 0x04
  | _ => false

/-- A vector register code in iteration `k` (10 R263). -/
def Jig.reg (j : Jig) (k : Nat) (r : Reg) : Reg :=
  if j.wbase ≤ r.toNat && r.toNat < j.wbase + j.wsize then
    BitVec.ofNat 5 (j.wbase + (r.toNat - j.wbase + k * j.step) % j.wsize)
  else r

/-- A body instruction with its vector register codes renamed by `f` (10 R263): scalar and mask registers are not. -/
def renameVec (f : Reg → Reg) (i : Instr) : Instr :=
  let g (sc : Bool) (b : Reg) : Reg := if sc then b else f b
  match i with
  | .fadd v sc ty m d a b => .fadd v sc ty m (f d) (f a) (g sc b)
  | .fsub v sc ty m d a b => .fsub v sc ty m (f d) (f a) (g sc b)
  | .fmul v sc ty m d a b => .fmul v sc ty m (f d) (f a) (g sc b)
  | .fdiv v sc ty m d a b => .fdiv v sc ty m (f d) (f a) (g sc b)
  | .fsqrt v ty m d a => .fsqrt v ty m (f d) (f a)
  | .fma v sc ty m d a b c => .fma v sc ty m (f d) (f a) (g sc b) (f c)
  | .fms v sc ty m d a b c => .fms v sc ty m (f d) (f a) (g sc b) (f c)
  | .fnma v sc ty m d a b c => .fnma v sc ty m (f d) (f a) (g sc b) (f c)
  | .fnms v sc ty m d a b c => .fnms v sc ty m (f d) (f a) (g sc b) (f c)
  | .fmin v sc ty z m d a b => .fmin v sc ty z m (f d) (f a) (g sc b)
  | .fmax v sc ty z m d a b => .fmax v sc ty z m (f d) (f a) (g sc b)
  | .fabs v ty z m d a => .fabs v ty z m (f d) (f a)
  | .fneg v ty z m d a => .fneg v ty z m (f d) (f a)
  | .fsgnj v sc ty z m d a b => .fsgnj v sc ty z m (f d) (f a) (g sc b)
  | .vadd sc ty m d a b => .vadd sc ty m (f d) (f a) (g sc b)
  | .vsub sc ty m d a b => .vsub sc ty m (f d) (f a) (g sc b)
  | .vadds sc ty m d a b => .vadds sc ty m (f d) (f a) (g sc b)
  | .vsubs sc ty m d a b => .vsubs sc ty m (f d) (f a) (g sc b)
  | .vmul sc ty m d a b => .vmul sc ty m (f d) (f a) (g sc b)
  | .vmulh sc ty m d a b => .vmulh sc ty m (f d) (f a) (g sc b)
  | .vmadd sc ty m d a b c => .vmadd sc ty m (f d) (f a) (g sc b) (f c)
  | .vmin sc ty m d a b => .vmin sc ty m (f d) (f a) (g sc b)
  | .vmax sc ty m d a b => .vmax sc ty m (f d) (f a) (g sc b)
  | .vabs ty m d a => .vabs ty m (f d) (f a)
  | .vand sc ty m d a b => .vand sc ty m (f d) (f a) (g sc b)
  | .vor sc ty m d a b => .vor sc ty m (f d) (f a) (g sc b)
  | .vxor sc ty m d a b => .vxor sc ty m (f d) (f a) (g sc b)
  | .vandn sc ty m d a b => .vandn sc ty m (f d) (f a) (g sc b)
  | .vsll sc ty m d a b => .vsll sc ty m (f d) (f a) (g sc b)
  | .vsrl sc ty m d a b => .vsrl sc ty m (f d) (f a) (g sc b)
  | .vsra sc ty m d a b => .vsra sc ty m (f d) (f a) (g sc b)
  | .fcmp v cond ty z m d a b => .fcmp v cond ty z m d (f a) (f b)
  | .icmp cond ty m d a b => .icmp cond ty m d (f a) (f b)
  | .vbcast ty m d a => .vbcast ty m (f d) a
  | .vins ty d a b => .vins ty (f d) a b
  | .vperm ty m d a b c => .vperm ty m (f d) (f a) (f b) (f c)
  | .vmov ty m d a => .vmov ty m (f d) (f a)
  | .fexp v ty m d a => .fexp v ty m (f d) (f a)
  | .fexp2 v ty m d a => .fexp2 v ty m (f d) (f a)
  | .flog v ty m d a => .flog v ty m (f d) (f a)
  | .flog2 v ty m d a => .flog2 v ty m (f d) (f a)
  | .frcp v ty m d a => .frcp v ty m (f d) (f a)
  | .frsq v ty m d a => .frsq v ty m (f d) (f a)
  | .fsin v ty m d a => .fsin v ty m (f d) (f a)
  | .fcos v ty m d a => .fcos v ty m (f d) (f a)
  | .ftanh v ty m d a => .ftanh v ty m (f d) (f a)
  | .fsigm v ty m d a => .fsigm v ty m (f d) (f a)
  | .ferf v ty m d a => .ferf v ty m (f d) (f a)
  | .cvt v src dst part m d a => .cvt v src dst part m (f d) (f a)
  | .cvts v src dst part m d a => .cvts v src dst part m (f d) (f a)
  | .cvfb src dst part rm z d a c => .cvfb src dst part rm z (f d) (f a) c
  | .vldl ty m d mo => .vldl ty m (f d) mo
  | .vstl ty m d mo => .vstl ty m (f d) mo
  | i => i

/-- Whether the implicit second register of a body instruction would exceed v31 in one of its iterations (10 R262, 09
R258). The renaming repeats after at most 32 iterations. One whose coded D is 31 is no legal instruction, which its first iteration finds
(ILLOP, 09 R258, 10 R262), and not the JIG. DEDUCED: log 55. -/
def secondOver (j : Jig) (i : Instr) : Bool :=
  match i with
  | .cvfb _ dst _ _ _ d _ _ => dst == .f32 && (List.range (min j.n 32)).any fun k => j.reg k d == 31
  | _ => false

/-- The body of a jig (10 R262): the address of each instruction, and the address after the last. DEDUCED: log 55. -/
def jigBody (t : Task) (j : Jig) : Nat → VAddr → M (List VAddr × VAddr)
  | 0, pc => return ([], pc)
  | n + 1, pc => do
    let w ← fetchWord t pc
    need (bodyOk w) .jigBad
    let f ← fetchInstr t pc
    need (!secondOver j f.i) .jigBad
    let (l, after) ← jigBody t j n (pc + BitVec.ofNat 56 f.len)
    return (pc :: l, after)

/-- JIG (10 R261 to R263): it opens the iterations, which the fetch that follows issues one by one. DEDUCED: log 55. -/
def execJig (a : Reg) (bodym1 : BitVec 4) (jstep : BitVec 5) (wbase : BitVec 5) (wsize : BitVec 6) (ast : BitVec 8) :=
  runTask fun t => do
    let n := (t.rx a).toNat
    need (decide (n ≤ 65536)) .jigBad
    let start := t.pc + 12
    let j : Jig := { start, after := start, body := [], k := 0, n, idx := 0, step := jstep.toNat, wbase := wbase.toNat,
                     wsize := wsize.toNat, stride := ast.toNat }
    let (body, after) ← jigBody t j (bodym1.toNat + 1) start
    modTask fun t => if n = 0 then { t with npc := after } else { t with npc := start, jig := some { j with body, after } }

/-- The address after an instruction of `len` bytes: in a jig, that of the next body instruction, or the one after the
block. -/
def Task.following (t : Task) (len : Nat) : VAddr :=
  match t.jig with
  | none => t.pc + BitVec.ofNat 56 len
  | some j => if j.n * j.body.length ≤ j.idx then j.after else j.body.getD (j.idx % j.body.length) j.start

/-- What a task in a jig executes for the instruction that it fetched. -/
def Task.issued (t : Task) (i : Instr) : Instr :=
  match t.jig with
  | none => i
  | some j => renameVec (j.reg j.k) i

/-! ## The clamp (10 R268, R269) -/

/-- UNCLAMP (10 R268): the followers' lanes and masks are dropped. PERS stores that a follower holds keep it until the
task ends (`followerOf`). -/
def execUnclamp :=
  runRegs fun t => { t with
    parts := (t.parts.drop t.lead).take 1
    members := (t.members.drop t.lead).take 1
    lead := 0 }

/-- CLW (10 R269). -/
def execClw (d : Reg) := runRegs fun t => t.wx d (BitVec.ofNat 64 (t.width + t.lead * 16))

/-! ## ILLOP (01 R31, R32, R35) -/

/-- An encoding that decodes to no instruction traps with the base word in its record. -/
def execIllop (w : IWord) := runTask fun t => do
  modTask fun _ => { t with ir := w }
  stop .illop

end Sys2Proof.Machine
end

