-- ==== Sys2Proof/Machine/Select.lean ====
section
/-! DEFINITION. Runnable channels, selection and the start of a task, the forming of a clamp, stealing, and the budget (spec
14 R332 to R334; 10 R265, R266; 13 R320; 16 R347, R348, R355; 20 R395). -/

namespace Sys2Proof.Machine

/-! ## Runnable channels (14 R332, 20 R395) -/

/-- The seed of the owner for whom an instance acts (18 R365). -/
def State.seedOf (s : State) (inst : Nat) : Word := (s.owner (s.part (s.instCtx inst).1).owner).seed

/-- Whether the q registers of an entry can be bound: culverts filled to AMIN, and 16 free words at each feed (14 R332, 06
R172). No task runs, so nothing is reserved. -/
def bindable (s : State) (c : Nat) (k : Core) (e : BitVec 256) : Bool :=
  (iota 1 7).all fun q =>
    let b := entQbind e q
    if 16 ≤ b then decide (entAmin e q ≤ (k.culvert (b - 16)).filled)
    else b == 0 || decide ((tget s.feeds (c, b) []).length ≤ 16)

/-- A clamp channel needs a group (10 R265). -/
def groupable (s : State) (c : Nat) (e : BitVec 256) : Bool := entClamp e == 1 || (clampGroup s c (entClamp e)).isSome

/-- Runnable, apart from the bound check. -/
def runnable (s : State) (c : Nat) (k : Core) (ch : Nat) : Bool :=
  let x := k.chan ch
  entV x.ent && !x.parked && (match x.box with | [] => false | m :: _ => !k.clmask.getLsbD (hdrCls m.hdr)) &&
    bindable s c k x.ent && groupable s c x.ent

/-- The heads that the bound check kills leave the mailbox of channel `ch` (20 R395), of which the list is what stands from place `i` on: what
stays, and how many were killed. A head in a poisoned line is not looked at (02 R76). -/
def pruneBox (k : Core) (ch i : Nat) : List Msg → List Msg × Nat
  | [] => ([], 0)
  | m :: l =>
    if !(k.sbLine (k.msgOff ch i)).poison && !k.clmask.getLsbD (hdrCls m.hdr) && hdrHb m.hdr && k.kills (m.pay.headD 0) then
      let r := pruneBox k ch (i + 1) l
      (r.1, r.2 + 1)
    else (m :: l, 0)

/-- The bound check of one channel: the core, and how many messages were killed. -/
def Core.pruneChan (k : Core) (ch : Nat) : Core × Nat :=
  let x := k.chan ch
  let r := pruneBox k ch 0 x.box
  if r.2 = 0 then (k, 0)
  else (k.setChan ch { x with
    box := r.1, aborts := 0, lockTick := none
    headSlot := if entMbd x.ent = 0 then 0 else (x.headSlot + r.2) % entMbd x.ent }, r.2)

/-- The bound check of a core's channels (20 R395): none in a DET launch (R398). -/
def State.prune (s : State) (c : Nat) : State :=
  match s.core? c with
  | none => s
  | some k =>
    if ((s.inst? k.inst).map (·.det)).getD false then s
    else
      let chs := (List.range 64).filter fun ch => entPrune (k.chan ch).ent && runnable s c k ch
      let r := chs.foldl (fun (a : Core × Nat) ch => let b := a.1.pruneChan ch; (b.1, a.2 + b.2)) (k, 0)
      let (p, x) := s.instCtx k.inst
      if r.2 = 0 then s else (s.setCore c r.1).onCtx p x fun y => { y with killc := y.killc + BitVec.ofNat 64 r.2 }

/-- The runnable channels of the highest PRIO present, in increasing number. -/
def topChannels (s : State) (c : Nat) (k : Core) : List Nat :=
  let rs := (List.range 64).filter (runnable s c k)
  let top := (rs.map fun ch => entPrio (k.chan ch).ent).foldl max 0
  rs.filter fun ch => entPrio (k.chan ch).ent == top

/-! ## Hosting (16 R347, R348) -/

/-- The other resident logical cores that a core's physical core hosts. -/
def siblings (s : State) (c : Nat) (k : Core) : List (Nat × Core) :=
  s.cores.filter fun p => p.1 != c && p.2.die == k.die && p.2.phys == k.phys && (p.2.resident || p.2.task.isSome)

/-- The cores that a core must be resident with: its group in a PAR launch (16 R348). -/
def parGroup (s : State) (c : Nat) (k : Core) : List (Nat × Core) :=
  match s.inst? k.inst, k.grp with
  | some n, some g => if n.prog == 1 then s.cores.filter fun p => p.2.inst == n.id && p.2.grp == some g else [(c, k)]
  | _, _ => [(c, k)]

/-- Whether two cores belong to one PAR group. -/
def Core.grouped (a b : Core) : Bool := a.inst == b.inst && a.grp.isSome && a.grp == b.grp

/-- Whether a core's PAR group is active: a task of it has started since it was switched in, and some member of it is not idle
(16 R348). DEDUCED: log 65. -/
def parActive (s : State) (c : Nat) (k : Core) : Bool :=
  match s.inst? k.inst with
  | some n => n.prog == 1 && k.parOn &&
      (parGroup s c k).any fun p => p.2.task.isSome || (List.range 64).any (runnable s p.1 p.2)
  | none => false

/-- Whether a core may be switched in now: no other logical core that its physical core hosts is in a task or in a clamp, or
belongs to another group that must stay. DEDUCED: log 65. -/
def hostFree (s : State) (c : Nat) : Bool :=
  match s.core? c with
  | none => false
  | some k => (siblings s c k).all fun p =>
      p.2.task.isNone && !followerOf s p.1 && (p.2.out || !k.out || p.2.grouped k || !parActive s p.1 p.2)

/-- A core is switched in, from its record in the image where it rests there, and what else its physical core hosts is switched out, to
its record where it has one (21 R421). The pts of the physical core goes with it (04 R113), and a PAR group of which a member leaves has
to be switched in again before it is active (16 R348). -/
def State.switchIn (s : State) (c : Nat) : State :=
  match s.core? c with
  | none => s
  | some k =>
    let gone := (siblings s c k).filter fun p => !p.2.out
    let s := (s.leaveAll gone).unstowCore c
    let s := { s with cores := s.cores.map fun p =>
        if p.1 == c then (p.1, { s.enter p.2 with out := false })
        else if gone.any fun q => q.1 == p.1 then (p.1, { p.2 with out := true, parOn := false })
        else if gone.any fun q => p.2.grouped q.2 && !q.2.grouped k then (p.1, { p.2 with parOn := false }) else p }
    gone.foldl (fun s p => s.stow (s.instCtx p.2.inst).1 (s.instCtx p.2.inst).2) s

/-- The cores that have to be switched in for a task of core `c` on the members `g` of its clamp: those, and its PAR group (16 R348). -/
def seatsFor (s : State) (c : Nat) (k : Core) (g : List Nat) : List Nat := distinct (g ++ (parGroup s c k).map (·.1))

/-- Whether some cores can all be switched in now: each is, or its physical core is free for it; no two share one; and none rests in an
image that must be waited for (04 R129). DEDUCED: log 65. -/
def canSeat (s : State) (cs : List Nat) : Bool :=
  (cs.all fun c => match s.core? c with
    | some k => !k.out || (k.resident && hostFree s c && !stowWaits s (s.instCtx k.inst).1 (s.instCtx k.inst).2)
    | none => false) && (distinct (cs.map s.pid)).length == cs.length

/-- Some cores are switched in. -/
def State.seatAll (s : State) (cs : List Nat) : State := cs.foldl State.switchIn s

/-- The start of a task makes its PAR group active (16 R348). -/
def State.markPar (s : State) (c : Nat) : State :=
  match s.core? c with
  | none => s
  | some k =>
    { s with cores := s.cores.map fun p => if p.2.grouped k then (p.1, { p.2 with parOn := true }) else p }

/-! ## The start of a task (14 R333) -/

/-- The scalar registers at a task's start; `f` gives the undefined ones. -/
def startRegs (m : Msg) (zregs : Bool) (f : Nat → Word) : Vector Word 31 :=
  Vector.ofFn fun (i : Fin 31) =>
    if i.val = 0 then m.hdr
    else if i.val ≤ hdrCnt m.hdr then m.pay.getD (i.val - 1) 0
    else if i.val ≤ 7 || zregs then 0 else f i.val

/-- The vector and mask registers of one member at a task's start. -/
def startPart (zregs : Bool) (fv : Nat → VReg) (fm : Nat → Word) : VPart where
  v := Vector.ofFn fun (i : Fin 32) => if zregs then 0 else fv i.val
  m := Vector.ofFn fun (i : Fin 8) => if zregs then 0 else fm i.val

/-- The poison mark of the line of message `i` of a mailbox. -/
def Core.markBox (k : Core) (ch i : Nat) (bad : Bool) : Core :=
  let o := k.msgOff ch i
  if (k.sbLine o).poison == bad then k else k.setSb o { k.sbLine o with poison := bad }
/-- Whether the line of a channel's head message is poisoned. -/
def Core.headPoison (k : Core) (ch : Nat) : Bool := (k.sbLine (k.msgOff ch 0)).poison

/-- StartTask (14 R333; 04 R113, R124): channel `ch` of core `c` runs its head message on `members`. Undefined registers take
free values (DESIGN CHOICE, log 3). DEDUCED: log 62. -/
def State.beginTask (s : State) (c ch : Nat) (members : List Nat) (lead : Nat) : State :=
  match s.core? c with
  | none => s
  | some k =>
    let x := k.chan ch
    match x.box with
    | [] => s
    | m :: _ =>
      let e := x.ent
      let z := entZregs e
      let n := s.freeCnt
      let ts := max (k.pts + 1) (1 + m.stamp)
      let locked := decide (8 ≤ x.aborts)
      let t : Task :=
        { ch, trig := m, pc := entEpc e, npc := entEpc e
          x := startRegs m z fun i => Config.freeWord (n + i)
          parts := members.zipIdx.map fun p =>
            startPart z (fun i => Config.freeVec (n + 32 * p.2 + i)) fun i => Config.freeWord (n + 31 + 8 * p.2 + i)
          members, lead
          fstat := { dfzo := entDfzo e, dfzi := entDfzi e, drm := (RM.ofCode (BitVec.ofNat 3 (entDrm e))).getD .rn }
          tbudget := if entBudget e = 0 then 65536 else 64 * entBudget e
          priv := entPriv e, ts, locked, q0 := m.pay, bound := m.pay.headD 0, hash := m.lin.path }
      let x' := { x with lockTick := if locked then some (x.lockTick.getD ts) else none }
      let s := { s with freeCnt := n + 31 + 40 * members.length }
      (s.setCore c { k.setChan ch x' with task := some t, clampReq := none, clampHeld := false }).markPar c

/-- The start of a task. One whose message lies in a poisoned line does not use it and traps with DATA_ERR (02 R76); where the trap's
record has to wait, so does the start. DEDUCED: log 62. -/
def State.startTask (s : State) (c ch : Nat) (members : List Nat) (lead : Nat) : State :=
  let s' := s.beginTask c ch members lead
  match s.core? c with
  | none => s
  | some k =>
    if k.headPoison ch then
      match takeTrap c { cause := .dataErr } s' with
      | .ok _ s2 => s2
      | .error _ _ => s
    else s'

/-! ## Clamp requests (10 R266) -/

/-- The requests for clamp groups: leader, group, and whether the group is held. -/
def clampReqs (s : State) : List (Nat × List Nat × Bool) :=
  s.cores.filterMap fun p => p.2.clampReq.bind fun ch =>
    (clampGroup s p.1 (entClamp (p.2.chan ch).ent)).map fun g => (p.1, g, p.2.clampHeld)

/-- Whether two groups overlap: a member of one and a member of the other run on one physical core (16 R347). -/
def shares (s : State) (a b : List Nat) : Bool := (a.map s.pid).any (b.map s.pid).contains

/-- Whether a core selects nothing because another leader's request holds its physical core. -/
def groupHolds (s : State) (c : Nat) : Bool := (clampReqs s).any fun r => r.2.2 && r.1 != c && shares s r.2.1 [c]

/-- A leader's request: it holds the group at once where no other request asks for a core of it. -/
def State.requestClamp (s : State) (c ch : Nat) : State :=
  match (s.core? c).bind fun k => clampGroup s c (entClamp (k.chan ch).ent) with
  | none => s
  | some g =>
    let free := !(clampReqs s).any fun r => shares s r.2.1 g
    s.onCore c fun k => { k with clampReq := some ch, clampHeld := free }

/-- The bench grants one of the waiting requests that contend with a leader's, by a draw of the selection stream of the
lowest of them (10 R266). One whose group shares a core with a group that is held does not contend. DEDUCED: log 63. -/
def State.grantClamp (s : State) (c : Nat) (g : List Nat) : State :=
  let held := (clampReqs s).filter fun r => r.2.2
  let rs := (clampReqs s).filter fun r => shares s r.2.1 g && !held.any fun h => shares s h.2.1 r.2.1
  if !(rs.any fun r => r.1 == c) then s
  else
    let low := (rs.map (·.1)).foldl min c
    match (s.core? low).map s.enter with
    | none => s
    | some k =>
      if rs.length ≤ 1 then s.onCore c fun k => { k with clampHeld := true }
      else
        let d := (drawD (s.seedOf k.inst) 1 k.selcnt).toNat
        let w := (rs.map (·.1)).getD (d % rs.length) c
        ((s.setCore low k).drawn low 1).onCore w fun k => { k with clampHeld := true }

/-- Whether a core is free to run a task: resident, no pre-emption pending, no task, no part in a clamp, and its physical core
can host it now. -/
def idle (s : State) (c : Nat) : Bool :=
  match s.core? c with
  | none => false
  | some k => k.resident && !k.pending && k.task.isNone && !followerOf s c && hostFree s c

/-! ## Serial re-execution (13 R320) -/

/-- Whether a re-execution is in progress in a partition. -/
def serial (s : State) (part : Nat) : Bool := s.insts.any fun n => n.part == part && n.rerun.isSome
/-- Whether a task runs in a partition. -/
def partBusy (s : State) (part : Nat) : Bool := s.cores.any fun p => p.2.task.isSome && (s.instCtx p.2.inst).1 == part

/-- CLAMP_FORM (10 R266): a waiting request is granted, or the clamp of a request that holds its group forms once every
member is idle and the leader's PAR group can be resident with them (16 R348); in a serial re-execution no second task starts in the
partition (13 R320). Whether the selected channel is still runnable is judged again, its head's bound is not (log 63). DEDUCED: logs 63, 65. -/
def execClampForm (c : Nat) (s : State) : Host.Outcome State Fault Refusal :=
  match s.core? c with
  | none => .next s
  | some k =>
    match k.clampReq with
    | none => .next s
    | some ch =>
      let w := entClamp (k.chan ch).ent
      match clampGroup s c w with
      | none => .next (s.onCore c fun k => { k with clampReq := none, clampHeld := false })
      | some g =>
        if !runnable s c k ch then .next (s.onCore c fun k => { k with clampReq := none, clampHeld := false })
        else if !k.clampHeld then .next (s.grantClamp c g)
        else if g.all (idle s) && canSeat s (seatsFor s c k g) &&
            !(serial s (s.instCtx k.inst).1 && partBusy s (s.instCtx k.inst).1) then
          .next ((s.seatAll (seatsFor s c k g)).startTask c ch g (g.findIdx (· == c)))
        else .next s

/-- Whether nothing of an instance still travels or works that could bring another message. DEDUCED: log 61. -/
def settled (s : State) (inst : Nat) : Bool :=
  !((List.range s.net.length).any fun i => match s.net[i]? with
      | some f => f.inst == inst && (canLand s i || (match f.st with | .delayed _ => true | _ => false))
      | none => false) &&
    !(s.cmds.any fun c => c.inst == inst && (match c.phase with | .parked _ => false | _ => true)) &&
    !(s.mxq.any fun c => c.inst == inst) && !(s.mxrun.any fun r => r.2.cmd.inst == inst) && !(s.ctl.any (Ctl.ofInst inst)) &&
    !(s.leaving.any fun x => x.snd.inst == inst)

/-- The place of a message in the order of 13 R320: that of its parent among the committed tasks, and its index.
DEDUCED: log 61. -/
def serialKey (n : Inst) (m : Msg) : Nat × Nat :=
  (if m.lin.root then 0
   else match n.digests.findIdx? fun d => d.path == m.lin.parent with
     | some i => i + 1
     | none => n.digests.length + 1, m.lin.index.toNat)

/-- The next message in preorder: its core, channel and place in the mailbox. DEDUCED: log 61. -/
def serialPick (s : State) (n : Inst) : Option (Nat × Nat × Nat) :=
  let all := s.cores.flatMap fun p =>
    if p.2.inst != n.id then []
    else (List.range 64).flatMap fun ch =>
      if runnable s p.1 p.2 ch then (p.2.chan ch).box.zipIdx.map fun m => (serialKey n m.1, p.1, ch, m.2) else []
  (all.foldl (fun (best : Option ((Nat × Nat) × Nat × Nat × Nat)) x => match best with
    | none => some x
    | some b => if b.1.1 < x.1.1 || (b.1.1 == x.1.1 && x.1.2 < b.1.2) then some x else some b) none).map (·.2)

/-- Message `i` of a mailbox moves to its head; the poison marks of their lines go with the messages (02 R76). -/
def Core.toHead (k : Core) (ch i : Nat) : Core :=
  let x := k.chan ch
  let mark (j : Nat) : Bool := (k.sbLine (k.msgOff ch j)).poison
  let k' := k.setChan ch { x with box := (x.box[i]?).toList ++ x.box.eraseIdx i }
  (List.range (min (i + 1) x.box.length)).foldl (fun k' j => k'.markBox ch j (mark (if j = 0 then i else j - 1))) k'

/-- The next task of a serial re-execution starts, where it is core `c`'s. -/
def State.serialSelect (s : State) (c : Nat) (n : Inst) : State :=
  if !settled s n.id then s
  else match serialPick s n with
  | none => s
  | some (c', ch, i) =>
    if c' != c then s
    else
      let s := s.onCore c fun k => k.toHead ch i
      match s.core? c with
      | none => s
      | some k =>
        let w := entClamp (k.chan ch).ent
        let g := if w = 1 then [c] else (clampGroup s c w).getD [c]
        let seats := seatsFor s c k g
        if g.all (idle s) && canSeat s seats then (s.seatAll seats).startTask c ch g (g.findIdx (· == c)) else s

/-! ## Selection and stealing -/

/-- TASK_SELECT (14 R332): an idle core with a runnable channel, and no pre-emption pending, is switched in with its PAR group (16 R347,
R348), checks its bounds, selects and starts a task, or asks for its clamp group. A leader whose request waits for its group selects nothing
until the request is granted or withdrawn. DEDUCED: log 121. -/
def execTaskSelect (c : Nat) (s : State) : Host.Outcome State Fault Refusal :=
  match s.core? c with
  | none => .next s
  | some k =>
    let part := (s.instCtx k.inst).1
    if !idle s c || k.clampReq.isSome || groupHolds s c || (serial s part && partBusy s part) then .next s
    else match (s.inst? k.inst).filter fun n => n.rerun.isSome with
    | some n => .next (s.serialSelect c n)
    | none =>
      let seats := seatsFor s c k [c]
      if (topChannels s c k).isEmpty || !canSeat s seats then .next s
      else
        let s := (s.seatAll seats).prune c
        match s.core? c with
        | none => .next s
        | some k =>
          match topChannels s c k with
          | [] => .next s
          | t0 :: ts =>
            let n := ts.length + 1
            let d := (drawD (s.seedOf k.inst) 1 k.selcnt).toNat
            let ch := if n = 1 then t0 else (t0 :: ts).getD (d % n) t0
            let s := if n = 1 then s else s.drawn c 1
            if entClamp (k.chan ch).ent = 1 then .next (s.startTask c ch [c] 0) else .next (s.requestClamp c ch)

/-- The channel from which a victim gives a message: stealable, with at least two messages, of the highest PRIO and then the
lowest number (16 R355). DEDUCED: log 64. -/
def victimChan (v : Core) : Option Nat :=
  let cs := (List.range 64).filter fun ch => entV (v.chan ch).ent && entSteal (v.chan ch).ent && decide (2 ≤ (v.chan ch).box.length)
  let top := (cs.map fun ch => entPrio (v.chan ch).ent).foldl max 0
  cs.find? fun ch => entPrio (v.chan ch).ent == top

/-- Whether a channel may steal and has room. -/
def Core.stealRoom (k : Core) (n : Nat) : Bool :=
  entV (k.chan n).ent && entSteal (k.chan n).ent && decide ((k.chan n).box.length < entMbd (k.chan n).ent)

/-- STEAL (16 R355): an idle core whose channel `ch` may steal and has room is switched in with its PAR group, draws a victim in its row,
and takes the tail of the victim's best stealable channel, unless its own CLMASK holds the message's class back (14 R330). The poison mark of its line goes with the message (02 R76).
DEDUCED: logs 61, 64. -/
def execSteal (c : Nat) (ch : BitVec 6) (s : State) : Host.Outcome State Fault Refusal :=
  match s.core? c with
  | none => .next s
  | some k =>
    if !idle s c || k.clampReq.isSome || !k.stealRoom ch.toNat || (List.range 64).any (runnable s c k) ||
        serial s (s.instCtx k.inst).1 || !canSeat s (seatsFor s c k [c]) then .next s
    else
      let s := s.seatAll (seatsFor s c k [c])
      let k := (s.core? c).getD k
      let d := (drawD (s.seedOf k.inst) 4 k.stealcnt).toNat
      let s1 := s.drawn c 4
      let lids := (List.range (((s.inst? k.inst).map (·.nvc)).getD 0)).filterMap fun l => s.coreOf k.inst l
      let vs := lids.filter fun v => v != c && match s.core? v with
        | some x => x.resident && !x.out && x.row == k.row
        | none => false
      match (if vs.length = 0 then none else vs[d % vs.length]?).bind fun v => (s.core? v).map fun x => (v, x) with
      | none => .next s1
      | some (v, x) =>
        match victimChan x with
        | none => .next s1
        | some n =>
          match (x.chan n).box.getLast? with
          | none => .next s1
          | some m =>
            if !k.stealRoom n || k.clmask.getLsbD (hdrCls m.hdr) then .next s1
            else
              let bad := (x.sbLine (x.msgOff n ((x.chan n).box.length - 1))).poison
              let s2 := s1.setCore v (x.setChan n { x.chan n with box := (x.chan n).box.dropLast })
              .next (s2.onCore c fun k => (k.accept m).markBox n (k.chan n).box.length bad)

/-- BUDGET (14 R334): the watchdog of a task whose count has reached TBUDGET. -/
def execBudget (c : Nat) (s : State) : Host.Outcome State Fault Refusal :=
  match (s.core? c).bind Core.task with
  | none => .next s
  | some t =>
    if t.committing || t.tcyc < t.tbudget then .next s
    else match takeTrap c { cause := .budget, detail := BitVec.ofNat 32 t.tbudget }
        (s.onCore c fun k => { k with task := some t.jigIssue }) with
      | .ok _ s' => .next s'
      | .error _ _ => .next s

end Sys2Proof.Machine
end

