-- ==== Sys2Proof/Machine/Events.lean ====
section
/-! DEFINITION. Events of the memory system, of other packages, of the host's accesses and of the steward: spec 95 with
02 R55, R70, 04 R114, R129 to R135, 05 R156 to R165, 21 R407, 01 R36. An event that the spec does not allow in a state
leaves it as it is. -/

namespace Sys2Proof.Machine

/-- A device operation as an event: one that meets a line which answers with retry, or a fault that belongs to a task's
own access, changes nothing now. DEDUCED: log 76. -/
def attempt (m : M Unit) (s : State) : Host.Outcome State Fault Refusal :=
  match m s with
  | .ok _ s' => .next s'
  | .error _ _ => .next s

/-! ## Leases and walks ahead of the instruction that needs them -/

/-- A line of the read set has left the core's L1 and is fetched again (04 R115): at the same wts the recorded entry takes the
new lease's end; at another the task aborts at once. -/
def refetch (t : Task) (e : ReadEnt) (c : Nat) : M Unit := do
  let (w, r) ← lease e.line t.ts c t.locked
  modify fun s => s.evictPins c e.line
  if w == e.wts then
    modify fun s => s.onCore c fun k => { k with task := k.task.map fun t =>
      { t with reads := t.reads.map fun x => if x.line == e.line then { x with r := some r } else x } }
  else modify fun s => s.abortTask c

/-- Whether a line is the next of `ls` that a core's task asks for: every line that its loads need earlier is recorded or requested (19
R385). -/
def nextAhead (s : State) (c : Nat) (t : Task) (ls : List Nat) (line : Nat) : Bool :=
  ls.contains line && (ls.takeWhile (· != line)).all fun l =>
    (t.reads.any fun e => e.line == l) || s.lineReqs.any fun r => r.core == c && r.line == l && r.ts == t.ts

/-- A line of a page in host bias is read for a load further on (04 R132). DEDUCED: log 80. -/
def readEarly (c : Nat) (t : Task) (line : Nat) : M Unit := do
  if t.early.any fun e => e.1 == line then pure ()
  else do
    let bs ← hostGet ((← get).pid c) line 64
    modify fun s => s.onCore c fun k => { k with task := k.task.map fun t => { t with early := t.early ++ [(line, bytesVec bs)] } }

/-- LEASE (04 R114, R115; 19 R385): the next line that core `c`'s task asks for is requested ahead of its load, and a home slice
or replica serves it and the task records it, or another request of that port; or a line that is recorded is fetched again; or a line
of a page in host bias is read before the loads that precede its own in the program (04 R132). The data of a replica of the core's die
that was still under way arrives first (04 R141). DEDUCED: logs 76, 80. -/
def execLease (c line : Nat) (s : State) : Host.Outcome State Fault Refusal :=
  match (s.core? c).bind Core.task with
  | none => .next s
  | some t =>
    if t.committing || line % 64 != 0 then .next s
    else
      let s := s.landReplica (s.dieOf c) line
      match t.reads.find? fun e => e.line == line with
      | some e => if e.r.isNone then .next s else attempt (refetch t e c) s
      | none =>
        let (ls, s) := t.nextLoads c s
        if (hostAhead s ls).contains line then attempt (readEarly c t line) s
        else if t.reads.length ≥ 512 || !nextAhead s c t (t.leasedBy s ls) line then .next s
        else match readEnt line 0 false { s with cur := c } with
          | .ok _ s' => .next { s' with cur := s.cur }
          | .error .queued s' => .next { s' with cur := s.cur }
          | .error _ _ => .next s

/-- WALK (02 R55 to R67): a walker walks for core `c`'s task and fills the core's caches. It gives back a walker that LOTTERY_GRANT gave
the owner on the core's die, or takes one by a slot of its own (02 R62). Where the walk is for the instruction that the task fetches next,
it sets A; any other walk runs ahead of its access, and one that fails or reaches a lead entry with A = 0 is dropped (02 R66). A walk that
faults is repeated, and its fault taken, by the access that asked for it. DEDUCED: log 76. -/
def execWalk (c : Nat) (va : VAddr) (k : AccKind) (s : State) : Host.Outcome State Fault Refusal :=
  match s.core? c with
  | none => .next s
  | some x =>
    match x.task with
    | none => .next s
    | some t =>
      let (p, y) := s.instCtx x.inst
      let mine := (x.die, (s.part p).owner)
      let needed := k == .fetch && va == t.pc && !t.committing
      let walk : M Unit := do let _ ← walkEntry (some c) p y t.priv k (k == .atomic) (!needed) va
      if s.walkers.contains mine then attempt walk { s with walkers := s.walkers.erase mine }
      else match takeWalker mine.1 mine.2 s with
        | .ok _ s => attempt walk s
        | .error _ _ => .next s

/-! ## Pins and hot lines -/

/-- PINMAX (04 R130). -/
def execPinmax (line : Nat) (s : State) : Host.Outcome State Fault Refusal :=
  match (s.line line).hold with
  | .pinned _ => if (s.line line).pinnedAt + Config.pinMax ≤ s.now then .next (s.publish line) else .next s
  | _ => .next s

/-- Whether a line may be replicated (05 R163): hot in this window, which no commit has written it in, near, far or deep, not
held, not poisoned. DESIGN CHOICE: log 8. -/
def replicable (s : State) (thr line n : Nat) : Bool :=
  decide (thr ≤ n) && !s.written.contains line && (s.line line).hold == .free && !s.poisoned line &&
    (match region s.plat line with | .near | .far | .deep => true | _ => false)

/-- The replicas of a hot line: one at a helper slice of each die that is not the line's home die, with a lease that ends at its
rts (05 R163, 24 R447). Their data is under way (04 R141). DESIGN CHOICE: log 8. -/
def newReplicas (s : State) (line : Nat) : List Replica :=
  ((List.range 4).filter fun (d : Nat) => d != homeDie s line && !s.replicas.any fun r => r.die == d && r.line == line).map fun d =>
    { die := d, line, rlim := (s.line line).rts, slice := Config.helperSlice s.plat.pkgKey line d }

/-- HOT_LINE_WINDOW (05 R163; 24 R459): at the end of a window, hot lines may be replicated and their redirect entries are
installed, the data pushed at an earlier window has arrived, the counts restart, and the loop sets its threshold and LeaseLen
within their ranges. DESIGN CHOICE: logs 5, 8. -/
def execHotLineWindow (thr len : Nat) (s : State) : Host.Outcome State Fault Refusal :=
  if s.now < s.grantStart + Config.hotWindow then .next s
  else
    let hot := s.grants.filter fun (g : Nat × Nat) => replicable s s.hotThr g.1 g.2
    let reps := hot.flatMap fun (g : Nat × Nat) => newReplicas s g.1
    let s := s.replicas.foldl (fun s r => s.landReplica r.die r.line) s
    .next { s with
      replicas := s.replicas ++ reps
      redirects := s.redirects ++ reps.map fun r => (r.die, r.line)
      grants := []
      written := []
      grantStart := s.now
      hotThr := max 16 (min 4096 thr)
      leaseLen := max 1 (min (2 ^ 20) len) }

/-- RECALL (05 R165): a replica drops its copy; one whose data is still under way will discard it (04 R141). -/
def execRecall (line die : Nat) (s : State) : Host.Outcome State Fault Refusal :=
  if s.ctl.contains (.recall line die) then
    .next { s with
      ctl := s.ctl.erase (.recall line die)
      replicas := (s.replicas.filter fun r => !(r.line == line && r.die == die && r.here)).map fun r =>
        if r.line == line && r.die == die then { r with recalled := true } else r }
  else .next s

/-! ## Other packages (04 R134, 05 R156, R157) -/

/-- Whether a peer's access is one this package performs: near or far, and populated (02 R47, R48). In recovery it answers none (24 R456).
DEDUCED: log 75. -/
def peerReach (s : State) (pa : Nat) : Bool :=
  match region s.plat pa with
  | .near | .far => true
  | _ => false

/-- A peer's access fails here: it changes nothing and the peer learns the cause (05 R156, 06 R195). -/
def State.peerFails (s : State) (pkg : Nat) (c : Cause) : State := { s with out := s.out ++ [.peerFault pkg c.code] }

/-- A peer's access at a home slice of this package: it waits out retries, and answers with `ok` or a fault. DEDUCED: log 75. -/
def peerDo {α : Type} (pkg : Nat) (m : M α) (ok : α → State → State) (s : State) : Host.Outcome State Fault Refusal :=
  match m s with
  | .ok a s' => .next (ok a s')
  | .error (.flt f) _ => .next (s.peerFails pkg f.cause)
  | .error _ _ => .next s

/-- The message that answers a remote atomic: class 4 to channel `ch` of the issuer, old value and EA (05 R157). -/
def replyMsg (core : Nat) (ch : BitVec 6) (ty : Ty) (old : Nat) (ea : Word) (stamp : Nat) : Msg :=
  { hdr := hwHeader core 2 4 ch.toNat, pay := [amoReply ty old, ea], kind := .reply, stamp }

/-- An atomic of a peer, performed in this package's order at a time no earlier than anything committed here before.
DEDUCED: log 75. -/
def atomicHere (op : AmoOp) (ty : Ty) (pa : Nat) (b c : Word) : M (Nat × Nat) := do
  let s ← get
  if pa % ty.bytes != 0 then stop .addrAlign
  if s.blocked (s.keys pa ty.bytes) none then throw .retry
  if (s.keys pa ty.bytes).any s.poisoned then stop .dataErr
  let old := leNat (mread s.mem pa ty.bytes)
  let t ← engWrite pa ((natBytes ty.bytes (amoNew op ty old b.toNat c.toNat)).map some) s.pkgTime
  return (old, t)

/-- REMOTE_ATOMIC (05 R156, R157): a peer's atomic performed here, or the answer to one of this package's. The two packages have
no common time (04 R134): the reply carries the logical time that the atomic took at the peer, as the answer brings it. A fault's record
that meets a held line waits. DEDUCED: logs 39, 78, 92. -/
def execRemoteAtomic (e : RemoteEv) (s : State) : Host.Outcome State Fault Refusal :=
  let s0 := s
  match e with
  | .perform op ty pa b c rpl pkg core ch ea =>
    if !s.plat.booted then .next s
    else if !peerReach s pa then .next (s.peerFails pkg .addrRsv)
    else peerDo pkg (atomicHere op ty pa b c)
      (fun r s => { s with out := s.out ++ [if rpl then .msg pkg (replyMsg core ch ty r.1 ea r.2) else .peerAck pkg] }) s
  | .replied k old stamp =>
    match s.remotes[k]? with
    | none => .next s
    | some r =>
      if r.held.isSome then .next s
      else
        let s := { s with remotes := s.remotes.eraseIdx k, peerPend := s.peerPend.filter fun p => p.id != r.ack }
        let s := match r.rpl with
          | some ch => s.postHw r.core 4 ch.toNat [amoReply r.ty (old.toNat % 2 ^ (8 * r.ty.bytes)), r.ea] stamp .reply
              (childLin r.who.path (spawnIndex r.who.q 0 0)) (5, r.pkg)
          | none => s
        .next s.releaseRemotes
  | .faulted k cause =>
    match s.remotes[k]? with
    | none => .next s
    | some r =>
      if r.held.isSome then .next s
      else
        let (part, ctx) := s.instCtx r.inst
        let s := { s with remotes := s.remotes.eraseIdx k, peerPend := s.peerPend.filter fun p => p.id != r.ack }
        match writeRecord part ctx { kind := 4, cause := cause.toNat, va := r.ea, who := r.who } s.pkgTime s with
        | .ok (seq, t) s' =>
          .next (s'.faultMsg r.core 4 cause.toNat seq t
            (childLin r.who.path (2 ^ 62 + (r.who.q + 1) * 2 ^ 24)) (5, r.pkg)).releaseRemotes
        | .error _ _ => .next s0

/-- PEER_COPY_ACCESS (04 R134, 02 R48): a line read or write of a peer's copy or RDB. DEDUCED: log 75. -/
def execPeerCopyAccess (p : PeerAcc) (s : State) : Host.Outcome State Fault Refusal :=
  if !s.plat.booted then .next s else
  match p with
  | .read pkg pa n =>
    if !peerReach s pa then .next (s.peerFails pkg .addrRsv)
    else if n = 0 || pa % 64 + n > 64 then .next s
    else peerDo pkg (engRead pa n s.pkgTime) (fun bs s => { s with out := s.out ++ [.peerData pkg bs] }) s
  | .write pkg pa bytes =>
    if !peerReach s pa then .next (s.peerFails pkg .addrRsv)
    else if bytes.length = 0 || pa % 64 + bytes.length > 64 then .next s
    else peerDo pkg (engWrite pa (bytes.map some) s.pkgTime) (fun _ s => { s with out := s.out ++ [.peerAck pkg] }) s

/-- PEER_WRITE_ACKNOWLEDGE (04 R135): the destination of a peer or pool write has performed it. -/
def execPeerWriteAcknowledge (n : Nat) (s : State) : Host.Outcome State Fault Refusal :=
  .next { s with
    peerPend := s.peerPend.eraseP fun p => p.id == n
    remotes := s.remotes.filter fun r => !(r.ack == n && r.rpl.isNone && r.held.isNone) }.releaseRemotes

/-! ## The host's accesses (02 R70, 04 R133) -/

/-- HOST_ACCESS (02 Table 2.9): ordered at the home slice on a page in device bias; direct in host bias. What waited for the queue entries
or the journal that it writes is tried again. -/
def execHostAccess (h : HostAcc) (s : State) : Host.Outcome State Fault Refusal :=
  match h with
  | .read pa =>
    if region s.plat pa != .host || hostDirect s pa then .next s
    else attempt (do let _ ← engRead (lineOf pa) 64 s.pkgTime) s
  | .write pa bytes =>
    if region s.plat pa != .host || bytes.length = 0 || pa % 64 + bytes.length > 64 then .next s
    else if hostDirect s pa then
      .next (State.service { (s.keepCode (lineOf pa)).cleanLine pa (bytes.map some) with mem := mwriteMask s.mem pa (bytes.map some) })
    else attempt (do
      let _ ← engWrite pa (bytes.map some) s.pkgTime
      modify State.service) s

/-- HOST_ACKNOWLEDGE (04 R133): a committed CXL write is globally visible, where it is the oldest of its core (04 R132), and what waited
for it goes on. -/
def execHostAcknowledge (n : Nat) (s : State) : Host.Outcome State Fault Refusal := .next ((s.ackHost n).releaseRemotes).service

/-! ## The steward, and a fetch that faults -/

/-- HANG (21 R407): a resident context with a runnable channel that has committed nothing for HANGT is reported. -/
def execHang (part ctx : Nat) (s : State) : Host.Outcome State Fault Refusal :=
  match s.ctx? part ctx with
  | none => .next s
  | some x =>
    let mine := s.cores.filter fun p => s.instCtx p.2.inst == (part, ctx) && p.2.resident
    if x.div == .closed && (mine.any fun p => (List.range 64).any fun ch => runnable s p.1 p.2 ch) &&
        decide (x.lastCommit + (s.part part).hangt ≤ s.now) then
      .next { s with out := s.out ++ [.note (.hang part ctx)] }
    else .next s

/-- INSTRUCTION_FETCH_FAULT (01 R36, 21 R405): the base word at `va`, where the current task is about to fetch, cannot be
fetched, and the task traps. -/
def execInstructionFetchFault (va : VAddr) (s : State) : Host.Outcome State Fault Refusal :=
  match s.task? with
  | none => .next s
  | some t =>
    let t := t.jigIssue
    if t.committing || t.pc != va then .next s
    else match fetchWord t va (s.setTask t) with
      | .error (.flt f) s' => .next ((s.setTask t).stopped s' s.cur (.flt f))
      | _ => .next s

end Sys2Proof.Machine
end

