-- ==== Sys2Proof/Machine/MatrixCmd.lean ====
section
/-! DEFINITION. Issue of matrix and ensemble commands: OP 0x24 and 0x25 (spec 11 R278 to R282, R292; 12 R300, R301). -/

namespace Sys2Proof.Machine

/-! ## The ROUTE descriptor (11 Table 11.6) -/

def rtDropMax (d : BitVec 512) : Nat := fld d 287 256
def rtStride (d : BitVec 512) : Nat := fld d 255 224
def rtCap (d : BitVec 512) : Nat := fld d 207 192
def rtNexp (d : BitVec 512) : Nat := fld d 168 160
def rtK (d : BitVec 512) : Nat := fld d 146 144 + 1
def rtT (d : BitVec 512) : Nat := fld d 143 128
def rtDropOff (d : BitVec 512) : Nat := fld d 127 96
def rtCntOff (d : BitVec 512) : Nat := fld d 95 64
def rtOutOff (d : BitVec 512) : Nat := fld d 63 32
def rtChOff (d : BitVec 512) : Nat := fld d 31 0

/-- The limits of 11 R292. -/
def routeOk (d : BitVec 512) : Bool :=
  fld d 511 288 == 0 && fld d 223 208 == 0 && fld d 191 169 == 0 && fld d 159 147 == 0 &&
  decide (1 ≤ rtT d) && decide (rtT d ≤ 16384) && decide (1 ≤ rtNexp d) && decide (rtNexp d ≤ 256) &&
  decide (1 ≤ rtCap d) && decide (rtCap d ≤ 16384) && rtStride d % 64 == 0 && decide (4 * rtCap d ≤ rtStride d) &&
  rtChOff d % 64 == 0 && rtOutOff d % 64 == 0 && rtCntOff d % 64 == 0 && rtDropOff d % 64 == 0

/-! ## Issue -/

/-- Whether the matrix unit of a core's bench is enabled (00 R3, 11 R270). -/
def hasUnit (s : State) (k : Core) : Bool := (s.plat.mxmap.getD k.die 0).getLsbD (k.bench % 72)

/-- A completion register's reserved bits (11 Table 11.5). -/
def compOk (w : Word) : Bool := fld w 31 7 == 0

/-- The checks of 11 R280 and R281, then the command is held with its credit and its message entry (R282). -/
def holdMx (ok : Bool) (c : MxCmd) (folded : List Word) : Task → M Unit := fun t => do
  let s ← get
  let k ← getCore
  need (hasUnit s k) .mxAbsent
  need (ok && compOk c.comp) .badMxcmd
  need (decide (k.mxcreds ≠ 0)) .mxqFull
  needMsg t
  modCore fun k => { k with mxcreds := k.mxcreds - 1 }
  let q ← countEff
  hold (.mx { c with inst := k.inst, core := s.cur, who := issuer k t q, n := t.sn })
  fold folded

/-- A scratchpad offset that a matrix command takes. -/
def off64 (w : Word) : Bool := w.toNat % 64 == 0

/-- MMA, MMAZ and MMAG (11 R280, R288, R289). One that rounds stochastically counts once (11 R276). DEDUCED: logs 32, 52. -/
def mmaCmd (kind : MxKind) (fn : Nat) (bs : BitVec 2) (ty : Ty) (rm : RM) (fzi fzo : Bool) (d a b c : Reg) (e : Option Reg) :
    Task → M Unit := fun t => do
  let m := (t.rx b).toNat
  let ew : Word := match e with | some r => t.rx r | none => 0
  let ok := off64 (t.rx d) && off64 (t.rx a) && off64 ew && decide (1 ≤ m) && decide (m ≤ 256)
  let folded := [cmdMark 0x24 fn bs.toNat, t.rx d, t.rx a, t.rx b, t.rx c] ++ (if e.isSome then [ew] else [])
  holdMx ok { kind, bs, ty, rm := if rm = .dflt then t.fstat.drm else rm, fzi := t.fzi fzi, fzo := fzo || t.fstat.dfzo,
              d := t.rx d, a := t.rx a, b := t.rx b, e := ew, comp := t.rx c, fn } folded t
  modTask fun t => t.count rm

def execMma (bs : BitVec 2) (ty : Ty) (rm : RM) (fzi fzo : Bool) (d a b c : Reg) :=
  runTask (mmaCmd (.mma false) 0 bs ty rm fzi fzo d a b c none)
def execMmaz (bs : BitVec 2) (ty : Ty) (rm : RM) (fzi fzo : Bool) (d a b c : Reg) :=
  runTask (mmaCmd (.mma true) 1 bs ty rm fzi fzo d a b c none)
def execMmag (bs : BitVec 2) (ty : Ty) (rm : RM) (fzi fzo : Bool) (d a b c e : Reg) :=
  runTask (mmaCmd .mmag 2 bs ty rm fzi fzo d a b c (some e))

/-- BLD (11 R290). -/
def execBld (bs : BitVec 2) (ty : Ty) (fzi : Bool) (a c : Reg) := runTask fun t =>
  holdMx (off64 (t.rx a)) { kind := .bld, bs, ty, fzi := t.fzi fzi, a := t.rx a, comp := t.rx c, fn := 3 }
    [cmdMark 0x24 3 bs.toNat, t.rx a, t.rx c] t

/-- BFREE (11 R291). -/
def execBfree (bs : BitVec 2) (c : Reg) := runTask fun t =>
  holdMx true { kind := .bfree, bs, comp := t.rx c, fn := 4 } [cmdMark 0x24 4 bs.toNat, t.rx c] t

/-- ROUTE (11 R292). DEDUCED: log 52. -/
def execRoute (b c : Reg) := runTask fun t =>
  let d := t.rv t.lead b
  holdMx (routeOk d) { kind := .route, desc := d, comp := t.rx c, fn := 5 } (cmdMark 0x24 5 0 :: vecWords d) t

/-- MLBE (12 R300 to R302). D and D1 are the tensor key, so that R280's limits on x[D] and x[B] bind neither. DEDUCED: log 52. -/
def execMlbe (bs : BitVec 2) (mean : Bool) (d a c e : Reg) := runTask fun t =>
  holdMx (off64 (t.rx a) && fld (t.rx e) 15 0 == 0)
    { kind := .mlbe mean, bs, ty := .mld, d := t.rx d, d1 := t.rx (d + 1), a := t.rx a, e := t.rx e, comp := t.rx c, fn := 0 }
    [cmdMark 0x25 0 (bs.toNat + if mean then 4 else 0), t.rx d, t.rx (d + 1), t.rx a, t.rx c, t.rx e] t

/-- NOISE (12 R300, R301, R303). `.eps` has no A operand; D and D1 are the tensor key and B is an offset, so that R280's limits on x[D]
and on the value of x[B] do not bind. DEDUCED: log 52. -/
def execNoise (v : BitVec 2) (d a b c e : Reg) (n0 : BitVec 8) (cnt : BitVec 9) := runTask fun t =>
  holdMx ((v == 0 || off64 (t.rx a)) && off64 (t.rx b) && fld (t.rx e) 15 0 == 0)
    { kind := .noise v n0.toNat cnt.toNat, ty := .mld, d := t.rx d, d1 := t.rx (d + 1), a := t.rx a, b := t.rx b, e := t.rx e,
      comp := t.rx c, fn := 1 }
    ([cmdMark 0x25 1 v.toNat, t.rx d, t.rx (d + 1)] ++ (if v = 0 then [] else [t.rx a]) ++ [t.rx b, t.rx c, t.rx e]) t

end Sys2Proof.Machine
end

