-- ==== Sys2Proof/Machine/Matrix.lean ====
section
/-! DEFINITION. The bench matrix unit and weight ensembles: MATRIX_GRANT and MATRIX_COMMAND_END (spec 11 R270 to R277, R283
to R293; 12 R296 to R303). -/

namespace Sys2Proof.Machine

/-! ## The step sum (11 R276) -/

/-- floor(P × 2^24 / 2^k). -/
def floorShift (p : Int) (k : Int) : Int := if k ≤ 24 then p * 2 ^ (24 - k).toNat else p.fdiv (2 ^ (k - 24).toNat)

/-- The step sum of an A row and a B column with its exponent: S stands for S × 2^(emax − 24). -/
def stepSum (a b : List BlockInt) : Int × Int :=
  let ex := (a.zip b).map fun p => p.1.e + p.2.e
  let emax := match ex with | [] => 0 | x :: l => l.foldl max x
  (((a.zip b).map fun (p : BlockInt × BlockInt) =>
    floorShift (((p.1.m.zip p.2.m).map fun q => q.1 * q.2).sum) (emax - (p.1.e + p.2.e))).sum, emax)

/-- StepAdd: the new C element and its flags. -/
def stepAdd (v : FEnv) (c : Nat) (a b : List BlockInt) : Nat × BitVec 5 :=
  let F := Fmt.f32
  let c := F.flush v.fzi c
  let x := F.decode c
  match F.pickNaN [x] with
  | some q => (q, sigFlag [x])
  | none =>
    if (a.any fun k => k.nan) || (b.any fun k => k.nan) then (F.dfltNaN, fNV)
    else match x with
      | .inf _ => (c, 0)
      | _ =>
        let s := stepSum a b
        if s.1 = 0 then
          if v.fzo && F.isSub c then (F.flush true c, fUF ||| fNX) else (c, 0)
        else F.sum { v with fzi := false } x (.fin (decide (s.1 < 0)) s.1.natAbs (s.2 - 24))

/-! ## Rows (11 R273 to R275) -/

/-- Bytes of a row of 256 elements (11 Table 11.2). -/
def rowBytes (ty : Ty) : Nat :=
  match ty with
  | .f16 | .bf16 => 512
  | .blk4 => 128
  | _ => 256

/-- Cuts a list into pieces of `n`. -/
def pieces {α : Type} (n : Nat) : Nat → List α → List (List α)
  | 0, _ => []
  | k + 1, l => l.take n :: pieces n k (l.drop n)

/-- The eight blocks of a row from its bytes and the sideband bytes of its blocks. -/
def rowBlocks (ty : Ty) (fzi : Bool) (bs : List Byte) (sbs : List Nat) : List BlockInt :=
  match ty with
  | .blk4 => ((pieces 16 8 bs).zip sbs).map fun p => blk4Int p.2 (blk4Codes p.1)
  | .blk8 => ((pieces 32 8 bs).zip sbs).map fun p => blk8Int p.2 (p.1.map BitVec.toNat)
  | _ =>
    let F := tyFmt ty
    let n := ty.bytes
    let xs := (pieces n 256 bs).map fun b => F.decode (F.flush fzi (leNat b))
    (pieces 32 8 xs).map fun l => toBlockInt l (8 * n)

/-- The lines that `n` bytes at an offset touch, each as offset and length within it. -/
def lineParts (off n : Nat) : List (Nat × Nat) :=
  ((List.range (n / 64 + 2)).filter fun i => decide (lineOf off + 64 * i < off + n)).map fun i =>
    let lo := max (lineOf off + 64 * i) off
    (lo, min (lineOf off + 64 * i + 64) (off + n) - lo)

/-- The command that a core's matrix unit runs. -/
def mxRunOf (core : Nat) : M MxRun := fun s =>
  .ok ((tget? s.mxrun (((s.core? core).map Core.bench).getD 0)).getD { cmd := { kind := .bfree }, last := 0 }) s
/-- A change to it. -/
def onMxRun (core : Nat) (f : MxRun → MxRun) : M Unit := modify fun s =>
  let bench := ((s.core? core).map Core.bench).getD 0
  match tget? s.mxrun bench with
  | some r => { s with mxrun := tput s.mxrun bench (f r) }
  | none => s

/-- Whether a command has written a whole line that is not in its scratchpad yet: it finds it without poison and sideband. -/
def MxRun.whole (r : MxRun) (off : Nat) : Bool := r.buf.any fun w => lineOf w.off == lineOf off && w.sb.isSome

/-- Bytes within one line of the issuing core's scratchpad, as an engine reads them (11 R274) and as the command's own writes have left
them (11 R289); a word that it has read ahead keeps the value that it had then (11 R283). -/
def mxGet (core off n : Nat) : M (List Byte) := do
  let k ← coreNow core
  let r ← mxRunOf core
  engSpad k off false
  if (k.sbLine off).poison && !r.whole off then
    throw (.flt { cause := .dataErr, va := BitVec.ofNat 64 off })
  modify fun s => s.countArrival core
  let got := r.got.map fun g => ({ core, off := g.1, bytes := g.2.map some } : Pend)
  let lay (bs : List Byte) (w : Pend) : List Byte := bs.zipIdx.map fun b =>
    if w.off ≤ off + b.2 then ((w.bytes[off + b.2 - w.off]?).getD none).getD b.1 else b.1
  return (r.buf ++ got).foldl lay (mread k.spad off n)

/-- Bytes of the issuing core's scratchpad, line by line. -/
def mxRead (core off n : Nat) : M (List Byte) := do
  let lines ← (lineParts off n).mapM fun p => mxGet core p.1 p.2
  return lines.flatten

/-- A command reads a word of a row to come before its turn, where it can (11 R283). -/
def mxAhead (core off : Nat) : M Unit := fun s =>
  match (do let bs ← mxGet core off 8; onMxRun core fun r => { r with got := r.got ++ [(off, bs)] } : M Unit) s with
  | .ok _ s' => .ok () s'
  | .error _ _ => .ok () s

/-- Words of a core's command are written; its last write is not earlier than they are (11 R284). -/
def mxFlush (core : Nat) (ws : List Pend) : M Unit := do
  let t ← flushPend ws
  onMxRun core fun r => { r with last := max r.last t }

/-- Bytes written as an engine writes them; every line is checked before the first is written. The command keeps the words, which reach
the scratchpad one by one (04 R140); what it has read ahead of them it reads again. A whole line that it writes carries no sideband:
SBV is 0 (07 R208 names no source line; DESIGN CHOICE, log 111). -/
def mxWrite (core off : Nat) (bs : List Byte) : M Unit := do
  let k ← coreNow core
  let ls := lineParts off bs.length
  ls.forM fun p => engSpad k p.1 true
  ls.forM fun p => do
    let ws := spadWords core p.1 (((bs.drop (p.1 - off)).take p.2).map some) none
    let old (w : Pend) : Bool := ws.any w.same
    mxFlush core ((← mxRunOf core).buf.filter old)
    modify fun s => s.countArrival core
    onMxRun core fun r =>
      { r with buf := (r.buf.filter fun w => !old w) ++ ws, got := r.got.filter fun g => !ws.any fun w => w.off / 8 == g.1 / 8 }

/-- SB_MISSING of a blk line without sideband, or the block's sideband bytes (11 R273). -/
def mxSideband (core off : Nat) (ty : Ty) : M (List Nat) := do
  let k ← coreNow core
  let r ← mxRunOf core
  let per := if ty = .blk4 then 4 else 2
  if ty = .blk4 || ty = .blk8 then
    let l ← (List.range (8 / per)).mapM fun i => do
      let x := k.sbLine (off + 64 * i)
      need (x.sbv && !r.whole (off + 64 * i)) .sbMissing
      return (List.range per).map fun j => fld x.sb (8 * j + 7) (8 * j)
    return l.flatten
  else return []

/-- An A row, or a source row of BLD. -/
def mxRow (core off : Nat) (ty : Ty) (fzi : Bool) : M (List BlockInt) := do
  let bs ← mxRead core off (rowBytes ty)
  let sbs ← mxSideband core off ty
  return rowBlocks ty fzi bs sbs

/-- The columns of a slot as blocks. -/
def BSlot.col (b : BSlot) (n : Nat) : List BlockInt :=
  (((b.elems.getD n []).zip (b.exps.getD n [])).zip (b.nans.getD n [])).map fun p => ⟨p.1.1, p.1.2, p.2⟩
/-- A slot with one more column. -/
def BSlot.addCol (b : BSlot) (c : List BlockInt) : BSlot :=
  { b with elems := b.elems ++ [c.map (·.m)], exps := b.exps ++ [c.map (·.e)], nans := b.nans ++ [c.map (·.nan)] }

def State.slot (s : State) (bench : Nat) (bs : BitVec 2) : BSlot := tget s.slots (bench, bs.toNat) {}
def State.setSlot (s : State) (bench : Nat) (bs : BitVec 2) (b : BSlot) : State := { s with slots := tput s.slots (bench, bs.toNat) b }

/-! ## Weight ensembles (12 R296, R297) -/

/-- The member key. -/
def memberKey (k m : Word) : Word := k ^^^ (m * 0x9E3779B97F4A7C15#64)

/-- Draw: ε as f32. -/
def drawEps (mk e : Word) : Nat :=
  let g := gGen mk e
  let s : Int := (fld g 15 0 + fld g 31 16 + fld g 47 32 + fld g 63 48 : Nat) - 131070
  match Fmt.f32.decode 0x37DDB3D7 with
  | .fin _ m x => (Fmt.f32.finish {} (decide (s < 0)) ⟨s.natAbs * m, x, false⟩).1
  | _ => 0

/-- ExpBF16 (09 R253). -/
def expBf16 (l : Nat) : Nat × BitVec 5 := Fn9.eval .exp Fmt.bf16 {} l

/-- Perturb: a bf16 weight and its flags, which are those that the steps raise (12 R299), also where a row of Table 12.2 for a NaN μ or ℓ
names fewer. DEDUCED: log 109. -/
def perturb (mu l eps : Nat) (mean : Bool) : Nat × BitVec 5 :=
  if mean then (mu, 0)
  else
    let sg := expBf16 l
    let w := Fmt.f32.fma {} false false (sg.1 * 2 ^ 16) eps (mu * 2 ^ 16)
    let r := convElem .f32 .bf16 {} (BitVec.ofNat 64 w.1)
    (r.1.toNat, sg.2 ||| w.2 ||| r.2)

/-! ## What a command does, row by row -/

/-- Whether two ranges share a byte. -/
def meets (a n b m : Nat) : Bool := decide (a < b + m) && decide (b < a + n)

/-- One row of MMA, MMAZ or MMAG (11 R288, R289); a slot with an error that its code cannot correct stops it (02 R76). Where A and C
overlap, the rows concerned take free values. DEDUCED: log 52. -/
def mmaRow (c : MxCmd) (b : BSlot) (i : Nat) : M (BitVec 5) := do
  need (!b.poison) .dataErr
  let rb := rowBytes c.ty
  let (ar, cr) ← match c.kind with
    | .mmag => do
      let e := leNat (← mxRead c.core (c.e.toNat + 4 * i) 4)
      pure (e % 2 ^ 16, e / 2 ^ 16)
    | _ => pure (i, i)
  let aOff := c.a.toNat + ar * rb
  let cOff := c.d.toNat + 1024 * cr
  let a ← mxRow c.core aOff c.ty c.fzi
  let old ← match c.kind with
    | .mma true => pure (List.replicate 256 0)
    | _ => do pure ((pieces 4 256 (← mxRead c.core cOff 1024)).map leNat)
  let md := rmMode c.rm .rn
  let res := old.zipIdx.map fun (p : Nat × Nat) =>
    let draw := if md = .st then draw24 c.who.path c.n (256 * i + p.2) else 0
    stepAdd { md, fzi := c.fzi, fzo := c.fzo, draw } p.1 a (b.col p.2)
  let m := c.b.toNat
  let clash := match c.kind with
    | .mmag => false
    | _ => meets cOff 1024 c.a.toNat (m * rb) || meets aOff rb c.d.toNat (1024 * m)
  let bytes ← if clash then freeBytes 1024 else pure (res.flatMap fun r => natBytes 4 r.1)
  mxWrite c.core cOff bytes
  return res.foldl (fun f r => f ||| r.2) 0

/-- One column of BLD (11 R290). -/
def bldRow (bench : Nat) (c : MxCmd) (n : Nat) : M (BitVec 5) := do
  let col ← mxRow c.core (c.a.toNat + n * rowBytes c.ty) c.ty c.fzi
  modify fun s => s.setSlot bench c.bs ((s.slot bench c.bs).addCol col)
  return 0

/-- One column of MLBE (12 R302). -/
def mlbeRow (bench : Nat) (c : MxCmd) (mean : Bool) (n : Nat) : M (BitVec 5) := do
  let src ← mxRead c.core (c.a.toNat + 1024 * n) 1024
  let mk := memberKey c.d c.d1
  let ws := (pieces 4 256 src).zipIdx.map fun (p : List Byte × Nat) =>
    let x := leNat p.1
    perturb (x / 2 ^ 16) (x % 2 ^ 16) (drawEps mk (c.e + BitVec.ofNat 64 (256 * n + p.2))) mean
  let col := (pieces 32 8 (ws.map fun w => Fmt.bf16.decode w.1)).map fun l => toBlockInt l 16
  modify fun s => s.setSlot bench c.bs ((s.slot bench c.bs).addCol col)
  return ws.foldl (fun f w => f ||| w.2) 0

/-- One value of NOISE (12 R303). -/
def noiseVal (v : BitVec 2) (eps x : Nat) : Nat × BitVec 5 :=
  match v.toNat with
  | 0 => (eps, 0)
  | 1 =>
    let sg := expBf16 (x % 2 ^ 16)
    let r := Fmt.f32.mul {} (sg.1 * 2 ^ 16) eps
    (r.1, sg.2 ||| r.2)
  | _ =>
    let w := perturb (x / 2 ^ 16) (x % 2 ^ 16) eps false
    (w.1 * 2 ^ 16, w.2)

/-- One column of NOISE. Where source and destination ranges overlap, the results that lie in the source range and those whose source bytes lie
in the destination range take free values. DEDUCED: log 52. -/
def noiseRow (c : MxCmd) (v : BitVec 2) (n0 cnt : Nat) (i : Nat) : M (BitVec 5) := do
  let sOff := c.a.toNat + 1024 * i
  let dOff := c.b.toNat + 1024 * i
  let src ← if v = 0 then pure (List.replicate 1024 0) else mxRead c.core sOff 1024
  let mk := memberKey c.d c.d1
  let vals := (pieces 4 256 src).zipIdx.map fun (p : List Byte × Nat) =>
    noiseVal v (drawEps mk (c.e + BitVec.ofNat 64 (256 * (n0 + i) + p.2))) (leNat p.1)
  let bytes ← (vals.zipIdx.mapM fun (p : (Nat × BitVec 5) × Nat) => do
    if v != 0 && (meets (dOff + 4 * p.2) 4 c.a.toNat (1024 * cnt) || meets (sOff + 4 * p.2) 4 c.b.toNat (1024 * cnt)) then
      freeBytes 4
    else pure (natBytes 4 p.1.1))
  mxWrite c.core dOff bytes.flatten
  return vals.foldl (fun f r => f ||| r.2) 0

/-- An output of ROUTE, with what it changes in what the command has gathered: a byte of it that lies in the choices, or that another
output has written, takes a free value. DEDUCED: log 52. -/
def routeWrite (c : MxCmd) (a : Nat) (bs : List Byte) (f : Routed → Routed) : M Unit := do
  let d := c.desc
  let r ← mxRunOf c.core
  let bytes ← bs.zipIdx.mapM fun (p : Byte × Nat) =>
    if meets (a + p.2) 1 (rtChOff d) (2 * rtT d * rtK d) || inAny (a + p.2) r.rt.outs then freeByte else pure p.1
  mxWrite c.core a bytes
  onMxRun c.core fun r => { r with rt := f { r.rt with outs := r.rt.outs ++ [(a, bs.length)] } }

/-- Choice `j` of token `t` of ROUTE: it is read after what the choices before it have written, `xs` being those (11 R293). -/
def routeChoice (c : MxCmd) (t j : Nat) (xs : List Nat) : M (List Nat) := do
  let d := c.desc
  let x := leNat (← mxRead c.core (rtChOff d + 2 * (t * rtK d + j)) 2)
  let r := (← mxRunOf c.core).rt
  if !(decide (rtNexp d ≤ x) || xs.contains x) then
    let n := r.cnt.getD x 0
    if n < rtCap d then
      routeWrite c (rtOutOff d + x * rtStride d + 4 * n) (natBytes 4 (n % 2 ^ 16 * 2 ^ 16 + t)) fun r => { r with cnt := r.cnt.set x (n + 1) }
    else if r.nd < rtDropMax d then
      routeWrite c (rtDropOff d + 4 * r.nd) (natBytes 4 (x % 256 * 2 ^ 24 + j * 2 ^ 16 + t)) fun r => { r with nd := r.nd + 1 }
    else onMxRun c.core fun r => { r with rt := { r.rt with nd := r.rt.nd + 1 } }
  return xs ++ [x]

/-- A row of ROUTE: a token, or, after the last of them, the counts (11 R293). -/
def routeRow (c : MxCmd) (t : Nat) : M (BitVec 5) := do
  let d := c.desc
  if t < rtT d then
    let _ ← (List.range (rtK d)).foldlM (fun xs j => routeChoice c t j xs) []
  else
    (List.range (rtNexp d)).forM fun x => do
      let r := (← mxRunOf c.core).rt
      routeWrite c (rtCntOff d + 2 * x) (natBytes 2 (r.cnt.getD x 0)) id
  return 0

/-! ## A command's rows -/

/-- How many rows a command works through: C rows, entries or columns; of ROUTE its tokens, and one for the counts. -/
def MxCmd.rows (c : MxCmd) : Nat :=
  match c.kind with
  | .mma _ | .mmag => c.b.toNat
  | .bld | .mlbe _ => 256
  | .noise _ _ cnt => cnt
  | .bfree => 0
  | .route => rtT c.desc + 1

/-- One row of a command, with the flags that it raises. -/
def mxRow1 (bench : Nat) (c : MxCmd) (i : Nat) : M (BitVec 5) := fun s =>
  match c.kind with
  | .mma _ | .mmag => mmaRow c (s.slot bench c.bs) i s
  | .bld => bldRow bench c i s
  | .mlbe mean => mlbeRow bench c mean i s
  | .noise v n0 cnt => noiseRow c v n0 cnt i s
  | .bfree => .ok 0 s
  | .route => routeRow c i s

/-- The scratchpad ranges that row `i` of a command reads, as far as they are known: those that an index of MMAG names, once it is read. -/
def MxRun.reads (r : MxRun) (i : Nat) : List (Nat × Nat) :=
  let c := r.cmd
  let rb := rowBytes c.ty
  match c.kind with
  | .mma zero => (c.a.toNat + i * rb, rb) :: if zero then [] else [(c.d.toNat + 1024 * i, 1024)]
  | .mmag =>
    let at' := c.e.toNat + 4 * i
    match r.got.find? fun g => g.1 == at' / 8 * 8 with
    | some g =>
      let e := leNat ((g.2.drop (at' % 8)).take 4)
      [(c.a.toNat + e % 2 ^ 16 * rb, rb), (c.d.toNat + 1024 * (e / 2 ^ 16), 1024)]
    | none => [(at', 4)]
  | .bld => [(c.a.toNat + i * rb, rb)]
  | .mlbe _ => [(c.a.toNat + 1024 * i, 1024)]
  | .noise v _ _ => if v = 0 then [] else [(c.a.toNat + 1024 * i, 1024)]
  | .route => if i < rtT c.desc then [(rtChOff c.desc + 2 * (i * rtK c.desc), 2 * rtK c.desc)] else []
  | .bfree => []

/-- The words of row `i` of a command that it has not read. -/
def MxRun.words (r : MxRun) (i : Nat) : List Nat :=
  (distinct ((r.reads i).flatMap fun p => (List.range ((p.1 + p.2 + 7) / 8 - p.1 / 8)).map fun i => (p.1 / 8 + i) * 8)).filter fun a =>
    !r.got.any fun g => g.1 == a

/-! ## Grant and end (11 R271, R284 to R286) -/

/-- The owner of a command: that of its context's partition. -/
def MxCmd.owner (s : State) (c : MxCmd) : Nat := (s.part (s.instCtx c.inst).1).owner

/-- Whether a command may start: its context is resident and nothing of it is pending (11 R294). DEDUCED: log 53. -/
def MxCmd.free (s : State) (c : MxCmd) : Bool :=
  match s.core? c.core with
  | some k =>
    let (p, x) := s.instCtx c.inst
    !k.pending && (((s.ctx? p x).map (·.div)).getD .closed) == .closed
  | none => false

/-- The queue heads of a bench: position and command. A command of an image that is resumed onto a bench whose unit is harvested runs
there (11 R270 stops new commands, 21 R419 names slots alone; DEDUCED, log 113). -/
def mxHeads (s : State) (bench : Nat) : List (Nat × MxCmd) :=
  (List.range 8).filterMap fun p =>
    ((s.mxq.filter fun c => match s.core? c.core with
      | some k => k.bench == bench && k.phys % 8 == p
      | none => false).head?).bind fun c => if c.free s then some (p, c) else none

/-- The command leaves its queue. -/
def dequeue (s : State) (c : MxCmd) : State :=
  let i := (s.mxq.findIdx? (· == c)).getD s.mxq.length
  { s with mxq := s.mxq.eraseIdx i }

/-- A command starts and holds the unit (11 Table 11.1): it takes its slot, or stops where the slot is not the context's to use. -/
def mxStart (bench : Nat) (c : MxCmd) (t0 : Nat) (s : State) : State :=
  let (part, ctx) := s.instCtx c.inst
  let b := s.slot bench c.bs
  let r : MxRun := { cmd := c, last := t0, rt := { cnt := List.replicate (rtNexp c.desc) 0 }, done := c.rows == 0 }
  let run (s : State) (r : MxRun) : State := { s with mxrun := tput s.mxrun bench r }
  match c.kind with
  | .mma _ | .mmag =>
    if b.st != .ready || b.part != part || b.ctx != ctx then run s { r with done := true, cause := Cause.slotEmpty.code }
    else run (s.setSlot bench c.bs { b with readers := b.readers + 1 }) r
  | .bld | .mlbe _ => run (s.setSlot bench c.bs { st := .loading, part, ctx }) r
  | .bfree => run (if b.st = .ready && b.part != part then s else s.setSlot bench c.bs {}) r
  | .noise .. | .route => run s r

/-- A command works on its next row; one that stops there writes no further row (11 R285). A row whose scratchpad is being streamed
waits. -/
def mxWork (bench : Nat) (r : MxRun) (s : State) : State :=
  let put (s : State) (f : MxRun → MxRun) : State :=
    match tget? s.mxrun bench with
    | some r => { s with mxrun := tput s.mxrun bench (f r) }
    | none => s
  let seen := r.reads r.row
  match mxRow1 bench r.cmd r.row s with
  | .ok fl s' => put s' fun r =>
    { r with flags := r.flags ||| fl, row := r.row + 1, got := r.got.filter fun g => !seen.any fun p => meets g.1 8 p.1 p.2
             done := decide (r.cmd.rows ≤ r.row + 1) }
  | .error (.flt e) s' => put s' fun r => { r with done := true, cause := e.cause.code, detailVA := e.va, got := [] }
  | .error _ _ => s

/-- One of the words that a command has still to write reaches the scratchpad, whichever (04 R140). -/
def mxWord (bench : Nat) (r : MxRun) : M Unit := do
  let i ← pick r.buf.length
  match r.buf[i]? with
  | none => return
  | some w =>
    let _ ← coreNow w.core
    let t ← flushPend [w]
    modify fun s => { s with mxrun := tput s.mxrun bench { r with buf := r.buf.eraseIdx i, last := max r.last t } }

/-- One of the words that a command has still to read is read, of whichever row (11 R283). -/
def mxPeek (r : MxRun) : M Unit := do
  let row := r.row + (← pick (r.cmd.rows - r.row))
  let ws := if (r.words row).isEmpty then r.words r.row else r.words row
  mxAhead r.cmd.core (ws.getD (← pick ws.length) 0)

/-- What a running command does next: a word of a row to come is read, whichever, its next row is worked, or a word of a row before is
written; which of them is open (11 R283; 04 R140). DEDUCED: log 51. -/
def mxStep (bench : Nat) (r : MxRun) (s : State) : State :=
  match pick 3 s with
  | .error _ _ => s
  | .ok n s =>
    let word (s : State) : State := orWait (mxWord bench r) (fun _ s => s) (fun _ => s) s
    if r.done then word s
    else if n = 2 && !r.buf.isEmpty then word s
    else if n = 1 && !(r.words r.row).isEmpty then orWait (mxPeek r) (fun _ s => s) (fun _ => s) s
    else mxWork bench r s

/-- MATRIX_GRANT (11 R286): a slot of the bench's lottery among the positions with a queue; the granted head starts and
holds the unit. While a command holds it, it goes on. DEDUCED: log 51. -/
def execMatrixGrant (bench : Nat) (s : State) : Host.Outcome State Fault Refusal :=
  match tget? s.mxrun bench with
  | some r => .next (mxStep bench r s)
  | none =>
    let hs := mxHeads s bench
    match hs.head? with
    | none => .next (s.idleSlot 0x30 bench)
    | some h =>
      match s.lottery 0x30 bench (some (h.2.owner s)) (hs.map (·.1)) with
      | none => .next s
      | some (g, s1) =>
        match hs.find? fun x => x.1 == g with
        | none => .next s1
        | some (_, c) =>
          .next (mxStart bench c (max (c.ct + 1) (s1.pkgTime + 1)) (dequeue s1 c))

/-- The slot of a command that ends (11 Table 11.1). -/
def endSlot (bench : Nat) (r : MxRun) (s : State) : State :=
  let b := s.slot bench r.cmd.bs
  match r.cmd.kind with
  | .bld | .mlbe _ => s.setSlot bench r.cmd.bs (if r.cause = 0 then { b with st := .ready } else {})
  | .mma _ | .mmag =>
    if b.st = .ready && r.cause != Cause.slotEmpty.code then s.setSlot bench r.cmd.bs { b with readers := b.readers - 1 } else s
  | _ => s

/-- The word 2 of a completion message (11 R284). The drop count of a ROUTE that stops is that of its tokens so far, which R284 does not
say. DEDUCED: log 52. -/
def MxRun.word (r : MxRun) : Word :=
  BitVec.ofNat 64 (r.flags.toNat + r.cause * 2 ^ 16 + r.rt.nd % 2 ^ 32 * 2 ^ 32)

/-- MATRIX_COMMAND_END (11 R284, R285) of a command that has worked its rows: its last words, then the fault record and message of a
stop, the completion message and the credit. A record that meets a held line waits (04 R129), and so do words for a scratchpad that is
being streamed and a credit for a core record that cannot be written. A suspension that waited for it goes on (11 R294). A ROUTE that stops at its counts reports row T (DEDUCED: log 52).
DEDUCED: log 51. -/
def execMatrixCommandEnd (bench : Nat) (s : State) : Host.Outcome State Fault Refusal :=
  match tget? s.mxrun bench with
  | none => .next s
  | some r =>
    let c := r.cmd
    let route := (s.core? c.core).map (routeOf s)
    if !r.done || recordWaits s c.core || (!r.buf.isEmpty && (route == some .hold || route == some .wait)) then .next s
    else match flushPend r.buf { s with mxrun := tdel s.mxrun bench } with
    | .error _ _ => .next s
    | .ok t s0 =>
      let last := max r.last t
      let s1 := endSlot bench r s0
      let (p, x) := s.instCtx c.inst
      let done (s2 : State) : State :=
        ((if c.comp.getLsbD 6 then
          s2.postHw c.core 6 (fld c.comp 5 0) [BitVec.ofNat 64 (fld c.comp 63 32), r.word] last .completion
            (childLin c.who.path (spawnIndex c.who.q 0 0)) (3, bench)
        else s2).arrive c.core fun k s => s.setCore c.core { k with mxcreds := min 8 (k.mxcreds + 1) }).suspendDone p x
      if r.cause = 0 then .next (done s1)
      else match writeRecord p x
          { kind := 3, cause := r.cause, detail := BitVec.ofNat 64 r.row, va := r.detailVA, tag := BitVec.ofNat 64 c.fn, who := c.who }
          last s1 with
        | .ok (seq, ct) s' =>
          .next (done (s'.faultMsg c.core 3 r.cause seq ct (childLin c.who.path (2 ^ 62 + (c.who.q + 1) * 2 ^ 24)) (3, bench)))
        | .error _ _ => .next s

end Sys2Proof.Machine
end

