-- ==== Sys2Proof/Machine/System.lean ====
section
/-! DEFINITION. OP 0x2A: TRAP, SYSC, the special registers, TLBINV, HALT and FLTPOP (spec 21 R428 to R433, Tables 21.12 and
21.13; 07 R210; 09 R239, R240; 14 R339; 16 R349; 18 R368; 20 R403). -/

namespace Sys2Proof.Machine

/-- TRAP (21 R429). -/
def execTrap (a : Reg) := runTask fun t => stop .swtrap ((t.rx a).setWidth 32)

/-- SYSC (21 R429): a send to channel 63 of its own core, with a header that hardware builds. DEDUCED: log 46. -/
def execSysc (a b : Reg) := runTask fun t => do
  let k ← getCore
  let h := hwHeader k.lid 3 6 63 t.ch
  let pay := [t.rx a, t.rx b, BitVec.ofNat 64 t.ch]
  holdSend h pay 0 none noJref false t
  fold (sendMark h :: pay)

/-! ## Special registers (21 Table 21.12) -/

/-- WRS (21 R430): FSTAT at once; CFLAGS and TTBASE at commit. -/
def execWrs (a : Reg) (num : BitVec 12) := runTask fun t => do
  let v := t.rx a
  if num == 0x020#12 then modTask fun t => { t with fstat := t.fstat.put v }
  else do
    need t.priv .priv
    if num == 0x021#12 then hold (.cflags v) else hold (.ttbase (BitVec.ofNat 64 (fld v 51 13 * 2 ^ 13)))

/-- TLBINV (21 R431). -/
def execTlbinv (a : Reg) := runTask fun t => do
  need t.priv .priv
  hold (.tlbinv ((t.rx a).setWidth 56))
def execTlbinvCtx := runTask fun t => do
  need t.priv .priv
  hold .tlbinvCtx

/-- HALT (21 R432). -/
def holdHalt (var : BitVec 2) (a b : Reg) : Task → M Unit := fun t => do
  need t.priv .priv
  need (fld (t.rx a) 6 0 == 0) .addrAlign
  let q ← countEff
  hold (.halt var (t.rx a) ((t.rx b).setWidth 6) q)

def execHaltSusp (a b : Reg) := runTask (holdHalt 0 a b)
def execHaltHalt (a b : Reg) := runTask (holdHalt 1 a b)
def execHaltRes (a b : Reg) := runTask (holdHalt 2 a b)

/-- FLTPOP (21 R433): the oldest record that neither HEAD nor this task's earlier FLTPOPs have passed. -/
def execFltpop (d : Reg) := runTask fun t => do
  need t.priv .priv
  let i ← getInst
  let s ← get
  match s.ctx? i.part i.ctx with
  | none => modTask fun t => t.wx d 0
  | some x =>
    let n := max x.fqhead t.fltat
    if n < x.fqtail then
      modTask fun t => { t.wx d (x.fqbase + BitVec.ofNat 64 (64 * (n % 2 ^ x.fqlog))) with fltpops := t.fltpops + 1, fltat := n + 1 }
    else modTask fun t => t.wx d 0

end Sys2Proof.Machine
end

