-- ==== Sys2Proof/Machine/Dispatch.lean ====
section
/-! DEFINITION. One arm per instruction and event of spec/opcode_table.json. -/

namespace Sys2Proof.Machine

def exec (i : Instr) (s : State) : Host.Outcome State Fault Refusal :=
  match i with
  | .add d a b => Sys2Proof.Machine.execAdd d a b s
  | .addw d a b => Sys2Proof.Machine.execAddw d a b s
  | .sub d a b => Sys2Proof.Machine.execSub d a b s
  | .subw d a b => Sys2Proof.Machine.execSubw d a b s
  | .and d a b => Sys2Proof.Machine.execAnd d a b s
  | .or d a b => Sys2Proof.Machine.execOr d a b s
  | .xor d a b => Sys2Proof.Machine.execXor d a b s
  | .andn d a b => Sys2Proof.Machine.execAndn d a b s
  | .orn d a b => Sys2Proof.Machine.execOrn d a b s
  | .xnor d a b => Sys2Proof.Machine.execXnor d a b s
  | .min d a b => Sys2Proof.Machine.execMin d a b s
  | .max d a b => Sys2Proof.Machine.execMax d a b s
  | .minn d a b => Sys2Proof.Machine.execMinn d a b s
  | .maxn d a b => Sys2Proof.Machine.execMaxn d a b s
  | .slt d a b => Sys2Proof.Machine.execSlt d a b s
  | .sltn d a b => Sys2Proof.Machine.execSltn d a b s
  | .seq d a b => Sys2Proof.Machine.execSeq d a b s
  | .sne d a b => Sys2Proof.Machine.execSne d a b s
  | .sel d a b c => Sys2Proof.Machine.execSel d a b c s
  | .addco d a b => Sys2Proof.Machine.execAddco d a b s
  | .mul d a b => Sys2Proof.Machine.execMul d a b s
  | .mulw d a b => Sys2Proof.Machine.execMulw d a b s
  | .mulh d a b => Sys2Proof.Machine.execMulh d a b s
  | .mulhn d a b => Sys2Proof.Machine.execMulhn d a b s
  | .mulhsn d a b => Sys2Proof.Machine.execMulhsn d a b s
  | .div d a b => Sys2Proof.Machine.execDiv d a b s
  | .divw d a b => Sys2Proof.Machine.execDivw d a b s
  | .divn d a b => Sys2Proof.Machine.execDivn d a b s
  | .divnw d a b => Sys2Proof.Machine.execDivnw d a b s
  | .rem d a b => Sys2Proof.Machine.execRem d a b s
  | .remw d a b => Sys2Proof.Machine.execRemw d a b s
  | .remn d a b => Sys2Proof.Machine.execRemn d a b s
  | .remnw d a b => Sys2Proof.Machine.execRemnw d a b s
  | .madd d a b c => Sys2Proof.Machine.execMadd d a b c s
  | .sll d a b imm => Sys2Proof.Machine.execSll d a b imm s
  | .sllw d a b imm => Sys2Proof.Machine.execSllw d a b imm s
  | .srl d a b imm => Sys2Proof.Machine.execSrl d a b imm s
  | .srlw d a b imm => Sys2Proof.Machine.execSrlw d a b imm s
  | .sra d a b imm => Sys2Proof.Machine.execSra d a b imm s
  | .sraw d a b imm => Sys2Proof.Machine.execSraw d a b imm s
  | .rol d a b imm => Sys2Proof.Machine.execRol d a b imm s
  | .ror d a b imm => Sys2Proof.Machine.execRor d a b imm s
  | .clz d a => Sys2Proof.Machine.execClz d a s
  | .ctz d a => Sys2Proof.Machine.execCtz d a s
  | .popc d a => Sys2Proof.Machine.execPopc d a s
  | .brev d a => Sys2Proof.Machine.execBrev d a s
  | .bswap d a => Sys2Proof.Machine.execBswap d a s
  | .bfx d a b c io iw => Sys2Proof.Machine.execBfx d a b c io iw s
  | .bfxn d a b c io iw => Sys2Proof.Machine.execBfxn d a b c io iw s
  | .bfi d a b c io iw => Sys2Proof.Machine.execBfi d a b c io iw s
  | .addi d a imm => Sys2Proof.Machine.execAddi d a imm s
  | .andi d a imm => Sys2Proof.Machine.execAndi d a imm s
  | .ori d a imm => Sys2Proof.Machine.execOri d a imm s
  | .xori d a imm => Sys2Proof.Machine.execXori d a imm s
  | .li d imm => Sys2Proof.Machine.execLi d imm s
  | .pcadd d imm => Sys2Proof.Machine.execPcadd d imm s
  | .beq a b off => Sys2Proof.Machine.execBeq a b off s
  | .bne a b off => Sys2Proof.Machine.execBne a b off s
  | .blt a b off => Sys2Proof.Machine.execBlt a b off s
  | .bge a b off => Sys2Proof.Machine.execBge a b off s
  | .bltn a b off => Sys2Proof.Machine.execBltn a b off s
  | .bgen a b off => Sys2Proof.Machine.execBgen a b off s
  | .br off => Sys2Proof.Machine.execBr off s
  | .call off => Sys2Proof.Machine.execCall off s
  | .jr a => Sys2Proof.Machine.execJr a s
  | .jalr d a => Sys2Proof.Machine.execJalr d a s
  | .loop a off => Sys2Proof.Machine.execLoop a off s
  | .illop w => Sys2Proof.Machine.execIllop w s
  | .fadd vec sc ty f d a b => Sys2Proof.Machine.execFadd vec sc ty f d a b s
  | .fsub vec sc ty f d a b => Sys2Proof.Machine.execFsub vec sc ty f d a b s
  | .fmul vec sc ty f d a b => Sys2Proof.Machine.execFmul vec sc ty f d a b s
  | .fdiv vec sc ty f d a b => Sys2Proof.Machine.execFdiv vec sc ty f d a b s
  | .fsqrt vec ty f d a => Sys2Proof.Machine.execFsqrt vec ty f d a s
  | .fma vec sc ty f d a b c => Sys2Proof.Machine.execFma vec sc ty f d a b c s
  | .fms vec sc ty f d a b c => Sys2Proof.Machine.execFms vec sc ty f d a b c s
  | .fnma vec sc ty f d a b c => Sys2Proof.Machine.execFnma vec sc ty f d a b c s
  | .fnms vec sc ty f d a b c => Sys2Proof.Machine.execFnms vec sc ty f d a b c s
  | .fmin vec sc ty fzi mask d a b => Sys2Proof.Machine.execFmin vec sc ty fzi mask d a b s
  | .fmax vec sc ty fzi mask d a b => Sys2Proof.Machine.execFmax vec sc ty fzi mask d a b s
  | .fabs vec ty fzi mask d a => Sys2Proof.Machine.execFabs vec ty fzi mask d a s
  | .fneg vec ty fzi mask d a => Sys2Proof.Machine.execFneg vec ty fzi mask d a s
  | .fsgnj vec sc ty fzi mask d a b => Sys2Proof.Machine.execFsgnj vec sc ty fzi mask d a b s
  | .vadd sc ty mask d a b => Sys2Proof.Machine.execVadd sc ty mask d a b s
  | .vsub sc ty mask d a b => Sys2Proof.Machine.execVsub sc ty mask d a b s
  | .vadds sc ty mask d a b => Sys2Proof.Machine.execVadds sc ty mask d a b s
  | .vsubs sc ty mask d a b => Sys2Proof.Machine.execVsubs sc ty mask d a b s
  | .vmul sc ty mask d a b => Sys2Proof.Machine.execVmul sc ty mask d a b s
  | .vmulh sc ty mask d a b => Sys2Proof.Machine.execVmulh sc ty mask d a b s
  | .vmadd sc ty mask d a b c => Sys2Proof.Machine.execVmadd sc ty mask d a b c s
  | .vmin sc ty mask d a b => Sys2Proof.Machine.execVmin sc ty mask d a b s
  | .vmax sc ty mask d a b => Sys2Proof.Machine.execVmax sc ty mask d a b s
  | .vabs ty mask d a => Sys2Proof.Machine.execVabs ty mask d a s
  | .vand sc ty mask d a b => Sys2Proof.Machine.execVand sc ty mask d a b s
  | .vor sc ty mask d a b => Sys2Proof.Machine.execVor sc ty mask d a b s
  | .vxor sc ty mask d a b => Sys2Proof.Machine.execVxor sc ty mask d a b s
  | .vandn sc ty mask d a b => Sys2Proof.Machine.execVandn sc ty mask d a b s
  | .vsll sc ty mask d a b => Sys2Proof.Machine.execVsll sc ty mask d a b s
  | .vsrl sc ty mask d a b => Sys2Proof.Machine.execVsrl sc ty mask d a b s
  | .vsra sc ty mask d a b => Sys2Proof.Machine.execVsra sc ty mask d a b s
  | .fcmp vec cond ty fzi mask d a b => Sys2Proof.Machine.execFcmp vec cond ty fzi mask d a b s
  | .icmp cond ty mask d a b => Sys2Proof.Machine.execIcmp cond ty mask d a b s
  | .mand d a b => Sys2Proof.Machine.execMand d a b s
  | .mor d a b => Sys2Proof.Machine.execMor d a b s
  | .mxor d a b => Sys2Proof.Machine.execMxor d a b s
  | .mandn d a b => Sys2Proof.Machine.execMandn d a b s
  | .mnot d a => Sys2Proof.Machine.execMnot d a s
  | .mset d a => Sys2Proof.Machine.execMset d a s
  | .mget d a => Sys2Proof.Machine.execMget d a s
  | .mpopc d a => Sys2Proof.Machine.execMpopc d a s
  | .mfirst d a => Sys2Proof.Machine.execMfirst d a s
  | .vbcast ty mask d a => Sys2Proof.Machine.execVbcast ty mask d a s
  | .vext ty d a b => Sys2Proof.Machine.execVext ty d a b s
  | .vins ty d a b => Sys2Proof.Machine.execVins ty d a b s
  | .vperm ty mask d a b c => Sys2Proof.Machine.execVperm ty mask d a b c s
  | .vmov ty mask d a => Sys2Proof.Machine.execVmov ty mask d a s
  | .vradd ty f d a => Sys2Proof.Machine.execVradd ty f d a s
  | .vrmin ty fzi mask d a => Sys2Proof.Machine.execVrmin ty fzi mask d a s
  | .vrmax ty fzi mask d a => Sys2Proof.Machine.execVrmax ty fzi mask d a s
  | .fexp vec ty f d a => Sys2Proof.Machine.execFexp vec ty f d a s
  | .fexp2 vec ty f d a => Sys2Proof.Machine.execFexp2 vec ty f d a s
  | .flog vec ty f d a => Sys2Proof.Machine.execFlog vec ty f d a s
  | .flog2 vec ty f d a => Sys2Proof.Machine.execFlog2 vec ty f d a s
  | .frcp vec ty f d a => Sys2Proof.Machine.execFrcp vec ty f d a s
  | .frsq vec ty f d a => Sys2Proof.Machine.execFrsq vec ty f d a s
  | .fsin vec ty f d a => Sys2Proof.Machine.execFsin vec ty f d a s
  | .fcos vec ty f d a => Sys2Proof.Machine.execFcos vec ty f d a s
  | .ftanh vec ty f d a => Sys2Proof.Machine.execFtanh vec ty f d a s
  | .fsigm vec ty f d a => Sys2Proof.Machine.execFsigm vec ty f d a s
  | .ferf vec ty f d a => Sys2Proof.Machine.execFerf vec ty f d a s
  | .cvt vec src dst part f d a => Sys2Proof.Machine.execCvt vec src dst part f d a s
  | .cvts vec src dst part mask d a => Sys2Proof.Machine.execCvts vec src dst part mask d a s
  | .cvtb src dst part mode rm fzi d a c => Sys2Proof.Machine.execCvtb src dst part mode rm fzi d a c s
  | .cvfb src dst part rm fzo d a c => Sys2Proof.Machine.execCvfb src dst part rm fzo d a c s
  | .ldl w d m => Sys2Proof.Machine.execLdl w d m s
  | .ldlz w d m => Sys2Proof.Machine.execLdlz w d m s
  | .vldl ty mask d m => Sys2Proof.Machine.execVldl ty mask d m s
  | .stl w d m => Sys2Proof.Machine.execStl w d m s
  | .vstl ty mask d m => Sys2Proof.Machine.execVstl ty mask d m s
  | .ldsb d m => Sys2Proof.Machine.execLdsb d m s
  | .stsb d m => Sys2Proof.Machine.execStsb d m s
  | .spill d => Sys2Proof.Machine.execSpill d s
  | .spillv d => Sys2Proof.Machine.execSpillv d s
  | .fill d => Sys2Proof.Machine.execFill d s
  | .fillv d => Sys2Proof.Machine.execFillv d s
  | .qpop d a => Sys2Proof.Machine.execQpop d a s
  | .qpush a b => Sys2Proof.Machine.execQpush a b s
  | .qcnt d a => Sys2Proof.Machine.execQcnt d a s
  | .qpeek d a => Sys2Proof.Machine.execQpeek d a s
  | .ld w acq d m => Sys2Proof.Machine.execLd w acq d m s
  | .ldz w acq d m => Sys2Proof.Machine.execLdz w acq d m s
  | .vld ty acq mask d m => Sys2Proof.Machine.execVld ty acq mask d m s
  | .ldv d c m => Sys2Proof.Machine.execLdv d c m s
  | .pref l1 m => Sys2Proof.Machine.execPref l1 m s
  | .st w rel d m => Sys2Proof.Machine.execSt w rel d m s
  | .vst ty rel mask d m => Sys2Proof.Machine.execVst ty rel mask d m s
  | .amoadd ty rpl rn ar d a b imm => Sys2Proof.Machine.execAmoadd ty rpl rn ar d a b imm s
  | .amoand ty rpl ar d a b imm => Sys2Proof.Machine.execAmoand ty rpl ar d a b imm s
  | .amoor ty rpl ar d a b imm => Sys2Proof.Machine.execAmoor ty rpl ar d a b imm s
  | .amoxor ty rpl ar d a b imm => Sys2Proof.Machine.execAmoxor ty rpl ar d a b imm s
  | .amomin ty rpl ar d a b imm => Sys2Proof.Machine.execAmomin ty rpl ar d a b imm s
  | .amomax ty rpl ar d a b imm => Sys2Proof.Machine.execAmomax ty rpl ar d a b imm s
  | .amoswp ty rpl ar d a b imm => Sys2Proof.Machine.execAmoswp ty rpl ar d a b imm s
  | .amocas ty rpl ar d a b c imm => Sys2Proof.Machine.execAmocas ty rpl ar d a b c imm s
  | .cstore4 sel d a b c imm => Sys2Proof.Machine.execCstore4 sel d a b c imm s
  | .fence ar => Sys2Proof.Machine.execFence ar s
  | .publ a imm => Sys2Proof.Machine.execPubl a imm s
  | .copy ar b => Sys2Proof.Machine.execCopy ar b s
  | .copyGath ar b => Sys2Proof.Machine.execCopyGath ar b s
  | .copyScat ar b => Sys2Proof.Machine.execCopyScat ar b s
  | .redc op ty rm fzi fzo ar b => Sys2Proof.Machine.execRedc op ty rm fzi fzo ar b s
  | .rdb ar d a b c imm => Sys2Proof.Machine.execRdb ar d a b c imm s
  | .cres a => Sys2Proof.Machine.execCres a s
  | .cdrop a => Sys2Proof.Machine.execCdrop a s
  | .mon d a b imm => Sys2Proof.Machine.execMon d a b imm s
  | .monx d => Sys2Proof.Machine.execMonx d s
  | .cvrel a b => Sys2Proof.Machine.execCvrel a b s
  | .cvstat d a => Sys2Proof.Machine.execCvstat d a s
  | .mma bs ty rm fzi fzo d a b c => Sys2Proof.Machine.execMma bs ty rm fzi fzo d a b c s
  | .mmaz bs ty rm fzi fzo d a b c => Sys2Proof.Machine.execMmaz bs ty rm fzi fzo d a b c s
  | .mmag bs ty rm fzi fzo d a b c e => Sys2Proof.Machine.execMmag bs ty rm fzi fzo d a b c e s
  | .bld bs ty fzi a c => Sys2Proof.Machine.execBld bs ty fzi a c s
  | .bfree bs c => Sys2Proof.Machine.execBfree bs c s
  | .route b c => Sys2Proof.Machine.execRoute b c s
  | .mlbe bs mean d a c e => Sys2Proof.Machine.execMlbe bs mean d a c e s
  | .noise v d a b c e n0 cnt => Sys2Proof.Machine.execNoise v d a b c e n0 cnt s
  | .endt => Sys2Proof.Machine.execEndt s
  | .dgrd d => Sys2Proof.Machine.execDgrd d s
  | .dgmix a => Sys2Proof.Machine.execDgmix a s
  | .slstat d => Sys2Proof.Machine.execSlstat d s
  | .send rel a b => Sys2Proof.Machine.execSend rel a b s
  | .sendd rel a b c => Sys2Proof.Machine.execSendd rel a b c s
  | .sendv rel a b => Sys2Proof.Machine.execSendv rel a b s
  | .reply rel a b => Sys2Proof.Machine.execReply rel a b s
  | .maskc a => Sys2Proof.Machine.execMaskc a s
  | .unmaskc a => Sys2Proof.Machine.execUnmaskc a s
  | .park a => Sys2Proof.Machine.execPark a s
  | .unpark a => Sys2Proof.Machine.execUnpark a s
  | .unparkDrop a => Sys2Proof.Machine.execUnparkDrop a s
  | .htset a b => Sys2Proof.Machine.execHtset a b s
  | .fork rel a b c => Sys2Proof.Machine.execFork rel a b c s
  | .join d a b c => Sys2Proof.Machine.execJoin d a b c s
  | .jret a => Sys2Proof.Machine.execJret a s
  | .barinit a b c => Sys2Proof.Machine.execBarinit a b c s
  | .bara a b => Sys2Proof.Machine.execBara a b s
  | .bard a => Sys2Proof.Machine.execBard a s
  | .stage a => Sys2Proof.Machine.execStage a s
  | .launch a b => Sys2Proof.Machine.execLaunch a b s
  | .draw d a b => Sys2Proof.Machine.execDraw d a b s
  | .reseed => Sys2Proof.Machine.execReseed s
  | .excq d a b => Sys2Proof.Machine.execExcq d a b s
  | .excqp d a b => Sys2Proof.Machine.execExcqp d a b s
  | .wset a => Sys2Proof.Machine.execWset a s
  | .incumbMin a b => Sys2Proof.Machine.execIncumbMin a b s
  | .incumbMax a b => Sys2Proof.Machine.execIncumbMax a b s
  | .rdinc d => Sys2Proof.Machine.execRdinc d s
  | .rdincPay d => Sys2Proof.Machine.execRdincPay d s
  | .rdincSt d => Sys2Proof.Machine.execRdincSt d s
  | .killpt => Sys2Proof.Machine.execKillpt s
  | .bound a => Sys2Proof.Machine.execBound a s
  | .trap a => Sys2Proof.Machine.execTrap a s
  | .sysc a b => Sys2Proof.Machine.execSysc a b s
  | .rds d num => Sys2Proof.Machine.execRds d num s
  | .wrs a num => Sys2Proof.Machine.execWrs a num s
  | .tlbinv a => Sys2Proof.Machine.execTlbinv a s
  | .tlbinvCtx => Sys2Proof.Machine.execTlbinvCtx s
  | .haltSusp a b => Sys2Proof.Machine.execHaltSusp a b s
  | .haltHalt a b => Sys2Proof.Machine.execHaltHalt a b s
  | .haltRes a b => Sys2Proof.Machine.execHaltRes a b s
  | .fltpop d => Sys2Proof.Machine.execFltpop d s
  | .jig a bodym1 jstep wbase wsize ast => Sys2Proof.Machine.execJig a bodym1 jstep wbase wsize ast s
  | .unclamp => Sys2Proof.Machine.execUnclamp s
  | .clw d => Sys2Proof.Machine.execClw d s
  | .commit c => Sys2Proof.Machine.execCommit c s
  | .lease c line => Sys2Proof.Machine.execLease c line s
  | .walk c va k => Sys2Proof.Machine.execWalk c va k s
  | .l2Fill slice line owner => Sys2Proof.Machine.execL2Fill slice line owner s
  | .lotteryGrant cls idx want => Sys2Proof.Machine.execLotteryGrant cls idx want s
  | .pinmax line => Sys2Proof.Machine.execPinmax line s
  | .hotLineWindow thr len => Sys2Proof.Machine.execHotLineWindow thr len s
  | .recall line die => Sys2Proof.Machine.execRecall line die s
  | .remoteAtomic e => Sys2Proof.Machine.execRemoteAtomic e s
  | .hostAccess h => Sys2Proof.Machine.execHostAccess h s
  | .biasSwitch page => Sys2Proof.Machine.execBiasSwitch page s
  | .biasTimeout page => Sys2Proof.Machine.execBiasTimeout page s
  | .flitReplay line attempts => Sys2Proof.Machine.execFlitReplay line attempts s
  | .engineCommandStart id => Sys2Proof.Machine.execEngineCommandStart id s
  | .culvertReserve id => Sys2Proof.Machine.execCulvertReserve id s
  | .feedConsume id => Sys2Proof.Machine.execFeedConsume id s
  | .engineCompletion id => Sys2Proof.Machine.execEngineCompletion id s
  | .culvertPush c n => Sys2Proof.Machine.execCulvertPush c n s
  | .heldMessageAccept c => Sys2Proof.Machine.execHeldMessageAccept c s
  | .monitorResend k => Sys2Proof.Machine.execMonitorResend k s
  | .matrixGrant bench => Sys2Proof.Machine.execMatrixGrant bench s
  | .matrixCommandEnd bench => Sys2Proof.Machine.execMatrixCommandEnd bench s
  | .messageDelivery e => Sys2Proof.Machine.execMessageDelivery e s
  | .senddDelay c k => Sys2Proof.Machine.execSenddDelay c k s
  | .taskSelect c => Sys2Proof.Machine.execTaskSelect c s
  | .clampForm c => Sys2Proof.Machine.execClampForm c s
  | .budget c => Sys2Proof.Machine.execBudget c s
  | .steal c ch => Sys2Proof.Machine.execSteal c ch s
  | .joinArrive k => Sys2Proof.Machine.execJoinArrive k s
  | .barrierArrival e => Sys2Proof.Machine.execBarrierArrival e s
  | .incumbentOffer k => Sys2Proof.Machine.execIncumbentOffer k s
  | .incumbentUpdate e => Sys2Proof.Machine.execIncumbentUpdate e s
  | .launchSubmission e => Sys2Proof.Machine.execLaunchSubmission e s
  | .instanceEnd id => Sys2Proof.Machine.execInstanceEnd id s
  | .coreSuspend c => Sys2Proof.Machine.execCoreSuspend c s
  | .saveRowStreamed part ctx row => Sys2Proof.Machine.execSaveRowStreamed part ctx row s
  | .divertedArrival k => Sys2Proof.Machine.execDivertedArrival k s
  | .restoreRowLoaded part ctx row => Sys2Proof.Machine.execRestoreRowLoaded part ctx row s
  | .hang part ctx => Sys2Proof.Machine.execHang part ctx s
  | .launchCommand fn seq => Sys2Proof.Machine.execLaunchCommand fn seq s
  | .suspend fn seq => Sys2Proof.Machine.execSuspend fn seq s
  | .haltCommand fn seq => Sys2Proof.Machine.execHaltCommand fn seq s
  | .resume fn seq => Sys2Proof.Machine.execResume fn seq s
  | .bias fn seq => Sys2Proof.Machine.execBias fn seq s
  | .reset fn seq => Sys2Proof.Machine.execReset fn seq s
  | .ckpt fn seq => Sys2Proof.Machine.execCkpt fn seq s
  | .fenceCommand fn seq => Sys2Proof.Machine.execFenceCommand fn seq s
  | .ctxnew fn seq => Sys2Proof.Machine.execCtxnew fn seq s
  | .ctxdel fn seq => Sys2Proof.Machine.execCtxdel fn seq s
  | .mapinv fn seq => Sys2Proof.Machine.execMapinv fn seq s
  | .group fn seq => Sys2Proof.Machine.execGroup fn seq s
  | .tailWrite fn v => Sys2Proof.Machine.execTailWrite fn v s
  | .lotteryConfigWrite cls idx w => Sys2Proof.Machine.execLotteryConfigWrite cls idx w s
  | .seedWrite owner seed => Sys2Proof.Machine.execSeedWrite owner seed s
  | .partitionMapWrite part idx e => Sys2Proof.Machine.execPartitionMapWrite part idx e s
  | .formatWindowWrite tier w e => Sys2Proof.Machine.execFormatWindowWrite tier w e s
  | .diversionEntryWrite part ctx e => Sys2Proof.Machine.execDiversionEntryWrite part ctx e s
  | .configRegisterWrite off v => Sys2Proof.Machine.execConfigRegisterWrite off v s
  | .powerLimit watts => Sys2Proof.Machine.execPowerLimit watts s
  | .thermalLimit hot => Sys2Proof.Machine.execThermalLimit hot s
  | .spdmRequest fn idx => Sys2Proof.Machine.execSpdmRequest fn idx s
  | .deviceReset fwOk => Sys2Proof.Machine.execDeviceReset fwOk s
  | .instructionFetchFault va => Sys2Proof.Machine.execInstructionFetchFault va s
  | .hostAcknowledge n => Sys2Proof.Machine.execHostAcknowledge n s
  | .peerCopyAccess p => Sys2Proof.Machine.execPeerCopyAccess p s
  | .peerWriteAcknowledge n => Sys2Proof.Machine.execPeerWriteAcknowledge n s
  | .globalPersistentFlush ok => Sys2Proof.Machine.execGlobalPersistentFlush ok s
  | .voltageLoop cycles => Sys2Proof.Machine.execVoltageLoop cycles s
  | .equalisationLoop lane => Sys2Proof.Machine.execEqualisationLoop lane s

end Sys2Proof.Machine
end

