-- ==== Sys2Proof/Machine/Run.lean ====
section
/-! DEFINITION. Which agent moves next, and one instruction of a core's task: fetch, jig, execution, budget (spec 01 R34 to
R37; 04 R129; 10 R263; 13 R311; 14 R334; logs 2 and 4). -/

namespace Sys2Proof.Machine

/-! ## One instruction of the current core's task -/

/-- The current task as it executes a fetched instruction: base word, next address, its first fetch noted. DEDUCED: log 77. -/
def Task.ready (t : Task) (f : Fetched) : Task := { t with ir := f.w, npc := t.following f.len, fetched := true }

/-- The machine as it executes an instruction that the current task fetched from state `s`, which left `s'`. -/
def State.ready (s' : State) (t : Task) (f : Fetched) : State := s'.setTask (t.ready f)

/-- Fetch and execution of the current task's next instruction (01 R34). A fetch that meets a held line runs again; one that
faults traps at the base word. DEDUCED: log 56. -/
def fetchAndRun (t : Task) (s : State) : Host.Outcome State Fault Refusal :=
  let t := t.jigIssue
  match fetchInstr t t.pc (s.setTask t) with
  | .ok f s' => exec (t.issued f.i) (s'.ready t f)
  | .error .retry _ => .next (s.setTask { s.task?.getD t with fetched := true })
  | .error e s' => .next ((s.setTask t).stopped s' s.cur e)

/-- Core `c` moves: its waiting commit is tried (13 R311), its budget runs out (14 R334), or its task executes its next
instruction. A core without a task does nothing. -/
def runCore (c : Nat) (s : State) : Host.Outcome State Fault Refusal :=
  let s := { s with cur := c }
  match s.task? with
  | none => .next s
  | some t =>
    if t.committing then execCommit c s
    else if t.tbudget ≤ t.tcyc then execBudget c s
    else fetchAndRun t s

/-! ## The order that an empty agenda leaves (DESIGN CHOICE, log 2) -/

/-- Whether a core's task can move now. -/
def movable (s : State) (c : Nat) (k : Core) : Bool :=
  match k.task with
  | none => false
  | some t => !(t.committing && commitWaits s c t)

/-- The cores whose tasks can move. -/
def movers (s : State) : List Nat := (s.cores.filter fun p => movable s p.1 p.2).map (·.1)

/-- The least of some numbers. -/
def least : List Nat → Option Nat
  | [] => none
  | a :: l => some (l.foldl min a)

/-- The core that has its turn next in this round: the least from `cur` on whose task can move. -/
def turn (s : State) : Option Nat := least ((movers s).filter fun c => decide (s.cur ≤ c))

/-- What an event does. -/
abbrev Move := State → Host.Outcome State Fault Refusal

/-- A command that the host has placed starts by the event of its opcode (24 Table 24.5). -/
def HCmd.event (c : HCmd) : List Move :=
  if c.st != .accepted then [] else
  match c.opc with
  | 0x01 => [execLaunchCommand c.fn c.seq]
  | 0x02 => [execSuspend c.fn c.seq]
  | 0x03 => [execHaltCommand c.fn c.seq]
  | 0x04 => [execResume c.fn c.seq]
  | 0x05 => [execBias c.fn c.seq]
  | 0x06 => [execReset c.fn c.seq]
  | 0x07 => [execCkpt c.fn c.seq]
  | 0x08 => [execFenceCommand c.fn c.seq]
  | 0x09 => [execCtxnew c.fn c.seq]
  | 0x0A => [execCtxdel c.fn c.seq]
  | 0x0B => [execMapinv c.fn c.seq]
  | 0x0C => [execGroup c.fn c.seq]
  | _ => []

/-- An item of the control network is delivered by the event of its kind (14 Table 14.3). -/
def Ctl.event (k : Nat) : Ctl → Move
  | .join .. => execJoinArrive k
  | .arrive .. => execBarrierArrival (.item k)
  | .offer .. => execIncumbentOffer k
  | .update .. => execIncumbentUpdate (.item k)
  | .recall line die => execRecall line die

/-- Rows of a context that are still to be saved or loaded, and what is left once they are; a context without cores has no row, and any
number serves; requests that wait for a diverted context are taken again. -/
def Ctx.rowEvents (s : State) (x : Ctx) : List Move :=
  let rows := match ctxRows s x.part x.ctx with | [] => [0] | l => l
  match x.div with
  | .saving => rows.map fun r => execSaveRowStreamed x.part x.ctx r
  | .merging => rows.map fun r => execRestoreRowLoaded x.part x.ctx r
  | .diverted => if s.reqs.any fun r => r.part == x.part && r.ctx == x.ctx then [execRestoreRowLoaded x.part x.ctx 0] else []
  | .closed => []

/-- The events that could move something, in the order in which an empty agenda tries them. DESIGN CHOICE: log 2. -/
def candidates (s : State) : List Move :=
  s.hcmds.flatMap HCmd.event ++
  s.cores.map (fun p => execCommit p.1) ++
  (List.range s.subs.length).map (fun k => execLaunchSubmission { sub := k }) ++
  s.cores.map (fun p => execCoreSuspend p.1) ++
  s.ctxs.flatMap (Ctx.rowEvents s) ++
  (List.range s.net.length).flatMap (fun k => [execMessageDelivery (.flight k), execMonitorResend k]) ++
  s.cores.flatMap (fun p => [execSenddDelay p.1 0, execHeldMessageAccept p.1]) ++
  s.ctl.zipIdx.map (fun p => p.1.event p.2) ++
  s.pushes.map (fun p => execCulvertPush p.1.1 p.1.2.1) ++
  s.cmds.flatMap (fun c => [execEngineCommandStart c.id, execCulvertReserve c.id, execFeedConsume c.id, execEngineCompletion c.id]) ++
  (distinct (s.cmds.map (·.row))).map (fun r => execLotteryGrant 0x14 r 0) ++
  (distinct (s.lineReqs.map (·.slice))).map (fun r => execLotteryGrant 0x11 r 0) ++
  s.mxrun.map (fun r => execMatrixCommandEnd r.1) ++
  (distinct (s.mxq.filterMap fun c => (s.core? c.core).map Core.bench)).map execMatrixGrant ++
  s.cores.flatMap (fun p => [execClampForm p.1, execTaskSelect p.1]) ++
  s.insts.map (fun n => execInstanceEnd n.id) ++
  s.flips.map (fun f => execBiasSwitch f.1.2) ++
  s.hostPend.map (fun w => execHostAcknowledge w.id) ++
  [fun s => .next s.service]

/-- What the first event of a list that changes anything leaves. -/
def moves (s : State) : List Move → Option State
  | [] => none
  | e :: l => match e s with
    | .next s' => if s' = s then moves s l else some s'
    | _ => moves s l

/-- A pinned line whose PINMAX has passed (04 R130). -/
def duePin (s : State) : Option Nat :=
  (s.lines.find? fun p => (match p.2.hold with | .pinned _ => true | _ => false) &&
    decide (p.2.pinnedAt + Config.pinMax ≤ s.now)).map (·.1)

/-- One move with an empty agenda: in rounds, the next instruction of each core's task in turn; at the end
of a round an event of the device, where one can move something, and a cycle passes. DESIGN CHOICE: logs 2, 4. -/
def defaultStep (s : State) : Host.Outcome State Fault Refusal :=
  match turn s with
  | some c =>
    match runCore c s with
    | .next s' => .next { s' with cur := c + 1 }
    | r => r
  | none => .next { ((moves s (candidates s)).getD s).passTime 1 with cur := 0 }

/-- What the schedule asks for next (DESIGN CHOICE, log 2). -/
def act (a : Action) (s : State) : Host.Outcome State Fault Refusal :=
  match a with
  | .core c => runCore c s
  | .event i => exec i s

/-- The cycles that pass before an action of the agenda: an instruction takes at least one, as 1 + its stalls cy pass for each (14 R334). -/
def Action.cycles (a : Action) (w : Nat) : Nat :=
  match a with
  | .core _ => max 1 w
  | .event _ => w

/-- One step: a pinned line whose PINMAX has passed is published before anything else moves (04 R130); then the head of the
agenda after its cycles have passed, or the default order. DESIGN CHOICE: logs 2, 4. -/
def stepOnce (s : State) : Host.Outcome State Fault Refusal :=
  match duePin s with
  | some l => execPinmax l s
  | none =>
    match s.agenda with
    | (w, a) :: l => act a ({ s with agenda := l }.passTime (a.cycles w))
    | [] => defaultStep s

/-! ## An instruction placed where the next step fetches it -/

/-- The virtual and physical address of the code that `placed` places, and the page table that maps it: entry 0 points to the
table itself at three levels, and entry 1 is the leaf of the page (02 R52, R55). -/
def placedPC : Nat := 0x10000
def placedTable : Nat := 0x2000

/-- The bytes of the table's two entries: V and table at itself; then V, RD, W, X, U, A, D and a 64 KiB page. -/
def placedEntries : List Byte :=
  natBytes 8 (1 + 2 + placedTable) ++ natBytes 8 (1 + 4 + 8 + 16 + 32 + 64 + 128 + placedPC)

/-- The trigger of the placed task: a message without payload. -/
def placedMsg (inst : Nat) : Msg := { inst, stamp := 0, lin := { root := true } }

/-- The privileged task at the placed code. DESIGN CHOICE: log 11. -/
def placedTask (core inst : Nat) : Task where
  ch := 0
  trig := placedMsg inst
  pc := BitVec.ofNat 56 placedPC
  npc := BitVec.ofNat 56 placedPC
  x := Vector.replicate 31 0
  parts := [{ v := Vector.replicate 32 0, m := Vector.replicate 8 0 }]
  members := [core]
  tbudget := 65536
  priv := true
  ts := 1
  q0 := []

/-- The core that runs the placed task. DESIGN CHOICE: log 11. -/
def placedCore (core inst : Nat) : Core where
  inst := inst
  chans := [(0, { ent := 1 ||| (1 <<< 8) ||| (1 <<< 9) ||| (1 <<< 12) ||| (8 <<< 227), box := [placedMsg inst] })]
  task := some (placedTask core inst)

/-- A state that holds an instruction's words at the program counter of a task that moves next: what a launch and a selected
message leave (14 R333, 16 R345; DESIGN CHOICE, log 11), in partition 0 and context 0. -/
def State.placed (s : State) (bytes : List Byte) : State :=
  let c := s.coreNext
  let i := s.instNext
  let mem := mwrite (mwrite s.mem placedTable placedEntries) placedPC bytes
  { s with
    mem
    lines := tdel (tdel s.lines placedTable) placedPC
    windows := []
    tlbs := []
    parts := tput s.parts 0 { s.part 0 with
      pmap := [(0, { v := true, rd := true, w := true, x := true, dt := false, gbase := 0, hbase := 0, limit := 0x40000000, dtbase := 0 })] }
    ctxs := { part := 0, ctx := 0, ttbase := BitVec.ofNat 64 placedTable } :: s.ctxs.filter fun x => !(x.part == 0 && x.ctx == 0)
    insts := s.insts ++ [{ id := i }]
    cores := s.cores ++ [(c, placedCore c i)]
    coreNext := c + 1
    instNext := i + 1
    cur := c
    agenda := (1, .core c) :: s.agenda }

end Sys2Proof.Machine
end

