-- ==== Sys2Proof/Machine/Step.lean ====
section
/-! DEFINITION. The step of the machine, and the placing of an instruction where it fetches next. -/

namespace Sys2Proof.Machine

/-- One step (DESIGN CHOICE, log 2). -/
def step (s : State) : Host.Outcome State Fault Refusal := stepOnce s

/-- The state with an instruction stored where the next step fetches: the table's words, and zeros up to the longest
instruction (DESIGN CHOICE, log 11). -/
def State.withFetchWord (s : State) (nbits w : Nat) : State := s.placed (natBytes 20 (w % 2 ^ nbits))

end Sys2Proof.Machine
end

