-- ==== Sys2Proof/Safety.lean ====
section
/-! DEFINITION. What a safe run is, and the form that every step keeps: the terms in which claims about the machine are
stated. -/

namespace Sys2Proof.Machine

/-- The canonical form of a core's own memories: its scratchpad, and what its spills hold beyond the carve-out. -/
def Core.wf (k : Core) : Prop := Memory.wf k.spad = true ∧ Memory.wf k.ovf = true

/-- The canonical form of every sparse memory of the package: physical memory, each core's memories, and those that an instance
keeps for its serial re-execution (DESIGN CHOICE, log 1). -/
def State.wf (s : State) : Prop :=
  Memory.wf s.mem = true ∧ (∀ p ∈ s.cores, p.2.wf) ∧ ∀ n ∈ s.insts, ∀ p ∈ n.start, p.2.wf

/-- `s'` is reached from `s` in some number of steps. -/
inductive Reaches : State → State → Prop where
  | refl (s : State) : Reaches s s
  | step {s s' s'' : State} : Reaches s s' → step s' = .next s'' → Reaches s s''

/-- A state from which no run ends: every state reached has a next one. -/
def State.safe (s : State) : Prop := ∀ s', Reaches s s' → ∃ s'', step s' = .next s''

/-- `s'` is `s` but for the task of the current core. -/
def State.sameButTask (s s' : State) : Prop :=
  s' = { s with cores := s'.cores } ∧ (∀ c, c ≠ s.cur → s'.core? c = s.core? c) ∧
    ∃ k, s.core? s.cur = some k ∧ s'.core? s.cur = some { k with task := s'.task? }

/-- An instruction answers the next state, in which the current task is `t'` and nothing else has changed. -/
def becomes (i : Instr) (s : State) (t' : Task) : Prop :=
  ∃ s', exec i s = .next s' ∧ s'.task? = some t' ∧ s.sameButTask s'

/-- An instruction writes `v` to x[d] of the current task `t`, where d is not x31, and goes on to the next address; nothing
else changes. -/
def writesX (i : Instr) (s : State) (t : Task) (d : Reg) (v : Word) : Prop :=
  ∃ t', becomes i s t' ∧ t' = { t with x := t'.x, pc := t.npc } ∧ ∀ r, t'.rx r = if r = d ∧ d ≠ 31 then v else t.rx r

/-- An instruction traps the current task with a fault, before it changed anything (21 R406). -/
def traps (i : Instr) (s : State) (f : Flt) : Prop := exec i s = .next (s.stopped s s.cur (.flt f))

/-- Flag `b` of the task after an instruction: set before, or raised by a lane that takes part (09 R239). -/
def flagAfter (t : Task) (w : Nat) (mask : SReg) (f : Nat → Nat → BitVec 5) (b : Nat) : Bool :=
  t.fstat.flags.getLsbD b || (List.range t.width).any fun k => (List.range (512 / w)).any fun i =>
    t.on mask k i && (f k i).getLsbD b

/-- An instruction writes lane `i` of v[d] of every member `k` with the low `w` bits of `f k i`, raises its flags, and counts
`n` roundings; a lane that is off keeps its value and raises nothing; nothing else changes (09 R237 to R239, R259). -/
def writesLanes (i : Instr) (s : State) (t : Task) (w : Nat) (mask : SReg) (d : Reg) (f : Nat → Nat → Word × BitVec 5)
    (n : Nat) : Prop :=
  ∃ t', becomes i s t' ∧
    t' = { t with parts := t'.parts, fstat := { t.fstat with flags := t'.fstat.flags }, sn := t.sn + n, pc := t.npc } ∧
    t'.width = t.width ∧ (∀ k r, t'.rm k r = t.rm k r) ∧ (∀ k r, r ≠ d → t'.rv k r = t.rv k r) ∧
    (∀ k j, k < t.width → j < 512 / w → lane w (t'.rv k d) j =
      if t.on mask k j then ((f k j).1.setWidth w).setWidth 64 else lane w (t.rv k d) j) ∧
    ∀ b, b < 5 → t'.fstat.flags.getLsbD b = flagAfter t w mask (fun k j => (f k j).2) b

/-- An instruction writes `v` to x[d], raises flags and counts `n` roundings; nothing else changes. -/
def writesFloat (i : Instr) (s : State) (t : Task) (d : Reg) (v : Word) (flags : BitVec 5) (n : Nat) : Prop :=
  ∃ t', becomes i s t' ∧
    t' = { t with x := t'.x, fstat := { t.fstat with flags := t.fstat.flags ||| flags }, sn := t.sn + n, pc := t.npc } ∧
    ∀ r, t'.rx r = if r = d ∧ d ≠ 31 then v else t.rx r

/-- A floating instruction by its operation on bit patterns: every lane of every member where it is a vector one, else one
scalar result, zero above the lane (09 R237, R241). -/
def writesFloats (i : Instr) (s : State) (t : Task) (vec sc : Bool) (ty : Ty) (f : FMod) (d a b c : Reg)
    (op : FEnv → Nat → Nat → Nat → Nat × BitVec 5) (n : Nat) : Prop :=
  let w := tyBits ty
  if vec then
    writesLanes i s t w f.mask d (fun k j => fres (op (t.env f (512 / w * k + j)) (lane w (t.rv k a) j).toNat
      (t.bLane sc w b k j).toNat (lane w (t.rv k c) j).toNat)) n
  else
    let r := op (t.env f 0) (t.rx a).toNat (t.rx b).toNat (t.rx c).toNat
    writesFloat i s t d (BitVec.ofNat 64 r.1) r.2 n

/-- An instruction writes bit `j` of m[d] of every member `k` with `f k j`, where lane `j` takes part; a lane that is off
keeps its bit, and bits at and above the lane count are 0; nothing else changes but flags (09 R249, R259). -/
def writesMask (i : Instr) (s : State) (t : Task) (w : Nat) (mask : SReg) (d : SReg) (f : Nat → Nat → Bool × BitVec 5) : Prop :=
  ∃ t', becomes i s t' ∧
    t' = { t with parts := t'.parts, fstat := { t.fstat with flags := t'.fstat.flags }, pc := t.npc } ∧
    t'.width = t.width ∧ (∀ k r, t'.rv k r = t.rv k r) ∧ (∀ k r, r ≠ d → t'.rm k r = t.rm k r) ∧
    (∀ k j, k < t.width → j < 64 → (t'.rm k d).getLsbD j =
      if 512 / w ≤ j then false else if t.on mask k j then (f k j).1 else (t.rm k d).getLsbD j) ∧
    ∀ b, b < 5 → t'.fstat.flags.getLsbD b = flagAfter t w mask (fun k j => (f k j).2) b

/-- The exact value of a finite number. -/
def Num.val : Num → ℚ
  | .fin neg m e => (if neg then -1 else 1) * m * 2 ^ e
  | _ => 0

/-- Bits of a format that hold a finite number. -/
def Fmt.finite (F : Fmt) (b : Nat) : Bool := decide (b < 2 ^ F.w) && (match F.decode b with | .fin .. => true | _ => false)

/-- The value of a bit pattern. -/
def Fmt.val (F : Fmt) (b : Nat) : ℚ := (F.decode b).val

/-- A rounded bit pattern is the value of the grid that 03 Table 3.5 gives for an exact value `x`: `x` itself where the format
holds it, else a neighbour of it, on the side or at the distance that the mode asks for. -/
def Fmt.roundsTo (F : Fmt) (md : Mode) (x : ℚ) (r : Nat) : Prop :=
  F.finite r = true ∧
    (∀ b, F.finite b = true → F.val b = x → F.val r = x) ∧
    (∀ b, F.finite b = true → ¬ (F.val r < F.val b ∧ F.val b < x) ∧ ¬ (x < F.val b ∧ F.val b < F.val r)) ∧
    (match md with
      | .ne => ∀ b, F.finite b = true → |F.val r - x| < |F.val b - x| ∨ F.val b = F.val r ∨
          (|F.val r - x| = |F.val b - x| ∧ r % 2 = 0)
      | .na => ∀ b, F.finite b = true → |F.val r - x| < |F.val b - x| ∨ F.val b = F.val r ∨
          (|F.val r - x| = |F.val b - x| ∧ |x| < |F.val r|)
      | .tz => |F.val r| ≤ |x|
      | .up => x ≤ F.val r
      | .dn => F.val r ≤ x
      | _ => True)

/-- A result of an exact value `x` that overflows to the side of `neg` where it overflows: the value that the mode asks for, with NX where
it is not `x`; beyond the format an infinity or the largest finite value, with OF and NX (03 R89, R92, Table 3.5). -/
def Fmt.rightly (F : Fmt) (md : Mode) (neg : Bool) (x : ℚ) (r : Nat × BitVec 5) : Prop :=
  (r.2.getLsbD 2 = false → F.roundsTo md x r.1 ∧ (r.2.getLsbD 0 = true ↔ F.val r.1 ≠ x)) ∧
  (r.2.getLsbD 2 = true → (∀ b, F.finite b = true → |F.val b| < |x|) ∧ r.2 = 5 ∧
    r.1 = (if neg then 2 ^ (F.w - 1) else 0) +
      (if md = .tz ∨ (md = .up ∧ neg = true) ∨ (md = .dn ∧ neg = false) then F.infBits - 1 else F.infBits))

/-- DET of the launch that the current core runs for (13 R315). -/
def State.det (s : State) : Bool := (((s.core? s.cur).bind fun k => s.inst? k.inst).map (·.det)).getD false

/-- A task after an instruction that joins effects to its sluice, takes `n` effect numbers (16 R350) and folds words into the
digest of a DET task (13 R315), and goes on to the next address. -/
def Task.issuing (t : Task) (det : Bool) (es : List Eff) (n : Nat) (ws : List Word) : Task :=
  { t with
    sluice := t.sluice ++ es, qn := t.qn + n, hash := if det then ws.foldl gGen t.hash else t.hash,
    nw := if det then t.nw + ws.length else t.nw, pc := t.npc }

/-- An instruction holds effects, and changes nothing but its own task. -/
def issues (i : Instr) (s : State) (t : Task) (es : List Eff) (n : Nat) (ws : List Word) : Prop :=
  exec i s = .next (s.setTask (t.issuing s.det es n ws))

/-- The current task runs on its own core alone, not clamped (10 R265). -/
def Task.alone (t : Task) (c : Nat) : Prop := t.members = [c] ∧ t.lead = 0 ∧ t.width = 1

/-- A region table entry opens an offset to a local access of `n` bytes (07 R203). -/
def localOpen (g : BitVec 64) (frame off n : Nat) (store : Bool) : Prop :=
  (regKind g = 1 ∨ regKind g = 2) ∧ (if store then regLw g else regLr g) = true ∧ (regKind g = 1 → off + n ≤ regBase g + frame)

/-- The machine with the core that runs now replaced. -/
def State.withCore (s : State) (k : Core) : State := s.setCore s.cur k

/-- The traps that the message at the head of a channel's mailbox has taken (16 R350). -/
def Chan.headTraps (x : Chan) : Nat := ((x.box.head?).map (·.traps)).getD 0

/-- A trapped task's core (21 R406 steps 2 and 3): the task is discarded as an abort discards it, its channel is parked, the
abort count resets, and the message stays at the head of its mailbox, with its trap counted. -/
def State.parkTrapped (s : State) (c : Nat) (t : Task) : State :=
  (s.discardTask c).onCore c fun k =>
    k.setChan t.ch { k.chan t.ch with
      parked := true, aborts := 0, lockTick := none, box := (k.chan t.ch).box.modify 0 fun m => { m with traps := m.traps + 1 } }

end Sys2Proof.Machine

/-! ## Processor instructions and the rest of spec 95's rows -/

/-- The events of the device, the host's commands, and the events of configuration and platform (95): no task runs them. -/
def Sys2Proof.Instr.isEvent : Sys2Proof.Instr → Bool
  | .commit _ | .lease _ _ | .walk _ _ _ | .l2Fill _ _ _ | .lotteryGrant _ _ _ | .pinmax _ | .hotLineWindow _ _ | .recall _ _
  | .remoteAtomic _ | .hostAccess _ | .biasSwitch _ | .biasTimeout _ | .flitReplay _ _ | .engineCommandStart _
  | .culvertReserve _ | .feedConsume _ | .engineCompletion _ | .culvertPush _ _ | .heldMessageAccept _ | .monitorResend _
  | .matrixGrant _ | .matrixCommandEnd _ | .messageDelivery _ | .senddDelay _ _ | .taskSelect _ | .clampForm _ | .budget _
  | .steal _ _ | .joinArrive _ | .barrierArrival _ | .incumbentOffer _ | .incumbentUpdate _ | .launchSubmission _
  | .instanceEnd _ | .coreSuspend _ | .saveRowStreamed _ _ _ | .divertedArrival _ | .restoreRowLoaded _ _ _ | .hang _ _
  | .launchCommand _ _ | .suspend _ _ | .haltCommand _ _ | .resume _ _ | .bias _ _ | .reset _ _ | .ckpt _ _ | .fenceCommand _ _
  | .ctxnew _ _ | .ctxdel _ _ | .mapinv _ _ | .group _ _ | .tailWrite _ _ | .lotteryConfigWrite _ _ _ | .seedWrite _ _
  | .partitionMapWrite _ _ _ | .formatWindowWrite _ _ _ | .diversionEntryWrite _ _ _ | .configRegisterWrite _ _ | .powerLimit _
  | .thermalLimit _ | .spdmRequest _ _ | .deviceReset _ | .instructionFetchFault _ | .hostAcknowledge _ | .peerCopyAccess _
  | .peerWriteAcknowledge _ | .globalPersistentFlush _ | .voltageLoop _ | .equalisationLoop _ => true
  | _ => false
end

