-- ==== Sys2Proof/Certificates/Slice0/Obligations.lean ====
section
/-! DEFINITION. What the model is claimed to do, each claim with the rule of the spec that it states. -/

open Sys2Proof Sys2Proof.Machine

/-! ## Scalar registers (spec 08) -/

/-- 08 R223, Table 8.1: the sum, logic, order and select of the operands goes to x[D] modulo 2^64, and nothing else changes
(01 R21: a write of x31 is dropped). -/
def Obligations.ScalarArithmetic : Prop :=
  ∀ (s : State) (t : Task) (d a b c : Reg), s.task? = some t →
    let x := t.rx a
    let y := t.rx b
    let is (p : Prop) [Decidable p] : Word := if p then 1 else 0
    writesX (.add d a b) s t d (x + y) ∧
    writesX (.addw d a b) s t d ((x.setWidth 32 + y.setWidth 32).signExtend 64) ∧
    writesX (.sub d a b) s t d (x - y) ∧
    writesX (.subw d a b) s t d ((x.setWidth 32 - y.setWidth 32).signExtend 64) ∧
    writesX (.and d a b) s t d (x &&& y) ∧
    writesX (.or d a b) s t d (x ||| y) ∧
    writesX (.xor d a b) s t d (x ^^^ y) ∧
    writesX (.andn d a b) s t d (x &&& ~~~y) ∧
    writesX (.orn d a b) s t d (x ||| ~~~y) ∧
    writesX (.xnor d a b) s t d (~~~(x ^^^ y)) ∧
    writesX (.min d a b) s t d (if x.toInt ≤ y.toInt then x else y) ∧
    writesX (.max d a b) s t d (if x.toInt ≥ y.toInt then x else y) ∧
    writesX (.minn d a b) s t d (if x.toNat ≤ y.toNat then x else y) ∧
    writesX (.maxn d a b) s t d (if x.toNat ≥ y.toNat then x else y) ∧
    writesX (.slt d a b) s t d (is (x.toInt < y.toInt)) ∧
    writesX (.sltn d a b) s t d (is (x.toNat < y.toNat)) ∧
    writesX (.seq d a b) s t d (is (x = y)) ∧
    writesX (.sne d a b) s t d (is (x ≠ y)) ∧
    writesX (.sel d a b c) s t d (if t.rx c ≠ 0 then x else y) ∧
    writesX (.addco d a b) s t d (is (x.toNat + y.toNat ≥ 2 ^ 64))

/-- 08 R223, R224, Table 8.2: products, and the quotient and remainder that never trap: division by zero gives all ones and
leaves the dividend, the most negative value by −1 gives itself and 0; the remainder takes the sign of the dividend. -/
def Obligations.ScalarMultiplyDivide : Prop :=
  ∀ (s : State) (t : Task) (d a b c : Reg), s.task? = some t →
    let x := t.rx a
    let y := t.rx b
    let u : BitVec 32 := x.setWidth 32
    let v : BitVec 32 := y.setWidth 32
    writesX (.mul d a b) s t d (BitVec.ofInt 64 (x.toInt * y.toInt)) ∧
    writesX (.mulw d a b) s t d ((BitVec.ofInt 32 (u.toInt * v.toInt)).signExtend 64) ∧
    writesX (.mulh d a b) s t d (BitVec.ofInt 64 (x.toInt * y.toInt / 2 ^ 64)) ∧
    writesX (.mulhn d a b) s t d (BitVec.ofNat 64 (x.toNat * y.toNat / 2 ^ 64)) ∧
    writesX (.mulhsn d a b) s t d (BitVec.ofInt 64 (x.toInt * y.toNat / 2 ^ 64)) ∧
    writesX (.div d a b) s t d (if y = 0 then BitVec.allOnes 64 else x.sdiv y) ∧
    writesX (.divw d a b) s t d ((if v = 0 then BitVec.allOnes 32 else u.sdiv v).signExtend 64) ∧
    writesX (.divn d a b) s t d (if y = 0 then BitVec.allOnes 64 else x / y) ∧
    writesX (.divnw d a b) s t d ((if v = 0 then BitVec.allOnes 32 else u / v).signExtend 64) ∧
    writesX (.rem d a b) s t d (if y = 0 then x else x.srem y) ∧
    writesX (.remw d a b) s t d ((if v = 0 then u else u.srem v).signExtend 64) ∧
    writesX (.remn d a b) s t d (if y = 0 then x else x % y) ∧
    writesX (.remnw d a b) s t d ((if v = 0 then u else u % v).signExtend 64) ∧
    writesX (.madd d a b c) s t d (x * y + t.rx c)

/-- 08 R225, R226, R227, Table 8.4: shifts and rotates by (x[B] + IMM32) modulo the width, counts of bits, reversals, and the
bit fields bit by bit. -/
def Obligations.ScalarShiftsAndBits : Prop :=
  ∀ (s : State) (t : Task) (d a b c : Reg) (imm : BitVec 32) (io iw : BitVec 7), s.task? = some t →
    let x := t.rx a
    let u : BitVec 32 := x.setWidth 32
    let n := ((t.rx b).toNat + imm.toNat) % 64
    let m := ((t.rx b).toNat + imm.toNat) % 32
    let o := ((t.rx b).toNat + io.toNat) % 128
    let w := Nat.min (((t.rx c).toNat + iw.toNat) % 128) 64
    let top := Nat.min (o + w) 64 - 1
    writesX (.sll d a b imm) s t d (x <<< n) ∧
    writesX (.sllw d a b imm) s t d ((u <<< m).signExtend 64) ∧
    writesX (.srl d a b imm) s t d (x >>> n) ∧
    writesX (.srlw d a b imm) s t d ((u >>> m).signExtend 64) ∧
    writesX (.sra d a b imm) s t d (x.sshiftRight n) ∧
    writesX (.sraw d a b imm) s t d ((u.sshiftRight m).signExtend 64) ∧
    writesX (.rol d a b imm) s t d (x.rotateLeft n) ∧
    writesX (.ror d a b imm) s t d (x.rotateRight n) ∧
    (∃ k, writesX (.clz d a) s t d (BitVec.ofNat 64 k) ∧ k ≤ 64 ∧ (∀ i, i < k → x.getLsbD (63 - i) = false) ∧
      (k < 64 → x.getLsbD (63 - k) = true)) ∧
    (∃ k, writesX (.ctz d a) s t d (BitVec.ofNat 64 k) ∧ k ≤ 64 ∧ (∀ i, i < k → x.getLsbD i = false) ∧
      (k < 64 → x.getLsbD k = true)) ∧
    writesX (.popc d a) s t d (BitVec.ofNat 64 (((List.range 64).map fun i => (x.getLsbD i).toNat).sum)) ∧
    (∃ r : Word, writesX (.brev d a) s t d r ∧ ∀ i, i < 64 → r.getLsbD (63 - i) = x.getLsbD i) ∧
    (∃ r : Word, writesX (.bswap d a) s t d r ∧ ∀ i, i < 8 → r.extractLsb' (8 * (7 - i)) 8 = x.extractLsb' (8 * i) 8) ∧
    (∃ r : Word, writesX (.bfxn d a b c io iw) s t d r ∧ ∀ i, i < 64 →
      r.getLsbD i = (decide (w ≠ 0 ∧ o < 64 ∧ o + i ≤ top) && x.getLsbD (o + i))) ∧
    (∃ r : Word, writesX (.bfx d a b c io iw) s t d r ∧ ∀ i, i < 64 →
      r.getLsbD i = (decide (w ≠ 0 ∧ o < 64) && x.getLsbD (Nat.min (o + i) top))) ∧
    (∃ r : Word, writesX (.bfi d a b c io iw) s t d r ∧ ∀ i, i < 64 →
      r.getLsbD i = if w ≠ 0 ∧ o ≤ i ∧ i ≤ top then x.getLsbD (i - o) else (t.rx d).getLsbD i)

/-- 08 R228, Table 8.6: the immediate forms; PCADD adds to the address of its own base word modulo 2^56. -/
def Obligations.ImmediateForms : Prop :=
  ∀ (s : State) (t : Task) (d a : Reg) (imm : Word), s.task? = some t →
    writesX (.addi d a imm) s t d (t.rx a + imm) ∧
    writesX (.andi d a imm) s t d (t.rx a &&& imm) ∧
    writesX (.ori d a imm) s t d (t.rx a ||| imm) ∧
    writesX (.xori d a imm) s t d (t.rx a ^^^ imm) ∧
    writesX (.li d imm) s t d imm ∧
    writesX (.pcadd d imm) s t d (BitVec.ofNat 64 ((t.pc.toNat + imm.toNat) % 2 ^ 56))

/-- 08 R229, R230, R231, R232, 01 R19: a branch that is taken goes to PC + 4 × offset modulo 2^56, one that is not goes on; a
branch writes no register; CALL writes x30; LOOP counts x[A] down to 0 and branches while it was above 1; JR and JALR go to
x[A][55:0], JALR with the return address in x[D], and one that is no multiple of 4 traps PC_ALIGN. -/
def Obligations.ControlFlow : Prop :=
  (∀ (s : State) (t : Task) (a b : Reg) (off : BitVec 46) (off24 : BitVec 24) (off32 : BitVec 32), s.task? = some t →
      let x := t.rx a
      let y := t.rx b
      let dest (n : Int) : VAddr := BitVec.ofInt 56 (t.pc.toNat + 4 * n)
      let goes (i : Instr) (p : Prop) [Decidable p] : Prop :=
        ∃ t', becomes i s t' ∧ t' = { t with npc := t'.npc, pc := t'.pc } ∧ t'.pc = if p then dest off.toInt else t.npc
      goes (.beq a b off) (x = y) ∧
      goes (.bne a b off) (x ≠ y) ∧
      goes (.blt a b off) (x.toInt < y.toInt) ∧
      goes (.bge a b off) (x.toInt ≥ y.toInt) ∧
      goes (.bltn a b off) (x.toNat < y.toNat) ∧
      goes (.bgen a b off) (x.toNat ≥ y.toNat) ∧
      (∃ t', becomes (.br off24) s t' ∧ t' = { t with npc := t'.npc, pc := dest off24.toInt }) ∧
      (∃ t', becomes (.call off24) s t' ∧ t' = { t with x := t'.x, npc := t'.npc, pc := dest off24.toInt } ∧
        ∀ r, t'.rx r = if r = 30 then BitVec.ofNat 64 ((t.pc.toNat + 4) % 2 ^ 56) else t.rx r) ∧
      (∃ t', becomes (.loop a off32) s t' ∧
        t' = { t with x := t'.x, npc := t'.npc, pc := if 1 < x.toNat then dest off32.toInt else t.npc } ∧
        ∀ r, t'.rx r = if r = a ∧ a ≠ 31 then (if 1 < x.toNat then x - 1 else 0) else t.rx r)) ∧
  (∀ (s : State) (t : Task) (d a : Reg), s.task? = some t →
      let x := t.rx a
      (x.extractLsb' 0 2 = 0 →
        (∃ t', becomes (.jr a) s t' ∧ t' = { t with npc := t'.npc, pc := x.setWidth 56 }) ∧
        (∃ t', becomes (.jalr d a) s t' ∧ t' = { t with x := t'.x, npc := t'.npc, pc := x.setWidth 56 } ∧
          ∀ r, t'.rx r = if r = d ∧ d ≠ 31 then BitVec.ofNat 64 ((t.pc.toNat + 4) % 2 ^ 56) else t.rx r)) ∧
      (x.extractLsb' 0 2 ≠ 0 →
        traps (.jr a) s { cause := .pcAlign, detail := x.setWidth 32 } ∧
        traps (.jalr d a) s { cause := .pcAlign, detail := x.setWidth 32 }))

/-! ## Vectors and floating arithmetic (spec 09, 03) -/

/-- 09 R241, R242, Table 9.5: the rounding instructions, scalar and vector: the exact result of the flushed inputs rounded
once, element by element; one that rounds stochastically counts once (03 R91). -/
def Obligations.FloatArithmetic : Prop :=
  ∀ (s : State) (t : Task) (vec sc : Bool) (ty : Ty) (f : FMod) (d a b c : Reg), s.task? = some t →
    (Instr.fadd vec sc ty f d a b).wf = true →
    let F := tyFmt ty
    let n := if t.mode f.rm = .st then 1 else 0
    writesFloats (.fadd vec sc ty f d a b) s t vec sc ty f d a b 31 (fun v x y _ => F.add v false x y) n ∧
    writesFloats (.fsub vec sc ty f d a b) s t vec sc ty f d a b 31 (fun v x y _ => F.add v true x y) n ∧
    writesFloats (.fmul vec sc ty f d a b) s t vec sc ty f d a b 31 (fun v x y _ => F.mul v x y) n ∧
    writesFloats (.fdiv vec sc ty f d a b) s t vec sc ty f d a b 31 (fun v x y _ => F.div v x y) n ∧
    writesFloats (.fsqrt vec ty f d a) s t vec false ty f d a 31 31 (fun v x _ _ => F.sqrt v x) n ∧
    writesFloats (.fma vec sc ty f d a b c) s t vec sc ty f d a b c (fun v x y z => F.fma v false false x y z) n ∧
    writesFloats (.fms vec sc ty f d a b c) s t vec sc ty f d a b c (fun v x y z => F.fma v false true x y z) n ∧
    writesFloats (.fnma vec sc ty f d a b c) s t vec sc ty f d a b c (fun v x y z => F.fma v true false x y z) n ∧
    writesFloats (.fnms vec sc ty f d a b c) s t vec sc ty f d a b c (fun v x y z => F.fma v true true x y z) n

/-- 09 R244, R245: FMIN and FMAX return one operand; FABS, FNEG and FSGNJ act on the sign bit and raise no flag; none of them
rounds, counts or flushes its result (R239). -/
def Obligations.FloatSelectAndSign : Prop :=
  ∀ (s : State) (t : Task) (vec sc fzi : Bool) (ty : Ty) (mask : SReg) (d a b : Reg), s.task? = some t →
    (Instr.fmin vec sc ty fzi mask d a b).wf = true →
    let F := tyFmt ty
    let f : FMod := ⟨.rn, fzi, false, mask⟩
    let top := 2 ^ (F.w - 1)
    writesFloats (.fmin vec sc ty fzi mask d a b) s t vec sc ty f d a b 31 (fun v x y _ => F.minMax v.fzi true x y) 0 ∧
    writesFloats (.fmax vec sc ty fzi mask d a b) s t vec sc ty f d a b 31 (fun v x y _ => F.minMax v.fzi false x y) 0 ∧
    writesFloats (.fabs vec ty fzi mask d a) s t vec false ty f d a 31 31 (fun v x _ _ => (F.flush v.fzi x % top, 0)) 0 ∧
    writesFloats (.fneg vec ty fzi mask d a) s t vec false ty f d a 31 31
      (fun v x _ _ => (F.flush v.fzi x % top + (if x % 2 ^ F.w < top then top else 0), 0)) 0 ∧
    writesFloats (.fsgnj vec sc ty fzi mask d a b) s t vec sc ty f d a b 31
      (fun v x y _ => (F.flush v.fzi x % top + (if y % 2 ^ F.w < top then 0 else top), 0)) 0

/-- 09 R252, R253, Tables 9.10 and 9.11: the special functions; for f32 nothing rounds stochastically. Their values: a NaN gives
itself quieted, the infinities and zeros give what Table 9.11 lists, a negative logarithm or reciprocal root the default NaN with
NV, the logarithm of 1 is +0, FEXP2 of an integer is the power of two, and FLOG2 of a power of two is its exponent. FRCP is the
exact reciprocal rounded under the mode, in f32 to nearest-even (R253); FRSQ to nearest is the bits next to the exact value. -/
def Obligations.SpecialFunctions : Prop :=
  (∀ (s : State) (t : Task) (vec : Bool) (ty : Ty) (f : FMod) (d a : Reg), s.task? = some t →
    (Instr.fexp vec ty f d a).wf = true →
    let F := tyFmt ty
    let n := if ty ≠ .f32 ∧ t.mode f.rm = .st then 1 else 0
    let gives (i : Instr) (g : Fn9) : Prop := writesFloats i s t vec false ty f d a 31 31 (fun v x _ _ => g.eval F v x) n
    gives (.fexp vec ty f d a) .exp ∧ gives (.fexp2 vec ty f d a) .exp2 ∧ gives (.flog vec ty f d a) .log ∧
    gives (.flog2 vec ty f d a) .log2 ∧ gives (.frcp vec ty f d a) .rcp ∧ gives (.frsq vec ty f d a) .rsq ∧
    gives (.fsin vec ty f d a) .sin ∧ gives (.fcos vec ty f d a) .cos ∧ gives (.ftanh vec ty f d a) .tanh ∧
    gives (.fsigm vec ty f d a) .sigm ∧ gives (.ferf vec ty f d a) .erf) ∧
  (∀ (F : Fmt) (v : FEnv), F ∈ [Fmt.f32, Fmt.f16, Fmt.bf16] →
    let inf (n : Bool) : Nat := F.signBit n + F.infBits
    let zero (n : Bool) : Nat := F.signBit n
    let one (n : Bool) : Nat := F.signBit n + F.bias * 2 ^ F.fb
    let bad : Nat × BitVec 5 := (F.infBits + 2 ^ (F.fb - 1), fNV)
    (∀ (g : Fn9) (n : Bool) (fr : Nat), 0 < fr → fr < 2 ^ F.fb →
      g.eval F v (inf n + fr) = (if fr < 2 ^ (F.fb - 1) then (inf n + 2 ^ (F.fb - 1) + fr, fNV) else (inf n + fr, 0))) ∧
    (∀ n, Fn9.exp.eval F v (zero n) = (one false, 0) ∧ Fn9.exp2.eval F v (zero n) = (one false, 0) ∧
      Fn9.log.eval F v (zero n) = (inf true, fDZ) ∧ Fn9.log2.eval F v (zero n) = (inf true, fDZ) ∧
      Fn9.rcp.eval F v (zero n) = (inf n, fDZ) ∧ Fn9.rsq.eval F v (zero n) = (inf n, fDZ) ∧
      Fn9.sin.eval F v (zero n) = (zero n, 0) ∧ Fn9.cos.eval F v (zero n) = (one false, 0) ∧
      Fn9.tanh.eval F v (zero n) = (zero n, 0) ∧ Fn9.erf.eval F v (zero n) = (zero n, 0) ∧
      Fn9.sigm.eval F v (zero n) = ((F.bias - 1) * 2 ^ F.fb, 0)) ∧
    (∀ n, Fn9.exp.eval F v (inf n) = (if n then 0 else inf false, 0) ∧ Fn9.exp2.eval F v (inf n) = (if n then 0 else inf false, 0) ∧
      Fn9.log.eval F v (inf n) = (if n then bad else (inf false, 0)) ∧ Fn9.log2.eval F v (inf n) = (if n then bad else (inf false, 0)) ∧
      Fn9.rcp.eval F v (inf n) = (zero n, 0) ∧ Fn9.rsq.eval F v (inf n) = (if n then bad else (0, 0)) ∧
      Fn9.sin.eval F v (inf n) = bad ∧ Fn9.cos.eval F v (inf n) = bad ∧
      Fn9.tanh.eval F v (inf n) = (one n, 0) ∧ Fn9.erf.eval F v (inf n) = (one n, 0) ∧
      Fn9.sigm.eval F v (inf n) = (if n then 0 else one false, 0)) ∧
    (∀ a, F.finite a = true → F.isSub a = false ∨ v.fzi = false → F.val a < 0 →
      Fn9.log.eval F v a = bad ∧ Fn9.log2.eval F v a = bad ∧ Fn9.rsq.eval F v a = bad) ∧
    Fn9.log.eval F v (one false) = (0, 0) ∧
    (∀ (a b : Nat) (k : Int), F.finite a = true → F.isSub a = false ∨ v.fzi = false → F.finite b = true → F.isSub b = false →
      (F.val a = k → k ≠ 0 → F.val b = 2 ^ k → Fn9.exp2.eval F v a = (b, 0)) ∧
      (F.val a = 2 ^ k → F.val b = k → k ≠ 0 → Fn9.log2.eval F v a = (b, 0)))) ∧
  (∀ (F : Fmt) (v : FEnv) (a : Nat), F ∈ [Fmt.f32, Fmt.f16, Fmt.bf16] → v.md ∈ [Mode.ne, .tz, .up, .dn, .na] → v.fzo = false →
    F.finite a = true → F.val a ≠ 0 → F.isSub a = false ∨ v.fzi = false →
    (let r := Fn9.rcp.eval F v a
     r.2.getLsbD 2 = false → F.roundsTo (if F.w = 32 then .ne else v.md) (1 / F.val a) r.1 ∧
       (r.2.getLsbD 0 = true ↔ F.val r.1 ≠ 1 / F.val a)) ∧
    (let r := Fn9.rsq.eval F v a
     0 < F.val a → (F.w = 32 ∨ v.md = .ne) → F.finite r.1 = true ∧ 0 < F.val r.1 ∧
       (r.2.getLsbD 0 = true ↔ F.val r.1 ^ 2 * F.val a ≠ 1) ∧
       ∀ b, F.finite b = true → 0 ≤ F.val b →
         (F.val b < F.val r.1 → ((F.val b + F.val r.1) / 2) ^ 2 * F.val a ≤ 1) ∧
         (F.val r.1 < F.val b → 1 ≤ ((F.val b + F.val r.1) / 2) ^ 2 * F.val a)))

/-- 09 R246, R247, Table 9.7: vector integer arithmetic on lanes of w bits, modulo 2^w or clamped to the type's range. -/
def Obligations.VectorIntegers : Prop :=
  ∀ (s : State) (t : Task) (sc : Bool) (ty : Ty) (mask : SReg) (d a b c : Reg), s.task? = some t → ty.isInt = true →
    let w := tyBits ty
    let x (k j : Nat) : BitVec w := (lane w (t.rv k a) j).setWidth w
    let y (k j : Nat) : BitVec w := if sc then (t.rx b).setWidth w else (lane w (t.rv k b) j).setWidth w
    let z (k j : Nat) : BitVec w := (lane w (t.rv k c) j).setWidth w
    let val (v : BitVec w) : Int := if ty.signed then v.toInt else v.toNat
    let lo : Int := if ty.signed then -2 ^ (w - 1) else 0
    let hi : Int := if ty.signed then 2 ^ (w - 1) - 1 else 2 ^ w - 1
    let gives (i : Instr) (g : Nat → Nat → BitVec w) : Prop := writesLanes i s t w mask d (fun k j => ((g k j).setWidth 64, 0)) 0
    gives (.vadd sc ty mask d a b) (fun k j => x k j + y k j) ∧
    gives (.vsub sc ty mask d a b) (fun k j => x k j - y k j) ∧
    gives (.vadds sc ty mask d a b) (fun k j => BitVec.ofInt w (max lo (min hi (val (x k j) + val (y k j))))) ∧
    gives (.vsubs sc ty mask d a b) (fun k j => BitVec.ofInt w (max lo (min hi (val (x k j) - val (y k j))))) ∧
    gives (.vmul sc ty mask d a b) (fun k j => x k j * y k j) ∧
    gives (.vmulh sc ty mask d a b) (fun k j => BitVec.ofInt w (val (x k j) * val (y k j) / 2 ^ w)) ∧
    gives (.vmadd sc ty mask d a b c) (fun k j => x k j * y k j + z k j) ∧
    gives (.vmin sc ty mask d a b) (fun k j => if val (x k j) ≤ val (y k j) then x k j else y k j) ∧
    gives (.vmax sc ty mask d a b) (fun k j => if val (x k j) ≤ val (y k j) then y k j else x k j) ∧
    gives (.vabs ty mask d a) (fun k j => if val (x k j) < 0 then -(x k j) else x k j) ∧
    gives (.vand sc ty mask d a b) (fun k j => x k j &&& y k j) ∧
    gives (.vor sc ty mask d a b) (fun k j => x k j ||| y k j) ∧
    gives (.vxor sc ty mask d a b) (fun k j => x k j ^^^ y k j) ∧
    gives (.vandn sc ty mask d a b) (fun k j => x k j &&& ~~~y k j) ∧
    gives (.vsll sc ty mask d a b) (fun k j => x k j <<< ((y k j).toNat % w)) ∧
    gives (.vsrl sc ty mask d a b) (fun k j => x k j >>> ((y k j).toNat % w)) ∧
    gives (.vsra sc ty mask d a b) (fun k j => (x k j).sshiftRight ((y k j).toNat % w))

/-- 09 R248, R249, R259, Table 9.8: compares into x[D] and into masks, and the mask operations. -/
def Obligations.ComparesAndMasks : Prop :=
  ∀ (s : State) (t : Task) (cond : Cond) (ty : Ty) (fzi : Bool) (mask : SReg) (d a b : Reg) (e g h : SReg),
    s.task? = some t →
    let w := tyBits ty
    let F := tyFmt ty
    let z := fzi || t.fstat.dfzi
    let x (k j : Nat) : Word := lane w (t.rv k a) j
    let y (k j : Nat) : Word := lane w (t.rv k b) j
    let val (v : Word) : Int := if ty.signed then (v.setWidth w).toInt else (v.setWidth w).toNat
    let holds (p q : Int) : Bool := match cond with
      | .eq => p = q | .ne => p ≠ q | .lt => p < q | .le => p ≤ q | .gt => p > q | .ge => p ≥ q | _ => false
    let masks (i : Instr) (f : Nat → Word) : Prop :=
      ∃ t', becomes i s t' ∧ t' = { t with parts := t'.parts, pc := t.npc } ∧ t'.width = t.width ∧
        (∀ k r, t'.rv k r = t.rv k r) ∧ ∀ k r, k < t.width → t'.rm k r = if r = e then f k else t.rm k r
    (ty.isIeee = true → (d.toNat < 8 →
      writesMask (.fcmp true cond ty fzi mask d a b) s t w mask (d.setWidth 3)
        (fun k j => F.compare cond z (x k j).toNat (y k j).toNat)) ∧
      (let r := F.compare cond z (t.rx a).toNat (t.rx b).toNat
       writesFloat (.fcmp false cond ty fzi 0 d a b) s t d (if r.1 then 1 else 0) r.2 0)) ∧
    (ty.isInt = true → writesMask (.icmp cond ty mask e a b) s t w mask e (fun k j => (holds (val (x k j)) (val (y k j)), 0))) ∧
    masks (.mand e g h) (fun k => t.rm k g &&& t.rm k h) ∧
    masks (.mor e g h) (fun k => t.rm k g ||| t.rm k h) ∧
    masks (.mxor e g h) (fun k => t.rm k g ^^^ t.rm k h) ∧
    masks (.mandn e g h) (fun k => t.rm k g &&& ~~~t.rm k h) ∧
    masks (.mnot e g) (fun k => ~~~t.rm k g) ∧
    masks (.mset e a) (fun _ => t.rx a) ∧
    writesX (.mget d g) s t d (t.rm t.lead g) ∧
    writesX (.mpopc d g) s t d (BitVec.ofNat 64 (((List.range 64).map fun i => ((t.rm t.lead g).getLsbD i).toNat).sum)) ∧
    ∃ k, writesX (.mfirst d g) s t d (BitVec.ofNat 64 k) ∧ k ≤ 64 ∧ (∀ i, i < k → (t.rm t.lead g).getLsbD i = false) ∧
      (k < 64 → (t.rm t.lead g).getLsbD k = true)

/-- 09 R250, R259, Table 9.9: the permutes over all lanes of the clamp. -/
def Obligations.Permutes : Prop :=
  ∀ (s : State) (t : Task) (ty : Ty) (mask : SReg) (d a b c : Reg), s.task? = some t → ty.hasLanes = true →
    let w := tyBits ty
    let l := 512 / w
    let n := t.width * l
    let at' (r : Reg) (j : Nat) : Word := lane w (t.rv (j / l) r) (j % l)
    let put (i : Instr) (m : SReg) (f : Nat → Word) : Prop := writesLanes i s t w m d (fun k j => (f (l * k + j), 0)) 0
    put (.vbcast ty mask d a) mask (fun _ => t.rx a) ∧
    put (.vmov ty mask d a) mask (fun j => at' a j) ∧
    put (.vins ty d a b) 0 (fun j => if j = (t.rx b).toNat % n then t.rx a else at' d j) ∧
    put (.vperm ty mask d a b c) mask (fun i =>
      let j := (at' b i).toNat % (2 * n)
      if j < n then at' a j else at' c (j - n)) ∧
    writesX (.vext ty d a b) s t d
      (let v := at' a ((t.rx b).toNat % n)
       if ty.signed then (v.setWidth w).signExtend 64 else v)

/-- 09 R251: a reduction of integer lanes: the sum modulo 2^64, the least, the greatest of the extended lanes that take part,
whatever the order of the tree; with none, 0 or the end of the type's range. -/
def Obligations.IntegerReductions : Prop :=
  ∀ (s : State) (t : Task) (ty : Ty) (mask : SReg) (d a : Reg), s.task? = some t → ty.isInt = true →
    t.width ∈ [1, 2, 4, 8] →
    let w := tyBits ty
    let on := (List.range t.width).flatMap fun k => ((List.range (512 / w)).filter (t.on mask k)).map fun j =>
      extLane ty (lane w (t.rv k a) j)
    let le (x y : Word) : Prop := if ty.signed then x.toInt ≤ y.toInt else x.toNat ≤ y.toNat
    let f : FMod := ⟨.dflt, false, false, mask⟩
    writesX (.vradd ty f d a) s t d on.sum ∧
    (∃ v, writesX (.vrmin ty false mask d a) s t d v ∧ (∀ x ∈ on, le v x) ∧
      (if on = [] then v = BitVec.ofInt 64 (tyHi ty) else v ∈ on)) ∧
    (∃ v, writesX (.vrmax ty false mask d a) s t d v ∧ (∀ x ∈ on, le x v) ∧
      (if on = [] then v = BitVec.ofInt 64 (tyLo ty) else v ∈ on))

/-- 09 R251: a reduction of float lanes combines neighbours level by level, each node rounded once under the element index of
R91; the tree is that of the rule. -/
def Obligations.FloatReductions : Prop :=
  ∀ (s : State) (t : Task) (ty : Ty) (f : FMod) (fzi : Bool) (mask : SReg) (d a : Reg), s.task? = some t → ty.isIeee = true →
    let w := tyBits ty
    let F := tyFmt ty
    let n := t.width * (512 / w)
    let leaves (z : Bool) (m : SReg) : List (Option Nat) := (t.redLanes w m a).map (Option.map fun x => F.flush z x.toNat)
    (let r := redTree (fun x y e => F.add (t.env f e) false x y) n 10 (leaves (f.fzi || t.fstat.dfzi) f.mask) 0
     writesFloat (.vradd ty f d a) s t d (BitVec.ofNat 64 (r.1.getD 0)) r.2 (if t.mode f.rm = .st then 1 else 0)) ∧
    (let z := fzi || t.fstat.dfzi
     let r := redTree (fun x y _ => F.minMax z true x y) n 10 (leaves z mask) 0
     writesFloat (.vrmin ty fzi mask d a) s t d (BitVec.ofNat 64 (r.1.getD F.infBits)) r.2 0) ∧
    (let z := fzi || t.fstat.dfzi
     let r := redTree (fun x y _ => F.minMax z false x y) n 10 (leaves z mask) 0
     writesFloat (.vrmax ty fzi mask d a) s t d (BitVec.ofNat 64 (r.1.getD (2 ^ (F.w - 1) + F.infBits))) r.2 0)

/-- 09 R255, R256, 03 R79, R88: CVT and CVTS. A narrowing vector conversion fills part p of the destination and leaves the
other lanes; a widening one reads part p of the source. Integers wrap under CVT and clamp under CVTS. The
model's reading of a clamped task: part p is that of each member's own register, with the lane index from it (log 33). -/
def Obligations.Conversions : Prop :=
  ∀ (s : State) (t : Task) (src dst : Ty) (part : BitVec 3) (f : FMod) (mask : SReg) (d a : Reg), s.task? = some t →
    let sw := tyBits src
    let dw := tyBits dst
    let n := 512 / Nat.max sw dw
    let p := part.toNat
    let takes (i : Nat) : Bool := decide (sw < dw) || (decide (p * n ≤ i) && decide (i < p * n + n))
    let elem (k i : Nat) : Word := lane sw (t.rv k a) (if sw < dw then p * n + i else i - p * n)
    let old (k i : Nat) : Word × BitVec 5 := (lane dw (t.rv k d) i, 0)
    let arg : Word := ((t.rx a).setWidth sw).setWidth 64
    let val (x : Word) : Int := if src.signed then (x.setWidth sw).toInt else (x.setWidth sw).toNat
    let clamp (x : Word) : Word := ((BitVec.ofInt dw (max (tyLo dst) (min (tyHi dst) (val x)))).setWidth 64)
    let count := if (src.isFloat || dst.isFloat) ∧ t.mode f.rm = .st then 1 else 0
    ((Instr.cvt true src dst part f d a).wf = true → writesLanes (.cvt true src dst part f d a) s t dw f.mask d
      (fun k i => if takes i then convElem src dst (t.env f (512 / dw * k + i)) (elem k i) else old k i) count) ∧
    ((Instr.cvt false src dst 0 f d a).wf = true →
      let r := convElem src dst (t.env f 0) arg
      writesFloat (.cvt false src dst 0 f d a) s t d
        (if dst.isFloat then r.1 else if dst.signed then (r.1.setWidth dw).signExtend 64 else (r.1.setWidth dw).setWidth 64)
        r.2 count) ∧
    ((Instr.cvts true src dst part mask d a).wf = true → writesLanes (.cvts true src dst part mask d a) s t dw mask d
      (fun k i => if takes i then (clamp (elem k i), 0) else old k i) 0) ∧
    ((Instr.cvts false src dst 0 0 d a).wf = true → writesX (.cvts false src dst 0 0 d a) s t d
      (if dst.signed then ((clamp arg).setWidth dw).signExtend 64 else clamp arg))

/-- 09 R257, R258, R259: CVTB packs a block of 32 elements of every member into part p of v[D], and the leader's scale byte into
byte p of x[C]; CVFB decodes block p of every member with scale byte p of x[C]. The model's reading
of a clamped task: each member's own register, the leader's scale byte, and lane 32 k + i as the draw index of CVFB (log 33). -/
def Obligations.BlockConversions : Prop :=
  ∀ (s : State) (t : Task) (src dst : Ty) (part : BitVec 3) (mode : BitVec 2) (rm : RM) (fz : Bool) (d a c : Reg),
    s.task? = some t →
    let p := part.toNat
    let n := if t.mode rm = .st then 1 else 0
    let after (t' : Task) (fl : Nat → BitVec 5) : Prop :=
      t'.width = t.width ∧ (∀ k r, t'.rm k r = t.rm k r) ∧ ∀ b, b < 5 → t'.fstat.flags.getLsbD b =
        (t.fstat.flags.getLsbD b || (List.range t.width).any fun k => (fl k).getLsbD b)
    ((Instr.cvtb src dst part mode rm fz d a c).wf = true →
      let w := tyBits src
      let xs (k : Nat) := ((lanes w (t.rv k a) ++ (if w = 32 then lanes w (t.rv k (a + 1)) else [])).take 32).map
        (elemNum src (fz || t.fstat.dfzi))
      let draws (i : Nat) : Nat := (t.env ⟨rm, fz, false, 0⟩ i).draw
      let block (k : Nat) : Nat × List Nat × BitVec 5 :=
        if dst = .blk4 then toBlk4 mode.toNat (t.mode rm) draws (xs k) else toBlk8 (t.mode rm) draws (xs k)
      let codes (k : Nat) : List Byte := if dst = .blk4 then blk4Bytes (block k).2.1 else (block k).2.1.map (BitVec.ofNat 8)
      ∃ t', becomes (.cvtb src dst part mode rm fz d a c) s t' ∧
        t' = { t with
          x := t'.x, parts := t'.parts, fstat := { t.fstat with flags := t'.fstat.flags }, sn := t.sn + n, pc := t.npc } ∧
        after t' (fun k => (block k).2.2) ∧
        (∀ r, t'.rx r = if r = c ∧ c ≠ 31 then setFld (t.rx c) (8 * p + 7) (8 * p) (block t.lead).1 else t.rx r) ∧
        ∀ k r, k < t.width → t'.rv k r = if r = d then putBytes (t.rv k d) ((codes k).length * p) (codes k) else t.rv k r) ∧
    ((Instr.cvfb src dst part rm fz d a c).wf = true →
      let nums (k : Nat) : List Machine.Num :=
        if src = .blk4 then (blk4Codes (((vecBytes (t.rv k a)).drop (16 * p)).take 16)).map (blk4Num (fld (t.rx c) (8 * p + 7) (8 * p)))
        else (((vecBytes (t.rv k a)).drop (32 * p)).take 32).map fun b => blk8Num (fld (t.rx c) (8 * p + 7) (8 * p)) b.toNat
      let r (k : Nat) := (nums k).zipIdx.map fun (x : Machine.Num × Nat) => (tyFmt dst).ofNum (t.env ⟨rm, false, fz, 0⟩ (32 * k + x.2)) x.1
      let ls (k : Nat) : List Word := (r k).map fun x => BitVec.ofNat 64 x.1
      ∃ t', becomes (.cvfb src dst part rm fz d a c) s t' ∧
        t' = { t with parts := t'.parts, fstat := { t.fstat with flags := t'.fstat.flags }, sn := t.sn + n, pc := t.npc } ∧
        after t' (fun k => (r k).foldl (fun fl x => fl ||| x.2) 0) ∧
        ∀ k q, k < t.width → t'.rv k q =
          if dst = .f32 then
            if q = d then ofLanes 32 ((ls k).take 16) else if q = d + 1 then ofLanes 32 ((ls k).drop 16) else t.rv k q
          else if q = d then ofLanes 16 (ls k) else t.rv k q)

/-- 03 R89, R92, Table 3.5: a non-zero exact value rounds to itself where the format holds it, else to the neighbour that the
mode asks for, and NX says whether the value changed; one that overflows gives an infinity or the largest finite value of its
sign by the mode, with OF and NX. 09 R242: sums, products, quotients and fused results of finite inputs are the exact results of the
flushed inputs rounded so, once, with the signs that the rule gives exact zeros; a root is the value next to the exact one that the mode
asks for. 09 R244, R249: FMIN and FMAX give one of the flushed operands, and a compare decides by their values. 03 R96, R98: a conversion
rounds once, and one to an integer takes the integer that the mode asks for, or the bound of the range beyond which it lies. -/
def Obligations.RoundingFollowsTheMode : Prop :=
  (∀ (F : Fmt) (md : Mode) (neg : Bool) (m : Nat) (e : Int) (draw : Nat),
    F ∈ [Fmt.f64, Fmt.f32, Fmt.f16, Fmt.bf16, Fmt.e5m2] → md ∈ [Mode.ne, .tz, .up, .dn, .na] → 0 < m →
    F.rightly md neg ((if neg then -1 else 1) * m * 2 ^ e) (F.round md false draw neg ⟨m, e, false⟩)) ∧
  (∀ (F : Fmt) (v : FEnv) (a b c : Nat) (np nc : Bool), F ∈ [Fmt.f64, Fmt.f32, Fmt.f16, Fmt.bf16] →
    v.md ∈ [Mode.ne, .tz, .up, .dn, .na] → v.fzo = false →
    let fin (a : Nat) : Prop := F.finite (F.flush v.fzi a) = true
    let val (a : Nat) : ℚ := F.val (F.flush v.fzi a)
    let sg (n : Bool) : ℚ := if n then -1 else 1
    let right (x : ℚ) (r : Nat × BitVec 5) : Prop := F.rightly v.md (decide (x < 0)) x r
    let zero (n : Bool) : Nat × BitVec 5 := (F.signBit n, 0)
    (fin a → fin b →
      right (val a + val b) (F.add v false a b) ∧ right (val a - val b) (F.add v true a b) ∧
      right (val a * val b) (F.mul v a b) ∧ (val b ≠ 0 → right (val a / val b) (F.div v a b)) ∧
      (val a + val b = 0 → F.add v false a b = zero (if F.signOf a = F.signOf b then F.signOf a else decide (v.md = .dn))) ∧
      (val a * val b = 0 → F.mul v a b = zero (F.signOf a != F.signOf b)) ∧
      (val a = 0 → val b ≠ 0 → F.div v a b = zero (F.signOf a != F.signOf b)) ∧
      (fin c → right (sg np * (val a * val b) + sg nc * val c) (F.fma v np nc a b c))) ∧
    (fin a → val a = 0 → F.sqrt v a = zero (F.signOf a)) ∧
    (fin a → 0 < val a →
      let r := F.sqrt v a
      F.finite r.1 = true ∧ 0 < F.val r.1 ∧ r.2.getLsbD 2 = false ∧ (r.2.getLsbD 0 = true ↔ F.val r.1 ^ 2 ≠ val a) ∧
      ∀ b, F.finite b = true → 0 ≤ F.val b →
        (v.md ∈ [Mode.tz, .dn] → F.val r.1 ^ 2 ≤ val a ∧ (F.val r.1 < F.val b → val a < F.val b ^ 2)) ∧
        (v.md = .up → val a ≤ F.val r.1 ^ 2 ∧ (F.val b < F.val r.1 → F.val b ^ 2 < val a)) ∧
        (v.md ∈ [Mode.ne, .na] → (F.val b < F.val r.1 → ((F.val b + F.val r.1) / 2) ^ 2 ≤ val a) ∧
          (F.val r.1 < F.val b → val a ≤ ((F.val b + F.val r.1) / 2) ^ 2)))) ∧
  (∀ (F : Fmt) (z mn : Bool) (cond : Cond) (a b : Nat), F ∈ [Fmt.f64, Fmt.f32, Fmt.f16, Fmt.bf16] →
    let x := F.flush z a
    let y := F.flush z b
    let nan (a : Nat) : Bool := (F.decode a).isNaN
    let sig : Bool := (F.decode x).isSig || (F.decode y).isSig
    let r := F.minMax z mn a b
    let c := F.compare cond z a b
    (F.finite x = true → F.finite y = true →
      r.2 = 0 ∧ (r.1 = x ∨ r.1 = y) ∧ (F.val x = F.val y → r.1 = if F.signOf x ≠ F.signOf y ∧ F.signOf x ≠ mn then y else x) ∧
      (if mn then F.val r.1 ≤ F.val x ∧ F.val r.1 ≤ F.val y else F.val x ≤ F.val r.1 ∧ F.val y ≤ F.val r.1) ∧
      c = (match cond with
        | .eq => decide (F.val x = F.val y) | .ne => decide (F.val x ≠ F.val y) | .lt => decide (F.val x < F.val y)
        | .le => decide (F.val x ≤ F.val y) | .gt => decide (F.val y < F.val x) | .ge => decide (F.val y ≤ F.val x)
        | .un => false | .ord => true, 0)) ∧
    (nan x = true → nan y = false → r = (y, if sig then fNV else 0)) ∧
    (nan x = false → nan y = true → r = (x, if sig then fNV else 0)) ∧
    (nan x = true ∨ nan y = true →
      c = (decide (cond = .ne ∨ cond = .un), if sig = true ∨ cond ∈ [Cond.lt, .le, .gt, .ge] then fNV else 0))) ∧
  (∀ (src dst : Ty) (v : FEnv) (a : Word), v.md ∈ [Mode.ne, .tz, .up, .dn, .na] → v.fzo = false →
    let fl := [Ty.f64, .f32, .f16, .bf16, .e5m2]
    let G := tyFmt src
    let r := convElem src dst v a
    let x : ℚ := if src.isInt then laneVal src a else G.val (G.flush v.fzi a.toNat)
    src.isInt = true ∨ ((src ∈ fl ∨ src = .e4m3) ∧ G.finite (G.flush v.fzi a.toNat) = true) →
    (dst ∈ fl → (tyFmt dst).rightly v.md (decide (x < 0)) x (r.1.toNat, r.2)) ∧
    (src.isInt = false → dst.isInt = true → ∃ k : Int,
      |k - x| < 1 ∧ (∀ n : Int, (n : ℚ) = x → k = n) ∧
      (match v.md with
        | .ne => |k - x| < 1 / 2 ∨ (|k - x| = 1 / 2 ∧ k % 2 = 0)
        | .na => |k - x| < 1 / 2 ∨ (|k - x| = 1 / 2 ∧ |x| < |(k : ℚ)|)
        | .tz => |(k : ℚ)| ≤ |x|
        | .up => x ≤ k
        | .dn => k ≤ x
        | _ => True) ∧
      (tyLo dst ≤ k → k ≤ tyHi dst → laneVal dst r.1 = k ∧ r.2 = if (k : ℚ) = x then 0 else fNX) ∧
      (k < tyLo dst → laneVal dst r.1 = tyLo dst ∧ r.2 = fNV) ∧ (tyHi dst < k → laneVal dst r.1 = tyHi dst ∧ r.2 = fNV)))

/-- 09 R243: with no NaN among the inputs, 0 × ∞, ∞ − ∞, 0 / 0, ∞ / ∞ and the root of a negative value give the default NaN and
raise NV; 09 R242: a finite non-zero value by a zero gives an infinity of the XOR of the signs and raises DZ. -/
def Obligations.InvalidOperations : Prop :=
  ∀ (F : Fmt) (v : FEnv) (n n' : Bool) (a : Nat), F ∈ [Fmt.f64, Fmt.f32, Fmt.f16, Fmt.bf16] →
    let inf (n : Bool) : Nat := F.signBit n + F.infBits
    let zero (n : Bool) : Nat := F.signBit n
    let bad : Nat × BitVec 5 := (F.infBits + 2 ^ (F.fb - 1), fNV)
    F.mul v (zero n) (inf n') = bad ∧ F.mul v (inf n) (zero n') = bad ∧
    F.add v false (inf n) (inf !n) = bad ∧ F.add v true (inf n) (inf n) = bad ∧
    F.div v (zero n) (zero n') = bad ∧ F.div v (inf n) (inf n') = bad ∧ F.sqrt v (inf true) = bad ∧
    F.fma v n n' (zero n) (inf n') a = (match F.decode (F.flush v.fzi a) with
      | .nan neg _ fr => (F.nanBits neg fr, fNV)
      | _ => bad) ∧
    (F.finite a = true → F.val a ≠ 0 → F.isSub a = false ∨ v.fzi = false →
      F.div v a (zero n) = (inf (F.signOf a != n), fDZ) ∧ (F.val a < 0 → F.sqrt v a = bad))

/-! ## Steps, fetch and traps (spec 01, 21) -/

/-- 01 R34, R14: the core that the schedule names executes the instruction that the bytes at its task's program counter decode to, with
the address after its words as the next one, unless a pinned line is due for publication (04 R130): one word where the base word asks for
no more, else three. What the step adds is the cycles of the agenda entry, at least one (log 4), and the state that the fetches leave (log
2). 01 R36, R37: a word of code is what memory holds at its final address, little-endian, where the translation permits execution, no
store has changed the line since the task started and nobody holds it; the fetch joins no read set. -/
def Obligations.StepRunsTheDecodedInstruction : Prop :=
  (∀ (s : State) (w c : Nat) (l : List (Nat × Action)) (t : Task) (i : Instr) (w0 x y : IWord) (s2 s3 s4 : State),
      duePin s = none → s.agenda = (w, .core c) :: l →
      let s1 : State := { ({ s with agenda := l }).passTime (max 1 w) with cur := c }
      s1.task? = some t → t.committing = false → t.tcyc < t.tbudget → t.jig = none →
      fetchWord t t.pc s1 = .ok w0 s2 →
      (decode (wordBytes w0) = .ok (i, []) →
        step s = exec i (s2.setTask { t with ir := w0, npc := t.pc + 4, fetched := true })) ∧
      (plan w0 = .ok 3 → fetchWord t (t.pc + 4) s2 = .ok x s3 → fetchWord t (t.pc + 8) s3 = .ok y s4 →
        decode (wordBytes w0 ++ wordBytes x ++ wordBytes y) = .ok (i, []) →
        step s = exec i (s4.setTask { t with ir := w0, npc := t.pc + 12, fetched := true }))) ∧
  (∀ (s s' : State) (t : Task) (va : VAddr) (x : Xlat), taskXlat t .fetch false (va.setWidth 64) s = .ok x s' →
      x.attr ≠ 2 → (∀ e ∈ t.icache, e.1 ≠ lineOf x.pa) →
      (∀ l ∈ s'.keys x.pa 4, (s'.line l).hold = .free ∧ s'.poisoned l = false) →
      fetchWord t va s =
        .ok (leWord (mget s'.mem x.pa) (mget s'.mem (x.pa + 1)) (mget s'.mem (x.pa + 2)) (mget s'.mem (x.pa + 3))) s')

/-- 21 R406, R407, 04 R122, R123: a trap of a task whose reads validate discards the task, parks its channel with the message still at its
head and this trap counted in it (16 R350), writes a record of KIND 0 and then sends the fault message with the record's SEQ to channel
63, or notifies the steward where the task ran on channel 63; one whose reads do not validate is an abort. Parking leaves every other
channel, the scratchpad, the flags and the time of the core as they were. -/
def Obligations.TakingATrap : Prop :=
  (∀ (s : State) (c : Nat) (k : Core) (t : Task) (f : Flt), s.core? c = some k → k.task = some t →
      (validates s t = false → takeTrap c f s = .ok () (s.abortTask c)) ∧
      (validates s t = true → ∀ (q ct : Nat) (s2 : State),
        let px := s.instCtx k.inst
        let r : Record := { kind := 0, cause := f.cause.code, detail := trapDetail t f, va := f.va, level := f.level,
                            who := { issuer k t 0 with pc := f.pc.getD t.pc } }
        writeRecord px.1 px.2 r t.ts (s.parkTrapped c t) = .ok (q, ct) s2 →
        takeTrap c f s = .ok () (if t.ch = 63 then { s2 with out := s2.out ++ [.note (.ch63 px.1 px.2 c)] }
          else s2.faultMsg c 0 f.cause.code q ct (childLin t.trig.lin.path (2 ^ 62 + (k.chan t.ch).headTraps))))) ∧
  (∀ (s : State) (c : Nat) (k : Core) (t : Task), s.core? c = some k → k.task = some t →
      ∃ k', (s.parkTrapped c t).core? c = some k' ∧ k'.task = none ∧
        (k'.chan t.ch).parked = true ∧ (k'.chan t.ch).aborts = 0 ∧
        (k'.chan t.ch).box = (k.chan t.ch).box.modify 0 (fun m => { m with traps := m.traps + 1 }) ∧ (k'.chan t.ch).ent = (k.chan t.ch).ent ∧
        (∀ ch, ch ≠ t.ch → k'.chan ch = k.chan ch) ∧ k'.spad = k.spad ∧ k'.sticky = k.sticky ∧ k'.pts = k.pts ∧
        (s.parkTrapped c t).mem = s.mem ∧ (∀ j, j ≠ c → (s.parkTrapped c t).core? j = s.core? j))

/-- 21 R409: a record is dropped where the queue is full: no SEQ is consumed, TAIL does not advance, LOST is incremented and saturates,
the device's counter of lost records counts it (24 R445), and SEQ reads 0; one that is written goes to FQBASE + 64 × (TAIL mod 2^LOG2SZ)
and TAIL advances. That the write is a privileged access of the context is the model's reading (log 27). -/
def Obligations.FaultQueue : Prop :=
  ∀ (s : State) (part ctx : Nat) (r : Record) (t : Nat) (x : Ctx), s.ctx? part ctx = some x →
    (x.fqtail - x.fqhead = 2 ^ x.fqlog → writeRecord part ctx r t s =
      .ok (0, t) ({ s with plat := { s.plat with lostRecords := s.plat.lostRecords + 1 } }.onCtx part ctx fun y =>
        { y with fqlost := min 4095 (y.fqlost + 1) })) ∧
    (x.fqtail - x.fqhead ≠ 2 ^ x.fqlog → ∀ (y : Xlat) (ct : Nat) (s1 s2 : State),
      engXlat part ctx true .store (x.fqbase.toNat + 64 * (x.fqtail % 2 ^ x.fqlog)) false 0 s = .ok y s1 → y.attr = 0 →
      engWriteX y ((r.bytes x.fqtail).map some) t s1 = .ok ct s2 →
      writeRecord part ctx r t s = .ok (x.fqtail, ct) (s2.onCtx part ctx fun z => { z with fqtail := z.fqtail + 1 }))

/-- 21 R428, R429, 01 R31, R32, R35: TRAP takes the trap SWTRAP with x[A][31:0] in its record, and an encoding that is no
instruction takes ILLOP with its base word; a task that is not privileged traps with PRIV on a privileged instruction, whatever its
operands. -/
def Obligations.InstructionTraps : Prop :=
  (∀ (s s' : State) (t : Task) (a : Reg) (w : IWord), s.task? = some t →
      (takeTrap s.cur { cause := .swtrap, detail := (t.rx a).setWidth 32 } s = .ok () s' → exec (.trap a) s = .next s') ∧
      (takeTrap s.cur { cause := .illop } (s.setTask { t with ir := w }) = .ok () s' → exec (.illop w) s = .next s') ∧
      trapDetail t { cause := .swtrap, detail := (t.rx a).setWidth 32 } =
        BitVec.ofNat 64 ((t.rx a).toNat % 2 ^ 32 + (match t.jig with | some j => j.k % 2 ^ 16 * 2 ^ 32 | none => 0)) ∧
      (t.jig = none → trapDetail { t with ir := w } { cause := .illop } = w.setWidth 64)) ∧
  (∀ (s : State) (t : Task) (d a b : Reg) (n : BitVec 12), s.task? = some t → t.priv = false →
      let p : Flt := { cause := .priv }
      traps (.htset a b) s p ∧ traps (.launch a b) s p ∧ traps .reseed s p ∧ traps (.wset a) s p ∧ traps (.tlbinv a) s p ∧
      traps .tlbinvCtx s p ∧ traps (.haltSusp a b) s p ∧ traps (.haltHalt a b) s p ∧ traps (.haltRes a b) s p ∧
      traps (.fltpop d) s p ∧ traps (.wrs a 0x021) s p ∧ traps (.wrs a 0x028) s p ∧
      (n ∈ [0x016#12, 0x022#12, 0x028#12, 0x029#12] → traps (.rds d n) s p))

/-! ## The scratchpad and the queue registers (spec 07) -/

/-- 07 R203: what SpadCheck answers: ADDR_ALIGN first, then SPAD_RANGE where no FRAME or PERS entry opens the offset to the
access, else the region's kind. DETAIL of SPAD_RANGE is the offset (21 Table 21.1). -/
def Obligations.LocalChecks : Prop :=
  ∀ (s : State) (k : Core) (m frame off n : Nat) (store : Bool),
    let bad (c : Cause) (d : Nat) : Stop := .flt { cause := c, detail := BitVec.ofNat 32 d, mem := m }
    (off % n ≠ 0 → spadCheck k m frame off n store s = .error (bad .addrAlign 0) s) ∧
    (off % n = 0 → (∀ g, k.regionAt off = some g → ¬ localOpen g frame off n store) →
      spadCheck k m frame off n store s = .error (bad .spadRange off) s) ∧
    (∀ g, off % n = 0 → k.regionAt off = some g → localOpen g frame off n store →
      spadCheck k m frame off n store s = .ok (if regKind g = 1 then .frame else .pers) s)

/-- 07 R204, R205, R212, R213, 10 R267: a local load that its check allows takes the bytes of the line as the task sees them, the
bytes it holds before those of the array, and writes them as LD, LDZ and VLD do; nothing else changes. A frame byte counts once
the task has written or read it; before that it is a free value (log 3). In a clamp every member's access is checked and the
leader's value is taken. -/
def Obligations.LocalLoads : Prop :=
  ∀ (s : State) (t : Task) (k : Core) (g : BitVec 64) (w : Width) (ty : Ty) (mask : SReg) (d : Reg) (m : MemOp),
    s.task? = some t → s.core? s.cur = some k →
    let off := t.off m
    let may (off n : Nat) : Prop := t.alone s.cur ∧ off % n = 0 ∧ k.regionAt off = some g ∧ localOpen g (frameSz s t) off n false ∧
      (k.sbLine off).poison = false
    let known (off n : Nat) : Prop := regKind g = 1 → ∀ i, i < n → (s.cur, off + i) ∈ t.frame
    let seen (off n : Nat) : List Byte := (spadView t s.cur k off n).map (·.1)
    let on := t.byteMask ty mask 0
    (may off w.bytes → known off w.bytes → writesX (.ldl w d m) s t d (sextBytes w.bytes (leNat (seen off w.bytes))) ∧
      writesX (.ldlz w d m) s t d (BitVec.ofNat 64 (leNat (seen off w.bytes)))) ∧
    (may (t.jigged m) 64 → known (t.jigged m) 64 → on.any id = true → becomes (.vldl ty mask d m) s
      (t.wv 0 d (bytesVec ((((seen (t.jigged m) 64).zip (vecBytes (t.rv 0 d))).zip on).map fun x => if x.2 then x.1.1 else x.1.2))).step) ∧
    (t.alone s.cur → on.any id = false → becomes (.vldl ty mask d m) s t.step) ∧
    (may off 64 → writesX (.ldsb d m) s t d
      ((sbView t s.cur k off).1.setWidth 64 + if (sbView t s.cur k off).2 then 0x100000000 else 0)) ∧
    (∀ (vals : List (List Byte)) (s1 : State) (t1 : Task), (membersOf s t).mapM (fun p =>
        localLoad p.1 p.2.1 p.2.2 off w.bytes) s = .ok vals s1 → s1.task? = some t1 →
      let v := leNat (vals.getD t.lead [])
      exec (.ldl w d m) s = .next (s1.setTask (t1.wx d (sextBytes w.bytes v)).step) ∧
      exec (.ldlz w d m) s = .next (s1.setTask (t1.wx d (BitVec.ofNat 64 v)).step)) ∧
    (∀ (s1 : State) (t1 : Task), (membersOf s t).forM (vldlMember t (t.jigged m) ty mask d) s = .ok () s1 → s1.task? = some t1 →
      exec (.vldl ty mask d m) s = .next (s1.setTask t1.step)) ∧
    (∀ (vals : List (BitVec 32 × Bool)) (s1 : State) (t1 : Task), (membersOf s t).mapM (ldsbMember s t off) s = .ok vals s1 →
      s1.task? = some t1 → let r := vals.getD t.lead (0, false)
      exec (.ldsb d m) s = .next (s1.setTask (t1.wx d (r.1.setWidth 64 + if r.2 then 0x100000000 else 0)).step))

/-- 07 R204, R205, R212, R213: a local store to FRAME changes the array at once, one to PERS joins the sluice and changes nothing else;
only the bytes of an enabled lane are stored. At the commit it writes aligned words whole (R206): a byte of them that it leaves out is
then as the task saw it when the store executed, and bytes of other words stand (the model's reading, log 107). In a clamp each member
stores to its own scratchpad. -/
def Obligations.LocalStores : Prop :=
  ∀ (s : State) (t : Task) (k : Core) (g : BitVec 64) (w : Width) (ty : Ty) (mask : SReg) (d : Reg) (m : MemOp),
    s.task? = some t → s.core? s.cur = some k →
    let may (off n kind : Nat) : Prop := t.alone s.cur ∧ off % n = 0 ∧ k.regionAt off = some g ∧ regKind g = kind ∧
      localOpen g (frameSz s t) off n true
    let room (e : Eff) : Prop := lineEntries (t.sluice ++ [e]) true s.cur ≤ 256
    let held (i : Instr) (e : Eff) : Prop := exec i s = .next (s.setTask { t with sluice := t.sluice ++ [e], pc := t.npc })
    let done (i : Instr) (off : Nat) (bs : List (Option Byte)) : Prop :=
      exec i s = .next ((s.setCore s.cur (k.spWrite off bs)).setTask { t with
        frame := t.frame ++ (bs.zipIdx.filter fun p => p.1.isSome).map fun p => (s.cur, off + p.2), pc := t.npc })
    let pers (off : Nat) (bs : List (Option Byte)) : Eff := .pers s.cur (off / 8 * 8) (padWords off bs)
      ((spadView t s.cur k (off / 8 * 8) (padWords off bs).length).map (·.1))
    let off := t.off m
    let bs : List (Option Byte) := (natBytes w.bytes (t.rx d).toNat).map some
    let on := t.byteMask ty mask 0
    let vs : List (Option Byte) := ((vecBytes (t.rv 0 d)).zip on).map fun x => if x.2 then some x.1 else none
    let sb : BitVec 32 := (t.rx d).setWidth 32
    let sbv := (t.rx d).getLsbD 32
    (may off w.bytes 2 → room (pers off bs) → held (.stl w d m) (pers off bs)) ∧
    (∀ (under : List Byte) (a : Nat), off % w.bytes = 0 → Memory.wf k.spad = true →
      mget (k.spCommit (off / 8 * 8) (padWords off bs) under).spad a =
        if off ≤ a ∧ a < off + w.bytes then BitVec.ofNat 8 ((t.rx d).toNat / 256 ^ (a - off))
        else if off / 8 = a / 8 then under.getD (a % 8) 0 else mget k.spad a) ∧
    (may off w.bytes 1 → done (.stl w d m) off bs) ∧
    (on.any id = true → may (t.jigged m) 64 2 → room (pers (t.jigged m) vs) →
      held (.vstl ty mask d m) (pers (t.jigged m) vs)) ∧
    (on.any id = true → may (t.jigged m) 64 1 → done (.vstl ty mask d m) (t.jigged m) vs) ∧
    (t.alone s.cur → on.any id = false → becomes (.vstl ty mask d m) s t.step) ∧
    (may off 64 2 → room (.persSb s.cur off sb sbv) → held (.stsb d m) (.persSb s.cur off sb sbv)) ∧
    (may off 64 1 → exec (.stsb d m) s =
      .next ((s.setCore s.cur (k.setSb off { k.sbLine off with sb, sbv })).setTask { t with pc := t.npc })) ∧
    (∀ (s1 : State) (t1 : Task), (membersOf s t).forM (fun p => localStore p.1 p.2.1 off w.bytes bs) s = .ok () s1 →
      s1.task? = some t1 → exec (.stl w d m) s = .next (s1.setTask t1.step)) ∧
    (∀ (s1 : State) (t1 : Task), (membersOf s t).forM (vstlMember t (t.jigged m) ty mask d) s = .ok () s1 →
      s1.task? = some t1 → exec (.vstl ty mask d m) s = .next (s1.setTask t1.step)) ∧
    (∀ (s1 : State) (t1 : Task), (membersOf s t).forM (stsbMember s t off sb sbv) s = .ok () s1 →
      s1.task? = some t1 → exec (.stsb d m) s = .next (s1.setTask t1.step)) ∧
    (∀ a, Memory.wf k.spad = true → mget (k.spWrite off bs).spad a =
      if off ≤ a ∧ a < off + w.bytes then BitVec.ofNat 8 ((t.rx d).toNat / 256 ^ (a - off)) else mget k.spad a)

/-- 07 R209: where a slot of the spill stack lies, and its traps, with SPTR unchanged; SPILL and SPILLV write the register to the
slot at SPTR and move SPTR up; FILL and FILLV move SPTR down and read the slot. -/
def Obligations.SpillAndFill : Prop :=
  (∀ (s : State) (t : Task) (k : Core) (d : Reg) (m sptr p n : Nat),
      let c := k.spillRegion.2
      let bad (c : Cause) (d : Nat) : Stop := .flt { cause := c, detail := BitVec.ofNat 32 d, mem := m }
      (p % n ≠ 0 → spillSlot k m sptr p n s = .error (bad .addrAlign 0) s) ∧
      (p % n = 0 → p + n ≤ c → spillSlot k m sptr p n s = .ok (.carve (k.spillRegion.1 + p)) s) ∧
      (p % n = 0 → c + k.ovfsize < p + n → spillSlot k m sptr p n s = .error (bad .spillFull sptr) s) ∧
      (p % n = 0 → c < p + n → p + n ≤ c + k.ovfsize →
        spillSlot k m sptr p n s = .ok (.over ((k.ovfb + BitVec.ofNat 64 (p - c)).setWidth 56)) s) ∧
      (s.task? = some t → t.sptr < 8 → traps (.fill d) s { cause := .spillEmpty, detail := BitVec.ofNat 32 t.sptr }) ∧
      (s.task? = some t → t.sptr < 64 → traps (.fillv d) s { cause := .spillEmpty, detail := BitVec.ofNat 32 t.sptr })) ∧
  (∀ (s s1 : State) (t t1 : Task) (k : Core) (d : Reg) (sl : Slot) (bs : List Byte),
      s.task? = some t → s1.task? = some t1 →
      (s.core? (leaderCore s t) = some k → spillSlot k t.lead t.sptr t.sptr 8 s = .ok sl s →
        slotWrite (leaderCore s t) k t.lead t.priv sl (wordBytes64 (t.rx d)) s = .ok () s1 →
        exec (.spill d) s = .next (s1.setTask { t1 with sptr := t1.sptr + 8, pc := t1.npc })) ∧
      (s.core? (leaderCore s t) = some k → 8 ≤ t.sptr → spillSlot k t.lead t.sptr (t.sptr - 8) 8 s = .ok sl s →
        slotRead k t.lead t.priv sl 8 s = .ok bs s1 →
        exec (.fill d) s = .next (s1.setTask { t1.wx d (leWord64 bs) with sptr := t1.sptr - 8, pc := t1.npc })) ∧
      ((membersOf s t).forM (spillvMember t d) s = .ok () s1 →
        exec (.spillv d) s = .next (s1.setTask { t1 with sptr := t1.sptr + 64, pc := t1.npc })) ∧
      (64 ≤ t.sptr → (membersOf s t).forM (fillvMember t d) s = .ok () s1 →
        exec (.fillv d) s = .next (s1.setTask { t1 with sptr := t1.sptr - 64, pc := t1.npc })) ∧
      (t.alone s.cur → s.core? s.cur = some k → spillSlot k 0 t.sptr t.sptr 64 s = .ok sl s →
        (membersOf s t).forM (spillvMember t d) s = slotWrite s.cur k 0 t.priv sl (vecBytes (t.rv 0 d)) s) ∧
      (t.alone s.cur → s.core? s.cur = some k → spillSlot k 0 t.sptr (t.sptr - 64) 64 s = .ok sl s →
        slotRead k 0 t.priv sl 64 s = .ok bs s1 →
        (membersOf s t).forM (fillvMember t d) s = .ok () (s1.setTask (t1.wv 0 d (bytesVec bs)))))

/-- 07 R209: what SPILL puts into the carve-out, a FILL that follows brings back, with SPTR where it was; the SPILL changes no
byte of the scratchpad but the eight of the slot. -/
def Obligations.FillReturnsTheSpill : Prop :=
  ∀ (s : State) (t : Task) (k : Core) (d e : Reg),
    s.task? = some t → s.core? s.cur = some k → t.alone s.cur → Memory.wf k.spad = true → t.sptr % 8 = 0 →
    t.sptr + 8 ≤ k.spillRegion.2 → (k.sbLine (k.spillRegion.1 + t.sptr)).poison = false →
    ∃ (s1 s2 : State) (k1 : Core) (t1 t2 : Task), exec (.spill d) s = .next s1 ∧ s1.core? s.cur = some k1 ∧
      s1.task? = some t1 ∧ t1.sptr = t.sptr + 8 ∧ s1.mem = s.mem ∧
      (∀ a, a < k.spillRegion.1 + t.sptr ∨ k.spillRegion.1 + t.sptr + 8 ≤ a → mget k1.spad a = mget k.spad a) ∧
      exec (.fill e) s1 = .next s2 ∧ s2.task? = some t2 ∧ t2.sptr = t.sptr ∧
      ∀ r, t2.rx r = if r = e ∧ e ≠ 31 then t.rx d else t.rx r

/-- 07 R215 to R218, 06 R189: the queue registers by what they are bound to: the payload, a feed, a culvert, or nothing. That the 16
pushes of a task are counted by feed, not by queue register, is the model's choice (log 38). -/
def Obligations.QueueRegisters : Prop :=
  ∀ (s : State) (t : Task) (k : Core) (d : Reg) (a : SReg) (b : Reg), s.task? = some t → s.core? s.cur = some k →
    let w (n : Nat) : Word := BitVec.ofNat 64 n
    let trap (i : Instr) (c : Cause) : Prop := traps i s { cause := c, detail := a.setWidth 32 }
    (qbind k t a = .payload →
      (t.q0 = [] → trap (.qpop d a) .qEmpty ∧ trap (.qpeek d a) .qEmpty) ∧
      (∀ (h : Word) (l : List Word), t.q0 = h :: l → writesX (.qpeek d a) s t d h ∧
        becomes (.qpop d a) s { t.wx d h with q0 := l, pc := t.npc }) ∧
      writesX (.qcnt d a) s t d (w t.q0.length) ∧ trap (.qpush a b) .qBind) ∧
    (∀ f, qbind k t a = .feed f →
      (pushesTo t f < 16 → becomes (.qpush a b) s { t with sluice := t.sluice ++ [.qpush f (t.rx b)], pc := t.npc }) ∧
      (16 ≤ pushesTo t f → trap (.qpush a b) .qOver) ∧
      writesX (.qcnt d a) s t d (w (16 - pushesTo t f)) ∧ trap (.qpop d a) .qBind ∧ trap (.qpeek d a) .qBind) ∧
    (∀ n, qbind k t a = .culv n →
      let cv := k.culvert n
      let h := leWord64 (mread k.spad (k.ringOff n cv.head) 8)
      (cv.filled = 0 → trap (.qpop d a) .qEmpty ∧ trap (.qpeek d a) .qEmpty) ∧
      (cv.filled ≠ 0 → writesX (.qpeek d a) s t d h ∧
        exec (.qpop d a) s = .next ((s.setCore s.cur (k.setCulvert n { cv with
          head := (cv.head + 1) % cv.depth, filled := cv.filled - 1, held := cv.held + 1 })).setTask
            { t.wx d h with pops := tput t.pops n (tget t.pops n 0 + 1), pc := t.npc })) ∧
      (s.det = false → writesX (.qcnt d a) s t d (w cv.filled)) ∧
      (s.det = true → traps (.qcnt d a) s { cause := .detOp }) ∧ trap (.qpush a b) .qBind ∧
      becomes (.cvrel a b) s { t with sluice := t.sluice ++ [.cvrel n (t.rx b).toNat], pc := t.npc }) ∧
    (qbind k t a = .unbound → trap (.qpop d a) .qBind ∧ trap (.qpeek d a) .qBind ∧ trap (.qcnt d a) .qBind ∧ trap (.qpush a b) .qBind) ∧
    ((∀ n, qbind k t a ≠ .culv n) → traps (.cvrel a b) s { cause := .culvBad }) ∧
    (s.det = false → writesX (.cvstat d b) s t d (k.culvert (fld (t.rx b) 3 0)).word) ∧
    (s.det = true → traps (.cvstat d b) s { cause := .detOp })

/-! ## Global memory (spec 02, 04, 05) -/

/-- 02 R61, R67: a translation changes no byte of memory but those of the lead page-table entry of the translation that it gives, in
which it may set bit A; one that a cache still gives changes none, and one that faults changes none. Registers, read sets and
sluices stay as they were. Whether a cache still holds what a walk would no longer find is a free value of the model (log 10). -/
def Obligations.TranslationSetsOnlyA : Prop :=
  ∀ (s s0 : State) (t : Task) (k : AccKind) (peer : Bool) (va : Word), s.task? = some t → Memory.wf s.mem = true →
    (∀ x, taskXlat t k peer va s = .ok x s0 →
      (∃ t0, s0.task? = some t0 ∧ t0 = { t with icache := t0.icache }) ∧ s0.cur = s.cur ∧ s0.insts = s.insts ∧ s0.ctxs = s.ctxs ∧
      (∀ a, a < x.lead ∨ x.lead + 8 ≤ a → mget s0.mem a = mget s.mem a) ∧
      (s0.mem = s.mem ∨ leNat (mread s0.mem x.lead 8) = leNat (mread s.mem x.lead 8) ||| 2 ^ 6)) ∧
    (∀ e, taskXlat t k peer va s = .error e s0 → s0.mem = s.mem ∧ s0.task? = some t) ∧
    (∀ (c : Core) (e : TlbEnt), s.core? s.cur = some c →
      let px := s.instCtx c.inst
      let v : VAddr := va.setWidth 56
      ((tlbFind s (tlbKeys s s.cur).1 px.1 px.2 v).orElse fun _ => tlbFind s (tlbKeys s s.cur).2 px.1 px.2 v) = some e →
      accessCheck s.plat e t.priv k peer (e.xlat v).pa = none →
      walkAgrees px.1 px.2 t.priv k peer (e.xlat v) s = true ∨ Config.freeBool s.freeCnt = true →
      ∃ s1, taskXlat t k peer va s = .ok (e.xlat v) s1 ∧ s1.mem = s.mem ∧ s1.lines = s.lines)

/-- 04 R114, R115, R131, 05 R149, R164, 19 R385: a load of one line outside every host-bias and device page. A line in the read set is
read from its record. For a new one the request waits at the port of its slice until a slot of the port is its own; a line that nobody
holds is then leased: at its home its rts rises to the end of the lease, at a replica that serves the lease it stands; the record joins
the read set. One that the core has pinned is recorded with neither request nor lease, and one of which the task's own sluice holds every
wanted byte is leased without a request; one that another core has pinned answers with retry; bytes that the task holds in its sluice go
before. The wait at the port and its slot are the model's (log 100), and which pinned lines leave the L1 for a new one is its free choice
(log 87). -/
def Obligations.LeasesAndReads : Prop :=
  ∀ (s s0 s2 : State) (t t0 : Task) (va : Word) (n l : Nat) (x : Xlat),
    s.task? = some t → s0.task? = some t0 → t0 = { t with icache := t0.icache } → taskXlat t .load false va s = .ok x s0 →
    x.attr ≠ 2 → x.toHost s0 = false → s0.keys x.pa n = [l] →
    let read := readGlobal va n (List.range n) s
    let y := s0.line l
    let seen (e : ReadEnt) : List Byte := (List.range n).map fun i => (forwarded t (x.pa + i)).getD (recorded s0 [e] (x.pa + i))
    let e (r : Option Nat) : ReadEnt :=
      { line := l, wts := y.wts, r, data := bytesVec (mread s0.mem l 64), sb := (sideband s0 l).getD 0 }
    let r0 := max t.ts y.wts + s0.leaseLen
    let r := max y.rts r0
    let near : Prop := t.locked = false ∧ s0.replicaServes (s0.dieOf s0.cur) l r0 = true
    let joins (s1 : State) (e : ReadEnt) : State := s1.onCore s0.cur fun k => { k with task := k.task.map fun t1 =>
      { t1 with reads := t1.reads ++ [e] } }
    let req : LineReq := { slice := s0.servingSlice s0.cur l t.ts, core := s0.cur, line := l, ts := t.ts }
    let sent := (s0.sendReq req).sendAhead s0.cur t0
    let hit : Prop := ∀ i, i < n → (forwarded t (x.pa + i)).isSome = true
    let own : Hold := .pinned (s0.pid s0.cur)
    let takes (s2 : State) : Prop :=
      (y.hold = .free → ¬ near → read = .ok (seen (e (some r)))
        (joins (({ s2.setLine l { y with rts := r, hold := if t.locked then .locked s0.cur else .free } with
          grants := tput s2.grants l (tget s2.grants l 0 + 1) } : State).evictPins s0.cur l) (e (some r)))) ∧
      (y.hold = .free → near → read = .ok (seen (e (some r0))) (joins (s2.evictPins s0.cur l) (e (some r0)))) ∧
      (∀ c, .pinned c ≠ own → y.hold = .pinned c → read = .error .retry s2)
    (∀ e, t.reads.find? (fun e => e.line == l) = some e → read = .ok (seen e) s0) ∧
    (t.reads.find? (fun e => e.line == l) = none →
      (512 ≤ t.reads.length → read = .error (.flt { cause := .rsetFull }) s0) ∧
      (t.reads.length < 512 → y.hold ≠ own → ¬ hit →
        (sent.portBusy req.slice = true ∨ sent.portSlot req.slice = none → read = .error .queued sent) ∧
        (∀ w, sent.portBusy req.slice = false → sent.portSlot req.slice = some (w, s2) → w ≠ req → read = .error .queued (s2.serve w))) ∧
      (t.reads.length < 512 → s0.poisoned l = false →
        (y.hold = own → read = .ok (seen (e none)) (joins s0 (e none))) ∧
        (hit → takes s0) ∧
        (¬ hit → sent.portBusy req.slice = false → sent.portSlot req.slice = some (req, s2) → takes s2)))

/-- 05 R143, R144, R149, R151, R152, R160: LD, LDZ and VLD write what ReadGlobal gives of their effective address, a lane that is off
keeps its value and asks for no line, and a misaligned address traps first; an acquire at host scope or wider orders the host-bias loads
that follow (04 R132: log 80); PREF changes nothing; LDV reads a line that nobody holds, at its committed value, with no lease and no
record, and gives the token of its wts; in a DET launch it traps. The model's readings: the token is an opaque function (log 12), a
misaligned access reports VA 0 (log 22), LDV writes the leader's part (log 33), and DET is checked before the operands (log 40). -/
def Obligations.GlobalLoads : Prop :=
  (∀ (s s1 : State) (t t1 : Task) (w : Width) (ty : Ty) (acq : Option Scope) (mask : SReg) (d : Reg) (m : MemOp) (bs : List Byte)
      (k : Nat) (hint : Bool), s.task? = some t → s1.task? = some t1 →
      let ea := t.ea m
      let on := t.byteMask ty mask k
      (ea.toNat % w.bytes = 0 → readGlobal ea w.bytes (List.range w.bytes) s = .ok bs s1 →
        exec (.ld w acq d m) s = .next (s1.setTask ((t1.wx d (sextBytes w.bytes (leNat bs))).acquire acq).step) ∧
        exec (.ldz w acq d m) s = .next (s1.setTask ((t1.wx d (BitVec.ofNat 64 (leNat bs))).acquire acq).step)) ∧
      (ea.toNat % w.bytes ≠ 0 → traps (.ld w acq d m) s { cause := .addrAlign } ∧ traps (.ldz w acq d m) s { cause := .addrAlign }) ∧
      ((List.range t.width).forM (vldMember t ea ty mask d) s = .ok () s1 →
        exec (.vld ty acq mask d m) s = .next (s1.setTask (t1.acquire acq).step)) ∧
      (on.any id = false → vldMember t ea ty mask d k s = .ok () s) ∧
      (on.any id = true → ea.toNat % 64 ≠ 0 → vldMember t ea ty mask d k s = .error (.flt { cause := .addrAlign }) s) ∧
      (on.any id = true → ea.toNat % 64 = 0 →
        readGlobal (ea + BitVec.ofNat 64 (64 * k)) 64 ((List.range 64).filter fun i => on.getD i false) s = .ok bs s1 →
        vldMember t ea ty mask d k s = .ok () (s1.setTask (t1.wv k d
          (bytesVec (((bs.zip (vecBytes (t.rv k d))).zip on).map fun x => if x.2 then x.1.1 else x.1.2))))) ∧
      becomes (.pref hint m) s t.step) ∧
  (∀ (s s0 : State) (t t0 : Task) (d c : Reg) (m : MemOp) (x : Xlat) (l : Nat), s.task? = some t →
      let ea := t.ea m
      (s.det = true → traps (.ldv d c m) s { cause := .detOp }) ∧
      (s.det = false → ea.toNat % 64 ≠ 0 → traps (.ldv d c m) s { cause := .addrAlign }) ∧
      (s.det = false → ea.toNat % 64 = 0 → taskXlat t .load false ea s = .ok x s0 → s0.task? = some t0 →
        t0 = { t with icache := t0.icache } → x.attr = 0 → s0.keys x.pa 64 = [l] → (s0.line l).hold = .free →
        s0.poisoned l = false → exec (.ldv d c m) s = .next (s0.setTask
          ((t0.wv t.lead d (bytesVec (mread s0.mem x.pa 64))).wx c
            (Config.verTok s0.plat.tokKey (BitVec.ofNat 64 (s0.line l).wts))).step)))

/-- 05 R153, R159, R161, R162, 13 R305, R306, R315: ST, VST, CSTORE4, FENCE and PUBL join the sluice, where it has room, and change no
memory; a DET task folds what it stores. The model's readings: a misaligned access reports VA 0 (log 22), when a PUBL takes an entry (log
29), what a clamp's members store (log 33), and the order in which their words are folded (log 35). -/
def Obligations.GlobalStores : Prop :=
  ∀ (s s0 : State) (t t0 : Task) (w : Width) (ty : Ty) (rel : Option Scope) (ar : AcqRel) (mask : SReg) (sel : BitVec 4)
    (d a b c : Reg) (imm : BitVec 32) (m : MemOp) (x : Xlat) (k : Nat),
    s.task? = some t → s0.task? = some t0 → t0 = { t with icache := t0.icache } → s0.cur = s.cur → s0.det = s.det →
    let ea := t.ea m
    let ei := t.eaImm a imm
    let solo := x.attr == 2 || x.toHost s0
    let may : Prop := x.attr = 2 → t.priv = true
    let room (e : Eff) : Prop := lineEntries (t.sluice ++ [e]) true s.cur ≤ 256
    let bs := natBytes w.bytes (t.rx d).toNat
    let e : Eff := .store x solo (bs.map some) rel
    let on := t.byteMask ty mask k
    let vs := (vecBytes (t.rv k d)).zip on
    let ve : Eff := .store x solo (vs.map fun x => if x.2 then some x.1 else none) rel
    let words (va : Word) : List Word := digestMark 1 va :: bytesWords 8 (vs.map fun x => if x.2 then x.1 else 0) ++
      [BitVec.ofNat 64 ((List.range (64 / ty.bytes)).map fun i => if t.on mask k i then 2 ^ i else 0).sum]
    let c4 : Eff := .cst x sel ((List.range 4).map fun i => if sel.getLsbD i then t.rv t.lead (b + BitVec.ofNat 5 i) else 0)
      ((List.range 4).map fun i => if sel.getLsbD i then t.rx (c + BitVec.ofNat 5 i) else 0) ((t.rx d).setWidth 6) t.qn t.pc
    (ea.toNat % w.bytes ≠ 0 → traps (.st w rel d m) s { cause := .addrAlign }) ∧
    (ea.toNat % w.bytes = 0 → taskXlat t .store false ea s = .ok x s0 →
      (¬ may → exec (.st w rel d m) s = .next (s.stopped s0 s.cur (.flt { cause := .perm, va := x.va.setWidth 64, level := x.lvl }))) ∧
      (may → room e → exec (.st w rel d m) s = .next (s0.setTask (t0.issuing s.det [e] 0 [digestMark 1 ea, BitVec.ofNat 64 (leNat bs)]))) ∧
      (may → ¬ room e → exec (.st w rel d m) s = .next (s.stopped s0 s.cur (.flt { cause := .sluiceFull })))) ∧
    (∀ (s1 : State) (t1 : Task), (List.range t.width).forM (vstMember t ea ty rel mask d) s = .ok () s1 → s1.task? = some t1 →
      exec (.vst ty rel mask d m) s = .next (s1.setTask t1.step)) ∧
    (on.any id = true → ea.toNat % 64 = 0 → taskXlat t .store false (memberEA ea k) s = .ok x s0 → may → room ve →
      vstMember t ea ty rel mask d k s = .ok () (s0.setTask { t0.issuing s.det [ve] 0 (words (memberEA ea k)) with pc := t.pc })) ∧
    (on.any id = false → vstMember t ea ty rel mask d k s =
      .ok () (if s.det then s.setTask { t.issuing true [] 0 (words (memberEA ea k)) with pc := t.pc } else s)) ∧
    (s.det = false → ei.toNat % 256 = 0 → taskXlat t .atomic false ei s = .ok x s0 → x.attr ≠ 2 → room c4 →
      exec (.cstore4 sel d a b c imm) s = .next (s0.setTask (t0.issuing false [c4] 1 []))) ∧
    (s.det = true → traps (.cstore4 sel d a b c imm) s { cause := .detOp }) ∧
    exec (.fence ar) s =
      .next (s.setTask ((t.issuing s.det [.fence ar] 0 []).acquire (if ar.acq then some ar.scope else none))) ∧
    (taskXlat t .load false ei s = .ok x s0 → may → room (.publ x) →
      exec (.publ a imm) s = .next (s0.setTask { t0 with sluice := t.sluice ++ [.publ x], pc := t.npc }))

/-- 05 R154, R155, Table 5.2, 13 R315: an atomic is captured with its operands and held until commit; one that replies takes an effect
number; what DET forbids traps; what it leaves in memory, by operation. The model's readings: a misaligned access reports VA 0 (log 22),
and the order of the checks (log 40). -/
def Obligations.Atomics : Prop :=
  (∀ (s s0 : State) (t t0 : Task) (ty : Ty) (rpl rn : Bool) (ar : AcqRel) (d a b c : Reg) (imm : BitVec 32) (x : Xlat),
      s.task? = some t → s0.task? = some t0 → t0 = { t with icache := t0.icache } → s0.cur = s.cur → s0.det = s.det →
      let ea := t.eaImm a imm
      let float := ty = .f32 ∨ ty = .f64
      let e (op : AmoOp) (c : Reg) : Eff :=
        .amo x op ty (t.rx b) (t.rx c) (if rpl then some ((t.rx d).setWidth 6) else none) ar ea t.qn t.pc
      let holds (op : AmoOp) (c : Reg) (ws : List Word) (i : Instr) : Prop :=
        ea.toNat % ty.bytes = 0 → taskXlat t .atomic true ea s = .ok x s0 → x.attr ≠ 2 →
          lineEntries (t.sluice ++ [e op c]) true s.cur ≤ 256 →
          exec i s = .next (s0.setTask (t0.issuing s.det [e op c] (if rpl then 1 else 0)
            ([digestMark 2 ea, BitVec.ofNat 64 (amoCode op * 32 + ty.code.toNat), t.rx b] ++ ws)))
      (s.det = false ∨ (¬ float ∧ rpl = false) →
        holds .add 31 [] (.amoadd ty rpl rn ar d a b imm) ∧ holds .and 31 [] (.amoand ty rpl ar d a b imm) ∧
        holds .or 31 [] (.amoor ty rpl ar d a b imm) ∧ holds .xor 31 [] (.amoxor ty rpl ar d a b imm) ∧
        holds .min 31 [] (.amomin ty rpl ar d a b imm) ∧ holds .max 31 [] (.amomax ty rpl ar d a b imm)) ∧
      (s.det = false →
        holds .swp 31 [] (.amoswp ty rpl ar d a b imm) ∧ holds .cas c [t.rx c] (.amocas ty rpl ar d a b c imm)) ∧
      (s.det = true → (float ∨ rpl = true → traps (.amoadd ty rpl rn ar d a b imm) s { cause := .detOp }) ∧
        traps (.amoswp ty rpl ar d a b imm) s { cause := .detOp } ∧ traps (.amocas ty rpl ar d a b c imm) s { cause := .detOp }) ∧
      (s.det = false → ea.toNat % ty.bytes ≠ 0 → traps (.amoadd ty rpl rn ar d a b imm) s { cause := .addrAlign })) ∧
  (∀ (ty : Ty) (old b c : Nat), ty ∈ [Ty.i32, .i64, .n32, .n64] → old < 2 ^ tyBits ty → b < 2 ^ tyBits ty → c < 2 ^ tyBits ty →
      let v (n : Nat) : Int := if ty.signed then (if 2 ^ (tyBits ty - 1) ≤ n then (n : Int) - 2 ^ tyBits ty else n) else n
      amoNew .add ty old b c = (old + b) % 2 ^ tyBits ty ∧ amoNew .and ty old b c = old &&& b ∧ amoNew .or ty old b c = old ||| b ∧
      amoNew .xor ty old b c = old ^^^ b ∧ v (amoNew .min ty old b c) = min (v old) (v b) ∧
      v (amoNew .max ty old b c) = max (v old) (v b) ∧ amoNew .swp ty old b c = b ∧
      amoNew .cas ty old b c = if old = b then c else old)

/-! ## Commands, messages and the spawn of work (spec 06, 11, 12, 14, 16) -/

/-- 06 R166, R167, R175, R178, R179, R183, R184, R194, R196, 13 R315: a copy-engine command whose descriptor is right takes a credit of
the row engine, a message entry and an effect number and is held; REDC that rounds stochastically counts once (03 R91); a wrong
descriptor traps BAD_DESC. MON holds a monitor on an aligned word of cached memory, at most 16 to a core; MONX holds the cancel. The
model's readings: a misaligned access reports VA 0 (log 22), when REDC counts (log 32), whose descriptor a clamp reads (log 33), and
which flush bits hold (log 52). -/
def Obligations.CopyCommands : Prop :=
  (∀ (s : State) (t : Task) (k : Core) (i : Inst) (ar : AcqRel) (op : BitVec 3) (ty : Ty) (rm : RM) (fzi fzo : Bool)
      (d a b c : Reg) (imm : BitVec 32), s.task? = some t → s.core? s.cur = some k → s.inst? k.inst = some i →
      let desc := t.rv t.lead b
      let room : Prop := k.creds ≠ 0 ∧ msgEntries t.sluice < 32
      let cmd (kind : CKind) (desc : BitVec 512) : Eff := .copy {
        id := 0, kind, desc, ar, inst := k.inst, core := s.cur, row := k.row, priv := t.priv, who := issuer k t t.qn }
      let after (kind : CKind) (desc : BitVec 512) (ws : List Word) : Task := t.issuing i.det [cmd kind desc] 1 ws
      let charged : State := s.withCore { k with creds := k.creds - 1 }
      let good (gs : Bool) : Bool := descOk gs i.nvc (s.depth i.id) desc
      let float : Bool := [Ty.f16, .bf16, .f32, .f64].contains ty
      let ea := t.eaImm a imm
      let len := (t.rx c).toNat
      let bad : Flt := { cause := .badDesc }
      (good false = false → traps (.copy ar b) s bad) ∧
      (good true = false → traps (.copyGath ar b) s bad ∧ traps (.copyScat ar b) s bad) ∧
      (good false = true → room → exec (.copy ar b) s =
        .next (charged.setTask (after (.copy 0) desc (cmdMark 0x22 0 0 :: vecWords desc)))) ∧
      (good true = true → room →
        exec (.copyGath ar b) s = .next (charged.setTask (after (.copy 1) desc (cmdMark 0x22 0 1 :: vecWords desc))) ∧
        exec (.copyScat ar b) s = .next (charged.setTask (after (.copy 2) desc (cmdMark 0x22 0 2 :: vecWords desc)))) ∧
      (good false = true → k.creds = 0 → traps (.copy ar b) s { cause := .engqFull }) ∧
      (good false = true → redcOk ty.bytes desc = true → (float = true → i.det = false) → room →
        exec (.redc op ty rm fzi fzo ar b) s = .next (charged.setTask
          { after (.redc op ty (if rm = .dflt then t.fstat.drm else rm) (float && (fzi || t.fstat.dfzi))
              (float && (fzo || t.fstat.dfzo)) t.sn) desc (cmdMark 0x22 1 op.toNat :: vecWords desc) with
            sn := t.sn + if float = true ∧ op = 0 ∧ t.mode rm = .st then 1 else 0 })) ∧
      (float = true → i.det = true → traps (.redc op ty rm fzi fzo ar b) s { cause := .detOp }) ∧
      (ea.toNat % 64 = 0 → (t.rx b).toNat % 64 = 0 → len % 64 = 0 → 64 ≤ len → len ≤ 65536 → room →
        exec (.rdb ar d a b c imm) s = .next (charged.setTask (after (.rdb ea (t.rx b).toNat len ((t.rx d).setWidth 6)) 0
          [cmdMark 0x22 2 0, t.rx d, t.rx a, t.rx b, t.rx c]))) ∧
      (¬ (ea.toNat % 64 = 0 ∧ (t.rx b).toNat % 64 = 0 ∧ len % 64 = 0 ∧ 64 ≤ len ∧ len ≤ 65536) →
        traps (.rdb ar d a b c imm) s bad) ∧
      (msgEntries t.sluice < 32 → issues (.cres a) s t [.cres (t.rx a) t.qn] 1 [cmdMark 0x22 3 0, t.rx a] ∧
        issues (.cdrop a) s t [.cdrop (t.rx a) t.qn] 1 [cmdMark 0x22 4 0, t.rx a])) ∧
  (∀ (s s0 : State) (t t0 : Task) (d a b : Reg) (imm : BitVec 32) (x : Xlat),
      s.task? = some t → s0.task? = some t0 → t0 = { t with icache := t0.icache } →
      let ea := t.eaImm a imm
      (ea.toNat % 8 ≠ 0 → traps (.mon d a b imm) s { cause := .addrAlign }) ∧
      (ea.toNat % 8 = 0 → taskXlat t .load false ea s = .ok x s0 → x.attr ≠ 2 → x.toHost s0 = false →
        (monCount s0 s0.cur t < 16 → exec (.mon d a b imm) s = .next (s0.setTask { t0 with
          sluice := t.sluice ++ [.mon x ea ((t.rx d).setWidth 6) (t.rx b) t.qn], qn := t.qn + 1, pc := t.npc })) ∧
        (16 ≤ monCount s0 s0.cur t → exec (.mon d a b imm) s = .next (s.stopped s0 s.cur (.flt { cause := .monFull })))) ∧
      issues (.monx d) s t [.monx ((t.rx d).setWidth 6)] 0 [])

/-- 11 R280 to R282, R288 to R292, 12 R300 to R303, 13 R315: a matrix or ensemble command of a bench that has the unit, with operands
that its rule allows, takes a credit, a message entry and an effect number and is held with its operands; wrong operands trap BAD_MXCMD,
an absent unit MX_ABSENT, no credit MXQ_FULL. The model's readings: when a command counts (log 32), whose descriptor a clamp reads (log
33), the order of the checks (log 40), what is folded and which flush bits hold (log 52). -/
def Obligations.MatrixCommands : Prop :=
  ∀ (s : State) (t : Task) (k : Core) (bs v : BitVec 2) (ty : Ty) (rm : RM) (fzi fzo mean : Bool) (d a b c e : Reg)
    (n0 : BitVec 8) (cnt : BitVec 9), s.task? = some t → s.core? s.cur = some k →
    let has : Prop := hasUnit s k = true
    let holds (i : Instr) (ok : Prop) (cmd : MxCmd) (ws : List Word) (sn : Nat) : Prop :=
      (¬ has → traps i s { cause := .mxAbsent }) ∧
      (has → ¬ (ok ∧ compOk (t.rx c) = true) → traps i s { cause := .badMxcmd }) ∧
      (has → ok → compOk (t.rx c) = true → k.mxcreds = 0 → traps i s { cause := .mxqFull }) ∧
      (has → ok → compOk (t.rx c) = true → k.mxcreds ≠ 0 → msgEntries t.sluice < 32 →
        exec i s = .next ((s.withCore { k with mxcreds := k.mxcreds - 1 }).setTask
          { t.issuing s.det [.mx { cmd with comp := t.rx c, inst := k.inst, core := s.cur, who := issuer k t t.qn, n := t.sn }] 1 ws
            with sn := t.sn + sn }))
    let al (r : Reg) : Prop := (t.rx r).toNat % 64 = 0
    let low (r : Reg) : Prop := fld (t.rx r) 15 0 = 0
    let m := (t.rx b).toNat
    let rnd := if rm = .dflt then t.fstat.drm else rm
    let st := if t.mode rm = .st then 1 else 0
    let mm (kind : MxKind) (fn : Nat) (ew : Word) : MxCmd := {
      kind, bs, ty, rm := rnd, fzi := fzi || t.fstat.dfzi, fzo := fzo || t.fstat.dfzo, d := t.rx d, a := t.rx a, b := t.rx b, e := ew, fn }
    let ws (fn : Nat) : List Word := [cmdMark 0x24 fn bs.toNat, t.rx d, t.rx a, t.rx b, t.rx c]
    let desc := t.rv t.lead b
    holds (.mma bs ty rm fzi fzo d a b c) (al d ∧ al a ∧ 1 ≤ m ∧ m ≤ 256) (mm (.mma false) 0 0) (ws 0) st ∧
    holds (.mmaz bs ty rm fzi fzo d a b c) (al d ∧ al a ∧ 1 ≤ m ∧ m ≤ 256) (mm (.mma true) 1 0) (ws 1) st ∧
    holds (.mmag bs ty rm fzi fzo d a b c e) (al d ∧ al a ∧ al e ∧ 1 ≤ m ∧ m ≤ 256) (mm .mmag 2 (t.rx e)) (ws 2 ++ [t.rx e]) st ∧
    holds (.bld bs ty fzi a c) (al a) { kind := .bld, bs, ty, fzi := fzi || t.fstat.dfzi, a := t.rx a, fn := 3 }
      [cmdMark 0x24 3 bs.toNat, t.rx a, t.rx c] 0 ∧
    holds (.bfree bs c) True { kind := .bfree, bs, fn := 4 } [cmdMark 0x24 4 bs.toNat, t.rx c] 0 ∧
    holds (.route b c) (routeOk desc = true) { kind := .route, desc, fn := 5 } (cmdMark 0x24 5 0 :: vecWords desc) 0 ∧
    holds (.mlbe bs mean d a c e) (al a ∧ low e)
      { kind := .mlbe mean, bs, ty := .mld, d := t.rx d, d1 := t.rx (d + 1), a := t.rx a, e := t.rx e, fn := 0 }
      [cmdMark 0x25 0 (bs.toNat + if mean then 4 else 0), t.rx d, t.rx (d + 1), t.rx a, t.rx c, t.rx e] 0 ∧
    holds (.noise v d a b c e n0 cnt) ((v = 0 ∨ al a) ∧ al b ∧ low e)
      { kind := .noise v n0.toNat cnt.toNat, ty := .mld, d := t.rx d, d1 := t.rx (d + 1), a := t.rx a, b := t.rx b, e := t.rx e, fn := 1 }
      ([cmdMark 0x25 1 v.toNat, t.rx d, t.rx (d + 1)] ++ (if v = 0 then [] else [t.rx a]) ++ [t.rx b, t.rx c, t.rx e]) 0

/-- 14 R335, R336, 16 R353, R354, 21 R429, 13 R315: SEND, SENDD, SENDV, REPLY, FORK and SYSC hold a message with the header and the
payload that the rule names, where the send queue and the sluice have room; a header that SendExec refuses traps BAD_MSG. The model's
readings: the leader sends, with its own part (log 33), the order of the checks (log 40), REPLY builds its header from x0 as it is (log
45), the header and lineage of SYSC and FORK (log 46). -/
def Obligations.Sends : Prop :=
  ∀ (s : State) (t : Task) (k : Core) (i : Inst) (rel : Option Scope) (a b c : Reg),
    s.task? = some t → s.core? s.cur = some k → s.inst? k.inst = some i →
    let h := t.rx a
    let r := replyHeader h (t.rx 0) t.trig
    let net (h : Word) : Nat := network (hdrCls h)
    let room (h : Word) : Prop := sqUsed s s.cur t.sluice (net h) + 1 ≤ k.sqd.getD (net h) 0 ∧ msgEntries t.sluice < 32
    let pkg (h : Word) : Nat := if hdrPkg h = 0x1FF then s.plat.pkgId else hdrPkg h
    let good (h : Word) (fork vec : Bool) (delay : Nat) : Prop :=
      hdrCls h ≠ 7 ∧ (fork = true → hdrCls h < 4) ∧ ¬ (hdrHb h = true ∧ hdrCnt h = 0) ∧ pkg h ≤ 287 ∧
      (pkg h = s.plat.pkgId → (fork = true ∧ hdrCore h = 0xFFF) ∨ hdrCore h < i.nvc) ∧
      (pkg h ≠ s.plat.pkgId → i.memberOn (pkg h) = true) ∧ (vec = false → b = 31 ∨ b.toNat + hdrCnt h ≤ 31) ∧ delay ≤ 2 ^ 20
    let bad (i : Instr) : Prop := traps i s { cause := .badMsg }
    let sent (i : Instr) (h : Word) (pay : List Word) (delay : Nat) (rel : Option Scope) (jref : Word) (place : Bool) (mark : Word) : Prop :=
      issues i s t [.send h pay delay rel jref place t.qn] 1 (sendMark mark :: pay)
    let delay := (t.rx c).toNat
    let j := t.rx c
    let sys := hwHeader k.lid 3 6 63 t.ch
    (good h false false 0 → room h → sent (.send rel a b) h (payload t b (hdrCnt h)) 0 rel noJref false h) ∧
    (¬ good h false false 0 → bad (.send rel a b)) ∧
    (good h false false 0 → ¬ sqUsed s s.cur t.sluice (net h) + 1 ≤ k.sqd.getD (net h) 0 →
      traps (.send rel a b) s { cause := .sendqFull, detail := BitVec.ofNat 32 (net h) }) ∧
    (good h false false delay → room h → sent (.sendd rel a b c) h (payload t b (hdrCnt h)) delay rel noJref false h) ∧
    (¬ good h false false delay → bad (.sendd rel a b c)) ∧
    (good h false true 0 → room h → sent (.sendv rel a b) h (payloadV t b (hdrCnt h)) 0 rel noJref false h) ∧
    (¬ good h false true 0 → bad (.sendv rel a b)) ∧
    (t.trig.kind = .soft → hdrCls r = 4 ∨ hdrCls r = 5 → good r false false 0 → room r →
      sent (.reply rel a b) r (payload t b (hdrCnt r)) 0 rel noJref false (setFld r 23 12 0)) ∧
    (t.trig.kind ≠ .soft ∨ (hdrCls r ≠ 4 ∧ hdrCls r ≠ 5) ∨ ¬ good r false false 0 → bad (.reply rel a b)) ∧
    (good h true false 0 → fld j 63 56 = 0 → fld j 47 44 = 0 → room h → sent (.fork rel a b c) h (payload t b (hdrCnt h)) 0 rel
      (if j = 0 then noJref else j) (hdrCore h == 0xFFF) h) ∧
    (¬ good h true false 0 → bad (.fork rel a b c)) ∧
    (good h true false 0 → ¬ (fld j 63 56 = 0 ∧ fld j 47 44 = 0) → traps (.fork rel a b c) s { cause := .badJoin }) ∧
    (room sys → sent (.sysc a b) sys [t.rx a, t.rx b, BitVec.ofNat 64 t.ch] 0 none noJref false sys)

/-- 14 R337, R338: masks, parking and HTSET are held until commit; HTSET checks privilege, the field, DET, the entry and the
value, in that order. -/
def Obligations.MasksAndHandlers : Prop :=
  ∀ (s : State) (t : Task) (k : Core) (a b : Reg), s.task? = some t → s.core? s.cur = some k →
    let v := t.rx a
    let sel : BitVec 2 := v.extractLsb' 8 2
    let bad : Flt := { cause := .htBad }
    let known : Prop := entV (k.chan (fld v 5 0)).ent = true
    issues (.maskc a) s t [.maskc (v.setWidth 7)] 0 [] ∧ issues (.unmaskc a) s t [.unmaskc (v.setWidth 7)] 0 [] ∧
    issues (.park a) s t [.park (v.setWidth 6)] 0 [] ∧ issues (.unpark a) s t [.unpark (v.setWidth 6) false] 0 [] ∧
    issues (.unparkDrop a) s t [.unpark (v.setWidth 6) true] 0 [] ∧
    (t.priv = true →
      (sel = 3 → traps (.htset a b) s bad) ∧
      (sel = 2 → s.det = true → traps (.htset a b) s { cause := .detOp }) ∧
      ((sel = 2 → s.det = false) → ¬ known → traps (.htset a b) s bad) ∧
      (sel = 1 → known → 16384 < fld (t.rx b) 14 0 → traps (.htset a b) s bad) ∧
      (sel ≠ 3 → (sel = 2 → s.det = false) → known → (sel = 1 → fld (t.rx b) 14 0 ≤ 16384) →
        issues (.htset a b) s t [.htset (v.setWidth 6) sel (t.rx b)] 0 []))

/-- 16 R353 to R360: JOIN gives the handle of its record, JRET, BARINIT, BARA, BARD, STAGE and LAUNCH hold what they ask for, where the
operands are those that the rule allows; else they trap with the cause that it names. The model's readings: LAUNCH at a misaligned
address reports VA 0 (log 22), and the order of the checks (log 40). -/
def Obligations.JoinsAndBarriers : Prop :=
  ∀ (s : State) (t : Task) (k : Core) (i : Inst) (d a b c : Reg),
    s.task? = some t → s.core? s.cur = some k → s.inst? k.inst = some i →
    let x := t.rx a
    let y := t.rx b
    let z := t.rx c
    let entry : Prop := msgEntries t.sluice < 32
    let slots : Prop := match k.regionAt y.toNat with
      | some g => regKind g = 2 ∧ regEw g = true ∧ y.toNat % 8 = 0 ∧ y.toNat + 8 * x.toNat ≤ regBase g + regLen g
      | none => False
    let asks : Prop := 1 ≤ x.toNat ∧ x.toNat ≤ 256 ∧ fld z 63 6 = 0 ∧ entV (k.chan ((z.setWidth 6 : BitVec 6).toNat)).ent = true
    let h : Word := BitVec.ofNat 64 (k.lid * 2 ^ 32 + (k.jseq.toNat + heldJoins t + 1) % 2 ^ 32)
    let again : Prop := (t.sluice.any fun e => match e with | .jret .. => true | _ => false) = true
    let total := match i.group with | some (_, _, _, _, tot) => max tot i.nvc | none => i.nvc
    let bar : Prop := fld x 7 6 = 0 ∧ fld x 63 14 = 0 ∧ z.toNat ≠ 0 ∧ y.toNat + z.toNat ≤ total
    let b6 : BitVec 6 := x.setWidth 6
    let due : Prop := k.member.getLsbD (fld x 5 0) = true ∧ k.arrived.getLsbD (fld x 5 0) = false ∧ holdsArrival t b6 = false
    let late : Flt := { cause := .barOver, detail := BitVec.ofNat 32 (fld x 5 0) }
    (¬ asks → traps (.join d a b c) s { cause := .badJoin }) ∧
    (asks → ¬ slots → traps (.join d a b c) s { cause := .spadRange, detail := y.setWidth 32 }) ∧
    (asks → slots → 16 ≤ k.joins.length + heldJoins t → traps (.join d a b c) s { cause := .joinFull }) ∧
    (asks → slots → k.joins.length + heldJoins t < 16 → entry →
      becomes (.join d a b c) s ((t.issuing false [.join h x.toNat y.toNat (z.setWidth 6) t.qn] 1 []).wx d h)) ∧
    (t.trig.jref ≠ noJref → fld t.trig.jref 43 32 < i.nvc → ¬ again → entry → issues (.jret a) s t [.jret x t.qn t.pc] 1 []) ∧
    (¬ (t.trig.jref ≠ noJref ∧ fld t.trig.jref 43 32 < i.nvc ∧ ¬ again) → traps (.jret a) s { cause := .badJoin }) ∧
    (bar → entry → issues (.barinit a b c) s t [.barinit b6 (x.extractLsb' 8 6) y.toNat z.toNat t.qn] 1 []) ∧
    (¬ bar → traps (.barinit a b c) s { cause := .badBar }) ∧
    (fld x 63 6 ≠ 0 → traps (.bara a b) s { cause := .badBar } ∧ traps (.bard a) s { cause := .badBar }) ∧
    (fld x 63 6 = 0 → ¬ due → traps (.bara a b) s late ∧ traps (.bard a) s late) ∧
    (fld x 63 6 = 0 → due → entry → issues (.bara a b) s t [.bara b6 (y.setWidth 6) t.qn] 1 [] ∧
      issues (.bard a) s t [.bard b6 t.qn] 1 []) ∧
    (x.toNat ≤ 65536 → entry → issues (.stage a) s t [.stage x.toNat t.qn t.pc] 1 []) ∧
    (65536 < x.toNat → traps (.stage a) s { cause := .badStage }) ∧
    (t.priv = true → fld x 6 0 = 0 → entry → issues (.launch a b) s t [.launch x (y.setWidth 6) t.qn] 1 []) ∧
    (t.priv = true → fld x 6 0 ≠ 0 → traps (.launch a b) s { cause := .addrAlign })

/-! ## System instructions, search and the end of a task (spec 10, 13, 18, 20, 21) -/

/-- 21 R430 to R433, Table 21.12, 18 R383, R384: RDS reads every special register of its table, WRS changes FSTAT at once and holds the
others, TLBINV, HALT, RESEED and WSET are held, DRAW, EXCQ and EXCQP compute, FLTPOP gives the address of the next record. The model's
readings: HALT and WSET at a misaligned address report VA 0 (log 22), the leader holds the copy (log 33), the order of the checks (log
40), what EXCQ answers for an empty path and the positions of a bench (log 48). -/
def Obligations.SystemInstructions : Prop :=
  (∀ (s : State) (t : Task) (k : Core) (i : Inst) (x : Ctx) (d a b : Reg) (n : BitVec 12),
      s.task? = some t → s.core? s.cur = some k → s.inst? k.inst = some i → s.ctx? i.part i.ctx = some x →
      let det : Flt := { cause := .detOp }
      let blocked : Prop := i.det = true ∧ rdsDet n.toNat (entSteal (k.chan t.ch).ent) = true
      let nth := max x.fqhead t.fltat
      let owner := (s.part (s.instCtx k.inst).1).owner
      let word : Word := x.fqbase + BitVec.ofNat 64 (64 * (nth % 2 ^ x.fqlog))
      let halt (v : BitVec 2) (i : Instr) : Prop :=
        (fld (t.rx a) 6 0 = 0 → issues i s t [.halt v (t.rx a) ((t.rx b).setWidth 6) t.qn] 1 []) ∧
        (fld (t.rx a) 6 0 ≠ 0 → traps i s { cause := .addrAlign })
      let class' := fld (t.rx a) 7 0
      (t.priv = true ∨ rdsPriv n.toNat = false → ¬ blocked → writesX (.rds d n) s t d (sregValue s k t i n.toNat)) ∧
      (t.priv = true ∨ rdsPriv n.toNat = false → blocked → traps (.rds d n) s det) ∧
      becomes (.wrs a 0x020) s { t with fstat := t.fstat.put (t.rx a), pc := t.npc } ∧
      (t.priv = true →
        issues (.wrs a 0x021) s t [.cflags (t.rx a)] 0 [] ∧
        issues (.wrs a 0x028) s t [.ttbase (BitVec.ofNat 64 (fld (t.rx a) 51 13 * 2 ^ 13))] 0 [] ∧
        issues (.tlbinv a) s t [.tlbinv ((t.rx a).setWidth 56)] 0 [] ∧ issues .tlbinvCtx s t [.tlbinvCtx] 0 [] ∧
        halt 0 (.haltSusp a b) ∧ halt 1 (.haltHalt a b) ∧ halt 2 (.haltRes a b) ∧
        (nth < x.fqtail → becomes (.fltpop d) s { t.wx d word with fltpops := t.fltpops + 1, fltat := nth + 1, pc := t.npc }) ∧
        (x.fqtail ≤ nth → writesX (.fltpop d) s t d 0) ∧
        (i.det = false → issues .reseed s t [.reseed] 0 []) ∧ (i.det = true → traps .reseed s det)) ∧
      (i.det = false → writesX (.draw d a b) s t d
        ((drawD (s.owner owner).seed ((t.rx a).setWidth 8) ((t.rx b).setWidth 32)).setWidth 64)) ∧
      (i.det = true → traps (.draw d a b) s det ∧ traps (.excq d a b) s det ∧ traps (.excqp d a b) s det) ∧
      (i.det = false → fld (t.rx a) 63 8 ≠ 0 ∨ lottSp class' = none → traps (.excq d a b) s { cause := .badExc }) ∧
      (i.det = false → fld (t.rx a) 63 8 = 0 → lottSp class' ≠ none → writesX (.excq d a b) s t d
        (match boundAt s k class' with
          | none => 0x100000000
          | some q => BitVec.ofNat 64 (ceilQ32 (q.tail (t.rx b).toNat).1 (256 ^ (q.tail (t.rx b).toNat).2))))) ∧
  (∀ (s s1 : State) (t t1 : Task) (k : Core) (d a b : Reg) (rows : List (List Byte)),
      s.task? = some t → s1.task? = some t1 → s.core? s.cur = some k →
      let es := pathEntries (t.rv t.lead a)
      let path := es.filter fun e => e.2.1 != 0
      let good : Prop := (∀ e, e ∈ es → e.2.2 = true) ∧ path ≠ [] ∧ ∀ e, e ∈ path → lottSp e.1 ≠ none
      let off := (t.rx a).toNat
      let unit : Prop := (s.plat.mxmap.getD k.die 0).getLsbD (k.bench % 72) = true
      let table : Prop := ∀ v, v ∈ rows.flatten → v.toNat < 8 ∨ v = 0xFF#8
      let loads : Prop := (List.range 4).mapM (fun i =>
        localLoad t.lead s.cur k (off + 64 * i) 64) s = .ok rows s1
      (s.det = false → good → writesX (.excqp d a b) s t d (pathTail s k path (t.rx b).toNat)) ∧
      (s.det = false → ¬ good → traps (.excqp d a b) s { cause := .badExc }) ∧
      (t.priv = true → off % 64 ≠ 0 → traps (.wset a) s { cause := .addrAlign }) ∧
      (t.priv = true → off % 64 = 0 → loads → table → unit → exec (.wset a) s =
        .next (s1.setTask { t1 with sluice := t1.sluice ++ [.wset rows.flatten], pc := t1.npc })) ∧
      (t.priv = true → off % 64 = 0 → loads → ¬ table → exec (.wset a) s =
        .next (s.stopped s1 s.cur (.flt { cause := .badWset }))) ∧
      (t.priv = true → off % 64 = 0 → loads → table → ¬ unit → exec (.wset a) s =
        .next (s.stopped s1 s.cur (.flt { cause := .mxAbsent }))))

/-- 20 R396, R400 to R402: INCUMB holds an offer, RDINC reads the core's copy, BOUND sets the bound of a prunable task, and KILLPT
kills a task whose bound cannot beat the copy. -/
def Obligations.SearchInstructions : Prop :=
  ∀ (s : State) (t : Task) (k : Core) (d a b : Reg), s.task? = some t → s.core? s.cur = some k →
    let det : Flt := { cause := .detOp }
    let killed : Prop := entPrune (k.chan t.ch).ent = true ∧ hdrHb t.trig.hdr = true ∧ s.det = false ∧ k.inc.ne = true ∧
      (if k.inc.sense then t.bound.toInt < k.inc.value.toInt else k.inc.value.toInt < t.bound.toInt)
    (msgEntries t.sluice < 32 → issues (.incumbMin a b) s t [.incumb false (t.rx a) (t.rx b) t.qn] 1 [] ∧
      issues (.incumbMax a b) s t [.incumb true (t.rx a) (t.rx b) t.qn] 1 []) ∧
    (32 ≤ msgEntries t.sluice → traps (.incumbMin a b) s { cause := .sluiceFull } ∧
      traps (.incumbMax a b) s { cause := .sluiceFull }) ∧
    (s.det = false →
      writesX (.rdinc d) s t d (if k.inc.ne then k.inc.value else 0) ∧
      writesX (.rdincPay d) s t d (if k.inc.ne then k.inc.payload else 0) ∧
      writesX (.rdincSt d) s t d (BitVec.ofNat 64 (k.inc.ne.toNat + 2 * k.inc.sense.toNat))) ∧
    (s.det = true → traps (.rdinc d) s det ∧ traps (.rdincPay d) s det ∧ traps (.rdincSt d) s det) ∧
    (¬ killed → becomes .killpt s t.step) ∧ (killed → exec .killpt s = .next (s.killTask s.cur)) ∧
    becomes (.bound a) s { t with
      bound := if entPrune (k.chan t.ch).ent && hdrHb t.trig.hdr then t.rx a else t.bound, pc := t.npc }

/-- 13 R310, R313, R314, R317, 04 R123: ENDT begins the commit of a task that is not killed, whose reads validate and that meets no
commit fault; DGRD, DGMIX and SLSTAT. -/
def Obligations.EndOfTask : Prop :=
  ∀ (s : State) (t : Task) (k : Core) (d a : Reg), s.task? = some t → s.core? s.cur = some k →
    (killPending s k t = true → exec .endt s = .next (s.killTask s.cur)) ∧
    (killPending s k t = false → validates s t = false → exec .endt s = .next (s.abortTask s.cur)) ∧
    (killPending s k t = false → validates s t = true → ∀ f, commitFault s t = some f → traps .endt s f) ∧
    (killPending s k t = false → validates s t = true → commitFault s t = none →
      becomes .endt s { t with committing := true, pc := t.npc }) ∧
    writesX (.dgrd d) s t d (if s.det then t.hash else 0) ∧
    issues (.dgmix a) s t [] 0 [BitVec.ofNat 64 (5 * 2 ^ 56), t.rx a] ∧
    writesX (.slstat d) s t d (BitVec.ofNat 64 (lineEntries t.sluice true s.cur + msgEntries t.sluice * 2 ^ 16))

/-- 10 R261 to R265, R268, R269: JIG opens the iterations of the body that follows it, or goes past it where the count is 0; it traps
JIG_BAD where the count is above 65,536, a body instruction is not on the list, or the implicit second register of one would pass v31 in
some iteration; a body instruction of iteration k runs with its vector registers moved by k × JSTEP within the window and its local offset by
64 × ASTRIDE × k; UNCLAMP keeps the leader's part; CLW gives width and position. -/
def Obligations.JigAndClamp : Prop :=
  ∀ (s s1 s2 s3 : State) (t t1 : Task) (a d r : Reg) (bodym1 : BitVec 4) (jstep wbase : BitVec 5) (wsize : BitVec 6) (ast : BitVec 8)
    (body : List VAddr) (after va : VAddr) (j : Jig) (i : Instr) (w0 : IWord) (f : Fetched) (m : Nat), s.task? = some t → s1.task? = some t1 →
    let n := (t.rx a).toNat
    let start := t.pc + 12
    let j0 : Jig := {
      start, after := start, body := [], k := 0, n, idx := 0, step := jstep.toNat, wbase := wbase.toNat, wsize := wsize.toNat,
      stride := ast.toNat }
    let w := j.wsize
    (65536 < n → traps (.jig a bodym1 jstep wbase wsize ast) s { cause := .jigBad }) ∧
    (∀ e, n ≤ 65536 → jigBody t j0 (bodym1.toNat + 1) start s = .error e s1 →
      exec (.jig a bodym1 jstep wbase wsize ast) s = .next (s.stopped s1 s.cur e)) ∧
    (fetchWord t va s = .ok w0 s1 → bodyOk w0 = false → jigBody t j0 (m + 1) va s = .error (.flt { cause := .jigBad }) s1) ∧
    (fetchWord t va s = .ok w0 s1 → bodyOk w0 = true → fetchInstr t va s1 = .ok f s2 → secondOver j0 f.i = true →
      jigBody t j0 (m + 1) va s = .error (.flt { cause := .jigBad }) s2) ∧
    (fetchWord t va s = .ok w0 s1 → bodyOk w0 = true → fetchInstr t va s1 = .ok f s2 → secondOver j0 f.i = false →
      jigBody t j0 m (va + BitVec.ofNat 56 f.len) s2 = .ok (body, after) s3 → jigBody t j0 (m + 1) va s = .ok (va :: body, after) s3) ∧
    (bodyOk w0 = true ↔ opOf w0 = 0x15 ∨ opOf w0 = 0x16 ∨
      (opOf w0 = 0x17 ∧ (fnOf w0 = 0 ∨ fnOf w0 = 2 ∨ (0x10 ≤ fnOf w0 ∧ fnOf w0 ≤ 0x15))) ∨
      (opOf w0 = 0x18 ∧ (fnOf w0 = 0 ∨ (2 ≤ fnOf w0 ∧ fnOf w0 ≤ 4))) ∨ (opOf w0 = 0x19 ∧ 0x100 ≤ fnOf w0) ∨
      (opOf w0 = 0x1A ∧ (fnOf w0 = 0x100 ∨ fnOf w0 = 0x101 ∨ fnOf w0 = 0x103)) ∨
      (opOf w0 = 0x1C ∧ (fnOf w0 / 16 = 2 ∨ fnOf w0 / 16 = 4))) ∧
    (j.wsize ≤ 32 → (secondOver j i = true ↔
      ∃ src part rm z d a c, i = .cvfb src .f32 part rm z d a c ∧ ∃ k, k < j.n ∧ j.reg k d = 31)) ∧
    (n ≤ 65536 → jigBody t j0 (bodym1.toNat + 1) start s = .ok (body, after) s1 →
      exec (.jig a bodym1 jstep wbase wsize ast) s = .next (s1.setTask (if n = 0 then { t1 with npc := after, pc := after }
        else { t1 with npc := start, pc := start, jig := some { j0 with body, after } }))) ∧
    (t.jig = some j → j.idx < j.n * j.body.length →
      t.jigIssue = { t with
        jig := some { j with idx := j.idx + 1, k := j.idx / j.body.length }, jigOff := 64 * j.stride * (j.idx / j.body.length) }) ∧
    (t.jig = some j → j.n * j.body.length ≤ j.idx → t.jigIssue = { t with jig := none, jigOff := 0 }) ∧
    (t.jig = some j → t.issued i = renameVec (j.reg j.k) i) ∧
    (j.wbase ≤ r.toNat → r.toNat < j.wbase + w → j.wbase + w ≤ 32 →
      (j.reg j.k r).toNat = j.wbase + (r.toNat - j.wbase + j.k * j.step) % w) ∧
    (r.toNat < j.wbase ∨ j.wbase + w ≤ r.toNat → j.reg j.k r = r) ∧
    becomes .unclamp s { t with
      parts := (t.parts.drop t.lead).take 1, members := (t.members.drop t.lead).take 1, lead := 0, pc := t.npc } ∧
    writesX (.clw d) s t d (BitVec.ofNat 64 (t.width + t.lead * 16))

/-! ## Commit and the order of lines (spec 04, 13) -/

/-- 04 R117, R123: the commit time is the least time that is no earlier than the task's start and the writes of what it read, and
later than every lease on a line that it writes, those of the D bits and of the dirty bitmap among them (02 R67 to R69); the reads are
consistent there when each lease reaches it or its line is unchanged. -/
def Obligations.CommitTime : Prop :=
  ∀ (s : State) (t : Task),
    let ws := t.sluice.flatMap (Eff.writes s)
    let ct := commitTime s t
    let late (n : Nat) : Prop := t.ts ≤ n ∧ (∀ e, e ∈ t.reads → e.wts ≤ n) ∧ ∀ l, l ∈ ws → (s.line l).rts < n
    late ct ∧ (∀ n, late n → ct ≤ n) ∧
    (validates s t = true ↔ ∀ e, e ∈ t.reads → ∀ r, e.r = some r → ct ≤ r ∨ (s.line e.line).wts = e.wts)

/-- 13 R310, R311, R312, 04 R122, R123, R126, R130: COMMIT of a task that has executed ENDT waits while a line or an acknowledgement is
missing, having aborted younger locked holders where it is locked itself (R125), takes a commit fault, publishes the core's pins where a
release asks for it, aborts where the reads no longer validate, and else performs the commit at its time. Where nothing commits, or the
commit waits, the messages and commands of earlier commits that can leave do so (R312; the model's reading: log 46): where nothing that
the only one waits for is outstanding, it leaves. -/
def Obligations.Commit : Prop :=
  (∀ (s : State) (c : Nat) (k : Core), s.core? c = some k → (∀ t, k.task = some t → t.committing = false) →
    exec (.commit c) s = .next (s.leaveOf c) ∧
    ((∀ x, x ∈ s.leaving → x.snd.core ≠ c) → s.leaveOf c = s.releaseRemotes) ∧
    (∀ x, s.leaving = [x] → x.snd.core = c → s.mayLeave x = true →
      s.leaveOf c = (commitRelease x.snd [] x.eff { s with leaving := [] }).releaseRemotes) ∧
    (∀ x, s.leaving = [x] → s.mayLeave x = false → s.leaveOf c = s.releaseRemotes)) ∧
  ∀ (s : State) (c : Nat) (k : Core) (t : Task), s.core? c = some k → k.task = some t → t.committing = true →
    let run := exec (.commit c) s
    let s0 := bumpCommit s c t
    let releases : Prop := ∃ e sc, e ∈ t.sluice ∧ e.relScope = some sc ∧ scPublishes sc = true
    let go (s1 : State) : Prop := ∀ t1, (s1.core? c).bind Core.task = some t1 →
      (validates s1 t1 = false → run = .next (s1.abortTask c)) ∧
      (validates s1 t1 = true → run = .next (commitAt
        { c, k, t := t1, part := (s1.instCtx k.inst).1, ctx := (s1.instCtx k.inst).2,
          det := ((s1.inst? k.inst).map (·.det)).getD false, ct := commitTime s1 t1 } s1))
    (t.locked = false → s0 = s) ∧
    (commitWaits s0 c t = true → run = .next (s0.leaveOf c)) ∧
    (commitWaits s0 c t = false → ∀ f s', commitFault s0 t = some f → takeTrap c f s0 = .ok () s' → run = .next s') ∧
    (commitWaits s0 c t = false → commitFault s0 t = none → (¬ releases → go s0) ∧ (releases → go (s0.publishAll c)))

/-- 04 R117, R118, 13 R310, 09 R240, 04 R122: what the commit of a task leaves whose only effect is one store to ordinary memory,
already dirty, outside a checked launch: its bytes are in memory, no other byte changes, its lines take the commit time as wts and
rts, the core's logical time is the commit time, the trigger leaves the mailbox, the flags join STICKY, and no task is left. -/
def Obligations.CommittedStore : Prop :=
  ∀ (s : State) (m : Com) (n : Inst) (x : Xlat) (bs : List (Option Byte)),
    s.core? m.c = some m.k → m.k.task = some m.t → s.inst? m.k.inst = some n → n.dmode = false → m.det = false →
    m.t.sluice = [.store x false bs none] → m.t.pops = [] → x.attr = 0 → x.dseen = true →
    (∀ e, tget? (s.part x.part).pmap x.mapi = some e → e.dt = false) → Memory.wf s.mem = true →
    let s' := commitAt m s
    (∀ a, mget s'.mem a = if x.pa ≤ a then ((bs[a - x.pa]?).join).getD (mget s.mem a) else mget s.mem a) ∧
    (∀ l, l ∈ s.keysM x.pa bs → (s'.line l).wts = m.ct ∧ (s'.line l).rts = m.ct) ∧
    ∃ k', s'.core? m.c = some k' ∧ k'.task = none ∧ k'.pts = m.ct ∧ k'.spad = m.k.spad ∧
      (k'.chan m.t.ch).box = (m.k.chan m.t.ch).box.drop 1 ∧ (k'.chan m.t.ch).aborts = 0 ∧
      k'.sticky = m.k.sticky ||| m.t.fstat.flags

/-- 04 R114, R115, R130, R141, 02 R55, R61, R62, R66, R77, 05 R158, R163 to R165, 18 R372, R374, R377 to R380, 19 R385: a line that the
task's next loads ask for is leased ahead, a host-bias one is read early (04 R132), and a recorded one is fetched again; a walker walks;
a pinned line is published; a replica is recalled; the hot lines of a window are replicated; a slice fills a line of its own; a slot of
the lottery is granted; a flit that failed is replayed. The model's readings: the threshold and the
lease length that a window leaves, clamped to their ranges (log 5), the places of slices and replicas (logs 8, 19, 21, 94), which lines are
leased or walked ahead (log 76), when a line is retired (log 90), the logical time at which a physical core's pins are published (log 97),
and the slots of a port (log 100). -/
def Obligations.MemoryEvents : Prop :=
  ∀ (s s1 s2 : State) (c line die slice owner thr len idx g w attempts : Nat) (k : Core) (t : Task) (va : VAddr) (kind : AccKind)
    (x : Xlat) (e : ReadEnt) (cls : BitVec 8) (want : BitVec 64) (d : Cmd) (r : LineReq),
    let px := s.instCtx k.inst
    let near := s.landReplica (s.dieOf c) line
    let nl := t.nextLoads c near
    let sl := nl.2
    let ahead : Prop := t.committing = false ∧ line % 64 = 0 ∧ t.reads.length < 512 ∧ (∀ e, e ∈ t.reads → e.line ≠ line) ∧
      (hostAhead sl nl.1).contains line = false ∧ nextAhead sl c t (t.leasedBy sl nl.1) line = true
    let wo := (s.part px.1).owner
    let sw : State := { s with walkers := s.walkers.erase (k.die, wo) }
    let walk := walkEntry (some c) px.1 px.2 t.priv kind (kind == .atomic) (!(kind == .fetch && va == t.pc && !t.committing)) va
    let landed := s.replicas.foldl (fun s r => s.landReplica r.die r.line) s
    let l := if 2 ^ 60 ≤ line then line else lineOf line
    let key := (slice, s.l2Set l owner)
    let sf : State := { s with mcSlots := s.mcSlots.eraseP fun x => x.2 == owner && mcOf l x.1 }
    let mine := s.l2.filter fun e => e.1 == key
    let free := (s.l2Ways owner).find? fun w => !mine.any fun e => e.2.1 == w
    let n := tget (s.owner owner).events (0x21, slice) 0
    let out := (s.l2Ways owner).getD ((drawD (s.owner owner).seed 0x21 n).toNat % (s.l2Ways owner).length) 0
    let ready := s.cmds.filter fun c => c.row == idx && c.ready
    let asks := (List.range 64).filter fun o => want.getLsbD o && mayContend s cls idx o
    let again := tget s.plat.fixes l 0 + 1
    let replayed : State := { s with plat := { s.plat with corrected := s.plat.corrected + 1, fixes := tput s.plat.fixes l again } }
    (s.core? c = some k → k.task = some t →
      (ahead → readEnt line 0 false { sl with cur := c } = .ok e s1 → exec (.lease c line) s = .next { s1 with cur := s.cur }) ∧
      (ahead → readEnt line 0 false { sl with cur := c } = .error .queued s1 →
        exec (.lease c line) s = .next { s1 with cur := s.cur }) ∧
      (t.committing = false → line % 64 = 0 → (∀ e, e ∈ t.reads → e.line ≠ line) → (hostAhead sl nl.1).contains line = true →
        readEarly c t line sl = .ok () s1 → exec (.lease c line) s = .next s1) ∧
      (t.committing = false → line % 64 = 0 → t.reads.find? (fun e => e.line == line) = some e → e.r ≠ none →
        refetch t e c near = .ok () s1 → exec (.lease c line) s = .next s1) ∧
      (s.walkers.contains (k.die, wo) = true → walk sw = .ok x s1 → exec (.walk c va kind) s = .next s1) ∧
      (s.walkers.contains (k.die, wo) = false → takeWalker k.die wo s = .ok () s2 → walk s2 = .ok x s1 →
        exec (.walk c va kind) s = .next s1)) ∧
    (walkerFree s g w = true → ∀ q s3, s.lottery 0x08 g none [w] = some (q, s3) → takeWalker g w s = .ok () s3) ∧
    ((s.line line).hold = .pinned c →
      ((s.line line).pinnedAt + Config.pinMax ≤ s.now → exec (.pinmax line) s = .next (s.publish line)) ∧
      let y := (s.publish line).line line
      (y.hold = .free ∧ y.wts = (s.line line).wts ∧ y.rts = max y.wts (s.ptsAt c) + s.leaseLen ∧ (s.publish line).mem = s.mem)) ∧
    (Ctl.recall line die ∈ s.ctl → ∃ s', exec (.recall line die) s = .next s' ∧ s'.ctl = s.ctl.erase (.recall line die) ∧
      s'.mem = s.mem ∧ s'.lines = s.lines ∧ s'.cores = s.cores ∧
      (∀ r, r ∈ s'.replicas → r.line = line → r.die = die → r.here = false ∧ r.recalled = true) ∧
      ∀ r, r.line ≠ line ∨ r.die ≠ die → (r ∈ s'.replicas ↔ r ∈ s.replicas)) ∧
    (s.grantStart + Config.hotWindow ≤ s.now → ∃ reps, exec (.hotLineWindow thr len) s = .next { landed with
        replicas := landed.replicas ++ reps, redirects := landed.redirects ++ reps.map fun r => (r.die, r.line), grants := [],
        written := [], grantStart := s.now, hotThr := max 16 (min 4096 thr), leaseLen := max 1 (min (2 ^ 20) len) } ∧
      ∀ r, r ∈ reps → (∃ n, (r.line, n) ∈ s.grants ∧ s.hotThr ≤ n) ∧ (s.line r.line).hold = .free ∧
        (s.line r.line).poison = false ∧ r.line ∉ s.written ∧ r.die ≠ homeDie s r.line ∧ r.rlim = (s.line r.line).rts) ∧
    (s.fillsAt slice l = true → (∀ e, e ∈ mine → e.2.2.2 ≠ l) →
      (free = some w → exec (.l2Fill slice line owner) s = .next { sf with l2 := s.l2 ++ [(key, (w, owner, l))] }) ∧
      (free = none → s.l2Ways owner ≠ [] → exec (.l2Fill slice line owner) s =
        .next ({ sf with l2 := s.l2.filter (fun (x : (Nat × Nat) × Nat × Nat × Nat) => !(x.1 == key && x.2.1 == out)) ++
            [(key, (out, owner, l))] }.setOwner owner
          fun o => { o with events := tput o.events (0x21, slice) (n + 1) }))) ∧
    (cls ∈ [0x08#8, 0x10#8, 0x12#8, 0x13#8] → s.lottery cls.toNat idx none asks = some (g, s1) →
      exec (.lotteryGrant cls idx want) s = .next (s1.handOut cls idx g)) ∧
    (s.portSlot idx = some (r, s1) → exec (.lotteryGrant 0x11 idx want) s = .next (s1.serve r)) ∧
    (s.portSlot idx = none → exec (.lotteryGrant 0x11 idx want) s = .next (s.idleSlot 0x11 idx)) ∧
    (cls ∈ [0x08#8, 0x10#8, 0x12#8, 0x13#8] → asks = [] → exec (.lotteryGrant cls idx want) s = .next (s.idleSlot cls.toNat idx)) ∧
    (s.lottery 0x14 idx none ((List.range 64).filter fun o => ready.any fun c => c.owner s == o) = some (g, s1) →
      (∃ (i n : Nat) (d : Cmd), (ready.filter fun c => c.owner s == g)[i]? = some d ∧
        exec (.lotteryGrant 0x14 idx want) s = .next (runCmd d Cmd.step { s1 with freeCnt := n })) ∧
      (ready.filter (fun c => c.owner s == g) = [d] → exec (.lotteryGrant 0x14 idx want) s = .next (runCmd d Cmd.step s1))) ∧
    (exec (.flitReplay line 0) s = .next s) ∧
    (0 < attempts → attempts < 8 → exec (.flitReplay line attempts) s = .next
      (if 1 < again ∧ Config.retireAfter ≤ again then replayed.retire l else replayed)) ∧
    (line < 2 ^ 60 → 8 ≤ attempts → exec (.flitReplay line attempts) s = .next ((s.setLine l { s.line l with poison := true }).retire l)) ∧
    (2 ^ 60 ≤ line → 8 ≤ attempts → exec (.flitReplay line attempts) s = .next ((s.poisonArray line).retire line))

/-- 18 R372, R373: a slot is granted to a contender, the head of the weir queue first; K counts it; the loss counts of the other
allocated contenders rise by one and every other is 0; one whose count reaches GW joins the weir queue, and the winner leaves it. A slot
without a contender grants nothing: every count is then 0, the weir queue is empty, and K stands. -/
def Obligations.LotteryGrants : Prop :=
  ∀ (l l' : Lott) (bench : Bool) (d : Byte) (want : List Nat) (g : Nat),
    (want ≠ [] → l.grant bench d want ≠ none) ∧ (want = [] → l.grant bench d want = none) ∧
    (∀ (s : State) (cls idx : Nat), let a := s.lott cls idx
      let b := (s.idleSlot cls idx).lott cls idx
      b.lc = [] ∧ b.weir = [] ∧ b.k = a.k ∧ b.wtab = a.wtab ∧ b.alloc = a.alloc ∧ b.gw = a.gw) ∧
    (l.grant bench d want = some (g, l') →
      g ∈ want ∧ l'.k = l.k + 1 ∧ l'.wtab = l.wtab ∧ l'.alloc = l.alloc ∧ l'.gw = l.gw ∧ g ∉ l'.weir ∧
      (∀ h r, l.weir.filter want.contains = h :: r → g = h) ∧
      (∀ o, tget l'.lc o 0 = if o ∈ want ∧ o ≠ g ∧ l.isAlloc bench o = true then tget l.lc o 0 + 1 else 0) ∧
      ∀ o, o ∈ want → o ≠ g → l.isAlloc bench o = true → l.gw ≤ tget l'.lc o 0 → o ∈ l'.weir)

/-- 02 R70, R72, R73, R76, R77, 04 R133 to R135, 05 R156, R157, 24 R455: what an access of the host or of another package reads, writes
and answers at the home slice; what an acknowledgement, an answer or a fault of a remote atomic lets go on; when a bias flip switches or
fails, for every queue that asked for it; what a failed flit and the answer of the pool's flush leave. The model's readings: the time of
a flipped page (log 69), of a peer's access (log 75), the VA of a failed remote atomic (log 78), what passes to another package (log 83),
when a line is retired (log 90), and the stamp of a remote reply (log 92). -/
def Obligations.HostAndPeers : Prop :=
  ∀ (s s1 : State) (prt pa n ct page fn seq line attempts pkg k core rt : Nat) (bs : List Byte) (op : AmoOp) (ty : Ty) (b c v : Word)
    (rpl ok : Bool) (ch : BitVec 6) (ea : Word) (cause : BitVec 16) (r : Remote) (h : HCmd),
    let inLine : Prop := bs.length ≠ 0 ∧ pa % 64 + bs.length ≤ 64
    let put := bs.map some
    let open_ (ks : List Nat) : Prop := s.blocked ks none = false
    let good (ks : List Nat) : Prop := ks.any s.poisoned = false
    let told (s : State) (o : Out) : State := { s with out := s.out ++ [o] }
    let readAt (ks : List Nat) : State := ks.foldl (fun s' l =>
      s'.setLine l { s'.line l with rts := max (s'.line l).rts (max s.pkgTime (s'.line l).wts) }) s
    let writeTime (x : List (Option Byte)) : Nat := max s.pkgTime (s.rtsOf (s.keysM pa x) + 1)
    let written (x : List (Option Byte)) : State := s.writeLine pa x (writeTime x)
    let old := leNat (mread s.mem pa ty.bytes)
    let new := (natBytes ty.bytes (amoNew op ty old b.toNat c.toNat)).map some
    let answered : State := { s with remotes := s.remotes.eraseIdx k, peerPend := s.peerPend.filter fun p => p.id != r.ack }
    let rlin := childLin r.who.path (spawnIndex r.who.q 0 0)
    let px := s.instCtx r.inst
    let flip : Prop := s.flips.find? (fun f => f.1.2 == page) = some ((prt, page), fn, seq)
    let boot : Prop := s.plat.booted = true
    let l := lineOf line
    let again := tget s.plat.fixes l 0 + 1
    let replayed : State := { s with plat := { s.plat with corrected := s.plat.corrected + 1, fixes := tput s.plat.fixes l again } }
    (region s.plat pa = .host → hostDirect s pa = false → open_ (s.keys (lineOf pa) 64) → good (s.keys (lineOf pa) 64) →
      exec (.hostAccess (.read pa)) s = .next (readAt (s.keys (lineOf pa) 64))) ∧
    (region s.plat pa = .host → inLine → hostDirect s pa = false → open_ (s.keysM pa put) →
      exec (.hostAccess (.write pa bs)) s = .next (written put).service) ∧
    (region s.plat pa = .host → inLine → hostDirect s pa = true → exec (.hostAccess (.write pa bs)) s =
      .next (State.service { (s.keepCode (lineOf pa)).cleanLine pa put with mem := mwriteMask s.mem pa put })) ∧
    exec (.hostAcknowledge n) s = .next ((s.ackHost n).releaseRemotes).service ∧
    (∀ w, s.hostPend.find? (fun w => w.id == n) = some w →
      (s.hostPend.find? (fun x => x.core == w.core) = some w → (s.ackHost n).mem = mwriteMask s.mem w.pa w.bytes ∧
        (s.ackHost n).hostPend = s.hostPend.filter fun x => x.id != n) ∧
      (s.hostPend.find? (fun x => x.core == w.core) ≠ some w → s.ackHost n = s)) ∧
    exec (.peerWriteAcknowledge n) s = .next { s with
      peerPend := s.peerPend.eraseP fun p => p.id == n
      remotes := s.remotes.filter fun r => !(r.ack == n && r.rpl.isNone && r.held.isNone) }.releaseRemotes ∧
    (s.plat.booted = false → exec (.peerCopyAccess (.read pkg pa n)) s = .next s ∧
      exec (.peerCopyAccess (.write pkg pa bs)) s = .next s ∧
      exec (.remoteAtomic (.perform op ty pa b c rpl pkg core ch ea)) s = .next s) ∧
    (boot → peerReach s pa = true → n ≠ 0 → pa % 64 + n ≤ 64 → open_ (s.keys pa n) →
      (good (s.keys pa n) → exec (.peerCopyAccess (.read pkg pa n)) s =
        .next (told (readAt (s.keys pa n)) (.peerData pkg (mread s.mem pa n)))) ∧
      (¬ good (s.keys pa n) → exec (.peerCopyAccess (.read pkg pa n)) s = .next (s.peerFails pkg .dataErr))) ∧
    (boot → peerReach s pa = true → inLine → open_ (s.keysM pa put) →
      exec (.peerCopyAccess (.write pkg pa bs)) s = .next (told (written put) (.peerAck pkg))) ∧
    (boot → peerReach s pa = false → exec (.peerCopyAccess (.read pkg pa n)) s = .next (s.peerFails pkg .addrRsv) ∧
      exec (.peerCopyAccess (.write pkg pa bs)) s = .next (s.peerFails pkg .addrRsv) ∧
      exec (.remoteAtomic (.perform op ty pa b c rpl pkg core ch ea)) s = .next (s.peerFails pkg .addrRsv)) ∧
    (boot → peerReach s pa = true → pa % ty.bytes = 0 → open_ (s.keys pa ty.bytes) → good (s.keys pa ty.bytes) →
      exec (.remoteAtomic (.perform op ty pa b c rpl pkg core ch ea)) s = .next (told (written new)
        (if rpl then .msg pkg (replyMsg core ch ty old ea (writeTime new)) else .peerAck pkg))) ∧
    (s.remotes[k]? = some r → r.held = none →
      (r.rpl = none → exec (.remoteAtomic (.replied k v rt)) s = .next answered.releaseRemotes) ∧
      (r.rpl = some ch → exec (.remoteAtomic (.replied k v rt)) s = .next (answered.postHw r.core 4 ch.toNat
        [amoReply r.ty (v.toNat % 2 ^ (8 * r.ty.bytes)), r.ea] rt .reply rlin (5, r.pkg)).releaseRemotes) ∧
      (writeRecord px.1 px.2 { kind := 4, cause := cause.toNat, va := r.ea, who := r.who } answered.pkgTime answered =
          .ok (seq, ct) s1 →
        exec (.remoteAtomic (.faulted k cause)) s = .next (s1.faultMsg r.core 4 cause.toNat seq ct
          (childLin r.who.path (2 ^ 62 + (r.who.q + 1) * 2 ^ 24)) (5, r.pkg)).releaseRemotes)) ∧
    (flip → (∀ p, p ∈ s.lines → p.1 / 65536 = page → ∀ c, p.2.hold ≠ .locked c) → (∀ w, w ∈ s.hostPend → w.pa / 65536 ≠ page) →
      ∃ (t : State) (tb : Nat), exec (.biasSwitch page) s = .next (t.endFlips (prt, page) 0) ∧ t.mem = s.mem ∧
        (∀ q, tget t.bias q false = if q = (prt, page) then !(tget s.bias q false) else tget s.bias q false) ∧
        (∀ l, l / 65536 = page → (∀ c, (s.line l).hold ≠ .pinned c) → (s.line l).rts < tb) ∧
        (∀ p, p ∈ t.lines → p.1 / 65536 = page → p.2.wts = tb ∧ p.2.rts = tb) ∧
        (∀ r, r ∈ t.replicas → r.line / 65536 ≠ page) ∧ ∀ e, e ∈ t.redirects → e.2 / 65536 ≠ page) ∧
    (flip → exec (.biasTimeout page) s = .next (s.endFlips (prt, page) Cause.biasTimeout.code)) ∧
    ((∀ f, f ∈ s.flips → f.1.2 ≠ page) → exec (.biasSwitch page) s = .next s ∧ exec (.biasTimeout page) s = .next s) ∧
    (s.flips.filter (fun f => f.1 == (prt, page)) = [((prt, page), fn, seq)] →
      s.endFlips (prt, page) n = { s with flips := s.flips.filter fun f => f.1 != (prt, page) }.complete fn seq 0 n) ∧
    (exec (.flitReplay line 0) s = .next s) ∧
    (line < 2 ^ 60 → 0 < attempts → attempts < 8 → exec (.flitReplay line attempts) s = .next
      (if 1 < again ∧ Config.retireAfter ≤ again then replayed.retire l else replayed)) ∧
    (line < 2 ^ 60 → 8 ≤ attempts → exec (.flitReplay line attempts) s = .next ((s.setLine l { s.line l with poison := true }).retire l)) ∧
    (s.hcmds.find? (fun c => c.opc == 0x07 && c.st == .started) = some h → exec (.globalPersistentFlush ok) s =
      .next (if ok then s.complete h.fn h.seq 0 0 else s.complete h.fn h.seq 2 3))

/-! ## Events of the engines, the network, the selector and the steward (spec 06, 11, 14, 16, 20, 21) -/

/-- 06 R172, R180 to R182, R186, R188, 11 R284 to R286, 06 R183, 04 R135, R140, 05 R156: a command starts, gets its culvert slot, takes a
word of its feed, completes and is pushed; a bench grants a matrix command, works its rows, writes their words one by one and in any
order, and ends it; a slot that nobody wants is idle; a monitor message is offered again; a peer's copy reads memory here, and what a
peer acknowledges or answers is no longer pending. The model's readings: the order in which slots and words are given (log 41), which
writes a release waits for (log 44), the grain of a bench's writes (log 51), and the time of a peer's access (log 75). -/
def Obligations.EngineEvents : Prop :=
  ∀ (s s1 : State) (id c n f k bench g seq ct pa pkg rt : Nat) (d d1 : Cmd) (core : Core) (h : Word) (st t : Nat) (lin : Lineage) (r : MxRun)
    (m : MxCmd) (fl : Flight) (rem : Remote) (v : Word),
    let begun : Cmd := { d with phase := .running }
    let started : Cmd := if d.buf = [] ∧ d.units ≤ d.unit then
        { d with phase := .payloadDone, relWait := begun.relIds (s.putCmd begun) } else begun
    let cv := core.culvert n
    let earlier : Prop := ∃ x, x ∈ s.cmds.takeWhile (fun x => x.id != d.id) ∧ x.row = d.row ∧ (x.phase = .running ∨ (x.phase = .queued ∧ s.unacked x.wait = false)) ∧ x.cv = true ∧
      x.slot = none ∧ x.culv s = (c, n)
    let words := tget s.feeds (d.core, f) []
    let s0 : State := match d.releaser s with
      | some k => if d.ar.rel && scPublishes d.ar.scope then s.publishAll k else s
      | none => s
    let s2 : State := ({ s with pushes := tdel s.pushes (c, n, cv.nextFill) } : State).setCore c
      (({ core with spad := mwrite core.spad (core.ringOff n cv.nextFill) (wordBytes64 h) } : Core).setCulvert n
        { cv with rsv := cv.rsv - 1, filled := cv.filled + 1 })
    let s3 := if cv.nv then s2.postHw c 6 cv.chan [h, BitVec.ofNat 64 st] t .culvert lin (0, c + 2 ^ 32 * (n + 1)) else s2
    let hs := mxHeads s bench
    let m0 : State := { s with mxrun := tdel s.mxrun bench }
    let e1 := r.buf.foldl State.putPend m0
    let e0 := endSlot bench r e1
    let last := max r.last (if r.buf.any fun w => ((m0.core? w.core).map (inImage m0)).getD false then e1.pkgTime else 0)
    let res : Word := BitVec.ofNat 64 (r.flags.toNat + r.cause * 2 ^ 16 + r.rt.nd % 2 ^ 32 * 2 ^ 32)
    let later (n : Nat) : State := { s with freeCnt := n }
    let told (s : State) : State := if r.cmd.comp.getLsbD 6 then
        s.postHw r.cmd.core 6 (fld r.cmd.comp 5 0) [BitVec.ofNat 64 (fld r.cmd.comp 63 32), res] last .completion
          (childLin r.cmd.who.path (spawnIndex r.cmd.who.q 0 0)) (3, bench)
      else s
    let px := s.instCtx r.cmd.inst
    let paid (s : State) : State := (s.arrive r.cmd.core fun k s =>
      s.setCore r.cmd.core { k with mxcreds := min 8 (k.mxcreds + 1) }).suspendDone px.1 px.2
    let there (c : Nat) : Prop := ∃ k, s.core? c = some k ∧ routeOf s k = .direct
    (s.cmd? id = some d →
      (canStart s d = true → exec (.engineCommandStart id) s = .next (reserve (s.putCmd started) started)) ∧
      (d.culv s = (c, n) → s.core? c = some core → routeOf s core = .direct → d.cv = true → d.slot = none → d.phase = .running →
        cv.free ≠ 0 → cv.depth ≠ 0 → ¬ earlier → exec (.culvertReserve id) s = .next ((s.setCore c (core.setCulvert n { cv with
          free := cv.free - 1, rsv := cv.rsv + 1, tail := (cv.tail + 1) % cv.depth })).putCmd { d with slot := some cv.tail })) ∧
      (d.drawsFrom = some f → canFeed s d = true → exec (.feedConsume id) s = .next
        (({ s with feeds := tput s.feeds (d.core, f) (words.drop 1) } : State).putCmd { d with feed := d.feed ++ words.take 1 })) ∧
      (d.phase = .payloadDone → releaseWaits s d = false → creditWaits s d = false → stampCmd d s0 = .ok d1 s1 →
        (d1.cv = false → exec (.engineCompletion id) s = .next (finishCmd d1 s1)) ∧
        (d1.cv = true → exec (.engineCompletion id) s = .next
          (fillSlot (s1.putCmd { d1 with phase := .pushWait }) d1 (BitVec.ofNat 64 (dDst d1.desc)) 0)))) ∧
    (s.core? c = some core → routeOf s core = .direct → cv.rsv ≠ 0 → tget? s.pushes (c, n, cv.nextFill) = some (h, st, t, lin) →
      (∀ x, s.allCmds.find? (fun x => x.phase == .pushWait && x.culv s == (c, n) && x.slot == some cv.nextFill) = some x →
        creditWaits s x = false) →
      exec (.culvertPush c n) s = .next
        (match s3.allCmds.find? fun x => x.phase == .pushWait && x.culv s == (c, n) && x.slot == some cv.nextFill with
          | some x => finishCmd x s3
          | none => s3)) ∧
    (tget? s.mxrun bench = none → hs = [] → exec (.matrixGrant bench) s = .next (s.idleSlot 0x30 bench)) ∧
    (tget? s.mxrun bench = none → ∀ p0 c0 rest, hs = (p0, c0) :: rest →
      s.lottery 0x30 bench (some (c0.owner s)) (hs.map (·.1)) = some (g, s1) → hs.find? (fun x => x.1 == g) = some (g, m) →
      exec (.matrixGrant bench) s = .next (mxStart bench m (max (m.ct + 1) (s1.pkgTime + 1)) (dequeue s1 m))) ∧
    (tget? s.mxrun bench = some r →
      (r.done = false → r.buf = [] → r.words r.row = [] → exec (.matrixGrant bench) s = .next (mxWork bench r (later (s.freeCnt + 1)))) ∧
      (r.done = true → r.buf = [] → exec (.matrixGrant bench) s = .next (later (s.freeCnt + 1))) ∧
      (r.done = true → r.buf ≠ [] → (∀ w, w ∈ r.buf → there w.core) → ∃ (i m : Nat) (w : Pend), r.buf[i]? = some w ∧
        let s' := (later m).putPend w
        exec (.matrixGrant bench) s = .next { s' with mxrun := tput s'.mxrun bench { r with buf := r.buf.eraseIdx i } }) ∧
      (r.done = false → exec (.matrixCommandEnd bench) s = .next s) ∧
      (r.done = true → there r.cmd.core → r.cause = 0 → exec (.matrixCommandEnd bench) s = .next (paid (told e0))) ∧
      (r.done = true → there r.cmd.core → r.cause ≠ 0 → writeRecord px.1 px.2 {
          kind := 3, cause := r.cause, detail := BitVec.ofNat 64 r.row, va := r.detailVA, tag := BitVec.ofNat 64 r.cmd.fn,
          who := r.cmd.who } last e0 = .ok (seq, ct) s1 →
        exec (.matrixCommandEnd bench) s = .next (paid (told (s1.faultMsg r.cmd.core 3 r.cause seq ct
          (childLin r.cmd.who.path (2 ^ 62 + (r.cmd.who.q + 1) * 2 ^ 24)) (3, bench)))))) ∧
    (∀ due, s.net[k]? = some fl → fl.st = .resend due → due ≤ s.now → exec (.monitorResend k) s = .next (deliverFlight s k)) ∧
    (s.plat.booted = true → peerReach s pa = true → n ≠ 0 → pa % 64 + n ≤ 64 → s.blocked (s.keys pa n) none = false →
      (s.keys pa n).any s.poisoned = false → ∃ s', exec (.peerCopyAccess (.read pkg pa n)) s = .next s' ∧ s'.mem = s.mem ∧
        s'.out = s.out ++ [.peerData pkg (mread s.mem pa n)]) ∧
    exec (.peerWriteAcknowledge n) s = .next { s with
      peerPend := s.peerPend.eraseP fun p => p.id == n
      remotes := s.remotes.filter fun r => !(r.ack == n && r.rpl.isNone && r.held.isNone) }.releaseRemotes ∧
    (s.remotes[k]? = some rem → rem.held = none → rem.rpl = none → exec (.remoteAtomic (.replied k v rt)) s = .next { s with
      remotes := s.remotes.eraseIdx k, peerPend := s.peerPend.filter fun p => p.id != rem.ack }.releaseRemotes)

/-- 14 R322, R324 to R326, R329, R330, R336, Table 14.4: a message that may land and that its channel accepts joins the tail of the
mailbox with the next arrival number, where the queue engine holds nothing that goes before it; what the queue engine answers, in the
order of the table, a release being never refused (16 R360) and nothing being refused for want of room in a DET launch (14 R329); a
message, a refusal and a loss of another package; one that the engine holds, and one whose delay has passed. The model's readings: the
stamp of a refusal (log 23), its lineage and what DET holds of a class above 3 (log 24), and what passes to and from another package (log
83). -/
def Obligations.MessageEvents : Prop :=
  ∀ (s : State) (i c kth group pkg score : Nat) (ref : Bool) (f : Flight) (k : Core) (y : Ctx) (det : Bool)
    (m : Msg) (n : Inst)
    (hdr parent index jref : Word) (pay : List Word) (stamp : Nat),
    let dst := s.instCtx f.inst
    let cls := hdrCls m.hdr
    let x := k.chan (hdrCh m.hdr)
    let masked : Prop := k.clmask.getLsbD cls = true
    let valid : Prop := entV x.ent = true
    let gen : Prop := cls < 4 → hdrGen m.hdr = entGen x.ent
    let full : Prop := entMbd x.ent ≤ x.box.length
    let kept : Prop := (∃ b, m.kind = .release b) ∨ m.kind = .culvert ∨ m.kind = .continuation ∨ det = true
    let idet := ((s.inst? k.inst).map (·.det)).getD false
    let kk := if f.reached then k else k.released f.msg
    let member := s.insts.find? fun n => (n.group.map (·.1)) == some group
    let kind : MKind := if ref then .refusal else .soft
    let lin := childLin parent index.toNat
    let theirs (i : Nat) : Flight := {
      msg := { hdr, pay, kind, stamp, inst := i, sPkg := pkg, sCore := score, lin, jref }, inst := i, lid := hdrCore hdr,
      prod := (5, pkg) }
    let peer : Instr := .messageDelivery (.peer group ref hdr pay stamp pkg score parent index jref)
    let late := (s.net.zipIdx).filter fun p => p.1.src == some c && (match p.1.st with | .delayed _ => true | _ => false)
    (s.net[i]? = some f → canLand s i = true → f.place = false → f.abroad { s with net := s.net.eraseIdx i } = false →
      s.coreOf f.inst f.lid = some c → s.core? c = some k → s.instCtx k.inst = dst → s.ctx? dst.1 dst.2 = some y → y.gone = false →
      routeOf s k = .direct → judge kk idet f.msg = .accept →
      let s' : State := { s with net := s.net.eraseIdx i }
      let queued : Prop := f.src = none ∧ f.msg.kind ≠ .soft ∧ heldBefore kk idet f.msg = true
      (¬ queued → exec (.messageDelivery (.flight i)) s = .next (s'.setCore c (kk.accept f.msg))) ∧
      (queued → kk.heldq.length < 64 →
        exec (.messageDelivery (.flight i)) s = .next (s'.setCore c { kk with heldq := kk.heldq ++ [f.msg] }))) ∧
    ((k.accept m).chan (hdrCh m.hdr)).box = x.box ++ [{ m with arr := k.arrNext }] ∧
    (k.accept m).arrNext = (k.arrNext + 1) % 2 ^ 32 ∧ (∀ ch, ch ≠ hdrCh m.hdr → (k.accept m).chan ch = k.chan ch) ∧
    (masked → judge k det m = .wait) ∧ (¬ masked → ¬ valid → judge k det m = if m.isRelease then .wait else .refuse 3) ∧
    (¬ masked → valid → ¬ gen → judge k det m = .refuse 2) ∧
    (¬ masked → valid → gen → full → kept → judge k det m = .wait) ∧
    (¬ masked → valid → gen → full → ¬ kept → judge k det m = .refuse 1) ∧
    (¬ masked → valid → gen → ¬ full → judge k det m = .accept) ∧
    (member = some n →
      exec peer s = .next (if peerWaits s (theirs n.id) then s else s.land s.net.length (theirs n.id)) ∧
      exec (.messageDelivery (.lost group)) s = .next (s.lose (n.part, n.ctx))) ∧
    (member = none → exec (.messageDelivery (.lost group)) s =
        .next (match tget? s.endedGroups group with | some x => s.lose x | none => s) ∧
      (ref = true → exec peer s = .next { s with out := s.out ++ [.lost pkg] }) ∧
      (ref = false → hdrCls hdr < 4 →
        exec peer s = .next { s with out := s.out ++ [.msg pkg (refusal (theirs 0).msg 4 s.pkgTime)] }) ∧
      (ref = false → 4 ≤ hdrCls hdr → exec peer s = .next s)) ∧
    (s.core? c = some k → routeOf s k = .direct → heldReady k idet k.heldq = some i → k.heldq[i]? = some m →
      judge k idet m = .accept → exec (.heldMessageAccept c) s =
        .next (s.setCore c (({ k with heldq := k.heldq.eraseIdx i } : Core).accept m))) ∧
    (∀ due, late[kth]? = some (f, i) → f.st = .delayed due → due ≤ s.now →
      exec (.senddDelay c kth) s = .next { s with net := s.net.eraseIdx i ++ [{ f with st := .moving }] })

/-- 14 R330, R332 to R334, 10 R266, 16 R348, R355, 04 R113, R124, 02 R76: an idle core with a runnable channel is switched in with its
PAR group, of any size, and selects among its runnable channels of the highest PRIO by a draw and starts the head message or asks for its
clamp group; a group that is held and idle forms, with the leader's PAR group switched in; a task past its budget traps; an idle core is
switched in and takes the tail of a victim's channel unless its CLMASK holds the class back. What a task holds when it starts; one whose
message lies in a poisoned line traps. The model's readings: such a trap (log 62), the clamp request and its hold (log 63), the victim's
channel and the thief's CLMASK (log 64), when a PAR group is switched in (log 65), and what a core takes with it from its physical core or
from its image (logs 59, 108). -/
def Obligations.SelectionEvents : Prop :=
  ∀ (s s' : State) (c t0 v n : Nat) (ts g : List Nat) (k k1 x : Core) (t : Task) (m : Msg) (rest : List Msg) (ch : BitVec 6)
    (lead : Nat),
    let seats := seatsFor s c k [c]
    let s1 := (s.seatAll seats).prune c
    let d := (drawD (s1.seedOf k1.inst) 1 k1.selcnt).toNat
    let pick := if ts = [] then t0 else (t0 :: ts).getD (d % (ts.length + 1)) t0
    let s2 := if ts = [] then s1 else s1.drawn c 1
    let e := (k.chan t0).ent
    let room (k : Core) (n : Nat) : Prop := entV (k.chan n).ent = true ∧ entSteal (k.chan n).ent = true ∧
      (k.chan n).box.length < entMbd (k.chan n).ent
    let sv := s.seatAll seats
    let dv := (drawD (sv.seedOf k1.inst) 4 k1.stealcnt).toNat
    let vs := ((List.range (((sv.inst? k1.inst).map (·.nvc)).getD 0)).filterMap fun l => sv.coreOf k1.inst l).filter fun v => v != c &&
      (match sv.core? v with | some x => x.resident && !x.out && x.row == k1.row | none => false)
    (s.core? c = some k → idle s c = true → k.clampReq = none → groupHolds s c = false → serial s (s.instCtx k.inst).1 = false →
      (∀ n, s.inst? k.inst = some n → n.rerun = none) → topChannels s c k ≠ [] → canSeat s seats = true →
      s1.core? c = some k1 → topChannels s1 c k1 = t0 :: ts →
      (entClamp (k1.chan pick).ent = 1 → exec (.taskSelect c) s = .next (s2.startTask c pick [c] 0)) ∧
      (entClamp (k1.chan pick).ent ≠ 1 → exec (.taskSelect c) s = .next (s2.requestClamp c pick))) ∧
    (s.core? c = some k → k.clampReq = some t0 → clampGroup s c (entClamp e) = some g → runnable s c k t0 = true →
      k.clampHeld = true → serial s (s.instCtx k.inst).1 = false → (∀ j, j ∈ g → idle s j = true) →
      canSeat s (seatsFor s c k g) = true →
      exec (.clampForm c) s = .next ((s.seatAll (seatsFor s c k g)).startTask c t0 g (g.findIdx (· == c)))) ∧
    (s.core? c = some k → k.task = some t → t.committing = false → t.tbudget ≤ t.tcyc →
      takeTrap c { cause := .budget, detail := BitVec.ofNat 32 t.tbudget } (s.onCore c fun k => { k with task := some t.jigIssue }) = .ok () s' →
      exec (.budget c) s = .next s') ∧
    (s.core? c = some k → idle s c = true → k.clampReq = none → room k ch.toNat →
      (∀ j, j < 64 → runnable s c k j = false) → serial s (s.instCtx k.inst).1 = false → canSeat s seats = true →
      sv.core? c = some k1 → vs[dv % vs.length]? = some v →
      sv.core? v = some x → victimChan x = some n → (x.chan n).box.getLast? = some m → room k1 n →
      (k1.clmask.getLsbD (hdrCls m.hdr) = false → exec (.steal c ch) s = .next (((sv.drawn c 4).setCore v
        (x.setChan n { x.chan n with box := (x.chan n).box.dropLast })).onCore c fun k =>
          (k.accept m).markBox n (k.chan n).box.length (x.sbLine (x.msgOff n ((x.chan n).box.length - 1))).poison)) ∧
      (k1.clmask.getLsbD (hdrCls m.hdr) = true → exec (.steal c ch) s = .next (sv.drawn c 4))) ∧
    (s.core? c = some k → k.headPoison t0 = true → takeTrap c { cause := .dataErr }
        (s.beginTask c t0 g lead) = .ok () s' → s.startTask c t0 g lead = s') ∧
    (s.core? c = some k → k.headPoison t0 = false → (k.chan t0).box = m :: rest → ∃ k' t', (s.startTask c t0 g lead).core? c = some k' ∧ k'.task = some t' ∧
      t'.ch = t0 ∧ t'.trig = m ∧ t'.pc = entEpc e ∧ t'.ts = max (k.pts + 1) (1 + m.stamp) ∧ t'.priv = entPriv e ∧
      t'.tbudget = (if entBudget e = 0 then 65536 else 64 * entBudget e) ∧ t'.locked = decide (8 ≤ (k.chan t0).aborts) ∧
      t'.members = g ∧ t'.lead = lead ∧ t'.parts.length = g.length ∧ t'.sluice = [] ∧ t'.reads = [] ∧ t'.sptr = 0 ∧ t'.tcyc = 0 ∧
      t'.q0 = m.pay ∧ t'.hash = m.lin.path ∧ t'.rx 0 = m.hdr ∧
      (∀ r : Reg, 1 ≤ r.toNat → r.toNat ≤ 7 → t'.rx r = if r.toNat ≤ hdrCnt m.hdr then m.pay.getD (r.toNat - 1) 0 else 0) ∧
      (entZregs e = true → ∀ r : Reg, 7 < r.toNat → t'.rx r = 0) ∧ (k'.chan t0).box = m :: rest)

/-- 16 R344 to R346, R354, R360, 20 R392, R393, 13 R318, R320: what reaches a join record, a barrier, the incumbent's unit and its
copies; a submission that passes every check starts, one that fails tells its cause, and a host's whose context is taken away is answered
(24 R452); an instance that is quiescent ends, with the digest record of a checked launch, or its serial re-execution begins. The model's
readings: the stamp of a launch's result (log 23), the logical time that an ended core leaves at its physical core (log 59), what a failed
digest record answers and what an instance's end waits for (log 60), where a re-execution starts (log 61), and an arrival for a core that
rests in its image (log 108). -/
def Obligations.ControlEvents : Prop :=
  ∀ (s s1 s2 : State) (rec : Nat × Nat) (pkg i inst lid c core ch q stamp arr b idx id va part ctx t cause group lo n : Nat) (k : Core) (x : Inst) (j : JoinRec)
    (jref value : Word) (lin : Lineage) (pc : VAddr) (path v p : Word) (mx drop : Bool) (tb : Tables) (o : Origin)
    (pers : List (Nat × Nat × Word)),
    let s0 : State := { s with ctl := s.ctl.eraseIdx i }
    let who : Issuer := { pc, path, arr, lid := ((s0.core? core).map (·.lid)).getD lid, ch, q }
    let got (j : JoinRec) : JoinRec := { j with full := j.full ++ [idx], stamp := max j.stamp stamp }
    let kw : Core := k.spEngine (j.slots + 8 * idx) ((wordBytes64 value).map some)
    let arrived (y : Barrier) : Barrier := { y with
      arrs := if drop then y.arrs else y.arrs ++ [(core, ch, lin)], drops := if drop then y.drops + 1 else y.drops,
      stamp := max y.stamp stamp }
    let peer : Prop := s.insts.find? (fun n => (n.group.map (·.1)) == some group) = some x
    let sub : State := { s with subs := s.subs.eraseIdx i }
    (s.ctl[i]? = some (.join inst lid jref value stamp lin pc arr ch q core path) → s.goneInst inst = false → s0.coreOf inst (fld jref 43 32) = some c →
      joinArrive c jref value stamp who s0 = .ok () s1 → exec (.joinArrive i) s = .next s1) ∧
    (s.core? c = some k → routeOf s k = .direct → idx = fld jref 55 48 → idx < j.n → idx ∉ j.full →
      k.joins.find? (fun j => j.handle == jref &&& BitVec.ofNat 64 (2 ^ 44 - 1)) = some j →
      (j.full.length + 1 = j.n → joinArrive c jref value stamp who s = .ok ()
        ((s.setCore c { kw with joins := kw.joins.filter fun y => y.handle != j.handle }).postHw c 6 j.ch [j.handle] (got j).stamp
          .continuation j.lin)) ∧
      (j.full.length + 1 ≠ j.n → joinArrive c jref value stamp who s = .ok ()
        (s.setCore c { kw with joins := kw.joins.map fun y => if y.handle == j.handle then got j else y }))) ∧
    (s.ctl[i]? = some (.arrive inst b core drop ch stamp lin) →
      (∀ y, y ∈ s.ctl.take i → ∀ mx v p, y ≠ .offer inst core mx v p) → s.goneInst inst = false → instWaits s inst = false →
      exec (.barrierArrival (.item i)) s = .next
        (((s0.tellGroup inst fun g => .barrier g b (((s.core? core).map (·.lid)).getD 0) drop).arriveBar inst b arrived).shadowInst inst)) ∧
    (peer → instWaits s x.id = false → s.goneInst x.id = false → exec (.incumbentUpdate (.peer group mx v p)) s = .next (s.applyOffer x.id mx v p true)) ∧
    (peer → instWaits s x.id = false → s.goneInst x.id = false →
      (s.barWaits x.id = false →
        exec (.barrierArrival (.peerInstall group b lo n)) s = .next ((s.install x.id b lo n).1.shadowInst x.id)) ∧
      exec (.barrierArrival (.peerArrive group b drop pkg)) s = .next ((s.arriveBar x.id b fun y => { y with
        arrs := if drop then y.arrs else y.arrs ++ [(peerCore, 0, {})],
        drops := if drop then y.drops + 1 else y.drops }).shadowInst x.id)) ∧
    (s.ctl[i]? = some (.offer inst core mx v p) → instWaits s inst = false → s.goneInst inst = false →
      exec (.incumbentOffer i) s = .next (s0.applyOffer inst mx v p false)) ∧
    (s.ctl[i]? = some (.update inst c mx v p) → s.core? c = some k →
      exec (.incumbentUpdate (.item i)) s = .next (s0.setCore c { k with inc := k.inc.take mx v p })) ∧
    (s.subs[i]? = some (BitVec.ofNat 64 va, part, ctx, o, t) → va < 2 ^ 64 →
      launchCtx sub part ctx = 0 → stowWaits sub part ctx = false → (readTables va part ctx t).run sub = .ok (.ok tb) s1 →
      launchCause sub part tb = 0 →
      (∀ fn seq, o = .host fn seq → exec (.launchSubmission ⟨i, pers⟩) s = .next ((startInstance s1 part ctx t tb pers o).onCmd fn seq fun c =>
        { c with st := .started, result := BitVec.ofNat 64 s1.instNext })) ∧
      (∀ core ch lin q, o = .task core ch lin q → exec (.launchSubmission ⟨i, pers⟩) s =
        .next ((startInstance s1 part ctx t tb pers o).tellLaunch o 0 (BitVec.ofNat 64 s1.instNext)))) ∧
    (∀ fn seq, s.subs[i]? = some (BitVec.ofNat 64 va, part, ctx, .host fn seq, t) → va < 2 ^ 64 →
      (launchCtx sub part ctx = 0 → stowWaits sub part ctx = false → (readTables va part ctx t).run sub = .ok (.error cause) s1 →
        exec (.launchSubmission ⟨i, pers⟩) s = .next (s1.complete fn seq 1 cause)) ∧
      (launchCtx sub part ctx ≠ 0 → exec (.launchSubmission ⟨i, pers⟩) s = .next (sub.complete fn seq 0 (launchCtx sub part ctx)))) ∧
    (s.inst? id = some x → quiescent s x = true → stowWaits s x.part x.ctx = false →
      let ld := launchDigest x.digests
      let su := s.unstow x.part x.ctx
      let ends (s1 : State) : Prop := exec (.instanceEnd id) s = .next (s1.stow x.part x.ctx)
      (x.det = false → ends (finishInstance su x 0 0)) ∧
      (x.det = true → x.dmode = false → endWith x ld 1 su = .ok () s1 → ends s1) ∧
      (x.det = true → x.dmode = true → x.rerun = none → ld = x.expect → endWith x ld 2 su = .ok () s1 → ends s1) ∧
      (x.det = true → x.dmode = true → x.rerun ≠ none →
        endWith x ld (if ld = x.expect then 3 else 4) su = .ok () s1 → ends s1) ∧
      (x.det = true → x.dmode = true → x.rerun = none → ld ≠ x.expect →
        writeRecord x.part x.ctx { kind := 6, cause := Cause.digestMismatch.code, detail := ld, va := x.expect } su.pkgTime su =
          .ok rec s2 →
        (x.shfull = true → endWith x ld 5 s2 = .ok () s1 → ends s1) ∧
        (x.shfull = false → beginRerun x ld s2 = .ok () s1 → ends s1)))

/-- 20 R390, R392: offers of one sense may reach an incumbent in any order: the best value stands, with the lowest payload. -/
def Obligations.IncumbentOrder : Prop :=
  ∀ (i : Incumb) (mx : Bool) (v p v' p' : Word), i.ne = false ∨ i.sense = mx →
    (i.take mx v p).take mx v' p' = (i.take mx v' p').take mx v p ∧ (i.take mx v p).take mx v p = i.take mx v p ∧
    (i.take mx v p).ne = true ∧ better mx v p (i.take mx v p).value (i.take mx v p).payload = false

/-- 21 R405, R407, R411, R412, R417, R420, 04 R126, 01 R36: a core takes a suspension at its boundary, with its pins published; a row is
saved or loaded, its holds are delivered, and the last row moves the diversion entry on; an arrival for an absent context; a hang is
reported; a fetch that faults traps. The model's readings: where an image holds its records (log 15), the logical
time that a core leaves and takes at its physical core (log 59), which benches count (log 73), a context without cores (log 74), a nested
suspension (log 82), a poisoned image (log 95), and a core that rests in the image while its context runs (log 108). -/
def Obligations.SuspensionEvents : Prop :=
  ∀ (s s1 : State) (c i row part ctx : Nat) (k : Core) (t : Task) (x : Ctx) (f : Flight) (fl : Flt) (va : VAddr),
    let h := s.retryHalt c
    let px := h.instCtx k.inst
    let sus := ((h.publishAll c).leavePts k).onCore c fun k => { k with resident := false }
    let all := (ctxCores sus px.1 px.2).map (·.1)
    let mine (s : State) := (ctxCores s part ctx).filter fun p => p.2.row == row
    let mark (s : State) : State := (s.onCtx part ctx fun x => { x with loaded := x.loaded ++ [row] }).drainHolds part ctx row
    let sf := s.flushFor ((mine s).map (·.1))
    let saved := mark ((mine sf).foldl (fun s p => (s.saveCore x p.1 (recordAddr s x p.1)).freezeQueue p.1) sf)
    let ready (s : State) : Prop := ((s.ctx? part ctx).map (suspendReady s)).getD false = true
    let sr := s.restoreSlots part ctx
    let read (s : State) (c : Nat) : State := (s.loadCore c (recordAddr s x c)).thawQueue c (recordAddr s x c)
    let counted (s : State) (c : Nat) : State := match s.core? c with | some k => s.bringCounters k | none => s
    let loaded := mark ((mine sr).foldl (fun s p => (counted (read s p.1) p.1).onCore p.1
      fun k => { (counted (read s p.1) p.1).enter k with pts := max k.pts (counted (read s p.1) p.1).pkgTime }) sr)
    let whole (s : State) : Prop := (∀ r, r ∈ ctxRows s part ctx → r ∈ ((s.ctx? part ctx).map (·.loaded)).getD []) ∧
      (((s.ctx? part ctx).bind (·.img)).getD {}).slots = []
    let back (s : State) : State := (ctxCores s part ctx).foldl (fun s p => (s.seat p.1).onCore p.1 fun k =>
      { k with resident := true, pending := false }) s
    let g := x.img.getD {}
    let rowi (s : State) (d : Cmd) : Option Nat := d.sched.bind fun j => ((s.inst? d.inst).bind fun n => n.sched[j]?).map fun e =>
      (partRows (s.part part)).getD (fld e.ctl 23 18) 0
    let watched (s : State) (y : Mon) : Mon := match engXlat part ctx true .load y.ea.toNat false 0 s with
      | .ok z _ => { y with pa := z.pa }
      | .error .. => y
    let again (s : State) : State := (g.mons.map (watched s)).foldl State.armMon { s with
      cmds := s.cmds ++ g.cmds.map fun d => { d.restart with row := (rowi s d).getD (((s.core? d.core).map Core.row).getD d.row) }
      mxq := s.mxq ++ g.mx }
    let ready2 (s : State) : State := g.cmds.foldl (fun s c => match s.cmd? c.id with | some c => s.putCmd (c.payload s) | none => s) s
    let tj := t.jigIssue
    (h.core? c = some k → k.pending = true → k.resident = true → k.task = none → followerOf h c = false →
      (¬ (∀ p, p ∈ ctxCores sus px.1 px.2 → p.2.resident = false) → exec (.coreSuspend c) s = .next sus) ∧
      ((∀ p, p ∈ ctxCores sus px.1 px.2 → p.2.resident = false) → exec (.coreSuspend c) s = .next (sus.onCtx px.1 px.2 fun x =>
        { x with div := .saving, loaded := [], img := some { order := all, benches := ctxBenches sus px.1 px.2, nb := (ctxBenches sus px.1 px.2).length } }))) ∧
    (s.ctx? part ctx = some x → row ∉ x.loaded →
      (x.div = .saving → nested s x = false → imgWaits s x = false →
        (¬ ready saved → exec (.saveRowStreamed part ctx row) s = .next saved) ∧
        (ready saved → exec (.saveRowStreamed part ctx row) s =
          .next ((saved.finishSuspend part ctx).serveReqs part ctx State.takeReq))) ∧
      (x.div = .merging → nested s x = false → imgWaits s x = false → mine sr ≠ [] →
        (∀ p, p ∈ mine sr → recordPoisoned sr x p.2 = false) →
        (¬ whole loaded → exec (.restoreRowLoaded part ctx row) s = .next loaded) ∧
        (whole loaded → exec (.restoreRowLoaded part ctx row) s = .next (loaded.resumeDone part ctx)))) ∧
    (s.ctx? part ctx = some x → s.resumeDone part ctx =
      ((((ready2 (again (back s))).onCtx part ctx fun x =>
        { x with div := .closed, loaded := [], img := none, asker := none, halt := false }).stow part ctx).answer x.asker 0 ctx).serveReqs
          part ctx State.takeReq) ∧
    (s.ctx? part ctx = some x → x.div = .saving → nested s x = false → imgWaits s x = false → row ∈ x.loaded →
      (¬ ready s → exec (.saveRowStreamed part ctx row) s = .next s) ∧
      (ready s → exec (.saveRowStreamed part ctx row) s = .next ((s.finishSuspend part ctx).serveReqs part ctx State.takeReq))) ∧
    (s.net[i]? = some f → s.coreOf f.inst f.lid = some c → s.core? c = some k → routeOf s k = .image →
      exec (.divertedArrival i) s = .next (deliverFlight s i)) ∧
    (s.ctx? part ctx = some x → x.div = .closed → x.lastCommit + (s.part part).hangt ≤ s.now →
      (∃ p ch, p ∈ s.cores ∧ s.instCtx p.2.inst = (part, ctx) ∧ p.2.resident = true ∧ ch < 64 ∧ runnable s p.1 p.2 ch = true) →
      exec (.hang part ctx) s = .next { s with out := s.out ++ [.note (.hang part ctx)] }) ∧
    (s.task? = some t → tj.committing = false → tj.pc = va → fetchWord tj va (s.setTask tj) = .error (.flt fl) s1 →
      exec (.instructionFetchFault va) s = .next ((s.setTask tj).stopped s1 s.cur (.flt fl)))

/-! ## Host commands and configuration (spec 24) -/

/-- 24 R450, R452, Table 24.5, 02 R65, R72, R73, 04 R133, 20 R392, 21 R412, R423, R427, R432: what each host command does once it may
start, one that meets a held line waiting for it (04 R129); what ends a bias flip and a flush; an access and an acknowledgement of the
host. The model's readings: the image address of a command (log 68), the time of a flipped page (log 69), what FENCE accepts again (log
70), and the statuses and steps of BIAS, CKPT and GROUP (log 71). -/
def Obligations.HostCommands : Prop :=
  ∀ (s : State) (fn seq prt : Nat) (c : HCmd) (x : Ctx) (e : PMapEnt) (mi pg w pa : Nat) (ok : Bool)
    (n : Inst) (bs ws : List Byte),
    let flip : Prop := s.flips.find? (fun f => f.1.2 == pg) = some ((prt, pg), fn, seq)
    let may (opc : Nat) : Prop := startable s fn seq opc = some c
    let runs (i : Instr) (s' : State) : Prop := exec i s = .next s'
    let ends (cause : Nat) : State := s.complete fn seq 0 cause
    let is (d : DivSt) : Prop := s.ctx? c.part c.ctx = some x ∧ x.div = d
    let none' : Prop := s.ctx? c.part c.ctx = none
    let page := (c.addr.toNat - e.gbase + e.hbase) / 65536
    let blk : BitVec 1024 := BitVec.ofNat 1024 (leNat bs)
    let rs := ckptRanges s c.part
    let size := 65536 + (rs.map (·.2)).sum
    let a := c.addr.toNat
    let away : Prop := ∀ x, x ∈ s.ctxs → x.part = c.part → x.div = .diverted
    let sound : Prop := a % 65536 = 0 ∧ (a / 2 ^ 48 = 2 ∨ a / 2 ^ 48 = 3) ∧ rangeCause s a size = none
    let whole : Prop := ∀ r, r ∈ rs → rangeCause s r.1 r.2 = none
    let f1 : State := s.onCmd fn seq fun c => { c with st := .fenced }
    let again := s.hcmds.filter (replayed s c.part)
    let g := (c.arg 0).toNat
    let cnt := (c.arg 1).toNat
    let m := (c.arg 2).toNat
    let nums := groupNumbers g cnt m n.nvc
    let joined := (s.started c).onInst n.id fun n => { n with group := some (g, cnt, m, nums.1, nums.2) }
    let unheld : Prop := rangeHeld s a size = false ∧ ∀ r, r ∈ rs → rangeHeld s r.1 r.2 = false
    let fresh : Ctx := { s.dent c.part c.ctx with
      ttbase := BitVec.ofNat 64 (fld (c.arg 0) 51 13 * 2 ^ 13), fqbase := c.arg 1,
      fqlog := fld (c.arg 2) 3 0, lastCommit := s.now }
    (may 0x01 → is .closed → runs (.launchCommand fn seq) { s with
      subs := s.subs ++ [(c.addr, c.part, c.ctx, .host fn seq, s.pkgTime)] }) ∧
    (may 0x01 → none' → runs (.launchCommand fn seq) (ends Cause.badCtx.code)) ∧
    (may 0x01 → ∀ d, is d → d ≠ .closed → runs (.launchCommand fn seq) (ends Cause.ctxState.code)) ∧
    (may 0x02 → (stowWaits s c.part c.ctx = false → runs (.suspend fn seq)
        ((s.started c).takeReq { var := 0, part := c.part, ctx := c.ctx, asker := .host fn seq })) ∧
      (stowWaits s c.part c.ctx = true → runs (.suspend fn seq) s)) ∧
    (may 0x03 → (stowWaits s c.part c.ctx = false → runs (.haltCommand fn seq)
        ((s.started c).takeReq { var := 1, part := c.part, ctx := c.ctx, asker := .host fn seq })) ∧
      (stowWaits s c.part c.ctx = true → runs (.haltCommand fn seq) s)) ∧
    (may 0x04 → guestHeld s c.part a 128 = false → guestRead s c.part a 128 = .ok bs → fld blk 2 0 = c.ctx → a % 128 = 0 →
      runs (.resume fn seq) ((s.started c).blockReq 2 c.part none blk (.host fn seq))) ∧
    (may 0x05 → mapMatch s c.part a = some (mi, e) →
      (tget s.bias (c.part, page) false = (c.arg 0).getLsbD 0 → runs (.bias fn seq) (ends 0)) ∧
      (tget s.bias (c.part, page) false ≠ (c.arg 0).getLsbD 0 →
        runs (.bias fn seq) { s.started c with flips := s.flips ++ [((c.part, page), fn, seq)] })) ∧
    (may 0x05 → mapMatch s c.part a = none → runs (.bias fn seq) (ends Cause.pmapMiss.code)) ∧
    (may 0x06 → runs (.reset fn seq) ((again.foldl State.replay ((s.started c).clearPart c.part)).complete fn seq 0 0
      (BitVec.ofNat 64 again.length))) ∧
    (may 0x07 → ¬ away → runs (.ckpt fn seq) (ends Cause.ctxState.code)) ∧
    (may 0x07 → away → (c.arg 0).toNat < size → runs (.ckpt fn seq) (ends Cause.imgSmall.code)) ∧
    (may 0x07 → away → size ≤ (c.arg 0).toNat → sound → ¬ whole → runs (.ckpt fn seq) (ends Cause.addrRsv.code)) ∧
    (may 0x07 → away → size ≤ (c.arg 0).toNat → sound → whole → unheld →
      (a / 2 ^ 48 = 2 → runs (.ckpt fn seq) (((s.started c).writeCkpt a rs).complete fn seq 0 0)) ∧
      (a / 2 ^ 48 = 3 → runs (.ckpt fn seq) { (s.started c).writeCkpt a rs with
        out := ((s.started c).writeCkpt a rs).out ++ [.flush] })) ∧
    (may 0x08 → runs (.fenceCommand fn seq)
      ({ f1 with fns := tput f1.fns fn { f1.fn fn with fenced := seq + 1 } }.complete fn seq 0 0)) ∧
    (may 0x09 → none' → runs (.ctxnew fn seq)
      (({ s with ctxs := s.ctxs ++ [fresh], dents := tdel s.dents (c.part, c.ctx), plat := { s.plat with pkgIdLocked := true } } : State).complete fn seq 0 0)) ∧
    (may 0x09 → ¬ none' → runs (.ctxnew fn seq) (ends Cause.ctxState.code)) ∧
    (may 0x0A → is .closed → (∀ n, n ∈ s.insts → ¬ (n.part = c.part ∧ n.ctx = c.ctx)) → runs (.ctxdel fn seq) ({ s with
      ctxs := s.ctxs.filter fun y => !(y.part == c.part && y.ctx == c.ctx)
      dents := tput s.dents (c.part, c.ctx) (BitVec.ofNat 128 (divBits x))
      tlbs := s.tlbs.filter fun p => !(p.2.part == c.part && p.2.ctx == c.ctx) }.complete fn seq 0 0)) ∧
    (may 0x0B → runs (.mapinv fn seq) ({ s with tlbs := s.tlbs.filter fun p => p.2.part != c.part }.complete fn seq 0 0)) ∧
    (may 0x0C → s.hcmds.find? (fun c => c.fn == fn && c.seq == seq && c.opc == 0x0C && c.st == .started) = none →
      s.insts.find? (fun n => n.id == a && n.part == c.part && n.ctx == c.ctx) = some n →
      2 ≤ cnt → cnt ≤ 288 → m < cnt → n.group = none → (∀ i, i ∈ s.insts → i.group.map (·.1) ≠ some g) →
      runs (.group fn seq) (if n.inc.ne then { joined with out := joined.out ++
        [.offer g n.inc.sense n.inc.value n.inc.payload] } else joined)) ∧
    (∀ c, s.hcmds.find? (fun c => c.fn == fn && c.seq == seq && c.opc == 0x0C && c.st == .started) = some c →
      runs (.group fn seq) (ends 0)) ∧
    (flip → (∀ p, p ∈ s.lines → p.1 / 65536 = pg → ∀ c, p.2.hold ≠ .locked c) → (∀ w, w ∈ s.hostPend → w.pa / 65536 ≠ pg) →
      ∃ t : State, runs (.biasSwitch pg) (t.endFlips (prt, pg) 0) ∧
        tget t.bias (prt, pg) false = !(tget s.bias (prt, pg) false)) ∧
    (flip → runs (.biasTimeout pg) (s.endFlips (prt, pg) Cause.biasTimeout.code)) ∧
    (s.hcmds.find? (fun c => c.opc == 0x07 && c.st == .started) = some c → runs (.globalPersistentFlush ok)
      (if ok then s.complete c.fn c.seq 0 0 else s.complete c.fn c.seq 2 3)) ∧
    runs (.hostAcknowledge w) ((s.ackHost w).releaseRemotes).service ∧
    (region s.plat pa = .host → ws ≠ [] → pa % 64 + ws.length ≤ 64 → hostDirect s pa = true → runs (.hostAccess (.write pa ws))
      (State.service { (s.keepCode (lineOf pa)).cleanLine pa (ws.map some) with mem := mwriteMask s.mem pa (ws.map some) }))

/-- 02 R60, 03 R105, R106, 18 R366, R374, 21 R414, 24 R445 to R448, R456, R457, R459, R460, 04 R111: writes of the configuration and the
platform's events. A value outside a register's limits is ignored; in recovery nothing but FWADDR is reachable. The model's choices: a
record's fields are cut to their widths (log 57), the places in configuration space (log 16), a partial write (log 84), what a
measurement covers (log 13), which write of STATE of a diversion entry is taken (log 91), the ranges of an entry whose V is set already
(log 103), and that a device reset leaves memory as it was (log 6). -/
def Obligations.Configuration : Prop :=
  ∀ (s : State) (fn owner part i idx ctx tier w off watts cycles lane : Nat) (v seed : Word) (cls : BitVec 8) (lw : LottWrite)
    (e : PMapEnt) (win : Window) (d : BitVec 128) (fwOk : Bool) (x : Ctx),
    let runs (i : Instr) (s' : State) : Prop := exec i s = .next s'
    let boot : Prop := s.plat.booted = true
    let old := tget s.windows (tier, w) { v := false, dbase := 0, dlimit := 0, sbase := 0, layout := 0 }
    (s.plat.booted = false → runs (.tailWrite fn v) s ∧ runs (.lotteryConfigWrite cls idx lw) s ∧ runs (.seedWrite owner seed) s ∧
      runs (.partitionMapWrite part i e) s ∧ runs (.formatWindowWrite tier w win) s ∧ runs (.diversionEntryWrite part ctx d) s ∧
      runs (.powerLimit watts) s ∧ runs (.spdmRequest fn idx) s ∧ (off ≠ 0x8000030 → runs (.configRegisterWrite off v) s)) ∧
    runs (.configRegisterWrite 0x8000030 v) { s with plat := { s.plat with fwaddr := v } } ∧
    (boot → runs (.tailWrite fn v) (s.setTail fn v).service) ∧
    (boot → runs (.lotteryConfigWrite cls idx lw) (s.putLott cls.toNat idx
      (lottPut (s.lott cls.toNat idx) ((lw.wtab.getD []).map some) lw.alloc (lw.gw.map BitVec.toNat)))) ∧
    (∀ g, lw = ⟨none, none, some g⟩ → 4 ≤ g.toNat → g.toNat ≤ 64 → ∀ l : Lott,
      lottWrite l lw = { l with gw := g.toNat, k := 0, lc := [], weir := [] }) ∧
    (∀ g, lw = ⟨none, none, some g⟩ → g.toNat < 4 ∨ 64 < g.toNat → runs (.lotteryConfigWrite cls idx lw) s ∧
      ∀ l : Lott, lottWrite l lw = l) ∧
    (boot → owner < 64 → runs (.seedWrite owner seed) (s.setOwner owner fun o => { o with seed })) ∧
    (64 ≤ owner → runs (.seedWrite owner seed) s) ∧
    (boot → i < 64 → e.limit % 65536 = 0 → e.limit ≤ 2 ^ 48 → pmapOk (pmapTrim e) = true → runs (.partitionMapWrite part i e)
      { s with parts := tput s.parts part { s.part part with pmap := tput (s.part part).pmap i (pmapTrim e) } }) ∧
    (pmapOk (pmapTrim e) = false → runs (.partitionMapWrite part i e) s) ∧
    (boot → tier ≤ 2 → w ≤ 15 → old.v = false → old ≠ win → win.dbase % 65536 = 0 → win.dbase < 2 ^ 52 → win.sbase % 64 = 0 →
      win.sbase < 2 ^ 52 → win.dlimit % 65536 = 0 → winOk s tier w win = true → ∃ s', runs (.formatWindowWrite tier w win) s' ∧
        s'.windows = tput s.windows (tier, w) win ∧ s'.mem = s.mem ∧
        (win.v = true → ∀ l, rangesMeet l 64 win.dbase win.dlimit = true → ∀ c, (s'.line l).hold ≠ .pinned c) ∧
        ((∀ p, p ∈ s.lines → ∀ c, p.2.hold ≠ .pinned c) → s'.lines = s.lines ∧ s'.cores = s.cores)) ∧
    (old = win → win.dbase % 65536 = 0 → win.dbase < 2 ^ 52 → win.sbase % 64 = 0 → win.sbase < 2 ^ 52 →
      runs (.formatWindowWrite tier w win) s) ∧
    (boot → s.ctx? part ctx = some x → runs (.diversionEntryWrite part ctx d) (s.onCtx part ctx fun y => { y with
      div := if s.ctxFree x = true ∧ fld d 1 0 = 0 then .closed else if s.ctxFree x = true ∧ fld d 1 0 = 2 then .diverted else y.div
      pbase := fld d 99 64 * 65536, gpa := d.getLsbD 46, mapi := fld d 45 40, gone := d.getLsbD 2, dpart := fld d 55 50,
      dctx := fld d 49 47 })) ∧
    (boot → s.ctx? part ctx = none → part < 64 → ctx < 8 → ∃ s', runs (.diversionEntryWrite part ctx d) s' ∧
      s' = { s with dents := s'.dents } ∧ (s'.dent part ctx).pbase = fld d 99 64 * 65536 ∧ (s'.dent part ctx).gpa = d.getLsbD 46 ∧
      (s'.dent part ctx).mapi = fld d 45 40 ∧ (s'.dent part ctx).gone = d.getLsbD 2 ∧ (s'.dent part ctx).dpart = fld d 55 50 ∧
      (s'.dent part ctx).dctx = fld d 49 47) ∧
    (off % 8 = 0 → runs (.configRegisterWrite off v) (cfgWrite s off v)) ∧
    (boot → 1200 ≤ watts → watts ≤ 2400 → watts % 100 = 0 →
      runs (.powerLimit watts) { s with plat := { s.plat with power := watts } }) ∧
    (watts < 1200 → runs (.powerLimit watts) s) ∧
    (s.plat.hot = false → runs (.thermalLimit true) { s with plat := { s.plat with hot := true }, out := s.out ++ [.note .thermal] }) ∧
    runs (.thermalLimit false) { s with plat := { s.plat with hot := false } } ∧
    (boot → fn = 0 ∨ idx = 16 + (fn - 1) → runs (.spdmRequest fn idx)
      { s with out := s.out ++ [.spdm fn (Config.spdmSign fn idx (measure s idx))] }) ∧
    (∃ s', runs (.deviceReset fwOk) s' ∧ s'.mem = s.mem ∧ s'.cores = [] ∧ s'.insts = [] ∧ s'.ctxs = [] ∧ s'.now = 0 ∧
      s'.plat.booted = fwOk ∧ (∀ l, (s'.line l).wts = 0 ∧ (s'.line l).rts = 0 ∧ (s'.line l).hold = .free) ∧ s'.pkgTime = 0) ∧
    runs (.voltageLoop cycles) { s.passTime cycles with plat := { s.plat with gated := s.plat.gated + cycles } } ∧
    runs (.equalisationLoop lane) { s with plat := { s.plat with
      trained := if lane ∈ s.plat.trained then s.plat.trained else s.plat.trained ++ [lane] } }

/-! ## Decoding, reset, and what every step keeps (spec 01, 24) -/

/-- 01 Tables 1.3 to 1.7 and the worked encodings of 01, 05, 07 to 11, 14, 16 and 21: words that the spec writes out decode to what
they stand for. -/
def Obligations.DecodeWords : Prop :=
  let is (ws : List IWord) (i : Instr) : Prop := decode (ws.flatMap wordBytes) = .ok (i, [])
  is [0xFFF4C510] (.addi 5 6 (-3)) ∧
  is [0x1A80C511, 0, 6] (.addi 5 6 100000) ∧
  is [0x00000722, 0x89ABCDEF, 0x01234567] (.li 7 0x0123456789ABCDEF) ∧
  is [0x8098A404] (.subw 4 5 6) ∧
  is [0x081CC505, 8, 0] (.sel 5 6 7 8) ∧
  is [0xFFF84128] (.beq 1 2 (-2)) ∧
  is [0x01008049, 0, 0xFFFFFFFB] (.loop 4 (-5)) ∧
  is [0x028C4155, 0x09402804, 0] (.fma true false .f32 ⟨.rz, false, true, 2⟩ 1 2 3 4) ∧
  is [0x81002569, 0x40003909, 1] (.cvtb .f16 .blk4 2 1 .dflt false 5 1 9) ∧
  is [0x197C4971, 0, 0x40] (.stl .w4 9 ⟨2, 31, 0, 0x40⟩) ∧
  is [0x001CC981, 0x20000C00, 8] (.amoadd .i64 true false ⟨false, false, .task⟩ 9 6 7 8) ∧
  is [0x015AB491, 0x010032E9, 0] (.mmag 0 .e4m3 .rz false false 20 21 22 9 23) ∧
  is [0x00054099, 0x00130000, 0] (.send (some .pkg) 10 1) ∧
  is [0x010015A9, 0, 1] (.rds 21 1) ∧
  is [0] (.illop 0)

/-- 01 R13 to R33: every well-formed instruction that an encoding has decodes from its own words, whatever follows them. -/
def Obligations.RoundTrip : Prop :=
  ∀ (i : Instr) (rest : List Byte), i.wf = true → encode i ≠ [] → decode ((encode i).flatMap wordBytes ++ rest) = .ok (i, rest)

/-- 24 R446, R456, 04 R111, 18 Table 18.4, 24 Table 24.3: the machine after reset: every logical time is 0, no instance, no context, no
queue; and the canonical form of memory holds. That memory lists nothing, that no line is poisoned or held (log 1), and the registers for
which the spec gives no value (log 6), are the model's choice. -/
def Obligations.ResetState : Prop :=
  State.reset.wf ∧ State.reset.pkgTime = 0 ∧ State.reset.cores = [] ∧ State.reset.insts = [] ∧ State.reset.ctxs = [] ∧
  State.reset.net = [] ∧ State.reset.cmds = [] ∧ State.reset.mxq = [] ∧ State.reset.task? = none ∧
  (∀ l, State.reset.line l = { wts := 0, rts := 0, hold := .free, pinnedAt := 0, poison := false }) ∧
  (∀ f, State.reset.fn f = { qbase := 0, jbase := 0, qlog := 0, tail := 0, head := 0, fenced := 0 }) ∧
  (∀ c i, c ≠ 0x30 → (State.reset.lott c i).wtab = List.replicate 256 0xFF#8 ∧ (State.reset.lott c i).alloc = 0 ∧
    (State.reset.lott c i).gw = 16 ∧ (State.reset.lott c i).k = 0) ∧
  (∀ b, (State.reset.lott 0x30 b).wtab = (List.range 256).map fun d => BitVec.ofNat 8 (d % 8))

/-- Every step keeps the canonical form of physical memory, of every scratchpad and of every core's overflow memory. The form is the
model's choice (log 1). -/
def Obligations.StepKeepsMemoryForm : Prop :=
  ∀ (s s' : State), s.wf → step s = .next s' → s'.wf

/-- Every instruction, event and command has its meaning in every state: none is refused. A processor instruction runs where there is a
task and ends in a fault only where there is none, which 14 R333 then gives no program counter; no event of the device, command of the
host or write of the configuration answers a fault. -/
def Obligations.EveryInstructionHasItsMeaning : Prop :=
  ∀ (i : Instr) (s : State),
    (i.isEvent = true → ∃ s', exec i s = .next s') ∧
    (i.isEvent = false → (s.task? ≠ none → ∃ s', exec i s = .next s') ∧ (s.task? = none → exec i s = .fault .noTask))
end

