-- ==== Sys2Proof/Laws/Exec.lean ====
section
/-! SUPPORT. The meaning of each instruction and event, by name: one lemma per arm of `exec`. -/

namespace Sys2Proof.Machine

theorem exec_add (s : State) d a b : exec (.add d a b) s = execAdd d a b s := rfl
theorem exec_addw (s : State) d a b : exec (.addw d a b) s = execAddw d a b s := rfl
theorem exec_sub (s : State) d a b : exec (.sub d a b) s = execSub d a b s := rfl
theorem exec_subw (s : State) d a b : exec (.subw d a b) s = execSubw d a b s := rfl
theorem exec_and (s : State) d a b : exec (.and d a b) s = execAnd d a b s := rfl
theorem exec_or (s : State) d a b : exec (.or d a b) s = execOr d a b s := rfl
theorem exec_xor (s : State) d a b : exec (.xor d a b) s = execXor d a b s := rfl
theorem exec_andn (s : State) d a b : exec (.andn d a b) s = execAndn d a b s := rfl
theorem exec_orn (s : State) d a b : exec (.orn d a b) s = execOrn d a b s := rfl
theorem exec_xnor (s : State) d a b : exec (.xnor d a b) s = execXnor d a b s := rfl
theorem exec_min (s : State) d a b : exec (.min d a b) s = execMin d a b s := rfl
theorem exec_max (s : State) d a b : exec (.max d a b) s = execMax d a b s := rfl
theorem exec_minn (s : State) d a b : exec (.minn d a b) s = execMinn d a b s := rfl
theorem exec_maxn (s : State) d a b : exec (.maxn d a b) s = execMaxn d a b s := rfl
theorem exec_slt (s : State) d a b : exec (.slt d a b) s = execSlt d a b s := rfl
theorem exec_sltn (s : State) d a b : exec (.sltn d a b) s = execSltn d a b s := rfl
theorem exec_seq (s : State) d a b : exec (.seq d a b) s = execSeq d a b s := rfl
theorem exec_sne (s : State) d a b : exec (.sne d a b) s = execSne d a b s := rfl
theorem exec_sel (s : State) d a b c : exec (.sel d a b c) s = execSel d a b c s := rfl
theorem exec_addco (s : State) d a b : exec (.addco d a b) s = execAddco d a b s := rfl
theorem exec_mul (s : State) d a b : exec (.mul d a b) s = execMul d a b s := rfl
theorem exec_mulw (s : State) d a b : exec (.mulw d a b) s = execMulw d a b s := rfl
theorem exec_mulh (s : State) d a b : exec (.mulh d a b) s = execMulh d a b s := rfl
theorem exec_mulhn (s : State) d a b : exec (.mulhn d a b) s = execMulhn d a b s := rfl
theorem exec_mulhsn (s : State) d a b : exec (.mulhsn d a b) s = execMulhsn d a b s := rfl
theorem exec_div (s : State) d a b : exec (.div d a b) s = execDiv d a b s := rfl
theorem exec_divw (s : State) d a b : exec (.divw d a b) s = execDivw d a b s := rfl
theorem exec_divn (s : State) d a b : exec (.divn d a b) s = execDivn d a b s := rfl
theorem exec_divnw (s : State) d a b : exec (.divnw d a b) s = execDivnw d a b s := rfl
theorem exec_rem (s : State) d a b : exec (.rem d a b) s = execRem d a b s := rfl
theorem exec_remw (s : State) d a b : exec (.remw d a b) s = execRemw d a b s := rfl
theorem exec_remn (s : State) d a b : exec (.remn d a b) s = execRemn d a b s := rfl
theorem exec_remnw (s : State) d a b : exec (.remnw d a b) s = execRemnw d a b s := rfl
theorem exec_madd (s : State) d a b c : exec (.madd d a b c) s = execMadd d a b c s := rfl
theorem exec_sll (s : State) d a b imm : exec (.sll d a b imm) s = execSll d a b imm s := rfl
theorem exec_sllw (s : State) d a b imm : exec (.sllw d a b imm) s = execSllw d a b imm s := rfl
theorem exec_srl (s : State) d a b imm : exec (.srl d a b imm) s = execSrl d a b imm s := rfl
theorem exec_srlw (s : State) d a b imm : exec (.srlw d a b imm) s = execSrlw d a b imm s := rfl
theorem exec_sra (s : State) d a b imm : exec (.sra d a b imm) s = execSra d a b imm s := rfl
theorem exec_sraw (s : State) d a b imm : exec (.sraw d a b imm) s = execSraw d a b imm s := rfl
theorem exec_rol (s : State) d a b imm : exec (.rol d a b imm) s = execRol d a b imm s := rfl
theorem exec_ror (s : State) d a b imm : exec (.ror d a b imm) s = execRor d a b imm s := rfl
theorem exec_clz (s : State) d a : exec (.clz d a) s = execClz d a s := rfl
theorem exec_ctz (s : State) d a : exec (.ctz d a) s = execCtz d a s := rfl
theorem exec_popc (s : State) d a : exec (.popc d a) s = execPopc d a s := rfl
theorem exec_brev (s : State) d a : exec (.brev d a) s = execBrev d a s := rfl
theorem exec_bswap (s : State) d a : exec (.bswap d a) s = execBswap d a s := rfl
theorem exec_bfx (s : State) d a b c io iw : exec (.bfx d a b c io iw) s = execBfx d a b c io iw s := rfl
theorem exec_bfxn (s : State) d a b c io iw : exec (.bfxn d a b c io iw) s = execBfxn d a b c io iw s := rfl
theorem exec_bfi (s : State) d a b c io iw : exec (.bfi d a b c io iw) s = execBfi d a b c io iw s := rfl
theorem exec_addi (s : State) d a imm : exec (.addi d a imm) s = execAddi d a imm s := rfl
theorem exec_andi (s : State) d a imm : exec (.andi d a imm) s = execAndi d a imm s := rfl
theorem exec_ori (s : State) d a imm : exec (.ori d a imm) s = execOri d a imm s := rfl
theorem exec_xori (s : State) d a imm : exec (.xori d a imm) s = execXori d a imm s := rfl
theorem exec_li (s : State) d imm : exec (.li d imm) s = execLi d imm s := rfl
theorem exec_pcadd (s : State) d imm : exec (.pcadd d imm) s = execPcadd d imm s := rfl
theorem exec_beq (s : State) a b off : exec (.beq a b off) s = execBeq a b off s := rfl
theorem exec_bne (s : State) a b off : exec (.bne a b off) s = execBne a b off s := rfl
theorem exec_blt (s : State) a b off : exec (.blt a b off) s = execBlt a b off s := rfl
theorem exec_bge (s : State) a b off : exec (.bge a b off) s = execBge a b off s := rfl
theorem exec_bltn (s : State) a b off : exec (.bltn a b off) s = execBltn a b off s := rfl
theorem exec_bgen (s : State) a b off : exec (.bgen a b off) s = execBgen a b off s := rfl
theorem exec_br (s : State) off : exec (.br off) s = execBr off s := rfl
theorem exec_call (s : State) off : exec (.call off) s = execCall off s := rfl
theorem exec_jr (s : State) a : exec (.jr a) s = execJr a s := rfl
theorem exec_jalr (s : State) d a : exec (.jalr d a) s = execJalr d a s := rfl
theorem exec_loop (s : State) a off : exec (.loop a off) s = execLoop a off s := rfl
theorem exec_illop (s : State) w : exec (.illop w) s = execIllop w s := rfl
theorem exec_fadd (s : State) vec sc ty f d a b : exec (.fadd vec sc ty f d a b) s = execFadd vec sc ty f d a b s := rfl
theorem exec_fsub (s : State) vec sc ty f d a b : exec (.fsub vec sc ty f d a b) s = execFsub vec sc ty f d a b s := rfl
theorem exec_fmul (s : State) vec sc ty f d a b : exec (.fmul vec sc ty f d a b) s = execFmul vec sc ty f d a b s := rfl
theorem exec_fdiv (s : State) vec sc ty f d a b : exec (.fdiv vec sc ty f d a b) s = execFdiv vec sc ty f d a b s := rfl
theorem exec_fsqrt (s : State) vec ty f d a : exec (.fsqrt vec ty f d a) s = execFsqrt vec ty f d a s := rfl
theorem exec_fma (s : State) vec sc ty f d a b c : exec (.fma vec sc ty f d a b c) s = execFma vec sc ty f d a b c s := rfl
theorem exec_fms (s : State) vec sc ty f d a b c : exec (.fms vec sc ty f d a b c) s = execFms vec sc ty f d a b c s := rfl
theorem exec_fnma (s : State) vec sc ty f d a b c : exec (.fnma vec sc ty f d a b c) s = execFnma vec sc ty f d a b c s := rfl
theorem exec_fnms (s : State) vec sc ty f d a b c : exec (.fnms vec sc ty f d a b c) s = execFnms vec sc ty f d a b c s := rfl
theorem exec_fmin (s : State) vec sc ty fzi mask d a b : exec (.fmin vec sc ty fzi mask d a b) s = execFmin vec sc ty fzi mask d a b s := rfl
theorem exec_fmax (s : State) vec sc ty fzi mask d a b : exec (.fmax vec sc ty fzi mask d a b) s = execFmax vec sc ty fzi mask d a b s := rfl
theorem exec_fabs (s : State) vec ty fzi mask d a : exec (.fabs vec ty fzi mask d a) s = execFabs vec ty fzi mask d a s := rfl
theorem exec_fneg (s : State) vec ty fzi mask d a : exec (.fneg vec ty fzi mask d a) s = execFneg vec ty fzi mask d a s := rfl
theorem exec_fsgnj (s : State) vec sc ty fzi mask d a b : exec (.fsgnj vec sc ty fzi mask d a b) s = execFsgnj vec sc ty fzi mask d a b s := rfl
theorem exec_vadd (s : State) sc ty mask d a b : exec (.vadd sc ty mask d a b) s = execVadd sc ty mask d a b s := rfl
theorem exec_vsub (s : State) sc ty mask d a b : exec (.vsub sc ty mask d a b) s = execVsub sc ty mask d a b s := rfl
theorem exec_vadds (s : State) sc ty mask d a b : exec (.vadds sc ty mask d a b) s = execVadds sc ty mask d a b s := rfl
theorem exec_vsubs (s : State) sc ty mask d a b : exec (.vsubs sc ty mask d a b) s = execVsubs sc ty mask d a b s := rfl
theorem exec_vmul (s : State) sc ty mask d a b : exec (.vmul sc ty mask d a b) s = execVmul sc ty mask d a b s := rfl
theorem exec_vmulh (s : State) sc ty mask d a b : exec (.vmulh sc ty mask d a b) s = execVmulh sc ty mask d a b s := rfl
theorem exec_vmadd (s : State) sc ty mask d a b c : exec (.vmadd sc ty mask d a b c) s = execVmadd sc ty mask d a b c s := rfl
theorem exec_vmin (s : State) sc ty mask d a b : exec (.vmin sc ty mask d a b) s = execVmin sc ty mask d a b s := rfl
theorem exec_vmax (s : State) sc ty mask d a b : exec (.vmax sc ty mask d a b) s = execVmax sc ty mask d a b s := rfl
theorem exec_vabs (s : State) ty mask d a : exec (.vabs ty mask d a) s = execVabs ty mask d a s := rfl
theorem exec_vand (s : State) sc ty mask d a b : exec (.vand sc ty mask d a b) s = execVand sc ty mask d a b s := rfl
theorem exec_vor (s : State) sc ty mask d a b : exec (.vor sc ty mask d a b) s = execVor sc ty mask d a b s := rfl
theorem exec_vxor (s : State) sc ty mask d a b : exec (.vxor sc ty mask d a b) s = execVxor sc ty mask d a b s := rfl
theorem exec_vandn (s : State) sc ty mask d a b : exec (.vandn sc ty mask d a b) s = execVandn sc ty mask d a b s := rfl
theorem exec_vsll (s : State) sc ty mask d a b : exec (.vsll sc ty mask d a b) s = execVsll sc ty mask d a b s := rfl
theorem exec_vsrl (s : State) sc ty mask d a b : exec (.vsrl sc ty mask d a b) s = execVsrl sc ty mask d a b s := rfl
theorem exec_vsra (s : State) sc ty mask d a b : exec (.vsra sc ty mask d a b) s = execVsra sc ty mask d a b s := rfl
theorem exec_fcmp (s : State) vec cond ty fzi mask d a b : exec (.fcmp vec cond ty fzi mask d a b) s = execFcmp vec cond ty fzi mask d a b s := rfl
theorem exec_icmp (s : State) cond ty mask d a b : exec (.icmp cond ty mask d a b) s = execIcmp cond ty mask d a b s := rfl
theorem exec_mand (s : State) d a b : exec (.mand d a b) s = execMand d a b s := rfl
theorem exec_mor (s : State) d a b : exec (.mor d a b) s = execMor d a b s := rfl
theorem exec_mxor (s : State) d a b : exec (.mxor d a b) s = execMxor d a b s := rfl
theorem exec_mandn (s : State) d a b : exec (.mandn d a b) s = execMandn d a b s := rfl
theorem exec_mnot (s : State) d a : exec (.mnot d a) s = execMnot d a s := rfl
theorem exec_mset (s : State) d a : exec (.mset d a) s = execMset d a s := rfl
theorem exec_mget (s : State) d a : exec (.mget d a) s = execMget d a s := rfl
theorem exec_mpopc (s : State) d a : exec (.mpopc d a) s = execMpopc d a s := rfl
theorem exec_mfirst (s : State) d a : exec (.mfirst d a) s = execMfirst d a s := rfl
theorem exec_vbcast (s : State) ty mask d a : exec (.vbcast ty mask d a) s = execVbcast ty mask d a s := rfl
theorem exec_vext (s : State) ty d a b : exec (.vext ty d a b) s = execVext ty d a b s := rfl
theorem exec_vins (s : State) ty d a b : exec (.vins ty d a b) s = execVins ty d a b s := rfl
theorem exec_vperm (s : State) ty mask d a b c : exec (.vperm ty mask d a b c) s = execVperm ty mask d a b c s := rfl
theorem exec_vmov (s : State) ty mask d a : exec (.vmov ty mask d a) s = execVmov ty mask d a s := rfl
theorem exec_vradd (s : State) ty f d a : exec (.vradd ty f d a) s = execVradd ty f d a s := rfl
theorem exec_vrmin (s : State) ty fzi mask d a : exec (.vrmin ty fzi mask d a) s = execVrmin ty fzi mask d a s := rfl
theorem exec_vrmax (s : State) ty fzi mask d a : exec (.vrmax ty fzi mask d a) s = execVrmax ty fzi mask d a s := rfl
theorem exec_fexp (s : State) vec ty f d a : exec (.fexp vec ty f d a) s = execFexp vec ty f d a s := rfl
theorem exec_fexp2 (s : State) vec ty f d a : exec (.fexp2 vec ty f d a) s = execFexp2 vec ty f d a s := rfl
theorem exec_flog (s : State) vec ty f d a : exec (.flog vec ty f d a) s = execFlog vec ty f d a s := rfl
theorem exec_flog2 (s : State) vec ty f d a : exec (.flog2 vec ty f d a) s = execFlog2 vec ty f d a s := rfl
theorem exec_frcp (s : State) vec ty f d a : exec (.frcp vec ty f d a) s = execFrcp vec ty f d a s := rfl
theorem exec_frsq (s : State) vec ty f d a : exec (.frsq vec ty f d a) s = execFrsq vec ty f d a s := rfl
theorem exec_fsin (s : State) vec ty f d a : exec (.fsin vec ty f d a) s = execFsin vec ty f d a s := rfl
theorem exec_fcos (s : State) vec ty f d a : exec (.fcos vec ty f d a) s = execFcos vec ty f d a s := rfl
theorem exec_ftanh (s : State) vec ty f d a : exec (.ftanh vec ty f d a) s = execFtanh vec ty f d a s := rfl
theorem exec_fsigm (s : State) vec ty f d a : exec (.fsigm vec ty f d a) s = execFsigm vec ty f d a s := rfl
theorem exec_ferf (s : State) vec ty f d a : exec (.ferf vec ty f d a) s = execFerf vec ty f d a s := rfl
theorem exec_cvt (s : State) vec src dst part f d a : exec (.cvt vec src dst part f d a) s = execCvt vec src dst part f d a s := rfl
theorem exec_cvts (s : State) vec src dst part mask d a : exec (.cvts vec src dst part mask d a) s = execCvts vec src dst part mask d a s := rfl
theorem exec_cvtb (s : State) src dst part mode rm fzi d a c : exec (.cvtb src dst part mode rm fzi d a c) s = execCvtb src dst part mode rm fzi d a c s := rfl
theorem exec_cvfb (s : State) src dst part rm fzo d a c : exec (.cvfb src dst part rm fzo d a c) s = execCvfb src dst part rm fzo d a c s := rfl
theorem exec_ldl (s : State) w d m : exec (.ldl w d m) s = execLdl w d m s := rfl
theorem exec_ldlz (s : State) w d m : exec (.ldlz w d m) s = execLdlz w d m s := rfl
theorem exec_vldl (s : State) ty mask d m : exec (.vldl ty mask d m) s = execVldl ty mask d m s := rfl
theorem exec_stl (s : State) w d m : exec (.stl w d m) s = execStl w d m s := rfl
theorem exec_vstl (s : State) ty mask d m : exec (.vstl ty mask d m) s = execVstl ty mask d m s := rfl
theorem exec_ldsb (s : State) d m : exec (.ldsb d m) s = execLdsb d m s := rfl
theorem exec_stsb (s : State) d m : exec (.stsb d m) s = execStsb d m s := rfl
theorem exec_spill (s : State) d : exec (.spill d) s = execSpill d s := rfl
theorem exec_spillv (s : State) d : exec (.spillv d) s = execSpillv d s := rfl
theorem exec_fill (s : State) d : exec (.fill d) s = execFill d s := rfl
theorem exec_fillv (s : State) d : exec (.fillv d) s = execFillv d s := rfl
theorem exec_qpop (s : State) d a : exec (.qpop d a) s = execQpop d a s := rfl
theorem exec_qpush (s : State) a b : exec (.qpush a b) s = execQpush a b s := rfl
theorem exec_qcnt (s : State) d a : exec (.qcnt d a) s = execQcnt d a s := rfl
theorem exec_qpeek (s : State) d a : exec (.qpeek d a) s = execQpeek d a s := rfl
theorem exec_ld (s : State) w acq d m : exec (.ld w acq d m) s = execLd w acq d m s := rfl
theorem exec_ldz (s : State) w acq d m : exec (.ldz w acq d m) s = execLdz w acq d m s := rfl
theorem exec_vld (s : State) ty acq mask d m : exec (.vld ty acq mask d m) s = execVld ty acq mask d m s := rfl
theorem exec_ldv (s : State) d c m : exec (.ldv d c m) s = execLdv d c m s := rfl
theorem exec_pref (s : State) l1 m : exec (.pref l1 m) s = execPref l1 m s := rfl
theorem exec_st (s : State) w rel d m : exec (.st w rel d m) s = execSt w rel d m s := rfl
theorem exec_vst (s : State) ty rel mask d m : exec (.vst ty rel mask d m) s = execVst ty rel mask d m s := rfl
theorem exec_amoadd (s : State) ty rpl rn ar d a b imm : exec (.amoadd ty rpl rn ar d a b imm) s = execAmoadd ty rpl rn ar d a b imm s := rfl
theorem exec_amoand (s : State) ty rpl ar d a b imm : exec (.amoand ty rpl ar d a b imm) s = execAmoand ty rpl ar d a b imm s := rfl
theorem exec_amoor (s : State) ty rpl ar d a b imm : exec (.amoor ty rpl ar d a b imm) s = execAmoor ty rpl ar d a b imm s := rfl
theorem exec_amoxor (s : State) ty rpl ar d a b imm : exec (.amoxor ty rpl ar d a b imm) s = execAmoxor ty rpl ar d a b imm s := rfl
theorem exec_amomin (s : State) ty rpl ar d a b imm : exec (.amomin ty rpl ar d a b imm) s = execAmomin ty rpl ar d a b imm s := rfl
theorem exec_amomax (s : State) ty rpl ar d a b imm : exec (.amomax ty rpl ar d a b imm) s = execAmomax ty rpl ar d a b imm s := rfl
theorem exec_amoswp (s : State) ty rpl ar d a b imm : exec (.amoswp ty rpl ar d a b imm) s = execAmoswp ty rpl ar d a b imm s := rfl
theorem exec_amocas (s : State) ty rpl ar d a b c imm : exec (.amocas ty rpl ar d a b c imm) s = execAmocas ty rpl ar d a b c imm s := rfl
theorem exec_cstore4 (s : State) sel d a b c imm : exec (.cstore4 sel d a b c imm) s = execCstore4 sel d a b c imm s := rfl
theorem exec_fence (s : State) ar : exec (.fence ar) s = execFence ar s := rfl
theorem exec_publ (s : State) a imm : exec (.publ a imm) s = execPubl a imm s := rfl
theorem exec_copy (s : State) ar b : exec (.copy ar b) s = execCopy ar b s := rfl
theorem exec_copyGath (s : State) ar b : exec (.copyGath ar b) s = execCopyGath ar b s := rfl
theorem exec_copyScat (s : State) ar b : exec (.copyScat ar b) s = execCopyScat ar b s := rfl
theorem exec_redc (s : State) op ty rm fzi fzo ar b : exec (.redc op ty rm fzi fzo ar b) s = execRedc op ty rm fzi fzo ar b s := rfl
theorem exec_rdb (s : State) ar d a b c imm : exec (.rdb ar d a b c imm) s = execRdb ar d a b c imm s := rfl
theorem exec_cres (s : State) a : exec (.cres a) s = execCres a s := rfl
theorem exec_cdrop (s : State) a : exec (.cdrop a) s = execCdrop a s := rfl
theorem exec_mon (s : State) d a b imm : exec (.mon d a b imm) s = execMon d a b imm s := rfl
theorem exec_monx (s : State) d : exec (.monx d) s = execMonx d s := rfl
theorem exec_cvrel (s : State) a b : exec (.cvrel a b) s = execCvrel a b s := rfl
theorem exec_cvstat (s : State) d a : exec (.cvstat d a) s = execCvstat d a s := rfl
theorem exec_mma (s : State) bs ty rm fzi fzo d a b c : exec (.mma bs ty rm fzi fzo d a b c) s = execMma bs ty rm fzi fzo d a b c s := rfl
theorem exec_mmaz (s : State) bs ty rm fzi fzo d a b c : exec (.mmaz bs ty rm fzi fzo d a b c) s = execMmaz bs ty rm fzi fzo d a b c s := rfl
theorem exec_mmag (s : State) bs ty rm fzi fzo d a b c e : exec (.mmag bs ty rm fzi fzo d a b c e) s = execMmag bs ty rm fzi fzo d a b c e s := rfl
theorem exec_bld (s : State) bs ty fzi a c : exec (.bld bs ty fzi a c) s = execBld bs ty fzi a c s := rfl
theorem exec_bfree (s : State) bs c : exec (.bfree bs c) s = execBfree bs c s := rfl
theorem exec_route (s : State) b c : exec (.route b c) s = execRoute b c s := rfl
theorem exec_mlbe (s : State) bs mean d a c e : exec (.mlbe bs mean d a c e) s = execMlbe bs mean d a c e s := rfl
theorem exec_noise (s : State) v d a b c e n0 cnt : exec (.noise v d a b c e n0 cnt) s = execNoise v d a b c e n0 cnt s := rfl
theorem exec_endt (s : State) : exec (.endt) s = execEndt s := rfl
theorem exec_dgrd (s : State) d : exec (.dgrd d) s = execDgrd d s := rfl
theorem exec_dgmix (s : State) a : exec (.dgmix a) s = execDgmix a s := rfl
theorem exec_slstat (s : State) d : exec (.slstat d) s = execSlstat d s := rfl
theorem exec_send (s : State) rel a b : exec (.send rel a b) s = execSend rel a b s := rfl
theorem exec_sendd (s : State) rel a b c : exec (.sendd rel a b c) s = execSendd rel a b c s := rfl
theorem exec_sendv (s : State) rel a b : exec (.sendv rel a b) s = execSendv rel a b s := rfl
theorem exec_reply (s : State) rel a b : exec (.reply rel a b) s = execReply rel a b s := rfl
theorem exec_maskc (s : State) a : exec (.maskc a) s = execMaskc a s := rfl
theorem exec_unmaskc (s : State) a : exec (.unmaskc a) s = execUnmaskc a s := rfl
theorem exec_park (s : State) a : exec (.park a) s = execPark a s := rfl
theorem exec_unpark (s : State) a : exec (.unpark a) s = execUnpark a s := rfl
theorem exec_unparkDrop (s : State) a : exec (.unparkDrop a) s = execUnparkDrop a s := rfl
theorem exec_htset (s : State) a b : exec (.htset a b) s = execHtset a b s := rfl
theorem exec_fork (s : State) rel a b c : exec (.fork rel a b c) s = execFork rel a b c s := rfl
theorem exec_join (s : State) d a b c : exec (.join d a b c) s = execJoin d a b c s := rfl
theorem exec_jret (s : State) a : exec (.jret a) s = execJret a s := rfl
theorem exec_barinit (s : State) a b c : exec (.barinit a b c) s = execBarinit a b c s := rfl
theorem exec_bara (s : State) a b : exec (.bara a b) s = execBara a b s := rfl
theorem exec_bard (s : State) a : exec (.bard a) s = execBard a s := rfl
theorem exec_stage (s : State) a : exec (.stage a) s = execStage a s := rfl
theorem exec_launch (s : State) a b : exec (.launch a b) s = execLaunch a b s := rfl
theorem exec_draw (s : State) d a b : exec (.draw d a b) s = execDraw d a b s := rfl
theorem exec_reseed (s : State) : exec (.reseed) s = execReseed s := rfl
theorem exec_excq (s : State) d a b : exec (.excq d a b) s = execExcq d a b s := rfl
theorem exec_excqp (s : State) d a b : exec (.excqp d a b) s = execExcqp d a b s := rfl
theorem exec_wset (s : State) a : exec (.wset a) s = execWset a s := rfl
theorem exec_incumbMin (s : State) a b : exec (.incumbMin a b) s = execIncumbMin a b s := rfl
theorem exec_incumbMax (s : State) a b : exec (.incumbMax a b) s = execIncumbMax a b s := rfl
theorem exec_rdinc (s : State) d : exec (.rdinc d) s = execRdinc d s := rfl
theorem exec_rdincPay (s : State) d : exec (.rdincPay d) s = execRdincPay d s := rfl
theorem exec_rdincSt (s : State) d : exec (.rdincSt d) s = execRdincSt d s := rfl
theorem exec_killpt (s : State) : exec (.killpt) s = execKillpt s := rfl
theorem exec_bound (s : State) a : exec (.bound a) s = execBound a s := rfl
theorem exec_trap (s : State) a : exec (.trap a) s = execTrap a s := rfl
theorem exec_sysc (s : State) a b : exec (.sysc a b) s = execSysc a b s := rfl
theorem exec_rds (s : State) d num : exec (.rds d num) s = execRds d num s := rfl
theorem exec_wrs (s : State) a num : exec (.wrs a num) s = execWrs a num s := rfl
theorem exec_tlbinv (s : State) a : exec (.tlbinv a) s = execTlbinv a s := rfl
theorem exec_tlbinvCtx (s : State) : exec (.tlbinvCtx) s = execTlbinvCtx s := rfl
theorem exec_haltSusp (s : State) a b : exec (.haltSusp a b) s = execHaltSusp a b s := rfl
theorem exec_haltHalt (s : State) a b : exec (.haltHalt a b) s = execHaltHalt a b s := rfl
theorem exec_haltRes (s : State) a b : exec (.haltRes a b) s = execHaltRes a b s := rfl
theorem exec_fltpop (s : State) d : exec (.fltpop d) s = execFltpop d s := rfl
theorem exec_jig (s : State) a bodym1 jstep wbase wsize ast : exec (.jig a bodym1 jstep wbase wsize ast) s = execJig a bodym1 jstep wbase wsize ast s := rfl
theorem exec_unclamp (s : State) : exec (.unclamp) s = execUnclamp s := rfl
theorem exec_clw (s : State) d : exec (.clw d) s = execClw d s := rfl
theorem exec_commit (s : State) c : exec (.commit c) s = execCommit c s := rfl
theorem exec_lease (s : State) c line : exec (.lease c line) s = execLease c line s := rfl
theorem exec_walk (s : State) c va k : exec (.walk c va k) s = execWalk c va k s := rfl
theorem exec_l2Fill (s : State) slice line owner : exec (.l2Fill slice line owner) s = execL2Fill slice line owner s := rfl
theorem exec_lotteryGrant (s : State) cls idx want : exec (.lotteryGrant cls idx want) s = execLotteryGrant cls idx want s := rfl
theorem exec_pinmax (s : State) line : exec (.pinmax line) s = execPinmax line s := rfl
theorem exec_hotLineWindow (s : State) thr len : exec (.hotLineWindow thr len) s = execHotLineWindow thr len s := rfl
theorem exec_recall (s : State) line die : exec (.recall line die) s = execRecall line die s := rfl
theorem exec_remoteAtomic (s : State) e : exec (.remoteAtomic e) s = execRemoteAtomic e s := rfl
theorem exec_hostAccess (s : State) h : exec (.hostAccess h) s = execHostAccess h s := rfl
theorem exec_biasSwitch (s : State) page : exec (.biasSwitch page) s = execBiasSwitch page s := rfl
theorem exec_biasTimeout (s : State) page : exec (.biasTimeout page) s = execBiasTimeout page s := rfl
theorem exec_flitReplay (s : State) line attempts : exec (.flitReplay line attempts) s = execFlitReplay line attempts s := rfl
theorem exec_engineCommandStart (s : State) id : exec (.engineCommandStart id) s = execEngineCommandStart id s := rfl
theorem exec_culvertReserve (s : State) id : exec (.culvertReserve id) s = execCulvertReserve id s := rfl
theorem exec_feedConsume (s : State) id : exec (.feedConsume id) s = execFeedConsume id s := rfl
theorem exec_engineCompletion (s : State) id : exec (.engineCompletion id) s = execEngineCompletion id s := rfl
theorem exec_culvertPush (s : State) c n : exec (.culvertPush c n) s = execCulvertPush c n s := rfl
theorem exec_heldMessageAccept (s : State) c : exec (.heldMessageAccept c) s = execHeldMessageAccept c s := rfl
theorem exec_monitorResend (s : State) k : exec (.monitorResend k) s = execMonitorResend k s := rfl
theorem exec_matrixGrant (s : State) bench : exec (.matrixGrant bench) s = execMatrixGrant bench s := rfl
theorem exec_matrixCommandEnd (s : State) bench : exec (.matrixCommandEnd bench) s = execMatrixCommandEnd bench s := rfl
theorem exec_messageDelivery (s : State) e : exec (.messageDelivery e) s = execMessageDelivery e s := rfl
theorem exec_senddDelay (s : State) c k : exec (.senddDelay c k) s = execSenddDelay c k s := rfl
theorem exec_taskSelect (s : State) c : exec (.taskSelect c) s = execTaskSelect c s := rfl
theorem exec_clampForm (s : State) c : exec (.clampForm c) s = execClampForm c s := rfl
theorem exec_budget (s : State) c : exec (.budget c) s = execBudget c s := rfl
theorem exec_steal (s : State) c ch : exec (.steal c ch) s = execSteal c ch s := rfl
theorem exec_joinArrive (s : State) k : exec (.joinArrive k) s = execJoinArrive k s := rfl
theorem exec_barrierArrival (s : State) e : exec (.barrierArrival e) s = execBarrierArrival e s := rfl
theorem exec_incumbentOffer (s : State) k : exec (.incumbentOffer k) s = execIncumbentOffer k s := rfl
theorem exec_incumbentUpdate (s : State) e : exec (.incumbentUpdate e) s = execIncumbentUpdate e s := rfl
theorem exec_launchSubmission (s : State) e : exec (.launchSubmission e) s = execLaunchSubmission e s := rfl
theorem exec_instanceEnd (s : State) id : exec (.instanceEnd id) s = execInstanceEnd id s := rfl
theorem exec_coreSuspend (s : State) c : exec (.coreSuspend c) s = execCoreSuspend c s := rfl
theorem exec_saveRowStreamed (s : State) part ctx row : exec (.saveRowStreamed part ctx row) s = execSaveRowStreamed part ctx row s := rfl
theorem exec_divertedArrival (s : State) k : exec (.divertedArrival k) s = execDivertedArrival k s := rfl
theorem exec_restoreRowLoaded (s : State) part ctx row : exec (.restoreRowLoaded part ctx row) s = execRestoreRowLoaded part ctx row s := rfl
theorem exec_hang (s : State) part ctx : exec (.hang part ctx) s = execHang part ctx s := rfl
theorem exec_launchCommand (s : State) fn seq : exec (.launchCommand fn seq) s = execLaunchCommand fn seq s := rfl
theorem exec_suspend (s : State) fn seq : exec (.suspend fn seq) s = execSuspend fn seq s := rfl
theorem exec_haltCommand (s : State) fn seq : exec (.haltCommand fn seq) s = execHaltCommand fn seq s := rfl
theorem exec_resume (s : State) fn seq : exec (.resume fn seq) s = execResume fn seq s := rfl
theorem exec_bias (s : State) fn seq : exec (.bias fn seq) s = execBias fn seq s := rfl
theorem exec_reset (s : State) fn seq : exec (.reset fn seq) s = execReset fn seq s := rfl
theorem exec_ckpt (s : State) fn seq : exec (.ckpt fn seq) s = execCkpt fn seq s := rfl
theorem exec_fenceCommand (s : State) fn seq : exec (.fenceCommand fn seq) s = execFenceCommand fn seq s := rfl
theorem exec_ctxnew (s : State) fn seq : exec (.ctxnew fn seq) s = execCtxnew fn seq s := rfl
theorem exec_ctxdel (s : State) fn seq : exec (.ctxdel fn seq) s = execCtxdel fn seq s := rfl
theorem exec_mapinv (s : State) fn seq : exec (.mapinv fn seq) s = execMapinv fn seq s := rfl
theorem exec_group (s : State) fn seq : exec (.group fn seq) s = execGroup fn seq s := rfl
theorem exec_tailWrite (s : State) fn v : exec (.tailWrite fn v) s = execTailWrite fn v s := rfl
theorem exec_lotteryConfigWrite (s : State) cls idx w : exec (.lotteryConfigWrite cls idx w) s = execLotteryConfigWrite cls idx w s := rfl
theorem exec_seedWrite (s : State) owner seed : exec (.seedWrite owner seed) s = execSeedWrite owner seed s := rfl
theorem exec_partitionMapWrite (s : State) part i e : exec (.partitionMapWrite part i e) s = execPartitionMapWrite part i e s := rfl
theorem exec_formatWindowWrite (s : State) tier w e : exec (.formatWindowWrite tier w e) s = execFormatWindowWrite tier w e s := rfl
theorem exec_diversionEntryWrite (s : State) part ctx e : exec (.diversionEntryWrite part ctx e) s = execDiversionEntryWrite part ctx e s := rfl
theorem exec_configRegisterWrite (s : State) off v : exec (.configRegisterWrite off v) s = execConfigRegisterWrite off v s := rfl
theorem exec_powerLimit (s : State) watts : exec (.powerLimit watts) s = execPowerLimit watts s := rfl
theorem exec_thermalLimit (s : State) hot : exec (.thermalLimit hot) s = execThermalLimit hot s := rfl
theorem exec_spdmRequest (s : State) fn idx : exec (.spdmRequest fn idx) s = execSpdmRequest fn idx s := rfl
theorem exec_deviceReset (s : State) fwOk : exec (.deviceReset fwOk) s = execDeviceReset fwOk s := rfl
theorem exec_instructionFetchFault (s : State) va : exec (.instructionFetchFault va) s = execInstructionFetchFault va s := rfl
theorem exec_hostAcknowledge (s : State) n : exec (.hostAcknowledge n) s = execHostAcknowledge n s := rfl
theorem exec_peerCopyAccess (s : State) p : exec (.peerCopyAccess p) s = execPeerCopyAccess p s := rfl
theorem exec_peerWriteAcknowledge (s : State) n : exec (.peerWriteAcknowledge n) s = execPeerWriteAcknowledge n s := rfl
theorem exec_globalPersistentFlush (s : State) ok : exec (.globalPersistentFlush ok) s = execGlobalPersistentFlush ok s := rfl
theorem exec_voltageLoop (s : State) cycles : exec (.voltageLoop cycles) s = execVoltageLoop cycles s := rfl
theorem exec_equalisationLoop (s : State) lane : exec (.equalisationLoop lane) s = execEqualisationLoop lane s := rfl

end Sys2Proof.Machine
end

