-- ==== Sys2Proof/Laws/Memory.lean ====
section
/-! SUPPORT. Laws of tables and of the sparse memory: reading after writing, and that every memory operation keeps the
canonical form (log 1). -/

namespace Sys2Proof.Machine

/-! ## Tables -/

section
variable {κ α : Type} [DecidableEq κ]

theorem tget?_tput_same (t : List (κ × α)) (k : κ) (v : α) : tget? (tput t k v) k = some v := by
  induction t with
  | nil => simp [tput, tget?]
  | cons p t ih =>
    simp only [tput]
    split
    · simp [tget?]
    · rename_i h
      simp [tget?, h, ih]

theorem tget?_tput_other (t : List (κ × α)) {k j : κ} (v : α) (h : j ≠ k) : tget? (tput t k v) j = tget? t j := by
  induction t with
  | nil => simp [tput, tget?, Ne.symm h]
  | cons p t ih =>
    simp only [tput]
    split
    · rename_i e
      subst e
      simp [tget?, Ne.symm h]
    · simp [tget?, ih]

theorem tget?_tput (t : List (κ × α)) (k j : κ) (v : α) : tget? (tput t k v) j = if j = k then some v else tget? t j := by
  split
  · rename_i h
    subst h
    exact tget?_tput_same t j v
  · rename_i h
    exact tget?_tput_other t v h

theorem tget_tput (t : List (κ × α)) (k j : κ) (v d : α) : tget (tput t k v) j d = if j = k then v else tget t j d := by
  simp only [tget, tget?_tput]
  split <;> rfl

/-- Every entry after a replacement is the new one or an old one. -/
theorem mem_tput {t : List (κ × α)} {k : κ} {v : α} {p : κ × α} (h : p ∈ tput t k v) : p = (k, v) ∨ p ∈ t := by
  induction t with
  | nil => exact .inl (by simpa [tput] using h)
  | cons q t ih =>
    simp only [tput] at h
    split at h
    · rcases List.mem_cons.mp h with rfl | h
      · exact .inl rfl
      · exact .inr (List.mem_cons_of_mem _ h)
    · rcases List.mem_cons.mp h with rfl | h
      · exact .inr List.mem_cons_self
      · exact (ih h).imp_right (List.mem_cons_of_mem _)

/-- An entry found stands in the table. -/
theorem tget?_mem {t : List (κ × α)} {k : κ} {v : α} (h : tget? t k = some v) : (k, v) ∈ t := by
  induction t with
  | nil => cases h
  | cons q t ih =>
    simp only [tget?] at h
    split at h
    · rename_i e
      cases e
      cases h
      exact List.mem_cons_self
    · exact List.mem_cons_of_mem _ (ih h)

end

/-! ## The canonical form -/

/-- The form of the rest of a memory after an address. -/
theorem memAbove_cons (lo : Option Nat) (a : Nat) (b : Byte) (m : List Host.Cell) :
    memAbove lo ((a, b) :: m) = true ↔ (∀ l, lo = some l → l < a) ∧ b ≠ memDefault ∧ memAbove (some a) m = true := by
  cases lo <;> simp [memAbove, and_assoc]

theorem memAbove_weaken {lo a : Nat} {m : List Host.Cell} (h : lo ≤ a) (hm : memAbove (some a) m = true) :
    memAbove (some lo) m = true := by
  cases m with
  | nil => rfl
  | cons c m =>
    rw [memAbove_cons] at hm ⊢
    exact ⟨fun l e => by (cases e; have := hm.1 a rfl; omega), hm.2⟩

theorem memAbove_none {lo : Option Nat} {m : List Host.Cell} (hm : memAbove lo m = true) : memAbove none m = true := by
  cases m with
  | nil => rfl
  | cons c m =>
    rw [memAbove_cons] at hm ⊢
    exact ⟨fun l e => (by cases e), hm.2⟩

theorem memAbove_mset {lo : Option Nat} {m : List Host.Cell} (a : Nat) (b : Byte) (ha : ∀ l, lo = some l → l < a)
    (hm : memAbove lo m = true) : memAbove lo (mset m a b) = true := by
  induction m generalizing lo with
  | nil =>
    simp only [mset]
    split
    · rfl
    · rw [memAbove_cons]
      exact ⟨ha, ‹_›, rfl⟩
  | cons c m ih =>
    obtain ⟨a', b'⟩ := c
    rw [memAbove_cons] at hm
    obtain ⟨h1, h2, h3⟩ := hm
    simp only [mset]
    split
    · rename_i e
      subst e
      split
      · cases lo with
        | none => exact memAbove_none h3
        | some l => exact memAbove_weaken (Nat.le_of_lt (h1 l rfl)) h3
      · rw [memAbove_cons]
        exact ⟨ha, ‹_›, h3⟩
    · split
      · rename_i hlt
        split
        · rw [memAbove_cons]
          exact ⟨h1, h2, h3⟩
        · rw [memAbove_cons, memAbove_cons]
          exact ⟨ha, ‹_›, fun l e => by (cases e; exact hlt), h2, h3⟩
      · rw [memAbove_cons]
        exact ⟨h1, h2, ih (fun l e => by cases e; omega) h3⟩

/-- Writing a byte keeps the canonical form. -/
theorem wf_mset {m : List Host.Cell} (a : Nat) (b : Byte) (h : Memory.wf m = true) : Memory.wf (mset m a b) = true :=
  memAbove_mset a b (fun _ e => nomatch e) h

/-- Writing bytes keeps the canonical form. -/
theorem wf_mwrite {m : List Host.Cell} (a : Nat) (bs : List Byte) (h : Memory.wf m = true) :
    Memory.wf (mwrite m a bs) = true := by
  induction bs generalizing m a with
  | nil => exact h
  | cons b bs ih => exact ih (a + 1) (wf_mset a b h)

/-- Writing masked bytes keeps the canonical form. -/
theorem wf_mwriteMask {m : List Host.Cell} (a : Nat) (bs : List (Option Byte)) (h : Memory.wf m = true) :
    Memory.wf (mwriteMask m a bs) = true := by
  induction bs generalizing m a with
  | nil => exact h
  | cons b bs ih =>
    cases b with
    | none => exact ih (a + 1) h
    | some b => exact ih (a + 1) (wf_mset a b h)

theorem memAbove_filter {lo : Option Nat} {m : List Host.Cell} (p : Host.Cell → Bool) (h : memAbove lo m = true) :
    memAbove lo (m.filter p) = true := by
  induction m generalizing lo with
  | nil => rfl
  | cons c m ih =>
    obtain ⟨a, b⟩ := c
    rw [memAbove_cons] at h
    obtain ⟨h1, h2, h3⟩ := h
    rw [List.filter_cons]
    split
    · rw [memAbove_cons]
      exact ⟨h1, h2, ih h3⟩
    · have := ih h3
      cases lo with
      | none => exact memAbove_none this
      | some l => exact memAbove_weaken (Nat.le_of_lt (h1 l rfl)) this

/-- Keeping some of the cells keeps the canonical form. -/
theorem wf_filter {m : List Host.Cell} (p : Host.Cell → Bool) (h : Memory.wf m = true) : Memory.wf (m.filter p) = true :=
  memAbove_filter p h

/-- Clearing a range keeps the canonical form. -/
theorem wf_mclear {m : List Host.Cell} (a n : Nat) (h : Memory.wf m = true) : Memory.wf (mclear m a n) = true :=
  wf_filter _ h

theorem memAbove_shift {lo : Option Nat} {m : List Host.Cell} (d : Nat) (hd : ∀ c ∈ m, d ≤ c.1) (hl : ∀ l, lo = some l → d ≤ l)
    (h : memAbove lo m = true) : memAbove (lo.map (· - d)) (m.map fun c => (c.1 - d, c.2)) = true := by
  induction m generalizing lo with
  | nil => cases lo <;> rfl
  | cons c m ih =>
    obtain ⟨a, b⟩ := c
    rw [memAbove_cons] at h
    obtain ⟨h1, h2, h3⟩ := h
    have ha : d ≤ a := hd (a, b) List.mem_cons_self
    rw [List.map_cons, memAbove_cons]
    refine ⟨fun l e => ?_, h2, ?_⟩
    · cases lo with
      | none => cases e
      | some l' =>
        cases e
        have := h1 l' rfl
        have := hl l' rfl
        simp only
        omega
    · exact ih (fun c hc => hd c (List.mem_cons_of_mem _ hc)) (fun l e => by cases e; exact ha) h3

/-- A part of memory moved to address 0 is in canonical form. -/
theorem wf_part {m : List Host.Cell} (a n : Nat) (h : Memory.wf m = true) :
    Memory.wf ((m.filter fun c => decide (a ≤ c.1) && decide (c.1 < a + n)).map fun c => (c.1 - a, c.2)) = true := by
  refine memAbove_shift (lo := none) a (fun c hc => ?_) (fun _ e => nomatch e) (wf_filter _ h)
  have := (List.mem_filter.mp hc).2
  simp at this
  exact this.1

/-! ## Reading after writing -/

theorem mget_above {lo a : Nat} {m : List Host.Cell} (h : memAbove (some lo) m = true) (ha : a ≤ lo) : mget m a = memDefault := by
  cases m with
  | nil => rfl
  | cons c m =>
    obtain ⟨a', b⟩ := c
    rw [memAbove_cons] at h
    have := h.1 lo rfl
    simp only [mget]
    rw [if_neg (by omega), if_pos (by omega)]

theorem mget_mset_above {lo : Option Nat} {m : List Host.Cell} (a x : Nat) (b : Byte) (h : memAbove lo m = true) :
    mget (mset m a b) x = if x = a then b else mget m x := by
  induction m generalizing lo with
  | nil =>
    by_cases hx : x = a
    · subst hx
      by_cases hb : b = memDefault <;> simp [mset, mget, hb]
    · by_cases hb : b = memDefault <;> simp [mset, mget, hb, hx, Ne.symm hx]
  | cons c m ih =>
    obtain ⟨a', b'⟩ := c
    rw [memAbove_cons] at h
    obtain ⟨h1, h2, h3⟩ := h
    simp only [mset]
    split
    · rename_i e
      subst e
      by_cases hb : b = memDefault
      · simp only [hb, if_true]
        by_cases hx : x = a'
        · subst hx
          simp [mget_above h3 (Nat.le_refl _)]
        · simp only [hx, if_false, mget, if_neg (Ne.symm hx)]
          split
          · exact mget_above h3 (by omega)
          · rfl
      · simp only [hb, if_false]
        by_cases hx : x = a'
        · subst hx
          simp [mget]
        · simp [mget, hx, Ne.symm hx]
    · rename_i hne
      split
      · rename_i hlt
        by_cases hb : b = memDefault
        · simp only [hb, if_true]
          by_cases hx : x = a
          · subst hx
            simp [mget, hne, hlt]
          · simp [hx]
        · simp only [hb, if_false]
          by_cases hx : x = a
          · subst hx
            simp [mget]
          · by_cases hxa : x < a
            · simp [mget, hx, Ne.symm hx, hxa, show a' ≠ x by omega, show x < a' by omega]
            · simp [mget, hx, Ne.symm hx, hxa]
      · by_cases hx : x = a'
        · subst hx
          simp [mget, hne]
        · by_cases hxa : x < a'
          · simp [mget, Ne.symm hx, hxa, show x ≠ a by omega]
          · simp [mget, Ne.symm hx, hxa, ih h3]

/-- A byte read after a byte is written: the new one at its address, the old one everywhere else. -/
theorem mget_mset {m : List Host.Cell} (a x : Nat) (b : Byte) (h : Memory.wf m = true) :
    mget (mset m a b) x = if x = a then b else mget m x :=
  mget_mset_above a x b h

/-- A byte read after bytes are written. -/
theorem mget_mwrite {m : List Host.Cell} (a x : Nat) (bs : List Byte) (h : Memory.wf m = true) :
    mget (mwrite m a bs) x = if a ≤ x then (bs[x - a]?).getD (mget m x) else mget m x := by
  induction bs generalizing m a with
  | nil => simp [mwrite]
  | cons b bs ih =>
    rw [mwrite, ih (a + 1) (wf_mset a b h), mget_mset a x b h]
    by_cases h1 : x = a
    · subst h1
      simp
    · by_cases h2 : a ≤ x
      · have : x - a = (x - (a + 1)) + 1 := by omega
        simp [h1, h2, show a + 1 ≤ x by omega, this]
      · simp [h1, h2, show ¬ a + 1 ≤ x by omega]

/-- A byte read after masked bytes are written. -/
theorem mget_mwriteMask {m : List Host.Cell} (a x : Nat) (bs : List (Option Byte)) (h : Memory.wf m = true) :
    mget (mwriteMask m a bs) x = if a ≤ x then ((bs[x - a]?).join).getD (mget m x) else mget m x := by
  induction bs generalizing m a with
  | nil => simp [mwriteMask]
  | cons b bs ih =>
    have step : ∀ (m' : List Host.Cell), Memory.wf m' = true → (∀ y, y ≠ a → mget m' y = mget m y) →
        mget m' a = b.getD (mget m a) → mget (mwriteMask m' (a + 1) bs) x =
          if a ≤ x then (((b :: bs)[x - a]?).join).getD (mget m x) else mget m x := by
      intro m' hw hy hA
      rw [ih (a + 1) hw]
      by_cases h1 : x = a
      · subst h1
        simp [hA]
      · rw [hy x h1]
        by_cases h2 : a ≤ x
        · have : x - a = (x - (a + 1)) + 1 := by omega
          simp [h2, show a + 1 ≤ x by omega, this]
        · simp [h2, show ¬ a + 1 ≤ x by omega]
    cases b with
    | none => exact step m h (fun _ _ => rfl) rfl
    | some b =>
      exact step (mset m a b) (wf_mset a b h) (fun y hy => by rw [mget_mset a y b h, if_neg hy]) (by rw [mget_mset a a b h]; simp)

/-- Two memories in canonical form that read alike are equal. -/
theorem memory_ext {m m' : List Host.Cell} (h : Memory.wf m = true) (h' : Memory.wf m' = true) (e : ∀ a, mget m a = mget m' a) :
    m = m' := by
  have key : ∀ (lo : Option Nat) (m m' : List Host.Cell), memAbove lo m = true → memAbove lo m' = true →
      (∀ a, mget m a = mget m' a) → m = m' := by
    intro lo m
    induction m generalizing lo with
    | nil =>
      intro m' _ h' e
      cases m' with
      | nil => rfl
      | cons c m' =>
        obtain ⟨a, b⟩ := c
        rw [memAbove_cons] at h'
        exact absurd (by simpa [mget] using (e a).symm) h'.2.1
    | cons c m ih =>
      intro m' h h' e
      obtain ⟨a, b⟩ := c
      rw [memAbove_cons] at h
      cases m' with
      | nil => exact absurd (by simpa [mget] using e a) h.2.1
      | cons c' m' =>
        obtain ⟨a', b'⟩ := c'
        rw [memAbove_cons] at h'
        have hA := e a
        have hB := e a'
        simp only [mget, if_true] at hA hB
        rcases Nat.lt_trichotomy a a' with hlt | heq | hgt
        · rw [if_neg (by omega), if_pos hlt] at hA
          exact absurd hA h.2.1
        · subst heq
          simp at hA
          subst hA
          rw [ih (some a) m' h.2.2 h'.2.2 fun x => ?_]
          have hx := e x
          simp only [mget] at hx
          by_cases h1 : a = x
          · subst h1
            rw [mget_above h.2.2 (Nat.le_refl _), mget_above h'.2.2 (Nat.le_refl _)]
          · rw [if_neg h1, if_neg h1] at hx
            by_cases h2 : x < a
            · rw [mget_above h.2.2 (by omega), mget_above h'.2.2 (by omega)]
            · rw [if_neg h2, if_neg h2] at hx
              exact hx
        · rw [if_neg (by omega), if_pos (by omega)] at hB
          exact absurd hB.symm h'.2.1
  exact key none m m' h h' e

/-- A memory that lists nothing is in canonical form. -/
theorem wf_nil : Memory.wf [] = true := rfl

end Sys2Proof.Machine
end

