-- ==== Sys2Proof/Laws/State.lean ====
section
/-! SUPPORT. What each update of the state leaves alone: one lemma per field per update, so that no later proof unfolds a
record update. -/

namespace Sys2Proof.Machine

/-! ## A core, a line, an instance, a context, a message replaced or added -/

@[simp] theorem State.setCore_mem (s : State) (c : Nat) (k : Core) : (s.setCore c k).mem = s.mem := rfl
@[simp] theorem State.setCore_lines (s : State) (c : Nat) (k : Core) : (s.setCore c k).lines = s.lines := rfl
@[simp] theorem State.setCore_leaseLen (s : State) (c : Nat) (k : Core) : (s.setCore c k).leaseLen = s.leaseLen := rfl
@[simp] theorem State.setCore_hotThr (s : State) (c : Nat) (k : Core) : (s.setCore c k).hotThr = s.hotThr := rfl
@[simp] theorem State.setCore_grants (s : State) (c : Nat) (k : Core) : (s.setCore c k).grants = s.grants := rfl
@[simp] theorem State.setCore_grantStart (s : State) (c : Nat) (k : Core) : (s.setCore c k).grantStart = s.grantStart := rfl
@[simp] theorem State.setCore_replicas (s : State) (c : Nat) (k : Core) : (s.setCore c k).replicas = s.replicas := rfl
@[simp] theorem State.setCore_redirects (s : State) (c : Nat) (k : Core) : (s.setCore c k).redirects = s.redirects := rfl
@[simp] theorem State.setCore_written (s : State) (c : Nat) (k : Core) : (s.setCore c k).written = s.written := rfl
@[simp] theorem State.setCore_corePts (s : State) (c : Nat) (k : Core) : (s.setCore c k).corePts = s.corePts := rfl
@[simp] theorem State.setCore_walkers (s : State) (c : Nat) (k : Core) : (s.setCore c k).walkers = s.walkers := rfl
@[simp] theorem State.setCore_lineReqs (s : State) (c : Nat) (k : Core) : (s.setCore c k).lineReqs = s.lineReqs := rfl
@[simp] theorem State.setCore_portAt (s : State) (c : Nat) (k : Core) : (s.setCore c k).portAt = s.portAt := rfl
@[simp] theorem State.setCore_mcSlots (s : State) (c : Nat) (k : Core) : (s.setCore c k).mcSlots = s.mcSlots := rfl
@[simp] theorem State.setCore_now (s : State) (c : Nat) (k : Core) : (s.setCore c k).now = s.now := rfl
@[simp] theorem State.setCore_plat (s : State) (c : Nat) (k : Core) : (s.setCore c k).plat = s.plat := rfl
@[simp] theorem State.setCore_parts (s : State) (c : Nat) (k : Core) : (s.setCore c k).parts = s.parts := rfl
@[simp] theorem State.setCore_dents (s : State) (c : Nat) (k : Core) : (s.setCore c k).dents = s.dents := rfl
@[simp] theorem State.setCore_ctxs (s : State) (c : Nat) (k : Core) : (s.setCore c k).ctxs = s.ctxs := rfl
@[simp] theorem State.setCore_windows (s : State) (c : Nat) (k : Core) : (s.setCore c k).windows = s.windows := rfl
@[simp] theorem State.setCore_owners (s : State) (c : Nat) (k : Core) : (s.setCore c k).owners = s.owners := rfl
@[simp] theorem State.setCore_lotts (s : State) (c : Nat) (k : Core) : (s.setCore c k).lotts = s.lotts := rfl
@[simp] theorem State.setCore_l2 (s : State) (c : Nat) (k : Core) : (s.setCore c k).l2 = s.l2 := rfl
@[simp] theorem State.setCore_bias (s : State) (c : Nat) (k : Core) : (s.setCore c k).bias = s.bias := rfl
@[simp] theorem State.setCore_flips (s : State) (c : Nat) (k : Core) : (s.setCore c k).flips = s.flips := rfl
@[simp] theorem State.setCore_hostPend (s : State) (c : Nat) (k : Core) : (s.setCore c k).hostPend = s.hostPend := rfl
@[simp] theorem State.setCore_peerPend (s : State) (c : Nat) (k : Core) : (s.setCore c k).peerPend = s.peerPend := rfl
@[simp] theorem State.setCore_ackNext (s : State) (c : Nat) (k : Core) : (s.setCore c k).ackNext = s.ackNext := rfl
@[simp] theorem State.setCore_remotes (s : State) (c : Nat) (k : Core) : (s.setCore c k).remotes = s.remotes := rfl
@[simp] theorem State.setCore_leaving (s : State) (c : Nat) (k : Core) : (s.setCore c k).leaving = s.leaving := rfl
@[simp] theorem State.setCore_mons (s : State) (c : Nat) (k : Core) : (s.setCore c k).mons = s.mons := rfl
@[simp] theorem State.setCore_cmds (s : State) (c : Nat) (k : Core) : (s.setCore c k).cmds = s.cmds := rfl
@[simp] theorem State.setCore_feeds (s : State) (c : Nat) (k : Core) : (s.setCore c k).feeds = s.feeds := rfl
@[simp] theorem State.setCore_mxq (s : State) (c : Nat) (k : Core) : (s.setCore c k).mxq = s.mxq := rfl
@[simp] theorem State.setCore_mxrun (s : State) (c : Nat) (k : Core) : (s.setCore c k).mxrun = s.mxrun := rfl
@[simp] theorem State.setCore_slots (s : State) (c : Nat) (k : Core) : (s.setCore c k).slots = s.slots := rfl
@[simp] theorem State.setCore_pushes (s : State) (c : Nat) (k : Core) : (s.setCore c k).pushes = s.pushes := rfl
@[simp] theorem State.setCore_net (s : State) (c : Nat) (k : Core) : (s.setCore c k).net = s.net := rfl
@[simp] theorem State.setCore_ctl (s : State) (c : Nat) (k : Core) : (s.setCore c k).ctl = s.ctl := rfl
@[simp] theorem State.setCore_subs (s : State) (c : Nat) (k : Core) : (s.setCore c k).subs = s.subs := rfl
@[simp] theorem State.setCore_reqs (s : State) (c : Nat) (k : Core) : (s.setCore c k).reqs = s.reqs := rfl
@[simp] theorem State.setCore_haltQ (s : State) (c : Nat) (k : Core) : (s.setCore c k).haltQ = s.haltQ := rfl
@[simp] theorem State.setCore_tlbs (s : State) (c : Nat) (k : Core) : (s.setCore c k).tlbs = s.tlbs := rfl
@[simp] theorem State.setCore_insts (s : State) (c : Nat) (k : Core) : (s.setCore c k).insts = s.insts := rfl
@[simp] theorem State.setCore_ended (s : State) (c : Nat) (k : Core) : (s.setCore c k).ended = s.ended := rfl
@[simp] theorem State.setCore_endedGroups (s : State) (c : Nat) (k : Core) : (s.setCore c k).endedGroups = s.endedGroups := rfl
@[simp] theorem State.setCore_coreNext (s : State) (c : Nat) (k : Core) : (s.setCore c k).coreNext = s.coreNext := rfl
@[simp] theorem State.setCore_instNext (s : State) (c : Nat) (k : Core) : (s.setCore c k).instNext = s.instNext := rfl
@[simp] theorem State.setCore_cmdNext (s : State) (c : Nat) (k : Core) : (s.setCore c k).cmdNext = s.cmdNext := rfl
@[simp] theorem State.setCore_joinVers (s : State) (c : Nat) (k : Core) : (s.setCore c k).joinVers = s.joinVers := rfl
@[simp] theorem State.setCore_fns (s : State) (c : Nat) (k : Core) : (s.setCore c k).fns = s.fns := rfl
@[simp] theorem State.setCore_hcmds (s : State) (c : Nat) (k : Core) : (s.setCore c k).hcmds = s.hcmds := rfl
@[simp] theorem State.setCore_jq (s : State) (c : Nat) (k : Core) : (s.setCore c k).jq = s.jq := rfl
@[simp] theorem State.setCore_out (s : State) (c : Nat) (k : Core) : (s.setCore c k).out = s.out := rfl
@[simp] theorem State.setCore_agenda (s : State) (c : Nat) (k : Core) : (s.setCore c k).agenda = s.agenda := rfl
@[simp] theorem State.setCore_cur (s : State) (c : Nat) (k : Core) : (s.setCore c k).cur = s.cur := rfl
@[simp] theorem State.setCore_freeCnt (s : State) (c : Nat) (k : Core) : (s.setCore c k).freeCnt = s.freeCnt := rfl

@[simp] theorem State.setCore_cores (s : State) (c : Nat) (k : Core) : (s.setCore c k).cores = tput s.cores c k := rfl

@[simp] theorem State.setLine_mem (s : State) (l : Nat) (x : Line) : (s.setLine l x).mem = s.mem := rfl
@[simp] theorem State.setLine_leaseLen (s : State) (l : Nat) (x : Line) : (s.setLine l x).leaseLen = s.leaseLen := rfl
@[simp] theorem State.setLine_hotThr (s : State) (l : Nat) (x : Line) : (s.setLine l x).hotThr = s.hotThr := rfl
@[simp] theorem State.setLine_grants (s : State) (l : Nat) (x : Line) : (s.setLine l x).grants = s.grants := rfl
@[simp] theorem State.setLine_grantStart (s : State) (l : Nat) (x : Line) : (s.setLine l x).grantStart = s.grantStart := rfl
@[simp] theorem State.setLine_replicas (s : State) (l : Nat) (x : Line) : (s.setLine l x).replicas = s.replicas := rfl
@[simp] theorem State.setLine_redirects (s : State) (l : Nat) (x : Line) : (s.setLine l x).redirects = s.redirects := rfl
@[simp] theorem State.setLine_written (s : State) (l : Nat) (x : Line) : (s.setLine l x).written = s.written := rfl
@[simp] theorem State.setLine_corePts (s : State) (l : Nat) (x : Line) : (s.setLine l x).corePts = s.corePts := rfl
@[simp] theorem State.setLine_walkers (s : State) (l : Nat) (x : Line) : (s.setLine l x).walkers = s.walkers := rfl
@[simp] theorem State.setLine_lineReqs (s : State) (l : Nat) (x : Line) : (s.setLine l x).lineReqs = s.lineReqs := rfl
@[simp] theorem State.setLine_portAt (s : State) (l : Nat) (x : Line) : (s.setLine l x).portAt = s.portAt := rfl
@[simp] theorem State.setLine_mcSlots (s : State) (l : Nat) (x : Line) : (s.setLine l x).mcSlots = s.mcSlots := rfl
@[simp] theorem State.setLine_now (s : State) (l : Nat) (x : Line) : (s.setLine l x).now = s.now := rfl
@[simp] theorem State.setLine_plat (s : State) (l : Nat) (x : Line) : (s.setLine l x).plat = s.plat := rfl
@[simp] theorem State.setLine_parts (s : State) (l : Nat) (x : Line) : (s.setLine l x).parts = s.parts := rfl
@[simp] theorem State.setLine_dents (s : State) (l : Nat) (x : Line) : (s.setLine l x).dents = s.dents := rfl
@[simp] theorem State.setLine_ctxs (s : State) (l : Nat) (x : Line) : (s.setLine l x).ctxs = s.ctxs := rfl
@[simp] theorem State.setLine_windows (s : State) (l : Nat) (x : Line) : (s.setLine l x).windows = s.windows := rfl
@[simp] theorem State.setLine_owners (s : State) (l : Nat) (x : Line) : (s.setLine l x).owners = s.owners := rfl
@[simp] theorem State.setLine_lotts (s : State) (l : Nat) (x : Line) : (s.setLine l x).lotts = s.lotts := rfl
@[simp] theorem State.setLine_l2 (s : State) (l : Nat) (x : Line) : (s.setLine l x).l2 = s.l2 := rfl
@[simp] theorem State.setLine_bias (s : State) (l : Nat) (x : Line) : (s.setLine l x).bias = s.bias := rfl
@[simp] theorem State.setLine_flips (s : State) (l : Nat) (x : Line) : (s.setLine l x).flips = s.flips := rfl
@[simp] theorem State.setLine_hostPend (s : State) (l : Nat) (x : Line) : (s.setLine l x).hostPend = s.hostPend := rfl
@[simp] theorem State.setLine_peerPend (s : State) (l : Nat) (x : Line) : (s.setLine l x).peerPend = s.peerPend := rfl
@[simp] theorem State.setLine_ackNext (s : State) (l : Nat) (x : Line) : (s.setLine l x).ackNext = s.ackNext := rfl
@[simp] theorem State.setLine_remotes (s : State) (l : Nat) (x : Line) : (s.setLine l x).remotes = s.remotes := rfl
@[simp] theorem State.setLine_leaving (s : State) (l : Nat) (x : Line) : (s.setLine l x).leaving = s.leaving := rfl
@[simp] theorem State.setLine_mons (s : State) (l : Nat) (x : Line) : (s.setLine l x).mons = s.mons := rfl
@[simp] theorem State.setLine_cmds (s : State) (l : Nat) (x : Line) : (s.setLine l x).cmds = s.cmds := rfl
@[simp] theorem State.setLine_feeds (s : State) (l : Nat) (x : Line) : (s.setLine l x).feeds = s.feeds := rfl
@[simp] theorem State.setLine_mxq (s : State) (l : Nat) (x : Line) : (s.setLine l x).mxq = s.mxq := rfl
@[simp] theorem State.setLine_mxrun (s : State) (l : Nat) (x : Line) : (s.setLine l x).mxrun = s.mxrun := rfl
@[simp] theorem State.setLine_slots (s : State) (l : Nat) (x : Line) : (s.setLine l x).slots = s.slots := rfl
@[simp] theorem State.setLine_pushes (s : State) (l : Nat) (x : Line) : (s.setLine l x).pushes = s.pushes := rfl
@[simp] theorem State.setLine_net (s : State) (l : Nat) (x : Line) : (s.setLine l x).net = s.net := rfl
@[simp] theorem State.setLine_ctl (s : State) (l : Nat) (x : Line) : (s.setLine l x).ctl = s.ctl := rfl
@[simp] theorem State.setLine_subs (s : State) (l : Nat) (x : Line) : (s.setLine l x).subs = s.subs := rfl
@[simp] theorem State.setLine_reqs (s : State) (l : Nat) (x : Line) : (s.setLine l x).reqs = s.reqs := rfl
@[simp] theorem State.setLine_haltQ (s : State) (l : Nat) (x : Line) : (s.setLine l x).haltQ = s.haltQ := rfl
@[simp] theorem State.setLine_tlbs (s : State) (l : Nat) (x : Line) : (s.setLine l x).tlbs = s.tlbs := rfl
@[simp] theorem State.setLine_insts (s : State) (l : Nat) (x : Line) : (s.setLine l x).insts = s.insts := rfl
@[simp] theorem State.setLine_ended (s : State) (l : Nat) (x : Line) : (s.setLine l x).ended = s.ended := rfl
@[simp] theorem State.setLine_endedGroups (s : State) (l : Nat) (x : Line) : (s.setLine l x).endedGroups = s.endedGroups := rfl
@[simp] theorem State.setLine_cores (s : State) (l : Nat) (x : Line) : (s.setLine l x).cores = s.cores := rfl
@[simp] theorem State.setLine_coreNext (s : State) (l : Nat) (x : Line) : (s.setLine l x).coreNext = s.coreNext := rfl
@[simp] theorem State.setLine_instNext (s : State) (l : Nat) (x : Line) : (s.setLine l x).instNext = s.instNext := rfl
@[simp] theorem State.setLine_cmdNext (s : State) (l : Nat) (x : Line) : (s.setLine l x).cmdNext = s.cmdNext := rfl
@[simp] theorem State.setLine_joinVers (s : State) (l : Nat) (x : Line) : (s.setLine l x).joinVers = s.joinVers := rfl
@[simp] theorem State.setLine_fns (s : State) (l : Nat) (x : Line) : (s.setLine l x).fns = s.fns := rfl
@[simp] theorem State.setLine_hcmds (s : State) (l : Nat) (x : Line) : (s.setLine l x).hcmds = s.hcmds := rfl
@[simp] theorem State.setLine_jq (s : State) (l : Nat) (x : Line) : (s.setLine l x).jq = s.jq := rfl
@[simp] theorem State.setLine_out (s : State) (l : Nat) (x : Line) : (s.setLine l x).out = s.out := rfl
@[simp] theorem State.setLine_agenda (s : State) (l : Nat) (x : Line) : (s.setLine l x).agenda = s.agenda := rfl
@[simp] theorem State.setLine_cur (s : State) (l : Nat) (x : Line) : (s.setLine l x).cur = s.cur := rfl
@[simp] theorem State.setLine_freeCnt (s : State) (l : Nat) (x : Line) : (s.setLine l x).freeCnt = s.freeCnt := rfl

@[simp] theorem State.setLine_lines (s : State) (l : Nat) (x : Line) : (s.setLine l x).lines = tput s.lines l x := rfl

@[simp] theorem State.onInst_mem (s : State) (i : Nat) (f : Inst → Inst) : (s.onInst i f).mem = s.mem := rfl
@[simp] theorem State.onInst_lines (s : State) (i : Nat) (f : Inst → Inst) : (s.onInst i f).lines = s.lines := rfl
@[simp] theorem State.onInst_leaseLen (s : State) (i : Nat) (f : Inst → Inst) : (s.onInst i f).leaseLen = s.leaseLen := rfl
@[simp] theorem State.onInst_hotThr (s : State) (i : Nat) (f : Inst → Inst) : (s.onInst i f).hotThr = s.hotThr := rfl
@[simp] theorem State.onInst_grants (s : State) (i : Nat) (f : Inst → Inst) : (s.onInst i f).grants = s.grants := rfl
@[simp] theorem State.onInst_grantStart (s : State) (i : Nat) (f : Inst → Inst) : (s.onInst i f).grantStart = s.grantStart := rfl
@[simp] theorem State.onInst_replicas (s : State) (i : Nat) (f : Inst → Inst) : (s.onInst i f).replicas = s.replicas := rfl
@[simp] theorem State.onInst_redirects (s : State) (i : Nat) (f : Inst → Inst) : (s.onInst i f).redirects = s.redirects := rfl
@[simp] theorem State.onInst_written (s : State) (i : Nat) (f : Inst → Inst) : (s.onInst i f).written = s.written := rfl
@[simp] theorem State.onInst_corePts (s : State) (i : Nat) (f : Inst → Inst) : (s.onInst i f).corePts = s.corePts := rfl
@[simp] theorem State.onInst_walkers (s : State) (i : Nat) (f : Inst → Inst) : (s.onInst i f).walkers = s.walkers := rfl
@[simp] theorem State.onInst_lineReqs (s : State) (i : Nat) (f : Inst → Inst) : (s.onInst i f).lineReqs = s.lineReqs := rfl
@[simp] theorem State.onInst_portAt (s : State) (i : Nat) (f : Inst → Inst) : (s.onInst i f).portAt = s.portAt := rfl
@[simp] theorem State.onInst_mcSlots (s : State) (i : Nat) (f : Inst → Inst) : (s.onInst i f).mcSlots = s.mcSlots := rfl
@[simp] theorem State.onInst_now (s : State) (i : Nat) (f : Inst → Inst) : (s.onInst i f).now = s.now := rfl
@[simp] theorem State.onInst_plat (s : State) (i : Nat) (f : Inst → Inst) : (s.onInst i f).plat = s.plat := rfl
@[simp] theorem State.onInst_parts (s : State) (i : Nat) (f : Inst → Inst) : (s.onInst i f).parts = s.parts := rfl
@[simp] theorem State.onInst_dents (s : State) (i : Nat) (f : Inst → Inst) : (s.onInst i f).dents = s.dents := rfl
@[simp] theorem State.onInst_ctxs (s : State) (i : Nat) (f : Inst → Inst) : (s.onInst i f).ctxs = s.ctxs := rfl
@[simp] theorem State.onInst_windows (s : State) (i : Nat) (f : Inst → Inst) : (s.onInst i f).windows = s.windows := rfl
@[simp] theorem State.onInst_owners (s : State) (i : Nat) (f : Inst → Inst) : (s.onInst i f).owners = s.owners := rfl
@[simp] theorem State.onInst_lotts (s : State) (i : Nat) (f : Inst → Inst) : (s.onInst i f).lotts = s.lotts := rfl
@[simp] theorem State.onInst_l2 (s : State) (i : Nat) (f : Inst → Inst) : (s.onInst i f).l2 = s.l2 := rfl
@[simp] theorem State.onInst_bias (s : State) (i : Nat) (f : Inst → Inst) : (s.onInst i f).bias = s.bias := rfl
@[simp] theorem State.onInst_flips (s : State) (i : Nat) (f : Inst → Inst) : (s.onInst i f).flips = s.flips := rfl
@[simp] theorem State.onInst_hostPend (s : State) (i : Nat) (f : Inst → Inst) : (s.onInst i f).hostPend = s.hostPend := rfl
@[simp] theorem State.onInst_peerPend (s : State) (i : Nat) (f : Inst → Inst) : (s.onInst i f).peerPend = s.peerPend := rfl
@[simp] theorem State.onInst_ackNext (s : State) (i : Nat) (f : Inst → Inst) : (s.onInst i f).ackNext = s.ackNext := rfl
@[simp] theorem State.onInst_remotes (s : State) (i : Nat) (f : Inst → Inst) : (s.onInst i f).remotes = s.remotes := rfl
@[simp] theorem State.onInst_leaving (s : State) (i : Nat) (f : Inst → Inst) : (s.onInst i f).leaving = s.leaving := rfl
@[simp] theorem State.onInst_mons (s : State) (i : Nat) (f : Inst → Inst) : (s.onInst i f).mons = s.mons := rfl
@[simp] theorem State.onInst_cmds (s : State) (i : Nat) (f : Inst → Inst) : (s.onInst i f).cmds = s.cmds := rfl
@[simp] theorem State.onInst_feeds (s : State) (i : Nat) (f : Inst → Inst) : (s.onInst i f).feeds = s.feeds := rfl
@[simp] theorem State.onInst_mxq (s : State) (i : Nat) (f : Inst → Inst) : (s.onInst i f).mxq = s.mxq := rfl
@[simp] theorem State.onInst_mxrun (s : State) (i : Nat) (f : Inst → Inst) : (s.onInst i f).mxrun = s.mxrun := rfl
@[simp] theorem State.onInst_slots (s : State) (i : Nat) (f : Inst → Inst) : (s.onInst i f).slots = s.slots := rfl
@[simp] theorem State.onInst_pushes (s : State) (i : Nat) (f : Inst → Inst) : (s.onInst i f).pushes = s.pushes := rfl
@[simp] theorem State.onInst_net (s : State) (i : Nat) (f : Inst → Inst) : (s.onInst i f).net = s.net := rfl
@[simp] theorem State.onInst_ctl (s : State) (i : Nat) (f : Inst → Inst) : (s.onInst i f).ctl = s.ctl := rfl
@[simp] theorem State.onInst_subs (s : State) (i : Nat) (f : Inst → Inst) : (s.onInst i f).subs = s.subs := rfl
@[simp] theorem State.onInst_reqs (s : State) (i : Nat) (f : Inst → Inst) : (s.onInst i f).reqs = s.reqs := rfl
@[simp] theorem State.onInst_haltQ (s : State) (i : Nat) (f : Inst → Inst) : (s.onInst i f).haltQ = s.haltQ := rfl
@[simp] theorem State.onInst_tlbs (s : State) (i : Nat) (f : Inst → Inst) : (s.onInst i f).tlbs = s.tlbs := rfl
@[simp] theorem State.onInst_ended (s : State) (i : Nat) (f : Inst → Inst) : (s.onInst i f).ended = s.ended := rfl
@[simp] theorem State.onInst_endedGroups (s : State) (i : Nat) (f : Inst → Inst) : (s.onInst i f).endedGroups = s.endedGroups := rfl
@[simp] theorem State.onInst_cores (s : State) (i : Nat) (f : Inst → Inst) : (s.onInst i f).cores = s.cores := rfl
@[simp] theorem State.onInst_coreNext (s : State) (i : Nat) (f : Inst → Inst) : (s.onInst i f).coreNext = s.coreNext := rfl
@[simp] theorem State.onInst_instNext (s : State) (i : Nat) (f : Inst → Inst) : (s.onInst i f).instNext = s.instNext := rfl
@[simp] theorem State.onInst_cmdNext (s : State) (i : Nat) (f : Inst → Inst) : (s.onInst i f).cmdNext = s.cmdNext := rfl
@[simp] theorem State.onInst_joinVers (s : State) (i : Nat) (f : Inst → Inst) : (s.onInst i f).joinVers = s.joinVers := rfl
@[simp] theorem State.onInst_fns (s : State) (i : Nat) (f : Inst → Inst) : (s.onInst i f).fns = s.fns := rfl
@[simp] theorem State.onInst_hcmds (s : State) (i : Nat) (f : Inst → Inst) : (s.onInst i f).hcmds = s.hcmds := rfl
@[simp] theorem State.onInst_jq (s : State) (i : Nat) (f : Inst → Inst) : (s.onInst i f).jq = s.jq := rfl
@[simp] theorem State.onInst_out (s : State) (i : Nat) (f : Inst → Inst) : (s.onInst i f).out = s.out := rfl
@[simp] theorem State.onInst_agenda (s : State) (i : Nat) (f : Inst → Inst) : (s.onInst i f).agenda = s.agenda := rfl
@[simp] theorem State.onInst_cur (s : State) (i : Nat) (f : Inst → Inst) : (s.onInst i f).cur = s.cur := rfl
@[simp] theorem State.onInst_freeCnt (s : State) (i : Nat) (f : Inst → Inst) : (s.onInst i f).freeCnt = s.freeCnt := rfl

@[simp] theorem State.onCtx_mem (s : State) (p x : Nat) (f : Ctx → Ctx) : (s.onCtx p x f).mem = s.mem := rfl
@[simp] theorem State.onCtx_lines (s : State) (p x : Nat) (f : Ctx → Ctx) : (s.onCtx p x f).lines = s.lines := rfl
@[simp] theorem State.onCtx_leaseLen (s : State) (p x : Nat) (f : Ctx → Ctx) : (s.onCtx p x f).leaseLen = s.leaseLen := rfl
@[simp] theorem State.onCtx_hotThr (s : State) (p x : Nat) (f : Ctx → Ctx) : (s.onCtx p x f).hotThr = s.hotThr := rfl
@[simp] theorem State.onCtx_grants (s : State) (p x : Nat) (f : Ctx → Ctx) : (s.onCtx p x f).grants = s.grants := rfl
@[simp] theorem State.onCtx_grantStart (s : State) (p x : Nat) (f : Ctx → Ctx) : (s.onCtx p x f).grantStart = s.grantStart := rfl
@[simp] theorem State.onCtx_replicas (s : State) (p x : Nat) (f : Ctx → Ctx) : (s.onCtx p x f).replicas = s.replicas := rfl
@[simp] theorem State.onCtx_redirects (s : State) (p x : Nat) (f : Ctx → Ctx) : (s.onCtx p x f).redirects = s.redirects := rfl
@[simp] theorem State.onCtx_written (s : State) (p x : Nat) (f : Ctx → Ctx) : (s.onCtx p x f).written = s.written := rfl
@[simp] theorem State.onCtx_corePts (s : State) (p x : Nat) (f : Ctx → Ctx) : (s.onCtx p x f).corePts = s.corePts := rfl
@[simp] theorem State.onCtx_walkers (s : State) (p x : Nat) (f : Ctx → Ctx) : (s.onCtx p x f).walkers = s.walkers := rfl
@[simp] theorem State.onCtx_lineReqs (s : State) (p x : Nat) (f : Ctx → Ctx) : (s.onCtx p x f).lineReqs = s.lineReqs := rfl
@[simp] theorem State.onCtx_portAt (s : State) (p x : Nat) (f : Ctx → Ctx) : (s.onCtx p x f).portAt = s.portAt := rfl
@[simp] theorem State.onCtx_mcSlots (s : State) (p x : Nat) (f : Ctx → Ctx) : (s.onCtx p x f).mcSlots = s.mcSlots := rfl
@[simp] theorem State.onCtx_now (s : State) (p x : Nat) (f : Ctx → Ctx) : (s.onCtx p x f).now = s.now := rfl
@[simp] theorem State.onCtx_plat (s : State) (p x : Nat) (f : Ctx → Ctx) : (s.onCtx p x f).plat = s.plat := rfl
@[simp] theorem State.onCtx_parts (s : State) (p x : Nat) (f : Ctx → Ctx) : (s.onCtx p x f).parts = s.parts := rfl
@[simp] theorem State.onCtx_dents (s : State) (p x : Nat) (f : Ctx → Ctx) : (s.onCtx p x f).dents = s.dents := rfl
@[simp] theorem State.onCtx_windows (s : State) (p x : Nat) (f : Ctx → Ctx) : (s.onCtx p x f).windows = s.windows := rfl
@[simp] theorem State.onCtx_owners (s : State) (p x : Nat) (f : Ctx → Ctx) : (s.onCtx p x f).owners = s.owners := rfl
@[simp] theorem State.onCtx_lotts (s : State) (p x : Nat) (f : Ctx → Ctx) : (s.onCtx p x f).lotts = s.lotts := rfl
@[simp] theorem State.onCtx_l2 (s : State) (p x : Nat) (f : Ctx → Ctx) : (s.onCtx p x f).l2 = s.l2 := rfl
@[simp] theorem State.onCtx_bias (s : State) (p x : Nat) (f : Ctx → Ctx) : (s.onCtx p x f).bias = s.bias := rfl
@[simp] theorem State.onCtx_flips (s : State) (p x : Nat) (f : Ctx → Ctx) : (s.onCtx p x f).flips = s.flips := rfl
@[simp] theorem State.onCtx_hostPend (s : State) (p x : Nat) (f : Ctx → Ctx) : (s.onCtx p x f).hostPend = s.hostPend := rfl
@[simp] theorem State.onCtx_peerPend (s : State) (p x : Nat) (f : Ctx → Ctx) : (s.onCtx p x f).peerPend = s.peerPend := rfl
@[simp] theorem State.onCtx_ackNext (s : State) (p x : Nat) (f : Ctx → Ctx) : (s.onCtx p x f).ackNext = s.ackNext := rfl
@[simp] theorem State.onCtx_remotes (s : State) (p x : Nat) (f : Ctx → Ctx) : (s.onCtx p x f).remotes = s.remotes := rfl
@[simp] theorem State.onCtx_leaving (s : State) (p x : Nat) (f : Ctx → Ctx) : (s.onCtx p x f).leaving = s.leaving := rfl
@[simp] theorem State.onCtx_mons (s : State) (p x : Nat) (f : Ctx → Ctx) : (s.onCtx p x f).mons = s.mons := rfl
@[simp] theorem State.onCtx_cmds (s : State) (p x : Nat) (f : Ctx → Ctx) : (s.onCtx p x f).cmds = s.cmds := rfl
@[simp] theorem State.onCtx_feeds (s : State) (p x : Nat) (f : Ctx → Ctx) : (s.onCtx p x f).feeds = s.feeds := rfl
@[simp] theorem State.onCtx_mxq (s : State) (p x : Nat) (f : Ctx → Ctx) : (s.onCtx p x f).mxq = s.mxq := rfl
@[simp] theorem State.onCtx_mxrun (s : State) (p x : Nat) (f : Ctx → Ctx) : (s.onCtx p x f).mxrun = s.mxrun := rfl
@[simp] theorem State.onCtx_slots (s : State) (p x : Nat) (f : Ctx → Ctx) : (s.onCtx p x f).slots = s.slots := rfl
@[simp] theorem State.onCtx_pushes (s : State) (p x : Nat) (f : Ctx → Ctx) : (s.onCtx p x f).pushes = s.pushes := rfl
@[simp] theorem State.onCtx_net (s : State) (p x : Nat) (f : Ctx → Ctx) : (s.onCtx p x f).net = s.net := rfl
@[simp] theorem State.onCtx_ctl (s : State) (p x : Nat) (f : Ctx → Ctx) : (s.onCtx p x f).ctl = s.ctl := rfl
@[simp] theorem State.onCtx_subs (s : State) (p x : Nat) (f : Ctx → Ctx) : (s.onCtx p x f).subs = s.subs := rfl
@[simp] theorem State.onCtx_reqs (s : State) (p x : Nat) (f : Ctx → Ctx) : (s.onCtx p x f).reqs = s.reqs := rfl
@[simp] theorem State.onCtx_haltQ (s : State) (p x : Nat) (f : Ctx → Ctx) : (s.onCtx p x f).haltQ = s.haltQ := rfl
@[simp] theorem State.onCtx_tlbs (s : State) (p x : Nat) (f : Ctx → Ctx) : (s.onCtx p x f).tlbs = s.tlbs := rfl
@[simp] theorem State.onCtx_insts (s : State) (p x : Nat) (f : Ctx → Ctx) : (s.onCtx p x f).insts = s.insts := rfl
@[simp] theorem State.onCtx_ended (s : State) (p x : Nat) (f : Ctx → Ctx) : (s.onCtx p x f).ended = s.ended := rfl
@[simp] theorem State.onCtx_endedGroups (s : State) (p x : Nat) (f : Ctx → Ctx) : (s.onCtx p x f).endedGroups = s.endedGroups := rfl
@[simp] theorem State.onCtx_cores (s : State) (p x : Nat) (f : Ctx → Ctx) : (s.onCtx p x f).cores = s.cores := rfl
@[simp] theorem State.onCtx_coreNext (s : State) (p x : Nat) (f : Ctx → Ctx) : (s.onCtx p x f).coreNext = s.coreNext := rfl
@[simp] theorem State.onCtx_instNext (s : State) (p x : Nat) (f : Ctx → Ctx) : (s.onCtx p x f).instNext = s.instNext := rfl
@[simp] theorem State.onCtx_cmdNext (s : State) (p x : Nat) (f : Ctx → Ctx) : (s.onCtx p x f).cmdNext = s.cmdNext := rfl
@[simp] theorem State.onCtx_joinVers (s : State) (p x : Nat) (f : Ctx → Ctx) : (s.onCtx p x f).joinVers = s.joinVers := rfl
@[simp] theorem State.onCtx_fns (s : State) (p x : Nat) (f : Ctx → Ctx) : (s.onCtx p x f).fns = s.fns := rfl
@[simp] theorem State.onCtx_hcmds (s : State) (p x : Nat) (f : Ctx → Ctx) : (s.onCtx p x f).hcmds = s.hcmds := rfl
@[simp] theorem State.onCtx_jq (s : State) (p x : Nat) (f : Ctx → Ctx) : (s.onCtx p x f).jq = s.jq := rfl
@[simp] theorem State.onCtx_out (s : State) (p x : Nat) (f : Ctx → Ctx) : (s.onCtx p x f).out = s.out := rfl
@[simp] theorem State.onCtx_agenda (s : State) (p x : Nat) (f : Ctx → Ctx) : (s.onCtx p x f).agenda = s.agenda := rfl
@[simp] theorem State.onCtx_cur (s : State) (p x : Nat) (f : Ctx → Ctx) : (s.onCtx p x f).cur = s.cur := rfl
@[simp] theorem State.onCtx_freeCnt (s : State) (p x : Nat) (f : Ctx → Ctx) : (s.onCtx p x f).freeCnt = s.freeCnt := rfl

@[simp] theorem State.post_mem (s : State) (f : Flight) : (s.post f).mem = s.mem := rfl
@[simp] theorem State.post_lines (s : State) (f : Flight) : (s.post f).lines = s.lines := rfl
@[simp] theorem State.post_leaseLen (s : State) (f : Flight) : (s.post f).leaseLen = s.leaseLen := rfl
@[simp] theorem State.post_hotThr (s : State) (f : Flight) : (s.post f).hotThr = s.hotThr := rfl
@[simp] theorem State.post_grants (s : State) (f : Flight) : (s.post f).grants = s.grants := rfl
@[simp] theorem State.post_grantStart (s : State) (f : Flight) : (s.post f).grantStart = s.grantStart := rfl
@[simp] theorem State.post_replicas (s : State) (f : Flight) : (s.post f).replicas = s.replicas := rfl
@[simp] theorem State.post_redirects (s : State) (f : Flight) : (s.post f).redirects = s.redirects := rfl
@[simp] theorem State.post_written (s : State) (f : Flight) : (s.post f).written = s.written := rfl
@[simp] theorem State.post_corePts (s : State) (f : Flight) : (s.post f).corePts = s.corePts := rfl
@[simp] theorem State.post_walkers (s : State) (f : Flight) : (s.post f).walkers = s.walkers := rfl
@[simp] theorem State.post_lineReqs (s : State) (f : Flight) : (s.post f).lineReqs = s.lineReqs := rfl
@[simp] theorem State.post_portAt (s : State) (f : Flight) : (s.post f).portAt = s.portAt := rfl
@[simp] theorem State.post_mcSlots (s : State) (f : Flight) : (s.post f).mcSlots = s.mcSlots := rfl
@[simp] theorem State.post_now (s : State) (f : Flight) : (s.post f).now = s.now := rfl
@[simp] theorem State.post_plat (s : State) (f : Flight) : (s.post f).plat = s.plat := rfl
@[simp] theorem State.post_parts (s : State) (f : Flight) : (s.post f).parts = s.parts := rfl
@[simp] theorem State.post_dents (s : State) (f : Flight) : (s.post f).dents = s.dents := rfl
@[simp] theorem State.post_ctxs (s : State) (f : Flight) : (s.post f).ctxs = s.ctxs := rfl
@[simp] theorem State.post_windows (s : State) (f : Flight) : (s.post f).windows = s.windows := rfl
@[simp] theorem State.post_owners (s : State) (f : Flight) : (s.post f).owners = s.owners := rfl
@[simp] theorem State.post_lotts (s : State) (f : Flight) : (s.post f).lotts = s.lotts := rfl
@[simp] theorem State.post_l2 (s : State) (f : Flight) : (s.post f).l2 = s.l2 := rfl
@[simp] theorem State.post_bias (s : State) (f : Flight) : (s.post f).bias = s.bias := rfl
@[simp] theorem State.post_flips (s : State) (f : Flight) : (s.post f).flips = s.flips := rfl
@[simp] theorem State.post_hostPend (s : State) (f : Flight) : (s.post f).hostPend = s.hostPend := rfl
@[simp] theorem State.post_peerPend (s : State) (f : Flight) : (s.post f).peerPend = s.peerPend := rfl
@[simp] theorem State.post_ackNext (s : State) (f : Flight) : (s.post f).ackNext = s.ackNext := rfl
@[simp] theorem State.post_remotes (s : State) (f : Flight) : (s.post f).remotes = s.remotes := rfl
@[simp] theorem State.post_leaving (s : State) (f : Flight) : (s.post f).leaving = s.leaving := rfl
@[simp] theorem State.post_mons (s : State) (f : Flight) : (s.post f).mons = s.mons := rfl
@[simp] theorem State.post_cmds (s : State) (f : Flight) : (s.post f).cmds = s.cmds := rfl
@[simp] theorem State.post_feeds (s : State) (f : Flight) : (s.post f).feeds = s.feeds := rfl
@[simp] theorem State.post_mxq (s : State) (f : Flight) : (s.post f).mxq = s.mxq := rfl
@[simp] theorem State.post_mxrun (s : State) (f : Flight) : (s.post f).mxrun = s.mxrun := rfl
@[simp] theorem State.post_slots (s : State) (f : Flight) : (s.post f).slots = s.slots := rfl
@[simp] theorem State.post_pushes (s : State) (f : Flight) : (s.post f).pushes = s.pushes := rfl
@[simp] theorem State.post_ctl (s : State) (f : Flight) : (s.post f).ctl = s.ctl := rfl
@[simp] theorem State.post_subs (s : State) (f : Flight) : (s.post f).subs = s.subs := rfl
@[simp] theorem State.post_reqs (s : State) (f : Flight) : (s.post f).reqs = s.reqs := rfl
@[simp] theorem State.post_haltQ (s : State) (f : Flight) : (s.post f).haltQ = s.haltQ := rfl
@[simp] theorem State.post_tlbs (s : State) (f : Flight) : (s.post f).tlbs = s.tlbs := rfl
@[simp] theorem State.post_insts (s : State) (f : Flight) : (s.post f).insts = s.insts := rfl
@[simp] theorem State.post_ended (s : State) (f : Flight) : (s.post f).ended = s.ended := rfl
@[simp] theorem State.post_endedGroups (s : State) (f : Flight) : (s.post f).endedGroups = s.endedGroups := rfl
@[simp] theorem State.post_cores (s : State) (f : Flight) : (s.post f).cores = s.cores := rfl
@[simp] theorem State.post_coreNext (s : State) (f : Flight) : (s.post f).coreNext = s.coreNext := rfl
@[simp] theorem State.post_instNext (s : State) (f : Flight) : (s.post f).instNext = s.instNext := rfl
@[simp] theorem State.post_cmdNext (s : State) (f : Flight) : (s.post f).cmdNext = s.cmdNext := rfl
@[simp] theorem State.post_joinVers (s : State) (f : Flight) : (s.post f).joinVers = s.joinVers := rfl
@[simp] theorem State.post_fns (s : State) (f : Flight) : (s.post f).fns = s.fns := rfl
@[simp] theorem State.post_hcmds (s : State) (f : Flight) : (s.post f).hcmds = s.hcmds := rfl
@[simp] theorem State.post_jq (s : State) (f : Flight) : (s.post f).jq = s.jq := rfl
@[simp] theorem State.post_out (s : State) (f : Flight) : (s.post f).out = s.out := rfl
@[simp] theorem State.post_agenda (s : State) (f : Flight) : (s.post f).agenda = s.agenda := rfl
@[simp] theorem State.post_cur (s : State) (f : Flight) : (s.post f).cur = s.cur := rfl
@[simp] theorem State.post_freeCnt (s : State) (f : Flight) : (s.post f).freeCnt = s.freeCnt := rfl

@[simp] theorem State.post_net (s : State) (f : Flight) : (s.post f).net = s.net ++ [f] := rfl

/-! ## A change of one core, and of the current task -/

/-- A change of a core changes the table of cores alone. -/
theorem State.onCore_eq (s : State) (c : Nat) (f : Core → Core) : s.onCore c f = { s with cores := (s.onCore c f).cores } := by
  unfold State.onCore
  split <;> rfl

@[simp] theorem State.onCore_mem (s : State) (c : Nat) (f : Core → Core) : (s.onCore c f).mem = s.mem := by rw [State.onCore_eq]
@[simp] theorem State.onCore_lines (s : State) (c : Nat) (f : Core → Core) : (s.onCore c f).lines = s.lines := by rw [State.onCore_eq]
@[simp] theorem State.onCore_leaseLen (s : State) (c : Nat) (f : Core → Core) : (s.onCore c f).leaseLen = s.leaseLen := by rw [State.onCore_eq]
@[simp] theorem State.onCore_hotThr (s : State) (c : Nat) (f : Core → Core) : (s.onCore c f).hotThr = s.hotThr := by rw [State.onCore_eq]
@[simp] theorem State.onCore_grants (s : State) (c : Nat) (f : Core → Core) : (s.onCore c f).grants = s.grants := by rw [State.onCore_eq]
@[simp] theorem State.onCore_grantStart (s : State) (c : Nat) (f : Core → Core) : (s.onCore c f).grantStart = s.grantStart := by rw [State.onCore_eq]
@[simp] theorem State.onCore_replicas (s : State) (c : Nat) (f : Core → Core) : (s.onCore c f).replicas = s.replicas := by rw [State.onCore_eq]
@[simp] theorem State.onCore_redirects (s : State) (c : Nat) (f : Core → Core) : (s.onCore c f).redirects = s.redirects := by rw [State.onCore_eq]
@[simp] theorem State.onCore_written (s : State) (c : Nat) (f : Core → Core) : (s.onCore c f).written = s.written := by rw [State.onCore_eq]
@[simp] theorem State.onCore_corePts (s : State) (c : Nat) (f : Core → Core) : (s.onCore c f).corePts = s.corePts := by rw [State.onCore_eq]
@[simp] theorem State.onCore_walkers (s : State) (c : Nat) (f : Core → Core) : (s.onCore c f).walkers = s.walkers := by rw [State.onCore_eq]
@[simp] theorem State.onCore_lineReqs (s : State) (c : Nat) (f : Core → Core) : (s.onCore c f).lineReqs = s.lineReqs := by rw [State.onCore_eq]
@[simp] theorem State.onCore_portAt (s : State) (c : Nat) (f : Core → Core) : (s.onCore c f).portAt = s.portAt := by rw [State.onCore_eq]
@[simp] theorem State.onCore_mcSlots (s : State) (c : Nat) (f : Core → Core) : (s.onCore c f).mcSlots = s.mcSlots := by rw [State.onCore_eq]
@[simp] theorem State.onCore_now (s : State) (c : Nat) (f : Core → Core) : (s.onCore c f).now = s.now := by rw [State.onCore_eq]
@[simp] theorem State.onCore_plat (s : State) (c : Nat) (f : Core → Core) : (s.onCore c f).plat = s.plat := by rw [State.onCore_eq]
@[simp] theorem State.onCore_parts (s : State) (c : Nat) (f : Core → Core) : (s.onCore c f).parts = s.parts := by rw [State.onCore_eq]
@[simp] theorem State.onCore_dents (s : State) (c : Nat) (f : Core → Core) : (s.onCore c f).dents = s.dents := by rw [State.onCore_eq]
@[simp] theorem State.onCore_ctxs (s : State) (c : Nat) (f : Core → Core) : (s.onCore c f).ctxs = s.ctxs := by rw [State.onCore_eq]
@[simp] theorem State.onCore_windows (s : State) (c : Nat) (f : Core → Core) : (s.onCore c f).windows = s.windows := by rw [State.onCore_eq]
@[simp] theorem State.onCore_owners (s : State) (c : Nat) (f : Core → Core) : (s.onCore c f).owners = s.owners := by rw [State.onCore_eq]
@[simp] theorem State.onCore_lotts (s : State) (c : Nat) (f : Core → Core) : (s.onCore c f).lotts = s.lotts := by rw [State.onCore_eq]
@[simp] theorem State.onCore_l2 (s : State) (c : Nat) (f : Core → Core) : (s.onCore c f).l2 = s.l2 := by rw [State.onCore_eq]
@[simp] theorem State.onCore_bias (s : State) (c : Nat) (f : Core → Core) : (s.onCore c f).bias = s.bias := by rw [State.onCore_eq]
@[simp] theorem State.onCore_flips (s : State) (c : Nat) (f : Core → Core) : (s.onCore c f).flips = s.flips := by rw [State.onCore_eq]
@[simp] theorem State.onCore_hostPend (s : State) (c : Nat) (f : Core → Core) : (s.onCore c f).hostPend = s.hostPend := by rw [State.onCore_eq]
@[simp] theorem State.onCore_peerPend (s : State) (c : Nat) (f : Core → Core) : (s.onCore c f).peerPend = s.peerPend := by rw [State.onCore_eq]
@[simp] theorem State.onCore_ackNext (s : State) (c : Nat) (f : Core → Core) : (s.onCore c f).ackNext = s.ackNext := by rw [State.onCore_eq]
@[simp] theorem State.onCore_remotes (s : State) (c : Nat) (f : Core → Core) : (s.onCore c f).remotes = s.remotes := by rw [State.onCore_eq]
@[simp] theorem State.onCore_leaving (s : State) (c : Nat) (f : Core → Core) : (s.onCore c f).leaving = s.leaving := by rw [State.onCore_eq]
@[simp] theorem State.onCore_mons (s : State) (c : Nat) (f : Core → Core) : (s.onCore c f).mons = s.mons := by rw [State.onCore_eq]
@[simp] theorem State.onCore_cmds (s : State) (c : Nat) (f : Core → Core) : (s.onCore c f).cmds = s.cmds := by rw [State.onCore_eq]
@[simp] theorem State.onCore_feeds (s : State) (c : Nat) (f : Core → Core) : (s.onCore c f).feeds = s.feeds := by rw [State.onCore_eq]
@[simp] theorem State.onCore_mxq (s : State) (c : Nat) (f : Core → Core) : (s.onCore c f).mxq = s.mxq := by rw [State.onCore_eq]
@[simp] theorem State.onCore_mxrun (s : State) (c : Nat) (f : Core → Core) : (s.onCore c f).mxrun = s.mxrun := by rw [State.onCore_eq]
@[simp] theorem State.onCore_slots (s : State) (c : Nat) (f : Core → Core) : (s.onCore c f).slots = s.slots := by rw [State.onCore_eq]
@[simp] theorem State.onCore_pushes (s : State) (c : Nat) (f : Core → Core) : (s.onCore c f).pushes = s.pushes := by rw [State.onCore_eq]
@[simp] theorem State.onCore_net (s : State) (c : Nat) (f : Core → Core) : (s.onCore c f).net = s.net := by rw [State.onCore_eq]
@[simp] theorem State.onCore_ctl (s : State) (c : Nat) (f : Core → Core) : (s.onCore c f).ctl = s.ctl := by rw [State.onCore_eq]
@[simp] theorem State.onCore_subs (s : State) (c : Nat) (f : Core → Core) : (s.onCore c f).subs = s.subs := by rw [State.onCore_eq]
@[simp] theorem State.onCore_reqs (s : State) (c : Nat) (f : Core → Core) : (s.onCore c f).reqs = s.reqs := by rw [State.onCore_eq]
@[simp] theorem State.onCore_haltQ (s : State) (c : Nat) (f : Core → Core) : (s.onCore c f).haltQ = s.haltQ := by rw [State.onCore_eq]
@[simp] theorem State.onCore_tlbs (s : State) (c : Nat) (f : Core → Core) : (s.onCore c f).tlbs = s.tlbs := by rw [State.onCore_eq]
@[simp] theorem State.onCore_insts (s : State) (c : Nat) (f : Core → Core) : (s.onCore c f).insts = s.insts := by rw [State.onCore_eq]
@[simp] theorem State.onCore_ended (s : State) (c : Nat) (f : Core → Core) : (s.onCore c f).ended = s.ended := by rw [State.onCore_eq]
@[simp] theorem State.onCore_endedGroups (s : State) (c : Nat) (f : Core → Core) : (s.onCore c f).endedGroups = s.endedGroups := by rw [State.onCore_eq]
@[simp] theorem State.onCore_coreNext (s : State) (c : Nat) (f : Core → Core) : (s.onCore c f).coreNext = s.coreNext := by rw [State.onCore_eq]
@[simp] theorem State.onCore_instNext (s : State) (c : Nat) (f : Core → Core) : (s.onCore c f).instNext = s.instNext := by rw [State.onCore_eq]
@[simp] theorem State.onCore_cmdNext (s : State) (c : Nat) (f : Core → Core) : (s.onCore c f).cmdNext = s.cmdNext := by rw [State.onCore_eq]
@[simp] theorem State.onCore_joinVers (s : State) (c : Nat) (f : Core → Core) : (s.onCore c f).joinVers = s.joinVers := by rw [State.onCore_eq]
@[simp] theorem State.onCore_fns (s : State) (c : Nat) (f : Core → Core) : (s.onCore c f).fns = s.fns := by rw [State.onCore_eq]
@[simp] theorem State.onCore_hcmds (s : State) (c : Nat) (f : Core → Core) : (s.onCore c f).hcmds = s.hcmds := by rw [State.onCore_eq]
@[simp] theorem State.onCore_jq (s : State) (c : Nat) (f : Core → Core) : (s.onCore c f).jq = s.jq := by rw [State.onCore_eq]
@[simp] theorem State.onCore_out (s : State) (c : Nat) (f : Core → Core) : (s.onCore c f).out = s.out := by rw [State.onCore_eq]
@[simp] theorem State.onCore_agenda (s : State) (c : Nat) (f : Core → Core) : (s.onCore c f).agenda = s.agenda := by rw [State.onCore_eq]
@[simp] theorem State.onCore_cur (s : State) (c : Nat) (f : Core → Core) : (s.onCore c f).cur = s.cur := by rw [State.onCore_eq]
@[simp] theorem State.onCore_freeCnt (s : State) (c : Nat) (f : Core → Core) : (s.onCore c f).freeCnt = s.freeCnt := by rw [State.onCore_eq]

@[simp] theorem State.setTask_mem (s : State) (t : Task) : (s.setTask t).mem = s.mem := State.onCore_mem ..
@[simp] theorem State.setTask_lines (s : State) (t : Task) : (s.setTask t).lines = s.lines := State.onCore_lines ..
@[simp] theorem State.setTask_leaseLen (s : State) (t : Task) : (s.setTask t).leaseLen = s.leaseLen := State.onCore_leaseLen ..
@[simp] theorem State.setTask_hotThr (s : State) (t : Task) : (s.setTask t).hotThr = s.hotThr := State.onCore_hotThr ..
@[simp] theorem State.setTask_grants (s : State) (t : Task) : (s.setTask t).grants = s.grants := State.onCore_grants ..
@[simp] theorem State.setTask_grantStart (s : State) (t : Task) : (s.setTask t).grantStart = s.grantStart := State.onCore_grantStart ..
@[simp] theorem State.setTask_replicas (s : State) (t : Task) : (s.setTask t).replicas = s.replicas := State.onCore_replicas ..
@[simp] theorem State.setTask_redirects (s : State) (t : Task) : (s.setTask t).redirects = s.redirects := State.onCore_redirects ..
@[simp] theorem State.setTask_written (s : State) (t : Task) : (s.setTask t).written = s.written := State.onCore_written ..
@[simp] theorem State.setTask_corePts (s : State) (t : Task) : (s.setTask t).corePts = s.corePts := State.onCore_corePts ..
@[simp] theorem State.setTask_walkers (s : State) (t : Task) : (s.setTask t).walkers = s.walkers := State.onCore_walkers ..
@[simp] theorem State.setTask_lineReqs (s : State) (t : Task) : (s.setTask t).lineReqs = s.lineReqs := State.onCore_lineReqs ..
@[simp] theorem State.setTask_portAt (s : State) (t : Task) : (s.setTask t).portAt = s.portAt := State.onCore_portAt ..
@[simp] theorem State.setTask_mcSlots (s : State) (t : Task) : (s.setTask t).mcSlots = s.mcSlots := State.onCore_mcSlots ..
@[simp] theorem State.setTask_now (s : State) (t : Task) : (s.setTask t).now = s.now := State.onCore_now ..
@[simp] theorem State.setTask_plat (s : State) (t : Task) : (s.setTask t).plat = s.plat := State.onCore_plat ..
@[simp] theorem State.setTask_parts (s : State) (t : Task) : (s.setTask t).parts = s.parts := State.onCore_parts ..
@[simp] theorem State.setTask_dents (s : State) (t : Task) : (s.setTask t).dents = s.dents := State.onCore_dents ..
@[simp] theorem State.setTask_ctxs (s : State) (t : Task) : (s.setTask t).ctxs = s.ctxs := State.onCore_ctxs ..
@[simp] theorem State.setTask_windows (s : State) (t : Task) : (s.setTask t).windows = s.windows := State.onCore_windows ..
@[simp] theorem State.setTask_owners (s : State) (t : Task) : (s.setTask t).owners = s.owners := State.onCore_owners ..
@[simp] theorem State.setTask_lotts (s : State) (t : Task) : (s.setTask t).lotts = s.lotts := State.onCore_lotts ..
@[simp] theorem State.setTask_l2 (s : State) (t : Task) : (s.setTask t).l2 = s.l2 := State.onCore_l2 ..
@[simp] theorem State.setTask_bias (s : State) (t : Task) : (s.setTask t).bias = s.bias := State.onCore_bias ..
@[simp] theorem State.setTask_flips (s : State) (t : Task) : (s.setTask t).flips = s.flips := State.onCore_flips ..
@[simp] theorem State.setTask_hostPend (s : State) (t : Task) : (s.setTask t).hostPend = s.hostPend := State.onCore_hostPend ..
@[simp] theorem State.setTask_peerPend (s : State) (t : Task) : (s.setTask t).peerPend = s.peerPend := State.onCore_peerPend ..
@[simp] theorem State.setTask_ackNext (s : State) (t : Task) : (s.setTask t).ackNext = s.ackNext := State.onCore_ackNext ..
@[simp] theorem State.setTask_remotes (s : State) (t : Task) : (s.setTask t).remotes = s.remotes := State.onCore_remotes ..
@[simp] theorem State.setTask_leaving (s : State) (t : Task) : (s.setTask t).leaving = s.leaving := State.onCore_leaving ..
@[simp] theorem State.setTask_mons (s : State) (t : Task) : (s.setTask t).mons = s.mons := State.onCore_mons ..
@[simp] theorem State.setTask_cmds (s : State) (t : Task) : (s.setTask t).cmds = s.cmds := State.onCore_cmds ..
@[simp] theorem State.setTask_feeds (s : State) (t : Task) : (s.setTask t).feeds = s.feeds := State.onCore_feeds ..
@[simp] theorem State.setTask_mxq (s : State) (t : Task) : (s.setTask t).mxq = s.mxq := State.onCore_mxq ..
@[simp] theorem State.setTask_mxrun (s : State) (t : Task) : (s.setTask t).mxrun = s.mxrun := State.onCore_mxrun ..
@[simp] theorem State.setTask_slots (s : State) (t : Task) : (s.setTask t).slots = s.slots := State.onCore_slots ..
@[simp] theorem State.setTask_pushes (s : State) (t : Task) : (s.setTask t).pushes = s.pushes := State.onCore_pushes ..
@[simp] theorem State.setTask_net (s : State) (t : Task) : (s.setTask t).net = s.net := State.onCore_net ..
@[simp] theorem State.setTask_ctl (s : State) (t : Task) : (s.setTask t).ctl = s.ctl := State.onCore_ctl ..
@[simp] theorem State.setTask_subs (s : State) (t : Task) : (s.setTask t).subs = s.subs := State.onCore_subs ..
@[simp] theorem State.setTask_reqs (s : State) (t : Task) : (s.setTask t).reqs = s.reqs := State.onCore_reqs ..
@[simp] theorem State.setTask_haltQ (s : State) (t : Task) : (s.setTask t).haltQ = s.haltQ := State.onCore_haltQ ..
@[simp] theorem State.setTask_tlbs (s : State) (t : Task) : (s.setTask t).tlbs = s.tlbs := State.onCore_tlbs ..
@[simp] theorem State.setTask_insts (s : State) (t : Task) : (s.setTask t).insts = s.insts := State.onCore_insts ..
@[simp] theorem State.setTask_ended (s : State) (t : Task) : (s.setTask t).ended = s.ended := State.onCore_ended ..
@[simp] theorem State.setTask_endedGroups (s : State) (t : Task) : (s.setTask t).endedGroups = s.endedGroups := State.onCore_endedGroups ..
@[simp] theorem State.setTask_coreNext (s : State) (t : Task) : (s.setTask t).coreNext = s.coreNext := State.onCore_coreNext ..
@[simp] theorem State.setTask_instNext (s : State) (t : Task) : (s.setTask t).instNext = s.instNext := State.onCore_instNext ..
@[simp] theorem State.setTask_cmdNext (s : State) (t : Task) : (s.setTask t).cmdNext = s.cmdNext := State.onCore_cmdNext ..
@[simp] theorem State.setTask_joinVers (s : State) (t : Task) : (s.setTask t).joinVers = s.joinVers := State.onCore_joinVers ..
@[simp] theorem State.setTask_fns (s : State) (t : Task) : (s.setTask t).fns = s.fns := State.onCore_fns ..
@[simp] theorem State.setTask_hcmds (s : State) (t : Task) : (s.setTask t).hcmds = s.hcmds := State.onCore_hcmds ..
@[simp] theorem State.setTask_jq (s : State) (t : Task) : (s.setTask t).jq = s.jq := State.onCore_jq ..
@[simp] theorem State.setTask_out (s : State) (t : Task) : (s.setTask t).out = s.out := State.onCore_out ..
@[simp] theorem State.setTask_agenda (s : State) (t : Task) : (s.setTask t).agenda = s.agenda := State.onCore_agenda ..
@[simp] theorem State.setTask_cur (s : State) (t : Task) : (s.setTask t).cur = s.cur := State.onCore_cur ..
@[simp] theorem State.setTask_freeCnt (s : State) (t : Task) : (s.setTask t).freeCnt = s.freeCnt := State.onCore_freeCnt ..

/-! ## Registers of a task -/

/-- A write of a scalar register changes the scalar registers alone. -/
theorem Task.wx_eq (t : Task) (r : Reg) (v : Word) : t.wx r v = { t with x := (t.wx r v).x } := by
  unfold Task.wx
  split <;> rfl

@[simp] theorem Task.wx_ch (t : Task) (r : Reg) (v : Word) : (t.wx r v).ch = t.ch := by rw [Task.wx_eq]
@[simp] theorem Task.wx_trig (t : Task) (r : Reg) (v : Word) : (t.wx r v).trig = t.trig := by rw [Task.wx_eq]
@[simp] theorem Task.wx_pc (t : Task) (r : Reg) (v : Word) : (t.wx r v).pc = t.pc := by rw [Task.wx_eq]
@[simp] theorem Task.wx_npc (t : Task) (r : Reg) (v : Word) : (t.wx r v).npc = t.npc := by rw [Task.wx_eq]
@[simp] theorem Task.wx_ir (t : Task) (r : Reg) (v : Word) : (t.wx r v).ir = t.ir := by rw [Task.wx_eq]
@[simp] theorem Task.wx_parts (t : Task) (r : Reg) (v : Word) : (t.wx r v).parts = t.parts := by rw [Task.wx_eq]
@[simp] theorem Task.wx_members (t : Task) (r : Reg) (v : Word) : (t.wx r v).members = t.members := by rw [Task.wx_eq]
@[simp] theorem Task.wx_lead (t : Task) (r : Reg) (v : Word) : (t.wx r v).lead = t.lead := by rw [Task.wx_eq]
@[simp] theorem Task.wx_fstat (t : Task) (r : Reg) (v : Word) : (t.wx r v).fstat = t.fstat := by rw [Task.wx_eq]
@[simp] theorem Task.wx_sptr (t : Task) (r : Reg) (v : Word) : (t.wx r v).sptr = t.sptr := by rw [Task.wx_eq]
@[simp] theorem Task.wx_fetched (t : Task) (r : Reg) (v : Word) : (t.wx r v).fetched = t.fetched := by rw [Task.wx_eq]
@[simp] theorem Task.wx_tcyc (t : Task) (r : Reg) (v : Word) : (t.wx r v).tcyc = t.tcyc := by rw [Task.wx_eq]
@[simp] theorem Task.wx_tbudget (t : Task) (r : Reg) (v : Word) : (t.wx r v).tbudget = t.tbudget := by rw [Task.wx_eq]
@[simp] theorem Task.wx_priv (t : Task) (r : Reg) (v : Word) : (t.wx r v).priv = t.priv := by rw [Task.wx_eq]
@[simp] theorem Task.wx_ts (t : Task) (r : Reg) (v : Word) : (t.wx r v).ts = t.ts := by rw [Task.wx_eq]
@[simp] theorem Task.wx_reads (t : Task) (r : Reg) (v : Word) : (t.wx r v).reads = t.reads := by rw [Task.wx_eq]
@[simp] theorem Task.wx_locked (t : Task) (r : Reg) (v : Word) : (t.wx r v).locked = t.locked := by rw [Task.wx_eq]
@[simp] theorem Task.wx_sluice (t : Task) (r : Reg) (v : Word) : (t.wx r v).sluice = t.sluice := by rw [Task.wx_eq]
@[simp] theorem Task.wx_frame (t : Task) (r : Reg) (v : Word) : (t.wx r v).frame = t.frame := by rw [Task.wx_eq]
@[simp] theorem Task.wx_qn (t : Task) (r : Reg) (v : Word) : (t.wx r v).qn = t.qn := by rw [Task.wx_eq]
@[simp] theorem Task.wx_early (t : Task) (r : Reg) (v : Word) : (t.wx r v).early = t.early := by rw [Task.wx_eq]
@[simp] theorem Task.wx_q0 (t : Task) (r : Reg) (v : Word) : (t.wx r v).q0 = t.q0 := by rw [Task.wx_eq]
@[simp] theorem Task.wx_pops (t : Task) (r : Reg) (v : Word) : (t.wx r v).pops = t.pops := by rw [Task.wx_eq]
@[simp] theorem Task.wx_bound (t : Task) (r : Reg) (v : Word) : (t.wx r v).bound = t.bound := by rw [Task.wx_eq]
@[simp] theorem Task.wx_hash (t : Task) (r : Reg) (v : Word) : (t.wx r v).hash = t.hash := by rw [Task.wx_eq]
@[simp] theorem Task.wx_nw (t : Task) (r : Reg) (v : Word) : (t.wx r v).nw = t.nw := by rw [Task.wx_eq]
@[simp] theorem Task.wx_sn (t : Task) (r : Reg) (v : Word) : (t.wx r v).sn = t.sn := by rw [Task.wx_eq]
@[simp] theorem Task.wx_jig (t : Task) (r : Reg) (v : Word) : (t.wx r v).jig = t.jig := by rw [Task.wx_eq]
@[simp] theorem Task.wx_jigOff (t : Task) (r : Reg) (v : Word) : (t.wx r v).jigOff = t.jigOff := by rw [Task.wx_eq]
@[simp] theorem Task.wx_fltpops (t : Task) (r : Reg) (v : Word) : (t.wx r v).fltpops = t.fltpops := by rw [Task.wx_eq]
@[simp] theorem Task.wx_fltat (t : Task) (r : Reg) (v : Word) : (t.wx r v).fltat = t.fltat := by rw [Task.wx_eq]
@[simp] theorem Task.wx_committing (t : Task) (r : Reg) (v : Word) : (t.wx r v).committing = t.committing := by rw [Task.wx_eq]
@[simp] theorem Task.wx_icache (t : Task) (r : Reg) (v : Word) : (t.wx r v).icache = t.icache := by rw [Task.wx_eq]

@[simp] theorem Task.wv_ch (t : Task) (k : Nat) (r : Reg) (v : VReg) : (t.wv k r v).ch = t.ch := rfl
@[simp] theorem Task.wv_trig (t : Task) (k : Nat) (r : Reg) (v : VReg) : (t.wv k r v).trig = t.trig := rfl
@[simp] theorem Task.wv_pc (t : Task) (k : Nat) (r : Reg) (v : VReg) : (t.wv k r v).pc = t.pc := rfl
@[simp] theorem Task.wv_npc (t : Task) (k : Nat) (r : Reg) (v : VReg) : (t.wv k r v).npc = t.npc := rfl
@[simp] theorem Task.wv_ir (t : Task) (k : Nat) (r : Reg) (v : VReg) : (t.wv k r v).ir = t.ir := rfl
@[simp] theorem Task.wv_x (t : Task) (k : Nat) (r : Reg) (v : VReg) : (t.wv k r v).x = t.x := rfl
@[simp] theorem Task.wv_members (t : Task) (k : Nat) (r : Reg) (v : VReg) : (t.wv k r v).members = t.members := rfl
@[simp] theorem Task.wv_lead (t : Task) (k : Nat) (r : Reg) (v : VReg) : (t.wv k r v).lead = t.lead := rfl
@[simp] theorem Task.wv_fstat (t : Task) (k : Nat) (r : Reg) (v : VReg) : (t.wv k r v).fstat = t.fstat := rfl
@[simp] theorem Task.wv_sptr (t : Task) (k : Nat) (r : Reg) (v : VReg) : (t.wv k r v).sptr = t.sptr := rfl
@[simp] theorem Task.wv_fetched (t : Task) (k : Nat) (r : Reg) (v : VReg) : (t.wv k r v).fetched = t.fetched := rfl
@[simp] theorem Task.wv_tcyc (t : Task) (k : Nat) (r : Reg) (v : VReg) : (t.wv k r v).tcyc = t.tcyc := rfl
@[simp] theorem Task.wv_tbudget (t : Task) (k : Nat) (r : Reg) (v : VReg) : (t.wv k r v).tbudget = t.tbudget := rfl
@[simp] theorem Task.wv_priv (t : Task) (k : Nat) (r : Reg) (v : VReg) : (t.wv k r v).priv = t.priv := rfl
@[simp] theorem Task.wv_ts (t : Task) (k : Nat) (r : Reg) (v : VReg) : (t.wv k r v).ts = t.ts := rfl
@[simp] theorem Task.wv_reads (t : Task) (k : Nat) (r : Reg) (v : VReg) : (t.wv k r v).reads = t.reads := rfl
@[simp] theorem Task.wv_locked (t : Task) (k : Nat) (r : Reg) (v : VReg) : (t.wv k r v).locked = t.locked := rfl
@[simp] theorem Task.wv_sluice (t : Task) (k : Nat) (r : Reg) (v : VReg) : (t.wv k r v).sluice = t.sluice := rfl
@[simp] theorem Task.wv_frame (t : Task) (k : Nat) (r : Reg) (v : VReg) : (t.wv k r v).frame = t.frame := rfl
@[simp] theorem Task.wv_qn (t : Task) (k : Nat) (r : Reg) (v : VReg) : (t.wv k r v).qn = t.qn := rfl
@[simp] theorem Task.wv_early (t : Task) (k : Nat) (r : Reg) (v : VReg) : (t.wv k r v).early = t.early := rfl
@[simp] theorem Task.wv_q0 (t : Task) (k : Nat) (r : Reg) (v : VReg) : (t.wv k r v).q0 = t.q0 := rfl
@[simp] theorem Task.wv_pops (t : Task) (k : Nat) (r : Reg) (v : VReg) : (t.wv k r v).pops = t.pops := rfl
@[simp] theorem Task.wv_bound (t : Task) (k : Nat) (r : Reg) (v : VReg) : (t.wv k r v).bound = t.bound := rfl
@[simp] theorem Task.wv_hash (t : Task) (k : Nat) (r : Reg) (v : VReg) : (t.wv k r v).hash = t.hash := rfl
@[simp] theorem Task.wv_nw (t : Task) (k : Nat) (r : Reg) (v : VReg) : (t.wv k r v).nw = t.nw := rfl
@[simp] theorem Task.wv_sn (t : Task) (k : Nat) (r : Reg) (v : VReg) : (t.wv k r v).sn = t.sn := rfl
@[simp] theorem Task.wv_jig (t : Task) (k : Nat) (r : Reg) (v : VReg) : (t.wv k r v).jig = t.jig := rfl
@[simp] theorem Task.wv_jigOff (t : Task) (k : Nat) (r : Reg) (v : VReg) : (t.wv k r v).jigOff = t.jigOff := rfl
@[simp] theorem Task.wv_fltpops (t : Task) (k : Nat) (r : Reg) (v : VReg) : (t.wv k r v).fltpops = t.fltpops := rfl
@[simp] theorem Task.wv_fltat (t : Task) (k : Nat) (r : Reg) (v : VReg) : (t.wv k r v).fltat = t.fltat := rfl
@[simp] theorem Task.wv_committing (t : Task) (k : Nat) (r : Reg) (v : VReg) : (t.wv k r v).committing = t.committing := rfl
@[simp] theorem Task.wv_icache (t : Task) (k : Nat) (r : Reg) (v : VReg) : (t.wv k r v).icache = t.icache := rfl

@[simp] theorem Task.wm_ch (t : Task) (k : Nat) (r : SReg) (v : Word) : (t.wm k r v).ch = t.ch := rfl
@[simp] theorem Task.wm_trig (t : Task) (k : Nat) (r : SReg) (v : Word) : (t.wm k r v).trig = t.trig := rfl
@[simp] theorem Task.wm_pc (t : Task) (k : Nat) (r : SReg) (v : Word) : (t.wm k r v).pc = t.pc := rfl
@[simp] theorem Task.wm_npc (t : Task) (k : Nat) (r : SReg) (v : Word) : (t.wm k r v).npc = t.npc := rfl
@[simp] theorem Task.wm_ir (t : Task) (k : Nat) (r : SReg) (v : Word) : (t.wm k r v).ir = t.ir := rfl
@[simp] theorem Task.wm_x (t : Task) (k : Nat) (r : SReg) (v : Word) : (t.wm k r v).x = t.x := rfl
@[simp] theorem Task.wm_members (t : Task) (k : Nat) (r : SReg) (v : Word) : (t.wm k r v).members = t.members := rfl
@[simp] theorem Task.wm_lead (t : Task) (k : Nat) (r : SReg) (v : Word) : (t.wm k r v).lead = t.lead := rfl
@[simp] theorem Task.wm_fstat (t : Task) (k : Nat) (r : SReg) (v : Word) : (t.wm k r v).fstat = t.fstat := rfl
@[simp] theorem Task.wm_sptr (t : Task) (k : Nat) (r : SReg) (v : Word) : (t.wm k r v).sptr = t.sptr := rfl
@[simp] theorem Task.wm_fetched (t : Task) (k : Nat) (r : SReg) (v : Word) : (t.wm k r v).fetched = t.fetched := rfl
@[simp] theorem Task.wm_tcyc (t : Task) (k : Nat) (r : SReg) (v : Word) : (t.wm k r v).tcyc = t.tcyc := rfl
@[simp] theorem Task.wm_tbudget (t : Task) (k : Nat) (r : SReg) (v : Word) : (t.wm k r v).tbudget = t.tbudget := rfl
@[simp] theorem Task.wm_priv (t : Task) (k : Nat) (r : SReg) (v : Word) : (t.wm k r v).priv = t.priv := rfl
@[simp] theorem Task.wm_ts (t : Task) (k : Nat) (r : SReg) (v : Word) : (t.wm k r v).ts = t.ts := rfl
@[simp] theorem Task.wm_reads (t : Task) (k : Nat) (r : SReg) (v : Word) : (t.wm k r v).reads = t.reads := rfl
@[simp] theorem Task.wm_locked (t : Task) (k : Nat) (r : SReg) (v : Word) : (t.wm k r v).locked = t.locked := rfl
@[simp] theorem Task.wm_sluice (t : Task) (k : Nat) (r : SReg) (v : Word) : (t.wm k r v).sluice = t.sluice := rfl
@[simp] theorem Task.wm_frame (t : Task) (k : Nat) (r : SReg) (v : Word) : (t.wm k r v).frame = t.frame := rfl
@[simp] theorem Task.wm_qn (t : Task) (k : Nat) (r : SReg) (v : Word) : (t.wm k r v).qn = t.qn := rfl
@[simp] theorem Task.wm_early (t : Task) (k : Nat) (r : SReg) (v : Word) : (t.wm k r v).early = t.early := rfl
@[simp] theorem Task.wm_q0 (t : Task) (k : Nat) (r : SReg) (v : Word) : (t.wm k r v).q0 = t.q0 := rfl
@[simp] theorem Task.wm_pops (t : Task) (k : Nat) (r : SReg) (v : Word) : (t.wm k r v).pops = t.pops := rfl
@[simp] theorem Task.wm_bound (t : Task) (k : Nat) (r : SReg) (v : Word) : (t.wm k r v).bound = t.bound := rfl
@[simp] theorem Task.wm_hash (t : Task) (k : Nat) (r : SReg) (v : Word) : (t.wm k r v).hash = t.hash := rfl
@[simp] theorem Task.wm_nw (t : Task) (k : Nat) (r : SReg) (v : Word) : (t.wm k r v).nw = t.nw := rfl
@[simp] theorem Task.wm_sn (t : Task) (k : Nat) (r : SReg) (v : Word) : (t.wm k r v).sn = t.sn := rfl
@[simp] theorem Task.wm_jig (t : Task) (k : Nat) (r : SReg) (v : Word) : (t.wm k r v).jig = t.jig := rfl
@[simp] theorem Task.wm_jigOff (t : Task) (k : Nat) (r : SReg) (v : Word) : (t.wm k r v).jigOff = t.jigOff := rfl
@[simp] theorem Task.wm_fltpops (t : Task) (k : Nat) (r : SReg) (v : Word) : (t.wm k r v).fltpops = t.fltpops := rfl
@[simp] theorem Task.wm_fltat (t : Task) (k : Nat) (r : SReg) (v : Word) : (t.wm k r v).fltat = t.fltat := rfl
@[simp] theorem Task.wm_committing (t : Task) (k : Nat) (r : SReg) (v : Word) : (t.wm k r v).committing = t.committing := rfl
@[simp] theorem Task.wm_icache (t : Task) (k : Nat) (r : SReg) (v : Word) : (t.wm k r v).icache = t.icache := rfl

@[simp] theorem Task.step_ch (t : Task) : (t.step).ch = t.ch := rfl
@[simp] theorem Task.step_trig (t : Task) : (t.step).trig = t.trig := rfl
@[simp] theorem Task.step_npc (t : Task) : (t.step).npc = t.npc := rfl
@[simp] theorem Task.step_ir (t : Task) : (t.step).ir = t.ir := rfl
@[simp] theorem Task.step_x (t : Task) : (t.step).x = t.x := rfl
@[simp] theorem Task.step_parts (t : Task) : (t.step).parts = t.parts := rfl
@[simp] theorem Task.step_members (t : Task) : (t.step).members = t.members := rfl
@[simp] theorem Task.step_lead (t : Task) : (t.step).lead = t.lead := rfl
@[simp] theorem Task.step_fstat (t : Task) : (t.step).fstat = t.fstat := rfl
@[simp] theorem Task.step_sptr (t : Task) : (t.step).sptr = t.sptr := rfl
@[simp] theorem Task.step_fetched (t : Task) : (t.step).fetched = t.fetched := rfl
@[simp] theorem Task.step_tcyc (t : Task) : (t.step).tcyc = t.tcyc := rfl
@[simp] theorem Task.step_tbudget (t : Task) : (t.step).tbudget = t.tbudget := rfl
@[simp] theorem Task.step_priv (t : Task) : (t.step).priv = t.priv := rfl
@[simp] theorem Task.step_ts (t : Task) : (t.step).ts = t.ts := rfl
@[simp] theorem Task.step_reads (t : Task) : (t.step).reads = t.reads := rfl
@[simp] theorem Task.step_locked (t : Task) : (t.step).locked = t.locked := rfl
@[simp] theorem Task.step_sluice (t : Task) : (t.step).sluice = t.sluice := rfl
@[simp] theorem Task.step_frame (t : Task) : (t.step).frame = t.frame := rfl
@[simp] theorem Task.step_qn (t : Task) : (t.step).qn = t.qn := rfl
@[simp] theorem Task.step_early (t : Task) : (t.step).early = t.early := rfl
@[simp] theorem Task.step_q0 (t : Task) : (t.step).q0 = t.q0 := rfl
@[simp] theorem Task.step_pops (t : Task) : (t.step).pops = t.pops := rfl
@[simp] theorem Task.step_bound (t : Task) : (t.step).bound = t.bound := rfl
@[simp] theorem Task.step_hash (t : Task) : (t.step).hash = t.hash := rfl
@[simp] theorem Task.step_nw (t : Task) : (t.step).nw = t.nw := rfl
@[simp] theorem Task.step_sn (t : Task) : (t.step).sn = t.sn := rfl
@[simp] theorem Task.step_jig (t : Task) : (t.step).jig = t.jig := rfl
@[simp] theorem Task.step_jigOff (t : Task) : (t.step).jigOff = t.jigOff := rfl
@[simp] theorem Task.step_fltpops (t : Task) : (t.step).fltpops = t.fltpops := rfl
@[simp] theorem Task.step_fltat (t : Task) : (t.step).fltat = t.fltat := rfl
@[simp] theorem Task.step_committing (t : Task) : (t.step).committing = t.committing := rfl
@[simp] theorem Task.step_icache (t : Task) : (t.step).icache = t.icache := rfl

@[simp] theorem Task.orFlags_ch (t : Task) (g : BitVec 5) : (t.orFlags g).ch = t.ch := rfl
@[simp] theorem Task.orFlags_trig (t : Task) (g : BitVec 5) : (t.orFlags g).trig = t.trig := rfl
@[simp] theorem Task.orFlags_pc (t : Task) (g : BitVec 5) : (t.orFlags g).pc = t.pc := rfl
@[simp] theorem Task.orFlags_npc (t : Task) (g : BitVec 5) : (t.orFlags g).npc = t.npc := rfl
@[simp] theorem Task.orFlags_ir (t : Task) (g : BitVec 5) : (t.orFlags g).ir = t.ir := rfl
@[simp] theorem Task.orFlags_x (t : Task) (g : BitVec 5) : (t.orFlags g).x = t.x := rfl
@[simp] theorem Task.orFlags_parts (t : Task) (g : BitVec 5) : (t.orFlags g).parts = t.parts := rfl
@[simp] theorem Task.orFlags_members (t : Task) (g : BitVec 5) : (t.orFlags g).members = t.members := rfl
@[simp] theorem Task.orFlags_lead (t : Task) (g : BitVec 5) : (t.orFlags g).lead = t.lead := rfl
@[simp] theorem Task.orFlags_sptr (t : Task) (g : BitVec 5) : (t.orFlags g).sptr = t.sptr := rfl
@[simp] theorem Task.orFlags_fetched (t : Task) (g : BitVec 5) : (t.orFlags g).fetched = t.fetched := rfl
@[simp] theorem Task.orFlags_tcyc (t : Task) (g : BitVec 5) : (t.orFlags g).tcyc = t.tcyc := rfl
@[simp] theorem Task.orFlags_tbudget (t : Task) (g : BitVec 5) : (t.orFlags g).tbudget = t.tbudget := rfl
@[simp] theorem Task.orFlags_priv (t : Task) (g : BitVec 5) : (t.orFlags g).priv = t.priv := rfl
@[simp] theorem Task.orFlags_ts (t : Task) (g : BitVec 5) : (t.orFlags g).ts = t.ts := rfl
@[simp] theorem Task.orFlags_reads (t : Task) (g : BitVec 5) : (t.orFlags g).reads = t.reads := rfl
@[simp] theorem Task.orFlags_locked (t : Task) (g : BitVec 5) : (t.orFlags g).locked = t.locked := rfl
@[simp] theorem Task.orFlags_sluice (t : Task) (g : BitVec 5) : (t.orFlags g).sluice = t.sluice := rfl
@[simp] theorem Task.orFlags_frame (t : Task) (g : BitVec 5) : (t.orFlags g).frame = t.frame := rfl
@[simp] theorem Task.orFlags_qn (t : Task) (g : BitVec 5) : (t.orFlags g).qn = t.qn := rfl
@[simp] theorem Task.orFlags_early (t : Task) (g : BitVec 5) : (t.orFlags g).early = t.early := rfl
@[simp] theorem Task.orFlags_q0 (t : Task) (g : BitVec 5) : (t.orFlags g).q0 = t.q0 := rfl
@[simp] theorem Task.orFlags_pops (t : Task) (g : BitVec 5) : (t.orFlags g).pops = t.pops := rfl
@[simp] theorem Task.orFlags_bound (t : Task) (g : BitVec 5) : (t.orFlags g).bound = t.bound := rfl
@[simp] theorem Task.orFlags_hash (t : Task) (g : BitVec 5) : (t.orFlags g).hash = t.hash := rfl
@[simp] theorem Task.orFlags_nw (t : Task) (g : BitVec 5) : (t.orFlags g).nw = t.nw := rfl
@[simp] theorem Task.orFlags_sn (t : Task) (g : BitVec 5) : (t.orFlags g).sn = t.sn := rfl
@[simp] theorem Task.orFlags_jig (t : Task) (g : BitVec 5) : (t.orFlags g).jig = t.jig := rfl
@[simp] theorem Task.orFlags_jigOff (t : Task) (g : BitVec 5) : (t.orFlags g).jigOff = t.jigOff := rfl
@[simp] theorem Task.orFlags_fltpops (t : Task) (g : BitVec 5) : (t.orFlags g).fltpops = t.fltpops := rfl
@[simp] theorem Task.orFlags_fltat (t : Task) (g : BitVec 5) : (t.orFlags g).fltat = t.fltat := rfl
@[simp] theorem Task.orFlags_committing (t : Task) (g : BitVec 5) : (t.orFlags g).committing = t.committing := rfl
@[simp] theorem Task.orFlags_icache (t : Task) (g : BitVec 5) : (t.orFlags g).icache = t.icache := rfl

end Sys2Proof.Machine
end

