-- ==== Sys2Proof/Laws/Ops.lean ====
section
/-! SUPPORT. What the shared operations do: lookups after a change of a core, an instruction of the current task, an operation
that stops short. -/

namespace Sys2Proof.Machine

/-! ## Lookups -/

theorem State.core?_setCore (s : State) (c j : Nat) (k : Core) :
    (s.setCore c k).core? j = if j = c then some k else s.core? j := tget?_tput ..

theorem State.core?_onCore (s : State) (c j : Nat) (f : Core → Core) :
    (s.onCore c f).core? j = if j = c then (s.core? c).map f else s.core? j := by
  unfold State.onCore
  split
  · rename_i k h
    rw [State.core?_setCore, h]
    rfl
  · rename_i h
    split
    · rename_i e
      rw [e, h]
      rfl
    · rfl

theorem State.core?_setTask (s : State) (t : Task) (j : Nat) :
    (s.setTask t).core? j = if j = s.cur then (s.core? s.cur).map fun k => { k with task := some t } else s.core? j :=
  State.core?_onCore ..

/-- A task runs on a core that there is. -/
theorem State.core_of_task {s : State} {t : Task} (h : s.task? = some t) : ∃ k, s.core? s.cur = some k ∧ k.task = some t := by
  unfold State.task? at h
  cases hk : s.core? s.cur with
  | none => rw [hk] at h; cases h
  | some k => rw [hk] at h; exact ⟨k, rfl, h⟩

theorem State.task?_setTask {s : State} {t : Task} (h : s.task? = some t) (t' : Task) : (s.setTask t').task? = some t' := by
  obtain ⟨k, hk, -⟩ := State.core_of_task h
  unfold State.task?
  rw [State.setTask_cur, State.core?_setTask, if_pos rfl, hk]
  rfl

theorem State.sameButTask_setTask {s : State} {t : Task} (h : s.task? = some t) (t' : Task) : s.sameButTask (s.setTask t') := by
  obtain ⟨k, hk, -⟩ := State.core_of_task h
  refine ⟨State.onCore_eq .., fun c hc => by rw [State.core?_setTask, if_neg hc], k, hk, ?_⟩
  rw [State.task?_setTask h, State.core?_setTask, if_pos rfl, hk]
  rfl

/-- Setting the task twice is setting it once. -/
theorem tput_tput {κ α : Type} [DecidableEq κ] (t : List (κ × α)) (k : κ) (v w : α) : tput (tput t k v) k w = tput t k w := by
  induction t with
  | nil => simp [tput]
  | cons p t ih =>
    simp only [tput]
    split <;> simp_all [tput]

theorem State.setTask_setTask {s : State} {t : Task} (h : s.task? = some t) (t' t'' : Task) :
    (s.setTask t').setTask t'' = s.setTask t'' := by
  obtain ⟨k, hk, -⟩ := State.core_of_task h
  have e : ∀ u, s.setTask u = s.setCore s.cur { k with task := some u } := fun u => by
    simp only [State.setTask, State.onCore, hk]
  have e' : (s.setTask t').setTask t'' = (s.setTask t').setCore s.cur { k with task := some t'' } := by
    conv_lhs => rw [State.setTask, State.onCore]
    rw [State.setTask_cur, State.core?_setTask, if_pos rfl, hk]
    rfl
  rw [e', e, e, State.setCore, State.setCore_cores, tput_tput]
  rfl

/-! ## Registers -/

@[simp] theorem Task.rx_wx (t : Task) (d r : Reg) (v : Word) : (t.wx d v).rx r = if r = d ∧ d ≠ 31 then v else t.rx r := by
  unfold Task.rx Task.wx
  by_cases hd : d.toNat < 31
  · have hne : d ≠ 31 := by rintro rfl; simp at hd
    by_cases hr : r.toNat < 31
    · by_cases e : r = d
      · subst e
        simp only [hd, dif_pos, Vector.getElem_set_self, ne_eq, true_and]
        rw [if_pos hne]
      · have : d.toNat ≠ r.toNat := fun h => e (BitVec.eq_of_toNat_eq h.symm)
        simp [hd, hr, e, this]
    · have : r ≠ d := by rintro rfl; exact hr hd
      simp [hr, this]
  · have hde : d = 31 := by
      apply BitVec.eq_of_toNat_eq
      have := d.isLt
      change d.toNat = 31
      omega
    simp [hde]

/-! ## An instruction of the current task -/

theorem runRegs_next {s : State} {t : Task} (f : Task → Task) (h : s.task? = some t) :
    runRegs f s = .next (s.setTask (f t).step) := by
  simp only [runRegs, h]

theorem runTask_ok {s s' : State} {t : Task} {f : Task → M Unit} (h : s.task? = some t) (hf : f t s = .ok () s') :
    runTask f s = .next s'.advance := by
  simp only [runTask, h, hf]

theorem runTask_error {s s' : State} {t : Task} {f : Task → M Unit} {e : Stop} (h : s.task? = some t)
    (hf : f t s = .error e s') : runTask f s = .next (s.stopped s' s.cur e) := by
  simp only [runTask, h, hf]

/-- An instruction of the current task answers a next state, or there is no task. -/
theorem runTask_cases (f : Task → M Unit) (s : State) :
    (s.task? = none ∧ runTask f s = .fault .noTask) ∨
    (∃ t s', s.task? = some t ∧ f t s = .ok () s' ∧ runTask f s = .next s'.advance) ∨
    (∃ t e s', s.task? = some t ∧ f t s = .error e s' ∧ runTask f s = .next (s.stopped s' s.cur e)) := by
  cases h : s.task? with
  | none => exact .inl ⟨rfl, by simp only [runTask, h]⟩
  | some t =>
    cases hf : f t s with
    | ok u s' => exact .inr (.inl ⟨t, s', rfl, hf, runTask_ok h hf⟩)
    | error e s' => exact .inr (.inr ⟨t, e, s', rfl, hf, runTask_error h hf⟩)

/-- The program counter of the task that an operation leaves takes the next address. -/
theorem State.advance_setTask {s : State} {t : Task} (h : s.task? = some t) (t' : Task) :
    (s.setTask t').advance = s.setTask t'.step := by
  unfold State.advance
  rw [State.task?_setTask h]
  exact State.setTask_setTask h t' t'.step

/-- A change of the current task inside an operation. -/
theorem modTask_ok {s : State} {t : Task} (h : s.task? = some t) (f : Task → Task) : modTask f s = .ok () (s.setTask (f t)) := by
  simp only [modTask, modify, modifyGet, MonadStateOf.modifyGet, EStateM.modifyGet, h]

/-- What an instruction that only changes registers leaves. -/
theorem becomes_of_runRegs {i : Instr} {s : State} {t : Task} {f : Task → Task} (he : exec i s = runRegs f s)
    (h : s.task? = some t) : becomes i s (f t).step :=
  ⟨s.setTask (f t).step, by rw [he, runRegs_next f h], State.task?_setTask h _, State.sameButTask_setTask h _⟩

/-- What an instruction whose operation only changes the task leaves. -/
theorem becomes_of_runTask {i : Instr} {s : State} {t t' : Task} {f : Task → M Unit} (he : exec i s = runTask f s)
    (h : s.task? = some t) (hf : f t s = .ok () (s.setTask t')) : becomes i s t'.step :=
  ⟨s.setTask t'.step, by rw [he, runTask_ok h hf, State.advance_setTask h], State.task?_setTask h _,
    State.sameButTask_setTask h _⟩

/-- An instruction that writes a scalar register. -/
theorem writesX_of_runRegs {i : Instr} {s : State} {t : Task} {d : Reg} {v : Word} {f : Task → Task}
    (he : exec i s = runRegs f s) (h : s.task? = some t) (hf : f t = t.wx d v) : writesX i s t d v := by
  refine ⟨_, becomes_of_runRegs he h, ?_, fun r => ?_⟩
  · rw [hf, Task.step, Task.wx_eq]
  · rw [hf]
    exact Task.rx_wx t d r v

/-- A stop of an operation that changed nothing. -/
theorem traps_of_runTask {i : Instr} {s : State} {t : Task} {f : Task → M Unit} {g : Flt} (he : exec i s = runTask f s)
    (h : s.task? = some t) (hf : f t s = .error (.flt g) s) : traps i s g := by
  unfold traps
  rw [he, runTask_error h hf]

/-! ## Stops -/

theorem need_ok {b : Bool} (c : Cause) (d : BitVec 32) (s : State) (h : b = true) : need b c d s = .ok () s := by
  subst h
  rfl

theorem need_error {b : Bool} (c : Cause) (d : BitVec 32) (s : State) (h : b = false) :
    need b c d s = .error (.flt { cause := c, detail := d }) s := by
  subst h
  rfl

/-- A retry leaves the machine as it was, with a jig's instruction still to be issued (04 R129). -/
@[simp] theorem State.stopped_retry (s s' : State) (c : Nat) : s.stopped s' c .retry = s.reissue c := rfl
@[simp] theorem State.stopped_queued (s s' : State) (c : Nat) : s.stopped s' c .queued = s'.reissue c := rfl
/-- A task outside a jig is issued again as it stands. -/
theorem State.reissue_plain {s : State} {c : Nat} {t : Task} (h : (s.core? c).bind Core.task = some t) (hj : t.jig = none) :
    s.reissue c = s := by simp [State.reissue, h, hj]
@[simp] theorem State.stopped_abort (s s' : State) (c : Nat) : s.stopped s' c .abort = s'.abortTask c := rfl

end Sys2Proof.Machine
end

