-- ==== Sys2Proof/Laws/Lanes.lean ====
section
/-! SUPPORT. Vector registers: a lane of a register made of lanes, and what an instruction that works lane by lane leaves
(09 R237, R238, R259). -/

namespace Sys2Proof.Machine

/-! ## Lanes -/

theorem getLsbD_lane (w : Nat) (v : VReg) (i j : Nat) :
    (lane w v i).getLsbD j = (decide (j < 64) && decide (j < w) && v.getLsbD (w * i + j)) := by
  simp only [lane, BitVec.getLsbD_setWidth, BitVec.getLsbD_extractLsb']
  by_cases h1 : j < 64 <;> by_cases h2 : j < w <;> simp [h1, h2]

theorem getLsbD_ofLanes (w : Nat) (l : List Word) (hw : 0 < w) (hw' : w ≤ 64) (j : Nat) :
    (ofLanes w l).getLsbD j = (decide (j < 512) && decide (j % w < w) && (l.getD (j / w) 0).getLsbD (j % w)) := by
  induction l generalizing j with
  | nil => simp [ofLanes]
  | cons x l ih =>
    have hm : j % w < w := Nat.mod_lt _ hw
    simp only [ofLanes, List.foldr_cons, BitVec.getLsbD_or, BitVec.getLsbD_shiftLeft, BitVec.getLsbD_setWidth] at ih ⊢
    by_cases hj : j < 512
    · by_cases hlt : j < w
      · have : j / w = 0 := Nat.div_eq_of_lt hlt
        have h64 : j < 64 := by omega
        simp [hj, hlt, this, Nat.mod_eq_of_lt hlt]
      · have h1 : j / w = (j - w) / w + 1 := by
          rw [Nat.div_eq j w, if_pos ⟨hw, by omega⟩]
        have h2 : j % w = (j - w) % w := by
          rw [Nat.mod_eq j w, if_pos ⟨hw, by omega⟩]
        have h3 : j - w < 512 := by omega
        have e := ih (j - w)

        rw [decide_eq_true h3, Bool.true_and] at e
        simpa [hj, hlt, h1, h2] using e
    · simp [hj]

/-- The widths of 09 Table 9.1. -/
theorem tyBits_cases (ty : Ty) : tyBits ty = 8 ∨ tyBits ty = 16 ∨ tyBits ty = 32 ∨ tyBits ty = 64 := by
  cases ty <;> simp [tyBits, Ty.bytes]

/-- A lane of a register made of lanes. -/
theorem lane_ofLanes {w : Nat} (l : List Word) (i : Nat) (hw : w = 8 ∨ w = 16 ∨ w = 32 ∨ w = 64) (hi : i < 512 / w) :
    lane w (ofLanes w l) i = ((l.getD i 0).setWidth w).setWidth 64 := by
  have hw0 : 0 < w := by omega
  have hw1 : w ≤ 64 := by omega
  apply BitVec.eq_of_getLsbD_eq
  intro j hj
  rw [getLsbD_lane, getLsbD_ofLanes w l hw0 hw1, BitVec.getLsbD_setWidth, BitVec.getLsbD_setWidth]
  by_cases hjw : j < w
  · have h1 : (w * i + j) / w = i := by
      rw [Nat.mul_add_div hw0, Nat.div_eq_of_lt hjw, Nat.add_zero]
    have h2 : (w * i + j) % w = j := by
      rw [Nat.mul_add_mod, Nat.mod_eq_of_lt hjw]
    have h3 : w * i + j < 512 := by
      rcases hw with rfl | rfl | rfl | rfl <;> omega
    simp [hj, hjw, h1, h2, h3]
  · simp [hjw]

/-! ## The registers of the members -/

theorem Task.rv_wv (t : Task) (k k' : Nat) (d r : Reg) (v : VReg) (hk : k < t.width) :
    (t.wv k d v).rv k' r = if k' = k ∧ r = d then v else t.rv k' r := by
  unfold Task.rv Task.wv Task.width at *
  simp only [List.getElem?_modify]
  by_cases h : k = k'
  · subst h
    rw [List.getElem?_eq_getElem hk]
    by_cases hr : r = d
    · subst hr
      simp
    · have : d.toNat ≠ r.toNat := fun e => hr (BitVec.eq_of_toNat_eq e.symm)
      simp [hr, this]
  · have h' : ¬ k' = k := fun e => h e.symm
    cases t.parts[k']? <;> simp [h, h']

@[simp] theorem Task.rm_wv (t : Task) (k k' : Nat) (d : Reg) (r : SReg) (v : VReg) : (t.wv k d v).rm k' r = t.rm k' r := by
  unfold Task.rm Task.wv
  simp only [List.getElem?_modify]
  by_cases h : k = k'
  · subst h
    cases t.parts[k]? <;> simp
  · cases t.parts[k']? <;> simp [h]

theorem Task.rm_wm (t : Task) (k k' : Nat) (d r : SReg) (v : Word) (hk : k < t.width) :
    (t.wm k d v).rm k' r = if k' = k ∧ r = d then v else t.rm k' r := by
  unfold Task.rm Task.wm Task.width at *
  simp only [List.getElem?_modify]
  by_cases h : k = k'
  · subst h
    rw [List.getElem?_eq_getElem hk]
    by_cases hr : r = d
    · subst hr
      simp
    · have : d.toNat ≠ r.toNat := fun e => hr (BitVec.eq_of_toNat_eq e.symm)
      simp [hr, this]
  · have h' : ¬ k' = k := fun e => h e.symm
    cases t.parts[k']? <;> simp [h, h']

@[simp] theorem Task.rv_wm (t : Task) (k k' : Nat) (d : SReg) (r : Reg) (v : Word) : (t.wm k d v).rv k' r = t.rv k' r := by
  unfold Task.rv Task.wm
  simp only [List.getElem?_modify]
  by_cases h : k = k'
  · subst h
    cases t.parts[k]? <;> simp
  · cases t.parts[k']? <;> simp [h]

@[simp] theorem Task.width_wv (t : Task) (k : Nat) (d : Reg) (v : VReg) : (t.wv k d v).width = t.width := by
  simp [Task.width, Task.wv]
@[simp] theorem Task.width_wm (t : Task) (k : Nat) (d : SReg) (v : Word) : (t.wm k d v).width = t.width := by
  simp [Task.width, Task.wm]
@[simp] theorem Task.rv_orFlags (t : Task) (g : BitVec 5) (k : Nat) (r : Reg) : (t.orFlags g).rv k r = t.rv k r := rfl
@[simp] theorem Task.rm_orFlags (t : Task) (g : BitVec 5) (k : Nat) (r : SReg) : (t.orFlags g).rm k r = t.rm k r := rfl
@[simp] theorem Task.width_orFlags (t : Task) (g : BitVec 5) : (t.orFlags g).width = t.width := rfl
@[simp] theorem Task.rx_orFlags (t : Task) (g : BitVec 5) (r : Reg) : (t.orFlags g).rx r = t.rx r := rfl

/-! ## Every member's register replaced -/

/-- What a walk over the first `n` members that writes v[d] and raises flags leaves. -/
theorem Task.fold_wv (t : Task) (d : Reg) (v : Nat → VReg) (g : Nat → BitVec 5) (n : Nat) (hn : n ≤ t.width) :
    let t' := (List.range n).foldl (fun acc k => (acc.wv k d (v k)).orFlags (g k)) t
    t' = { t with parts := t'.parts, fstat := { t.fstat with flags := t'.fstat.flags } } ∧ t'.width = t.width ∧
      (∀ k r, t'.rm k r = t.rm k r) ∧ (∀ k r, t'.rv k r = if k < n ∧ r = d then v k else t.rv k r) ∧
      t'.fstat.flags = (List.range n).foldl (fun fl k => fl ||| g k) t.fstat.flags := by
  induction n with
  | zero => simp
  | succ n ih =>
    obtain ⟨h1, h2, h3, h4, h5⟩ := ih (by omega)
    simp only [List.range_succ, List.foldl_append, List.foldl_cons, List.foldl_nil]
    generalize (List.range n).foldl (fun acc k => (acc.wv k d (v k)).orFlags (g k)) t = u at *
    refine ⟨?_, by simp [h2], fun k r => by simp [h3], fun k r => ?_, ?_⟩
    · conv_lhs => rw [h1]
      rfl
    · rw [Task.rv_orFlags, Task.rv_wv _ _ _ _ _ _ (by omega), h4]
      by_cases e1 : k = n <;> by_cases e2 : r = d
      · simp [e1, e2]
      · simp [e2]
      · simp only [e1, e2, and_true, if_false]
        simp only [show (k < n + 1) = (k < n) by simp only [eq_iff_iff]; omega]
      · simp [e2]
    · change u.fstat.flags ||| g n = _
      rw [h5]

theorem getLsbD_foldl_or {α : Type} (g : α → BitVec 5) (l : List α) (z : BitVec 5) (b : Nat) :
    (l.foldl (fun fl x => fl ||| g x) z).getLsbD b = (z.getLsbD b || l.any fun x => (g x).getLsbD b) := by
  induction l generalizing z with
  | nil => simp
  | cons x l ih => simp [ih, Bool.or_assoc]

/-- The flags of one member's lanes. -/
theorem flags_of_lanes (w : Nat) (v : VReg) (on : Nat → Bool) (f : Nat → Word × BitVec 5) (b : Nat) :
    ((((lanes w v).zipIdx).map fun (p : Word × Nat) => if on p.2 then f p.2 else (p.1, 0)).foldl (fun fl x => fl ||| x.2)
      (0 : BitVec 5)).getLsbD b = (List.range (512 / w)).any fun i => on i && (f i).2.getLsbD b := by
  rw [getLsbD_foldl_or (fun x : Word × BitVec 5 => x.2), List.any_map]
  have hl : (lanes w v).length = 512 / w := by simp [lanes]
  have key : ∀ (l : List Word) (n : Nat) (g : Word × Nat → Bool) (h : Nat → Bool), (∀ x i, g (x, i) = h i) →
      (l.zipIdx n).any g = (List.range' n l.length).any h := by
    intro l
    induction l with
    | nil => intro n g h _; rfl
    | cons x l ih =>
      intro n g h e
      simp only [List.zipIdx_cons, List.any_cons, List.length_cons, List.range'_succ]
      rw [e, ih (n + 1) g h e]
  rw [key _ 0 _ (fun i => on i && (f i).2.getLsbD b) (fun x i => by
    simp only [Function.comp]
    cases on i <;> simp), hl, List.range_eq_range']
  simp

/-- What an instruction that works lane by lane leaves: v[d] of every member lane by lane, a lane that is off as it was, and
the flags of the lanes that are on (09 R238, R239, R259). -/
theorem Task.mapLanes_spec (t : Task) {w : Nat} (hw : w = 8 ∨ w = 16 ∨ w = 32 ∨ w = 64) (mask : SReg) (d : Reg)
    (f : Nat → Nat → Word × BitVec 5) :
    let t' := t.mapLanes w mask d f
    t' = { t with parts := t'.parts, fstat := { t.fstat with flags := t'.fstat.flags } } ∧ t'.width = t.width ∧
      (∀ k r, t'.rm k r = t.rm k r) ∧ (∀ k r, r ≠ d → t'.rv k r = t.rv k r) ∧
      (∀ k i, k < t.width → i < 512 / w → lane w (t'.rv k d) i =
        if t.on mask k i then ((f k i).1.setWidth w).setWidth 64 else lane w (t.rv k d) i) ∧
      ∀ b, t'.fstat.flags.getLsbD b = flagAfter t w mask (fun k i => (f k i).2) b := by
  obtain ⟨h1, h2, h3, h4, h5⟩ := Task.fold_wv t d
    (fun k => ofLanes w ((((lanes w (t.rv k d)).zipIdx).map fun (p : Word × Nat) =>
      if t.on mask k p.2 then f k p.2 else (p.1, 0)).map (·.1)))
    (fun k => (((lanes w (t.rv k d)).zipIdx).map fun (p : Word × Nat) =>
      if t.on mask k p.2 then f k p.2 else (p.1, 0)).foldl (fun fl x => fl ||| x.2) 0) t.width (Nat.le_refl _)
  refine ⟨h1, h2, h3, fun k r hr => (h4 k r).trans (by simp [hr]), fun k i hk hi => ?_, fun b => ?_⟩
  rotate_left
  · have e : (t.mapLanes w mask d f).fstat.flags = _ := h5
    rw [e, getLsbD_foldl_or]
    unfold flagAfter
    congr 1
    refine congrArg (fun g => (List.range t.width).any g) (funext fun k => ?_)
    exact flags_of_lanes w (t.rv k d) (t.on mask k) (f k) b
  have e : (t.mapLanes w mask d f).rv k d = _ := h4 k d
  rw [e, if_pos ⟨hk, rfl⟩, lane_ofLanes _ _ hw hi]
  have hl : i < (lanes w (t.rv k d)).length := by simpa [lanes] using hi
  rw [List.getD_eq_getElem?_getD, List.map_map, List.getElem?_map, List.getElem?_zipIdx, List.getElem?_eq_getElem hl]
  simp only [Option.map_some, Option.getD_some, Nat.zero_add, Function.comp]
  have hg : (lanes w (t.rv k d))[i] = lane w (t.rv k d) i := by simp [lanes]
  split
  · rfl
  · rw [hg]
    simp only [lane]
    rcases hw with rfl | rfl | rfl | rfl <;> simp

/-- An instruction that works lane by lane. -/
theorem writesLanes_of_mapLanes {i : Instr} {s : State} {t : Task} {g : Task → Task} {w : Nat} {mask : SReg} {d : Reg}
    {f : Nat → Nat → Word × BitVec 5} {n : Nat} (he : exec i s = runRegs g s) (h : s.task? = some t)
    (hw : w = 8 ∨ w = 16 ∨ w = 32 ∨ w = 64)
    (hg : g t = { t.mapLanes w mask d f with sn := t.sn + n }) : writesLanes i s t w mask d f n := by
  obtain ⟨h1, h2, h3, h4, h5, h6⟩ := Task.mapLanes_spec t hw mask d f
  have hb := becomes_of_runRegs he h
  rw [hg] at hb
  refine ⟨_, hb, ?_, h2, h3, h4, h5, fun b _ => h6 b⟩
  simp only [Task.step]
  conv_lhs => rw [h1]

/-- The same where the instruction counts no rounding. -/
theorem writesLanes_of_mapLanes_zero {i : Instr} {s : State} {t : Task} {g : Task → Task} {w : Nat} {mask : SReg} {d : Reg}
    {f : Nat → Nat → Word × BitVec 5} (he : exec i s = runRegs g s) (h : s.task? = some t)
    (hw : w = 8 ∨ w = 16 ∨ w = 32 ∨ w = 64) (hg : g t = t.mapLanes w mask d f) : writesLanes i s t w mask d f 0 := by
  refine writesLanes_of_mapLanes he h hw (hg.trans ?_)
  obtain ⟨h1, -⟩ := Task.mapLanes_spec t hw mask d f
  conv_lhs => rw [h1]
  conv_rhs => rw [h1]
  rfl

/-- A scalar floating result. -/
theorem writesFloat_of_runRegs {i : Instr} {s : State} {t : Task} {g : Task → Task} {d : Reg} {v : Word} {fl : BitVec 5}
    {n : Nat} (he : exec i s = runRegs g s) (h : s.task? = some t)
    (hg : g t = { (t.wx d v).orFlags fl with sn := t.sn + n }) : writesFloat i s t d v fl n := by
  refine ⟨_, becomes_of_runRegs he h, ?_, fun r => ?_⟩
  · rw [hg, Task.orFlags, Task.step, Task.wx_eq]
  · rw [hg]
    exact Task.rx_wx t d r v

/-! ## Every member's mask replaced -/

/-- What a walk over the first `n` members that writes m[d] and raises flags leaves. -/
theorem Task.fold_wm (t : Task) (d : SReg) (v : Nat → Word) (g : Nat → BitVec 5) (n : Nat) (hn : n ≤ t.width) :
    let t' := (List.range n).foldl (fun acc k => (acc.wm k d (v k)).orFlags (g k)) t
    t' = { t with parts := t'.parts, fstat := { t.fstat with flags := t'.fstat.flags } } ∧ t'.width = t.width ∧
      (∀ k r, t'.rv k r = t.rv k r) ∧ (∀ k r, t'.rm k r = if k < n ∧ r = d then v k else t.rm k r) ∧
      t'.fstat.flags = (List.range n).foldl (fun fl k => fl ||| g k) t.fstat.flags := by
  induction n with
  | zero => simp
  | succ n ih =>
    obtain ⟨h1, h2, h3, h4, h5⟩ := ih (by omega)
    simp only [List.range_succ, List.foldl_append, List.foldl_cons, List.foldl_nil]
    generalize (List.range n).foldl (fun acc k => (acc.wm k d (v k)).orFlags (g k)) t = u at *
    refine ⟨?_, by simp [h2], fun k r => by simp [h3], fun k r => ?_, ?_⟩
    · conv_lhs => rw [h1]
      rfl
    · rw [Task.rm_orFlags, Task.rm_wm _ _ _ _ _ _ (by omega), h4]
      by_cases e1 : k = n <;> by_cases e2 : r = d
      · simp [e1, e2]
      · simp [e2]
      · simp only [e1, e2, and_true, if_false]
        simp only [show (k < n + 1) = (k < n) by simp only [eq_iff_iff]; omega]
      · simp [e2]
    · change u.fstat.flags ||| g n = _
      rw [h5]

theorem sum_bits_lt (p : Nat → Bool) (n : Nat) : ((List.range n).map fun i => if p i then 2 ^ i else 0).sum < 2 ^ n := by
  induction n with
  | zero => simp
  | succ n ih =>
    rw [List.range_succ, List.map_append, List.sum_append, Nat.pow_succ]
    simp only [List.map_cons, List.map_nil, List.sum_cons, List.sum_nil]
    split <;> omega

/-- The bits of a number put together from bits. -/
theorem testBit_sum_bits (p : Nat → Bool) (n j : Nat) :
    (((List.range n).map fun i => if p i then 2 ^ i else 0).sum).testBit j = (decide (j < n) && p j) := by
  induction n with
  | zero => simp
  | succ n ih =>
    rw [List.range_succ, List.map_append, List.sum_append]
    simp only [List.map_cons, List.map_nil, List.sum_cons, List.sum_nil, Nat.add_zero]
    have hlt := sum_bits_lt p n
    generalize ((List.range n).map fun i => if p i then 2 ^ i else 0).sum = q at *
    by_cases hp : p n
    · rw [if_pos hp, Nat.add_comm]
      rcases Nat.lt_trichotomy j n with h | h | h
      · rw [Nat.testBit_two_pow_add_gt h, ih]
        simp [h, show j < n + 1 by omega]
      · subst h
        rw [Nat.testBit_two_pow_add_eq, ih]
        simp [hp]
      · have hq : 2 ^ n + q < 2 ^ j := by
          have : 2 ^ (n + 1) ≤ 2 ^ j := Nat.pow_le_pow_right (by omega) h
          rw [Nat.pow_succ] at this
          omega
        rw [Nat.testBit_lt_two_pow hq]
        simp [show ¬ j < n + 1 by omega]
    · rw [if_neg hp, Nat.add_zero, ih]
      by_cases h : j = n
      · subst h
        simp [hp]
      · simp [show (j < n + 1) = (j < n) by simp only [eq_iff_iff]; omega]

theorem foldl_flags_eq (l : List (Bool × BitVec 5)) (b : Nat) :
    ((l.foldl (fun fl x => fl ||| x.2) (0 : BitVec 5)).getLsbD b) = l.any fun x => x.2.getLsbD b := by
  rw [getLsbD_foldl_or (fun x : Bool × BitVec 5 => x.2)]
  simp

theorem zipIdx_map_range {α β : Type} (f : Nat → α) (g : α × Nat → β) (n : Nat) :
    (((List.range n).map f).zipIdx.map g) = (List.range n).map fun i => g (f i, i) := by
  apply List.ext_getElem <;> simp

/-- What a compare of lanes leaves (09 R249): m[d] of every member bit by bit, and flags. -/
theorem Task.mapMask_spec (t : Task) {w : Nat} (_ : w = 8 ∨ w = 16 ∨ w = 32 ∨ w = 64) (mask d : SReg)
    (f : Nat → Nat → Bool × BitVec 5) :
    let t' := t.mapMask w mask d f
    t' = { t with parts := t'.parts, fstat := { t.fstat with flags := t'.fstat.flags } } ∧ t'.width = t.width ∧
      (∀ k r, t'.rv k r = t.rv k r) ∧ (∀ k r, r ≠ d → t'.rm k r = t.rm k r) ∧
      (∀ k j, k < t.width → j < 64 → (t'.rm k d).getLsbD j =
        if 512 / w ≤ j then false else if t.on mask k j then (f k j).1 else (t.rm k d).getLsbD j) ∧
      ∀ b, t'.fstat.flags.getLsbD b = flagAfter t w mask (fun k j => (f k j).2) b := by
  obtain ⟨h1, h2, h3, h4, h5⟩ := Task.fold_wm t d
    (fun k => BitVec.ofNat 64 ((((List.range (512 / w)).map fun i =>
      if t.on mask k i then f k i else ((t.rm k d).getLsbD i, 0)).zipIdx.map fun (p : (Bool × BitVec 5) × Nat) =>
        if p.1.1 then 2 ^ p.2 else 0).sum))
    (fun k => ((List.range (512 / w)).map fun i =>
      if t.on mask k i then f k i else ((t.rm k d).getLsbD i, 0)).foldl (fun fl x => fl ||| x.2) 0) t.width (Nat.le_refl _)
  refine ⟨h1, h2, h3, fun k r hr => (h4 k r).trans (by simp [hr]), fun k j hk hj => ?_, fun b => ?_⟩
  · have e : (t.mapMask w mask d f).rm k d = _ := h4 k d
    rw [e, if_pos ⟨hk, rfl⟩, BitVec.getLsbD_ofNat, zipIdx_map_range,
      testBit_sum_bits (fun i => (if t.on mask k i then f k i else ((t.rm k d).getLsbD i, 0)).1)]
    by_cases hl : 512 / w ≤ j
    · simp [hl, show ¬ j < 512 / w by omega]
    · simp only [hl, show j < 512 / w by omega, hj, decide_true, Bool.true_and, if_false]
      split <;> rfl
  · have e : (t.mapMask w mask d f).fstat.flags = _ := h5
    rw [e, getLsbD_foldl_or]
    unfold flagAfter
    congr 1
    refine congrArg (fun g => (List.range t.width).any g) (funext fun k => ?_)
    rw [foldl_flags_eq, List.any_map]
    refine congrArg (fun g => (List.range (512 / w)).any g) (funext fun i => ?_)
    simp only [Function.comp]
    cases t.on mask k i <;> simp

/-- A compare of lanes. -/
theorem writesMask_of_mapMask {i : Instr} {s : State} {t : Task} {g : Task → Task} {w : Nat} {mask d : SReg}
    {f : Nat → Nat → Bool × BitVec 5} (he : exec i s = runRegs g s) (h : s.task? = some t)
    (hw : w = 8 ∨ w = 16 ∨ w = 32 ∨ w = 64) (hg : g t = t.mapMask w mask d f) : writesMask i s t w mask d f := by
  obtain ⟨h1, h2, h3, h4, h5, h6⟩ := Task.mapMask_spec t hw mask d f
  have hb := becomes_of_runRegs he h
  rw [hg] at hb
  refine ⟨_, hb, ?_, h2, h3, h4, h5, fun b _ => h6 b⟩
  simp only [Task.step]
  conv_lhs => rw [h1]

end Sys2Proof.Machine
end

