-- ==== Sys2Proof/Laws/Float.lean ====
section
/-! SUPPORT. What a floating instruction leaves besides its results: the count of stochastic roundings (03 R91) and the mode. -/

namespace Sys2Proof.Machine

/-- An instruction that is one floating operation and a count of roundings. -/
theorem writesFloats_of_floatOp {i : Instr} {s : State} {t : Task} {vec sc : Bool} {ty : Ty} {f : FMod} {d a b c : Reg} {op : FOp}
    {g : Task → Task} {n : Nat} (he : exec i s = runRegs g s) (h : s.task? = some t)
    (hg : g t = { t.floatOp op vec sc ty f d a b c with sn := t.sn + n }) :
    writesFloats i s t vec sc ty f d a b c (op (tyFmt ty)) n := by
  unfold writesFloats
  cases vec with
  | true =>
    refine writesLanes_of_mapLanes he h (tyBits_cases ty) (hg.trans ?_)
    rfl
  | false =>
    refine writesFloat_of_runRegs he h (hg.trans ?_)
    rfl

theorem floatOp_sn (t : Task) (op : FOp) (vec sc : Bool) (ty : Ty) (f : FMod) (d a b c : Reg) :
    t.floatOp op vec sc ty f d a b c = { t.floatOp op vec sc ty f d a b c with sn := t.sn } := by
  unfold Task.floatOp
  cases vec with
  | true =>
    dsimp only
    rw [if_pos rfl]
    obtain ⟨h1, -⟩ := Task.mapLanes_spec t (tyBits_cases ty) f.mask d fun k i =>
      fres (op (tyFmt ty) (t.env f (512 / tyBits ty * k + i)) (lane (tyBits ty) (t.rv k a) i).toNat
        (t.bLane sc (tyBits ty) b k i).toNat (lane (tyBits ty) (t.rv k c) i).toNat)
    conv_lhs => rw [h1]
    conv_rhs => rw [h1]
  | false =>
    dsimp only
    rw [if_neg (by decide), Task.orFlags, Task.wx_eq]

theorem floatOp_mode (t : Task) (op : FOp) (vec sc : Bool) (ty : Ty) (f : FMod) (d a b c : Reg) (rm : RM) :
    (t.floatOp op vec sc ty f d a b c).mode rm = t.mode rm := by
  unfold Task.floatOp Task.mode
  cases vec with
  | true =>
    dsimp only
    rw [if_pos rfl]
    obtain ⟨h1, -⟩ := Task.mapLanes_spec t (tyBits_cases ty) f.mask d fun k i =>
      fres (op (tyFmt ty) (t.env f (512 / tyBits ty * k + i)) (lane (tyBits ty) (t.rv k a) i).toNat
        (t.bLane sc (tyBits ty) b k i).toNat (lane (tyBits ty) (t.rv k c) i).toNat)
    rw [h1]
  | false =>
    dsimp only
    rw [if_neg (by decide), Task.orFlags, Task.wx_eq]

theorem count_floatOp (t : Task) (op : FOp) (vec sc : Bool) (ty : Ty) (f : FMod) (d a b c : Reg) (rm : RM) :
    (t.floatOp op vec sc ty f d a b c).count rm =
      { t.floatOp op vec sc ty f d a b c with sn := t.sn + if t.mode rm = .st then 1 else 0 } := by
  unfold Task.count
  rw [floatOp_mode]
  split
  · conv_lhs => rw [floatOp_sn]
  · conv_lhs => rw [floatOp_sn]
    rfl

end Sys2Proof.Machine
end

