-- ==== Sys2Proof/Laws/Scalar.lean ====
section
/-! SUPPORT. What division and the searches for a bit compute, in the terms of `BitVec`. -/

namespace Sys2Proof.Machine

theorem ofInt_tdiv {n : Nat} (a b : BitVec n) : BitVec.ofInt n (a.toInt.tdiv b.toInt) = a.sdiv b := by
  apply BitVec.eq_of_toInt_eq
  rw [BitVec.toInt_ofInt, BitVec.toInt_sdiv]

theorem ofInt_tmod {n : Nat} (a b : BitVec n) : BitVec.ofInt n (a.toInt.tmod b.toInt) = a.srem b := by
  rw [← BitVec.toInt_srem, BitVec.ofInt_toInt]

theorem divS_fst {n : Nat} (a b : BitVec n) : (divS a b).1 = if b = 0 then BitVec.allOnes n else a.sdiv b := by
  unfold divS; split <;> simp_all [ofInt_tdiv]

theorem divS_snd {n : Nat} (a b : BitVec n) : (divS a b).2 = if b = 0 then a else a.srem b := by
  unfold divS; split <;> simp_all [ofInt_tmod]

theorem divN_fst {n : Nat} (a b : BitVec n) : (divN a b).1 = if b = 0 then BitVec.allOnes n else a / b := by
  unfold divN; split
  · rfl
  · apply BitVec.eq_of_toNat_eq
    simp
    exact Nat.mod_eq_of_lt (Nat.lt_of_le_of_lt (Nat.div_le_self _ _) a.isLt)

theorem divN_snd {n : Nat} (a b : BitVec n) : (divN a b).2 = if b = 0 then a else a % b := by
  unfold divN; split
  · rfl
  · apply BitVec.eq_of_toNat_eq
    simp
    exact Nat.mod_eq_of_lt (Nat.lt_of_le_of_lt (Nat.mod_le _ _) a.isLt)

/-- The first number below `n` that meets a test, `n` where none does. -/
theorem find_range (p : Nat → Bool) (n : Nat) :
    ∃ k, ((List.range n).find? p).getD n = k ∧ k ≤ n ∧ (∀ i, i < k → p i = false) ∧ (k < n → p k = true) := by
  refine ⟨_, rfl, ?_⟩
  cases h : (List.range n).find? p with
  | none =>
    simp at h ⊢
    exact h
  | some k =>
    simp only [Option.getD_some]
    have h1 := List.find?_some h
    have h2 := List.mem_of_find?_eq_some h
    rw [List.find?_range_eq_some] at h
    simp at h h2
    refine ⟨by omega, fun i hi => ?_, fun _ => h1⟩
    have := h.2.2 i hi
    simpa using this

end Sys2Proof.Machine
end

