-- ==== Sys2Proof/Laws/Task.lean ====
section
/-! SUPPORT. What each shared operation of an instruction answers, so that no proof unfolds the state monad. -/

namespace Sys2Proof.Machine

/-! ## Sequence -/

theorem bind_ok {α β : Type} {m : M α} {f : α → M β} {s s' : State} {a : α} (h : m s = .ok a s') : (m >>= f) s = f a s' := by
  simp only [bind, EStateM.bind, h]

theorem bind_error {α β : Type} {m : M α} {f : α → M β} {s s' : State} {e : Stop} (h : m s = .error e s') :
    (m >>= f) s = .error e s' := by
  simp only [bind, EStateM.bind, h]

theorem get_ok (s : State) : (get : M State) s = .ok s s := rfl

theorem pure_ok {α : Type} (a : α) (s : State) : (pure a : M α) s = .ok a s := rfl

/-! ## Parts of the state -/

theorem getTask_ok {s : State} {t : Task} (h : s.task? = some t) : getTask s = .ok t s := by
  rw [getTask, bind_ok (get_ok s), h]
  rfl

theorem getCore_ok {s : State} {k : Core} (h : s.core? s.cur = some k) : getCore s = .ok k s := by
  rw [getCore, bind_ok (get_ok s), h]
  rfl

theorem getInst_ok {s : State} {k : Core} {i : Inst} (hk : s.core? s.cur = some k) (hi : s.inst? k.inst = some i) :
    getInst s = .ok i s := by
  rw [getInst, bind_ok (get_ok s), bind_ok (getCore_ok hk), hi]
  rfl

theorem State.det_of_inst {s : State} {k : Core} {i : Inst} (hk : s.core? s.cur = some k) (hi : s.inst? k.inst = some i) :
    s.det = i.det := by
  simp only [State.det, hk, hi, Option.bind_some, Option.map_some, Option.getD_some]

/-- The launch of the current core is the one that `State.det` reads. -/
theorem getInst_det {s : State} {t : Task} (h : s.task? = some t) : ∃ i : Inst, getInst s = .ok i s ∧ i.det = s.det := by
  obtain ⟨k, hk, -⟩ := State.core_of_task h
  cases hi : s.inst? k.inst with
  | some i => exact ⟨i, getInst_ok hk hi, (State.det_of_inst hk hi).symm⟩
  | none =>
    refine ⟨_, by rw [getInst, bind_ok (get_ok s), bind_ok (getCore_ok hk), hi]; rfl, ?_⟩
    simp only [State.det, hk, hi, Option.bind_some, Option.map_none, Option.getD_none]

theorem noDet_ok {s : State} {t : Task} (h : s.task? = some t) (hd : s.det = false) : noDet s = .ok () s := by
  obtain ⟨i, hi, e⟩ := getInst_det h
  rw [noDet, bind_ok hi]
  exact need_ok _ _ _ (by rw [e, hd]; rfl)

theorem noDet_error {s : State} {t : Task} (h : s.task? = some t) (hd : s.det = true) :
    noDet s = .error (.flt { cause := .detOp }) s := by
  obtain ⟨i, hi, e⟩ := getInst_det h
  rw [noDet, bind_ok hi]
  exact need_error _ _ _ (by rw [e, hd]; rfl)

/-! ## Effects that a task holds -/

theorem hold_ok {s : State} {t : Task} (h : s.task? = some t) (e : Eff) :
    hold e s = .ok () (s.setTask { t with sluice := t.sluice ++ [e] }) := modTask_ok h _

theorem needMsg_ok {t : Task} (s : State) (h : msgEntries t.sluice < 32) : needMsg t s = .ok () s :=
  need_ok _ _ _ (by simp only [h, decide_true])

theorem needMsg_error {t : Task} (s : State) (h : 32 ≤ msgEntries t.sluice) :
    needMsg t s = .error (.flt { cause := .sluiceFull }) s :=
  need_error _ _ _ (by simp only [decide_eq_false_iff_not]; omega)

theorem atMember_ok {α : Type} {k : Nat} {m : M α} {s s' : State} {a : α} (h : m s = .ok a s') : atMember k m s = .ok a s' := by
  simp only [atMember, h]

/-- A cause that a member's access raises names that member (10 R267). -/
theorem atMember_error {α : Type} {k : Nat} {m : M α} {s s' : State} {f : Flt} (h : m s = .error (.flt f) s') :
    atMember k m s = .error (.flt { f with mem := k }) s' := by
  simp only [atMember, h]

theorem fits_ok {es : List Eff} {leader : Bool} {core m : Nat} (s : State) (h : lineEntries es leader core ≤ 256) :
    fits es leader core m s = .ok () s := atMember_ok (need_ok _ _ _ (by simp only [h, decide_true]))

theorem fits_error {es : List Eff} {leader : Bool} {core m : Nat} (s : State) (h : ¬ lineEntries es leader core ≤ 256) :
    fits es leader core m s = .error (.flt { cause := .sluiceFull, mem := m }) s :=
  atMember_error (need_error _ _ _ (by simp only [h, decide_false]))

theorem countEff_ok {s : State} {t : Task} (h : s.task? = some t) : countEff s = .ok t.qn (s.setTask { t with qn := t.qn + 1 }) := by
  rw [countEff, bind_ok (getTask_ok h), bind_ok (modTask_ok h _)]
  rfl

/-- Folding words changes the digest of a DET task and of no other (13 R315). -/
theorem fold_ok {s : State} {t : Task} (h : s.task? = some t) (ws : List Word) :
    fold ws s = .ok () (if s.det then s.setTask { t with hash := ws.foldl gGen t.hash, nw := t.nw + ws.length } else s) := by
  obtain ⟨i, hi, e⟩ := getInst_det h
  rw [fold, bind_ok hi, e]
  cases s.det with
  | true => exact modTask_ok h _
  | false => rfl

/-! ## Whole instructions -/

/-- An instruction whose operation leaves a task that holds what it should. -/
theorem issues_of_runTask {i : Instr} {s : State} {t t' : Task} {f : Task → M Unit} {es : List Eff} {n : Nat} {ws : List Word}
    (he : exec i s = runTask f s) (h : s.task? = some t) (hf : f t s = .ok () (s.setTask t'))
    (e : t'.step = t.issuing s.det es n ws) : issues i s t es n ws := by
  rw [issues, he, runTask_ok h hf, State.advance_setTask h, e]

/-- An instruction that holds one effect, and counts and folds nothing. -/
theorem issues_of_hold {i : Instr} {s : State} {t : Task} {f : Task → M Unit} {e : Eff} (he : exec i s = runTask f s)
    (h : s.task? = some t) (hf : f t = hold e) : issues i s t [e] 0 [] := by
  refine issues_of_runTask he h (by rw [hf]; exact hold_ok h e) ?_
  cases hd : s.det <;> simp [Task.issuing, Task.step]

/-- A privileged instruction checks the mode before anything else (21 R428). -/
theorem priv_first {s : State} {t : Task} {i : Instr} {g : Task → M Unit}
    (he : exec i s = runTask (fun t => do need t.priv .priv; g t) s) (h : s.task? = some t) (hp : t.priv = false) :
    traps i s { cause := .priv } := by
  refine traps_of_runTask he h ?_
  exact bind_error (need_error _ _ _ hp)

end Sys2Proof.Machine
end

