-- ==== Sys2Proof/Tests/Slice0.lean ====
section
/-! SUPPORT. Tests of the model: words that the spec writes out and what they decode to, ill-formed terms, one step of some
instructions against the spec's worked results, and a witness for the hypotheses of every statement. -/

namespace Sys2Proof.Tests

open Sys2Proof Sys2Proof.Machine

-- One test at a time: each kernel evaluation is done before the next begins.
set_option Elab.async false

/-! ## Words that the spec works out -/

/-- The words decode to the instruction, with no byte left. -/
def reads (ws : List IWord) (i : Instr) : Bool := decode (ws.flatMap wordBytes) = .ok (i, [])

/-- The instruction encodes to the words. -/
def writes (i : Instr) (ws : List IWord) : Bool := i.wf && encode i == ws

/-- 01 Table 1.14 and 08 Table 8.10. -/
theorem test_decode_scalar :
    reads [0xFFF4C510] (.addi 5 6 (-3)) ∧ reads [0x0003FF10] (.addi 31 31 0) ∧
    reads [0x00000722, 0x89ABCDEF, 0x01234567] (.li 7 0x0123456789ABCDEF) ∧
    reads [0x000C4104] (.add 1 2 3) ∧ reads [0x8098A404] (.subw 4 5 6) ∧ reads [0x02A50708] (.divn 7 8 9) ∧
    reads [0x081CC505, 8, 0] (.sel 5 6 7 8) ∧ reads [0x017D6A0D, 0, 5] (.sra 10 11 31 5) ∧
    reads [0x05FC830D, 0x1F, 0x83C] (.bfxn 3 4 31 31 60 8) := by decide +kernel

/-- 08 Table 8.10. -/
theorem test_decode_control :
    reads [0xFFF84128] (.beq 1 2 (-2)) ∧ reads [0x00006444] (.call 100) ∧ reads [0x0003C048] (.jr 30) ∧
    reads [0x01008049, 0, 0xFFFFFFFB] (.loop 4 (-5)) := by decide +kernel

/-- The worked encodings of 09. -/
theorem test_decode_float_vector :
    reads [0x028C4151, 0x01402804, 0] (.fma false false .f32 ⟨.rz, false, true, 0⟩ 1 2 3 4) ∧
    reads [0x001CC555, 0x20002400, 0] (.fadd true true .bf16 ⟨.dflt, false, false, 0⟩ 5 6 7) ∧
    reads [0x000C4159, 0x800, 0] (.vadd false .i32 0 1 2 3) ∧
    reads [0x000C415D, 0x40002800, 0] (.fcmp true .lt .f32 false 0 1 2 3) ∧
    reads [0x08008961, 0x2800, 0] (.vradd .f32 ⟨.dflt, false, false, 0⟩ 9 4) ∧
    reads [0x80004469, 0x20002540, 0] (.cvt true .f32 .bf16 1 ⟨.dflt, false, false, 0⟩ 4 2) ∧
    reads [0x81002569, 0x40003909, 1] (.cvtb .f16 .blk4 2 1 .dflt false 5 1 9) := by decide +kernel

/-- The worked encodings of 07 and 10. -/
theorem test_decode_local_jig :
    reads [0x079CC570] (.ldl .w8 5 ⟨6, 7, 3, 0⟩) ∧ reads [0x197C4971, 0, 0x40] (.stl .w4 9 ⟨2, 31, 0, 0x40⟩) ∧
    reads [0x00002374] (.qpop 3 1) ∧ reads [0x08204074] (.qpush 2 8) ∧
    reads [0x000080AD, 0, 0x00121023] (.jig 4 3 2 8 8 1) ∧ reads [0x008000AC] .unclamp ∧ reads [0x010005AC] (.clw 5) := by
  decide +kernel

/-- The worked encodings of 05. -/
theorem test_decode_global :
    reads [0x01FCC578] (.ld .w8 none 5 ⟨6, 31, 0, 0⟩) ∧
    reads [0x01FCC579, 0x000A8000, 0x10] (.ld .w8 (some .die) 5 ⟨6, 31, 0, 0x10⟩) ∧
    reads [0x050C477C] (.st .w4 none 7 ⟨2, 3, 2, 0⟩) ∧
    reads [0x001CC981, 0x20000C00, 8] (.amoadd .i64 true false ⟨false, false, .task⟩ 9 6 7 8) ∧
    reads [0x00000085, 0x00130000, 0] (.fence ⟨false, true, .pkg⟩) := by decide +kernel

/-- The worked encodings of 06. -/
theorem test_decode_copy :
    reads [0x000C0088] (.copy ⟨false, false, .task⟩ 3) ∧
    reads [0x000C0089, 0x200B0000, 0] (.copyGath ⟨true, false, .pkg⟩ 3) ∧
    reads [0x00940089, 0x00132800, 0] (.redc 0 .f32 .dflt false false ⟨false, true, .pkg⟩ 5) ∧
    reads [0x0128C989, 0xB, 0] (.rdb ⟨false, false, .task⟩ 9 6 10 11 0) ∧
    reads [0x001CC98D, 0, 8] (.mon 9 6 7 8) ∧ reads [0x0114208C] (.cvrel 1 5) := by decide +kernel

/-- The worked encodings of 11 and 12. -/
theorem test_decode_matrix :
    reads [0x005AB491, 0x20002409, 0] (.mma 1 .bf16 .dflt false false 20 21 22 9) ∧
    reads [0x015AB491, 0x010032E9, 0] (.mmag 0 .e4m3 .rz false false 20 21 22 9 23) ∧
    reads [0x0182A091, 0x40002009, 0] (.bld 2 .f16 false 21 9) ∧ reads [0x02000091, 0x40000009, 0] (.bfree 2 9) ∧
    reads [0x028C0091, 9, 0] (.route 3 9) ∧ reads [0x0002AA95, 0x20004189, 0] (.mlbe 1 false 10 21 9 12) ∧
    reads [0x00DAAA95, 0x20000189, 0x10000] (.noise 1 10 21 22 9 12 0 256) := by decide +kernel

/-- The worked encodings of 13, 14 and 16. -/
theorem test_decode_messages :
    reads [0x000000B0] .endt ∧ reads [0x008005B0] (.dgrd 5) ∧ reads [0x00054098] (.send none 10 1) ∧
    reads [0x00854099, 0xC, 0] (.sendd none 10 1 12) ∧ reads [0x01094098] (.sendv none 10 2) ∧
    reads [0x01856098] (.reply none 11 1) ∧ reads [0x0200A098] (.maskc 5) ∧ reads [0x0380A099, 0x20000000, 0] (.unparkDrop 5) ∧
    reads [0x0005409D, 0xC, 0] (.fork none 10 1 12) ∧ reads [0x00D0899D, 6, 0] (.join 9 4 20 6) ∧
    reads [0x0100609C] (.jret 3) := by decide +kernel

/-- The worked encodings of 16, 18 and 20. -/
theorem test_decode_progress_search :
    reads [0x0198A09D, 7, 0] (.barinit 5 6 7) ∧ reads [0x0218A09C] (.bara 5 6) ∧ reads [0x0280A09C] (.bard 5) ∧
    reads [0x0300809C] (.stage 4) ∧ reads [0x0394809C] (.launch 4 5) ∧ reads [0x001CC5A0] (.draw 5 6 7) ∧
    reads [0x008000A0] .reseed ∧ reads [0x012D49A0] (.excq 9 10 11) ∧ reads [0x01AC89A0] (.excqp 9 4 11) ∧
    reads [0x0200C0A0] (.wset 6) ∧ reads [0x0018A0A4] (.incumbMin 5 6) ∧ reads [0x0018A0A5, 0x20000000, 0] (.incumbMax 5 6) ∧
    reads [0x008007A4] (.rdinc 7) ∧ reads [0x008007A5, 0x20000000, 0] (.rdincPay 7) ∧ reads [0x010000A4] .killpt ∧
    reads [0x018120A4] (.bound 9) := by decide +kernel

/-- The worked encodings of 21, and the two words of 01 R32 that are never an instruction. -/
theorem test_decode_system :
    reads [0x0000A0A8] (.trap 5) ∧ reads [0x0098A0A8] (.sysc 5 6) ∧ reads [0x010015A9, 0, 1] (.rds 21 1) ∧
    reads [0x0180A0A9, 0, 0x20] (.wrs 5 0x020) ∧ reads [0x0200A0A8] (.tlbinv 5) ∧ reads [0x020000A9, 0x20000000, 0] .tlbinvCtx ∧
    reads [0x0298A0A9, 0x40000000, 0] (.haltRes 5 6) ∧ reads [0x030007A8] (.fltpop 7) ∧ reads [0] (.illop 0) := by decide +kernel

/-- The bytes are no instruction. -/
def refuses (ws : List IWord) : Bool := match decode (ws.flatMap wordBytes) with
  | .ok _ => false
  | .error _ => true

/-- 01 R22, R31, R20 and Table 1.13: LI with its A slot not zero, UNCLAMP with its D slot not zero, a FN without an
instruction, a mask code above 7, and words that end early. -/
theorem test_decode_refuses :
    refuses [0x00002720] ∧ refuses [0x008001AC] ∧ refuses [0x7F804104] ∧ refuses [0x000C485D, 0x40002800, 0] ∧
    refuses [0x000C415D, 0x40002800] := by decide +kernel

/-- The encoder writes the same words. -/
theorem test_encode_words :
    writes (.addi 5 6 (-3)) [0xFFF4C510] ∧ writes (.subw 4 5 6) [0x8098A404] ∧ writes (.sel 5 6 7 8) [0x081CC505, 8, 0] ∧
    writes (.beq 1 2 (-2)) [0xFFF84128] ∧ writes (.cvtb .f16 .blk4 2 1 .dflt false 5 1 9) [0x81002569, 0x40003909, 1] ∧
    writes (.amoadd .i64 true false ⟨false, false, .task⟩ 9 6 7 8) [0x001CC981, 0x20000C00, 8] ∧
    writes (.mmag 0 .e4m3 .rz false false 20 21 22 9 23) [0x015AB491, 0x010032E9, 0] ∧
    writes (.jig 4 3 2 8 8 1) [0x000080AD, 0, 0x00121023] ∧ writes (.wrs 5 0x020) [0x0180A0A9, 0, 0x20] := by decide +kernel

/-! ## Ill-formed terms: one for each check of `Instr.wf` -/

theorem test_wf_scalar :
    (Instr.illop 0x00000104).wf = false ∧ (Instr.rds 1 0x00B).wf = false ∧ (Instr.wrs 1 0x022).wf = false ∧
    (Instr.jig 1 0 0 0 0 0).wf = false ∧ (Instr.jig 1 0 0 24 9 0).wf = false := by decide

theorem test_wf_float :
    (Instr.fadd true false .i32 ⟨.rn, false, false, 0⟩ 1 2 3).wf = false ∧
    (Instr.fadd false false .f32 ⟨.rn, false, false, 1⟩ 1 2 3).wf = false ∧
    (Instr.fadd false true .f32 ⟨.rn, false, false, 0⟩ 1 2 3).wf = false ∧
    (Instr.fsqrt false .e4m3 ⟨.rn, false, false, 0⟩ 1 2).wf = false ∧ (Instr.fmin false false .f32 false 1 1 2 3).wf = false ∧
    (Instr.fabs false .f32 false 1 1 2).wf = false ∧ (Instr.fexp true .f64 ⟨.rn, false, false, 0⟩ 1 2).wf = false ∧
    (Instr.fexp true .f32 ⟨.rs, false, false, 0⟩ 1 2).wf = false ∧
    (Instr.fexp false .f32 ⟨.rn, false, false, 1⟩ 1 2).wf = false := by decide

theorem test_wf_vector :
    (Instr.vadd false .f32 0 1 2 3).wf = false ∧ (Instr.fcmp true .lt .f32 false 0 8 2 3).wf = false ∧
    (Instr.fcmp false .lt .f32 false 1 1 2 3).wf = false ∧ (Instr.fcmp true .lt .i32 false 0 1 2 3).wf = false ∧
    (Instr.icmp .un .i32 0 1 2 3).wf = false ∧ (Instr.icmp .ord .i32 0 1 2 3).wf = false ∧ (Instr.icmp .lt .f32 0 1 2 3).wf = false ∧
    (Instr.vbcast .blk4 0 1 2).wf = false ∧ (Instr.vradd .i32 ⟨.rn, false, false, 0⟩ 1 2).wf = false ∧
    (Instr.vradd .e4m3 ⟨.dflt, false, false, 0⟩ 1 2).wf = false ∧ (Instr.vrmin .i32 true 0 1 2).wf = false := by decide

theorem test_wf_conversions :
    (Instr.cvt true .blk4 .f32 0 ⟨.rn, false, false, 0⟩ 1 2).wf = false ∧
    (Instr.cvt true .f32 .blk8 0 ⟨.rn, false, false, 0⟩ 1 2).wf = false ∧
    (Instr.cvt true .f32 .bf16 2 ⟨.rn, false, false, 0⟩ 1 2).wf = false ∧
    (Instr.cvt false .f32 .bf16 1 ⟨.rn, false, false, 0⟩ 1 2).wf = false ∧
    (Instr.cvt false .f32 .bf16 0 ⟨.rn, false, false, 1⟩ 1 2).wf = false ∧
    (Instr.cvt true .i32 .i8 0 ⟨.dflt, true, false, 0⟩ 1 2).wf = false ∧
    (Instr.cvt true .i32 .i8 0 ⟨.dflt, false, true, 0⟩ 1 2).wf = false ∧
    (Instr.cvt true .i32 .i8 0 ⟨.rn, false, false, 0⟩ 1 2).wf = false ∧ (Instr.cvts true .f32 .i8 0 0 1 2).wf = false ∧
    (Instr.cvts false .i32 .i8 0 1 1 2).wf = false ∧ (Instr.cvtb .f64 .blk4 0 0 .rn false 1 2 3).wf = false ∧
    (Instr.cvtb .f32 .blk4 0 0 .rn false 1 31 3).wf = false ∧
    (Instr.cvtb .f16 .blk4 4 0 .rn false 1 2 3).wf = false ∧ (Instr.cvtb .f16 .blk8 0 1 .rn false 1 2 3).wf = false ∧
    (Instr.cvfb .blk4 .f32 0 .rn false 31 2 3).wf = false ∧ (Instr.cvfb .blk8 .f16 2 .rn false 1 2 3).wf = false := by decide

theorem test_wf_memory :
    (Instr.ldlz .w8 1 ⟨2, 31, 0, 0⟩).wf = false ∧ (Instr.ldz .w8 none 1 ⟨2, 31, 0, 0⟩).wf = false ∧
    (Instr.vldl .mld 0 1 ⟨2, 31, 0, 0⟩).wf = false ∧ (Instr.vst .blk8 none 0 1 ⟨2, 31, 0, 0⟩).wf = false ∧
    (Instr.qpush 0 1).wf = false ∧ (Instr.cvrel 0 1).wf = false ∧
    (Instr.amoadd .i32 false true ⟨false, false, .task⟩ 1 2 3 0).wf = false ∧
    (Instr.amoadd .i32 false false ⟨false, false, .core⟩ 1 2 3 0).wf = false ∧
    (Instr.amoswp .f32 false ⟨false, false, .task⟩ 1 2 3 0).wf = false ∧ (Instr.cstore4 0 1 1 2 3 0).wf = false ∧
    (Instr.cstore4 8 1 1 29 3 0).wf = false ∧ (Instr.cstore4 8 1 1 2 28 0).wf = false ∧ (Instr.fence ⟨false, false, .pkg⟩).wf = false := by
  decide

theorem test_wf_commands :
    (Instr.copy ⟨true, false, .core⟩ 1).wf = false ∧ (Instr.copy ⟨false, false, .pkg⟩ 1).wf = false ∧
    (Instr.redc 6 .i32 .dflt false false ⟨false, false, .task⟩ 1).wf = false ∧
    (Instr.redc 3 .f32 .dflt false false ⟨false, false, .task⟩ 1).wf = false ∧
    (Instr.redc 0 .i32 .rn false false ⟨false, false, .task⟩ 1).wf = false ∧
    (Instr.rdb ⟨true, false, .task⟩ 1 2 3 4 0).wf = false ∧ (Instr.mma 0 .f32 .rn false false 1 2 3 4).wf = false ∧
    (Instr.bld 0 .i8 false 1 2).wf = false ∧ (Instr.bld 0 .blk4 true 1 2).wf = false ∧ (Instr.bld 0 .f16 true 1 2).wf ∧
    (Instr.cvtb .i8 .blk8 1 0 .rn true 1 2 3).wf = false ∧ (Instr.mlbe 0 false 30 1 2 3).wf = false ∧
    (Instr.noise 0 30 0 1 2 3 0 1).wf = false ∧ (Instr.noise 3 1 0 1 2 3 0 1).wf = false ∧ (Instr.noise 0 1 1 1 2 3 0 1).wf = false ∧
    (Instr.noise 0 1 0 1 2 3 0 0).wf = false ∧ (Instr.noise 0 1 0 1 2 3 1 256).wf = false ∧
    (Instr.send (some .task) 1 2).wf = false ∧ (Instr.fork (some .task) 1 2 3).wf = false := by decide

/-! ## A small machine -/

/-- Its task: x1 = 5, x2 = −3, x3 = 64, x4 = 2^63, x5 = 0x10000 (the page of its code, which it may read and write). -/
def tk : Task :=
  (((((placedTask 0 1).wx 1 5).wx 2 (-3)).wx 3 64).wx 4 0x8000000000000000).wx 5 0x10000

/-- The machine that runs a task on its one core. -/
def on (t : Task) : State := { (State.reset.placed []).setTask t with agenda := [] }

/-- Its core, with another task or none. -/
def kOf (s : State) : Core := (s.core? s.cur).getD {}

/-- The machine with its core changed. -/
def withK (s : State) (f : Core → Core) : State := s.onCore 0 f

/-- The same launch with DET set. -/
def detOn (t : Task) : State := { on t with insts := [{ id := 1, det := true }] }

/-- The next state, if there is one. -/
def nextOf (r : Host.Outcome State Fault Refusal) : Option State := match r with
  | .next s => some s
  | _ => none

/-- The task after an instruction of `t`. -/
def after (i : Instr) (t : Task) : Option Task := (nextOf (exec i (on t))).bind State.task?

/-- A scalar register after an instruction of `t`. -/
def xr (i : Instr) (t : Task) (r : Reg) : Option Word := (after i t).map (·.rx r)

/-- The value of an operation that does not stop. -/
def val {α : Type} (m : M α) (s : State) : Option α := match m s with
  | .ok a _ => some a
  | .error .. => none

/-- The state after an operation that does not stop. -/
def left {α : Type} (m : M α) (s : State) : Option State := match m s with
  | .ok _ s' => some s'
  | .error .. => none

/-- The task after an operation that does not stop. -/
def leftTask {α : Type} (m : M α) (s : State) : Option Task := (left m s).bind State.task?

/-- How an operation stops. -/
def stopOf {α : Type} (m : M α) (s : State) : Option Stop := match m s with
  | .ok .. => none
  | .error e _ => some e

/-- The machine runs its task on its core, for an instance of a context: what every statement about an instruction asks. -/
theorem witness_running : (on tk).task? = some tk ∧ (on tk).core? (on tk).cur = some (kOf (on tk)) ∧
    (on tk).inst? (kOf (on tk)).inst = some { id := 1 } ∧ ((on tk).ctx? 0 0).isSome ∧ (on tk).det = false ∧ (detOn tk).det = true ∧
    tk.alone (on tk).cur := by unfold Task.alone; decide +kernel

/-! ## One step of scalar instructions -/

/-- 08 Table 8.3. -/
theorem test_division :
    xr (.div 6 1 2) ((tk.wx 1 7).wx 2 (-2)) 6 = some (-3) ∧ xr (.rem 6 1 2) ((tk.wx 1 (-7)).wx 2 2) 6 = some (-1) ∧
    xr (.div 6 1 31) tk 6 = some (BitVec.allOnes 64) ∧ xr (.rem 6 1 31) (tk.wx 1 0x1234) 6 = some 0x1234 ∧
    xr (.div 6 4 2) (tk.wx 2 (-1)) 6 = some 0x8000000000000000 ∧ xr (.rem 6 4 2) (tk.wx 2 (-1)) 6 = some 0 ∧
    xr (.divn 6 1 31) tk 6 = some (BitVec.allOnes 64) ∧
    xr (.remnw 6 1 31) (tk.wx 1 0x0000000180000005) 6 = some 0xFFFFFFFF80000005 := by decide +kernel

/-- 08 Table 8.5. -/
theorem test_bit_fields :
    let t := ((tk.wx 4 0x80000000000000F0).wx 6 7).wx 10 100
    xr (.bfxn 3 4 31 31 4 4) t 3 = some 0xF ∧ xr (.bfx 3 4 31 31 4 4) t 3 = some (BitVec.allOnes 64) ∧
    xr (.bfxn 3 4 31 31 60 8) t 3 = some 8 ∧ xr (.bfx 3 4 31 31 60 8) t 3 = some 0xFFFFFFFFFFFFFFF8 ∧
    xr (.bfx 3 4 31 31 64 8) t 3 = some 0 ∧ xr (.bfxn 3 4 31 31 4 0) t 3 = some 0 ∧
    xr (.bfx 3 4 9 10 0 0) t 3 = some 0x80000000000000F0 ∧
    xr (.bfi 5 6 31 31 62 4) (t.wx 5 0) 5 = some 0xC000000000000000 ∧ xr (.bfi 5 6 31 31 70 4) (t.wx 5 0) 5 = some 0 := by
  decide +kernel

/-- 08 Table 8.11: the two halves of a 128-bit sum. -/
theorem test_carry :
    let t := (tk.wx 1 (-1)).wx 3 2
    xr (.add 5 1 3) t 5 = some 1 ∧ xr (.addco 6 1 3) t 6 = some 1 ∧ xr (.sltn 6 3 1) t 6 = some 1 ∧ xr (.slt 6 3 1) t 6 = some 0 := by
  decide +kernel

/-- 08 R229 and R232: a BEQ with offset −2 goes back 8 bytes, and LOOP falls through at 1. -/
theorem test_branches :
    let t := { tk with npc := 0x10004 }
    (after (.beq 1 1 (-2)) t).map (·.pc) = some 0xFFF8 ∧ (after (.beq 1 2 (-2)) t).map (·.pc) = some 0x10004 ∧
    (after (.loop 1 (-5)) t).map (fun t => (t.pc, t.rx 1)) = some (0xFFEC, 4) ∧
    (after (.loop 1 (-5)) (t.wx 1 1)).map (fun t => (t.pc, t.rx 1)) = some (0x10004, 0) := by decide +kernel

/-- 08 R231: a register target that is a multiple of 4, and one that is not. -/
theorem witness_ControlFlow : (tk.rx 3).extractLsb' 0 2 = 0 ∧ (tk.rx 1).extractLsb' 0 2 ≠ 0 ∧
    (after (.jalr 30 3) { tk with pc := 0x10000 }).map (fun t => (t.pc, t.rx 30)) = some (64, 0x10004) ∧
    after (.jr 1) tk = none := by decide +kernel

/-! ## Vectors and floats -/

/-- 09 Table 9.6, scalar f32 and f16. -/
theorem test_float_edges :
    let f : FMod := ⟨.rn, false, false, 0⟩
    let go (i : Instr) (a b c : Word) : Option (Word × BitVec 5) :=
      (after i (((tk.wx 1 a).wx 2 b).wx 3 c)).map fun t => (t.rx 6, t.fstat.flags)
    go (.fma false false .f32 f 6 1 2 3) 0 0x7F800000 0x7FC00001 = some (0x7FC00001, fNV) ∧
    go (.fma false false .f32 f 6 1 2 3) 0 0x7F800000 0x3F800000 = some (0x7FC00000, fNV) ∧
    go (.fadd false false .f32 f 6 1 2) 0x7F800001 0xFFC00002 0 = some (0x7FC00001, fNV) ∧
    go (.fmin false false .f32 false 0 6 1 2) 0x7FC00000 0x40000000 0 = some (0x40000000, 0) ∧
    go (.fmin false false .f32 false 0 6 1 2) 0x7F800001 0x40000000 0 = some (0x40000000, fNV) ∧
    go (.fmin false false .f32 false 0 6 1 2) 0 0x80000000 0 = some (0x80000000, 0) ∧
    go (.fdiv false false .f32 f 6 1 2) 0x3F800000 0x80000000 0 = some (0xFF800000, fDZ) ∧
    go (.fsqrt false .f32 f 6 1) 0x80000000 0 0 = some (0x80000000, 0) ∧
    go (.fadd false false .f16 { f with rm := .rz } 6 1 2) 0x7BFF 0x7BFF 0 = some (0x7BFF, fOF ||| fNX) ∧
    go (.fmul false false .f32 { f with fzo := true } 6 1 2) 0x0D800000 0x30800000 0 = some (0, fUF ||| fNX) := by decide +kernel

/-- 09 Tables 9.10 and 9.11: 2^3 and its logarithm, 1/3 rounded to nearest, 1/√4 and 1/√2, a logarithm of −1, a signalling NaN. -/
theorem witness_SpecialFunctions :
    let v : FEnv := { md := .ne, fzi := false, fzo := false, draw := 0 }
    Fmt.f32.finite 0x40400000 = true ∧ Fmt.f32.val 0x40400000 = 3 ∧ Fmt.f32.val 0x41000000 = 2 ^ (3 : Int) ∧
    Fmt.f32.isSub 0x40400000 = false ∧ Fmt.f32.finite 0x41000000 = true ∧ Fmt.f32.isSub 0x41000000 = false ∧
    Fn9.exp2.eval Fmt.f32 v 0x40400000 = (0x41000000, 0) ∧ Fn9.log2.eval Fmt.f32 v 0x41000000 = (0x40400000, 0) ∧
    Fn9.rcp.eval Fmt.f32 v 0x40400000 = (0x3EAAAAAB, fNX) ∧ Fn9.rsq.eval Fmt.f32 v 0x40800000 = (0x3F000000, 0) ∧
    Fn9.rsq.eval Fmt.f32 v 0x40000000 = (0x3F3504F3, fNX) ∧ Fn9.log.eval Fmt.f32 v 0xBF800000 = (0x7FC00000, fNV) ∧
    Fmt.f32.val 0xBF800000 < 0 ∧ Fn9.sin.eval Fmt.f32 v 0x7F800001 = (0x7FC00001, fNV) := by decide +kernel

/-- 09 R247: VSUBS.n8 of 5 − 9 is 0 and VADDS.i8 of 100 + 100 is 127. -/
theorem test_saturation :
    let t := ((tk.wv 0 1 5).wv 0 2 9).wv 0 3 100
    (after (.vsubs false .n8 0 4 1 2) t).map (fun t => (t.rv 0 4).extractLsb' 0 8) = some 0 ∧
    (after (.vadds false .i8 0 4 3 3) t).map (fun t => (t.rv 0 4).extractLsb' 0 8) = some 127 := by decide +kernel

/-- 09 R251: the worked sum 2^24 + 1 + 1 − 2^24 of four lanes. -/
theorem test_reduction_tree :
    let t := (tk.wv 0 4 (ofLanes 32 [0x4B800000, 0x3F800000, 0x3F800000, 0xCB800000])).wm 0 1 0xF
    (after (.vradd .f32 ⟨.rn, false, false, 1⟩ 9 4) t).map (fun t => (t.rx 9, t.fstat.flags)) = some (0x3F800000, fNX) := by
  decide +kernel

/-- The instructions of the float statements are well formed, scalar and vector. -/
theorem witness_float_forms :
    (Instr.fadd true true .f32 ⟨.rs, true, true, 7⟩ 1 2 3).wf ∧ (Instr.fadd false false .f64 ⟨.dflt, false, false, 0⟩ 31 2 3).wf ∧
    (Instr.fmin true true .bf16 true 7 1 2 3).wf ∧ (Instr.fmin false false .f16 false 0 1 2 3).wf ∧
    (Instr.fexp true .f32 ⟨.rn, true, true, 7⟩ 1 2).wf ∧ (Instr.fexp false .bf16 ⟨.rs, false, false, 0⟩ 1 2).wf := by decide +kernel

/-- Types of the lane statements, and a mask register's and a scalar code at their bounds. -/
theorem witness_lane_forms :
    Ty.i8.isInt ∧ Ty.n64.isInt ∧ Ty.f16.isIeee ∧ Ty.f64.isIeee ∧ Ty.i8.hasLanes ∧ Ty.mld.hasLanes ∧ (7 : Reg).toNat < 8 ∧
    tk.width = 1 ∧ tk.width ∈ [1, 2, 4, 8] ∧ { tk with parts := tk.parts ++ tk.parts }.width ∈ [1, 2, 4, 8] := by decide +kernel

/-- Conversions that the statements allow: the widest part, narrowing and widening, vector and scalar. -/
theorem witness_conversion_forms :
    (Instr.cvt true .f64 .i8 7 ⟨.rz, true, false, 3⟩ 1 2).wf ∧ (Instr.cvt true .i8 .f64 7 ⟨.rn, false, true, 3⟩ 1 2).wf ∧
    (Instr.cvt false .f32 .i32 0 ⟨.rz, true, false, 0⟩ 1 2).wf ∧ (Instr.cvts true .i64 .n8 7 3 1 2).wf ∧
    (Instr.cvts false .i64 .n8 0 0 1 2).wf ∧ (Instr.cvtb .f32 .blk4 3 2 .rs true 1 30 31).wf ∧
    (Instr.cvtb .i8 .blk8 1 0 .rn false 1 2 3).wf ∧ (Instr.cvt true .i32 .f32 0 ⟨.rn, true, false, 0⟩ 1 2).wf ∧
    (Instr.cvt true .f32 .i32 0 ⟨.rn, false, true, 0⟩ 1 2).wf ∧ (Instr.cvfb .blk4 .f32 3 .rn true 30 2 3).wf ∧
    (Instr.cvfb .blk8 .bf16 1 .rn false 31 2 3).wf := by decide +kernel

/-- A value as an i8, to nearest. -/
def toI8 (x : Machine.Num) : Int × BitVec 5 := intOfNum {} (tyLo .i8) (tyHi .i8) x

/-- 03 R92: a value that the format holds rounds without overflow, and one at 2^128 overflows f32; 09 R242, R249, 03 R98: finite inputs, a
flushed one, a sum of 0, NaNs, and integers in and beyond their range. -/
theorem witness_RoundingFollowsTheMode :
    (Fmt.f32.round .ne false 0 true ⟨3, 0, false⟩).2.getLsbD 2 = false ∧
    (Fmt.f32.round .tz false 0 true ⟨1, 128, false⟩).2.getLsbD 2 = true ∧
    (let F := Fmt.f16
     let v : FEnv := { md := .dn, fzi := true }
     F.finite (F.flush v.fzi 0x3C00) = true ∧ 0 < F.val (F.flush v.fzi 0x3C00) ∧ F.finite (F.flush v.fzi 0x8001) = true ∧
     F.val (F.flush v.fzi 0x8001) = 0 ∧ F.val (F.flush v.fzi 0x3C00) + F.val (F.flush v.fzi 0xBC00) = 0 ∧
     (F.decode 0x7E00).isNaN = true ∧ (F.decode 0x7D00).isSig = true ∧ (F.decode 0x3C00).isNaN = false) ∧
    (toI8 (.fin false 1 15) = (127, fNV) ∧ toI8 (.fin true 1 15) = (-128, fNV) ∧ toI8 (.fin false 1 0) = (1, 0)) := by decide +kernel

/-- 09 R243, R242: −1 in f32, and the least subnormal with FZI clear. -/
theorem witness_InvalidOperations :
    Fmt.f32.finite 0xBF800000 = true ∧ Fmt.f32.val 0xBF800000 ≠ 0 ∧ Fmt.f32.val 0xBF800000 < 0 ∧ Fmt.f32.isSub 0xBF800000 = false ∧
    Fmt.f32.finite 1 = true ∧ Fmt.f32.val 1 ≠ 0 ∧ Fmt.f32.isSub 1 = true := by decide +kernel

/-! ## Steps, fetch and traps -/

/-- A task on the placed machine, with an instruction's words at its program counter. -/
def coded (ws : List IWord) : State := { State.reset.placed (ws.flatMap wordBytes) with agenda := [] }

/-- 01 R34: one word, and three; the fetch that the statement asks for reads them, and the step runs the instruction. -/
theorem witness_StepRunsTheDecodedInstruction :
    let s := coded [0xFFF4C510]
    let u := coded [0x1A80C511, 0, 6]
    val (fetchWord tk 0x10000) s = some 0xFFF4C510 ∧ tk.committing = false ∧ tk.tcyc < tk.tbudget ∧ tk.jig = none ∧
    plan 0xFFF4C510 = .ok 1 ∧ decode (wordBytes 0xFFF4C510) = .ok (.addi 5 6 (-3), []) ∧
    plan 0x1A80C511 = .ok 3 ∧ val (fetchWord tk 0x10000) u = some 0x1A80C511 ∧ val (fetchWord tk 0x10004) u = some 0 ∧
    val (fetchWord tk 0x10008) u = some 6 ∧
    (State.reset.withFetchWord 32 0xFFF4C510).agenda = [(1, .core 0)] ∧
    ((nextOf (step (State.reset.withFetchWord 32 0xFFF4C510))).bind State.task?).map (·.rx 5) = some (-3) ∧
    decode (wordBytes 0x1A80C511 ++ wordBytes 0 ++ wordBytes 6) = .ok (.addi 5 6 100000, []) := by decide +kernel

/-- 01 R36: the fetch translates, of a line that nobody holds. -/
theorem witness_FetchReadsMemory :
    let s := coded [0xFFF4C510]
    let x := val (taskXlat tk .fetch false 0x10000) s
    x.map (·.attr) = some 0 ∧ x.map (·.pa) = some 0x10000 ∧ tk.icache = [] ∧
    (left (taskXlat tk .fetch false 0x10000) s).map (fun s => (s.line 0x10000).hold) = some .free ∧ duePin s = none ∧
    duePin (State.reset.withFetchWord 32 0xFFF4C510) = none := by decide +kernel

/-- A task whose one read validates, and one whose read was written since. -/
def reader : Task := { tk with reads := [{ line := 0x10000, wts := 0, r := some 0, data := 0 }] }
def written : State := { on reader with lines := [(0x10000, { wts := 5, rts := 5 })] }

/-- The same machine with a fault queue in the page of its code. -/
def queued (s : State) : State := s.onCtx 0 0 fun x => { x with fqbase := 0x18000 }

/-- 21 R406: reads that validate and reads that do not; the record is written; the steward is told where channel 63 trapped. -/
theorem witness_TakingATrap :
    validates (on reader) reader = true ∧ validates written reader = false ∧
    (val (writeRecord 0 0 { kind := 0, cause := 41 } 1) ((queued (on tk)).parkTrapped 0 tk)).map (·.1) = some 1 ∧
    ((left (takeTrap 0 { cause := .swtrap }) (queued (on { tk with ch := 63 }))).map (·.out)) = some [.note (.ch63 0 0 0)] ∧
    ((left (takeTrap 0 { cause := .swtrap }) (queued (on tk))).map fun s => (s.net.length, s.task?)) = some (1, none) := by
  decide +kernel

/-- 21 R409: a full queue of 16, and one with room. -/
theorem witness_FaultQueue :
    let full := (queued (on tk)).onCtx 0 0 fun x => { x with fqtail := 17 }
    (full.ctx? 0 0).map (fun x => x.fqtail - x.fqhead) = some (2 ^ 4) ∧
    (val (engXlat 0 0 true .store (0x18000 + 64 * (1 % 2 ^ 4))) (queued (on tk))).map (·.attr) = some 0 ∧
    ((val (writeRecord 0 0 { kind := 0, cause := 41 } 1) full).map (·.1)) = some 0 ∧ ((val (writeRecord 0 0 { kind := 0, cause := 41 } 1) (queued (on tk))).map (·.1)) = some 1 := by
  decide +kernel

/-- 21 R429: TRAP and ILLOP take their traps; a task that is not privileged. -/
theorem witness_InstructionTraps :
    (left (takeTrap 0 { cause := .swtrap, detail := (tk.rx 1).setWidth 32 }) (on tk)).isSome ∧
    (left (takeTrap 0 { cause := .illop }) ((on tk).setTask { tk with ir := 0 })).isSome ∧ tk.jig = none ∧
    (on { tk with priv := false }).task? = some { tk with priv := false } ∧ (0x016#12) ∈ [0x016#12, 0x022#12, 0x028#12, 0x029#12] := by
  decide +kernel

/-! ## The scratchpad and the queue registers -/

/-- A region table: FRAME of 256 bytes at 0, PERS at 256, SPILL of 128 bytes at 512, QUEUE at 1024. -/
def regions : List (BitVec 64) :=
  [3 + 0x100 + (4 <<< 32), 15 + 0x200 + (4 <<< 16) + (4 <<< 32), 0x400 + (8 <<< 16) + (2 <<< 32), 0x300 + (16 <<< 16) + (64 <<< 32)]

/-- A handler entry with a frame of 256 bytes, q1 bound to feed 1 and q2 to culvert 0. -/
def entry : BitVec 256 := 1 + (1 <<< 8) + (4 <<< 32) + (1 <<< 128) + (16 <<< 133) + (8 <<< 227)

/-- A core with that table and entry, whose culvert 0 holds two words. -/
def spadCore (k : Core) : Core := { k with
  regions, chans := [(0, { ent := entry, box := [placedMsg 1] })], ovfsize := 64
  culverts := [(0, { depth := 4, held := 0, rsv := 0, filled := 2, free := 2, head := 0, tail := 2 })] }

def spadOn (t : Task) : State := withK (on t) spadCore

/-- 07 R203: misaligned; outside every entry, in SPILL, past the frame; the last bytes of FRAME and PERS. -/
theorem witness_LocalChecks :
    let k := kOf (spadOn tk)
    let g (off : Nat) := (k.regionAt off).getD 0
    255 % 2 ≠ 0 ∧ k.regionAt 640 = none ∧ regKind (g 512) = 4 ∧
    k.regionAt 192 = some (g 192) ∧ ¬ localOpen (g 192) 128 192 64 true ∧ localOpen (g 192) 256 192 64 true ∧
    k.regionAt 504 = some (g 504) ∧ localOpen (g 504) 0 504 8 false := by unfold localOpen; decide +kernel

/-- The effective operand [imm]. -/
def abs' (imm : BitVec 32) : MemOp := ⟨31, 31, 0, imm⟩

/-- A task that has written the last eight bytes of its frame and whole line 3. -/
def framed : Task := { tk with frame := (List.range 64).map fun i => (0, 192 + i) }

/-- 07 R204: the last word of the frame once it is known, the last line of PERS, lanes on and off. -/
theorem witness_LocalLoads :
    let s := spadOn framed
    let k := kOf s
    framed.off (abs' 248) = 248 ∧ framed.jigged (abs' 448) = 448 ∧ frameSz s framed = 256 ∧ (k.sbLine 248).poison = false ∧
    (∀ i, i < 8 → (s.cur, 248 + i) ∈ framed.frame) ∧ (framed.byteMask .i8 0 0).any id = true ∧ (framed.byteMask .i8 1 0).any id = false ∧
    (val ((membersOf s framed).mapM fun p => localLoad p.1 p.2.1 p.2.2 504 8) s).isSome ∧
    (leftTask ((membersOf s framed).forM (vldlMember framed 448 .i8 0 1)) s).isSome ∧
    (val ((membersOf s framed).mapM (ldsbMember s framed 448)) s).isSome := by decide +kernel

/-- 07 R205: both kinds of region, room in the sluice, and the members' stores. -/
theorem witness_LocalStores :
    let s := spadOn tk
    let k := kOf s
    (k.regionAt 504).map regKind = some 2 ∧ (k.regionAt 248).map regKind = some 1 ∧
    lineEntries (tk.sluice ++ [.pers 0 504 (padWords 504 (List.replicate 8 (some 0)))
      ((spadView tk 0 k 504 8).map (·.1))]) true 0 ≤ 256 ∧ padWords 508 [some 1] = List.replicate 4 none ++ [some 1] ++ List.replicate 3 none ∧
    (leftTask ((membersOf s tk).forM fun p => localStore p.1 p.2.1 504 8 (List.replicate 8 (some 0))) s).isSome ∧
    (leftTask ((membersOf s tk).forM (vstlMember tk 448 .i8 0 1)) s).isSome ∧
    (leftTask ((membersOf s tk).forM (stsbMember s tk 448 0 true)) s).isSome ∧ Memory.wf k.spad = true := by decide +kernel

/-- 07 R209: the carve-out's last slot, the overflow area's first and last, past it, an empty stack; each operation runs. -/
theorem witness_SpillAndFill :
    let k := kOf (spadOn tk)
    let t : Task := { tk with sptr := 64 }
    let s := spadOn t
    k.spillRegion = (512, 128) ∧ 4 % 8 ≠ 0 ∧ 120 + 8 ≤ 128 ∧ (128 < 128 + 8 ∧ 184 + 8 ≤ 128 + k.ovfsize) ∧ 128 + k.ovfsize < 192 + 8 ∧
    tk.sptr < 8 ∧ 8 ≤ t.sptr ∧ leaderCore s t = 0 ∧
    val (spillSlot (kOf s) 0 64 64 8) s = some (.carve 576) ∧ val (spillSlot (kOf s) 0 64 56 8) s = some (.carve 568) ∧
    (leftTask (slotWrite 0 (kOf s) 0 true (.carve 576) (wordBytes64 5)) s).isSome ∧
    (val (slotRead (kOf s) 0 true (.carve 568) 8) s).isSome ∧
    (leftTask ((membersOf s t).forM (spillvMember t 1)) s).isSome ∧ (leftTask ((membersOf s t).forM (fillvMember t 1)) s).isSome := by
  decide +kernel

/-- 07 R209: a stack of one word below the end of the carve-out. -/
theorem witness_FillReturnsTheSpill :
    let t : Task := { tk with sptr := 120 }
    let k := kOf (spadOn t)
    (spadOn t).task? = some t ∧ t.alone (spadOn t).cur ∧ Memory.wf k.spad = true ∧ t.sptr % 8 = 0 ∧ t.sptr + 8 ≤ k.spillRegion.2 ∧
    (k.sbLine (k.spillRegion.1 + t.sptr)).poison = false := by unfold Task.alone; decide +kernel

/-- 07 R215: every binding; a payload of one word, and none; pushes at the bound. -/
theorem witness_QueueRegisters :
    let k := kOf (spadOn tk)
    let p : Task := { tk with sluice := List.replicate 16 (.qpush 1 0) }
    qbind k tk 0 = .payload ∧ qbind k tk 1 = .feed 1 ∧ qbind k tk 2 = .culv 0 ∧ qbind k tk 3 = .unbound ∧ tk.q0 = [] ∧
    pushesTo tk 1 < 16 ∧ 16 ≤ pushesTo p 1 ∧ (k.culvert 0).filled ≠ 0 ∧ ({ k with culverts := [] }.culvert 0).filled = 0 ∧
    xr (.qpop 6 0) { tk with q0 := [7] } 6 = some 7 := by decide +kernel

/-! ## Global memory -/

/-- The machine with bit A of the page's entry clear. -/
def unseen : State := { on tk with mem := mwrite (on tk).mem 0x2008 [0xBD, 0] }

/-- 02 R61: a translation where A is set, one that sets it in the entry that it names, one that faults, and one that a cache gives. -/
theorem witness_TranslationSetsOnlyA :
    Memory.wf (on tk).mem = true ∧ Memory.wf unseen.mem = true ∧ unseen.task? = some tk ∧
    (leftTask (taskXlat tk .load false 0x10000) (on tk)) = some tk ∧ (leftTask (taskXlat tk .load false 0x1FFFF) unseen).isSome ∧
    ((left (taskXlat tk .load false 0x1FFFF) unseen).map fun s => leNat (mread s.mem 0x2008 8)) =
      some (leNat (mread unseen.mem 0x2008 8) + 64) ∧
    ((val (taskXlat tk .load false 0x1FFFF) unseen).map (·.lead)) = some 0x2008 ∧
    (stopOf (taskXlat tk .load false 0x40000000) (on tk)).isSome ∧
    ((left (taskXlat tk .load false 0x10000) (on tk)).bind fun s =>
      (tlbFind s (tlbKeys s s.cur).1 0 0 0x10000).map fun e => (accessCheck s.plat e tk.priv .load false (e.xlat 0x10000).pa,
        walkAgrees 0 0 tk.priv .load false (e.xlat 0x10000) s)) = some (none, true) := by decide +kernel

/-- A line of the page held as given. -/
def holding (h : Hold) : State := { on tk with lines := [(0x10040, { hold := h })] }

/-- A line request of the task of a core. -/
def asks (s : State) (c line : Nat) : LineReq := { slice := s.servingSlice 0 line tk.ts, core := c, line, ts := tk.ts }

/-- The machine with a second core whose task runs too. -/
def twoOn : State := { on tk with cores := (on tk).cores ++ [(1, { inst := 1, lid := 1, phys := 1, task := some tk })] }

/-- A request of the second core that came first to a line's port. -/
def busyPort (line : Nat) : State := { twoOn with lineReqs := [{ asks twoOn 1 line with line := 0x1FFC0 }] }

/-- The machine with a replica on the core's die that serves any lease. -/
def replicated : State := { on tk with
  replicas := [{ die := 0, line := 0x10040, rlim := 2 ^ 40, slice := 5, here := true }], redirects := [(0, 0x10040)] }

/-- 04 R114, 05 R164, 19 R385: a line that nobody holds, that the core has pinned, that another core has pinned; one in a read set
that is full; a slot of the port that is the load's own, one that another request takes, and a core with 8 requests already; a
replica that serves. -/
theorem witness_LeasesAndReads :
    let t : Task := { tk with reads := (List.range 512).map fun i => { line := 0x10000 + 64 * i, wts := 0, r := some 0, data := 0 } }
    let x := val (taskXlat tk .load false 0x10078) (on tk)
    x.map (·.attr) = some 0 ∧ x.map (fun x => (on tk).keys x.pa 8) = some [0x10040] ∧ tk.reads.length < 512 ∧ t.reads.length = 512 ∧
    (t.reads.find? fun e => e.line == 0x10040).isSome ∧ (t.reads.find? fun e => e.line == 0x18000) = none ∧
    (val (readGlobal 0x10078 8) (holding .free)).isSome ∧ (val (readGlobal 0x10078 8) (holding (.pinned 0))).isSome ∧
    stopOf (readGlobal 0x10078 8) (holding (.pinned 1)) = some .retry ∧
    stopOf (readGlobal 0x18000 8) (on t) = some (.flt { cause := .rsetFull }) ∧
    (((on tk).sendReq (asks (on tk) 0 0x10040)).portSlot (asks (on tk) 0 0x10040).slice).map (·.1) = some (asks (on tk) 0 0x10040) ∧
    (((busyPort 0x10040).sendReq (asks twoOn 0 0x10040)).portSlot (asks twoOn 0 0x10040).slice).map (·.1.core) = some 1 ∧
    stopOf (readGlobal 0x10078 8) (busyPort 0x10040) = some .queued ∧
    (let late : State := { on tk with portAt := [((asks (on tk) 0 0x10040).slice, (on tk).now)] }
     (late.sendReq (asks late 0 0x10040)).portBusy (asks late 0 0x10040).slice = true ∧
     stopOf (readGlobal 0x10078 8) late = some .queued ∧ (val (readGlobal 0x10078 8) { late with now := late.now + 1 }).isSome) ∧
    (on tk).portBusy (asks (on tk) 0 0x10040).slice = false ∧
    ((({ on tk with lineReqs := (List.range 8).map fun i => { slice := 256, core := 0, line := 0x20000 + 64 * i, ts := tk.ts } } :
      State).sendReq (asks (on tk) 0 0x10040)).portSlot (asks (on tk) 0 0x10040).slice) = none ∧
    replicated.replicaServes 0 0x10040 (max tk.ts 0 + replicated.leaseLen) = true ∧
    (val (readGlobal 0x10078 8) replicated).isSome ∧
    (let h : Task := { tk with sluice := [.store { va := 0x10078, pa := 0x10078, attr := 0, mapi := 0, lead := 0, dseen := true } false
        (List.replicate 8 (some 9)) none] }
     (∀ i, i < 8 → (forwarded h (0x10078 + i)).isSome = true) ∧ val (readGlobal 0x10078 8) (on h) = some (List.replicate 8 9)) := by
  decide +kernel

/-- 05 R149: the last word of the page, a misaligned one, lanes on and off, a line for LDV. -/
theorem witness_GlobalLoads :
    tk.ea ⟨5, 31, 0, 0xFFF8⟩ = 0x1FFF8 ∧ 0x1FFF8 % Width.w8.bytes = 0 ∧ 0x1FFFC % Width.w8.bytes ≠ 0 ∧
    (leftTask (readGlobal 0x1FFF8 8) (on tk)).isSome ∧ (tk.byteMask .f64 0 0).any id = true ∧ (tk.byteMask .f64 7 0).any id = false ∧
    (leftTask ((List.range tk.width).forM (vldMember tk 0x10040 .f64 0 1)) (on tk)).isSome ∧
    (leftTask (readGlobal (0x10040 + BitVec.ofNat 64 (64 * 0)) 64) (on tk)).isSome ∧ 0x10041 % 64 ≠ 0 ∧
    ((left (taskXlat tk .load false 0x10040) (on tk)).map fun s => ((s.line 0x10040).hold, (s.line 0x10040).poison)) =
      some (.free, false) ∧
    xr (.ld .w8 none 6 ⟨5, 31, 0, 0⟩) tk 6 = some 0 := by decide +kernel

/-- A sluice whose line entries are all in use. -/
def fullSluice : List Eff :=
  (List.range 256).map fun i => .store { va := 0, pa := 64 * i, attr := 0, mapi := 0, lead := 0, dseen := true } false [some 0] none

/-- The placed machine with its page in configuration space. -/
def deviceOn (t : Task) : State :=
  let s := on t
  let e : PMapEnt := { v := true, rd := true, w := true, x := true, dt := false, gbase := 0x80000000, hbase := 14 * 2 ^ 48, limit := 65536
                       dtbase := 0 }
  { s with mem := mwrite s.mem (placedTable + 8) (natBytes 8 (0x80000000 + 2 * 2 ^ 11 + 255 - 2))
           parts := tput s.parts 0 { s.part 0 with pmap := (s.part 0).pmap ++ [(1, e)] } }

/-- 05 R153, 13 R305: room for one more line, and none; aligned and not; a device page, which the privileged alone may reach. -/
theorem witness_GlobalStores :
    let e : Eff := .store { va := 0, pa := 0x10000, attr := 0, mapi := 0, lead := 0, dseen := true } false [some 0] none
    (let u : Task := { tk with priv := false }
     (val (taskXlat u .store false 0x10000) (deviceOn u)).map (·.attr) = some 2 ∧ u.priv = false ∧ tk.priv = true) ∧
    lineEntries (tk.sluice ++ [e]) true 0 ≤ 256 ∧ ¬ lineEntries (fullSluice ++ [e]) true 0 ≤ 256 ∧
    (leftTask (taskXlat tk .store false 0x10000) (on tk)) = some tk ∧ (leftTask (taskXlat tk .atomic false 0x10000) (on tk)) = some tk ∧
    tk.eaImm 5 256 = 0x10100 ∧ 0x10100 % 256 = 0 ∧ (on tk).det = false ∧ (detOn tk).det = true ∧
    (leftTask ((List.range tk.width).forM (vstMember tk 0x10040 .f64 none 0 1)) (on tk)).isSome ∧
    (after (.st .w8 none 1 ⟨5, 31, 0, 0⟩) tk).map (fun t => t.sluice.length) = some 1 ∧
    (after (.st .w8 none 1 ⟨5, 31, 0, 4⟩) tk).isNone := by decide +kernel

/-- 05 R155: aligned and not, with and without DET; Table 5.2 at the ends of i32. -/
theorem witness_Atomics :
    tk.eaImm 5 4 = 0x10004 ∧ 0x10004 % Ty.i32.bytes = 0 ∧ 0x10004 % Ty.i64.bytes ≠ 0 ∧
    (leftTask (taskXlat tk .atomic true 0x10004) (on tk)) = some tk ∧
    amoNew .add .i32 0xFFFFFFFF 1 0 = 0 ∧ amoNew .min .i32 0x80000000 0x7FFFFFFF 0 = 0x80000000 ∧
    amoNew .max .n32 0x80000000 0x7FFFFFFF 0 = 0x80000000 ∧ amoNew .cas .i64 5 5 9 = 9 ∧ amoNew .cas .i64 5 6 9 = 5 := by decide +kernel

/-! ## Commands, messages and the spawn of work -/

/-- A descriptor of one line, of a gather of one index, and none. -/
def descLine : VReg := 64 <<< 128
def descGather : VReg := (64 <<< 128) + (1 <<< 256)

/-- 06 R167, R179: right and wrong descriptors, credits and none, the bounds of RDB, and the monitors' count at 16. -/
theorem witness_CopyCommands :
    let k := kOf (on tk)
    let m : Task := { tk with sluice := List.replicate 16 (.mon { va := 0, pa := 0, attr := 0, mapi := 0, lead := 0, dseen := true } 0 0 0 0) }
    descOk false 1 ((on tk).depth 1) descLine = true ∧ descOk false 1 ((on tk).depth 1) 0 = false ∧
    descOk true 1 ((on tk).depth 1) descGather = true ∧ descOk true 1 ((on tk).depth 1) descLine = false ∧ redcOk 8 descLine = true ∧
    k.creds ≠ 0 ∧ { k with creds := 0 }.creds = 0 ∧ msgEntries tk.sluice < 32 ∧
    tk.eaImm 5 64 = 0x10040 ∧ (0x10040 % 64 = 0 ∧ 65536 % 64 = 0 ∧ 65536 ≤ 65536 ∧ 64 ≤ 65536) ∧ ¬ 32 % 64 = 0 ∧
    tk.eaImm 5 8 = 0x10008 ∧ 0x10008 % 8 = 0 ∧ 0x10004 % 8 ≠ 0 ∧ (leftTask (taskXlat tk .load false 0x10008) (on tk)) = some tk ∧
    monCount (on tk) 0 tk < 16 ∧ 16 ≤ monCount (on m) 0 m := by decide +kernel

/-- 11 R281: the unit and none, row counts at 1 and 256 and past them, reserved completion bits, no credit, a ROUTE descriptor. -/
theorem witness_MatrixCommands :
    let s := on tk
    let k := kOf s
    hasUnit s k = true ∧ hasUnit { s with plat := { s.plat with mxmap := [0, 0, 0, 0] } } k = false ∧ fld (tk.rx 3) 15 0 ≠ 0 ∧
    (tk.rx 3).toNat % 64 = 0 ∧ (tk.rx 1).toNat % 64 ≠ 0 ∧ (1 ≤ 1 ∧ 256 ≤ 256) ∧ ¬ 257 ≤ 256 ∧ ¬ (1 ≤ (tk.rx 31).toNat) ∧
    compOk (tk.rx 31) = true ∧ compOk (tk.rx 3) = true ∧ compOk 0x80 = false ∧ k.mxcreds ≠ 0 ∧ { k with mxcreds := 0 }.mxcreds = 0 ∧
    routeOk ((1 <<< 128) + (1 <<< 160) + (1 <<< 192) + (64 <<< 224)) = true ∧ routeOk 0 = false ∧ fld (tk.rx 5) 15 0 = 0 := by
  decide +kernel

/-- A header by class, destination package and logical core. -/
def hd (cls pkg core cnt : Nat) : Word := BitVec.ofNat 64 (cls * 64 + cnt * 512 + core * 4096 + pkg * 2 ^ 24)

/-- 14 R336: headers that may leave, of this package by number and by 0x1FF, to be placed, and of each check that refuses; the last
free entry of the request queue, and none; a reply; the last delay. -/
theorem witness_Sends :
    let full : List Eff := List.replicate 8 (.send 0 [] 0 none noJref false 0)
    hdrCls (hd 3 0 0 7) = 3 ∧ hdrPkg (hd 3 0x1FF 0 7) = 0x1FF ∧ (on tk).plat.pkgId = 0 ∧ hdrCore (hd 3 0 0xFFF 0) = 0xFFF ∧
    hdrCls (hd 7 0 0 0) = 7 ∧ hdrPkg (hd 0 288 0 0) = 288 ∧ hdrCore (hd 0 0 1 0) = 1 ∧ hdrCnt (hd 0 0 0 7) = 7 ∧
    (hdrHb (1 <<< 33) = true ∧ hdrCnt (1 <<< 33) = 0) ∧ (24 + 7 ≤ 31 ∧ ¬ 25 + 7 ≤ 31) ∧
    sqUsed (on tk) 0 (full.take 7) 0 + 1 ≤ (kOf (on tk)).sqd.getD 0 0 ∧ ¬ sqUsed (on tk) 0 full 0 + 1 ≤ (kOf (on tk)).sqd.getD 0 0 ∧
    msgEntries full < 32 ∧ tk.trig.kind = .soft ∧ hdrCls (replyHeader (hd 4 0 0 0) (tk.rx 0) tk.trig) = 4 ∧
    fld (0 : Word) 63 56 = 0 ∧ fld (0 : Word) 47 44 = 0 ∧ fld (1 <<< 44 : Word) 47 44 ≠ 0 ∧ 2 ^ 20 ≤ 2 ^ 20 ∧
    sqUsed (on tk) 0 [] 2 + 1 ≤ (kOf (on tk)).sqd.getD 2 0 ∧
    (after (.send none 31 31) tk).map (fun t => t.sluice.length) = some 1 ∧ after (.send none 1 31) (tk.wx 1 (hd 7 0 0 0)) = none := by
  decide +kernel

/-- 14 R338: every selector, a channel with an entry and one without, BUDGET at 16,384 and past it. -/
theorem witness_MasksAndHandlers :
    let k := kOf (on tk)
    let sel (v : Word) : BitVec 2 := v.extractLsb' 8 2
    sel 0 = 0 ∧ sel 0x100 = 1 ∧ sel 0x200 = 2 ∧ sel 0x300 = 3 ∧ entV (k.chan (fld (0x100 : Word) 5 0)).ent = true ∧
    ¬ entV (k.chan (fld (0x13F : Word) 5 0)).ent = true ∧ fld (16384 : Word) 14 0 ≤ 16384 ∧ 16384 < fld (16385 : Word) 14 0 ∧
    tk.priv = true ∧ (on tk).det = false ∧ (detOn tk).det = true := by decide +kernel

/-- 16 R353 to R360: 1 and 256 children and what is neither, slots that end with the PERS region and past it, 15 and 16 joins,
returns with and without a record, barriers of all cores and past them, arrivals due and not, 65,536 and 65,537 stages. -/
theorem witness_JoinsAndBarriers :
    let k := kOf (spadOn tk)
    let g (off : Nat) := (k.regionAt off).getD 0
    let t : Task := { tk with trig := { tk.trig with jref := 0 }, sluice := [.jret 0 0 0] }
    entV (k.chan 0).ent = true ∧ ¬ entV (k.chan 63).ent = true ∧ fld (0 : Word) 63 6 = 0 ∧ fld (64 : Word) 63 6 ≠ 0 ∧
    k.regionAt 256 = some (g 256) ∧ regKind (g 256) = 2 ∧ regEw (g 256) = true ∧ 256 + 8 * 32 ≤ regBase (g 256) + regLen (g 256) ∧
    ¬ 256 + 8 * 33 ≤ regBase (g 256) + regLen (g 256) ∧ k.regionAt 640 = none ∧ k.joins.length + heldJoins tk < 16 ∧
    16 ≤ k.joins.length + heldJoins { tk with sluice := List.replicate 16 (.join 0 1 256 0 0) } ∧
    tk.trig.jref = noJref ∧ t.trig.jref ≠ noJref ∧ fld t.trig.jref 43 32 < 1 ∧
    (t.sluice.any fun e => match e with | .jret .. => true | _ => false) = true ∧
    (fld (0 : Word) 7 6 = 0 ∧ fld (0 : Word) 63 14 = 0 ∧ (1 : Word).toNat ≠ 0 ∧ 0 + (1 : Word).toNat ≤ 1) ∧ ¬ 1 + (1 : Word).toNat ≤ 1 ∧
    ({ k with member := 1 }.member.getLsbD 0 = true ∧ { k with member := 1 }.arrived.getLsbD 0 = false) ∧ holdsArrival tk 0 = false ∧
    k.member.getLsbD 0 = false ∧ (65536 : Word).toNat ≤ 65536 ∧ 65536 < (65537 : Word).toNat ∧ fld (128 : Word) 6 0 = 0 ∧
    fld (64 : Word) 6 0 ≠ 0 := by decide +kernel

/-! ## System instructions, search and the end of a task -/

/-- 21 R431: registers of every kind, a record to pop and none; 18 R383: classes that are lotteries and not; paths; a routing table. -/
theorem witness_SystemInstructions :
    let s := (spadOn tk).onCtx 0 0 fun x => { x with fqtail := 2 }
    let nine := withK (spadOn tk) fun k => { k with spad := [(256, 9)] }
    let load (s : State) := val ((List.range 4).mapM fun i => localLoad 0 0 (kOf s) (256 + 64 * i) 64) s
    rdsPriv 0x001 = false ∧ rdsPriv 0x028 = true ∧ rdsDet 0x020 false = false ∧ rdsDet 0x001 true = true ∧ rdsDet 0x001 false = false ∧
    (s.ctx? 0 0).map (fun x => decide (max x.fqhead tk.fltat < x.fqtail)) = some true ∧
    ((on tk).ctx? 0 0).map (fun x => decide (x.fqtail ≤ max x.fqhead tk.fltat)) = some true ∧ fld (128 : Word) 6 0 = 0 ∧
    fld (1 : Word) 6 0 ≠ 0 ∧ fld (0x11 : Word) 63 8 = 0 ∧ fld (0x111 : Word) 63 8 ≠ 0 ∧ lottSp 0x11 ≠ none ∧ lottSp 0x15 = none ∧
    (boundAt s (kOf s) 0x30).isSome ∧ boundAt s (kOf s) 0x11 = none ∧
    (pathEntries 0x0111).map (fun e => (e.1, e.2.1)) = [(0x11, 1), (0, 0)] ∧ ((pathEntries 0).filter fun e => e.2.1 != 0) = [] ∧
    (load s).map (fun rows => rows.flatten.all fun v => decide (v.toNat < 8)) = some true ∧
    (load nine).map (fun rows => rows.flatten.all fun v => decide (v.toNat < 8 ∨ v = 0xFF#8)) = some false := by decide +kernel

/-- 20 R396, R400: the last message entry and none; a bound that cannot beat the copy, and one that can. -/
theorem witness_SearchInstructions :
    let k : Core := { kOf (on tk) with chans := [(0, { ent := 0x21 })], inc := { ne := true, value := 4 } }
    let t : Task := { tk with bound := 5, trig := { tk.trig with hdr := 1 <<< 33 } }
    msgEntries (List.replicate 31 (.monx 0) ++ List.replicate 31 (.bard 0 0)) < 32 ∧ 32 ≤ msgEntries (List.replicate 32 (.bard 0 0)) ∧
    (entPrune (k.chan 0).ent = true ∧ hdrHb t.trig.hdr = true ∧ k.inc.ne = true ∧ k.inc.value.toInt < t.bound.toInt) ∧
    ¬ k.inc.value.toInt < tk.bound.toInt := by decide +kernel

/-- 13 R310: a task that is kill-pending, one that does not validate, one with a commit fault, and one that commits. -/
theorem witness_EndOfTask :
    let k : Core := { kOf (on tk) with chans := [(0, { ent := 0x21 })], inc := { ne := true, value := 4 } }
    let t : Task := { tk with bound := 5, trig := { tk.trig with hdr := 1 <<< 33 } }
    let amo : Eff := .amo { va := 0x10000, pa := 0x10000, attr := 1, mapi := 0, lead := 0x2008, dseen := true } .add .i64 1 0 none
      ⟨false, false, .task⟩ 0x10000 0 0x10000
    let a : Task := { tk with sluice := [amo] }
    let b : State := { on a with bias := [((0, 1), true)] }
    killPending (withK (on t) fun _ => { k with task := some t }) k t = true ∧ killPending (on tk) (kOf (on tk)) tk = false ∧
    validates written reader = false ∧ validates (on tk) tk = true ∧ (commitFault b a).isSome ∧ commitFault (on tk) tk = none ∧
    (after .endt tk).map (·.committing) = some true := by decide +kernel

/-- 10 R261 to R265: counts at 65,536 and past it, a body of one instruction, one that may not stand there, one whose second register
would be v32, iterations and their end, registers of the window at its ends and outside. -/
theorem witness_JigAndClamp :
    let s := coded [0, 0, 0, 0x000C4159, 0x800, 0]
    let j0 : Jig := { start := 0x1000C, after := 0x1000C, body := [], k := 0, n := 2, idx := 0, step := 1, wbase := 8, wsize := 24, stride := 0 }
    let j : Jig := { j0 with body := [0x1000C], after := 0x10018 }
    65536 < (0x10001 : Word).toNat ∧ (0x10000 : Word).toNat ≤ 65536 ∧ val (jigBody tk j0 1 0x1000C) s = some ([0x1000C], 0x10018) ∧
    (let add := coded [0, 0, 0, 0xFFF4C510]
     let wide := coded ([0, 0, 0] ++ encode (.cvfb .blk4 .f32 0 .rn false 30 2 3))
     (val (fetchWord tk 0x1000C) add).map bodyOk = some false ∧ stopOf (jigBody tk j0 1 0x1000C) add = some (.flt { cause := .jigBad }) ∧
     (val (fetchWord tk 0x1000C) wide).map bodyOk = some true ∧ (val (fetchInstr tk 0x1000C) wide).map (fun f => secondOver j0 f.i) = some true ∧
     (val (fetchInstr tk 0x1000C) s).map (fun f => secondOver j0 f.i) = some false ∧ bodyOk 0x000C4159 = true ∧
     stopOf (jigBody tk j0 1 0x1000C) wide = some (.flt { cause := .jigBad }) ∧ j.wsize ≤ 32) ∧
    (j.idx < j.n * j.body.length ∧ j.n * j.body.length ≤ { j with idx := 2 }.idx) ∧
    (j.wbase ≤ (31 : Reg).toNat ∧ (31 : Reg).toNat < j.wbase + j.wsize ∧ j.wbase + j.wsize ≤ 32) ∧ (7 : Reg).toNat < j.wbase ∧
    j.reg 1 31 = 8 ∧ j.reg 1 7 = 7 ∧ (on { tk with jig := some j }).task? = some { tk with jig := some j } := by decide +kernel

/-! ## Commit -/

/-- A task that has executed ENDT. -/
def ending (es : List Eff) : Task := { tk with committing := true, sluice := es }

/-- A store to a line of the page. -/
def oneStore (rel : Option Scope) : Eff :=
  .store { va := 0x10000, pa := 0x10000, attr := 0, mapi := 0, lead := 0x2008, dseen := true } false [some 7, none, some 9] rel

/-- A QPUSH that was put by, and what it waits for. -/
def putBy (ids : List Nat) : State := { on tk with
  hostPend := ids.map fun i => { id := i, core := 0, pa := 3 * 2 ^ 48, bytes := [some 1] }
  leaving := [{ id := 8, snd := { core := 0, inst := 1, part := 0, ctx := 0, ct := 1, priv := true, jref := 0, task := {} }, eff := .qpush 0 5,
                wait := ids.map .write }] }

/-- 13 R311: a commit that waits for a line, one that does not, one with a fault that is taken, one that a release makes publish,
and one whose reads no longer validate. -/
theorem witness_Commit :
    let e := oneStore none
    let late : Task := { ending [] with reads := reader.reads }
    let amo : Eff := .amo { va := 0x10000, pa := 0x10000, attr := 1, mapi := 0, lead := 0x2008, dseen := true } .add .i64 1 0 none
      ⟨false, false, .task⟩ 0x10000 0 0x10000
    let b : State := { on (ending [amo]) with bias := [((0, 1), true)] }
    commitWaits { on (ending [e]) with lines := [(0x10000, { hold := .pinned 1 })] } 0 (ending [e]) = true ∧
    commitWaits (on (ending [e])) 0 (ending [e]) = false ∧ commitFault (on (ending [e])) (ending [e]) = none ∧
    (commitFault b (ending [amo])).isSome ∧ (left (takeTrap 0 ((commitFault b (ending [amo])).getD { cause := .priv })) b).isSome ∧
    (oneStore (some .pkg)).relScope = some .pkg ∧ scPublishes .pkg = true ∧ (e.relScope).isNone ∧
    validates { on late with lines := [(0x10000, { wts := 5, rts := 5 })] } late = false ∧
    (nextOf (exec (.commit 0) (on (ending [e])))).map (fun s => (s.task?, mget s.mem 0x10000, mget s.mem 0x10002)) = some (none, 7, 9) ∧
    (kOf (on tk)).task = some tk ∧ tk.committing = false ∧ (putBy []).leaving.length = 1 ∧
    (putBy []).leaving.all (fun x => (putBy []).mayLeave x && x.snd.core == 0) = true ∧
    (putBy [7]).leaving.all (fun x => (putBy [7]).mayLeave x) = false := by
  decide +kernel

/-- 13 R312, 04 R133: a QPUSH and a BARA after a SEND.rel.host leave after it, in order, once the host has acknowledged the write that it
waits for. -/
theorem test_program_order :
    let s := { on (ending [.send (hd 0 0 0 1) [1] 0 (some .host) noJref false 0, .qpush 0 5, .bara 3 1 1]) with
      hostPend := [{ id := 7, core := (on tk).pid 0, pa := 3 * 2 ^ 48, bytes := [some 1] }], ackNext := 8 }
    let c := nextOf (execCommit 0 s)
    let w := c.bind fun s => nextOf (execCommit 0 s)
    let a := (c.bind fun s => nextOf (execHostAcknowledge 7 s)).bind fun s => nextOf (execCommit 0 s)
    w.map (fun s => [s.leaving.length, s.net.length, s.feeds.length, s.ctl.length]) = some [2, 1, 0, 0] ∧
    a.map (fun s => [s.leaving.length, s.net.length, s.feeds.length, s.ctl.length]) = some [0, 1, 1, 1] := by decide +kernel

/-- 13 R310: the commit that the statement speaks of. -/
theorem witness_CommittedStore :
    let t := ending [oneStore none]
    let s := on t
    s.core? 0 = some (kOf s) ∧ (kOf s).task = some t ∧ s.inst? (kOf s).inst = some { id := 1 } ∧ t.pops = [] ∧ Memory.wf s.mem = true ∧
    (tget? (s.part 0).pmap 0).map (·.dt) = some false ∧ s.keys 0x10000 3 = [0x10000] ∧ commitTime s t = 1 := by decide +kernel

/-! ## Events of memory, the lotteries, the host and other packages -/

/-- The placed machine whose next instruction is LD x5, [x6], of a line of its page. -/
def ahead (t : Task) : State := { (State.reset.placed (wordBytes 0x01FCC578)).setTask (t.wx 6 0x10040) with agenda := [] }

/-- 04 R114, R130, 02 R55, 05 R163, R165, 18 R378: a line that the next load asks for, whose request is served or waits; a recorded one;
walks that are needed now and ahead; a pin whose PINMAX has passed, a recall, a window's end, a free way and none, contenders. -/
theorem witness_MemoryEvents :
    let s := on tk
    let ld := ahead tk
    let old : Task := { tk with reads := [{ line := 0x10040, wts := 0, r := some 0, data := 0 }] }
    let home := homeSlice s 0x10000
    let pinned : State := { s with lines := [(0x10000, { hold := .pinned 0, pinnedAt := 0 })], now := 8192 }
    let cmd : Cmd := { id := 1, kind := .copy 0, desc := descLine, inst := 1, phase := .running }
    let full : State := { s with l2 := (List.range 16).map fun w => ((home, s.l2Set 0x10000 0), (w, 0, 0x20000 + 64 * w)) }
    0x10040 % 64 = 0 ∧ tk.committing = false ∧ tk.reads = [] ∧
    (let nl := (tk.wx 6 0x10040).nextLoads 0 ld
     nextAhead nl.2 0 (tk.wx 6 0x10040) ((tk.wx 6 0x10040).leasedBy nl.2 nl.1) 0x10040 = true ∧ (hostAhead nl.2 nl.1).contains 0x10040 = false) ∧
    ({ s with walkers := [(0, 0)] } : State).walkers.contains (0, 0) = true ∧ s.walkers.contains (0, 0) = false ∧
    (val (takeWalker 0 0) s).isSome ∧ (s.lottery 0x08 0 none [0]).isSome ∧
    ([cmd].filter fun c => c.owner { s with cmds := [cmd] } == 0) = [cmd] ∧ (val (readEnt 0x10040 0) ld).isSome ∧
    stopOf (readEnt 0x10040 0) (busyPort 0x10040) = some .queued ∧ (val (refetch old { line := 0x10040, wts := 0, r := some 0, data := 0 } 0) (on old)).isSome ∧
    walkerFree s 0 0 = true ∧ (val (walkEntry (some 0) 0 0 true .load false true 0x10000) s).isSome ∧
    (val (walkEntry (some 0) 0 0 true .fetch false false tk.pc) s).isSome ∧ s.fillsAt home 0x10000 = true ∧
    ((pinned.line 0x10000).hold = .pinned 0 ∧ (pinned.line 0x10000).pinnedAt + Config.pinMax ≤ pinned.now) ∧
    Ctl.recall 0x10000 1 ∈ ({ s with ctl := [.recall 0x10000 1] } : State).ctl ∧ s.grantStart + Config.hotWindow ≤ ({ s with now := 4096 } : State).now ∧
    (s.l2Ways 0).find? (fun _ => true) = some 0 ∧ ((full.l2Ways 0).find? fun w => !(full.l2.any fun e => e.2.1 == w)) = none ∧
    s.l2Ways 0 ≠ [] ∧ mayContend s 0x08 0 0 = true ∧ mayContend s 0x13 0 63 = true ∧ (s.lottery 0x08 0 none [0, 63]).isSome ∧
    ((busyPort 0x10040).portSlot (asks twoOn 1 0x10040).slice).isSome ∧
    ((({ s with cmds := [cmd] } : State).lottery 0x14 0 none [0]).map (·.1)) = some 0 ∧ cmd.ready = true ∧ cmd.owner s = 0 := by decide +kernel

/-- 18 R372, R373: a slot with the head of the weir queue, and one with an empty queue; the loss count that reaches GW. -/
theorem witness_LotteryGrants :
    let l : Lott := { alloc := 3, weir := [5, 1], lc := [(0, 15)], gw := 16 }
    (l.grant false 0 [0, 1]).map (·.1) = some 1 ∧ l.weir.filter [0, 1].contains = [1] ∧
    (({ l with weir := [] } : Lott).grant false 0 [0, 1]).map (·.1) = some 0 ∧
    (l.grant false 0 [0, 1]).map (fun r => (tget r.2.lc 0 0, r.2.weir)) = some (16, [0]) := by decide +kernel

/-- A host-shared address of the package, in either bias. -/
def hostAt : Nat := 3 * 2 ^ 48

/-- A partition whose map reaches a page of host memory, which its table has in host bias. -/
def directOn (pa : Nat) : State :=
  let s := on tk
  let e : PMapEnt := { v := true, rd := true, w := true, x := true, dt := false, gbase := 0, hbase := pa, limit := 65536, dtbase := 0 }
  { s with bias := [((0, pa / 65536), true)], parts := tput s.parts 0 { s.part 0 with pmap := [(1, e)] } }

/-- 02 R70 to R77, 04 R133, R134, 05 R156, 24 R455: every case of the host's and the peers' accesses. -/
theorem witness_HostAndPeers :
    let s := on tk
    let hb := directOn hostAt
    let r : Remote := { core := 0, inst := 1, pkg := 1, ea := 0, rpl := some 5, ty := .i64, ct := 1, who := {}, ack := 0 }
    let flip : State := { s with flips := [((0, 7), 0, 3)], hcmds := [{ fn := 0, seq := 3, words := [5 <<< 56], st := .started }] }
    region s.plat hostAt = .host ∧ hostDirect s hostAt = false ∧ hostDirect hb hostAt = true ∧ s.plat.booted = true ∧
    ({ s.plat with booted := false } : Plat).booted = false ∧ (∀ f, f ∈ s.flips → f.1.2 ≠ 7) ∧ (hostAt + 60) % 64 + 4 ≤ 64 ∧
    s.blocked (s.keys hostAt 64) none = false ∧ (s.keys hostAt 64).any s.poisoned = false ∧
    s.blocked (s.keysM (hostAt + 60) [some 1, some 2, some 3, some 4]) none = false ∧
    peerReach s (2 ^ 48) = true ∧ peerReach s hostAt = false ∧ s.blocked (s.keys (2 ^ 48) 8) none = false ∧
    (s.keys (2 ^ 48) 8).any s.poisoned = false ∧ 2 ^ 48 % Ty.i64.bytes = 0 ∧ 2 ^ 48 % 64 + 64 ≤ 64 ∧
    (let p : State := { s with lines := [(2 ^ 48, { poison := true })] }
     p.blocked (p.keys (2 ^ 48) 8) none = false ∧ (p.keys (2 ^ 48) 8).any p.poisoned = true) ∧
    (({ s with remotes := [r] } : State).remotes[0]?) = some r ∧ r.held = none ∧ r.rpl = some 5 ∧ { r with rpl := none }.rpl = none ∧
    (val (writeRecord 0 0 { kind := 4, cause := 9 } 1) s).isSome ∧ flip.flips.find? (fun f => f.1.2 == 7) = some ((0, 7), 0, 3) ∧
    (flip.hcmds.find? fun c => c.fn == 0 && c.seq == 3).isSome ∧ flip.lines = [] ∧ 8 ≤ 8 ∧ (0 < 7 ∧ 7 < 8) ∧
    ((({ s with hcmds := [{ fn := 0, seq := 3, words := [7 <<< 56], st := .started }] } : State).hcmds.find? fun c =>
      c.opc == 0x07 && c.st == .started).isSome) := by decide +kernel

/-! ## Events of the engines, the network, the selector and the steward -/

/-- A copy of one line between scratchpads, which pushes into culvert 0 and completes on channel 5. -/
def pushDesc : VReg := descLine + (1 <<< 448) + (1 <<< 450) + (1 <<< 470) + (5 <<< 464) + (1 <<< 471)
/-- Its command. -/
def pushCmd : Cmd := { id := 1, kind := .copy 0, desc := pushDesc, inst := 1 }

/-- 06 R180 to R188, 11 R284: a command that may start, one that reserves, feeds, completes with and without a push; a filled slot; a
bench with and without a run. -/
theorem witness_EngineEvents :
    let s : State := { spadOn tk with cmds := [pushCmd] }
    let k := kOf s
    let ran : Cmd := { pushCmd with phase := .running }
    let feedCmd : Cmd := { id := 2, kind := .copy 1, desc := descGather + (3 <<< 192), inst := 1, phase := .running, feed := [] }
    let f : State := { s with cmds := [feedCmd], feeds := [((0, 1), [7])] }
    let ended : Cmd := { pushCmd with phase := .payloadDone }
    let m : MxCmd := { kind := .bfree, inst := 1 }
    let run : MxRun := { cmd := m, last := 1 }
    let full : MxRun := { run with done := true, buf := [{ core := 0, off := 256, bytes := List.replicate 8 (some 0) }] }
    (s.cmd? 1).isSome ∧ canStart s pushCmd = true ∧ ran.culv s = (0, 0) ∧ routeOf s k = .direct ∧ ran.cv = true ∧ ran.slot = none ∧
    ((k.culvert 0).free ≠ 0 ∧ (k.culvert 0).depth ≠ 0) ∧ feedCmd.drawsFrom = some 1 ∧ canFeed f feedCmd = true ∧
    releaseWaits s ended = false ∧ creditWaits s ended = false ∧ (val (stampCmd ended) s).map (·.cv) = some true ∧
    (val (stampCmd { ended with desc := descLine }) s).map (·.cv) = some false ∧
    (({ k.culvert 0 with rsv := 1 } : Culvert).rsv ≠ 0) ∧ tget? s.mxrun 0 = none ∧
    ((mxHeads { s with mxq := [m] } 0).map (·.1)) = [0] ∧ (s.lottery 0x30 0 (some 0) [0]).map (·.1) = some 0 ∧
    tget? ({ s with mxrun := [(0, run)] } : State).mxrun 0 = some run ∧ run.cause = 0 ∧ { run with cause := 44 }.cause ≠ 0 ∧
    (val (writeRecord 0 0 { kind := 3, cause := 44 } 1) s).isSome ∧ run.buf = [] ∧ run.words run.row = [] ∧ run.done = false ∧ full.done = true ∧
    full.buf ≠ [] ∧ (∀ w, w ∈ full.buf → (s.core? w.core).map (routeOf s) = some .direct) ∧ mxHeads s 0 = [] ∧
    peerReach s 0x10000 = true ∧ s.blocked (s.keys 0x10000 8) none = false ∧ (s.keys 0x10000 8).any s.poisoned = false ∧
    ({ msg := {}, st := .resend 5 } : Flight).st = .resend 5 ∧ 5 ≤ ({ s with now := 5 } : State).now := by decide +kernel

/-- 14 R325: a message that lands, and each answer of the table; a held message and a delayed one. -/
theorem witness_MessageEvents :
    let s := on tk
    let k := kOf s
    let m : Msg := { hdr := 0, inst := 1 }
    let f : Flight := { msg := m, src := some 0, inst := 1, lid := 0 }
    let n : State := { s with net := [f] }
    let full : Core := { k with chans := [(0, { ent := 1 + (1 <<< 227), box := [m] })] }
    canLand n 0 = true ∧ f.abroad s = false ∧ s.coreOf 1 0 = some 0 ∧ s.instCtx k.inst = s.instCtx f.inst ∧
    (s.ctx? 0 0).map (fun y => (y.gone, y.div)) = some (false, .closed) ∧ routeOf s k = .direct ∧
    judge k false { m with hdr := 5, kind := .release 0 } = .wait ∧ hdrCls (hd 3 0 0 0) < 4 ∧ 4 ≤ hdrCls (hd 4 0 0 0) ∧
    (s.insts.find? fun n => (n.group.map (·.1)) == some 9) = none ∧ judge (k.released m) false m = .accept ∧
    judge { k with clmask := 1 } false m = .wait ∧ judge k false { m with hdr := 5 } = .refuse 3 ∧
    judge k false { m with hdr := 1 <<< 34 } = .refuse 2 ∧ judge full false m = .refuse 1 ∧ judge full true m = .wait ∧
    judge full false { m with kind := .continuation } = .wait ∧
    (let four : Core := { full with chans := [(0, { ent := 1 + (1 <<< 227), box := [m] })] }
     judge four true { m with hdr := hd 4 0 0 0 } = .wait ∧ judge four false { m with hdr := hd 4 0 0 0 } = .refuse 1) ∧
    tget? ({ s with endedGroups := [(9, (0, 0))] } : State).endedGroups 9 = some (0, 0) ∧
    (({ s with insts := [{ id := 1, group := some (9, 2, 0, 0, 2) }] } : State).insts.find? fun n => (n.group.map (·.1)) == some 9).isSome ∧
    heldReady k false [m] = some 0 ∧ heldBefore k false m = false ∧ heldBefore { k with heldq := [m] } false m = true ∧
    peerWaits s { f with src := none } = false ∧ peerWaits (withK s fun k => { k with clmask := 1 }) { f with src := none } = true ∧
    ((({ s with net := [{ f with st := .delayed 5 }], now := 5 } : State).net.zipIdx).filter fun p => p.1.src == some 0 &&
      (match p.1.st with | .delayed _ => true | _ => false)).length = 1 := by decide +kernel

/-- An idle core with a message at the head of channel 0. -/
def idleOn (e : BitVec 256) : State := withK (on tk) fun k => { k with task := none, chans := [(0, { ent := e, box := [placedMsg 1] })] }

/-- Two cores of a bench, whose first channel 1 may steal from the second. -/
def thieves : State :=
  let e : BitVec 256 := 1 + (1 <<< 4) + (8 <<< 227)
  let c : Core := { inst := 1, chans := [(0, { ent := e })] }
  { on tk with
    insts := [{ id := 1, nvc := 2 }]
    cores := [(0, c), (1, { c with lid := 1, phys := 1, chans := [(0, { ent := e, box := [{ inst := 1 }, { inst := 1 }] })] })] }

/-- 14 R332, R333, 10 R266, 16 R355: a core that selects, alone and for a clamp; a group that forms; a budget that ends; a steal. -/
theorem witness_SelectionEvents :
    let s := idleOn (1 + (8 <<< 227))
    let k := kOf s
    let par : State := { s with
      insts := [{ id := 1, nvc := 2, prog := 1 }]
      cores := [(0, { k with grp := some 7 }), (1, { inst := 1, lid := 1, phys := 1, grp := some 7 })] }
    let bad := withK s fun k => k.setSb (k.msgOff 0 0) { k.sbLine (k.msgOff 0 0) with poison := true }
    let u := withK (idleOn (1 + (1 <<< 6) + (8 <<< 227))) fun k => { k with clampReq := some 0, clampHeld := true }
    let two : State := { u with cores := u.cores ++ [(1, { inst := 1, lid := 1, phys := 1 })] }
    let spent : Task := { tk with tcyc := 65536 }
    idle s 0 = true ∧ k.clampReq = none ∧ groupHolds s 0 = false ∧ serial s 0 = false ∧ (parGroup s 0 k).map (·.1) = [0] ∧ k.out = false ∧
    topChannels (s.prune 0) 0 (kOf (s.prune 0)) = [0] ∧ topChannels s 0 k = [0] ∧ canSeat s (seatsFor s 0 k [0]) = true ∧
    idle par 0 = true ∧ seatsFor par 0 (kOf par) [0] = [0, 1] ∧ canSeat par (seatsFor par 0 (kOf par) [0]) = true ∧
    topChannels ((par.seatAll [0, 1]).prune 0) 0 (kOf ((par.seatAll [0, 1]).prune 0)) = [0] ∧
    k.headPoison 0 = false ∧ (kOf bad).headPoison 0 = true ∧ (left (takeTrap 0 { cause := .dataErr }) (bad.beginTask 0 0 [0] 0)).isSome ∧
    canSeat thieves (seatsFor thieves 0 (kOf thieves) [0]) = true ∧ entClamp ((kOf (s.prune 0)).chan 0).ent = 1 ∧
    entClamp (1 + (1 <<< 6)) = 2 ∧ clampGroup two 0 2 = some [0, 1] ∧ runnable two 0 (kOf two) 0 = true ∧
    canSeat two (seatsFor two 0 (kOf two) [0, 1]) = true ∧ (kOf thieves).clmask.getLsbD 0 = false ∧
    (let m := withK thieves fun k => { k with clmask := 1 }
     (kOf m).clmask.getLsbD 0 = true ∧ (nextOf (exec (.steal 0 0) m)).map (fun s => (s.core? 0).map fun k => (k.chan 0).box.length) =
      some (some 0)) ∧
    (idle two 0 = true ∧ idle two 1 = true) ∧ serial two 0 = false ∧ spent.jigIssue = spent ∧ spent.tbudget ≤ spent.tcyc ∧
    (left (takeTrap 0 { cause := .budget, detail := 65536 }) (on spent)).isSome ∧
    (entV ((kOf thieves).chan 0).ent = true ∧ entSteal ((kOf thieves).chan 0).ent = true ∧
      ((kOf thieves).chan 0).box.length < entMbd ((kOf thieves).chan 0).ent) ∧
    (∀ j, j < 64 → runnable thieves 0 (kOf thieves) j = false) ∧ ((thieves.core? 1).bind victimChan) = some 0 ∧
    (thieves.core? 1).map (fun x => (x.chan 0).box.getLast?.isSome) = some true ∧
    (nextOf (exec (.steal 0 0) thieves)).map (fun s => (((s.core? 0).map fun k => (k.chan 0).box.length), ((s.core? 1).map fun k => (k.chan 0).box.length))) =
      some (some 1, some 1) := by decide +kernel

/-! ## Joins, barriers, launches and instances -/

/-- A handler entry of a launch: valid, to nearest, a mailbox of 8. -/
def launchEnt : BitVec 256 := 1 + (1 <<< 12) + (8 <<< 227)

/-- A launch record for one core with one initial message, at 0x18000 of the page, and its tables: handlers 0 and 63, one QUEUE
region, no culverts. -/
def submission : State :=
  let rec' : BitVec 1024 := (1 <<< 56) + (0x19000 <<< 128) + (0x1A000 <<< 192) + (0x1A100 <<< 256) + (0x1A200 <<< 320) + (1 <<< 480)
  let put (m : List Host.Cell) (a n v : Nat) : List Host.Cell := mwrite m a (natBytes n v)
  let s := on tk
  let tabs := put (put (put s.mem 0x18000 128 rec'.toNat) 0x19000 32 launchEnt.toNat) 0x197E0 32 launchEnt.toNat
  { s with mem := put tabs 0x1A000 8 (0x300 + (16 <<< 16) + (64 <<< 32)) }

/-- Its tables, or the cause of a rejection. -/
def subTables (va : Nat) : Except Nat Tables := (val (readTables va 0 0 0).run submission).getD (.error 0)

/-- 16 R344: the record passes every check; at a misaligned address it is rejected with cause 1, on page 0 with 2. -/
theorem witness_submission : ((subTables 0x18000).toOption.map (launchCause submission 0)) = some 0 ∧
    subTables 0x18040 = .error 1 ∧ subTables 0 = .error 2 := by decide +kernel

/-- Who asks in the next witness. -/
def hostAsk : Origin := .host 0 0

/-- A core with a join of two children, one of them back. -/
def joining : State := withK (spadOn tk) fun k => { k with
  joins := [{ handle := 5, slots := 256, n := 2, ch := 1, stamp := 0, full := [], lin := {} },
            { handle := 6, slots := 272, n := 2, ch := 1, stamp := 0, full := [1], lin := {} }] }

/-- 16 R346, R354, R360, 20 R392: one item of each kind, a join with one child to come and with two, a member of a group, a submission of
the host and of a task, an instance that is quiescent in every mode. -/
theorem witness_ControlEvents :
    let s := joining
    let k := kOf s
    let grouped : State := { s with insts := [{ id := 1, group := some (9, 2, 0, 0, 2) }] }
    let ctl (c : Ctl) : State := { s with ctl := [c] }
    let n : Inst := { id := 1, ctx := 0 }
    let done (n : Inst) : State := withK { on tk with insts := [n] } fun k => { k with task := none, chans := [] }
    let kept : Inst := { n with det := true, digrec := 0x18000 }
    let who : Issuer := {}
    ((ctl (.join 1 0 5 7 0 {} 0 0 0 0 0 0)).ctl[0]?.isSome) ∧ s.coreOf 1 (fld (5 : Word) 43 32) = some 0 ∧ routeOf s k = .direct ∧
    (k.joins.find? fun j => j.handle == (6 : Word) &&& BitVec.ofNat 64 (2 ^ 44 - 1)).map (fun j => (j.n, j.full)) = some (2, [1]) ∧
    (k.joins.find? fun j => j.handle == (5 : Word) &&& BitVec.ofNat 64 (2 ^ 44 - 1)).map (fun j => (j.n, j.full)) = some (2, []) ∧
    fld (5 : Word) 55 48 = 0 ∧ (left (joinArrive 0 5 7 0 who) s).isSome ∧ (left (endWith kept 0 1) (done kept)).isSome ∧
    (val (writeRecord 0 0 { kind := 6, cause := Cause.digestMismatch.code, detail := 0, va := 1 } 0) (done kept)).isSome ∧
    launchDigest kept.digests ≠ 1 ∧ (left (beginRerun kept 0) (done kept)).isSome ∧ ((ctl (.arrive 1 0 0 false 0 0 {})).ctl.take 0 = []) ∧
    (grouped.insts.find? fun n => (n.group.map (·.1)) == some 9).isSome ∧ ((ctl (.offer 1 0 true 3 4)).ctl[0]?.isSome) ∧
    ((ctl (.update 1 0 true 3 4)).ctl[0]?.isSome) ∧
    (({ s with subs := [(BitVec.ofNat 64 0x18000, 0, 0, hostAsk, 0)] } : State).subs[0]?.isSome) ∧ 0x18000 < 2 ^ 64 ∧
    launchCtx s 0 0 = 0 ∧ launchCtx s 0 7 = Cause.badCtx.code ∧ stowWaits s 0 0 = false ∧ stowWaits (done n) 0 0 = false ∧
    s.goneInst 1 = false ∧ instWaits s 1 = false ∧ s.barWaits 1 = false ∧ quiescent (done n) n = true ∧ n.det = false ∧ launchDigest { n with det := true }.digests = 0 ∧
    quiescent (done { n with det := true }) { n with det := true } = true ∧
    quiescent (done { n with det := true, dmode := true, expect := 0 }) { n with det := true, dmode := true, expect := 0 } = true ∧
    quiescent (done { n with det := true, dmode := true, rerun := some 1 }) { n with det := true, dmode := true, rerun := some 1 } = true := by
  decide +kernel

/-- 20 R390: an incumbent with no offer, and one of the sense of the offers. -/
theorem witness_IncumbentOrder : ({} : Incumb).ne = false ∧ ({ ne := true, sense := true, value := 1 } : Incumb).sense = true := by decide

/-! ## Suspension, the host's commands and the configuration -/

/-- A context with a pending core between tasks, alone or with another core that still runs; a context whose rows are saved or loaded,
its only row or one of two; a diverted context; a hang; a fetch from page 0. -/
theorem witness_SuspensionEvents :
    let s := withK (on tk) fun k => { k with task := none, pending := true }
    let two : State := { s with insts := [{ id := 1, nvc := 2 }], cores := s.cores ++ [(1, { inst := 1, lid := 1, phys := 64 })] }
    let gone (s : State) (c : Nat) : State := (s.publishAll c).onCore c fun k => { k with resident := false }
    let ctxIs (s : State) (d : DivSt) : State := s.onCtx 0 0 fun x => { x with div := d }
    let f : Flight := { msg := { inst := 1 }, src := none, inst := 1, lid := 0 }
    let hung : State := { withK (on tk) fun k => { k with task := none, chans := [(0, { ent := launchEnt, box := [placedMsg 1] })] } with now := 20000000 }
    let lost : Task := { tk with pc := 0x40, npc := 0x40 }
    ((kOf s).pending = true ∧ (kOf s).resident = true ∧ (kOf s).task = none ∧ followerOf s 0 = false) ∧
    ((ctxCores (gone s 0) 0 0).all fun p => !p.2.resident) = true ∧ ((ctxCores (gone two 0) 0 0).all fun p => !p.2.resident) = false ∧
    ((ctxIs s .saving).ctx? 0 0).map (fun x => (x.div, x.loaded, nested s x)) = some (.saving, [], false) ∧ s.mxrun = [] ∧
    (s.retryHalt 0).core? 0 = some (kOf s) ∧
    (let r := (ctxIs s .merging).restoreSlots 0 0
     (r.ctx? 0 0).map (fun x => (nested r x, ((x.img).getD {}).slots, recordPoisoned r x (kOf r))) = some (false, [], false)) ∧
    (((ctxIs s .saving).ctx? 0 0).map fun x => (imgWaits (ctxIs s .saving) x, suspendReady (ctxIs s .saving) x)) = some (false, false) ∧
    (let r := (ctxIs s .saving).onCtx 0 0 fun x => { x with loaded := [0] }
     (r.ctx? 0 0).map (fun x => (imgWaits r x, suspendReady r x)) = some (false, true)) ∧
    lost.jigIssue = lost ∧ ((ctxIs s .merging).ctx? 0 0).map (fun x => x.div) = some .merging ∧ ctxRows s 0 0 = [0] ∧ ctxRows two 0 0 = [0, 1] ∧
    ({ ctxIs s .diverted with net := [f] } : State).net[0]? = some f ∧ (ctxIs s .diverted).coreOf 1 0 = some 0 ∧
    routeOf (ctxIs s .diverted) (kOf s) = .image ∧
    (hung.ctx? 0 0).map (fun x => (x.div, decide (x.lastCommit + (hung.part 0).hangt ≤ hung.now))) = some (.closed, true) ∧
    runnable hung 0 (kOf hung) 0 = true ∧ lost.committing = false ∧
    (stopOf (fetchWord lost 0x40) (on lost)).map (fun x => match x with | .flt _ => true | _ => false) = some true := by decide +kernel

/-- A machine with one accepted command of the host, with its ADDR and argument words. -/
def asked (opc : Nat) (addr : Word) (args : List Word) : State :=
  { on tk with hcmds := [{ fn := 0, seq := 0, words := [BitVec.ofNat 64 (opc * 2 ^ 56), 0, 0, 0, addr] ++ args }] }

/-- 24 Table 24.5: every command may start, and what each clause asks of the rest holds of some state. -/
theorem witness_HostCommands :
    let ok (s : State) (opc : Nat) : Prop := (startable s 0 0 opc).isSome = true
    let no (s : State) : State := { s with ctxs := [], insts := [] }
    let ctxIs (s : State) (d : DivSt) : State := s.onCtx 0 0 fun x => { x with div := d }
    let cm (s : State) : HCmd := s.hcmds.headD { fn := 0, seq := 0, words := [] }
    let b := asked 5 0x10000 [1]
    let ck := asked 7 (2 * 2 ^ 48) [0x100000000]
    let gp := asked 12 1 [9, 2, 0]
    let far : PMapEnt := { v := true, rd := true, w := true, x := true, dt := false, gbase := 0, hbase := 0, limit := 0x40000000, dtbase := 0 }
    (∀ opc, opc ∈ [1, 2, 3, 4, 5, 6, 7, 8, 9, 10, 11, 12] → ok (asked opc 0 []) opc) ∧
    stowWaits (asked 2 0 []) 0 0 = false ∧
    stowWaits { withK (asked 2 0 []) fun k => { k with stored := true } with lines := [(0, { hold := .locked 1 })] } 0 0 = true ∧ ok (no (asked 1 0 [])) 1 ∧ (no (asked 1 0 [])).ctx? 0 0 = none ∧ ok (ctxIs (asked 1 0 []) .saving) 1 ∧
    (guestRead (asked 4 0x18000 []) 0 0x18000 128).toOption.map (fun bs => fld (BitVec.ofNat 1024 (leNat bs)) 2 0) = some 0 ∧
    guestHeld (asked 4 0x18000 []) 0 0x18000 128 = false ∧
    (rangeHeld ck (2 * 2 ^ 48) 0x40010000 = false ∧ rangeHeld ck 0 0x40000000 = false) ∧
    mapMatch b 0 0x10000 = some (0, far) ∧ tget b.bias (0, 1) false = false ∧ (cm b).arg 0 = 1 ∧ (cm (asked 5 0x10000 [])).arg 0 = 0 ∧
    mapMatch b 0 0x40000000 = none ∧
    (ctxIs ck .diverted).ctxs.map (fun x => x.div) = [.diverted] ∧ ck.ctxs.map (fun x => x.div) = [.closed] ∧
    (ckptRanges ck 0).map (·.2) = [0x40000000] ∧ rangeCause ck (2 * 2 ^ 48) 0x40010000 = none ∧ rangeCause ck (3 * 2 ^ 48) 0x40010000 = none ∧
    rangeCause ck 0 0x40000000 = none ∧ rangeCause { ck with plat := { ck.plat with memNear := 1 } } 0 0x40000000 ≠ none ∧
    ok (no (asked 9 0 [])) 9 ∧ ((asked 10 0 []).ctx? 0 0).map (fun x => x.div) = some .closed ∧ ({ asked 10 0 [] with insts := [] } : State).insts = [] ∧
    (gp.insts.find? fun n => n.id == (cm gp).addr.toNat && n.part == 0 && n.ctx == 0) = some { id := 1 } ∧
    ({ gp with flips := [((0, 7), 0, 0)] } : State).flips.find? (fun f => f.1.2 == 7) = some ((0, 7), 0, 0) ∧ gp.lines = [] ∧
    ({ gp with hcmds := [{ cm ck with st := .started }] } : State).hcmds.any (fun c => c.opc == 7 && c.st == .started) = true ∧
    region gp.plat hostAt = .host ∧ hostDirect (directOn hostAt) hostAt = true ∧ hostAt % 64 + 64 ≤ 64 ∧
    ((cm gp).arg 0 = 9 ∧ (cm gp).arg 1 = 2 ∧ (cm gp).arg 2 = 0) ∧
    ({ gp with hcmds := [{ cm gp with st := .started }] } : State).hcmds.map (fun c => (c.opc, decide (c.st = .started))) = [(12, true)] := by
  decide +kernel

/-- 24 R446 to R460, 02 R60, 03 R105, 18 R374: values inside each register's limits and outside. -/
theorem witness_Configuration :
    let e : PMapEnt := { v := true, rd := true, w := true, x := true, dt := false, gbase := 0, hbase := 0x10000, limit := 0x20000, dtbase := 0 }
    let win : Window := { v := true, dbase := 0x10000, dlimit := 0x10000, sbase := 0x40000, layout := 0 }
    (4 ≤ (4 : BitVec 7).toNat ∧ (64 : BitVec 7).toNat ≤ 64 ∧ (3 : BitVec 7).toNat < 4 ∧ 64 < (65 : BitVec 7).toNat) ∧
    pmapOk (pmapTrim e) = true ∧ e.limit % 65536 = 0 ∧ pmapOk (pmapTrim { e with gbase := 2 ^ 48 }) = false ∧
    (tget (on tk).windows (1, 15) { v := false, dbase := 0, dlimit := 0, sbase := 0, layout := 0 }).v = false ∧
    winOk (on tk) 0 0 win = true ∧ tget (on tk).windows (0, 0) { v := false, dbase := 0, dlimit := 0, sbase := 0, layout := 0 } ≠ win ∧
    ({ on tk with plat := { (on tk).plat with booted := false } } : State).plat.booted = false ∧ (0x30 : Nat) ≠ 0x8000030 ∧
    (let o : State := { on tk with windows := [((0, 0), win)] }
     tget o.windows (0, 0) { v := false, dbase := 0, dlimit := 0, sbase := 0, layout := 0 } = win) ∧ ((on tk).ctx? 0 0).map (fun x => (on tk).ctxFree x) = some false ∧
    rangesMeet 0x10040 64 win.dbase win.dlimit = true ∧ (on tk).lines = [] ∧
    ((on tk).ctx? 0 0).isSome ∧ (on tk).ctx? 63 7 = none ∧ winOk (on tk) 0 0 { win with layout := 2 } = false ∧ (on tk).plat.booted = true ∧
    (1200 ≤ 2400 ∧ 2400 % 100 = 0 ∧ 1199 < 1200) ∧ (on tk).plat.hot = false ∧ 16 = 16 + (1 - 1) := by decide +kernel

/-! ## Every step -/

/-- A well-formed instruction with an encoding, and an event, which has none. -/
theorem witness_RoundTrip : (Instr.addi 5 6 (-3)).wf = true ∧ encode (.addi 5 6 (-3)) ≠ [] ∧ encode (.hang 0 0) = [] := by decide

/-- Log 1: a state in the form, with a next one. -/
theorem witness_StepKeepsMemoryForm :
    let s := State.reset.withFetchWord 32 0xFFF4C510
    (Memory.wf s.mem && (s.cores.all fun p => Memory.wf p.2.spad) && (s.insts.all fun n => n.start.all fun p => Memory.wf p.2.spad)) = true ∧
    (nextOf (step s)).isSome = true := by decide +kernel

/-- 13 R312, 21 R415, R416: what the stream of an image says of commands, feeds, messages and effects that have still to leave is read back
as it was. -/
theorem test_stream :
    let out : Names := { core := (· + 1), inst := (· + 1) }
    let back : Names := { core := (· - 1), inst := (· - 1) }
    let snd : Sender := { core := 0, inst := 1, part := 0, ctx := 0, ct := 9, priv := true, jref := 3, task := { pc := 5, path := 6, lid := 8, q := 1 } }
    let p : Packed := {
      cmds := [{ pushCmd with tag := 5, feed := [1, 2], phase := .parked 77, unit := 3 }]
      feeds := [((0, 2), [9, 8])], pushes := [((0, 1, 2), (5, 6, 7, {}))]
      leaving := [.jret 1 2 3, .barinit 1 2 3 4 5, .halt 1 2 3 4].map fun e => { id := 0, snd, eff := e, wait := [] }
      holds := [(0, { msg := placedMsg 1, prod := (1, 4), inst := 1, lid := 2 })]
      queues := [{ msg := placedMsg 1, src := some 0, inst := 1, lid := 3, st := .delayed 14 }] }
    let q := (Id.run ((rdPacked back 10 1 0 0 fun _ => (0, 0)).run (p.words out 10))).1
    (q.cmds.map fun c => (c.tag, c.feed, c.phase, c.unit)) = [(5, [1, 2], .parked 77, 3)] ∧ q.feeds = p.feeds ∧ q.pushes = p.pushes ∧
    q.leaving = p.leaving ∧ q.holds = p.holds ∧ q.queues = p.queues := by decide +kernel

end Sys2Proof.Tests
end

section
/-! PROOF. Every well-formed instruction decodes from its own words (01 R13 to R33). A row of an encoding table says which fields it
uses and what it builds of them; the encoder lays down exactly those, so one lemma per shape of row settles its instructions. -/

namespace Sys2Proof
open Row

/-! ## Words in memory -/

/-- A decoding that succeeds hands its result on. -/
@[simp] theorem except_ok_bind {α β : Type} (a : α) (f : α → Except Reject β) : (Except.ok a >>= f) = f a := rfl

/-- A word stored little-endian is taken back whole (01 R12). -/
theorem takeWord_wordBytes (w : IWord) (rest : List Byte) : takeWord (wordBytes w ++ rest) = some (w, rest) := by
  have h : leWord (w.extractLsb' 0 8) (w.extractLsb' 8 8) (w.extractLsb' 16 8) (w.extractLsb' 24 8) = w := by
    unfold leWord
    rw [BitVec.extractLsb'_append_extractLsb'_eq_extractLsb' (by decide), BitVec.extractLsb'_append_extractLsb'_eq_extractLsb' (by decide),
      BitVec.extractLsb'_append_extractLsb'_eq_extractLsb' (by decide)]
    exact BitVec.extractLsb'_eq_self
  simp [wordBytes, takeWord, h]

/-- The words read as the instruction, whatever follows them. -/
def Reads (ws : List IWord) (i : Instr) : Prop := ∀ rest : List Byte, decode (ws.flatMap wordBytes ++ rest) = .ok (i, rest)

theorem reads_one {w : IWord} {i : Instr} (hp : plan w = .ok 1) (hd : decodeWords w 0 0 = .ok i) : Reads [w] i := by
  intro rest
  simp only [List.flatMap_cons, List.flatMap_nil, List.append_nil, decode, takeWord_wordBytes, hp, hd, if_true, bind, Except.bind, pure,
    Except.pure]

theorem reads_three {w x y : IWord} {i : Instr} (hp : plan w = .ok 3) (hd : decodeWords w x y = .ok i) : Reads [w, x, y] i := by
  intro rest
  simp [decode, takeWord_wordBytes, hp, hd, bind, Except.bind, pure, Except.pure]

/-- The bytes of one word are an instruction only where its base word asks for no other. -/
theorem plan_of_decode_one {w : IWord} {i : Instr} (h : decode (wordBytes w) = .ok (i, [])) :
    plan w = .ok 1 ∧ decodeWords w 0 0 = .ok i := by
  have ht : takeWord (wordBytes w) = some (w, []) := by simpa using takeWord_wordBytes w []
  have he : takeWord [] = none := rfl
  simp only [decode, ht, he] at h
  cases hp : plan w with
  | error e => rw [hp] at h; cases h
  | ok n =>
    rw [hp, except_ok_bind] at h
    split at h
    · next hn =>
      subst hn
      cases hd : decodeWords w 0 0 with
      | error e => rw [hd] at h; cases h
      | ok j =>
        rw [hd] at h
        cases h
        exact ⟨rfl, rfl⟩
    · cases h

theorem decodeWords_of_decode_three {w x y : IWord} {i : Instr} (hp : plan w = .ok 3)
    (h : decode (wordBytes w ++ wordBytes x ++ wordBytes y) = .ok (i, [])) : decodeWords w x y = .ok i := by
  have hy : takeWord (wordBytes y) = some (y, []) := by simpa using takeWord_wordBytes y []
  simp only [List.append_assoc, decode, takeWord_wordBytes, hp, hy, except_ok_bind, if_neg (by decide : ¬ 3 = 1)] at h
  cases hd : decodeWords w x y with
  | error e => rw [hd] at h; cases h
  | ok j =>
    rw [hd] at h
    cases h
    rfl
/-! ## The words of format A -/

/-- The fields that the encoder lays down. -/
def Enc.fields (e : Enc) : Fields where
  fn := e.fn
  d := e.d
  a := e.a
  b := e.b
  c := e.c
  e := e.e
  ty := e.ty
  scope := e.scope
  acq := e.acq
  rel := e.rel
  fzi := e.fzi
  fzo := e.fzo
  rm := e.rm
  mask := e.mask
  var := e.var
  imm := e.imm

/-- The base word and extension word 1 with their widths written as the sums of their fields' (01 Tables 1.2 and 1.6), as the
laws of `++` read them. -/
theorem Enc.base_eq (e : Enc) (len : BitVec 2) :
    e.base len = (e.fn ++ e.b ++ e.a ++ e.d ++ e.op ++ len).cast (by decide : 9 + 5 + 5 + 5 + 6 + 2 = 32) := rfl
theorem Enc.ext_eq (e : Enc) :
    e.ext = (e.var ++ e.mask ++ e.rm ++ BitVec.ofBool e.fzo ++ BitVec.ofBool e.fzi ++ BitVec.ofBool e.rel ++ BitVec.ofBool e.acq ++
      e.scope ++ e.ty ++ e.e ++ e.c).cast (by decide : 3 + 3 + 3 + 1 + 1 + 1 + 1 + 4 + 5 + 5 + 5 = 32) := rfl

theorem Fields.of_base_ext (e : Enc) (len : BitVec 2) : Fields.of (e.base len) e.ext e.imm = e.fields := by
  simp only [Fields.of, Enc.fields, Enc.base_eq, Enc.ext_eq, BitVec.extractLsb'_cast, BitVec.extractLsb'_append_eq_of_le,
    BitVec.extractLsb'_append_eq_of_add_le, BitVec.getLsbD_cast, BitVec.getLsbD_append, Nat.reduceLeDiff, Nat.reduceSub]
  simp

@[simp] theorem opOf_base (e : Enc) (len : BitVec 2) : opOf (e.base len) = e.op.toNat := by
  simp only [opOf, Enc.base_eq, BitVec.extractLsb'_cast, BitVec.extractLsb'_append_eq_of_le, BitVec.extractLsb'_append_eq_of_add_le,
    Nat.reduceLeDiff, Nat.reduceSub]
  simp
@[simp] theorem fnOf_base (e : Enc) (len : BitVec 2) : fnOf (e.base len) = e.fn.toNat := by
  simp only [fnOf, Enc.base_eq, BitVec.extractLsb'_cast, BitVec.extractLsb'_append_eq_of_le, Nat.reduceLeDiff, Nat.reduceSub]
  simp
@[simp] theorem lenOf_base (e : Enc) (len : BitVec 2) : lenOf (e.base len) = len.toNat := by
  simp only [lenOf, Enc.base_eq, BitVec.extractLsb'_cast, BitVec.extractLsb'_append_eq_of_add_le, Nat.reduceLeDiff]
  simp

/-- An opcode with an encoding table is none of the permanently illegal ones and none of formats I, J and L (01 Table 1.12). -/
theorem tableA_op {op fn : Nat} {x : Option Row} (h : tableA op fn = some x) :
    ¬ (op = 0x00 ∨ op = 0x3E ∨ op = 0x3F) ∧ ¬ (0x04 ≤ op ∧ op ≤ 0x09) ∧ ¬ (0x0A ≤ op ∧ op ≤ 0x0F) ∧
      ¬ (op = 0x10 ∨ op = 0x11) := by
  have none_of (n : Nat) (hn : tableA n fn = none) : op ≠ n := by
    rintro rfl
    simp [hn] at h
  have h0 := none_of 0x00 rfl
  have h3E := none_of 0x3E rfl
  have h3F := none_of 0x3F rfl
  have hm : ∀ n, 0x04 ≤ n → n ≤ 0x11 → op ≠ n := by
    intro n hn hn'
    interval_cases n <;> exact none_of _ rfl
  have : ¬ (0x04 ≤ op ∧ op ≤ 0x11) := fun ⟨hl, hu⟩ => hm op hl hu rfl
  omega

theorem plan_of_row {w : IWord} {r : Row} (ht : tableA (opOf w) (fnOf w) = some (some r)) (hl : lenOf w ∈ r.lens) :
    plan w = .ok (lenWords (lenOf w)) := by
  obtain ⟨hi, hI, hJ, hL⟩ := tableA_op ht
  simp [plan, hi, hI, hJ, hL, ht, hl]

theorem decodeWords_of_row {w x y : IWord} {f : Fields} {r : Row} {i : Instr} (ht : tableA (opOf w) (fnOf w) = some (some r))
    (hf : (if lenOf w = 0 then Fields.of w 0 0 else Fields.of w x y) = f) (hu : f.onlyUses r.used = true) (hb : r.build f = .ok i)
    (hw : i.wf = true) : decodeWords w x y = .ok i := by
  obtain ⟨hi, -⟩ := tableA_op ht
  simp only [decodeWords, if_neg hi, ht, hf, hu, hb, hw, if_true, bind, Except.bind]

/-- The LEN that the encoder chooses (01 R44). -/
def Enc.len (e : Enc) : Nat := if e.short && e.ext == 0 && e.imm == 0 then 0 else 1

theorem Enc.len_mem (e : Enc) : e.len ∈ [0, 1] := by
  unfold Enc.len
  split <;> simp
theorem Enc.len_long {e : Enc} (h : e.short = false) : e.len ∈ [1] := by simp [Enc.len, h]
theorem Enc.len_short {e : Enc} (hs : e.short = true) (hx : e.ext = 0) (hi : e.imm = 0) : e.len ∈ [0] := by
  simp [Enc.len, hs, hx, hi]

/-- The words of format A read as what the row of their FN builds of their fields. -/
theorem reads_words {e : Enc} {r : Row} {i : Instr} (ht : tableA e.op.toNat e.fn.toNat = some (some r)) (hl : e.len ∈ r.lens)
    (hu : e.fields.onlyUses r.used = true) (hb : r.build e.fields = .ok i) (hw : i.wf = true) : Reads e.words i := by
  unfold Enc.words
  split
  · next h =>
    have hlen : e.len = 0 := by simp only [Enc.len, if_pos h]
    have hf : Fields.of (e.base 0) 0 0 = e.fields := by
      simp only [Bool.and_eq_true, beq_iff_eq] at h
      obtain ⟨⟨-, hx⟩, him⟩ := h
      rw [← Fields.of_base_ext e 0, hx, him]
    refine reads_one ?_ ?_
    · rw [plan_of_row (r := r) (by simpa using ht) (by simpa [hlen] using hl)]
      simp [lenWords]
    · exact decodeWords_of_row (by simpa using ht) (by simp only [hf, ite_self]) hu hb hw
  · next h =>
    have hlen : e.len = 1 := by simp only [Enc.len, if_neg h]
    refine reads_three ?_ ?_
    · rw [plan_of_row (r := r) (by simpa using ht) (by simpa [hlen] using hl)]
      simp [lenWords]
    · exact decodeWords_of_row (by simpa using ht) (by simp [Fields.of_base_ext]) hu hb hw

/-! ## Codes and fields -/

@[simp] theorem Ty.ofCode_code (t : Ty) : Ty.ofCode t.code = some t := by cases t <;> rfl
@[simp] theorem Scope.ofCode_code (s : Scope) : Scope.ofCode s.code = some s := by cases s <;> rfl
@[simp] theorem RM.ofCode_code (r : RM) : RM.ofCode r.code = some r := by cases r <;> rfl
@[simp] theorem Cond.ofCode_code (c : Cond) : Cond.ofCode c.code = c := by cases c <;> rfl
@[simp] theorem Width.ofCode_code (w : Width) : Width.ofCode w.code = w := by cases w <;> rfl

/-- A three-bit register code survives its five-bit slot (01 R20). -/
@[simp] theorem sreg_setWidth (a : SReg) : sreg (a.setWidth 5) = .ok a := by
  have h : a.toNat < 8 := a.isLt
  have h5 : a.toNat < 32 := by omega
  simp [sreg, Nat.mod_eq_of_lt h5, h]

namespace Fields

theorem tyOf_code {f : Fields} {t : Ty} (h : f.ty = t.code) : f.tyOf = .ok t := by simp [tyOf, h]
theorem rmOf_code {f : Fields} {r : RM} (h : f.rm = r.code) : f.rmOf = .ok r := by simp [rmOf, h]
theorem scopeOf_code {f : Fields} {s : Scope} (h : f.scope = s.code) : f.scopeOf = .ok s := by simp [scopeOf, h]
theorem modOf_code {f : Fields} {m : FMod} (hr : f.rm = m.rm.code) (hi : f.fzi = m.fzi) (ho : f.fzo = m.fzo) (hm : f.mask = m.mask) :
    f.modOf = .ok m := by
  simp [modOf, rmOf_code hr, hi, ho, hm, Except.map]
theorem arOf_code {f : Fields} {ar : AcqRel} (ha : f.acq = ar.acq) (hr : f.rel = ar.rel) (hs : f.scope = ar.scope.code) :
    f.arOf = .ok ar := by
  simp [arOf, scopeOf_code hs, ha, hr, Except.map]
theorem flag_code {f : Fields} {b : Bool} (h : f.var = if b then 1 else 0) : f.flag = .ok b := by
  cases b <;> simp [flag, h]
theorem slotOf_code {f : Fields} {s : BitVec 2} (h : f.var = s.setWidth 3) : f.slotOf = .ok s := by
  have hs : s.toNat < 4 := s.isLt
  simp [slotOf, h, Nat.mod_eq_of_lt (Nat.lt_trans hs (by decide : 4 < 8)), hs]
theorem oneScope_code {f : Fields} {q : Option Scope} {bit : Bool} (hb : bit = q.isSome) (hs : f.scope = (q.map Scope.code).getD 0) :
    f.oneScope bit = .ok q := by
  cases q with
  | none => simp [oneScope, scopeOf_code (s := .task) hs, hb]
  | some s => simp [oneScope, scopeOf_code (s := s) hs, hb]

end Fields

/-- The words that hold nothing outside the base word, which is where LEN 00 alone is accepted. -/
theorem Enc.len_base (op : BitVec 6) (fn : BitVec 9) (d a b : Reg) : Enc.len { op, fn, d, a, b } ∈ [0] := by
  refine Enc.len_short rfl ?_ rfl
  simp [Enc.ext]

/-! ## One lemma per shape of row -/

section Shapes
variable {op : BitVec 6} {fn : BitVec 9}

theorem reads_dab {mk d a b} (ht : tableA op.toNat fn.toNat = some (some (dab mk))) (hw : (mk d a b).wf = true) :
    Reads (encR op fn d a b) (mk d a b) := reads_words ht (Enc.len_base ..) rfl rfl hw
theorem reads_da {mk d a} (ht : tableA op.toNat fn.toNat = some (some (da mk))) (hw : (mk d a).wf = true) :
    Reads (encR op fn d a 0) (mk d a) := reads_words ht (Enc.len_base ..) rfl rfl hw
theorem reads_ra {mk a} (ht : tableA op.toNat fn.toNat = some (some (ra mk))) (hw : (mk a).wf = true) :
    Reads (encR op fn 0 a 0) (mk a) := reads_words ht (Enc.len_base ..) rfl rfl hw
theorem reads_rd {mk d} (ht : tableA op.toNat fn.toNat = some (some (rd mk))) (hw : (mk d).wf = true) :
    Reads (encR op fn d 0 0) (mk d) := reads_words ht (Enc.len_base ..) rfl rfl hw
theorem reads_rab {mk a b} (ht : tableA op.toNat fn.toNat = some (some (rab mk))) (hw : (mk a b).wf = true) :
    Reads (encR op fn 0 a b) (mk a b) := reads_words ht (Enc.len_base ..) rfl rfl hw
theorem reads_nul {i} (ht : tableA op.toNat fn.toNat = some (some (nul i))) (hw : i.wf = true) :
    Reads (encR op fn 0 0 0) i := reads_words ht (Enc.len_base ..) rfl rfl hw
theorem reads_dabc {mk d a b c} (ht : tableA op.toNat fn.toNat = some (some (dabc mk))) (hw : (mk d a b c).wf = true) :
    Reads (encR4 op fn d a b c) (mk d a b c) := reads_words ht (Enc.len_long rfl) rfl rfl hw
theorem reads_shift {mk d a b n} (ht : row03 fn.toNat = some (shift mk)) (hw : (mk d a b n).wf = true) :
    Reads (encSh fn d a b n) (mk d a b n) := reads_words (congrArg some ht) (Enc.len_mem _) rfl rfl hw

theorem reads_mmm {mk d a b} (ht : row17 fn.toNat = some (mmm mk)) (hw : (mk d a b).wf = true) :
    Reads (encM fn d a b) (mk d a b) :=
  reads_words (congrArg some ht) (Enc.len_base ..) rfl (by simp [mmm, Enc.fields]) hw
theorem reads_xm {mk d a} (ht : tableA op.toNat fn.toNat = some (some (xm mk))) (hw : (mk d a).wf = true) :
    Reads (encXM op fn d a) (mk d a) := reads_words ht (Enc.len_base ..) rfl (by simp [xm, Enc.fields]) hw

/-- The immediate of a bit-field instruction gives its two numbers back (08 R226). -/
theorem bitField_imm (o n : BitVec 7) {m : BitVec 32} (hm : m = (0 : BitVec 17) ++ n ++ (0 : BitVec 1) ++ o) :
    m.extractLsb' 7 1 = 0 ∧ m.extractLsb' 15 17 = 0 ∧ m.extractLsb' 0 7 = o ∧ m.extractLsb' 8 7 = n := by
  have hc : m = ((0 : BitVec 17) ++ n ++ (0 : BitVec 1) ++ o).cast (by decide : 17 + 7 + 1 + 7 = 32) := hm
  simp only [hc, BitVec.extractLsb'_cast, BitVec.extractLsb'_append_eq_of_le, BitVec.extractLsb'_append_eq_of_add_le, Nat.reduceLeDiff,
    Nat.reduceSub]
  simp

theorem reads_bitField {mk d a b c o n} (ht : row03 fn.toNat = some (bitField mk)) (hw : (mk d a b c o n).wf = true) :
    Reads (encBf fn d a b c o n) (mk d a b c o n) := by
  refine reads_words (congrArg some ht) (Enc.len_long rfl) rfl ?_ hw
  obtain ⟨h7, h15, ho, hn⟩ := bitField_imm o n rfl
  simp only [bitField, Enc.fields, h7, h15, ho, hn, and_self, if_true]

/-- OP 0x14 and OP 0x15 share one table (09 Table 9.5). -/
theorem tableA_float {vec : Bool} {n : Nat} {r : Row} (h : row14 vec n = some r) :
    tableA (if vec then 0x15 else 0x14 : BitVec 6).toNat n = some (some r) := by
  cases vec <;> exact congrArg some h

theorem reads_fab {mk vec sc ty f d a b} (ht : row14 vec fn.toNat = some (fab vec mk)) (hw : (mk vec sc ty f d a b).wf = true) :
    Reads (encF vec sc fn ty f d a b 0) (mk vec sc ty f d a b) :=
  reads_words (tableA_float ht) (Enc.len_long rfl) rfl
    (by simp [fab, Fields.flag_code (b := sc), Fields.tyOf_code (t := ty), Fields.modOf_code (m := f), Enc.fields]) hw
theorem reads_fabc {mk vec sc ty f d a b c} (ht : row14 vec fn.toNat = some (fabc vec mk)) (hw : (mk vec sc ty f d a b c).wf = true) :
    Reads (encF vec sc fn ty f d a b c) (mk vec sc ty f d a b c) :=
  reads_words (tableA_float ht) (Enc.len_long rfl) rfl
    (by simp [fabc, Fields.flag_code (b := sc), Fields.tyOf_code (t := ty), Fields.modOf_code (m := f), Enc.fields]) hw
theorem reads_fa {mk vec ty f d a} (ht : row14 vec fn.toNat = some (fa vec mk)) (hw : (mk vec ty f d a).wf = true) :
    Reads (encF vec false fn ty f d a 0 0) (mk vec ty f d a) :=
  reads_words (tableA_float ht) (Enc.len_long rfl) rfl
    (by simp [fa, Fields.tyOf_code (t := ty), Fields.modOf_code (m := f), Enc.fields]) hw
theorem reads_fmm {mk vec sc ty z m d a b} (ht : row14 vec fn.toNat = some (fmm vec mk)) (hw : (mk vec sc ty z m d a b).wf = true) :
    Reads (encF vec sc fn ty ⟨.dflt, z, false, m⟩ d a b 0) (mk vec sc ty z m d a b) :=
  reads_words (tableA_float ht) (Enc.len_long rfl) rfl
    (by simp [fmm, Fields.flag_code (b := sc), Fields.tyOf_code (t := ty), Enc.fields]) hw
theorem reads_fsign {mk vec ty z m d a} (ht : row14 vec fn.toNat = some (fsign vec mk)) (hw : (mk vec ty z m d a).wf = true) :
    Reads (encF vec false fn ty ⟨.dflt, z, false, m⟩ d a 0 0) (mk vec ty z m d a) :=
  reads_words (tableA_float ht) (Enc.len_long rfl) rfl (by simp [fsign, Fields.tyOf_code (t := ty), Enc.fields]) hw

theorem reads_sp {k : BitVec 8} {mk vec ty f d a} (ht : ∀ v : Bool, row19 (BitVec.ofBool v ++ k).toNat = some (fa v mk))
    (hw : (mk vec ty f d a).wf = true) : Reads (encSp vec k ty f d a) (mk vec ty f d a) :=
  reads_words (congrArg some (ht vec)) (Enc.len_long rfl) rfl
    (by simp [fa, Fields.tyOf_code (t := ty), Fields.modOf_code (m := f), Enc.fields]) hw
theorem reads_vab {mk sc ty m d a b} (ht : row16 fn.toNat = some (vab mk)) (hw : (mk sc ty m d a b).wf = true) :
    Reads (encV sc fn ty m d a b 0) (mk sc ty m d a b) :=
  reads_words (congrArg some ht) (Enc.len_mem _) rfl
    (by simp [vab, Fields.flag_code (b := sc), Fields.tyOf_code (t := ty), Enc.fields]) hw

theorem reads_red {mk ty z m d a} (ht : row18 fn.toNat = some (red mk)) (hw : (mk ty z m d a).wf = true) :
    Reads (Enc.words { op := 0x18, fn, d, a, ty := ty.code, fzi := z, mask := m }) (mk ty z m d a) :=
  reads_words (congrArg some ht) (Enc.len_mem _) rfl (by simp [red, Fields.tyOf_code (t := ty), Enc.fields]) hw

theorem reads_mm {mk bs ty rm z y d a b c} (ht : row24 fn.toNat = some (mm mk)) (hw : (mk bs ty rm z y d a b c).wf = true) :
    Reads (encMm fn bs ty rm z y d a b c 0) (mk bs ty rm z y d a b c) :=
  reads_words (congrArg some ht) (Enc.len_long rfl) rfl
    (by simp [mm, Fields.slotOf_code (s := bs), Fields.tyOf_code (t := ty), Fields.rmOf_code (r := rm), Enc.fields]) hw

theorem reads_snd {mk q a b} (ht : row26 fn.toNat = some (snd mk)) (hw : (mk q a b).wf = true) :
    Reads (encSnd 0x26 fn q a b 0 true) (mk q a b) :=
  reads_words (congrArg some ht) (Enc.len_mem _) rfl (by simp [snd, Fields.oneScope_code (q := q), Enc.fields]) hw
theorem reads_snd3 {mk q a b c} (ht : tableA op.toNat fn.toNat = some (some (snd3 mk))) (hw : (mk q a b c).wf = true) :
    Reads (encSnd op fn q a b c false) (mk q a b c) :=
  reads_words ht (Enc.len_long rfl) rfl (by simp [snd3, Fields.oneScope_code (q := q), Enc.fields]) hw

end Shapes

/-! ## Memory instructions, whose FN holds SH and the width (05 R146) -/

theorem toNat_append_add {n m : Nat} (hi : BitVec n) (lo : BitVec m) : (hi ++ lo).toNat = hi.toNat * 2 ^ m + lo.toNat := by
  rw [BitVec.toNat_append, ← Nat.shiftLeft_add_eq_or_of_lt lo.isLt, Nat.shiftLeft_eq]

theorem memFn_toNat (k : BitVec 5) (sh w : BitVec 2) : (memFn k sh w).toNat = 16 * k.toNat + 4 * sh.toNat + w.toNat := by
  rw [memFn, toNat_append_add, toNat_append_add]
  ring
@[simp] theorem memFn_div (k : BitVec 5) (sh w : BitVec 2) : (memFn k sh w).toNat / 16 = k.toNat := by
  rw [memFn_toNat]
  omega
@[simp] theorem memFn_mod (k : BitVec 5) (sh w : BitVec 2) : (memFn k sh w).toNat % 4 = w.toNat := by
  rw [memFn_toNat]
  omega
@[simp] theorem memFn_shift (k : BitVec 5) (sh w : BitVec 2) : (memFn k sh w).extractLsb' 2 2 = sh := by
  rw [memFn, BitVec.extractLsb'_append_eq_of_le (by decide), BitVec.extractLsb'_append_eq_of_add_le (by decide),
    BitVec.extractLsb'_eq_self]
@[simp] theorem memFn_width (k : BitVec 5) (sh w : BitVec 2) : (memFn k sh w).extractLsb' 0 2 = w := by
  rw [memFn, BitVec.extractLsb'_append_eq_of_add_le (by decide), BitVec.extractLsb'_eq_self]

section Memory
variable {k : BitVec 5}

theorem reads_loc {mk w d m} (ht : row1C (memFn k m.sh w.code).toNat = some (loc mk)) (hw : (mk w d m).wf = true) :
    Reads (encMem 0x1C k w.code d m) (mk w d m) :=
  reads_words (congrArg some ht) (Enc.len_mem _) rfl (by simp [loc, Fields.memOf, Fields.widthOf, Enc.fields]) hw

theorem reads_vloc {mk ty mask d m} (ht : row1C (memFn k m.sh 0).toNat = some (vloc mk)) (hw : (mk ty mask d m).wf = true) :
    Reads (encMem 0x1C k 0 d m ty.code mask) (mk ty mask d m) :=
  reads_words (congrArg some ht) (Enc.len_mem _) rfl
    (by simp [vloc, Fields.memOf, Fields.tyOf_code (t := ty), Enc.fields]) hw

theorem reads_gld {mk w q d m} (ht : row1E (memFn k m.sh w.code).toNat = some (gld mk)) (hw : (mk w q d m).wf = true) :
    Reads (encAcq k w.code q d m) (mk w q d m) :=
  reads_words (congrArg some ht) (Enc.len_mem _) rfl
    (by simp [gld, Fields.memOf, Fields.widthOf, Fields.oneScope_code (q := q), Enc.fields]) hw

theorem reads_amo {mk ty rpl ar d a b imm} (ht : row20 (memFn k 0 0).toNat = some (amo mk)) (hw : (mk ty rpl ar d a b imm).wf = true) :
    Reads (encAmo k ty rpl ar d a b 0 imm) (mk ty rpl ar d a b imm) :=
  reads_words (congrArg some ht) (Enc.len_long rfl) rfl
    (by simp [amo, Fields.tyOf_code (t := ty), Fields.flag_code (b := rpl), Fields.arOf_code (ar := ar), Enc.fields]) hw

end Memory

/-! ## Formats I, J and L -/

/-- A base word of format I or J (01 Tables 1.3 and 1.4). -/
def wordIJ (n : BitVec 14) (a d : Reg) (op : BitVec 6) (len : BitVec 2) : IWord := n ++ a ++ d ++ op ++ len

section WordIJ
variable (n : BitVec 14) (a d : Reg) (op : BitVec 6) (len : BitVec 2)

theorem wordIJ_eq : wordIJ n a d op len = (n ++ a ++ d ++ op ++ len).cast (by decide : 14 + 5 + 5 + 6 + 2 = 32) := rfl
@[simp] theorem opOf_wordIJ : opOf (wordIJ n a d op len) = op.toNat := by
  simp only [opOf, wordIJ_eq, BitVec.extractLsb'_cast, BitVec.extractLsb'_append_eq_of_le, BitVec.extractLsb'_append_eq_of_add_le,
    Nat.reduceLeDiff, Nat.reduceSub]
  simp
@[simp] theorem lenOf_wordIJ : lenOf (wordIJ n a d op len) = len.toNat := by
  simp only [lenOf, wordIJ_eq, BitVec.extractLsb'_cast, BitVec.extractLsb'_append_eq_of_add_le, Nat.reduceLeDiff]
  simp
@[simp] theorem wordIJ_imm : (wordIJ n a d op len).extractLsb' 18 14 = n := by
  simp only [wordIJ_eq, BitVec.extractLsb'_cast, BitVec.extractLsb'_append_eq_of_le, Nat.reduceLeDiff, Nat.reduceSub]
  simp
@[simp] theorem wordIJ_a : (wordIJ n a d op len).extractLsb' 13 5 = a := by
  simp only [wordIJ_eq, BitVec.extractLsb'_cast, BitVec.extractLsb'_append_eq_of_le, BitVec.extractLsb'_append_eq_of_add_le,
    Nat.reduceLeDiff, Nat.reduceSub]
  simp
@[simp] theorem wordIJ_d : (wordIJ n a d op len).extractLsb' 8 5 = d := by
  simp only [wordIJ_eq, BitVec.extractLsb'_cast, BitVec.extractLsb'_append_eq_of_le, BitVec.extractLsb'_append_eq_of_add_le,
    Nat.reduceLeDiff, Nat.reduceSub]
  simp

variable {n a d op len}

theorem plan_wordI (hl : 0x04 ≤ op.toNat) (hu : op.toNat ≤ 0x09) (hn : len.toNat ≤ 2) :
    plan (wordIJ n a d op len) = .ok (lenWords len.toNat) := by
  have hi : ¬ (op.toNat = 0x00 ∨ op.toNat = 0x3E ∨ op.toNat = 0x3F) := by omega
  simp only [plan, opOf_wordIJ, lenOf_wordIJ, if_neg hi, if_pos (And.intro hl hu), if_pos hn]

theorem plan_wordJ (hl : 0x0A ≤ op.toNat) (hu : op.toNat ≤ 0x0F) (hn : len.toNat ≤ 1) :
    plan (wordIJ n a d op len) = .ok (lenWords len.toNat) := by
  have hi : ¬ (op.toNat = 0x00 ∨ op.toNat = 0x3E ∨ op.toNat = 0x3F) := by omega
  have hI : ¬ (0x04 ≤ op.toNat ∧ op.toNat ≤ 0x09) := by omega
  simp only [plan, opOf_wordIJ, lenOf_wordIJ, if_neg hi, if_neg hI, if_pos (And.intro hl hu), if_pos hn]

end WordIJ

theorem decodeWords_ijl {w x y : IWord} (hl : 0x04 ≤ opOf w) (hu : opOf w ≤ 0x11) : decodeWords w x y = decodeIJL w x y := by
  have ht : tableA (opOf w) (fnOf w) = none := by
    cases h : tableA (opOf w) (fnOf w) with
    | none => rfl
    | some r =>
      obtain ⟨-, hI, hJ, hL⟩ := tableA_op h
      omega
  have hi : ¬ (opOf w = 0x00 ∨ opOf w = 0x3E ∨ opOf w = 0x3F) := by omega
  simp only [decodeWords, if_neg hi, ht]

/-- The low bits of an immediate with the extension word above them (01 Table 1.7). -/
theorem extract_append_low {n : Nat} (x : BitVec n) (h : 46 ≤ n) :
    (x.extractLsb' 14 32 ++ x.setWidth 14 : BitVec 46) = x.setWidth 46 := by
  rw [BitVec.setWidth_eq_extractLsb' (by omega), BitVec.extractLsb'_append_extractLsb'_eq_extractLsb' (by omega),
    BitVec.setWidth_eq_extractLsb' h]

/-- The three lengths of format I hold the whole immediate (01 Table 1.7). -/
theorem reads_encI {op : BitVec 6} {d a : Reg} {imm : Word} {i : Instr} (hl : 0x04 ≤ op.toNat) (hu : op.toNat ≤ 0x09)
    (hd : ∀ w x y, opOf w = op.toNat → w.extractLsb' 8 5 = d → w.extractLsb' 13 5 = a → immI w (lenOf w) x y = .ok imm →
      decodeIJL w x y = .ok i) : Reads (encI op d a imm) i := by
  have reads (n : BitVec 14) (len : BitVec 2) (x y : IWord) (h : immI (wordIJ n a d op len) len.toNat x y = .ok imm) :
      decodeWords (wordIJ n a d op len) x y = .ok i :=
    (decodeWords_ijl (by rw [opOf_wordIJ]; omega) (by rw [opOf_wordIJ]; omega)).trans
      (hd _ x y (opOf_wordIJ ..) (wordIJ_d ..) (wordIJ_a ..) (by rwa [lenOf_wordIJ]))
  unfold encI
  split
  · next h => exact reads_one (plan_wordI hl hu (len := 0) (by decide)) (reads _ 0 _ _ (by simp [immI, h]))
  · split
    · next h =>
      refine reads_three (plan_wordI hl hu (len := 1) (by decide)) (reads _ 1 _ _ ?_)
      simp [immI, extract_append_low imm (by decide), h]
    · have joined : (imm.extractLsb' 32 32 ++ imm.extractLsb' 0 32 : BitVec 64) = imm := by
        rw [BitVec.extractLsb'_append_extractLsb'_eq_extractLsb' (by decide), BitVec.extractLsb'_eq_self]
      refine reads_three (plan_wordI hl hu (len := 2) (by decide)) (reads _ 2 _ _ ?_)
      simp [immI, joined]

/-- Both lengths of format J hold the whole offset. -/
theorem reads_encJ {op : BitVec 6} {a b : Reg} {off : BitVec 46} {i : Instr} (hl : 0x0A ≤ op.toNat) (hu : op.toNat ≤ 0x0F)
    (hd : ∀ w x y, opOf w = op.toNat → w.extractLsb' 8 5 = a → w.extractLsb' 13 5 = b → offJ w (lenOf w) x y = .ok off →
      decodeIJL w x y = .ok i) : Reads (encJ op a b off) i := by
  have reads (n : BitVec 14) (len : BitVec 2) (x y : IWord) (h : offJ (wordIJ n b a op len) len.toNat x y = .ok off) :
      decodeWords (wordIJ n b a op len) x y = .ok i :=
    (decodeWords_ijl (by rw [opOf_wordIJ]; omega) (by rw [opOf_wordIJ]; omega)).trans
      (hd _ x y (opOf_wordIJ ..) (wordIJ_d ..) (wordIJ_a ..) (by rwa [lenOf_wordIJ]))
  unfold encJ
  split
  · next h => exact reads_one (plan_wordJ hl hu (len := 0) (by decide)) (reads _ 0 _ _ (by simp [offJ, h]))
  · refine reads_three (plan_wordJ hl hu (len := 1) (by decide)) (reads _ 1 _ _ ?_)
    simp [offJ, extract_append_low off (by decide)]

theorem reads_encL {op : BitVec 6} {off : BitVec 24} {i : Instr} (hop : op.toNat = 0x10 ∨ op.toNat = 0x11)
    (hd : ∀ w, opOf w = op.toNat → w.extractLsb' 8 24 = off → decodeIJL w 0 0 = .ok i) : Reads (encL op off) i := by
  obtain ⟨w, he, hw⟩ : ∃ w : IWord, encL op off = [w] ∧ w = (off ++ op ++ (0 : BitVec 2)).cast (by decide : 24 + 6 + 2 = 32) :=
    ⟨_, rfl, rfl⟩
  have ho : opOf w = op.toNat := by
    rw [opOf, hw, BitVec.extractLsb'_cast, BitVec.extractLsb'_append_eq_of_le (by decide),
      BitVec.extractLsb'_append_eq_of_add_le (by decide), BitVec.extractLsb'_eq_self]
  have hn : lenOf w = 0 := by
    rw [lenOf, hw, BitVec.extractLsb'_cast, BitVec.extractLsb'_append_eq_of_add_le (by decide), BitVec.extractLsb'_eq_self]
    rfl
  have hoff : w.extractLsb' 8 24 = off := by
    rw [hw, BitVec.extractLsb'_cast, BitVec.extractLsb'_append_eq_of_le (by decide),
      BitVec.extractLsb'_append_eq_of_le (by decide), BitVec.extractLsb'_eq_self]
  rw [he]
  refine reads_one ?_ ((decodeWords_ijl (by omega) (by omega)).trans (hd w ho hoff))
  have hi : ¬ (opOf w = 0x00 ∨ opOf w = 0x3E ∨ opOf w = 0x3F) := by omega
  have hI : ¬ (0x04 ≤ opOf w ∧ opOf w ≤ 0x09) := by omega
  have hJ : ¬ (0x0A ≤ opOf w ∧ opOf w ≤ 0x0F) := by omega
  simp only [plan, if_neg hi, if_neg hI, if_neg hJ, if_pos (ho ▸ hop), if_pos hn]

/-- A permanently illegal word is one word, whatever its LEN (01 R31). -/
theorem reads_illop {w : IWord} (h : (Instr.illop w).wf = true) : Reads [w] (.illop w) := by
  have hop : (w.extractLsb' 2 6 == 0x00#6 || w.extractLsb' 2 6 == 0x3E#6 || w.extractLsb' 2 6 == 0x3F#6) = true := h
  have ho : opOf w = 0x00 ∨ opOf w = 0x3E ∨ opOf w = 0x3F := by
    simpa [opOf, BitVec.toNat_eq, or_assoc] using hop
  exact reads_one (by simp only [plan, if_pos ho]) (by simp only [decodeWords, if_pos ho])

/-! ## Rows of one instruction -/

/-- The source type of a conversion stands in E (09 R255). -/
theorem srcTy_code {f : Fields} {t : Ty} (h : f.e = t.code) : srcTy f = .ok t := by simp [srcTy, h]

theorem reads_cvt {vec src ty p f d a} (h : (Instr.cvt vec src ty p f d a).wf = true) :
    Reads (encode (.cvt vec src ty p f d a)) (.cvt vec src ty p f d a) := by
  have hb : ∀ v : Bool, row1A (if v then 0x100 else 0x000 : BitVec 9).toNat =
      some ⟨[1], [.d, .a, .e, .ty, .rm, .fzi, .fzo, .mask, .var],
        fun f => do .ok (.cvt v (← srcTy f) (← f.tyOf) f.var (← f.modOf) f.d f.a)⟩ := fun v => by cases v <;> rfl
  change Reads (Enc.words _) _
  exact reads_words (congrArg some (hb vec)) (Enc.len_long rfl) rfl
    (by simp [srcTy_code (t := src), Fields.tyOf_code (t := ty), Fields.modOf_code (m := f), Enc.fields]) h

theorem reads_cvts {vec src ty p m d a} (h : (Instr.cvts vec src ty p m d a).wf = true) :
    Reads (encode (.cvts vec src ty p m d a)) (.cvts vec src ty p m d a) := by
  have hb : ∀ v : Bool, row1A (if v then 0x101 else 0x001 : BitVec 9).toNat = some ⟨[1], [.d, .a, .e, .ty, .mask, .var],
      fun f => do .ok (.cvts v (← srcTy f) (← f.tyOf) f.var f.mask f.d f.a)⟩ := fun v => by cases v <;> rfl
  change Reads (Enc.words _) _
  exact reads_words (congrArg some (hb vec)) (Enc.len_long rfl) rfl
    (by simp [srcTy_code (t := src), Fields.tyOf_code (t := ty), Enc.fields]) h

theorem reads_cvtb {src ty p mode rm z d a c} (h : (Instr.cvtb src ty p mode rm z d a c).wf = true) :
    Reads (encode (.cvtb src ty p mode rm z d a c)) (.cvtb src ty p mode rm z d a c) := by
  have hm : (mode.setWidth 32).toNat < 4 := by simpa using Nat.lt_of_le_of_lt (Nat.mod_le ..) mode.isLt
  change Reads (Enc.words _) _
  refine reads_words (show tableA 0x1A 0x102 = some (some _) from rfl) (Enc.len_long rfl) rfl ?_ h
  simp only [Enc.fields, hm, if_true]
  simp [srcTy_code (t := src), Fields.tyOf_code (t := ty), Fields.rmOf_code (r := rm)]

theorem reads_cvfb {src ty p rm z d a c} (h : (Instr.cvfb src ty p rm z d a c).wf = true) :
    Reads (encode (.cvfb src ty p rm z d a c)) (.cvfb src ty p rm z d a c) := by
  change Reads (Enc.words _) _
  exact reads_words (show tableA 0x1A 0x103 = some (some _) from rfl) (Enc.len_long rfl) rfl
    (by simp [srcTy_code (t := src), Fields.tyOf_code (t := ty), Fields.rmOf_code (r := rm), Enc.fields]) h

/-- The zero-extending loads have no width of 8 bytes (05 R146, 07 R211). -/
theorem Width.code_ne_three {w : Width} (h : (w != .w8) = true) : w.code.toNat ≠ 3 := by
  cases w with
  | w8 => cases h
  | _ => decide

theorem reads_amoadd {ty rpl rn ar d a b imm} (h : (Instr.amoadd ty rpl rn ar d a b imm).wf = true) :
    Reads (encode (.amoadd ty rpl rn ar d a b imm)) (.amoadd ty rpl rn ar d a b imm) := by
  change Reads (encAmo 0x00 ty rpl ar d a b 0 imm (if rn then 1 else 0)) _
  refine reads_words (show tableA 0x20 0x000 = some (some _) from rfl) (Enc.len_long rfl) rfl ?_ h
  cases rn <;> simp [Fields.tyOf_code (t := ty), Fields.flag_code (b := rpl), Fields.arOf_code (ar := ar), Enc.fields]

theorem reads_amocas {ty rpl ar d a b c imm} (h : (Instr.amocas ty rpl ar d a b c imm).wf = true) :
    Reads (encode (.amocas ty rpl ar d a b c imm)) (.amocas ty rpl ar d a b c imm) := by
  change Reads (encAmo 0x07 ty rpl ar d a b c imm) _
  exact reads_words (show tableA 0x20 0x070 = some (some _) from rfl) (Enc.len_long rfl) rfl
    (by simp [Fields.tyOf_code (t := ty), Fields.flag_code (b := rpl), Fields.arOf_code (ar := ar), Enc.fields]) h

/-- The number of a special register in IMM32 (21 R430). -/
theorem num_imm (n : BitVec 12) : (n.setWidth 32).extractLsb' 12 20 = 0 ∧ (n.setWidth 32).setWidth 12 = n := by
  constructor
  · ext i hi
    simp
  · simp
theorem reads_rds {d n} (h : (Instr.rds d n).wf = true) : Reads (encode (.rds d n)) (.rds d n) := by
  obtain ⟨hz, hn⟩ := num_imm n
  change Reads (Enc.words _) _
  exact reads_words rfl (Enc.len_long rfl) rfl (by simp only [Enc.fields, hz, hn, if_true]) h
theorem reads_wrs {a n} (h : (Instr.wrs a n).wf = true) : Reads (encode (.wrs a n)) (.wrs a n) := by
  obtain ⟨hz, hn⟩ := num_imm n
  change Reads (Enc.words _) _
  exact reads_words rfl (Enc.len_long rfl) rfl (by simp only [Enc.fields, hz, hn, if_true]) h

theorem reads_fcmp {vec cond ty z m d a b} (h : (Instr.fcmp vec cond ty z m d a b).wf = true) :
    Reads (encode (.fcmp vec cond ty z m d a b)) (.fcmp vec cond ty z m d a b) := by
  change Reads (Enc.words _) _
  cases vec with
  | true =>
    have hd : d.toNat < 8 := by simpa using (Bool.and_eq_true_iff.mp h).2
    have hs : sreg d = .ok (d.setWidth 3) := by rw [sreg, if_pos hd]
    have hd' : (d.setWidth 3).setWidth 5 = d := by
      apply BitVec.eq_of_toNat_eq
      simp only [BitVec.toNat_setWidth]
      omega
    exact reads_words rfl (Enc.len_long rfl) rfl (by simp [Enc.fields, Fields.tyOf_code (t := ty), hs, hd']) h
  | false =>
    have hm : m = 0 := by simpa using (Bool.and_eq_true_iff.mp h).2
    subst hm
    exact reads_words rfl (Enc.len_long rfl) rfl (by simp [Enc.fields, Fields.tyOf_code (t := ty)]) h

theorem reads_cstore4 {sel d a b c imm} (h : (Instr.cstore4 sel d a b c imm).wf = true) :
    Reads (encode (.cstore4 sel d a b c imm)) (.cstore4 sel d a b c imm) := by
  change Reads (Enc.words _) _
  have hk : ((0x08 : BitVec 5) ++ sel).toNat / 16 = 0x08 := by
    rw [toNat_append_add]
    have := sel.isLt
    simp
    omega
  have hs : ((0x08 : BitVec 5) ++ sel).extractLsb' 0 4 = sel := by
    rw [BitVec.extractLsb'_append_eq_of_add_le (by decide), BitVec.extractLsb'_eq_self]
  exact reads_words (congrArg some (if_pos hk)) (Enc.len_long rfl) rfl (by simp only [Enc.fields]; rw [hs]) h

theorem reads_mlbe {s mean d a c e} (h : (Instr.mlbe s mean d a c e).wf = true) :
    Reads (encode (.mlbe s mean d a c e)) (.mlbe s mean d a c e) := by
  change Reads (Enc.words _) _
  have hs : (BitVec.ofBool mean ++ s : BitVec 3).setWidth 2 = s := by
    rw [BitVec.setWidth_eq_extractLsb' (by decide), BitVec.extractLsb'_append_eq_of_add_le (by decide), BitVec.extractLsb'_eq_self]
  have hm : (BitVec.ofBool mean ++ s : BitVec 3).getLsbD 2 = mean := by rw [BitVec.getLsbD_append]; simp
  exact reads_words rfl (Enc.len_long rfl) rfl (by simp only [Enc.fields]; rw [hs, hm]; rfl) h

theorem jig_imm (m : BitVec 4) (s wb : BitVec 5) (ws : BitVec 6) (ast : BitVec 8) {n : BitVec 32}
    (hn : n = (0 : BitVec 4) ++ ast ++ ws ++ wb ++ s ++ m) :
    n.extractLsb' 28 4 = 0 ∧ n.extractLsb' 0 4 = m ∧ n.extractLsb' 4 5 = s ∧ n.extractLsb' 9 5 = wb ∧ n.extractLsb' 14 6 = ws ∧
      n.extractLsb' 20 8 = ast := by
  have hc : n = ((0 : BitVec 4) ++ ast ++ ws ++ wb ++ s ++ m).cast (by decide : 4 + 8 + 6 + 5 + 5 + 4 = 32) := hn
  simp only [hc, BitVec.extractLsb'_cast, BitVec.extractLsb'_append_eq_of_le, BitVec.extractLsb'_append_eq_of_add_le, Nat.reduceLeDiff,
    Nat.reduceSub]
  simp

theorem reads_jig {a m s wb ws ast} (h : (Instr.jig a m s wb ws ast).wf = true) :
    Reads (encode (.jig a m s wb ws ast)) (.jig a m s wb ws ast) := by
  obtain ⟨hz, hm, hs, hwb, hws, hast⟩ := jig_imm m s wb ws ast rfl
  change Reads (Enc.words _) _
  exact reads_words rfl (Enc.len_long rfl) rfl (by simp only [Enc.fields, hz, hm, hs, hwb, hws, hast, if_true]) h

theorem noise_imm (n0 : BitVec 8) (cnt : BitVec 9) {n : BitVec 32} (hn : n = (0 : BitVec 15) ++ cnt ++ n0) :
    n.extractLsb' 17 15 = 0 ∧ n.extractLsb' 0 8 = n0 ∧ n.extractLsb' 8 9 = cnt := by
  have hc : n = ((0 : BitVec 15) ++ cnt ++ n0).cast (by decide : 15 + 9 + 8 = 32) := hn
  simp only [hc, BitVec.extractLsb'_cast, BitVec.extractLsb'_append_eq_of_le, BitVec.extractLsb'_append_eq_of_add_le, Nat.reduceLeDiff,
    Nat.reduceSub]
  simp

theorem reads_noise {v d a b c e n0 cnt} (h : (Instr.noise v d a b c e n0 cnt).wf = true) :
    Reads (encode (.noise v d a b c e n0 cnt)) (.noise v d a b c e n0 cnt) := by
  obtain ⟨hz, hn, hc⟩ := noise_imm n0 cnt rfl
  have hw : (decide (d.toNat ≤ 29) && decide (v.toNat ≤ 2) && (v != 0 || a == 0) && decide (1 ≤ cnt.toNat) &&
      decide (n0.toNat + cnt.toNat ≤ 256)) = true := h
  simp only [Bool.and_eq_true, decide_eq_true_eq] at hw
  obtain ⟨⟨⟨⟨-, hv⟩, -⟩, -⟩, -⟩ := hw
  have hv3 : (v.setWidth 3).toNat ≤ 2 := by simpa using Nat.le_trans (Nat.mod_le ..) hv
  have hv2 : (v.setWidth 3).setWidth 2 = v := by simp
  change Reads (Enc.words _) _
  exact reads_words rfl (Enc.len_long rfl) rfl (by simp only [Enc.fields, hz, hn, hc, hv3, hv2, and_self, if_true]) h

/-! ## Every instruction -/

theorem reads_encode (i : Instr) (h : i.wf = true) (hne : encode i ≠ []) : Reads (encode i) i := by
  cases i with
  | add | addw | sub | subw | and | or | xor | andn | orn | xnor | min | max | minn | maxn | slt | sltn | seq | sne | addco
  | mul | mulw | mulh | mulhn | mulhsn | div | divw | divn | divnw | rem | remw | remn | remnw | draw | excq | excqp =>
    exact reads_dab rfl h
  | sel | madd | join => exact reads_dabc rfl h
  | sll | sllw | srl | srlw | sra | sraw | rol | ror => exact reads_shift rfl h
  | clz | ctz | popc | brev | bswap | jalr | cvstat => exact reads_da rfl h
  | bfx | bfxn | bfi => exact reads_bitField rfl h
  | addi | andi | ori | xori | li | pcadd =>
    exact reads_encI (by decide) (by decide) fun w x y ho hd ha hn => by simp [decodeIJL, ho, hd, ha, hn]
  | beq | bne | blt | bge | bltn | bgen =>
    exact reads_encJ (by decide) (by decide) fun w x y ho hd ha hn => by simp [decodeIJL, ho, hd, ha, hn]
  | br | call => exact reads_encL (by decide) fun w ho hi => by simp [decodeIJL, ho, hi]
  | jr | cres | cdrop | dgmix | maskc | unmaskc | park | jret | bard | stage | wset | bound | trap => exact reads_ra rfl h
  | spill | spillv | fill | fillv | monx | dgrd | slstat | fltpop | clw => exact reads_rd rfl h
  | htset | bara | launch | sysc => exact reads_rab rfl h
  | endt | reseed | killpt | unclamp => exact reads_nul rfl h
  | illop => exact reads_illop h
  | fadd | fsub | fmul | fdiv => exact reads_fab rfl h
  | fma | fms | fnma | fnms => exact reads_fabc rfl h
  | fsqrt => exact reads_fa rfl h
  | fmin | fmax | fsgnj => exact reads_fmm rfl h
  | fabs | fneg => exact reads_fsign rfl h
  | fexp | fexp2 | flog | flog2 | frcp | frsq | fsin | fcos | ftanh | fsigm | ferf =>
    exact reads_sp (fun v => by cases v <;> rfl) h
  | vadd | vsub | vadds | vsubs | vmul | vmulh | vmin | vmax | vand | vor | vxor | vandn | vsll | vsrl | vsra =>
    exact reads_vab rfl h
  | loop | route =>
    change Reads (Enc.words _) _
    exact reads_words rfl (Enc.len_long rfl) rfl rfl h
  | publ | mon | unpark | unparkDrop | incumbMin | incumbMax | rdinc | rdincPay | rdincSt | tlbinv | tlbinvCtx | haltSusp | haltHalt
  | haltRes =>
    change Reads (Enc.words _) _
    exact reads_words rfl (Enc.len_mem _) rfl rfl h
  | barinit =>
    change Reads (encR4 ..) _
    exact reads_words rfl (Enc.len_long rfl) rfl rfl h
  | vmadd sc ty =>
    change Reads (Enc.words _) _
    exact reads_words rfl (Enc.len_mem _) rfl (by simp [Fields.flag_code (b := sc), Fields.tyOf_code (t := ty), Enc.fields]) h
  | vabs ty | vbcast ty | vext ty | vins ty | vmov ty =>
    change Reads (Enc.words _) _
    exact reads_words rfl (Enc.len_mem _) rfl (by simp [Fields.tyOf_code (t := ty), Enc.fields]) h
  | vperm ty | icmp _ ty =>
    change Reads (Enc.words _) _
    exact reads_words rfl (Enc.len_long rfl) rfl (by simp [Fields.tyOf_code (t := ty), Enc.fields]) h
  | vradd ty f =>
    change Reads (Enc.words _) _
    exact reads_words rfl (Enc.len_mem _) rfl (by simp [Fields.tyOf_code (t := ty), Fields.modOf_code (m := f), Enc.fields]) h
  | vrmin | vrmax => exact reads_red rfl h
  | fcmp => exact reads_fcmp h
  | mand | mor | mxor | mandn => exact reads_mmm rfl h
  | mget | mpopc | mfirst | qpop | qcnt | qpeek => exact reads_xm rfl h
  | mnot | mset | qpush | cvrel =>
    change Reads (Enc.words _) _
    exact reads_words rfl (Enc.len_base ..) rfl (by simp [Enc.fields]) h
  | cvt => exact reads_cvt h
  | cvts => exact reads_cvts h
  | cvtb => exact reads_cvtb h
  | cvfb => exact reads_cvfb h
  | ldl | stl => exact reads_loc (by simp [row1C]) h
  | ldlz => exact reads_loc (by simp [row1C, Width.code_ne_three h]) h
  | vldl | vstl => exact reads_vloc (by simp [row1C]) h
  | ldsb | stsb =>
    change Reads (Enc.words _) _
    exact reads_words (congrArg some (by simp [row1C]; rfl)) (Enc.len_mem _) rfl (by simp [Fields.memOf, Enc.fields]) h
  | ld => exact reads_gld (by simp [row1E]) h
  | ldz => exact reads_gld (by simp [row1E, Width.code_ne_three h]) h
  | vld ty q =>
    change Reads (Enc.words _) _
    exact reads_words (congrArg some (by simp [row1E]; rfl)) (Enc.len_mem _) rfl
      (by simp [Fields.memOf, Fields.oneScope_code (q := q), Fields.tyOf_code (t := ty), Enc.fields]) h
  | ldv =>
    change Reads (Enc.words _) _
    exact reads_words (congrArg some (by simp [row1E]; rfl)) (Enc.len_long rfl) rfl (by simp [Fields.memOf, Enc.fields]) h
  | pref l =>
    change Reads (Enc.words _) _
    exact reads_words (congrArg some (by simp [row1E]; rfl)) (Enc.len_mem _) rfl
      (by simp [Fields.memOf, Fields.flag_code (b := l), Enc.fields]) h
  | st w q =>
    change Reads (Enc.words _) _
    exact reads_words (congrArg some (by simp [row1F]; rfl)) (Enc.len_mem _) rfl
      (by simp [Fields.memOf, Fields.widthOf, Fields.oneScope_code (q := q), Enc.fields]) h
  | vst ty q =>
    change Reads (Enc.words _) _
    exact reads_words (congrArg some (by simp [row1F]; rfl)) (Enc.len_mem _) rfl
      (by simp [Fields.memOf, Fields.oneScope_code (q := q), Fields.tyOf_code (t := ty), Enc.fields]) h
  | amoadd => exact reads_amoadd h
  | amoand | amoor | amoxor | amomin | amomax | amoswp => exact reads_amo rfl h
  | amocas => exact reads_amocas h
  | cstore4 => exact reads_cstore4 h
  | fence ar | rdb ar =>
    change Reads (Enc.words _) _
    exact reads_words rfl (Enc.len_long rfl) rfl (by simp [Fields.arOf_code (ar := ar), Enc.fields]) h
  | copy ar | copyGath ar | copyScat ar =>
    change Reads (Enc.words _) _
    exact reads_words rfl (Enc.len_mem _) rfl (by simp [Fields.arOf_code (ar := ar), Enc.fields]) h
  | redc _ ty rm _ _ ar =>
    change Reads (Enc.words _) _
    exact reads_words rfl (Enc.len_long rfl) rfl
      (by simp [Fields.tyOf_code (t := ty), Fields.rmOf_code (r := rm), Fields.arOf_code (ar := ar), Enc.fields]) h
  | mma | mmaz => exact reads_mm rfl h
  | mmag s ty rm =>
    change Reads (encMm ..) _
    exact reads_words rfl (Enc.len_long rfl) rfl
      (by simp [Fields.slotOf_code (s := s), Fields.tyOf_code (t := ty), Fields.rmOf_code (r := rm), Enc.fields]) h
  | bld s ty =>
    change Reads (encMm ..) _
    exact reads_words rfl (Enc.len_long rfl) rfl (by simp [Fields.slotOf_code (s := s), Fields.tyOf_code (t := ty), Enc.fields]) h
  | bfree s =>
    change Reads (Enc.words _) _
    exact reads_words rfl (Enc.len_long rfl) rfl (by simp [Fields.slotOf_code (s := s), Enc.fields]) h
  | mlbe => exact reads_mlbe h
  | noise => exact reads_noise h
  | send | sendv | reply => exact reads_snd rfl h
  | sendd | fork => exact reads_snd3 rfl h
  | rds => exact reads_rds h
  | wrs => exact reads_wrs h
  | jig => exact reads_jig h
  | _ => exact absurd rfl hne

/-- Settles O57: the rows of the encoding tables, one shape after the other. -/
theorem roundTrip : Obligations.RoundTrip := by
  unfold Obligations.RoundTrip
  intro i rest h hne
  exact reads_encode i h hne rest

end Sys2Proof
end

section
/-! PROOF. A step of the agenda runs the instruction that its task fetches, and a fetch reads memory (01 R14, R34 to R37). -/

namespace Sys2Proof.Machine

/-! ## A task set again -/

theorem tput_same {κ α : Type} [DecidableEq κ] {t : List (κ × α)} {k : κ} {v : α} (h : tget? t k = some v) : tput t k v = t := by
  induction t with
  | nil => cases h
  | cons p t ih =>
    simp only [tget?] at h
    simp only [tput]
    split
    · next e =>
      rw [if_pos e] at h
      cases h
      rw [← e]
    · next e =>
      rw [if_neg e] at h
      rw [ih h]

theorem State.setTask_same {s : State} {t : Task} (h : s.task? = some t) : s.setTask t = s := by
  obtain ⟨k, hk, hkt⟩ := State.core_of_task h
  have e : ({ k with task := some t } : Core) = k := by rw [← hkt]
  rw [State.setTask, State.onCore, hk]
  simp only [e, State.setCore, tput_same hk]

/-! ## Fetch (01 R34 to R37) -/

theorem fetchInstr_one {t : Task} {pc : VAddr} {s s' : State} {w : IWord} {i : Instr} (hw : fetchWord t pc s = .ok w s')
    (hp : plan w = .ok 1) (hd : decodeWords w 0 0 = .ok i) : fetchInstr t pc s = .ok { w, i, len := 4 } s' := by
  rw [fetchInstr, bind_ok hw, hp]
  simp only [if_true]
  rw [bind_ok (pure_ok ..), bind_ok (pure_ok ..), hd]
  rfl

theorem fetchInstr_three {t : Task} {pc : VAddr} {s s2 s3 s4 : State} {w x y : IWord} {i : Instr} (hw : fetchWord t pc s = .ok w s2)
    (hp : plan w = .ok 3) (hx : fetchWord t (pc + 4) s2 = .ok x s3) (hy : fetchWord t (pc + 8) s3 = .ok y s4)
    (hd : decodeWords w x y = .ok i) : fetchInstr t pc s = .ok { w, i, len := 12 } s4 := by
  rw [fetchInstr, bind_ok hw, hp]
  simp only [if_neg (by decide : ¬ 3 = 1)]
  rw [bind_ok hx, bind_ok hy, hd]
  rfl

theorem fetchFault_ok {α : Type} {m : M α} {s s' : State} {a : α} (va : VAddr) (h : m s = .ok a s') : fetchFault va m s = .ok a s' := by
  simp only [fetchFault, h]

theorem devicePriv_ok {t : Task} {x : Xlat} (s : State) (h : x.attr ≠ 2) : devicePriv t x s = .ok () s := by
  have hx : (x.attr == 2) = false := beq_eq_false_iff_ne.mpr h
  simp only [devicePriv, hx, Bool.false_and, Bool.false_eq_true, if_false, pure_ok]

theorem ofNat_leNat_four (b0 b1 b2 b3 : Byte) : BitVec.ofNat 32 (leNat [b0, b1, b2, b3]) = leWord b0 b1 b2 b3 := by
  apply BitVec.eq_of_toNat_eq
  rw [leWord, toNat_append_add, toNat_append_add, toNat_append_add, BitVec.toNat_ofNat]
  simp only [leNat]
  have h0 := b0.isLt
  have h1 := b1.isLt
  have h2 := b2.isLt
  have h3 := b3.isLt
  omega

theorem State.blocked_free {s : State} {ks : List Nat} (me : Option Nat) (h : ∀ l ∈ ks, (s.line l).hold = .free) :
    s.blocked ks me = false := by
  simp only [State.blocked, List.any_eq_false]
  intro l hl
  simp [State.holdBlocks, h l hl]

/-- 01 R36, R37: a word of an executable page whose line nobody holds and nobody has written since the task started. -/
theorem fetchWord_ok {s s' : State} {t : Task} {va : VAddr} {x : Xlat} (hx : taskXlat t .fetch false (va.setWidth 64) s = .ok x s')
    (ha : x.attr ≠ 2) (hc : ∀ e ∈ t.icache, e.1 ≠ lineOf x.pa)
    (hl : ∀ l ∈ s'.keys x.pa 4, (s'.line l).hold = .free ∧ s'.poisoned l = false) :
    fetchWord t va s =
      .ok (leWord (mget s'.mem x.pa) (mget s'.mem (x.pa + 1)) (mget s'.mem (x.pa + 2)) (mget s'.mem (x.pa + 3))) s' := by
  have hx2 : (x.attr == 2) = false := beq_eq_false_iff_ne.mpr ha
  have hcache : (t.icache.find? fun e => e.1 == lineOf x.pa) = none :=
    List.find?_eq_none.mpr fun e he => by simpa using hc e he
  have hfree : s'.blocked (s'.keys x.pa 4) (some s'.cur) = false := State.blocked_free _ fun l h => (hl l h).1
  have hclean : (s'.keys x.pa 4).any s'.poisoned = false := List.any_eq_false.mpr fun l h => by simp [(hl l h).2]
  refine fetchFault_ok va ?_
  rw [bind_ok hx, bind_ok (devicePriv_ok s' ha), bind_ok (get_ok s')]
  simp only [hx2, hcache, hfree, hclean, Bool.false_eq_true, if_false]
  rw [bind_ok (pure_ok ..), pure_ok]
  exact congrArg (EStateM.Result.ok · s') (ofNat_leNat_four ..)

/-! ## The step (01 R34) -/

/-- Outside a jig, a fetched instruction is executed as it is, with the address after its words as the next one. -/
theorem fetchAndRun_ok {t : Task} {s s' : State} {f : Fetched} (hs : s.task? = some t) (hj : t.jig = none)
    (hf : fetchInstr t t.pc s = .ok f s') :
    fetchAndRun t s = exec f.i (s'.setTask { t with ir := f.w, npc := t.pc + BitVec.ofNat 56 f.len, fetched := true }) := by
  have hi : t.jigIssue = t := by rw [Task.jigIssue, hj]
  simp only [fetchAndRun, hi, State.setTask_same hs, hf, Task.issued, State.ready, Task.ready, Task.following, hj]

theorem runCore_ready {c : Nat} {s : State} {t : Task} (ht : ({ s with cur := c } : State).task? = some t) (hc : t.committing = false)
    (hb : t.tcyc < t.tbudget) : runCore c s = fetchAndRun t { s with cur := c } := by
  simp only [runCore, ht, hc, if_neg (Nat.not_le.mpr hb), Bool.false_eq_true, if_false]

theorem step_core {s : State} {w c : Nat} {l : List (Nat × Action)} (hd : duePin s = none) (ha : s.agenda = (w, .core c) :: l) :
    step s = runCore c ({ s with agenda := l }.passTime (max 1 w)) := by
  simp only [step, stepOnce, hd, ha, act, Action.cycles]

/-- 01 R34: the core that heads the agenda executes what its task fetches, after the cycles of the entry. -/
theorem step_runs_fetched {s s' : State} {w c : Nat} {l : List (Nat × Action)} {t : Task} {f : Fetched} (hd : duePin s = none)
    (ha : s.agenda = (w, .core c) :: l)
    (ht : ({ ({ s with agenda := l } : State).passTime (max 1 w) with cur := c } : State).task? = some t)
    (hc : t.committing = false) (hb : t.tcyc < t.tbudget) (hj : t.jig = none)
    (hf : fetchInstr t t.pc { ({ s with agenda := l } : State).passTime (max 1 w) with cur := c } = .ok f s') :
    step s = exec f.i (s'.setTask { t with ir := f.w, npc := t.pc + BitVec.ofNat 56 f.len, fetched := true }) := by
  rw [step_core hd ha, runCore_ready ht hc hb, fetchAndRun_ok ht hj hf]

/-- Settles O18: the fetch reads one word or three as the base word asks, and the decoder reads the same ones. -/
theorem stepRunsTheDecodedInstruction : Obligations.StepRunsTheDecodedInstruction := by
  unfold Obligations.StepRunsTheDecodedInstruction
  refine ⟨fun s w c l t i w0 x y s2 s3 s4 hd ha ht hc hb hj hw => ⟨fun h1 => ?_, fun hp hx hy h3 => ?_⟩,
    fun s s' t va x hx ha hc hl => fetchWord_ok hx ha hc hl⟩
  · obtain ⟨hp, hi⟩ := plan_of_decode_one h1
    exact step_runs_fetched hd ha ht hc hb hj (fetchInstr_one hw hp hi)
  · exact step_runs_fetched hd ha ht hc hb hj (fetchInstr_three hw hp hx hy (decodeWords_of_decode_three hp h3))

end Sys2Proof.Machine
end

section
/-! PROOF. One rounding of the exact result (03 R89 to R98, 09 R242 to R249). A magnitude is cut into whole units of a power of two, 24 bits
below them and whether more lies below; the mode takes the whole units or one more; the format holds the units taken, and nothing that it
holds lies between two neighbouring units. Exact values are real numbers here, since a root need not be rational. -/

namespace Sys2Proof.Machine

/-! ## Magnitudes cut at a power of two -/

/-- `X` is `n` units of 2^e and a part of one more, which is there when `low`. -/
structure CutAt (n : ℕ) (e : ℤ) (low : Bool) (X : ℝ) : Prop where
  le : (n : ℝ) * 2 ^ e ≤ X
  lt : X < (n + 1) * 2 ^ e
  exact : low = false ↔ X = n * 2 ^ e

theorem cutAt_self (m : ℕ) (e : ℤ) : CutAt m e false (m * 2 ^ e) :=
  ⟨le_rfl, by have := zpow_pos (two_pos (α := ℝ)) e; nlinarith, by simp⟩

theorem two_zpow_toNat {d : ℤ} (h : 0 ≤ d) : ((2 ^ d.toNat : ℕ) : ℝ) = 2 ^ d := by
  rw [Nat.cast_pow, Nat.cast_ofNat, ← zpow_natCast, Int.toNat_of_nonneg h]

theorem CutAt.finer {m : ℕ} {e e' : ℤ} {X : ℝ} (h : CutAt m e false X) (he : e' ≤ e) : CutAt (m * 2 ^ (e - e').toNat) e' false X := by
  have hX : X = (m * 2 ^ (e - e').toNat : ℕ) * 2 ^ e' := by
    rw [h.exact.mp rfl, Nat.cast_mul, two_zpow_toNat (by omega), mul_assoc, ← zpow_add₀ two_ne_zero, sub_add_cancel]
  rw [hX]
  exact cutAt_self _ _

/-- The whole units of 2^e' among units of 2^e, for a larger e'. -/
theorem CutAt.coarser {m : ℕ} {e e' : ℤ} {low : Bool} {X : ℝ} (h : CutAt m e low X) (he : e ≤ e') :
    CutAt (m / 2 ^ (e' - e).toNat) e' (low || m % 2 ^ (e' - e).toNat != 0) X := by
  have hd : (2 : ℝ) ^ e' = (2 ^ (e' - e).toNat : ℕ) * 2 ^ e := by
    rw [two_zpow_toNat (by omega), ← zpow_add₀ two_ne_zero, sub_add_cancel]
  have hu := zpow_pos (two_pos (α := ℝ)) e
  have hpos : 0 < 2 ^ (e' - e).toNat := by positivity
  have hdiv := Nat.div_add_mod m (2 ^ (e' - e).toNat)
  have hmod := Nat.mod_lt m hpos
  generalize 2 ^ (e' - e).toNat = d at *
  generalize m / d = n at *
  generalize m % d = r at *
  have hm : (m : ℝ) = d * n + r := by exact_mod_cast hdiv.symm
  have hr : (r : ℝ) + 1 ≤ d := by exact_mod_cast hmod
  have hr0 : (0 : ℝ) ≤ r := r.cast_nonneg
  obtain ⟨hle, hlt, hex⟩ := h
  rw [hm] at hle hlt hex
  refine ⟨by rw [hd]; nlinarith, by rw [hd]; nlinarith, ?_⟩
  rw [hd]
  rw [Bool.or_eq_false_iff, hex, bne_eq_false_iff_eq]
  constructor
  · rintro ⟨hX, rfl⟩
    rw [hX]
    push_cast
    ring
  · intro hX
    have h0 : (r : ℝ) = 0 := by nlinarith
    exact ⟨by rw [hX, h0]; ring, by exact_mod_cast h0⟩

/-- `t` is `k` units, `a` parts of 2^−24 and a rest of such a part, which is there when `low`. -/
structure InUnits (k a : ℕ) (low : Bool) (t : ℝ) : Prop where
  part : a < 2 ^ 24
  le : k + a / 2 ^ 24 ≤ t
  lt : t < k + (a + 1) / 2 ^ 24
  exact : low = false ↔ t = k + a / 2 ^ 24

theorem CutAt.inUnits {n : ℕ} {q : ℤ} {low : Bool} {X : ℝ} (h : CutAt n (q - 24) low X) :
    InUnits (n / 2 ^ 24) (n % 2 ^ 24) low (X / 2 ^ q) := by
  have hq : (2 : ℝ) ^ q = 2 ^ 24 * 2 ^ (q - 24) := by
    rw [show (2 : ℝ) ^ 24 = 2 ^ (24 : ℤ) by norm_num, ← zpow_add₀ two_ne_zero, add_sub_cancel]
  have hu := zpow_pos (two_pos (α := ℝ)) (q - 24)
  have hn : (n : ℝ) = 2 ^ 24 * (n / 2 ^ 24 : ℕ) + (n % 2 ^ 24 : ℕ) := by exact_mod_cast (Nat.div_add_mod n _).symm
  have hw : ∀ z : ℝ, (n / 2 ^ 24 : ℕ) + z / 2 ^ 24 = (2 ^ 24 * (n / 2 ^ 24 : ℕ) + z) * 2 ^ (q - 24) / 2 ^ q := fun z => by
    rw [hq]
    field_simp
  obtain ⟨hle, hlt, hex⟩ := h
  have hu' := zpow_pos (two_pos (α := ℝ)) q
  refine ⟨Nat.mod_lt _ (by norm_num), ?_, ?_, ?_⟩
  · rw [hw, ← hn]
    gcongr
  · rw [hw, ← add_assoc, ← hn]
    gcongr
  · rw [hw, ← hn, hex, div_left_inj' hu'.ne']

theorem Mag.split_inUnits {x : Mag} {q : ℤ} {X : ℝ} (h : CutAt x.m x.e x.st X) (hst : x.st = true → x.e ≤ q - 24) :
    InUnits (x.split q).1 (x.split q).2.1 (x.split q).2.2 (X / 2 ^ q) := by
  refine CutAt.inUnits (n := if q - 24 - x.e ≤ 0 then x.m * 2 ^ (-(q - 24 - x.e)).toNat else x.m / 2 ^ (q - 24 - x.e).toNat) ?_
  by_cases hs : q - 24 - x.e ≤ 0
  · rw [if_pos hs]
    have hlow : (x.split q).2.2 = x.st := by
      simp only [Mag.split, decide_eq_false (Int.not_lt.mpr hs), Bool.false_and, Bool.or_false]
    rw [hlow]
    by_cases h1 : x.st = true
    · have he : x.e = q - 24 := by have := hst h1; omega
      simpa [he] using h
    · rw [Bool.not_eq_true] at h1
      rw [h1] at h ⊢
      rw [show -(q - 24 - x.e) = x.e - (q - 24) by ring]
      exact h.finer (by omega)
  · rw [if_neg hs]
    have hlow : (x.split q).2.2 = (x.st || x.m % 2 ^ (q - 24 - x.e).toNat != 0) := by
      simp only [Mag.split, decide_eq_true (Int.not_le.mp hs), Bool.true_and]
    rw [hlow]
    exact h.coarser (by omega)

/-! ## What a mode takes (03 R89, Table 3.5) -/

/-- Whole units that a mode may take for `t` units of the side of `neg`. -/
def Mode.takes (md : Mode) (neg : Bool) (t : ℝ) (k : ℕ) : Prop :=
  |k - t| < 1 ∧ match md with
    | .ne => |k - t| < 1 / 2 ∨ (|k - t| = 1 / 2 ∧ k % 2 = 0)
    | .na => |k - t| < 1 / 2 ∨ (|k - t| = 1 / 2 ∧ t < k)
    | .tz => k ≤ t
    | .up => if neg then k ≤ t else t ≤ k
    | .dn => if neg then t ≤ k else k ≤ t
    | _ => True

/-- The modes of 03 Table 3.5 that give one result: all but the stochastic one. -/
def Mode.fixed (md : Mode) : Prop := md ∈ [Mode.ne, .tz, .up, .dn, .na]

theorem Mode.takes_self (md : Mode) (neg : Bool) {t : ℝ} {k : ℕ} (h : t = k) : md.takes neg t k := by
  subst h
  cases md <;> simp [Mode.takes]

/-- A whole number near `t` is `t` where the whole units below it are. -/
theorem eq_iff_floor_eq {n k : ℕ} {t : ℝ} (hle : n ≤ t) (hlt : t < n + 1) (hk : |(k : ℝ) - t| < 1) : (k : ℝ) = t ↔ (n : ℝ) = t := by
  constructor
  · rintro rfl
    have h1 : n ≤ k := by exact_mod_cast hle
    have h2 : k < n + 1 := by exact_mod_cast hlt
    exact_mod_cast (show n = k by omega)
  · rintro rfl
    have h1 : |(k : ℤ) - n| < 1 := by exact_mod_cast hk
    exact_mod_cast sub_eq_zero.mp (Int.abs_lt_one_iff.mp h1)

namespace InUnits

variable {k a : ℕ} {low : Bool} {t : ℝ}

theorem floor_le (h : InUnits k a low t) : k ≤ t := le_trans (le_add_of_nonneg_right (by positivity)) h.le

theorem lt_floor_succ (h : InUnits k a low t) : t < k + 1 := by
  have ha : (a : ℝ) + 1 ≤ 2 ^ 24 := by exact_mod_cast h.part
  have := h.lt
  linarith

theorem inexact_iff (h : InUnits k a low t) : (a != 0 || low) = true ↔ (k : ℝ) ≠ t := by
  rw [← not_iff_not, Bool.not_eq_true, Bool.or_eq_false_iff, bne_eq_false_iff_eq, ne_eq, not_not, h.exact]
  constructor
  · rintro ⟨rfl, e⟩
    simpa using e.symm
  · intro e
    have h0 : (a : ℝ) = 0 := by
      have := h.le
      have : (0 : ℝ) ≤ a := a.cast_nonneg
      linarith
    exact ⟨by exact_mod_cast h0, by rw [h0, ← e]; simp⟩

theorem floor_lt (h : InUnits k a low t) (hi : (a != 0 || low) = true) : k < t := lt_of_le_of_ne h.floor_le (h.inexact_iff.mp hi)

theorem not_exact (hi : (a != 0 || low) = true) : (a = 0 && !low) = false := by
  revert hi
  cases low <;> simp

/-- At least half a unit. -/
theorem half_le_iff (h : InUnits k a low t) : 2 ^ 23 ≤ a ↔ k + 1 / 2 ≤ t := by
  have hle := h.le
  have hlt := h.lt
  constructor
  · intro ha
    have : (2 ^ 23 : ℝ) ≤ a := by exact_mod_cast ha
    linarith
  · intro ht
    have : (2 ^ 23 : ℝ) < a + 1 := by linarith
    have : 2 ^ 23 < a + 1 := by exact_mod_cast this
    omega

/-- Exactly half a unit. -/
theorem eq_half_iff (h : InUnits k a low t) : (a = 2 ^ 23 ∧ low = false) ↔ t = k + 1 / 2 := by
  rw [h.exact]
  have hle := h.le
  have hlt := h.lt
  constructor
  · rintro ⟨rfl, e⟩
    rw [e]
    norm_num
  · intro ht
    have ha : a = 2 ^ 23 := by
      have h1 : (2 ^ 23 : ℝ) < a + 1 := by linarith
      have h2 : (a : ℝ) ≤ 2 ^ 23 := by linarith
      have h1 : 2 ^ 23 < a + 1 := by exact_mod_cast h1
      have h2 : a ≤ 2 ^ 23 := by exact_mod_cast h2
      omega
    exact ⟨ha, by rw [ht, ha]; norm_num⟩

theorem roundsUp_ne_iff (h : InUnits k a low t) (neg odd : Bool) (draw : ℕ) (hi : (a != 0 || low) = true) :
    roundsUp .ne neg odd a low draw = true ↔ k + 1 / 2 < t ∨ (t = k + 1 / 2 ∧ odd = true) := by
  have hz := not_exact hi
  have hup : roundsUp .ne neg odd a low draw = true ↔
      2 ^ 23 ≤ a ∧ ¬ (a = 2 ^ 23 ∧ low = false) ∨ (a = 2 ^ 23 ∧ low = false) ∧ odd = true := by
    simp only [roundsUp, hz]
    cases low <;> cases odd <;> simp <;> omega
  rw [hup, h.half_le_iff, h.eq_half_iff, ← ne_eq, ne_comm, ← lt_iff_le_and_ne]

theorem roundsUp_na_iff (h : InUnits k a low t) (neg odd : Bool) (draw : ℕ) (hi : (a != 0 || low) = true) :
    roundsUp .na neg odd a low draw = true ↔ k + 1 / 2 ≤ t := by
  have hz := not_exact hi
  rw [← h.half_le_iff]
  simp [roundsUp, hz]

end InUnits

/-- The whole units that the one rounding takes. -/
def Mag.units (x : Mag) (md : Mode) (neg : Bool) (draw : ℕ) (q : ℤ) : ℕ :=
  if roundsUp md neg ((x.split q).1 % 2 == 1) (x.split q).2.1 (x.split q).2.2 draw then (x.split q).1 + 1 else (x.split q).1

/-- The part of a unit that is left over decides as the mode says. -/
theorem InUnits.takes {k a : ℕ} {low : Bool} {t : ℝ} (h : InUnits k a low t) {md : Mode} (hmd : md.fixed) (neg : Bool) (draw : ℕ) :
    md.takes neg t (if roundsUp md neg (k % 2 == 1) a low draw then k + 1 else k) := by
  by_cases hi : (a != 0 || low) = true
  case neg =>
    have hk : (k : ℝ) = t := not_not.mp fun hne => hi (h.inexact_iff.mpr hne)
    have hz : roundsUp md neg (k % 2 == 1) a low draw = false := by
      have : (a = 0 && !low) = true := by revert hi; cases low <;> simp
      simp [roundsUp, this]
    simpa [hz] using Mode.takes_self md neg hk.symm
  have h1 := h.floor_lt hi
  have h2 := h.lt_floor_succ
  have hz := InUnits.not_exact hi
  have hdn : |(k : ℝ) - t| = t - k := by rw [abs_sub_comm, abs_of_pos (by linarith)]
  have hup : |((k + 1 : ℕ) : ℝ) - t| = k + 1 - t := by rw [abs_of_pos] <;> push_cast <;> linarith
  unfold Mode.takes
  cases md with
  | ne =>
    have hr := h.roundsUp_ne_iff neg (k % 2 == 1) draw hi
    split
    · next hu =>
      rw [hup]
      refine ⟨by linarith, (hr.mp hu).imp (fun hu => by linarith) fun ⟨ht, ho⟩ => ⟨by linarith, ?_⟩⟩
      have := beq_iff_eq.mp ho
      omega
    · next hu =>
      rw [hdn]
      rw [hr, not_or, not_lt, not_and, beq_iff_eq, Nat.mod_two_not_eq_one] at hu
      exact ⟨by linarith, (lt_or_eq_of_le hu.1).imp (fun hl => by linarith) fun he => ⟨by linarith, hu.2 he⟩⟩
  | na =>
    have hr := h.roundsUp_na_iff neg (k % 2 == 1) draw hi
    split
    · next hu =>
      rw [hup]
      refine ⟨by linarith, (lt_or_eq_of_le (hr.mp hu)).imp (fun hl => by linarith) fun he => ⟨by linarith, by push_cast; linarith⟩⟩
    · next hu =>
      rw [hdn]
      rw [hr, not_le] at hu
      exact ⟨by linarith, .inl (by linarith)⟩
  | tz =>
    have hu : roundsUp .tz neg (k % 2 == 1) a low draw = false := by simp [roundsUp]
    simp only [hu, Bool.false_eq_true, if_false, hdn]
    exact ⟨by linarith, h1.le⟩
  | up =>
    have hu : roundsUp .up neg (k % 2 == 1) a low draw = !neg := by simp [roundsUp, hz]
    cases neg with
    | true => exact ⟨by simp [hu, hdn]; linarith, by simp [hu, h1.le]⟩
    | false => exact ⟨by simp only [hu, Bool.not_false, if_true, hup]; linarith, by simp [hu, h2.le]⟩
  | dn =>
    have hu : roundsUp .dn neg (k % 2 == 1) a low draw = neg := by simp [roundsUp, hz]
    cases neg with
    | true => exact ⟨by simp only [hu, if_true, hup]; linarith, by simp [hu, h2.le]⟩
    | false => exact ⟨by simp [hu, hdn]; linarith, by simp [hu, h1.le]⟩
  | st | wide => simp [Mode.fixed] at hmd

end Sys2Proof.Machine
end

section
/-! PROOF. The values that an IEEE format holds (03 R80 to R82): the units of each binade, and nothing between two of them. -/

namespace Sys2Proof.Machine

/-! ## Signs -/

/-- The factor of a sign. -/
def signFactor (neg : Bool) : ℝ := if neg then -1 else 1

@[simp] theorem signFactor_true : signFactor true = -1 := rfl
@[simp] theorem signFactor_false : signFactor false = 1 := rfl

@[simp] theorem signFactor_mul_self (neg : Bool) : signFactor neg * signFactor neg = 1 := by cases neg <;> norm_num

@[simp] theorem signFactor_mul_cancel (neg : Bool) (x : ℝ) : signFactor neg * (signFactor neg * x) = x := by
  rw [← mul_assoc, signFactor_mul_self, one_mul]

@[simp] theorem abs_signFactor_mul (neg : Bool) (x : ℝ) : |signFactor neg * x| = |x| := by cases neg <;> simp

theorem signFactor_bne (a b : Bool) : signFactor (a != b) = signFactor a * signFactor b := by cases a <;> cases b <;> norm_num

theorem signFactor_not (a : Bool) : signFactor (!a) = -signFactor a := by cases a <;> norm_num

theorem signFactor_ne_zero (neg : Bool) : signFactor neg ≠ 0 := by cases neg <;> norm_num

theorem Num.val_fin (neg : Bool) (m : ℕ) (e : ℤ) : ((Num.fin neg m e).val : ℝ) = signFactor neg * (m * 2 ^ e) := by
  cases neg <;> simp [Num.val]

/-! ## IEEE formats -/

/-- What the formats of 03 Table 3.1 and e5m2 share: no `fn`, room for each field, and binades from qmin up to emax. -/
structure Fmt.Ieee (F : Fmt) : Prop where
  fn : F.fn = false
  fb_pos : 1 ≤ F.fb
  fb_le : F.fb ≤ 52
  width : F.fb + 3 ≤ F.w
  width_le : F.w ≤ 64
  top : F.emax - F.fb = F.qmin + F.emask - 2
  bias_pos : 1 ≤ F.bias
  bias : F.bias < F.emask

theorem Fmt.ieee_of_mem {F : Fmt} (h : F ∈ [Fmt.f64, Fmt.f32, Fmt.f16, Fmt.bf16, Fmt.e5m2]) : F.Ieee := by
  simp only [List.mem_cons, List.not_mem_nil, or_false] at h
  rcases h with rfl | rfl | rfl | rfl | rfl <;> constructor <;> decide

namespace Fmt.Ieee

variable {F : Fmt}

/-- The sign, exponent and fraction fields fill the word. -/
theorem fields (h : F.Ieee) : (F.emask + 1) * 2 ^ F.fb = 2 ^ (F.w - 1) := by
  rw [Fmt.emask, Nat.sub_add_cancel Nat.one_le_two_pow, ← pow_add]
  congr 1
  have := h.width
  omega

theorem emask_ge (h : F.Ieee) : 3 ≤ F.emask := by
  have hw := h.width
  have : 2 ^ 2 ≤ 2 ^ (F.w - 1 - F.fb) := Nat.pow_le_pow_right (by norm_num) (by omega)
  unfold Fmt.emask
  omega

theorem half_word (h : F.Ieee) : 2 ^ F.w = 2 * 2 ^ (F.w - 1) := by
  have := h.width
  rw [← pow_succ', Nat.sub_add_cancel (by omega)]

theorem fields_lt (h : F.Ieee) {ex fr : ℕ} (hex : ex ≤ F.emask) (hfr : fr < 2 ^ F.fb) : ex * 2 ^ F.fb + fr < 2 ^ (F.w - 1) := by
  have h1 := h.fields
  have h2 := Nat.mul_le_mul_right (2 ^ F.fb) hex
  rw [add_mul, one_mul] at h1
  omega

theorem bits_lt (h : F.Ieee) (neg : Bool) {B : ℕ} (hB : B < 2 ^ (F.w - 1)) : F.signBit neg + B < 2 ^ F.w := by
  rw [h.half_word]
  unfold Fmt.signBit
  split <;> omega

theorem testBit_bits (neg : Bool) {B : ℕ} (hB : B < 2 ^ (F.w - 1)) : (F.signBit neg + B).testBit (F.w - 1) = neg := by
  unfold Fmt.signBit
  cases neg with
  | true => rw [if_pos rfl, Nat.testBit_two_pow_add_eq, Nat.testBit_lt_two_pow hB, Bool.not_false]
  | false => rw [if_neg (by decide), Nat.zero_add, Nat.testBit_lt_two_pow hB]

/-- The fields of bits put together from a sign, an exponent field and a fraction. -/
theorem fields_bits (h : F.Ieee) (neg : Bool) {ex fr : ℕ} (hex : ex ≤ F.emask) (hfr : fr < 2 ^ F.fb) :
    (F.signBit neg + (ex * 2 ^ F.fb + fr)) / 2 ^ F.fb % 2 ^ (F.w - 1 - F.fb) = ex ∧
      (F.signBit neg + (ex * 2 ^ F.fb + fr)) % 2 ^ F.fb = fr := by
  have hsign : ∃ c, F.signBit neg = c * (F.emask + 1) * 2 ^ F.fb := by
    cases neg with
    | true => exact ⟨1, by rw [one_mul, h.fields]; rfl⟩
    | false => exact ⟨0, by simp [Fmt.signBit]⟩
  obtain ⟨c, hc⟩ := hsign
  have hdec : F.signBit neg + (ex * 2 ^ F.fb + fr) = 2 ^ F.fb * (ex + c * (F.emask + 1)) + fr := by rw [hc]; ring
  have hem : 2 ^ (F.w - 1 - F.fb) = F.emask + 1 := by rw [Fmt.emask, Nat.sub_add_cancel Nat.one_le_two_pow]
  constructor
  · rw [hdec, Nat.mul_add_div (by positivity), Nat.div_eq_of_lt hfr, Nat.add_zero, hem, Nat.add_mul_mod_self_right,
      Nat.mod_eq_of_lt (by omega)]
  · rw [hdec, Nat.mul_add_mod, Nat.mod_eq_of_lt hfr]

theorem decode_bits (h : F.Ieee) (neg : Bool) {ex fr : ℕ} (hex : ex < F.emask) (hfr : fr < 2 ^ F.fb) :
    F.decode (F.signBit neg + (ex * 2 ^ F.fb + fr)) =
      .fin neg (if ex = 0 then fr else fr + 2 ^ F.fb) (F.qmin + (ex - 1 : ℕ)) := by
  obtain ⟨hexf, hfrf⟩ := h.fields_bits neg hex.le hfr
  have hB := h.fields_lt hex.le hfr
  unfold Fmt.decode
  rw [Nat.mod_eq_of_lt (h.bits_lt neg hB)]
  simp only [hexf, hfrf, testBit_bits neg hB, h.fn, Bool.false_eq_true, if_false, if_neg hex.ne]
  split
  · next h0 => simp [h0]
  · rfl

theorem decode_bits_top (h : F.Ieee) (neg : Bool) {fr : ℕ} (hfr : fr < 2 ^ F.fb) :
    F.decode (F.signBit neg + (F.emask * 2 ^ F.fb + fr)) =
      if fr = 0 then .inf neg else .nan neg (!fr.testBit (F.fb - 1)) (fr * 2 ^ (52 - F.fb)) := by
  obtain ⟨hexf, hfrf⟩ := h.fields_bits neg le_rfl hfr
  have hB := h.fields_lt le_rfl hfr
  unfold Fmt.decode
  rw [Nat.mod_eq_of_lt (h.bits_lt neg hB)]
  simp only [hexf, hfrf, testBit_bits neg hB, h.fn, Bool.false_eq_true, if_false, if_true]

/-- Any bits are put together so. -/
theorem exists_fields (h : F.Ieee) {b : ℕ} (hb : b < 2 ^ F.w) :
    ∃ neg ex fr, ex ≤ F.emask ∧ fr < 2 ^ F.fb ∧ b = F.signBit neg + (ex * 2 ^ F.fb + fr) := by
  have hpos : 0 < 2 ^ F.fb := by positivity
  have key : ∀ neg B, B < 2 ^ (F.w - 1) → b = F.signBit neg + B →
      ∃ neg ex fr, ex ≤ F.emask ∧ fr < 2 ^ F.fb ∧ b = F.signBit neg + (ex * 2 ^ F.fb + fr) := by
    intro neg B hB hbB
    refine ⟨neg, B / 2 ^ F.fb, B % 2 ^ F.fb, ?_, Nat.mod_lt _ hpos, by rw [hbB, Nat.div_add_mod']⟩
    rw [← h.fields] at hB
    exact Nat.lt_succ_iff.mp (Nat.div_lt_of_lt_mul (by rw [Nat.mul_comm]; exact hB))
  by_cases hs : b < 2 ^ (F.w - 1)
  · exact key false b hs (by simp [Fmt.signBit])
  · rw [h.half_word] at hb
    exact key true (b - 2 ^ (F.w - 1)) (by omega) (by simp [Fmt.signBit]; omega)

/-- The bits of a finite number, by their fields. -/
theorem exists_fields_of_finite (h : F.Ieee) {b : ℕ} (hb : F.finite b = true) :
    ∃ neg ex fr, ex < F.emask ∧ fr < 2 ^ F.fb ∧ b = F.signBit neg + (ex * 2 ^ F.fb + fr) := by
  unfold Fmt.finite at hb
  rw [Bool.and_eq_true, decide_eq_true_iff] at hb
  obtain ⟨hlt, hfin⟩ := hb
  obtain ⟨neg, ex, fr, hex, hfr, rfl⟩ := h.exists_fields hlt
  refine ⟨neg, ex, fr, lt_of_le_of_ne hex ?_, hfr, rfl⟩
  rintro rfl
  rw [h.decode_bits_top neg hfr] at hfin
  split at hfin
  · next e =>
    split at e <;> cases e
  · cases hfin

theorem finite_bits (h : F.Ieee) (neg : Bool) {ex fr : ℕ} (hex : ex < F.emask) (hfr : fr < 2 ^ F.fb) :
    F.finite (F.signBit neg + (ex * 2 ^ F.fb + fr)) = true := by
  unfold Fmt.finite
  rw [h.decode_bits neg hex hfr]
  simpa using h.bits_lt neg (h.fields_lt hex.le hfr)

theorem val_bits (h : F.Ieee) (neg : Bool) {ex fr : ℕ} (hex : ex < F.emask) (hfr : fr < 2 ^ F.fb) :
    (F.val (F.signBit neg + (ex * 2 ^ F.fb + fr)) : ℝ) =
      signFactor neg * ((if ex = 0 then fr else fr + 2 ^ F.fb : ℕ) * 2 ^ (F.qmin + (ex - 1 : ℕ))) := by
  rw [Fmt.val, h.decode_bits neg hex hfr, Num.val_fin]

/-- A finite number is less than 2^p units of its binade, and at least 2^fb above the lowest one. -/
theorem abs_val_eq (h : F.Ieee) {b : ℕ} (hb : F.finite b = true) :
    ∃ M d : ℕ, |(F.val b : ℝ)| = M * 2 ^ (F.qmin + d) ∧ M + 1 ≤ 2 ^ (F.fb + 1) ∧ d + 2 ≤ F.emask := by
  obtain ⟨neg, ex, fr, hex, hfr, rfl⟩ := h.exists_fields_of_finite hb
  refine ⟨if ex = 0 then fr else fr + 2 ^ F.fb, ex - 1, ?_, ?_, by have := h.emask_ge; omega⟩
  · rw [h.val_bits neg hex hfr, abs_signFactor_mul, abs_of_nonneg (by positivity)]
  · rw [pow_succ]
    split <;> omega

theorem parity_bits (h : F.Ieee) (neg : Bool) (j k : ℕ) : (F.signBit neg + (j * 2 ^ F.fb + k)) % 2 = k % 2 := by
  have hw := h.width
  have hs : 2 ∣ F.signBit neg := by
    unfold Fmt.signBit
    split
    · exact dvd_pow_self 2 (by omega)
    · exact dvd_zero 2
  have hb : 2 ∣ j * 2 ^ F.fb := Dvd.dvd.mul_left (dvd_pow_self 2 (Nat.one_le_iff_ne_zero.mp h.fb_pos)) j
  omega

/-- The bits of whole units of a binade, all of them where the next binade begins. -/
theorem val_units (h : F.Ieee) (neg : Bool) {j k : ℕ} (hk : k ≤ 2 ^ (F.fb + 1)) (hj : j = 0 ∨ 2 ^ F.fb ≤ k)
    (hB : j * 2 ^ F.fb + k < F.infBits) :
    F.finite (F.signBit neg + (j * 2 ^ F.fb + k)) = true ∧
      (F.val (F.signBit neg + (j * 2 ^ F.fb + k)) : ℝ) = signFactor neg * (k * 2 ^ (F.qmin + j)) := by
  have key : ∀ ex fr, fr < 2 ^ F.fb → j * 2 ^ F.fb + k = ex * 2 ^ F.fb + fr →
      ((if ex = 0 then fr else fr + 2 ^ F.fb : ℕ) : ℝ) * 2 ^ (F.qmin + (ex - 1 : ℕ)) = k * 2 ^ (F.qmin + j) →
      F.finite (F.signBit neg + (j * 2 ^ F.fb + k)) = true ∧
        (F.val (F.signBit neg + (j * 2 ^ F.fb + k)) : ℝ) = signFactor neg * (k * 2 ^ (F.qmin + j)) := by
    intro ex fr hfr he hv
    rw [he] at hB ⊢
    have hex : ex < F.emask := lt_of_mul_lt_mul_right (lt_of_le_of_lt (Nat.le_add_right _ _) hB) (Nat.zero_le _)
    exact ⟨h.finite_bits neg hex hfr, by rw [h.val_bits neg hex hfr, hv]⟩
  rw [pow_succ] at hk
  by_cases h1 : k < 2 ^ F.fb
  · obtain rfl : j = 0 := hj.resolve_right (by omega)
    exact key 0 k h1 rfl (by simp)
  · by_cases h2 : k < 2 ^ F.fb * 2
    · refine key (j + 1) (k - 2 ^ F.fb) (by omega) (by rw [add_mul]; omega) ?_
      rw [if_neg (by omega), Nat.sub_add_cancel (by omega), Nat.add_sub_cancel]
    · obtain rfl : k = 2 ^ F.fb * 2 := by omega
      refine key (j + 2) 0 (by positivity) (by ring) ?_
      rw [if_neg (by omega), show j + 2 - 1 = j + 1 by omega]
      push_cast
      rw [← add_assoc, zpow_add_one₀ two_ne_zero]
      ring

/-- Nothing that the format holds lies between neighbouring units of a binade, of the lowest one or from 2^fb units on. -/
theorem units_grid (h : F.Ieee) {b : ℕ} (hb : F.finite b = true) {j n : ℕ} (hj : j = 0 ∨ 2 ^ F.fb ≤ n) :
    |(F.val b : ℝ)| ≤ n * 2 ^ (F.qmin + j) ∨ (n + 1) * 2 ^ (F.qmin + j) ≤ |(F.val b : ℝ)| := by
  obtain ⟨M, d, hv, hM, -⟩ := h.abs_val_eq hb
  have hu := zpow_pos (two_pos (α := ℝ)) (F.qmin + j)
  rw [hv]
  by_cases hd : j ≤ d
  · have hs : (2 : ℝ) ^ (F.qmin + d) = (2 ^ (d - j) : ℕ) * 2 ^ (F.qmin + j) := by
      rw [Nat.cast_pow, Nat.cast_ofNat, ← zpow_natCast, ← zpow_add₀ two_ne_zero]
      congr 1
      omega
    rw [hs, ← mul_assoc, ← Nat.cast_mul, mul_le_mul_iff_left₀ hu, mul_le_mul_iff_left₀ hu]
    exact_mod_cast Nat.lt_or_ge n (M * 2 ^ (d - j)) |>.symm
  · left
    have hn : ((2 ^ F.fb : ℕ) : ℝ) ≤ n := by exact_mod_cast hj.resolve_left (by omega)
    have hM : (M : ℝ) ≤ 2 ^ (F.fb + 1) := by exact_mod_cast (Nat.le_succ M).trans hM
    calc (M : ℝ) * 2 ^ (F.qmin + d) ≤ 2 ^ (F.fb + 1) * 2 ^ (F.qmin + j - 1) := by
          gcongr
          · norm_num
          · omega
      _ = (2 ^ F.fb : ℕ) * 2 ^ (F.qmin + j) := by
          rw [zpow_sub_one₀ two_ne_zero]
          push_cast
          ring
      _ ≤ n * 2 ^ (F.qmin + j) := by gcongr

/-- The largest finite magnitude. -/
theorem abs_val_le (h : F.Ieee) {b : ℕ} (hb : F.finite b = true) : |(F.val b : ℝ)| ≤ (2 ^ F.p - 1) * 2 ^ (F.emax - F.fb) := by
  obtain ⟨M, d, hv, hM, hd⟩ := h.abs_val_eq hb
  have hM : (M : ℝ) ≤ 2 ^ F.p - 1 := by
    rw [le_sub_iff_add_le]
    exact_mod_cast hM
  rw [hv, h.top]
  exact mul_le_mul hM (zpow_le_zpow_right₀ one_le_two (by omega)) (by positivity) (M.cast_nonneg.trans hM)

end Fmt.Ieee

end Sys2Proof.Machine
end

section
/-! PROOF. The one rounding (03 R89, R92, Table 3.5): the result holds the units that the mode takes, or lies beyond the format. -/

namespace Sys2Proof.Machine

/-! ## A result among the units of its binade -/

/-- A value in units of 2^q of the side of `neg`. -/
noncomputable def unitsOf (neg : Bool) (q : ℤ) (y : ℝ) : ℝ := signFactor neg * y / 2 ^ q

/-- A finite result `r` of an exact value `x` of the side of `neg`: it holds the `k` units of 2^q that the mode takes, and the format holds
nothing between `n` units and one more, where `x` lies. -/
structure Fmt.Placed (F : Fmt) (md : Mode) (neg : Bool) (x : ℝ) (q : ℤ) (n k r : ℕ) : Prop where
  finite : F.finite r = true
  val : (F.val r : ℝ) = signFactor neg * (k * 2 ^ q)
  parity : r % 2 = k % 2
  takes : md.takes neg (unitsOf neg q x) k
  le : n ≤ unitsOf neg q x
  lt : unitsOf neg q x < n + 1
  grid : ∀ b, F.finite b = true → |(F.val b : ℝ)| ≤ n * 2 ^ q ∨ (n + 1) * 2 ^ q ≤ |(F.val b : ℝ)|

theorem unitsOf_cancel (neg : Bool) (q : ℤ) (y : ℝ) : signFactor neg * (unitsOf neg q y * 2 ^ q) = y := by
  have hu := zpow_pos (two_pos (α := ℝ)) q
  rw [unitsOf, div_mul_cancel₀ _ hu.ne', signFactor_mul_cancel]

theorem unitsOf_inj {neg : Bool} {q : ℤ} {y z : ℝ} : unitsOf neg q y = unitsOf neg q z ↔ y = z :=
  ⟨fun h => by rw [← unitsOf_cancel neg q y, h, unitsOf_cancel], fun h => by rw [h]⟩

theorem unitsOf_lt {neg : Bool} {q : ℤ} {y z : ℝ} (h : y < z) :
    if neg then unitsOf neg q z < unitsOf neg q y else unitsOf neg q y < unitsOf neg q z := by
  have hu := zpow_pos (two_pos (α := ℝ)) q
  cases neg
  · simpa [unitsOf, div_lt_div_iff_of_pos_right hu] using h
  · simpa [unitsOf, neg_div, div_lt_div_iff_of_pos_right hu] using h

theorem abs_sub_unitsOf (neg : Bool) (q : ℤ) (y z : ℝ) : |y - z| = |unitsOf neg q y - unitsOf neg q z| * 2 ^ q := by
  have hu := zpow_pos (two_pos (α := ℝ)) q
  rw [unitsOf, unitsOf, ← sub_div, ← mul_sub, abs_div, abs_signFactor_mul, abs_of_pos hu, div_mul_cancel₀ _ hu.ne']

theorem abs_unitsOf (neg : Bool) (q : ℤ) (y : ℝ) : |y| = |unitsOf neg q y| * 2 ^ q := by
  simpa [unitsOf] using abs_sub_unitsOf neg q y 0

namespace Fmt.Placed

variable {F : Fmt} {md : Mode} {neg : Bool} {x : ℝ} {q : ℤ} {n k r : ℕ}

theorem unitsOf_val (h : F.Placed md neg x q n k r) : unitsOf neg q (F.val r) = k := by
  have hu := zpow_pos (two_pos (α := ℝ)) q
  rw [unitsOf, h.val, signFactor_mul_cancel, mul_div_cancel_right₀ _ hu.ne']

theorem near (h : F.Placed md neg x q n k r) : |(k : ℝ) - unitsOf neg q x| < 1 := h.takes.1

theorem unitsOf_grid (h : F.Placed md neg x q n k r) {b : ℕ} (hb : F.finite b = true) :
    unitsOf neg q (F.val b) ≤ n ∨ n + 1 ≤ unitsOf neg q (F.val b) := by
  have hu := zpow_pos (two_pos (α := ℝ)) q
  have hg := h.grid b hb
  rw [abs_unitsOf neg q, mul_le_mul_iff_left₀ hu, mul_le_mul_iff_left₀ hu] at hg
  rcases hg with hg | hg
  · exact .inl ((le_abs_self _).trans hg)
  · rcases le_abs'.mp hg with hg | hg
    · exact .inl (by linarith [(n.cast_nonneg : (0 : ℝ) ≤ n)])
    · exact .inr hg

theorem eq_iff_floor (h : F.Placed md neg x q n k r) : (k : ℝ) = unitsOf neg q x ↔ (n : ℝ) = unitsOf neg q x :=
  eq_iff_floor_eq h.le h.lt h.near

/-- The result is one of the two units around the value. -/
theorem units_cases (h : F.Placed md neg x q n k r) : k = n ∨ k = n + 1 := by
  have h1 := abs_lt.mp h.near
  have h2 : (n : ℝ) ≤ unitsOf neg q x := h.le
  have h3 : unitsOf neg q x < n + 1 := h.lt
  have h4 : (n : ℝ) < k + 1 := by linarith
  have h5 : (k : ℝ) < n + 2 := by linarith
  have h4 : n < k + 1 := by exact_mod_cast h4
  have h5 : k < n + 2 := by exact_mod_cast h5
  omega

/-- Where the value is not whole, the result is the end below or above it. -/
theorem eq_or_between (h : F.Placed md neg x q n k r) :
    (k : ℝ) = unitsOf neg q x ∨ (n < unitsOf neg q x ∧ unitsOf neg q x < n + 1 ∧ ((k : ℝ) = n ∨ (k : ℝ) = n + 1)) := by
  by_cases hn : unitsOf neg q x = n
  · exact .inl (h.eq_iff_floor.mpr hn.symm)
  · exact .inr ⟨lt_of_le_of_ne h.le (Ne.symm hn), h.lt, by exact_mod_cast h.units_cases⟩

theorem unitsOf_not_between (h : F.Placed md neg x q n k r) {b : ℕ} (hb : F.finite b = true) :
    ¬ (k < unitsOf neg q (F.val b) ∧ unitsOf neg q (F.val b) < unitsOf neg q x) ∧
      ¬ (unitsOf neg q x < unitsOf neg q (F.val b) ∧ unitsOf neg q (F.val b) < k) := by
  have hg := h.unitsOf_grid hb
  rcases h.eq_or_between with he | ⟨h1, h2, he | he⟩
  · rw [he]
    exact ⟨fun h => lt_asymm h.1 h.2, fun h => lt_asymm h.1 h.2⟩
  all_goals
    rw [he]
    constructor <;> rintro ⟨h3, h4⟩ <;> rcases hg with hg | hg <;> linarith

/-- Nothing that the format holds lies between the value and its result. -/
theorem not_between (h : F.Placed md neg x q n k r) {b : ℕ} (hb : F.finite b = true) :
    ¬ ((F.val r : ℝ) < F.val b ∧ (F.val b : ℝ) < x) ∧ ¬ (x < F.val b ∧ (F.val b : ℝ) < F.val r) := by
  obtain ⟨h1, h2⟩ := h.unitsOf_not_between hb
  rw [← h.unitsOf_val] at h1 h2
  constructor <;> rintro ⟨h3, h4⟩ <;> have h3 := unitsOf_lt (neg := neg) (q := q) h3 <;>
    have h4 := unitsOf_lt (neg := neg) (q := q) h4 <;> cases neg
  · exact h1 ⟨h3, h4⟩
  · exact h2 ⟨h4, h3⟩
  · exact h2 ⟨h3, h4⟩
  · exact h1 ⟨h4, h3⟩

/-- A value that the format holds is its own result. -/
theorem val_eq_of_held (h : F.Placed md neg x q n k r) {b : ℕ} (hb : F.finite b = true) (hx : (F.val b : ℝ) = x) : (F.val r : ℝ) = x := by
  rw [← unitsOf_inj (neg := neg) (q := q), h.unitsOf_val]
  have hg := h.unitsOf_grid hb
  rw [hx] at hg
  rcases h.eq_or_between with he | ⟨h1, h2, -⟩
  · exact he
  · rcases hg with hg | hg <;> linarith

/-- The result is exact where the value is whole units. -/
theorem val_eq_iff (h : F.Placed md neg x q n k r) : (F.val r : ℝ) = x ↔ (n : ℝ) = unitsOf neg q x := by
  rw [← unitsOf_inj (neg := neg) (q := q), h.unitsOf_val, h.eq_iff_floor]

/-- Where at most half a unit was given up, no other value is nearer, and only a tie is as near. -/
theorem nearest (h : F.Placed md neg x q n k r) (hk : |(k : ℝ) - unitsOf neg q x| ≤ 1 / 2) {b : ℕ} (hb : F.finite b = true) :
    |(F.val r : ℝ) - x| < |(F.val b : ℝ) - x| ∨ (F.val b : ℝ) = F.val r ∨
      (|(F.val r : ℝ) - x| = |(F.val b : ℝ) - x| ∧ |(k : ℝ) - unitsOf neg q x| = 1 / 2) := by
  have hu := zpow_pos (two_pos (α := ℝ)) q
  rw [abs_sub_unitsOf neg q, abs_sub_unitsOf neg q (F.val b), mul_lt_mul_iff_left₀ hu, mul_left_inj' hu.ne',
    ← unitsOf_inj (neg := neg) (q := q), h.unitsOf_val]
  have hg := h.unitsOf_grid hb
  generalize unitsOf neg q (F.val b) = z at *
  rcases h.eq_or_between with he | ⟨h1, h2, he⟩
  · rw [he, sub_self, abs_zero, abs_pos]
    exact (em (z = unitsOf neg q x)).symm.imp sub_ne_zero.mpr .inl
  · have hlo : z ≤ n → |z - unitsOf neg q x| = unitsOf neg q x - z := fun hz => by
      rw [abs_sub_comm, abs_of_pos (by linarith)]
    have hhi : n + 1 ≤ z → |z - unitsOf neg q x| = z - unitsOf neg q x := fun hz => abs_of_pos (by linarith)
    rcases he with he | he <;> rw [he] at hk ⊢
    · rw [abs_sub_comm, abs_of_pos (by linarith)] at hk ⊢
      rcases hg with hg | hg
      · rw [hlo hg]
        exact (lt_or_eq_of_le hg).imp (fun _ => by linarith) .inl
      · rw [hhi hg]
        have hle : unitsOf neg q x - n ≤ z - unitsOf neg q x := by linarith
        exact (lt_or_eq_of_le hle).imp id fun e => .inr ⟨e, by linarith⟩
    · rw [abs_of_pos (by linarith)] at hk ⊢
      rcases hg with hg | hg
      · rw [hlo hg]
        have hle : n + 1 - unitsOf neg q x ≤ unitsOf neg q x - z := by linarith
        exact (lt_or_eq_of_le hle).imp id fun e => .inr ⟨e, by linarith⟩
      · rw [hhi hg]
        exact (lt_or_eq_of_le hg).imp (fun _ => by linarith) fun e => .inl e.symm

theorem abs_val (h : F.Placed md neg x q n k r) : |(F.val r : ℝ)| = k * 2 ^ q := by
  rw [h.val, abs_signFactor_mul, abs_of_nonneg (by positivity)]

theorem abs_eq (h : F.Placed md neg x q n k r) : |x| = unitsOf neg q x * 2 ^ q := by
  rw [abs_unitsOf neg q, abs_of_nonneg (n.cast_nonneg.trans h.le)]

theorem half (h : F.Placed md neg x q n k r) (hmd : md = .ne ∨ md = .na) : |(k : ℝ) - unitsOf neg q x| ≤ 1 / 2 := by
  rcases hmd with rfl | rfl <;> exact h.takes.2.elim le_of_lt fun e => e.1.le

/-- Ties to even. -/
theorem nearest_even (h : F.Placed .ne neg x q n k r) {b : ℕ} (hb : F.finite b = true) :
    |(F.val r : ℝ) - x| < |(F.val b : ℝ) - x| ∨ (F.val b : ℝ) = F.val r ∨ (|(F.val r : ℝ) - x| = |(F.val b : ℝ) - x| ∧ r % 2 = 0) :=
  (h.nearest (h.half (.inl rfl)) hb).imp_right <| Or.imp_right fun ⟨he, ht⟩ =>
    ⟨he, h.parity ▸ (h.takes.2.resolve_left (not_lt.mpr ht.ge)).2⟩

/-- Ties away from zero. -/
theorem nearest_away (h : F.Placed .na neg x q n k r) {b : ℕ} (hb : F.finite b = true) :
    |(F.val r : ℝ) - x| < |(F.val b : ℝ) - x| ∨ (F.val b : ℝ) = F.val r ∨
      (|(F.val r : ℝ) - x| = |(F.val b : ℝ) - x| ∧ |x| < |(F.val r : ℝ)|) :=
  (h.nearest (h.half (.inr rfl)) hb).imp_right <| Or.imp_right fun ⟨he, ht⟩ => ⟨he, by
    rw [h.abs_eq, h.abs_val]
    exact mul_lt_mul_of_pos_right (h.takes.2.resolve_left (not_lt.mpr ht.ge)).2 (zpow_pos two_pos q)⟩

theorem abs_val_le (h : F.Placed .tz neg x q n k r) : |(F.val r : ℝ)| ≤ |x| := by
  rw [h.abs_val, h.abs_eq]
  exact mul_le_mul_of_nonneg_right h.takes.2 (zpow_pos two_pos q).le

theorem le_val (h : F.Placed .up neg x q n k r) : x ≤ F.val r := by
  refine not_lt.mp fun hlt => ?_
  have h1 := unitsOf_lt (neg := neg) (q := q) hlt
  have h2 := h.takes.2
  rw [h.unitsOf_val] at h1
  cases neg
  · exact lt_irrefl _ (h1.trans_le h2)
  · exact lt_irrefl _ (h1.trans_le h2)

theorem val_le (h : F.Placed .dn neg x q n k r) : (F.val r : ℝ) ≤ x := by
  refine not_lt.mp fun hlt => ?_
  have h1 := unitsOf_lt (neg := neg) (q := q) hlt
  have h2 := h.takes.2
  rw [h.unitsOf_val] at h1
  cases neg
  · exact lt_irrefl _ (h1.trans_le h2)
  · exact lt_irrefl _ (h1.trans_le h2)

/-- A placed result of a rational value is the one of 03 Table 3.5. -/
theorem roundsTo {x : ℚ} (h : F.Placed md neg (x : ℝ) q n k r) (hmd : md.fixed) : F.roundsTo md x r := by
  refine ⟨h.finite, fun b hb hx => by exact_mod_cast h.val_eq_of_held hb (by exact_mod_cast hx),
    fun b hb => by exact_mod_cast h.not_between hb, ?_⟩
  cases md with
  | ne => exact fun b hb => by exact_mod_cast h.nearest_even hb
  | na => exact fun b hb => by exact_mod_cast h.nearest_away hb
  | tz => exact_mod_cast h.abs_val_le
  | up => exact_mod_cast h.le_val
  | dn => exact_mod_cast h.val_le
  | st | wide => simp [Mode.fixed] at hmd

end Fmt.Placed

/-! ## Results and flags -/

/-- A result beyond the format: OF and NX, and an infinity or the largest finite value as the mode asks (03 R92). -/
structure Fmt.Beyond (F : Fmt) (md : Mode) (neg : Bool) (x : ℝ) (r : ℕ × BitVec 5) : Prop where
  above : ∀ b, F.finite b = true → |(F.val b : ℝ)| < |x|
  flags : r.2 = 5
  bits : r.1 = F.signBit neg +
    if md = .tz ∨ (md = .up ∧ neg = true) ∨ (md = .dn ∧ neg = false) then F.infBits - 1 else F.infBits

/-- What the one rounding of an exact value `x` of the side of `neg` gives. -/
def Fmt.Rounded (F : Fmt) (md : Mode) (neg : Bool) (x : ℝ) (r : ℕ × BitVec 5) : Prop :=
  (r.2.getLsbD 2 = false ∧ (∃ q n k, F.Placed md neg x q n k r.1) ∧ (r.2.getLsbD 0 = true ↔ (F.val r.1 : ℝ) ≠ x)) ∨ F.Beyond md neg x r

theorem Fmt.Rounded.rightly {F : Fmt} {md : Mode} {neg : Bool} {x : ℚ} {r : ℕ × BitVec 5} (h : F.Rounded md neg x r) (hmd : md.fixed) :
    F.rightly md neg x r := by
  rcases h with ⟨hof, ⟨q, n, k, hp⟩, hnx⟩ | ⟨hab, hfl, hbits⟩
  · exact ⟨fun _ => ⟨hp.roundsTo hmd, by exact_mod_cast hnx⟩, fun he => Bool.noConfusion (hof.symm.trans he)⟩
  · exact ⟨fun he => absurd (hfl ▸ he : (5 : BitVec 5).getLsbD 2 = false) (by decide),
      fun _ => ⟨fun b hb => by exact_mod_cast hab b hb, hfl, hbits⟩⟩

/-! ## The rounding itself -/

/-- The exponent of a unit of the binade of a magnitude, not below the lowest one. -/
def Fmt.unitExp (F : Fmt) (x : Mag) : ℤ := max ((Nat.log2 x.m : ℤ) + x.e - F.fb) F.qmin

/-- Whether the units taken lie beyond the largest binade. -/
def Fmt.overflows (F : Fmt) (md : Mode) (draw : ℕ) (neg : Bool) (x : Mag) : Bool :=
  decide (F.emax - F.fb < F.unitExp x) || (F.unitExp x == F.emax - F.fb && x.units md neg draw (F.unitExp x) == 2 ^ F.p)

theorem Fmt.round_of_overflows {F : Fmt} (hF : F.fn = false) {md : Mode} {draw : ℕ} {neg : Bool} {x : Mag}
    (h : F.overflows md draw neg x = true) : F.round md false draw neg x =
      (F.signBit neg + if md = .tz ∨ (md = .up ∧ neg = true) ∨ (md = .dn ∧ neg = false) then F.infBits - 1 else F.infBits, 5) := by
  simp only [Fmt.round, hF, Bool.false_eq_true, if_false, Bool.false_or]
  refine (if_pos h).trans (congrArg₂ Prod.mk (congrArg (F.signBit neg + ·) ?_) rfl)
  have hmax : F.maxBits = F.infBits - 1 := by simp [Fmt.maxBits, hF]
  cases md <;> cases neg <;> simp [hmax]

theorem Fmt.round_of_not_overflows {F : Fmt} (hF : F.fn = false) {md : Mode} {draw : ℕ} {neg : Bool} {x : Mag}
    (h : ¬ F.overflows md draw neg x = true) : ∃ tiny : Bool, F.round md false draw neg x =
      (F.signBit neg + ((F.unitExp x - F.qmin).toNat * 2 ^ F.fb + x.units md neg draw (F.unitExp x)),
        (if ((x.split (F.unitExp x)).2.1 != 0 || (x.split (F.unitExp x)).2.2) then fNX else 0) ||| if tiny then fUF else 0) := by
  simp only [Fmt.round, hF, Bool.false_eq_true, if_false, Bool.false_or, Bool.false_and]
  exact ⟨_, if_neg h⟩

theorem flags_of_inexact (inexact tiny : Bool) :
    ((if inexact then fNX else 0) ||| if tiny then fUF else 0 : BitVec 5).getLsbD 2 = false ∧
      ((if inexact then fNX else 0) ||| if tiny then fUF else 0 : BitVec 5).getLsbD 0 = inexact := by
  cases inexact <;> cases tiny <;> decide

/-- A magnitude that stands for `X`, cut no finer than the format's rounding needs. -/
structure Fmt.Stands (F : Fmt) (x : Mag) (X : ℝ) : Prop where
  pos : 0 < x.m
  cut : CutAt x.m x.e x.st X
  fine : x.st = true → F.fb + 24 ≤ Nat.log2 x.m

theorem Fmt.stands_exact (F : Fmt) {m : ℕ} (hm : 0 < m) (e : ℤ) : F.Stands ⟨m, e, false⟩ (m * 2 ^ e) :=
  ⟨hm, cutAt_self m e, fun h => by cases h⟩

namespace Fmt.Stands

variable {F : Fmt} {x : Mag} {X : ℝ} {md : Mode} {draw : ℕ} {neg : Bool}

theorem value_pos (h : F.Stands x X) : 0 < X := by
  refine lt_of_lt_of_le ?_ h.cut.le
  have := h.pos
  positivity

theorem inUnits (h : F.Stands x X) :
    InUnits (x.split (F.unitExp x)).1 (x.split (F.unitExp x)).2.1 (x.split (F.unitExp x)).2.2 (X / 2 ^ F.unitExp x) :=
  Mag.split_inUnits h.cut fun hst => by
    have h1 := h.fine hst
    have h2 : (Nat.log2 x.m : ℤ) + x.e - F.fb ≤ F.unitExp x := le_max_left _ _
    omega

theorem takes (h : F.Stands x X) (hmd : md.fixed) : md.takes neg (X / 2 ^ F.unitExp x) (x.units md neg draw (F.unitExp x)) :=
  h.inUnits.takes hmd neg draw

/-- A binade holds less than 2^(fb + 1) units. -/
theorem lt_binade (h : F.Stands x X) : X / 2 ^ F.unitExp x < 2 ^ (F.fb + 1) := by
  have hm : (x.m : ℝ) + 1 ≤ 2 ^ (Nat.log2 x.m + 1) := by exact_mod_cast Nat.lt_log2_self
  have he := zpow_pos (two_pos (α := ℝ)) x.e
  rw [div_lt_iff₀ (zpow_pos two_pos _)]
  calc X < (x.m + 1) * 2 ^ x.e := h.cut.lt
    _ ≤ 2 ^ (Nat.log2 x.m + 1) * 2 ^ x.e := by gcongr
    _ = (2 : ℝ) ^ ((Nat.log2 x.m + 1 : ℕ) + x.e) := by rw [zpow_add₀ two_ne_zero, zpow_natCast]
    _ ≤ 2 ^ ((F.fb + 1 : ℕ) + F.unitExp x) := by
      have : (Nat.log2 x.m : ℤ) + x.e - F.fb ≤ F.unitExp x := le_max_left _ _
      exact zpow_le_zpow_right₀ one_le_two (by push_cast; omega)
    _ = 2 ^ (F.fb + 1) * 2 ^ F.unitExp x := by rw [zpow_add₀ two_ne_zero, zpow_natCast]

/-- Above the lowest binade there are at least 2^fb of them. -/
theorem ge_binade (h : F.Stands x X) (hq : F.qmin < F.unitExp x) : 2 ^ F.fb ≤ X / 2 ^ F.unitExp x := by
  have hq' : F.unitExp x = (Nat.log2 x.m : ℤ) + x.e - F.fb := by
    unfold Fmt.unitExp at hq ⊢
    omega
  have hm : (2 : ℝ) ^ Nat.log2 x.m ≤ x.m := by exact_mod_cast Nat.log2_self_le h.pos.ne'
  rw [le_div_iff₀ (zpow_pos two_pos _)]
  calc (2 : ℝ) ^ F.fb * 2 ^ F.unitExp x = 2 ^ ((Nat.log2 x.m : ℤ) + x.e) := by
        rw [hq', ← zpow_natCast, ← zpow_add₀ two_ne_zero]
        congr 1
        ring
    _ = 2 ^ Nat.log2 x.m * 2 ^ x.e := by rw [zpow_add₀ two_ne_zero, zpow_natCast]
    _ ≤ x.m * 2 ^ x.e := by gcongr
    _ ≤ X := h.cut.le

theorem units_cases (x : Mag) (md : Mode) (neg : Bool) (draw : ℕ) (q : ℤ) :
    x.units md neg draw q = (x.split q).1 ∨ x.units md neg draw q = (x.split q).1 + 1 := by
  unfold Mag.units
  split
  · exact .inr rfl
  · exact .inl rfl

theorem floor_le_units (x : Mag) (md : Mode) (neg : Bool) (draw : ℕ) (q : ℤ) : (x.split q).1 ≤ x.units md neg draw q := by
  rcases units_cases x md neg draw q with h | h <;> omega

theorem floor_lt_binade (h : F.Stands x X) : (x.split (F.unitExp x)).1 < 2 ^ (F.fb + 1) := by
  exact_mod_cast lt_of_le_of_lt h.inUnits.floor_le h.lt_binade

theorem floor_ge_binade (h : F.Stands x X) (hq : F.qmin < F.unitExp x) : 2 ^ F.fb ≤ (x.split (F.unitExp x)).1 := by
  have hlt : (2 : ℝ) ^ F.fb < (x.split (F.unitExp x)).1 + 1 := lt_of_le_of_lt (h.ge_binade hq) h.inUnits.lt_floor_succ
  have hlt : 2 ^ F.fb < (x.split (F.unitExp x)).1 + 1 := by exact_mod_cast hlt
  omega

theorem unitExp_eq (F : Fmt) (x : Mag) : F.unitExp x = F.qmin + (F.unitExp x - F.qmin).toNat := by
  have : F.qmin ≤ F.unitExp x := le_max_right _ _
  omega

theorem units_le (h : F.Stands x X) : x.units md neg draw (F.unitExp x) ≤ 2 ^ (F.fb + 1) := by
  have := h.floor_lt_binade
  rcases units_cases x md neg draw (F.unitExp x) with hk | hk <;> omega

theorem lowest_or_full (h : F.Stands x X) : (F.unitExp x - F.qmin).toNat = 0 ∨ 2 ^ F.fb ≤ (x.split (F.unitExp x)).1 :=
  (Nat.eq_zero_or_pos _).imp_right fun hj => h.floor_ge_binade (by omega)

/-- The units taken of a result that does not overflow fit below the bits of an infinity. -/
theorem bits_lt (h : F.Stands x X) (hF : F.Ieee) (ho : ¬ F.overflows md draw neg x = true) :
    (F.unitExp x - F.qmin).toNat * 2 ^ F.fb + x.units md neg draw (F.unitExp x) < F.infBits := by
  have hk := h.units_le (md := md) (neg := neg) (draw := draw)
  have htop := hF.top
  have hmask := hF.emask_ge
  have hq := unitExp_eq F x
  simp only [Fmt.overflows, Bool.or_eq_true, Bool.and_eq_true, decide_eq_true_eq, beq_iff_eq, not_or, not_and, not_lt] at ho
  obtain ⟨hle, hne⟩ := ho
  have hpos : 0 < 2 ^ F.fb := by positivity
  rw [pow_succ] at hk
  rw [Fmt.p, pow_succ] at hne
  generalize (F.unitExp x - F.qmin).toNat = j at *
  generalize x.units md neg draw (F.unitExp x) = k at *
  unfold Fmt.infBits
  by_cases hj : j + 2 = F.emask
  · have hk' := hne (by omega)
    rw [← hj, add_mul]
    omega
  · have hm : (j + 3) * 2 ^ F.fb ≤ F.emask * 2 ^ F.fb := Nat.mul_le_mul_right _ (by omega)
    rw [add_mul] at hm
    omega

/-- A value that overflows lies above everything that the format holds. -/
theorem abs_val_lt (h : F.Stands x X) (hF : F.Ieee) (hmd : md.fixed) (ho : F.overflows md draw neg x = true) {b : ℕ}
    (hb : F.finite b = true) : |(F.val b : ℝ)| < X := by
  refine (hF.abs_val_le hb).trans_lt ?_
  have hu := zpow_pos (two_pos (α := ℝ)) (F.emax - F.fb)
  simp only [Fmt.overflows, Bool.or_eq_true, Bool.and_eq_true, decide_eq_true_eq, beq_iff_eq] at ho
  rcases ho with hq | ⟨hq, hk⟩
  · have hge := h.ge_binade (by have := hF.top; have := hF.emask_ge; omega)
    rw [le_div_iff₀ (zpow_pos two_pos _)] at hge
    calc ((2 : ℝ) ^ F.p - 1) * 2 ^ (F.emax - F.fb) < 2 ^ F.p * 2 ^ (F.emax - F.fb) := by
          gcongr
          linarith
      _ = 2 ^ F.fb * 2 ^ (F.emax - F.fb + 1) := by
          rw [zpow_add_one₀ two_ne_zero, Fmt.p]
          ring
      _ ≤ 2 ^ F.fb * 2 ^ F.unitExp x := by
          gcongr
          · norm_num
          · omega
      _ ≤ X := hge
  · have ht := (h.takes (neg := neg) (draw := draw) hmd).1
    rw [hk, abs_lt] at ht
    push_cast at ht
    rw [← lt_div_iff₀ hu, ← hq]
    linarith

/-- The rounding of an exact value. -/
theorem rounded (h : F.Stands x X) (hF : F.Ieee) (hmd : md.fixed) :
    F.Rounded md neg (signFactor neg * X) (F.round md false draw neg x) := by
  by_cases ho : F.overflows md draw neg x = true
  · right
    rw [F.round_of_overflows hF.fn ho]
    exact ⟨fun b hb => by rw [abs_signFactor_mul, abs_of_pos h.value_pos]; exact h.abs_val_lt hF hmd ho hb, rfl, rfl⟩
  · left
    obtain ⟨tiny, hr⟩ := F.round_of_not_overflows hF.fn ho
    rw [hr]
    have hfloor := h.lowest_or_full
    have hj := hfloor.imp_right fun hn => hn.trans (floor_le_units x md neg draw (F.unitExp x))
    obtain ⟨hfin, hval⟩ := hF.val_units neg h.units_le hj (h.bits_lt hF ho)
    rw [← unitExp_eq F x] at hval
    have ht : unitsOf neg (F.unitExp x) (signFactor neg * X) = X / 2 ^ F.unitExp x := by rw [unitsOf, signFactor_mul_cancel]
    have hp : F.Placed md neg (signFactor neg * X) (F.unitExp x) (x.split (F.unitExp x)).1 (x.units md neg draw (F.unitExp x))
        (F.signBit neg + ((F.unitExp x - F.qmin).toNat * 2 ^ F.fb + x.units md neg draw (F.unitExp x))) := {
      finite := hfin
      val := hval
      parity := hF.parity_bits neg _ _
      takes := ht ▸ h.takes hmd
      le := ht ▸ h.inUnits.floor_le
      lt := ht ▸ h.inUnits.lt_floor_succ
      grid := fun b hb => by simpa only [← unitExp_eq F x] using hF.units_grid hb hfloor }
    obtain ⟨hof, hnx⟩ := flags_of_inexact ((x.split (F.unitExp x)).2.1 != 0 || (x.split (F.unitExp x)).2.2) tiny
    refine ⟨hof, ⟨_, _, _, hp⟩, ?_⟩
    rw [hnx]
    refine h.inUnits.inexact_iff.trans ?_
    rw [← ht]
    exact hp.val_eq_iff.not.symm

end Fmt.Stands

end Sys2Proof.Machine
end

section
/-! PROOF. Sums, products, quotients and fused results are rounded once (09 R242). -/

namespace Sys2Proof.Machine

/-! ## Rounding a signed magnitude -/

theorem Fmt.finish_zero (F : Fmt) (v : FEnv) (neg : Bool) (e : ℤ) : F.finish v neg ⟨0, e, false⟩ = (F.signBit neg, 0) := by
  simp [Fmt.finish]

theorem Fmt.finish_of_pos (F : Fmt) (v : FEnv) (neg : Bool) {x : Mag} (h : 0 < x.m) :
    F.finish v neg x = F.round v.md v.fzo v.draw neg x := by
  simp [Fmt.finish, h.ne']

theorem Fmt.Ieee.signBit_zero {F : Fmt} (hF : F.Ieee) (neg : Bool) : F.finite (F.signBit neg) = true ∧ F.val (F.signBit neg) = 0 := by
  have hB : 0 * 2 ^ F.fb + 0 < F.infBits := by
    rw [Fmt.infBits, Nat.zero_mul]
    exact Nat.mul_pos (by have := hF.emask_ge; omega) (by positivity)
  obtain ⟨hfin, hval⟩ := hF.val_units neg (Nat.zero_le _) (.inl rfl) hB
  simp only [Nat.zero_mul, Nat.add_zero] at hfin hval
  have hval : (F.val (F.signBit neg) : ℝ) = 0 := hval.trans (by simp)
  exact ⟨hfin, by exact_mod_cast hval⟩

/-- A zero of either sign holds a zero result. -/
theorem Fmt.Ieee.rounded_zero {F : Fmt} (hF : F.Ieee) (md : Mode) (side neg : Bool) : F.Rounded md side 0 (F.signBit neg, 0) := by
  obtain ⟨hfin, hval⟩ := hF.signBit_zero neg
  have hpar := hF.parity_bits neg 0 0
  rw [Nat.zero_mul] at hpar
  have ht : unitsOf side F.qmin 0 = 0 := by simp [unitsOf]
  refine .inl ⟨by simp, ⟨F.qmin, 0, 0, ?_⟩, by simp [hval]⟩
  exact {
    finite := hfin
    val := by simp [hval]
    parity := hpar
    takes := md.takes_self side (by simp [ht])
    le := by simp [ht]
    lt := by simp [ht]
    grid := fun b hb => by simpa using hF.units_grid hb (j := 0) (n := 0) (.inl rfl) }

/-- A result of an exact value under an element's mode. -/
def Fmt.rightFor (F : Fmt) (v : FEnv) (x : ℚ) (r : ℕ × BitVec 5) : Prop := F.rightly v.md (decide (x < 0)) x r

section finish

variable {F : Fmt} {v : FEnv} (hF : F.Ieee) (hmd : v.md.fixed) (hfzo : v.fzo = false)
include hF hmd hfzo

theorem Fmt.rightFor_finish {neg : Bool} {x : Mag} {X : ℝ} {y : ℚ} (h : F.Stands x X) (hy : (y : ℝ) = signFactor neg * X) :
    F.rightFor v y (F.finish v neg x) := by
  have hpos := h.value_pos
  have hneg : decide (y < 0) = neg := by
    have hiff : y < 0 ↔ signFactor neg * X < 0 := by rw [← hy]; exact_mod_cast Iff.rfl
    cases neg
    · simpa [hiff] using hpos.le
    · simpa [hiff] using hpos
  rw [Fmt.rightFor, hneg, F.finish_of_pos v neg h.pos, hfzo]
  exact Fmt.Rounded.rightly (hy ▸ h.rounded hF hmd) hmd

omit hfzo in
/-- A zero is exact. -/
theorem Fmt.rightFor_zero (neg : Bool) {y : ℚ} (hy : y = 0) : F.rightFor v y (F.signBit neg, 0) := by
  subst hy
  exact Fmt.Rounded.rightly (by simpa using hF.rounded_zero v.md false neg) hmd

theorem Fmt.rightFor_finish_exact {neg : Bool} {m : ℕ} {e : ℤ} {y : ℚ} (hy : (y : ℝ) = signFactor neg * (m * 2 ^ e)) :
    F.rightFor v y (F.finish v neg ⟨m, e, false⟩) := by
  rcases Nat.eq_zero_or_pos m with rfl | hm
  · rw [F.finish_zero]
    exact Fmt.rightFor_zero hF hmd neg (by simpa using hy)
  · exact Fmt.rightFor_finish hF hmd hfzo (F.stands_exact hm e) hy

end finish

/-! ## Operands -/

theorem Fmt.signOf_mod (F : Fmt) (hw : 0 < F.w) (b : ℕ) : F.signOf (b % 2 ^ F.w) = F.signOf b := by
  simp only [Fmt.signOf, Nat.testBit_mod_two_pow, decide_eq_true (Nat.sub_lt hw one_pos), Bool.true_and]

/-- A flushed operand keeps its sign (03 R95). -/
theorem Fmt.Ieee.signOf_flush {F : Fmt} (hF : F.Ieee) (z : Bool) (b : ℕ) : F.signOf (F.flush z b) = F.signOf b := by
  have hw := hF.width
  rw [← F.signOf_mod (by omega) b, Fmt.flush]
  split
  · have h0 := Fmt.Ieee.testBit_bits (F := F) ((b % 2 ^ F.w).testBit (F.w - 1)) (B := 0) (by positivity)
    rwa [Nat.add_zero] at h0
  · rfl

/-- The value of a flushed operand. -/
def Fmt.operand (F : Fmt) (v : FEnv) (a : ℕ) : ℚ := F.val (F.flush v.fzi a)

theorem Fmt.exists_decode {F : Fmt} {b : ℕ} (hb : F.finite b = true) : ∃ neg m e, F.decode b = .fin neg m e := by
  unfold Fmt.finite at hb
  rw [Bool.and_eq_true] at hb
  obtain ⟨-, hb⟩ := hb
  split at hb
  · next e => exact ⟨_, _, _, e⟩
  · cases hb

theorem Fmt.val_of_decode {F : Fmt} {b m : ℕ} {neg : Bool} {e : ℤ} (h : F.decode b = .fin neg m e) :
    (F.val b : ℝ) = signFactor neg * (m * 2 ^ e) := by
  rw [Fmt.val, h, Num.val_fin]

theorem Fmt.val_eq_zero_iff {F : Fmt} {b m : ℕ} {neg : Bool} {e : ℤ} (h : F.decode b = .fin neg m e) : F.val b = 0 ↔ m = 0 := by
  have hv := Fmt.val_of_decode h
  have hu := zpow_pos (two_pos (α := ℝ)) e
  rw [← Rat.cast_eq_zero (α := ℝ), hv]
  simp [signFactor_ne_zero, hu.ne']

theorem Fmt.operand_of_decode {F : Fmt} {v : FEnv} {a m : ℕ} {neg : Bool} {e : ℤ} (h : F.decode (F.flush v.fzi a) = .fin neg m e) :
    (F.operand v a : ℝ) = signFactor neg * (m * 2 ^ e) := Fmt.val_of_decode h

theorem Fmt.operand_eq_zero_iff {F : Fmt} {v : FEnv} {a m : ℕ} {neg : Bool} {e : ℤ}
    (h : F.decode (F.flush v.fzi a) = .fin neg m e) : F.operand v a = 0 ↔ m = 0 := Fmt.val_eq_zero_iff h

/-- A positive value has no sign and a magnitude. -/
theorem Fmt.pos_of_val_pos {F : Fmt} {b m : ℕ} {neg : Bool} {e : ℤ} (h : F.decode b = .fin neg m e) (h0 : 0 < F.val b) :
    neg = false ∧ 0 < m := by
  refine ⟨?_, Nat.pos_of_ne_zero (mt (Fmt.val_eq_zero_iff h).mpr h0.ne')⟩
  have hv := Fmt.val_of_decode h
  have h0 : (0 : ℝ) < F.val b := by exact_mod_cast h0
  rw [hv] at h0
  cases neg with
  | false => rfl
  | true =>
    have : (0 : ℝ) ≤ m * 2 ^ e := by positivity
    simp only [signFactor_true, neg_one_mul] at h0
    linarith

/-- The bits of a finite number decode to its sign and a magnitude. -/
theorem Fmt.Ieee.decode_finite {F : Fmt} (hF : F.Ieee) {b : ℕ} (hb : F.finite b = true) : ∃ m e, F.decode b = .fin (F.signOf b) m e := by
  obtain ⟨neg, ex, fr, hex, hfr, rfl⟩ := hF.exists_fields_of_finite hb
  have hs : F.signOf (F.signBit neg + (ex * 2 ^ F.fb + fr)) = neg := Fmt.Ieee.testBit_bits neg (hF.fields_lt hex.le hfr)
  exact ⟨_, _, by rw [hs]; exact hF.decode_bits neg hex hfr⟩

theorem Fmt.Ieee.sign_decode {F : Fmt} (hF : F.Ieee) {b : ℕ} (hb : F.finite b = true) : (F.decode b).sign = F.signOf b := by
  obtain ⟨m, e, hd⟩ := hF.decode_finite hb
  rw [hd]
  rfl

theorem Fmt.Ieee.decode_flush {F : Fmt} (hF : F.Ieee) {z : Bool} {b : ℕ} (hb : F.finite (F.flush z b) = true) :
    ∃ m e, F.decode (F.flush z b) = .fin (F.signOf b) m e := by
  obtain ⟨m, e, h⟩ := hF.decode_finite hb
  exact ⟨m, e, by rw [h, hF.signOf_flush]⟩

/-! ## Sums -/

theorem sInt_cast (neg : Bool) (m : ℕ) : ((sInt neg m : ℤ) : ℝ) = signFactor neg * m := by
  cases neg <;> simp [sInt]

/-- The sum over the smaller exponent. -/
def sumInt (na : Bool) (ma : ℕ) (ea : ℤ) (nb : Bool) (mb : ℕ) (eb : ℤ) : ℤ :=
  sInt na ma * 2 ^ (ea - min ea eb).toNat + sInt nb mb * 2 ^ (eb - min ea eb).toNat

theorem shift_cast (neg : Bool) (m : ℕ) {e e' : ℤ} (h : e' ≤ e) :
    ((sInt neg m * 2 ^ (e - e').toNat : ℤ) : ℝ) * 2 ^ e' = signFactor neg * (m * 2 ^ e) := by
  have hd : (2 : ℝ) ^ (e - e').toNat = 2 ^ (e - e') := by
    rw [← zpow_natCast, Int.toNat_of_nonneg (by omega)]
  rw [Int.cast_mul, sInt_cast, Int.cast_pow, Int.cast_ofNat, hd, mul_assoc, mul_assoc, ← zpow_add₀ two_ne_zero, sub_add_cancel]

theorem sumInt_cast (na : Bool) (ma : ℕ) (ea : ℤ) (nb : Bool) (mb : ℕ) (eb : ℤ) :
    ((sumInt na ma ea nb mb eb : ℤ) : ℝ) * 2 ^ min ea eb = signFactor na * (ma * 2 ^ ea) + signFactor nb * (mb * 2 ^ eb) := by
  rw [sumInt, Int.cast_add, add_mul, shift_cast na ma (min_le_left _ _), shift_cast nb mb (min_le_right _ _)]

theorem Fmt.sum_fin (F : Fmt) (v : FEnv) (na : Bool) (ma : ℕ) (ea : ℤ) (nb : Bool) (mb : ℕ) (eb : ℤ) :
    F.sum v (.fin na ma ea) (.fin nb mb eb) =
      if sumInt na ma ea nb mb eb = 0 then (F.signBit (if na = nb then na else decide (v.md = .dn)), 0)
      else F.finish v (decide (sumInt na ma ea nb mb eb < 0)) ⟨(sumInt na ma ea nb mb eb).natAbs, min ea eb, false⟩ := by
  simp only [Fmt.sum, addFin]
  change F.finish v (if sumInt na ma ea nb mb eb = 0 then _ else _ : Bool × Mag).1
    (if sumInt na ma ea nb mb eb = 0 then _ else _ : Bool × Mag).2 = _
  split
  · rw [F.finish_zero]
    simp only [beq_iff_eq]
    rfl
  · rfl

theorem natAbs_cast_eq (z : ℤ) : (z : ℝ) = signFactor (decide (z < 0)) * z.natAbs := by
  rcases lt_or_ge z 0 with h | h
  · rw [decide_eq_true h, signFactor_true, Nat.cast_natAbs, abs_of_neg h]
    simp
  · rw [decide_eq_false h.not_gt, signFactor_false, Nat.cast_natAbs, abs_of_nonneg h]
    simp

section sums

variable {F : Fmt} {v : FEnv} (hF : F.Ieee) (hmd : v.md.fixed) (hfzo : v.fzo = false)

include hF hmd hfzo in
/-- The sum of two finite values, rounded once. -/
theorem Fmt.rightFor_sum {na nb : Bool} {ma mb : ℕ} {ea eb : ℤ} {y : ℚ}
    (hy : (y : ℝ) = signFactor na * (ma * 2 ^ ea) + signFactor nb * (mb * 2 ^ eb)) :
    F.rightFor v y (F.sum v (.fin na ma ea) (.fin nb mb eb)) := by
  rw [← sumInt_cast] at hy
  rw [F.sum_fin]
  split
  · next h0 =>
    rw [h0] at hy
    exact Fmt.rightFor_zero hF hmd _ (by simpa using hy)
  · refine Fmt.rightFor_finish_exact hF hmd hfzo ?_
    rw [hy, natAbs_cast_eq, mul_assoc]

theorem Fmt.sum_zero {na nb : Bool} {ma mb : ℕ} {ea eb : ℤ}
    (h0 : signFactor na * (ma * 2 ^ ea) + signFactor nb * (mb * 2 ^ eb) = 0) :
    F.sum v (.fin na ma ea) (.fin nb mb eb) = (F.signBit (if na = nb then na else decide (v.md = .dn)), 0) := by
  have hu := zpow_pos (two_pos (α := ℝ)) (min ea eb)
  rw [← sumInt_cast, mul_eq_zero, or_iff_left hu.ne', Int.cast_eq_zero] at h0
  rw [F.sum_fin, if_pos h0]

end sums

/-! ## The operations on finite operands -/

section fin

variable {F : Fmt} {v : FEnv} {a b c : ℕ} {na nb nc : Bool} {ma mb mc : ℕ} {ea eb ec : ℤ}
  (ha : F.decode (F.flush v.fzi a) = .fin na ma ea) (hb : F.decode (F.flush v.fzi b) = .fin nb mb eb)
include ha hb

theorem Fmt.add_fin (sub : Bool) : F.add v sub a b = F.sum v (.fin na ma ea) (.fin (nb != sub) mb eb) := by
  cases sub <;> cases nb <;> simp [Fmt.add, ha, hb, Fmt.pickNaN, Num.neg]

theorem Fmt.mul_fin : F.mul v a b = F.finish v (na != nb) ⟨ma * mb, ea + eb, false⟩ := by
  simp [Fmt.mul, ha, hb, Fmt.pickNaN, prodNum]

theorem Fmt.div_fin (hm : mb ≠ 0) :
    F.div v a b = if ma = 0 then (F.signBit (na != nb), 0) else F.finish v (na != nb) (divMag ma ea mb eb) := by
  simp [Fmt.div, ha, hb, Fmt.pickNaN, Num.sign, hm]

theorem Fmt.fma_fin (hc : F.decode (F.flush v.fzi c) = .fin nc mc ec) (np nd : Bool) :
    F.fma v np nd a b c = F.sum v (.fin ((na != nb) != np) (ma * mb) (ea + eb)) (.fin (nc != nd) mc ec) := by
  cases np <;> cases nd <;> simp [Fmt.fma, ha, hb, hc, Fmt.pickNaN, prodNum, Num.neg]

end fin

theorem signFactor_product (na nb : Bool) (ma mb : ℕ) (ea eb : ℤ) :
    signFactor (na != nb) * ((ma * mb : ℕ) * 2 ^ (ea + eb)) = signFactor na * (ma * 2 ^ ea) * (signFactor nb * (mb * 2 ^ eb)) := by
  rw [signFactor_bne, zpow_add₀ two_ne_zero, Nat.cast_mul]
  ring

theorem signFactor_quotient (na nb : Bool) (ma mb : ℕ) (ea eb : ℤ) :
    signFactor na * (ma * 2 ^ ea) / (signFactor nb * (mb * 2 ^ eb)) = signFactor (na != nb) * (ma * 2 ^ ea / (mb * 2 ^ eb)) := by
  cases na <;> cases nb <;> simp [neg_div, div_neg]

/-! ## Quotients -/

/-- The whole quotient of at least 95 bits, with the remainder below it. -/
theorem divMag_stands {F : Fmt} (hF : F.Ieee) {ma mb : ℕ} (hma : 0 < ma) (hmb : 0 < mb) (ea eb : ℤ) :
    F.Stands (divMag ma ea mb eb) (ma * 2 ^ ea / (mb * 2 ^ eb)) := by
  have hbig : 2 ^ 95 ≤ ma * 2 ^ (Nat.log2 mb + 96) / mb := by
    rw [Nat.le_div_iff_mul_le hmb]
    calc 2 ^ 95 * mb ≤ 2 ^ 95 * 2 ^ (Nat.log2 mb + 1) := Nat.mul_le_mul_left _ Nat.lt_log2_self.le
      _ = 1 * 2 ^ (Nat.log2 mb + 96) := by ring
      _ ≤ ma * 2 ^ (Nat.log2 mb + 96) := Nat.mul_le_mul_right _ hma
  have hn := Nat.div_add_mod (ma * 2 ^ (Nat.log2 mb + 96)) mb
  have hr := Nat.mod_lt (ma * 2 ^ (Nat.log2 mb + 96)) hmb
  have hX : (ma * 2 ^ ea / (mb * 2 ^ eb) : ℝ) =
      (ma * 2 ^ (Nat.log2 mb + 96) : ℕ) / mb * 2 ^ (ea - (Nat.log2 mb + 96 : ℕ) - eb) := by
    rw [zpow_sub₀ two_ne_zero, zpow_sub₀ two_ne_zero, zpow_natCast]
    push_cast
    field_simp
  have hu := zpow_pos (two_pos (α := ℝ)) (ea - (Nat.log2 mb + 96 : ℕ) - eb)
  have hmb' : (0 : ℝ) < mb := by exact_mod_cast hmb
  rw [hX, show divMag ma ea mb eb = ⟨ma * 2 ^ (Nat.log2 mb + 96) / mb, ea - (Nat.log2 mb + 96 : ℕ) - eb,
    ma * 2 ^ (Nat.log2 mb + 96) % mb != 0⟩ from rfl]
  generalize ma * 2 ^ (Nat.log2 mb + 96) = n at *
  generalize n / mb = k at *
  generalize n % mb = r at *
  have hn' : (n : ℝ) / mb = k + r / mb := by
    rw [← hn]
    push_cast
    field_simp
  have hr0 : (0 : ℝ) ≤ r / mb := by positivity
  have hr1 : (r : ℝ) / mb < 1 := by rw [div_lt_one hmb']; exact_mod_cast hr
  have hkpos : 0 < k := lt_of_lt_of_le (by positivity) hbig
  refine ⟨hkpos, ⟨?_, ?_, ?_⟩, fun _ => ?_⟩
  · rw [hn']
    exact mul_le_mul_of_nonneg_right (by linarith) hu.le
  · rw [hn']
    exact mul_lt_mul_of_pos_right (by linarith) hu
  · rw [hn', bne_eq_false_iff_eq, mul_left_inj' hu.ne', add_eq_left, div_eq_zero_iff, or_iff_left hmb'.ne', Nat.cast_eq_zero]
  · have := hF.fb_le
    exact (by omega : F.fb + 24 ≤ 95).trans ((Nat.le_log2 hkpos.ne').mpr hbig)

/-! ## Square roots -/

theorem isqrtFrom_spec (n : ℕ) : ∀ i r, r * r ≤ n → n < (r + 2 ^ i) * (r + 2 ^ i) →
    isqrtFrom n i r * isqrtFrom n i r ≤ n ∧ n < (isqrtFrom n i r + 1) * (isqrtFrom n i r + 1)
  | 0, r, hle, hlt => ⟨hle, by simpa [isqrtFrom] using hlt⟩
  | i + 1, r, hle, hlt => by
    have h2 : r + 2 ^ (i + 1) = r + 2 ^ i + 2 ^ i := by ring
    rw [h2] at hlt
    simp only [isqrtFrom]
    split
    · next h => exact isqrtFrom_spec n i _ h hlt
    · next h => exact isqrtFrom_spec n i r hle (not_le.mp h)

theorem isqrt_eq (n : ℕ) : isqrt n = Nat.sqrt n := by
  have h : n < (0 + 2 ^ (Nat.log2 n / 2 + 1)) * (0 + 2 ^ (Nat.log2 n / 2 + 1)) := by
    rw [zero_add, ← pow_add]
    exact Nat.lt_log2_self.trans_le (Nat.pow_le_pow_right two_pos (by omega))
  obtain ⟨h1, h2⟩ := isqrtFrom_spec n _ 0 (Nat.zero_le _) h
  exact (Nat.eq_sqrt.mpr ⟨h1, h2⟩)

/-- The root of a magnitude whose exponent is even. -/
theorem sqrt_stands {F : Fmt} (hF : F.Ieee) {m : ℕ} (hm : 0 < m) (i : ℤ) :
    F.Stands ⟨isqrt (m * 2 ^ 200), i - 100, isqrt (m * 2 ^ 200) * isqrt (m * 2 ^ 200) != m * 2 ^ 200⟩ (√(m * 2 ^ (2 * i))) := by
  have hX : √((m : ℝ) * 2 ^ (2 * i)) = √((m * 2 ^ 200 : ℕ) : ℝ) * 2 ^ (i - 100) := by
    have h2 : (m : ℝ) * 2 ^ (2 * i) = (m * 2 ^ 200 : ℕ) * (2 ^ (i - 100)) ^ 2 := by
      have hi : (2 : ℝ) ^ i = 2 ^ (i - 100) * 2 ^ 100 := by
        rw [← zpow_natCast (2 : ℝ) 100, ← zpow_add₀ two_ne_zero, Nat.cast_ofNat, sub_add_cancel]
      rw [mul_comm 2 i, zpow_mul, hi, Nat.cast_mul, Nat.cast_pow, Nat.cast_ofNat, zpow_ofNat]
      ring
    rw [h2, Real.sqrt_mul (by positivity), Real.sqrt_sq (by positivity)]
  have hbig : 2 ^ 100 ≤ Nat.sqrt (m * 2 ^ 200) := by
    rw [Nat.le_sqrt]
    calc 2 ^ 100 * 2 ^ 100 = 1 * 2 ^ 200 := by norm_num
      _ ≤ m * 2 ^ 200 := Nat.mul_le_mul_right _ hm
  have hu := zpow_pos (two_pos (α := ℝ)) (i - 100)
  rw [hX, isqrt_eq]
  generalize m * 2 ^ 200 = n at *
  have hkpos : 0 < Nat.sqrt n := lt_of_lt_of_le (by positivity) hbig
  refine ⟨hkpos, ⟨?_, ?_, ?_⟩, fun _ => ?_⟩
  · exact mul_le_mul_of_nonneg_right Real.nat_sqrt_le_real_sqrt hu.le
  · exact mul_lt_mul_of_pos_right Real.real_sqrt_lt_nat_sqrt_succ hu
  · rw [bne_eq_false_iff_eq, mul_left_inj' hu.ne', Real.sqrt_eq_iff_mul_self_eq (by positivity) (by positivity)]
    exact eq_comm.trans (by exact_mod_cast Iff.rfl)
  · have := hF.fb_le
    exact (by omega : F.fb + 24 ≤ 100).trans ((Nat.le_log2 hkpos.ne').mpr hbig)

theorem sqrtMag_stands {F : Fmt} (hF : F.Ieee) {m : ℕ} (hm : 0 < m) (e : ℤ) : F.Stands (sqrtMag m e) (√(m * 2 ^ e)) := by
  unfold sqrtMag
  by_cases he : e % 2 = 0
  · have h := sqrt_stands hF hm (e / 2)
    rw [show 2 * (e / 2) = e by omega] at h
    simpa only [he, if_true] using h
  · have h := sqrt_stands hF (Nat.mul_pos two_pos hm) ((e - 1) / 2)
    rw [show 2 * ((e - 1) / 2) = e - 1 by omega, Nat.cast_mul, zpow_sub_one₀ two_ne_zero,
      show ((2 : ℕ) : ℝ) * m * (2 ^ e * 2⁻¹) = m * 2 ^ e by push_cast; ring] at h
    simpa only [he, if_false] using h

/-! ## What a placed result says of its neighbours -/

namespace Fmt.Placed

variable {F : Fmt} {md : Mode} {neg : Bool} {x : ℝ} {q : ℤ} {n k r b : ℕ}

theorem lt_of_val_lt (h : F.Placed md neg x q n k r) (hb : F.finite b = true) (hlt : (F.val r : ℝ) < F.val b) :
    x < F.val b := by
  rcases lt_trichotomy (F.val b : ℝ) x with h1 | h1 | h1
  · exact absurd ⟨hlt, h1⟩ (h.not_between hb).1
  · exact absurd ((h.val_eq_of_held hb h1).trans h1.symm) hlt.ne
  · exact h1

theorem gt_of_val_gt (h : F.Placed md neg x q n k r) (hb : F.finite b = true) (hlt : (F.val b : ℝ) < F.val r) :
    (F.val b : ℝ) < x := by
  rcases lt_trichotomy (F.val b : ℝ) x with h1 | h1 | h1
  · exact h1
  · exact absurd (h1.trans (h.val_eq_of_held hb h1).symm) hlt.ne
  · exact absurd ⟨h1, hlt⟩ (h.not_between hb).2

theorem nearest_le (h : F.Placed md neg x q n k r) (hmd : md = .ne ∨ md = .na) (hb : F.finite b = true) :
    |(F.val r : ℝ) - x| ≤ |(F.val b : ℝ) - x| := by
  rcases h.nearest (h.half hmd) hb with h1 | h1 | h1
  · exact h1.le
  · rw [h1]
  · exact h1.1.le

/-- A positive value of which the format holds a positive lower bound has a positive result. -/
theorem val_pos (h : F.Placed md neg x q n k r) (hb : F.finite b = true) (h0 : (0 : ℝ) < F.val b) (hle : (F.val b : ℝ) ≤ x) :
    (0 : ℝ) < F.val r := by
  rcases hle.lt_or_eq with hlt | he
  · exact not_le.mp fun hr => (h.not_between hb).1 ⟨hr.trans_lt h0, hlt⟩
  · rw [h.val_eq_of_held hb he, ← he]
    exact h0

end Fmt.Placed

/-- The nearer of two values has the exact one on its side of the middle. -/
theorem mid_le_of_nearer {x y z : ℝ} (h : |y - x| ≤ |z - x|) (hz : z < y) : (z + y) / 2 ≤ x := by
  have := sq_le_sq.mpr h
  nlinarith

theorem le_mid_of_nearer {x y z : ℝ} (h : |y - x| ≤ |z - x|) (hz : y < z) : x ≤ (z + y) / 2 := by
  have := sq_le_sq.mpr h
  nlinarith

/-! ## Square roots -/

theorem Fmt.sqrt_fin {F : Fmt} {v : FEnv} {a m : ℕ} {neg : Bool} {e : ℤ} (ha : F.decode (F.flush v.fzi a) = .fin neg m e) :
    F.sqrt v a = if m = 0 then (F.signBit neg, 0) else if neg then (F.dfltNaN, fNV) else F.finish v false (sqrtMag m e) := by
  simp [Fmt.sqrt, ha, Fmt.pickNaN]

/-- Every format holds 1. -/
theorem Fmt.Ieee.exists_one {F : Fmt} (hF : F.Ieee) : ∃ b, F.finite b = true ∧ F.val b = 1 := by
  have hb := hF.bias_pos
  have hbits : (F.bias - 1) * 2 ^ F.fb + 2 ^ F.fb < F.infBits := by
    rw [← Nat.succ_mul, Nat.succ_eq_add_one, Nat.sub_add_cancel hb]
    exact Nat.mul_lt_mul_of_pos_right hF.bias (by positivity)
  obtain ⟨hfin, hval⟩ := hF.val_units false (Nat.pow_le_pow_right two_pos (Nat.le_succ _)) (.inr le_rfl) hbits
  have hone : ((2 ^ F.fb : ℕ) : ℝ) * 2 ^ (F.qmin + (F.bias - 1 : ℕ)) = 1 := by
    rw [Nat.cast_pow, Nat.cast_ofNat, ← zpow_natCast, ← zpow_add₀ two_ne_zero, Fmt.qmin, Fmt.emin,
      show (F.fb : ℤ) + (1 - F.bias - F.fb + (F.bias - 1 : ℕ)) = 0 by omega, zpow_zero]
  rw [signFactor_false, one_mul, hone] at hval
  exact ⟨_, hfin, by exact_mod_cast hval⟩

/-- Of a value and 1, one is not above the root. -/
theorem Fmt.Ieee.exists_le_sqrt {F : Fmt} (hF : F.Ieee) {a : ℕ} (ha : F.finite a = true) (h0 : 0 < F.val a) :
    ∃ b, F.finite b = true ∧ (0 : ℝ) < F.val b ∧ (F.val b : ℝ) ≤ √(F.val a) := by
  have h0' : (0 : ℝ) < F.val a := by exact_mod_cast h0
  rcases le_total (F.val a : ℝ) 1 with h1 | h1
  · exact ⟨a, ha, h0', Real.le_sqrt_of_sq_le (by nlinarith)⟩
  · obtain ⟨b, hb, hv⟩ := hF.exists_one
    rw [← Rat.cast_inj (α := ℝ), Rat.cast_one] at hv
    exact ⟨b, hb, by rw [hv]; exact one_pos, by rw [hv]; exact Real.one_le_sqrt.mpr h1⟩

/-- A root does not overflow: of a value and 1, one is not below it. -/
theorem Fmt.Ieee.sqrt_not_beyond {F : Fmt} (hF : F.Ieee) {a : ℕ} (ha : F.finite a = true) (h0 : 0 < F.val a) {md : Mode} {neg : Bool}
    {r : ℕ × BitVec 5} : ¬ F.Beyond md neg √(F.val a) r := by
  intro h
  have h0' : (0 : ℝ) < F.val a := by exact_mod_cast h0
  obtain ⟨b, hb, hv⟩ := hF.exists_one
  have h1 := h.above a ha
  have h2 := h.above b hb
  rw [hv, abs_of_nonneg (Real.sqrt_nonneg _)] at h2
  rw [abs_of_pos h0', abs_of_nonneg (Real.sqrt_nonneg _)] at h1
  have h3 := Real.sq_sqrt h0'.le
  norm_num at h2
  nlinarith

/-- What 09 R242 says of a root `r` of a positive value `x`, as far as another value that the format holds tells. -/
def Fmt.rootNear (md : Mode) (x r y : ℚ) : Prop :=
  (md ∈ [Mode.tz, .dn] → r ^ 2 ≤ x ∧ (r < y → x < y ^ 2)) ∧
  (md = .up → x ≤ r ^ 2 ∧ (y < r → y ^ 2 < x)) ∧
  (md ∈ [Mode.ne, .na] → (y < r → ((y + r) / 2) ^ 2 ≤ x) ∧ (r < y → x ≤ ((y + r) / 2) ^ 2))

theorem Fmt.Placed.rootNear {F : Fmt} {md : Mode} {x : ℚ} {q : ℤ} {n k r b : ℕ} (h : F.Placed md false √x q n k r)
    (hr : 0 < F.val r) (hb : F.finite b = true) (h0 : 0 ≤ F.val b) : Fmt.rootNear md x (F.val r) (F.val b) := by
  have hr' : (0 : ℝ) < F.val r := by exact_mod_cast hr
  have h0' : (0 : ℝ) ≤ F.val b := by exact_mod_cast h0
  have hb' : F.val r < F.val b → (0 : ℝ) < F.val b := fun hlt => hr'.trans (by exact_mod_cast hlt)
  refine ⟨fun hmd => ?_, fun hmd => ?_, fun hmd => ?_⟩
  · have hle : (F.val r : ℝ) ≤ √x := by
      simp only [List.mem_cons, List.not_mem_nil, or_false] at hmd
      rcases hmd with rfl | rfl
      · exact (le_abs_self _).trans (h.abs_val_le.trans_eq (abs_of_nonneg (Real.sqrt_nonneg _)))
      · exact h.val_le
    exact ⟨by exact_mod_cast (Real.le_sqrt' hr').mp hle,
      fun hlt => by exact_mod_cast (Real.sqrt_lt' (hb' hlt)).mp (h.lt_of_val_lt hb (by exact_mod_cast hlt))⟩
  · subst hmd
    exact ⟨by exact_mod_cast (Real.sqrt_le_left hr'.le).mp h.le_val,
      fun hlt => by exact_mod_cast (Real.lt_sqrt h0').mp (h.gt_of_val_gt hb (by exact_mod_cast hlt))⟩
  · have hnear := h.nearest_le (by simpa using hmd) hb
    have hmid : (0 : ℝ) < (F.val b + F.val r) / 2 := by positivity
    exact ⟨fun hlt => by exact_mod_cast (Real.le_sqrt' hmid).mp (mid_le_of_nearer hnear (by exact_mod_cast hlt)),
      fun hlt => by exact_mod_cast (Real.sqrt_le_left hmid.le).mp (le_mid_of_nearer hnear (by exact_mod_cast hlt))⟩

section operations

variable {F : Fmt} {v : FEnv} (hF : F.Ieee) (hmd : v.md.fixed) (hfzo : v.fzo = false)
include hF hmd hfzo

/-- The root of a positive value. -/
theorem Fmt.sqrt_spec {a : ℕ} (ha : F.finite (F.flush v.fzi a) = true) (h0 : 0 < F.operand v a) :
    F.finite (F.sqrt v a).1 = true ∧ 0 < F.val (F.sqrt v a).1 ∧ (F.sqrt v a).2.getLsbD 2 = false ∧
      ((F.sqrt v a).2.getLsbD 0 = true ↔ F.val (F.sqrt v a).1 ^ 2 ≠ F.operand v a) ∧
      ∀ b, F.finite b = true → 0 ≤ F.val b → Fmt.rootNear v.md (F.operand v a) (F.val (F.sqrt v a).1) (F.val b) := by
  obtain ⟨m, e, hd⟩ := hF.decode_flush ha
  have hval := Fmt.operand_of_decode hd
  have h0' : (0 : ℝ) < F.operand v a := by exact_mod_cast h0
  obtain ⟨hs, hm⟩ := Fmt.pos_of_val_pos hd h0
  rw [hs, signFactor_false, one_mul] at hval
  have hrnd : F.Rounded v.md false √(F.operand v a) (F.sqrt v a) := by
    have hst := sqrtMag_stands hF hm e
    have := hst.rounded (neg := false) (draw := v.draw) hF hmd
    rw [Fmt.sqrt_fin hd, if_neg hm.ne', hs, if_neg (by decide), F.finish_of_pos v false hst.pos, hfzo, hval]
    rwa [signFactor_false, one_mul] at this
  obtain ⟨hof, ⟨q, n, k, hp⟩, hnx⟩ := hrnd.resolve_right (hF.sqrt_not_beyond ha h0)
  obtain ⟨b, hb, hb0, hble⟩ := hF.exists_le_sqrt ha h0
  have hr' := hp.val_pos hb hb0 hble
  have hr : 0 < F.val (F.sqrt v a).1 := by exact_mod_cast hr'
  refine ⟨hp.finite, hr, hof, hnx.trans (not_congr ?_), fun b hb hb0 => hp.rootNear hr hb hb0⟩
  rw [eq_comm, Real.sqrt_eq_iff_mul_self_eq_of_pos hr', ← sq]
  exact_mod_cast Iff.rfl

/-! 09 R242: each operation takes the exact result of its flushed operands. -/

theorem Fmt.rightFor_add {a b : ℕ} (ha : F.finite (F.flush v.fzi a) = true) (hb : F.finite (F.flush v.fzi b) = true) :
    F.rightFor v (F.operand v a + F.operand v b) (F.add v false a b) := by
  obtain ⟨ma, ea, hda⟩ := hF.decode_flush ha
  obtain ⟨mb, eb, hdb⟩ := hF.decode_flush hb
  rw [Fmt.add_fin hda hdb]
  refine Fmt.rightFor_sum hF hmd hfzo ?_
  rw [Rat.cast_add, Fmt.operand_of_decode hda, Fmt.operand_of_decode hdb, Bool.bne_false]

theorem Fmt.rightFor_sub {a b : ℕ} (ha : F.finite (F.flush v.fzi a) = true) (hb : F.finite (F.flush v.fzi b) = true) :
    F.rightFor v (F.operand v a - F.operand v b) (F.add v true a b) := by
  obtain ⟨ma, ea, hda⟩ := hF.decode_flush ha
  obtain ⟨mb, eb, hdb⟩ := hF.decode_flush hb
  rw [Fmt.add_fin hda hdb]
  refine Fmt.rightFor_sum hF hmd hfzo ?_
  rw [Rat.cast_sub, Fmt.operand_of_decode hda, Fmt.operand_of_decode hdb, Bool.bne_true, signFactor_not, neg_mul, sub_eq_add_neg]

theorem Fmt.rightFor_mul {a b : ℕ} (ha : F.finite (F.flush v.fzi a) = true) (hb : F.finite (F.flush v.fzi b) = true) :
    F.rightFor v (F.operand v a * F.operand v b) (F.mul v a b) := by
  obtain ⟨ma, ea, hda⟩ := hF.decode_flush ha
  obtain ⟨mb, eb, hdb⟩ := hF.decode_flush hb
  rw [Fmt.mul_fin hda hdb]
  refine Fmt.rightFor_finish_exact hF hmd hfzo ?_
  rw [Rat.cast_mul, Fmt.operand_of_decode hda, Fmt.operand_of_decode hdb, signFactor_product]

theorem Fmt.rightFor_div {a b : ℕ} (ha : F.finite (F.flush v.fzi a) = true) (hb : F.finite (F.flush v.fzi b) = true)
    (h0 : F.operand v b ≠ 0) :
    F.rightFor v (F.operand v a / F.operand v b) (F.div v a b) := by
  obtain ⟨ma, ea, hda⟩ := hF.decode_flush ha
  obtain ⟨mb, eb, hdb⟩ := hF.decode_flush hb
  have hmb : mb ≠ 0 := mt (Fmt.operand_eq_zero_iff hdb).mpr h0
  rw [Fmt.div_fin hda hdb hmb]
  split
  · next hma =>
    exact Fmt.rightFor_zero hF hmd _ (by rw [(Fmt.operand_eq_zero_iff hda).mpr hma, zero_div])
  · next hma =>
    refine Fmt.rightFor_finish hF hmd hfzo (divMag_stands hF (Nat.pos_of_ne_zero hma) (Nat.pos_of_ne_zero hmb) ea eb) ?_
    rw [Rat.cast_div, Fmt.operand_of_decode hda, Fmt.operand_of_decode hdb, signFactor_quotient]

/-- The fused forms, each with its signs. -/
theorem Fmt.rightFor_fma {a b c : ℕ} (ha : F.finite (F.flush v.fzi a) = true) (hb : F.finite (F.flush v.fzi b) = true)
    (hc : F.finite (F.flush v.fzi c) = true) (np nc : Bool) {y : ℚ}
    (hy : (y : ℝ) = signFactor np * (F.operand v a * F.operand v b) + signFactor nc * F.operand v c) :
    F.rightFor v y (F.fma v np nc a b c) := by
  obtain ⟨ma, ea, hda⟩ := hF.decode_flush ha
  obtain ⟨mb, eb, hdb⟩ := hF.decode_flush hb
  obtain ⟨mc, ec, hdc⟩ := hF.decode_flush hc
  rw [Fmt.fma_fin hda hdb hdc]
  refine Fmt.rightFor_sum hF hmd hfzo ?_
  rw [hy, Fmt.operand_of_decode hda, Fmt.operand_of_decode hdb, Fmt.operand_of_decode hdc, ← signFactor_product, signFactor_bne _ np,
    signFactor_bne _ nc]
  ring

end operations

/-! ## Exact zeros (09 R242) -/

section zeros

variable {F : Fmt} {v : FEnv} {a b : ℕ} (hF : F.Ieee)
include hF

theorem Fmt.add_of_zero (ha : F.finite (F.flush v.fzi a) = true) (hb : F.finite (F.flush v.fzi b) = true)
    (h0 : F.operand v a + F.operand v b = 0) :
    F.add v false a b = (F.signBit (if F.signOf a = F.signOf b then F.signOf a else decide (v.md = .dn)), 0) := by
  obtain ⟨ma, ea, hda⟩ := hF.decode_flush ha
  obtain ⟨mb, eb, hdb⟩ := hF.decode_flush hb
  have h0 : (F.operand v a : ℝ) + F.operand v b = 0 := by exact_mod_cast h0
  rw [Fmt.operand_of_decode hda, Fmt.operand_of_decode hdb] at h0
  rw [Fmt.add_fin hda hdb, Bool.bne_false, Fmt.sum_zero h0]

theorem Fmt.mul_of_zero (ha : F.finite (F.flush v.fzi a) = true) (hb : F.finite (F.flush v.fzi b) = true)
    (h0 : F.operand v a * F.operand v b = 0) : F.mul v a b = (F.signBit (F.signOf a != F.signOf b), 0) := by
  obtain ⟨ma, ea, hda⟩ := hF.decode_flush ha
  obtain ⟨mb, eb, hdb⟩ := hF.decode_flush hb
  have hm : ma * mb = 0 := by rwa [mul_eq_zero, Fmt.operand_eq_zero_iff hda, Fmt.operand_eq_zero_iff hdb, ← mul_eq_zero] at h0
  rw [Fmt.mul_fin hda hdb, hm, F.finish_zero]

theorem Fmt.div_of_zero (ha : F.finite (F.flush v.fzi a) = true) (hb : F.finite (F.flush v.fzi b) = true)
    (h0 : F.operand v a = 0) (hne : F.operand v b ≠ 0) :
    F.div v a b = (F.signBit (F.signOf a != F.signOf b), 0) := by
  obtain ⟨ma, ea, hda⟩ := hF.decode_flush ha
  obtain ⟨mb, eb, hdb⟩ := hF.decode_flush hb
  rw [Fmt.div_fin hda hdb (mt (Fmt.operand_eq_zero_iff hdb).mpr hne), if_pos ((Fmt.operand_eq_zero_iff hda).mp h0)]

theorem Fmt.sqrt_of_zero (ha : F.finite (F.flush v.fzi a) = true) (h0 : F.operand v a = 0) :
    F.sqrt v a = (F.signBit (F.signOf a), 0) := by
  obtain ⟨ma, ea, hda⟩ := hF.decode_flush ha
  rw [Fmt.sqrt_fin hda, if_pos ((Fmt.operand_eq_zero_iff hda).mp h0)]

end zeros

end Sys2Proof.Machine
end

section
/-! PROOF. What FMIN, FMAX, compares and conversions give (03 R96, R98, 09 R244, R249), and the statement of the one rounding. -/

namespace Sys2Proof.Machine

/-! ## Order (09 R244, R249) -/

theorem Fmt.cmp_spec {F : Fmt} {x y : ℕ} (hx : F.finite x = true) (hy : F.finite y = true) :
    ((F.decode x).cmp (F.decode y) = .lt ↔ F.val x < F.val y) ∧ ((F.decode x).cmp (F.decode y) = .eq ↔ F.val x = F.val y) ∧
      ((F.decode x).cmp (F.decode y) = .gt ↔ F.val y < F.val x) := by
  obtain ⟨na, ma, ea, hdx⟩ := Fmt.exists_decode hx
  obtain ⟨nb, mb, eb, hdy⟩ := Fmt.exists_decode hy
  have hu := zpow_pos (two_pos (α := ℝ)) (min ea eb)
  have hvx := (shift_cast na ma (min_le_left ea eb)).trans (Fmt.val_of_decode hdx).symm
  have hvy := (shift_cast nb mb (min_le_right ea eb)).trans (Fmt.val_of_decode hdy).symm
  rw [hdx, hdy, ← Rat.cast_lt (K := ℝ), ← Rat.cast_lt (K := ℝ), ← Rat.cast_inj (α := ℝ), ← hvx, ← hvy, mul_lt_mul_iff_left₀ hu,
    mul_lt_mul_iff_left₀ hu, mul_left_inj' hu.ne', Int.cast_lt, Int.cast_lt, Int.cast_inj]
  exact ⟨compare_lt_iff_lt, compare_eq_iff_eq, compare_gt_iff_gt⟩

theorem sigFlag_pair (x y : Num) : sigFlag [x, y] = if x.isSig || y.isSig then fNV else 0 := by
  cases x <;> cases y <;> simp [sigFlag, Num.isSig]

/-- A number is no NaN. -/
theorem Fmt.not_nan_of_finite {F : Fmt} {x : ℕ} (hx : F.finite x = true) : (F.decode x).isNaN = false ∧ (F.decode x).isSig = false := by
  obtain ⟨neg, m, e, hd⟩ := Fmt.exists_decode hx
  rw [hd]
  exact ⟨rfl, rfl⟩

section compare

variable {F : Fmt} {z mn : Bool} {a b : ℕ}

section finite

variable (hx : F.finite (F.flush z a) = true) (hy : F.finite (F.flush z b) = true)
include hx hy

theorem Fmt.minMax_of_lt (h : F.val (F.flush z a) < F.val (F.flush z b)) :
    F.minMax z mn a b = (if mn then F.flush z a else F.flush z b, 0) := by
  obtain ⟨nx, sx⟩ := Fmt.not_nan_of_finite hx
  obtain ⟨ny, sy⟩ := Fmt.not_nan_of_finite hy
  simp only [Fmt.minMax, sigFlag_pair, nx, ny, sx, sy, (Fmt.cmp_spec hx hy).1.mpr h]
  rfl

theorem Fmt.minMax_of_gt (h : F.val (F.flush z b) < F.val (F.flush z a)) :
    F.minMax z mn a b = (if mn then F.flush z b else F.flush z a, 0) := by
  obtain ⟨nx, sx⟩ := Fmt.not_nan_of_finite hx
  obtain ⟨ny, sy⟩ := Fmt.not_nan_of_finite hy
  simp only [Fmt.minMax, sigFlag_pair, nx, ny, sx, sy, (Fmt.cmp_spec hx hy).2.2.mpr h]
  rfl

/-- Zeros of both signs are told apart by their signs. -/
theorem Fmt.minMax_of_eq (hF : F.Ieee) (h : F.val (F.flush z a) = F.val (F.flush z b)) :
    F.minMax z mn a b =
      (if F.signOf (F.flush z a) ≠ F.signOf (F.flush z b) ∧ F.signOf (F.flush z a) ≠ mn then F.flush z b else F.flush z a, 0) := by
  obtain ⟨nx, sx⟩ := Fmt.not_nan_of_finite hx
  obtain ⟨ny, sy⟩ := Fmt.not_nan_of_finite hy
  simp only [Fmt.minMax, sigFlag_pair, nx, ny, sx, sy, (Fmt.cmp_spec hx hy).2.1.mpr h, hF.sign_decode hx, hF.sign_decode hy]
  cases F.signOf (F.flush z a) <;> cases F.signOf (F.flush z b) <;> cases mn <;> rfl

/-- 09 R244 of finite operands: one of them, on the side that is asked for. -/
theorem Fmt.minMax_finite (hF : F.Ieee) :
    (F.minMax z mn a b).2 = 0 ∧ ((F.minMax z mn a b).1 = F.flush z a ∨ (F.minMax z mn a b).1 = F.flush z b) ∧
      (if mn then F.val (F.minMax z mn a b).1 ≤ F.val (F.flush z a) ∧ F.val (F.minMax z mn a b).1 ≤ F.val (F.flush z b)
        else F.val (F.flush z a) ≤ F.val (F.minMax z mn a b).1 ∧ F.val (F.flush z b) ≤ F.val (F.minMax z mn a b).1) := by
  rcases lt_trichotomy (F.val (F.flush z a)) (F.val (F.flush z b)) with h | h | h
  · rw [Fmt.minMax_of_lt hx hy h]
    cases mn
    · exact ⟨rfl, .inr rfl, h.le, le_rfl⟩
    · exact ⟨rfl, .inl rfl, le_rfl, h.le⟩
  · rw [Fmt.minMax_of_eq hx hy hF h]
    dsimp only
    split
    · exact ⟨rfl, .inr rfl, by cases mn <;> simp [h]⟩
    · exact ⟨rfl, .inl rfl, by cases mn <;> simp [h]⟩
  · rw [Fmt.minMax_of_gt hx hy h]
    cases mn
    · exact ⟨rfl, .inl rfl, le_rfl, h.le⟩
    · exact ⟨rfl, .inr rfl, h.le, le_rfl⟩

end finite

/-- What 09 R249 says of two numbers. -/
def compareHolds (cond : Cond) (x y : ℚ) : Bool :=
  match cond with
  | .eq => decide (x = y) | .ne => decide (x ≠ y) | .lt => decide (x < y)
  | .le => decide (x ≤ y) | .gt => decide (y < x) | .ge => decide (y ≤ x)
  | .un => false | .ord => true

theorem Fmt.compare_finite (hx : F.finite (F.flush z a) = true) (hy : F.finite (F.flush z b) = true) (cond : Cond) :
    F.compare cond z a b = (compareHolds cond (F.val (F.flush z a)) (F.val (F.flush z b)), 0) := by
  obtain ⟨nx, sx⟩ := Fmt.not_nan_of_finite hx
  obtain ⟨ny, sy⟩ := Fmt.not_nan_of_finite hy
  obtain ⟨hlt, heq, hgt⟩ := Fmt.cmp_spec hx hy
  simp only [Fmt.compare, sigFlag_pair, nx, ny, sx, sy]
  refine Prod.ext ?_ (by cases cond <;> rfl)
  rw [Bool.eq_iff_iff]
  cases cond with
  | eq => simpa [compareHolds] using heq
  | ne => simpa [compareHolds] using heq.not
  | lt => simpa [compareHolds] using hlt
  | le => simpa [compareHolds] using hgt.not
  | gt => simpa [compareHolds] using hgt
  | ge => simpa [compareHolds] using hlt.not
  | un => simp [compareHolds]
  | ord => simp [compareHolds]

/-- 09 R244: a NaN gives way to a number. -/
theorem Fmt.minMax_nan_left (hx : (F.decode (F.flush z a)).isNaN = true) (hy : (F.decode (F.flush z b)).isNaN = false) :
    F.minMax z mn a b = (F.flush z b, if (F.decode (F.flush z a)).isSig || (F.decode (F.flush z b)).isSig then fNV else 0) := by
  simp [Fmt.minMax, sigFlag_pair, hx, hy]

theorem Fmt.minMax_nan_right (hx : (F.decode (F.flush z a)).isNaN = false) (hy : (F.decode (F.flush z b)).isNaN = true) :
    F.minMax z mn a b = (F.flush z a, if (F.decode (F.flush z a)).isSig || (F.decode (F.flush z b)).isSig then fNV else 0) := by
  simp [Fmt.minMax, sigFlag_pair, hx, hy]

/-- 09 R249: a NaN is unordered, and the ordering conditions signal it. -/
theorem Fmt.compare_nan (h : (F.decode (F.flush z a)).isNaN = true ∨ (F.decode (F.flush z b)).isNaN = true) (cond : Cond) :
    F.compare cond z a b = (decide (cond = .ne ∨ cond = .un),
      if ((F.decode (F.flush z a)).isSig || (F.decode (F.flush z b)).isSig) = true ∨ cond ∈ [Cond.lt, .le, .gt, .ge] then fNV else 0) := by
  have hnan : ((F.decode (F.flush z a)).isNaN || (F.decode (F.flush z b)).isNaN) = true := by simpa using h
  simp only [Fmt.compare, sigFlag_pair, hnan]
  cases cond <;> simp

end compare

/-! ## Conversions (03 R96, R98) -/

theorem Fmt.rightly.bits_lt {F : Fmt} (hF : F.Ieee) {md : Mode} {neg : Bool} {x : ℚ} {r : ℕ × BitVec 5} (h : F.rightly md neg x r) :
    r.1 < 2 ^ F.w := by
  obtain ⟨h0, h1⟩ := h
  by_cases ho : r.2.getLsbD 2 = true
  · obtain ⟨-, -, hr⟩ := h1 ho
    rw [hr]
    have hi : F.infBits < 2 ^ (F.w - 1) := by simpa [Fmt.infBits] using hF.fields_lt le_rfl (fr := 0) (by positivity)
    refine hF.bits_lt neg (lt_of_le_of_lt ?_ hi)
    split
    · exact Nat.sub_le _ _
    · exact le_rfl
  · obtain ⟨⟨hfin, -⟩, -⟩ := h0 (by simpa using ho)
    unfold Fmt.finite at hfin
    rw [Bool.and_eq_true] at hfin
    exact of_decide_eq_true hfin.1

/-- An integer that a mode may take for a value. -/
def Mode.takesInt (md : Mode) (x : ℚ) (k : ℤ) : Prop :=
  match md with
  | .ne => |k - x| < 1 / 2 ∨ (|k - x| = 1 / 2 ∧ k % 2 = 0)
  | .na => |k - x| < 1 / 2 ∨ (|k - x| = 1 / 2 ∧ |x| < |(k : ℚ)|)
  | .tz => |(k : ℚ)| ≤ |x|
  | .up => x ≤ k
  | .dn => k ≤ x
  | _ => True

theorem sInt_eq_iff {neg : Bool} {X : ℝ} {x : ℚ} (k : ℕ) (hx : (x : ℝ) = signFactor neg * X) :
    (sInt neg k : ℚ) = x ↔ (k : ℝ) = X := by
  rw [← Rat.cast_inj (α := ℝ), Rat.cast_intCast, sInt_cast, hx, mul_right_inj' (signFactor_ne_zero neg)]

theorem Mode.takes.int {md : Mode} {neg : Bool} {X : ℝ} {k : ℕ} {x : ℚ} (h : md.takes neg X k) (hX : 0 ≤ X)
    (hx : (x : ℝ) = signFactor neg * X) : |(sInt neg k : ℚ) - x| < 1 ∧ md.takesInt x (sInt neg k) := by
  obtain ⟨hnear, hmode⟩ := h
  have hk := sInt_cast neg k
  have hdist : |(k : ℝ) - X| = (|(sInt neg k : ℚ) - x| : ℚ) := by
    rw [Rat.cast_abs, Rat.cast_sub, Rat.cast_intCast, hk, hx, ← mul_sub, abs_signFactor_mul]
  have hhalf : (1 / 2 : ℝ) = (1 / 2 : ℚ) := by norm_num
  have hkabs : |((sInt neg k : ℤ) : ℝ)| = k := by rw [hk, abs_signFactor_mul, Nat.abs_cast]
  have hxabs : |(x : ℝ)| = X := by rw [hx, abs_signFactor_mul, abs_of_nonneg hX]
  rw [hdist] at hnear
  refine ⟨by exact_mod_cast hnear, ?_⟩
  cases md with
  | ne =>
    have hpar : sInt neg k % 2 = 0 ↔ k % 2 = 0 := by
      unfold sInt
      split <;> omega
    have hmode : |(k : ℝ) - X| < 1 / 2 ∨ (|(k : ℝ) - X| = 1 / 2 ∧ k % 2 = 0) := hmode
    change |(sInt neg k : ℚ) - x| < 1 / 2 ∨ (|(sInt neg k : ℚ) - x| = 1 / 2 ∧ sInt neg k % 2 = 0)
    rwa [hdist, hhalf, Rat.cast_lt, Rat.cast_inj, ← hpar] at hmode
  | na =>
    have hmode : |(k : ℝ) - X| < 1 / 2 ∨ (|(k : ℝ) - X| = 1 / 2 ∧ X < k) := hmode
    change |(sInt neg k : ℚ) - x| < 1 / 2 ∨ (|(sInt neg k : ℚ) - x| = 1 / 2 ∧ |x| < |(sInt neg k : ℚ)|)
    rw [hdist, hhalf, Rat.cast_lt, Rat.cast_inj, ← hkabs, ← hxabs] at hmode
    exact_mod_cast hmode
  | tz =>
    have hmode : (k : ℝ) ≤ X := hmode
    change |(sInt neg k : ℚ)| ≤ |x|
    rw [← hkabs, ← hxabs] at hmode
    exact_mod_cast hmode
  | up =>
    have hle : (x : ℝ) ≤ sInt neg k := by
      rw [hx, hk]
      cases neg with
      | false => simpa using hmode
      | true => simpa using hmode
    change x ≤ sInt neg k
    exact_mod_cast hle
  | dn =>
    have hle : (sInt neg k : ℝ) ≤ x := by
      rw [hx, hk]
      cases neg with
      | false => simpa using hmode
      | true => simpa using hmode
    change sInt neg k ≤ x
    exact_mod_cast hle
  | st | wide => trivial

/-! ## The lanes of an integer type -/

theorem setWidth_laneOf (t : Ty) (z : ℤ) : (laneOf (tyBits t) z).setWidth (tyBits t) = BitVec.ofInt (tyBits t) z := by
  have hw : tyBits t ≤ 64 := by rcases tyBits_cases t with h | h | h | h <;> omega
  rw [laneOf, BitVec.setWidth_setWidth_of_le _ hw, BitVec.setWidth_eq]

/-- A lane holds an integer of its range. -/
theorem laneVal_laneOf (t : Ty) {z : ℤ} (hlo : tyLo t ≤ z) (hhi : z ≤ tyHi t) : laneVal t (laneOf (tyBits t) z) = z := by
  have hw : 0 < tyBits t := by rcases tyBits_cases t with h | h | h | h <;> omega
  have hpow : (2 : ℤ) ^ tyBits t = 2 * 2 ^ (tyBits t - 1) := by rw [← pow_succ', Nat.sub_add_cancel hw]
  unfold laneVal
  unfold tyLo at hlo
  unfold tyHi at hhi
  rw [laneInt, setWidth_laneOf]
  split
  · next hs =>
    rw [if_pos hs] at hlo hhi
    rw [BitVec.toInt_ofInt]
    refine Int.bmod_eq_of_le ?_ ?_ <;> push_cast <;> omega
  · next hs =>
    rw [if_neg hs] at hlo hhi
    rw [BitVec.toNat_ofInt, Int.toNat_of_nonneg (Int.emod_nonneg _ (by positivity)), Int.emod_eq_of_lt hlo (by push_cast; omega)]

theorem tyLo_le_tyHi (t : Ty) : tyLo t ≤ tyHi t := by
  have h1 : (0 : ℤ) < 2 ^ (tyBits t - 1) := by positivity
  have h2 : (0 : ℤ) < 2 ^ tyBits t := by positivity
  unfold tyLo tyHi
  split <;> omega

/-- A finite value is rounded to whole units of 1, and then held in the range. -/
theorem intOfNum_fin (v : FEnv) (lo hi : ℤ) (neg : Bool) (m : ℕ) (e : ℤ) :
    intOfNum v lo hi (.fin neg m e) =
      if sInt neg ((Mag.mk m e false).units v.md neg v.draw 0) < lo then (lo, fNV)
      else if hi < sInt neg ((Mag.mk m e false).units v.md neg v.draw 0) then (hi, fNV)
      else (sInt neg ((Mag.mk m e false).units v.md neg v.draw 0),
        if ((Mag.mk m e false).split 0).2.1 != 0 || ((Mag.mk m e false).split 0).2.2 then fNX else 0) := rfl

/-- What 03 R98 says of an integer `k` taken for a value `x`, and of the lane and the flags that hold it in a type. -/
structure IntConverted (dst : Ty) (md : Mode) (x : ℚ) (k : ℤ) (r : Word × BitVec 5) : Prop where
  near : |(k : ℚ) - x| < 1
  takes : md.takesInt x k
  inside : tyLo dst ≤ k → k ≤ tyHi dst → laneVal dst r.1 = k ∧ r.2 = if (k : ℚ) = x then 0 else fNX
  below : k < tyLo dst → laneVal dst r.1 = tyLo dst ∧ r.2 = fNV
  above : tyHi dst < k → laneVal dst r.1 = tyHi dst ∧ r.2 = fNV

/-- An integer value is taken as it is. -/
theorem IntConverted.eq_of_int {dst : Ty} {md : Mode} {x : ℚ} {k : ℤ} {r : Word × BitVec 5} (h : IntConverted dst md x k r) {n : ℤ}
    (hn : (n : ℚ) = x) : k = n := by
  have hk := h.near
  rw [← hn] at hk
  have h1 : |k - n| < 1 := by exact_mod_cast hk
  exact sub_eq_zero.mp (Int.abs_lt_one_iff.mp h1)

theorem intOfNum_converted {v : FEnv} (hmd : v.md.fixed) (dst : Ty) {neg : Bool} {m : ℕ} {e : ℤ} {x : ℚ}
    (hx : (x : ℝ) = signFactor neg * (m * 2 ^ e)) :
    ∃ k, IntConverted dst v.md x k (laneOf (tyBits dst) (intOfNum v (tyLo dst) (tyHi dst) (.fin neg m e)).1,
      (intOfNum v (tyLo dst) (tyHi dst) (.fin neg m e)).2) := by
  have hu := Mag.split_inUnits (x := ⟨m, e, false⟩) (q := 0) (cutAt_self m e) (fun h => by cases h)
  rw [zpow_zero, div_one] at hu
  have ht : v.md.takes neg (m * 2 ^ e) (Mag.units ⟨m, e, false⟩ v.md neg v.draw 0) := hu.takes hmd neg v.draw
  obtain ⟨hnear, htakes⟩ := ht.int (by positivity) hx
  have hnx := hu.inexact_iff.trans
    ((eq_iff_floor_eq hu.floor_le hu.lt_floor_succ ht.1).symm.trans (sInt_eq_iff (Mag.units ⟨m, e, false⟩ v.md neg v.draw 0) hx).symm).not
  rw [intOfNum_fin]
  generalize sInt neg (Mag.units ⟨m, e, false⟩ v.md neg v.draw 0) = z at *
  have hrange := tyLo_le_tyHi dst
  refine ⟨z, hnear, htakes, fun hlo hhi => ?_, fun hlo => ?_, fun hhi => ?_⟩
  · rw [if_neg (not_lt.mpr hlo), if_neg (not_lt.mpr hhi)]
    refine ⟨laneVal_laneOf dst hlo hhi, ?_⟩
    by_cases hz : (z : ℚ) = x
    · rw [if_pos hz, if_neg (fun h => hnx.mp h hz)]
    · rw [if_neg hz, if_pos (hnx.mpr hz)]
  · rw [if_pos hlo]
    exact ⟨laneVal_laneOf dst le_rfl hrange, rfl⟩
  · rw [if_neg (by omega), if_pos hhi]
    exact ⟨laneVal_laneOf dst hrange le_rfl, rfl⟩

/-- The floating types that a conversion may round to, e4m3 apart. -/
def roundedTypes : List Ty := [.f64, .f32, .f16, .bf16, .e5m2]

theorem roundedTypes_spec {t : Ty} (h : t ∈ roundedTypes) : t.isFloat = true ∧ t ≠ .mld ∧ t.isInt = false ∧ (tyFmt t).Ieee := by
  simp only [roundedTypes, List.mem_cons, List.not_mem_nil, or_false] at h
  rcases h with rfl | rfl | rfl | rfl | rfl <;> exact ⟨rfl, by decide, rfl, Fmt.ieee_of_mem (by decide)⟩

/-- A floating source of a lane of its own. -/
theorem floatSource_spec {t : Ty} (h : t ∈ roundedTypes ∨ t = .e4m3) : t.isFloat = true ∧ t ≠ .mld ∧ t.isInt = false := by
  rcases h with h | rfl
  · obtain ⟨h1, h2, h3, -⟩ := roundedTypes_spec h
    exact ⟨h1, h2, h3⟩
  · decide

/-- The exact value that a conversion starts from. -/
def convSource (src : Ty) (v : FEnv) (a : Word) : ℚ :=
  if src.isInt then laneVal src a else (tyFmt src).operand v a.toNat

theorem convElem_to_float {src dst : Ty} {v : FEnv} {a : Word} (hmd : v.md.fixed) (hfzo : v.fzo = false)
    (hs : src.isInt = true ∨ ((src ∈ roundedTypes ∨ src = .e4m3) ∧
      (tyFmt src).finite ((tyFmt src).flush v.fzi a.toNat) = true))
    (hd : dst ∈ roundedTypes) :
    (tyFmt dst).rightFor v (convSource src v a)
      ((convElem src dst v a).1.toNat, (convElem src dst v a).2) := by
  obtain ⟨hdf, hdm, -, hF⟩ := roundedTypes_spec hd
  suffices h : ∃ r, convElem src dst v a = (BitVec.ofNat 64 (elemPut dst r.1), r.2) ∧
      (tyFmt dst).rightFor v (convSource src v a) r by
    obtain ⟨r, he, hr⟩ := h
    have hlt : r.1 < 2 ^ 64 := (Fmt.rightly.bits_lt hF hr).trans_le (Nat.pow_le_pow_right two_pos hF.width_le)
    rw [he, elemPut, if_neg hdm, BitVec.toNat_ofNat, Nat.mod_eq_of_lt hlt]
    exact hr
  rcases hs with hi | ⟨hs, hfin⟩
  · have hsf : src.isFloat = false := by revert hi; cases src <;> decide
    refine ⟨(tyFmt dst).ofInt v (laneVal src a), by simp [convElem, hsf, hdf], ?_⟩
    refine Fmt.rightFor_finish_exact hF hmd hfzo ?_
    rw [convSource, if_pos hi, Rat.cast_intCast, zpow_zero, mul_one]
    exact natAbs_cast_eq _
  · obtain ⟨hsf, hsm, hsi⟩ := floatSource_spec hs
    obtain ⟨neg, m, e, hdec⟩ := Fmt.exists_decode hfin
    refine ⟨(tyFmt dst).finish v neg ⟨m, e, false⟩, by simp [convElem, hsf, hdf, elemBits, hsm, hdec, Fmt.ofNum], ?_⟩
    refine Fmt.rightFor_finish_exact hF hmd hfzo ?_
    rw [convSource, hsi, if_neg (by decide)]
    exact Fmt.val_of_decode hdec

theorem convElem_to_int {src dst : Ty} {v : FEnv} {a : Word} (hmd : v.md.fixed)
    (hs : src ∈ roundedTypes ∨ src = .e4m3) (hfin : (tyFmt src).finite ((tyFmt src).flush v.fzi a.toNat) = true) (hd : dst.isInt = true) :
    ∃ k, IntConverted dst v.md (convSource src v a) k (convElem src dst v a) := by
  obtain ⟨hsf, hsm, hsi⟩ := floatSource_spec hs
  have hdf : dst.isFloat = false := by revert hd; cases dst <;> decide
  obtain ⟨neg, m, e, hdec⟩ := Fmt.exists_decode hfin
  obtain ⟨k, hk⟩ := intOfNum_converted hmd dst (x := convSource src v a) (by
    rw [convSource, hsi, if_neg (by decide)]
    exact Fmt.val_of_decode hdec)
  refine ⟨k, ?_⟩
  simpa [convElem, hsf, hdf, elemBits, hsm, hdec] using hk

/-! ## The statement -/

theorem Fmt.rightly_round {F : Fmt} (hF : F.Ieee) {md : Mode} (hmd : md.fixed) (neg : Bool) {m : ℕ} (hm : 0 < m) (e : ℤ) (draw : ℕ) :
    F.rightly md neg ((if neg then -1 else 1) * m * 2 ^ e) (F.round md false draw neg ⟨m, e, false⟩) := by
  refine Fmt.Rounded.rightly ?_ hmd
  have h := (F.stands_exact hm e).rounded (neg := neg) (draw := draw) hF hmd
  have hx : (((if neg then -1 else 1) * m * 2 ^ e : ℚ) : ℝ) = signFactor neg * (m * 2 ^ e) := Num.val_fin neg m e
  rwa [hx]

theorem Fmt.ieee_of_mem_four {F : Fmt} (h : F ∈ [Fmt.f64, Fmt.f32, Fmt.f16, Fmt.bf16]) : F.Ieee :=
  Fmt.ieee_of_mem (List.mem_append_left [Fmt.e5m2] h)

/-- Settles O16: the units that a mode takes are those that the format holds next to the exact value. -/
theorem roundingFollowsTheMode : Obligations.RoundingFollowsTheMode := by
  unfold Obligations.RoundingFollowsTheMode
  refine ⟨?rounding, ?operations, ?order, ?conversions⟩
  case rounding => exact fun F md neg m e draw hF hmd hm => Fmt.rightly_round (Fmt.ieee_of_mem hF) hmd neg hm e draw
  case operations =>
    intro F v a b c np nc hF hmd hfzo
    have hF := Fmt.ieee_of_mem_four hF
    refine ⟨fun ha hb => ⟨Fmt.rightFor_add hF hmd hfzo ha hb, Fmt.rightFor_sub hF hmd hfzo ha hb, Fmt.rightFor_mul hF hmd hfzo ha hb,
      fun h0 => Fmt.rightFor_div hF hmd hfzo ha hb h0, fun h0 => Fmt.add_of_zero hF ha hb h0, fun h0 => Fmt.mul_of_zero hF ha hb h0,
      fun h0 hne => Fmt.div_of_zero hF ha hb h0 hne, fun hc => Fmt.rightFor_fma hF hmd hfzo ha hb hc np nc ?_⟩,
      fun ha h0 => Fmt.sqrt_of_zero hF ha h0, fun ha h0 => Fmt.sqrt_spec hF hmd hfzo ha h0⟩
    cases np <;> cases nc <;> simp [Fmt.operand]
  case order =>
    intro F z mn cond a b hF
    have hF := Fmt.ieee_of_mem_four hF
    refine ⟨fun hx hy => ?_, Fmt.minMax_nan_left, Fmt.minMax_nan_right, fun h => Fmt.compare_nan h cond⟩
    obtain ⟨hfl, hone, hside⟩ := Fmt.minMax_finite (mn := mn) hx hy hF
    exact ⟨hfl, hone, fun he => congrArg Prod.fst (Fmt.minMax_of_eq hx hy hF he), hside, Fmt.compare_finite hx hy cond⟩
  case conversions =>
    intro src dst v a hmd hfzo fl G r x hs
    refine ⟨fun hd => convElem_to_float hmd hfzo hs hd, fun hsi hd => ?_⟩
    obtain ⟨hs, hfin⟩ := hs.resolve_left (by simp [hsi])
    obtain ⟨k, hk⟩ := convElem_to_int (dst := dst) hmd hs hfin hd
    exact ⟨k, hk.near, fun n hn => hk.eq_of_int hn, hk.takes, hk.inside, hk.below, hk.above⟩

end Sys2Proof.Machine
end

section
/-! PROOF. The commit time is the least time that the order of lines allows (04 R117, R123). -/

namespace Sys2Proof.Machine

/-- A running maximum is bounded where its start and every member are. -/
theorem foldl_max_le_iff {α : Type} (f : α → Nat) (l : List α) (a n : Nat) :
    l.foldl (fun m x => max m (f x)) a ≤ n ↔ a ≤ n ∧ ∀ x ∈ l, f x ≤ n := by
  induction l generalizing a with
  | nil => simp
  | cons x l ih => rw [List.foldl_cons, ih, max_le_iff, List.forall_mem_cons, and_assoc]

/-- 04 R117: the times that the commit time is not above are those that the task's start, its reads and its written lines allow. -/
theorem commitTime_le_iff (s : State) (t : Task) (n : Nat) :
    commitTime s t ≤ n ↔
      t.ts ≤ n ∧ (∀ e, e ∈ t.reads → e.wts ≤ n) ∧ ∀ l, l ∈ t.sluice.flatMap (Eff.writes s) → (s.line l).rts < n := by
  rw [commitTime, foldl_max_le_iff, foldl_max_le_iff, and_assoc]
  exact and_congr_right fun _ => And.comm

/-- 04 R117: a read set is consistent at a time that each lease reaches, or at which its line is unchanged. -/
theorem validAt_iff (s : State) (t : Task) (ct : Nat) :
    validAt s t ct = true ↔ ∀ e, e ∈ t.reads → ∀ r, e.r = some r → ct ≤ r ∨ (s.line e.line).wts = e.wts := by
  rw [validAt, List.all_eq_true]
  refine forall₂_congr fun e _ => ?_
  cases e.r <;> simp

/-- Settles O42: the commit time is a running maximum, and a maximum is the least of its bounds. -/
theorem commitTimeIsLeast : Obligations.CommitTime := by
  unfold Obligations.CommitTime
  exact fun s t => ⟨(commitTime_le_iff s t _).mp le_rfl, fun n => (commitTime_le_iff s t n).mpr, validAt_iff s t _⟩

end Sys2Proof.Machine
end

section
/-! PROOF. What looks at the monitors and writes of lines change of the machine: the network, lines, memory and cores (04 R117, 06 R183). -/

namespace Sys2Proof.Machine

/-! ## Folds, tables and updates -/

theorem modify_ok (f : State → State) (s : State) : (modify f : M Unit) s = .ok () (f s) := rfl

/-- What every step of a fold keeps, the fold keeps. -/
theorem foldl_keeps {σ β γ : Type} (f : σ → γ) {g : σ → β → σ} (h : ∀ s b, f (g s b) = f s) (l : List β) (s : σ) :
    f (l.foldl g s) = f s := by
  induction l generalizing s with
  | nil => rfl
  | cons b l ih => exact (ih (g s b)).trans (h s b)

theorem tget?_map {κ α : Type} [DecidableEq κ] (g : κ × α → κ × α) (h : ∀ p, (g p).1 = p.1) (t : List (κ × α)) (k : κ) :
    tget? (t.map g) k = (tget? t k).map fun v => (g (k, v)).2 := by
  induction t with
  | nil => rfl
  | cons p t ih =>
    simp only [List.map_cons, tget?, h]
    split
    · next e => rw [← e]; rfl
    · exact ih

/-! ## Lines -/

theorem State.line_setLine (s : State) (l j : Nat) (x : Line) : (s.setLine l x).line j = if j = l then x else s.line j := tget_tput ..

/-- The lines of an access depend on the format windows alone (03 R109). -/
theorem State.keyOf_congr {s s' : State} (h : s'.windows = s.windows) : s'.keyOf = s.keyOf := by
  funext a
  simp only [State.keyOf, scaleOf, h]

theorem State.keysAt_congr {s s' : State} (h : s'.windows = s.windows) : s'.keysAt = s.keysAt := by
  funext pa is
  simp only [State.keysAt, State.keyOf_congr h]

/-! ## Messages and monitors -/

theorem State.postHw_eq (s : State) (core cls ch : Nat) (pay : List Word) (stamp : Nat) (kind : MKind) (lin : Lineage)
    (prod : Nat × Nat) : s.postHw core cls ch pay stamp kind lin prod =
      { s with net := (s.postHw core cls ch pay stamp kind lin prod).net } := by
  unfold State.postHw
  split <;> rfl

/-- The state without its network and its monitors: what a look at the monitors keeps (06 R183). -/
def State.unwatched (s : State) : State := { s with net := [], mons := [] }

theorem State.monLine_unwatched (s : State) (l t : Nat) : (s.monLine l t).unwatched = s.unwatched :=
  foldl_keeps State.unwatched (fun s m => by rw [State.postHw_eq]; rfl) ..

/-- A look at the monitors changes the network and the monitors alone (06 R183). -/
theorem State.monLine_eq (s : State) (l t : Nat) :
    s.monLine l t = { s with net := (s.monLine l t).net, mons := (s.monLine l t).mons } :=
  calc s.monLine l t
    _ = { (s.monLine l t).unwatched with net := (s.monLine l t).net, mons := (s.monLine l t).mons } := rfl
    _ = { s with net := (s.monLine l t).net, mons := (s.monLine l t).mons } := by rw [State.monLine_unwatched]; rfl

@[simp] theorem State.monLine_mem (s : State) (l t : Nat) : (s.monLine l t).mem = s.mem := by rw [State.monLine_eq]
@[simp] theorem State.monLine_lines (s : State) (l t : Nat) : (s.monLine l t).lines = s.lines := by rw [State.monLine_eq]
@[simp] theorem State.monLine_cores (s : State) (l t : Nat) : (s.monLine l t).cores = s.cores := by rw [State.monLine_eq]
@[simp] theorem State.monLine_parts (s : State) (l t : Nat) : (s.monLine l t).parts = s.parts := by rw [State.monLine_eq]
@[simp] theorem State.monLine_windows (s : State) (l t : Nat) : (s.monLine l t).windows = s.windows := by rw [State.monLine_eq]
@[simp] theorem State.monLine_cur (s : State) (l t : Nat) : (s.monLine l t).cur = s.cur := by rw [State.monLine_eq]

/-! ## A write of a line (04 R117) -/

@[simp] theorem State.stampLine_mem (s : State) (l t : Nat) : (s.stampLine l t).mem = s.mem := State.monLine_mem ..
@[simp] theorem State.stampLine_cores (s : State) (l t : Nat) : (s.stampLine l t).cores = s.cores := State.monLine_cores ..
@[simp] theorem State.stampLine_parts (s : State) (l t : Nat) : (s.stampLine l t).parts = s.parts := State.monLine_parts ..

theorem State.line_stampLine (s : State) (l j t : Nat) :
    (s.stampLine l t).line j = if j = l then { s.line l with wts := t, rts := t } else s.line j := by
  rw [State.stampLine, State.line, State.monLine_lines]
  exact s.line_setLine ..

/-- A line is written at a time: it takes the time as wts and rts (04 R117). -/
def State.writtenAt (s : State) (l t : Nat) : Prop := (s.line l).wts = t ∧ (s.line l).rts = t

theorem State.writtenAt_stampLine {s : State} {l j t : Nat} (h : j = l ∨ s.writtenAt j t) : (s.stampLine l t).writtenAt j t := by
  unfold State.writtenAt
  rw [State.line_stampLine]
  split
  · exact ⟨rfl, rfl⟩
  · next hne => exact h.resolve_left hne

theorem State.writtenAt_stampLines {ks : List Nat} {j t : Nat} :
    ∀ {s : State}, j ∈ ks ∨ s.writtenAt j t → (ks.foldl (fun s l => s.stampLine l t) s).writtenAt j t := by
  induction ks with
  | nil => exact fun h => h.resolve_left (List.not_mem_nil)
  | cons l ks ih =>
    intro s h
    refine ih ?_
    rcases h with h | h
    · exact (List.mem_cons.mp h).symm.imp_right fun e => State.writtenAt_stampLine (.inl e)
    · exact .inr (State.writtenAt_stampLine (.inr h))

@[simp] theorem State.cleanLine_mem (s : State) (pa : Nat) (bs : List (Option Byte)) : (s.cleanLine pa bs).mem = s.mem := by
  unfold State.cleanLine; split <;> rfl
@[simp] theorem State.cleanLine_cores (s : State) (pa : Nat) (bs : List (Option Byte)) : (s.cleanLine pa bs).cores = s.cores := by
  unfold State.cleanLine; split <;> rfl
@[simp] theorem State.cleanLine_parts (s : State) (pa : Nat) (bs : List (Option Byte)) : (s.cleanLine pa bs).parts = s.parts := by
  unfold State.cleanLine; split <;> rfl
@[simp] theorem State.cleanLine_windows (s : State) (pa : Nat) (bs : List (Option Byte)) :
    (s.cleanLine pa bs).windows = s.windows := by
  unfold State.cleanLine; split <;> rfl

theorem State.writeLine_mem (s : State) (pa : Nat) (bs : List (Option Byte)) (t : Nat) :
    (s.writeLine pa bs t).mem = mwriteMask s.mem pa bs := by
  rw [State.writeLine, foldl_keeps State.mem fun s l => s.stampLine_mem l t]
  exact congrArg (mwriteMask · pa bs) (State.cleanLine_mem ..)

theorem State.writeLine_parts (s : State) (pa : Nat) (bs : List (Option Byte)) (t : Nat) : (s.writeLine pa bs t).parts = s.parts := by
  rw [State.writeLine, foldl_keeps State.parts fun s l => s.stampLine_parts l t]
  exact State.cleanLine_parts ..

theorem State.core?_keepCode (s : State) (l c : Nat) : (s.keepCode l).core? c =
    (s.core? c).map fun k => { k with task := k.task.map fun t => t.keepCode l (bytesVec (mread s.mem l 64)) } :=
  tget?_map _ (by exact fun _ => rfl) s.cores c

/-- A write of a line changes nothing of a core but what its task keeps of the code (01 R37). -/
theorem State.core?_writeLine {s : State} {c : Nat} {k : Core} (h : s.core? c = some k) (pa : Nat) (bs : List (Option Byte)) (t : Nat) :
    ∃ o, (s.writeLine pa bs t).core? c = some { k with task := o } := by
  rw [State.core?, State.writeLine, foldl_keeps State.cores fun s l => s.stampLine_cores l t]
  dsimp only
  rw [State.cleanLine_cores]
  exact ⟨_, (s.core?_keepCode (lineOf pa) c).trans (by rw [h]; rfl)⟩

theorem State.writtenAt_writeLine (s : State) (pa : Nat) (bs : List (Option Byte)) (t : Nat) {l : Nat} (h : l ∈ s.keysM pa bs) :
    (s.writeLine pa bs t).writtenAt l t := by
  refine State.writtenAt_stampLines (.inl ?_)
  rw [State.keysM, State.keysAt_congr (s := s)]
  · exact h
  · exact State.cleanLine_windows ..

end Sys2Proof.Machine
end

section
/-! PROOF. The commit of one store (04 R117, R118, 13 R310). -/

namespace Sys2Proof.Machine

/-! ## The lines of the commit -/

/-- The state without the order state of lines: what a renewal of leases keeps (04 R117). -/
def State.unlined (s : State) : State := { s with lines := [] }

theorem State.renew_unlined (s : State) (reads : List ReadEnt) (ct : Nat) : (s.renew reads ct).unlined = s.unlined := by
  refine foldl_keeps State.unlined (fun s e => ?_) ..
  dsimp only
  repeat' split
  all_goals rfl

theorem State.renew_mem (s : State) (reads : List ReadEnt) (ct : Nat) : (s.renew reads ct).mem = s.mem :=
  (congrArg State.mem (s.renew_unlined reads ct) :)
theorem State.renew_cores (s : State) (reads : List ReadEnt) (ct : Nat) : (s.renew reads ct).cores = s.cores :=
  (congrArg State.cores (s.renew_unlined reads ct) :)
theorem State.renew_insts (s : State) (reads : List ReadEnt) (ct : Nat) : (s.renew reads ct).insts = s.insts :=
  (congrArg State.insts (s.renew_unlined reads ct) :)
theorem State.renew_parts (s : State) (reads : List ReadEnt) (ct : Nat) : (s.renew reads ct).parts = s.parts :=
  (congrArg State.parts (s.renew_unlined reads ct) :)
theorem State.renew_windows (s : State) (reads : List ReadEnt) (ct : Nat) : (s.renew reads ct).windows = s.windows :=
  (congrArg State.windows (s.renew_unlined reads ct) :)

theorem State.core?_poolWrite (s : State) (pa c : Nat) : (s.poolWrite pa).core? c = s.core? c := by
  unfold State.poolWrite
  split <;> rfl

theorem State.writtenAt_poolWrite {s : State} {pa l t : Nat} (h : s.writtenAt l t) : (s.poolWrite pa).writtenAt l t := by
  unfold State.poolWrite
  split
  · exact h
  · exact h

@[simp] theorem State.poolWrite_mem (s : State) (pa : Nat) : (s.poolWrite pa).mem = s.mem := by
  unfold State.poolWrite
  split <;> rfl

/-- A launch without DMODE keeps no shadow (13 R319). -/
theorem shadowBefore_ok {s : State} {inst : Nat} {n : Inst} (hn : s.inst? inst = some n) (hd : n.dmode = false) (me : Option Nat)
    (va pa : Nat) : shadowBefore me inst va pa true s = .ok () s := by
  rw [shadowBefore, if_pos rfl, shadowUnit, bind_ok (get_ok s)]
  simp only [hn, hd, Bool.not_false, Bool.true_or, if_true, pure_ok]

/-- A page that is dirty already, through a map entry without DT, takes no bit (02 R67, R68). -/
theorem Xlat.dirty_nil {s : State} {x : Xlat} (hs : x.dseen = true)
    (hdt : ∀ e, tget? (s.part x.part).pmap x.mapi = some e → e.dt = false) : x.dirty s = [] := by
  simp only [Xlat.dirty, hs, if_true, List.nil_append, dirtyBit]
  split
  · next e he => simp [hdt e he]
  · rfl

/-- The write of a store to ordinary memory that sets no bit and leaves no line pinned. -/
theorem commitWrite_ok {s : State} {m : Com} {n : Inst} {x : Xlat} {bs : List (Option Byte)} (hp : m.plan = [])
    (hn : s.inst? m.k.inst = some n) (hd : n.dmode = false) (hx : x.dseen = true)
    (hdt : ∀ e, tget? (s.part x.part).pmap x.mapi = some e → e.dt = false) :
    commitWrite m x x.pa bs s = .ok () ((s.writeLine x.pa bs m.ct).poolWrite x.pa) := by
  have hpin : s.prePin m.c m.plan (s.keysM x.pa bs) = s := by simp [State.prePin, hp]
  have hdirty : x.dirty (s.writeLine x.pa bs m.ct) = [] := Xlat.dirty_nil hx (by rwa [State.part, State.writeLine_parts])
  rw [commitWrite, bind_ok (shadowBefore_ok hn hd ..)]
  simp only [modify, modifyGet, MonadStateOf.modifyGet, EStateM.modifyGet, hpin, State.markDirty, hdirty, State.orBits, List.foldl_nil]

/-- What the commit's write of one masked store leaves: its bytes, its lines at the commit time, and of the core all but what its task
keeps of the code. -/
structure Stored (s s' : State) (m : Com) (pa : Nat) (bs : List (Option Byte)) : Prop where
  mem : ∀ a, mget s'.mem a = if pa ≤ a then ((bs[a - pa]?).join).getD (mget s.mem a) else mget s.mem a
  lines : ∀ l, l ∈ s.keysM pa bs → s'.writtenAt l m.ct
  core : ∃ o, s'.core? m.c = some { m.k with task := o }

theorem stored_of_writeLine {s : State} {m : Com} (pa : Nat) (bs : List (Option Byte)) (hk : s.core? m.c = some m.k)
    (hw : Memory.wf s.mem = true) : Stored s ((s.writeLine pa bs m.ct).poolWrite pa) m pa bs where
  mem a := by rw [State.poolWrite_mem, State.writeLine_mem, mget_mwriteMask pa a bs hw]
  lines _ hl := State.writtenAt_poolWrite (s.writtenAt_writeLine pa bs m.ct hl)
  core := by
    rw [State.core?_poolWrite]
    exact State.core?_writeLine hk pa bs m.ct

/-- A store whose bytes are all off writes nothing (01 R28). -/
theorem stored_of_none {s : State} {m : Com} {pa : Nat} {bs : List (Option Byte)} (hk : s.core? m.c = some m.k)
    (hb : bs.all Option.isNone = true) : Stored s s m pa bs where
  mem a := by
    have hbs : (bs[a - pa]?).join = none := by
      cases hj : (bs[a - pa]?).join with
      | none => rfl
      | some b => simpa using List.all_eq_true.mp hb _ (List.mem_of_getElem? (Option.join_eq_some_iff.mp hj))
    rw [hbs]
    exact (ite_self _).symm
  lines l hl := by
    have hnone : present bs = [] := by
      refine List.filter_eq_nil_iff.mpr fun i hi => ?_
      have hi := List.mem_range.mp hi
      rw [List.getD_eq_getElem _ _ hi, Option.isNone_iff_eq_none.mp (List.all_eq_true.mp hb _ (List.getElem_mem hi))]
      simp
    rw [State.keysM, hnone] at hl
    cases hl
  core := ⟨m.k.task, hk⟩

theorem Stored.of_renew {s s' : State} {m : Com} {pa ct : Nat} {reads : List ReadEnt} {bs : List (Option Byte)}
    (h : Stored (s.renew reads ct) s' m pa bs) : Stored s s' m pa bs where
  mem a := by rw [h.mem a, State.renew_mem]
  lines l hl := h.lines l (by rwa [State.keysM, State.keysAt_congr (s.renew_windows reads ct)])
  core := h.core

/-- One such store of a commit. -/
theorem commitLine_store {s : State} {m : Com} {n : Inst} {x : Xlat} {bs : List (Option Byte)} (hp : m.plan = [])
    (hk : s.core? m.c = some m.k) (hn : s.inst? m.k.inst = some n) (hd : n.dmode = false) (ha : x.attr = 0) (hx : x.dseen = true)
    (hdt : ∀ e, tget? (s.part x.part).pmap x.mapi = some e → e.dt = false) (hw : Memory.wf s.mem = true) :
    ∃ s', commitLine m (.store x false bs none) s = .ok () s' ∧ Stored s s' m x.pa bs := by
  rw [commitLine, bind_ok (get_ok _)]
  have hattr : (x.attr == 2 || x.toHost s) = false := by simp [Xlat.toHost, ha]
  simp only [hattr, Bool.false_or]
  by_cases hb : bs.all Option.isNone = true
  · rw [if_pos hb]
    exact ⟨s, rfl, stored_of_none hk hb⟩
  · rw [if_neg hb]
    exact ⟨_, commitWrite_ok hp hn hd hx hdt, stored_of_writeLine x.pa bs hk hw⟩

/-- The indivisible step of a commit whose only effect is one such store (04 R118). -/
theorem commitLines_store {s : State} {m : Com} {n : Inst} {x : Xlat} {bs : List (Option Byte)} (hp : m.plan = [])
    (hk : s.core? m.c = some m.k) (hn : s.inst? m.k.inst = some n) (hd : n.dmode = false)
    (he : m.t.sluice = [.store x false bs none]) (ha : x.attr = 0) (hx : x.dseen = true)
    (hdt : ∀ e, tget? (s.part x.part).pmap x.mapi = some e → e.dt = false) (hw : Memory.wf s.mem = true) :
    ∃ s', commitLines m s = .ok () s' ∧ Stored s s' m x.pa bs := by
  obtain ⟨s', hs, h⟩ := commitLine_store (s := s.renew m.t.reads m.ct) (bs := bs) hp (by rwa [State.core?, State.renew_cores])
    (by rwa [State.inst?, State.renew_insts]) hd ha hx (by rwa [State.part, State.renew_parts]) (by rwa [State.renew_mem])
  refine ⟨s', ?_, h.of_renew⟩
  rw [commitLines, he, bind_ok (modify_ok ..)]
  exact bind_ok hs

/-! ## The rest of the commit -/

theorem State.line_unlock (s : State) (c l : Nat) :
    (s.unlock c).line l = s.line l ∨ (s.unlock c).line l = { s.line l with hold := .free } := by
  unfold State.line State.unlock tget
  rw [tget?_map _ fun p => by dsimp only; split <;> rfl]
  cases tget? s.lines l with
  | none => exact .inl rfl
  | some y =>
    dsimp only [Option.map_some, Option.getD_some]
    split
    · exact .inr rfl
    · exact .inl rfl

theorem State.writtenAt_unlock {s : State} {c l t : Nat} (h : s.writtenAt l t) : (s.unlock c).writtenAt l t := by
  unfold State.writtenAt
  rcases s.line_unlock c l with e | e <;> rw [e] <;> exact h

theorem State.core?_onCore_same {s : State} {c : Nat} {k : Core} (h : s.core? c = some k) (f : Core → Core) :
    (s.onCore c f).core? c = some (f k) := by
  rw [State.core?_onCore, if_pos rfl, h]
  rfl

/-- A store leaves with its lines: nothing of it is left to send (13 R312). -/
theorem commitReleases_store (m : Sender) (s : State) (x : Xlat) (far : Bool) (bs : List (Option Byte)) (rel : Option Scope) :
    commitReleases m [] [] [.store x far bs rel] s = s := rfl

/-- What is left to do of a commit whose only effect is one store (13 R310): the core takes the commit time and the flags, the trigger
leaves the mailbox, and the task is over. -/
theorem commitRest_store {s : State} {m : Com} {x : Xlat} {bs : List (Option Byte)} (hp : m.plan = []) (hdet : m.det = false)
    (he : m.t.sluice = [.store x false bs none]) (ho : m.t.pops = []) (ha : x.attr = 0) :
    commitRest m s = ((((s.unlock m.c).onCore m.c fun k => { k with pts := m.ct }).onCore m.c fun k => k.commitFlags m.t).onCore m.c
      fun k => { k.popHead m.t.ch with task := none }).onCtx m.part m.ctx fun y =>
        { y with fqhead := min y.fqtail (y.fqhead + m.t.fltpops), lastCommit := s.now } := by
  have hfar (s : State) : commitFar m (.store x false bs none) s = s := by simp [commitFar, Xlat.toHost, ha]
  have hdig (s : State) : m.digest s = s := by simp [Com.digest, hdet]
  have hset (k : Core) : k.settleCulverts m.t = k := by simp [Core.settleCulverts, ho]
  have hpark : ([.store x false bs none] : List Eff).filter (fun e => e.parks m.t.ch) = [] :=
    List.filter_cons_of_neg (by simp [Eff.parks])
  unfold commitRest
  extract_lets es s1 s2 s3 s4 s5 s6 s7 s8 s9
  have h1 : s1 = (s.unlock m.c).onCore m.c fun k => { k with pts := m.ct } := by simp only [s1, hp, State.applyPins, List.foldl_nil]
  have hes : es = [.store x false bs none] := he
  have h2 : s2 = s1 := by simp only [s2, hes, List.foldl_cons, List.foldl_nil, commitPubl]
  have h3 : s3 = s2 := by simp only [s3, hes, List.foldl_cons, List.foldl_nil, commitPers]
  have h4 : s4 = s3 := by simp only [s4, hes, List.foldl_cons, List.foldl_nil, hfar]
  have h5 : s5 = s4.onCore m.c fun k => k.commitFlags m.t := hdig _
  have h6 : s6 = s5 := by simp only [s6, hes, List.foldl_cons, List.foldl_nil, commitMember]
  have h7 : s7 = s6 := (congrArg (commitReleases m.sender [] [] · s6) hes).trans (commitReleases_store ..)
  have h8 : s8 = s7 := by simp only [s8, hes, List.foldl_cons, List.foldl_nil, commitArm]
  have h9 : s9 = s8.onCore m.c fun k => { k.popHead m.t.ch with task := none } := by
    simp only [s9, hes, hset, hpark, List.foldl_nil]
  rw [h9, h8, h7, h6, h5, h4, h3, h2, h1]
  simp only [State.onCore_now, State.unlock]

/-- The rest of the commit of one store keeps what its lines left, and ends the task of its core. -/
theorem commitRest_of_stored {s s' : State} {m : Com} {x : Xlat} {bs : List (Option Byte)} (h : Stored s s' m x.pa bs) (hp : m.plan = [])
    (hdet : m.det = false) (he : m.t.sluice = [.store x false bs none]) (ho : m.t.pops = []) (ha : x.attr = 0) :
    (commitRest m s').mem = s'.mem ∧ (∀ l t, s'.writtenAt l t → (commitRest m s').writtenAt l t) ∧
    ∃ k', (commitRest m s').core? m.c = some k' ∧ k'.task = none ∧ k'.pts = m.ct ∧ k'.spad = m.k.spad ∧
      (k'.chan m.t.ch).box = (m.k.chan m.t.ch).box.drop 1 ∧ (k'.chan m.t.ch).aborts = 0 ∧
      k'.sticky = m.k.sticky ||| m.t.fstat.flags := by
  obtain ⟨o, hk⟩ := h.core
  rw [commitRest_store hp hdet he ho ha]
  refine ⟨by simp [State.unlock], fun l t hl => ?_, ?_⟩
  · have := State.writtenAt_unlock (c := m.c) hl
    simpa [State.writtenAt, State.line] using this
  · have hu : (s'.unlock m.c).core? m.c = some { m.k with task := o } := hk
    refine ⟨_, State.core?_onCore_same (State.core?_onCore_same (State.core?_onCore_same hu _) _) _, ?_⟩
    simp only [Core.commitFlags, he, List.foldl_cons, List.foldl_nil, Core.popHead, Core.setChan, Core.chan, tget_tput, if_true, Chan.pop,
      and_self]

/-- Settles O44: the write of the store, and then what 13 R310 says of its core. -/
theorem committedStore : Obligations.CommittedStore := by
  unfold Obligations.CommittedStore
  intro s m n x bs hk _ hn hd hdet he ho ha hx hdt hw
  have hplan : pinPlan s m.t.sluice = [] := by rw [he]; rfl
  obtain ⟨s', hs, h⟩ := commitLines_store (m := { m with plan := pinPlan s m.t.sluice }) hplan hk hn hd he ha hx hdt hw
  have hrun : commitAt m s = commitRest { m with plan := pinPlan s m.t.sluice } s' := by rw [commitAt, hs]
  obtain ⟨hmem, hlines, hcore⟩ := commitRest_of_stored h hplan hdet he ho ha
  rw [← hrun] at hmem hlines hcore
  exact ⟨fun a => by rw [hmem, h.mem a], fun l hl => hlines l m.ct (h.lines l hl), hcore⟩

end Sys2Proof.Machine
end

section
/-! PROOF. Run-ahead and the request ports change nothing that a load reads (02 R62, R66; 19 R385): walks ahead of their access set no
A bit, and fill caches and take slots only. -/

namespace Sys2Proof.Machine

/-! ## What an operation leaves -/

/-- The state that an operation leaves, whether it stops or not. -/
def leftBy {α : Type} : EStateM.Result Stop State α → State
  | .ok _ s => s
  | .error _ s => s

/-- The state without translation caches, lotteries and request ports. -/
def State.unqueued (s : State) : State := { s with tlbs := [], lotts := [], lineReqs := [], portAt := [] }

/-- An operation changes translation caches, lotteries and request ports alone, also where it stops. -/
structure Keeps {α : Type} (m : M α) : Prop where
  left : ∀ s, (leftBy (m s)).unqueued = s.unqueued

section
variable {α β : Type}

theorem Keeps.ok {m : M α} (h : Keeps m) {s s' : State} {a : α} (e : m s = .ok a s') : s'.unqueued = s.unqueued := by
  simpa [e, leftBy] using h.left s

theorem Keeps.error {m : M α} (h : Keeps m) {s s' : State} {r : Stop} (e : m s = .error r s') : s'.unqueued = s.unqueued := by
  simpa [e, leftBy] using h.left s

theorem keeps_pure (a : α) : Keeps (pure a : M α) := ⟨fun _ => rfl⟩

theorem keeps_throw (e : Stop) : Keeps (throw e : M α) := ⟨fun _ => rfl⟩

theorem keeps_get : Keeps (get : M State) := ⟨fun _ => rfl⟩

theorem Keeps.bind {m : M α} {f : α → M β} (hm : Keeps m) (hf : ∀ a, Keeps (f a)) : Keeps (m >>= f) := by
  refine ⟨fun s => ?_⟩
  cases h : m s with
  | ok a s' => rw [bind_ok h, (hf a).left s', hm.ok h]
  | error e s' => rw [bind_error h]; exact hm.error h

theorem Keeps.ite {c : Prop} [Decidable c] {m m' : M α} (h : Keeps m) (h' : Keeps m') : Keeps (if c then m else m') := by
  split
  · exact h
  · exact h'

end

/-! ## Walks ahead (02 R55, R62, R66) -/

theorem keeps_tableAddr (part gpa : Nat) (va : VAddr) (lvl : Nat) : Keeps (tableAddr part gpa va lvl) := by
  refine keeps_get.bind fun s => ?_
  split
  · exact keeps_throw _
  · refine Keeps.ite (keeps_throw _) ?_
    dsimp only
    split
    · exact keeps_throw _
    · exact keeps_throw _
    · exact keeps_throw _
    · exact keeps_pure _

theorem keeps_tableRead (pa : Nat) (va : VAddr) (lvl : Nat) : Keeps (tableRead pa va lvl) := by
  refine ⟨fun s => ?_⟩
  unfold tableRead
  dsimp only
  split
  · rfl
  · split <;> rfl

theorem keeps_walkFrom (part : Nat) (va : VAddr) (n tab : Nat) : Keeps (walkFrom part va n tab) := by
  induction n generalizing tab with
  | zero => exact keeps_throw _
  | succ n ih =>
    unfold walkFrom
    refine (keeps_tableAddr ..).bind fun pa => (keeps_tableRead ..).bind fun e => ?_
    dsimp only
    have hleaf (log group : Nat) : Keeps (do
        let lead ← tableAddr part (tab + 8 * (fld va (55 - 10 * (3 - n)) (46 - 10 * (3 - n)) / group * group)) va (3 - n)
        let s ← get
        pure ({ e, lvl := 3 - n, gpa := fld e 51 16 * 2 ^ 16 + va.toNat % 2 ^ log, logsz := log, lead,
                alike := groupAlike s lead group e } : Leaf)) :=
      (keeps_tableAddr ..).bind fun _ => keeps_get.bind fun _ => keeps_pure _
    have hfault (c : Cause) : Keeps (walkFault c va (3 - n) : M Leaf) := keeps_throw _
    have hentry (log group : Nat) := Keeps.ite (c := (fld e 51 16 * 2 ^ 16 % 2 ^ log != 0) = true) (hfault .tableErr) (hleaf log group)
    refine .ite (hfault _) (.ite (.ite (hfault _) (ih _)) (.ite (hfault _) (.ite (hfault _) ?_)))
    exact .ite (hentry 30 16) (.ite (hentry 16 1) (.ite (hentry 21 32) (hfault _)))

/-- The walker of a walk ahead reads the lead entry and finds A set, or the walk is dropped: it sets no bit (02 R66). -/
theorem keeps_readMarked {α : Type} {f : Word → M α} (lead : Nat) (va : VAddr) (lvl : Nat) (hf : ∀ w, Keeps (f w)) :
    Keeps (do
      let w ← tableRead lead va lvl
      if (true && !w.getLsbD 6) = true then do throw .abort; homeOr lead 6 0; f w else do homeOr lead 6 0; f w) := by
  refine ⟨fun s => ?_⟩
  cases h : tableRead lead va lvl s with
  | error e s' => rw [bind_error h]; exact (keeps_tableRead ..).error h
  | ok w s' =>
    have hw : s' = s ∧ w.getLsbD 6 = (leNat (mread s.mem lead 8)).testBit 6 := by
      unfold tableRead at h
      dsimp only at h
      split at h
      · cases h
      · split at h
        · cases h
        · cases h
          exact ⟨rfl, by rw [leWord64, BitVec.getLsbD_ofNat]; rfl⟩
    obtain ⟨rfl, hw⟩ := hw
    rw [bind_ok h]
    by_cases hb : w.getLsbD 6 = true
    · have hor : homeOr lead 6 0 s' = .ok () s' := by rw [homeOr, if_pos (hw ▸ hb)]
      rw [if_neg (by simp [hb]), bind_ok hor]
      exact (hf w).left s'
    · rw [if_pos (by simpa using hb)]
      rfl

theorem keeps_walkAhead (key : Option Nat) (part ctx : Nat) (priv : Bool) (k : AccKind) (peerOk : Bool) (va : VAddr) :
    Keeps (walkEntry key part ctx priv k peerOk true va) := by
  unfold walkEntry
  refine keeps_get.bind fun s => (keeps_walkFrom ..).bind fun l => .ite (keeps_throw _) (.ite (keeps_throw _) ?_)
  split
  · exact keeps_throw _
  dsimp only
  split
  · exact keeps_throw _
  refine keeps_readMarked _ _ _ fun w => ?_
  cases key with
  | none => exact keeps_pure _
  | some c => exact .bind ⟨fun _ => rfl⟩ fun _ => keeps_pure _

theorem State.lottery_unqueued {s s' : State} {cls idx g : Nat} {holder : Option Nat} {want : List Nat}
    (h : s.lottery cls idx holder want = some (g, s')) : s'.unqueued = s.unqueued := by
  obtain ⟨r, -, hr⟩ := Option.map_eq_some_iff.mp h
  rw [← (Prod.mk.inj hr).2]
  rfl

theorem keeps_takeWalker (die owner : Nat) : Keeps (takeWalker die owner) := by
  refine ⟨fun s => ?_⟩
  unfold takeWalker
  split
  · rfl
  · split
    · next h => exact State.lottery_unqueued h
    · rfl

theorem keeps_xlatAhead (c part ctx : Nat) (priv : Bool) (k : AccKind) (va : VAddr) : Keeps (xlatAhead c part ctx priv k va) := by
  refine keeps_get.bind fun s => ?_
  split
  · exact .ite (keeps_pure _) (keeps_throw _)
  · exact (keeps_takeWalker ..).bind fun _ => keeps_walkAhead ..

/-! ## The loads that follow (01 R38, 19 R385) -/

theorem keeps_ahead (t : Task) (c : Nat) (k : AccKind) (va : Word) : Keeps (t.ahead c k va) :=
  keeps_get.bind fun _ => keeps_xlatAhead ..

theorem keeps_wordAhead (t : Task) (c : Nat) (va : VAddr) : Keeps (t.wordAhead c va) := by
  refine (keeps_ahead ..).bind fun x => keeps_get.bind fun s => ?_
  have hword (b : Bool) (m : M IWord) (hm : Keeps m) : Keeps (if b = true then (do let _ ← (throw .abort : M PUnit); m) else m) :=
    .ite (.bind (keeps_throw _) fun _ => hm) hm
  refine hword _ _ ?_
  split
  · exact keeps_pure _
  · exact hword _ _ (keeps_pure _)

theorem keeps_instrAhead (t : Task) (c : Nat) (pc : VAddr) : Keeps (t.instrAhead c pc) := by
  refine (keeps_wordAhead ..).bind fun w => ?_
  split
  · exact keeps_throw _
  · next n _ =>
    have hnext (va : VAddr) (f : IWord → M (Instr × Nat)) (hf : ∀ x, Keeps (f x)) :
        Keeps (if n = 1 then (do let x ← pure 0; f x) else (do let x ← t.wordAhead c va; f x)) :=
      .ite (.bind (keeps_pure _) hf) (.bind (keeps_wordAhead ..) hf)
    refine hnext _ _ fun x => hnext _ _ fun y => ?_
    split
    · exact keeps_pure _
    · exact keeps_throw _

theorem keeps_loadsAhead (c n : Nat) (t : Task) (late : List Nat) : Keeps (loadsAhead c n t late) := by
  induction n generalizing t late with
  | zero => exact keeps_pure _
  | succ n ih =>
    refine ⟨fun s => ?_⟩
    unfold loadsAhead
    dsimp only
    split
    case h_1 h => exact (keeps_instrAhead ..).error h
    case h_2 i len s1 h =>
    rw [← (keeps_instrAhead ..).ok h]
    split
    case h_1 l hl =>
      split
      · rfl
      split
      case h_1 h => exact (keeps_ahead ..).error h
      case h_2 x s2 h =>
      rw [← (keeps_ahead ..).ok h]
      split
      · split
        · next h => exact (ih ..).ok h
        · next h => exact (ih ..).error h
      · split
        · next h => exact (ih ..).ok h
        · next h => exact (ih ..).error h
    case h_2 hl =>
      split
      case h_1 rs m bs hst =>
        split
        · rfl
        split
        case h_1 h => exact (keeps_ahead ..).error h
        case h_2 x s2 h =>
        rw [← (keeps_ahead ..).ok h]
        exact (ih ..).left s2
      case h_2 hst =>
        split
        · rfl
        split
        · rfl
        split
        · rfl
        · exact (ih ..).left s1

theorem Task.nextLoads_unqueued (t : Task) (c : Nat) (s : State) : (t.nextLoads c s).2.unqueued = s.unqueued := by
  unfold Task.nextLoads
  split
  · rfl
  · split
    · next h => exact (keeps_loadsAhead ..).ok h
    · next h => exact (keeps_loadsAhead ..).error h

/-! ## Requests and slots (19 R385) -/

theorem State.sendReq_unqueued (s : State) (r : LineReq) : (s.sendReq r).unqueued = s.unqueued := by
  unfold State.sendReq
  dsimp only
  split <;> rfl

theorem State.sendAhead_unqueued (s : State) (c : Nat) (t : Task) : (s.sendAhead c t).unqueued = s.unqueued := by
  refine (foldl_keeps State.unqueued (fun s l => ?_) ..).trans (t.nextLoads_unqueued c s)
  split
  · rfl
  · exact s.sendReq_unqueued _

theorem State.portSlot_unqueued {s s' : State} {slice : Nat} {r : LineReq} (h : s.portSlot slice = some (r, s')) :
    s'.unqueued = s.unqueued := by
  unfold State.portSlot at h
  dsimp only at h
  split at h
  · cases h
  · next hl =>
    split at h
    · cases h
    · cases h
      exact (State.lottery_unqueued hl :)

/-- What is the same but for caches, lotteries and ports is an update of those alone. -/
theorem State.eq_of_unqueued {s s' : State} (h : s'.unqueued = s.unqueued) :
    s' = { s with tlbs := s'.tlbs, lotts := s'.lotts, lineReqs := s'.lineReqs, portAt := s'.portAt } :=
  calc s'
    _ = { s'.unqueued with tlbs := s'.tlbs, lotts := s'.lotts, lineReqs := s'.lineReqs, portAt := s'.portAt } := rfl
    _ = { s with tlbs := s'.tlbs, lotts := s'.lotts, lineReqs := s'.lineReqs, portAt := s'.portAt } := by rw [h]; rfl

end Sys2Proof.Machine
end

section
/-! PROOF. A load of one line: its request, its lease and its record (04 R114, R115, R131, 05 R149, R164, 19 R385). -/

namespace Sys2Proof.Machine

/-! ## Pins that leave the L1 (07 R198; 04 R130) -/

theorem State.publish_windows (s : State) (l : Nat) : (s.publish l).windows = s.windows := by
  unfold State.publish
  dsimp only
  split
  · exact State.monLine_windows ..
  · rfl

theorem State.publish_cur (s : State) (l : Nat) : (s.publish l).cur = s.cur := by
  unfold State.publish
  dsimp only
  split
  · exact State.monLine_cur ..
  · rfl

theorem State.evictPins_windows (s : State) (c l : Nat) : (s.evictPins c l).windows = s.windows := by
  refine foldl_keeps State.windows (fun s p => ?_) ..
  dsimp only
  split
  · exact State.publish_windows ..
  · rfl

theorem State.evictPins_cur (s : State) (c l : Nat) : (s.evictPins c l).cur = s.cur := by
  refine foldl_keeps State.cur (fun s p => ?_) ..
  dsimp only
  split
  · exact State.publish_cur ..
  · rfl

/-! ## A line joins the read set (04 R114 to R116) -/

/-- A change of the task of a core, where one runs. -/
def State.onTask (s : State) (c : Nat) (f : Task → Task) : State := s.onCore c fun k => { k with task := k.task.map f }

/-- A line joins the read set of the task of a core. -/
def State.joinRead (s : State) (c : Nat) (e : ReadEnt) : State := s.onTask c fun t => { t with reads := t.reads ++ [e] }

theorem State.joinRead_windows (s : State) (c : Nat) (e : ReadEnt) : (s.joinRead c e).windows = s.windows := State.onCore_windows ..

theorem modTask_eq (f : Task → Task) (s : State) : modTask f s = .ok () (s.onTask s.cur f) := by
  refine congrArg (EStateM.Result.ok ()) ?_
  unfold State.onTask State.onCore
  cases hk : s.core? s.cur with
  | none => simp only [State.task?, hk, Option.bind_none]
  | some k =>
    cases ht : k.task with
    | none =>
      have e : ({ k with task := none } : Core) = k := by rw [← ht]
      simp only [State.task?, hk, Option.bind_some, ht, Option.map_none, e, State.setCore, tput_same hk]
    | some t => simp only [State.task?, hk, Option.bind_some, ht, State.setTask, State.onCore, Option.map_some]

/-- What a task records of a line with a lease that ends at `r`, or without one. -/
def State.readOf (s : State) (l : Nat) (r : Option Nat) : ReadEnt :=
  { line := l, wts := (s.line l).wts, r, data := bytesVec (mread s.mem l 64), sb := (sideband s l).getD 0 }

/-- A line that no locked task holds is requested without aborting one (04 R125). -/
theorem bump_ok {s : State} {l : Nat} (h : ∀ c, (s.line l).hold ≠ .locked c) : bump l s = .ok () s := by
  refine congrArg (EStateM.Result.ok ()) ?_
  dsimp only [State.bumpFor]
  split
  · next c hc => exact absurd hc (h c)
  · rfl

section
variable {s : State} {t : Task} {l : Nat} {va : VAddr}

theorem takeLine_pinned (ht : s.task? = some t) (hn : t.reads.length < 512) (hp : s.poisoned l = false)
    (hh : (s.line l).hold = .pinned (s.pid s.cur)) : takeLine l va s = .ok (s.readOf l none) (s.joinRead s.cur (s.readOf l none)) := by
  have hb : bump l s = .ok () s := bump_ok fun c e => by rw [hh] at e; cases e
  rw [takeLine, bind_ok (getTask_ok ht), bind_ok (need_ok _ _ _ (decide_eq_true hn)), bind_ok hb, bind_ok (get_ok s)]
  simp only [hp, Bool.false_eq_true, if_false, if_pos hh]
  rw [bind_ok (pure_ok ..), bind_ok (modTask_eq ..)]
  rfl

/-- A line that a lease answers for joins the read set, and comes into the L1. -/
theorem takeLine_leased {s1 : State} {r : Nat} (ht : s.task? = some t) (hn : t.reads.length < 512) (hp : s.poisoned l = false)
    (hb : ∀ c, (s.line l).hold ≠ .locked c) (hh : (s.line l).hold ≠ .pinned (s.pid s.cur))
    (hl : lease l t.ts s.cur t.locked s = .ok ((s.line l).wts, r) s1) (hc : s1.cur = s.cur) :
    takeLine l va s = .ok (s.readOf l (some r)) ((s1.evictPins s.cur l).joinRead s.cur (s.readOf l (some r))) := by
  rw [takeLine, bind_ok (getTask_ok ht), bind_ok (need_ok _ _ _ (decide_eq_true hn)), bind_ok (bump_ok hb), bind_ok (get_ok s)]
  simp only [hp, Bool.false_eq_true, if_false, if_neg hh]
  rw [bind_ok hl, bind_ok (modify_ok ..), bind_ok (pure_ok ..), bind_ok (modTask_eq ..), State.evictPins_cur, hc]
  rfl

theorem takeLine_unleased {s1 : State} {e : Stop} (ht : s.task? = some t) (hn : t.reads.length < 512) (hp : s.poisoned l = false)
    (hb : ∀ c, (s.line l).hold ≠ .locked c) (hh : (s.line l).hold ≠ .pinned (s.pid s.cur))
    (hl : lease l t.ts s.cur t.locked s = .error e s1) : takeLine l va s = .error e s1 := by
  rw [takeLine, bind_ok (getTask_ok ht), bind_ok (need_ok _ _ _ (decide_eq_true hn)), bind_ok (bump_ok hb), bind_ok (get_ok s)]
  simp only [hp, Bool.false_eq_true, if_false, if_neg hh]
  exact bind_error hl

/-! ## Who answers a lease (04 R114, R129, 05 R164) -/

theorem lease_retry {c ts me : Nat} {lock : Bool} (h : (s.line l).hold = .pinned c) (hc : c ≠ s.pid me) :
    lease l ts me lock s = .error .retry s := by
  have hb : s.holdBlocks l (some me) = true := by simp [State.holdBlocks, h, Ne.symm hc]
  simp only [lease, hb, if_true]

theorem lease_replica {ts me : Nat} (h : (s.line l).hold = .free)
    (hr : s.replicaServes (s.dieOf me) l (max ts (s.line l).wts + s.leaseLen) = true) :
    lease l ts me false s = .ok ((s.line l).wts, max ts (s.line l).wts + s.leaseLen) s := by
  have hb : s.holdBlocks l (some me) = false := by simp [State.holdBlocks, h]
  simp only [lease, hb, hr, Bool.false_eq_true, if_false, Bool.not_false, Bool.true_and, if_true]

/-- The home gives a lease on a free line with the order state `y`: its rts rises to the end of it, and the grant is counted (05 R163). -/
def State.leaseHome (s : State) (l : Nat) (y : Line) (me r : Nat) (lock : Bool) : State :=
  { s.setLine l { y with rts := r, hold := if lock then .locked me else .free } with
    grants := tput s.grants l (tget s.grants l 0 + 1) }

theorem lease_home {ts me : Nat} {lock : Bool} (h : (s.line l).hold = .free)
    (hr : ¬ (lock = false ∧ s.replicaServes (s.dieOf me) l (max ts (s.line l).wts + s.leaseLen) = true)) :
    let r := max (s.line l).rts (max ts (s.line l).wts + s.leaseLen)
    lease l ts me lock s = .ok ((s.line l).wts, r) (s.leaseHome l (s.line l) me r lock) := by
  have hb : s.holdBlocks l (some me) = false := by simp [State.holdBlocks, h]
  have hr' : (!lock && s.replicaServes (s.dieOf me) l (max ts (s.line l).wts + s.leaseLen)) = false := by
    simpa [Bool.and_eq_true] using hr
  simp only [lease, hb, hr', Bool.false_eq_true, if_false, h, State.leaseHome]
  rfl

/-! ## A request (19 R385, 18 R372) -/

section
variable (ht : s.task? = some t)
include ht

theorem request_waits
    (h : let sent := (s.sendReq (s.lineReq s.cur t l)).sendAhead s.cur t
      sent.portBusy (s.lineReq s.cur t l).slice = true ∨ sent.portSlot (s.lineReq s.cur t l).slice = none) :
    request l s = .error .queued ((s.sendReq (s.lineReq s.cur t l)).sendAhead s.cur t) := by
  rw [request, bind_ok (get_ok s), bind_ok (getTask_ok ht)]
  have hnone : (if ((s.sendReq (s.lineReq s.cur t l)).sendAhead s.cur t).portBusy (s.lineReq s.cur t l).slice then none
      else ((s.sendReq (s.lineReq s.cur t l)).sendAhead s.cur t).portSlot (s.lineReq s.cur t l).slice) = none := by
    rcases h with h | h
    · rw [if_pos h]
    · rw [h, ite_self]
  simp only [hnone]
  rfl

theorem request_slot {w : LineReq} {s1 : State}
    (hb : ((s.sendReq (s.lineReq s.cur t l)).sendAhead s.cur t).portBusy (s.lineReq s.cur t l).slice = false)
    (hs : ((s.sendReq (s.lineReq s.cur t l)).sendAhead s.cur t).portSlot (s.lineReq s.cur t l).slice = some (w, s1)) :
    request l s = if w = s.lineReq s.cur t l then .ok () s1 else .error .queued (s1.serve w) := by
  rw [request, bind_ok (get_ok s), bind_ok (getTask_ok ht)]
  simp only [hb, hs, Bool.false_eq_true, if_false, beq_iff_eq]
  split <;> rfl

/-! ## The entry of a line (04 R114 to R116, 19 R385) -/

theorem readEnt_recorded {e : ReadEnt} {hit : Bool} (h : t.reads.find? (fun e => e.line == l) = some e) :
    readEnt l va hit s = .ok e s := by
  rw [readEnt, bind_ok (getTask_ok ht), h]
  rfl

theorem readEnt_full {hit : Bool} (h : t.reads.find? (fun e => e.line == l) = none) (hn : 512 ≤ t.reads.length) :
    readEnt l va hit s = .error (.flt { cause := .rsetFull }) s := by
  rw [readEnt, bind_ok (getTask_ok ht), h]
  exact bind_error (need_error _ _ _ (decide_eq_false (Nat.not_lt.mpr hn)))

/-- A line that is in the L1 by a pin, or of which the sluice holds every wanted byte, is not requested. -/
theorem readEnt_unrequested {hit : Bool} (h : t.reads.find? (fun e => e.line == l) = none) (hn : t.reads.length < 512)
    (hh : (s.line l).hold = .pinned (s.pid s.cur) ∨ hit = true) : readEnt l va hit s = takeLine l va s := by
  have hreq : ((s.line l).hold != .pinned (s.pid s.cur) && !hit) = false := by
    rcases hh with hh | hh <;> simp [hh]
  rw [readEnt, bind_ok (getTask_ok ht), h]
  refine (bind_ok (need_ok _ _ _ (decide_eq_true hn))).trans ((bind_ok (get_ok s)).trans ?_)
  simp only [hreq, Bool.false_eq_true, if_false]

theorem readEnt_requested (h : t.reads.find? (fun e => e.line == l) = none) (hn : t.reads.length < 512)
    (hh : (s.line l).hold ≠ .pinned (s.pid s.cur)) : readEnt l va false s = (request l >>= fun _ => takeLine l va) s := by
  have hreq : ((s.line l).hold != .pinned (s.pid s.cur) && !false) = true := by simp [hh]
  rw [readEnt, bind_ok (getTask_ok ht), h]
  refine (bind_ok (need_ok _ _ _ (decide_eq_true hn))).trans ((bind_ok (get_ok s)).trans ?_)
  simp only [hreq, if_true]

end

end

/-! ## ReadGlobal of one line (05 R149) -/

theorem mapM_one_ok {α β : Type} {f : α → M β} {a : α} {b : β} {s s' : State} (h : f a s = .ok b s') :
    [a].mapM f s = .ok [b] s' := by
  rw [List.mapM_cons, bind_ok h]
  rfl

theorem mapM_one_error {α β : Type} {f : α → M β} {a : α} {e : Stop} {s s' : State} (h : f a s = .error e s') :
    [a].mapM f s = .error e s' := by
  rw [List.mapM_cons, bind_error h]

theorem recorded_congr {s s' : State} (h : s'.windows = s.windows) : recorded s' = recorded s := by
  funext es a
  simp only [recorded, scaleOf, h]

/-- The lines of an access are those of its bytes (03 R109). -/
theorem State.mem_keysAt (s : State) (pa : Nat) (is : List Nat) (l : Nat) :
    l ∈ s.keysAt pa is ↔ ∃ i ∈ is, s.keyOf (pa + i) = l := by
  have hfold : ∀ acc : List Nat,
      l ∈ is.foldl (fun ks i => if ks.contains (s.keyOf (pa + i)) then ks else ks ++ [s.keyOf (pa + i)]) acc ↔ l ∈ acc ∨ ∃ i ∈ is, s.keyOf (pa + i) = l := by
    induction is with
    | nil => simp
    | cons i is ih =>
      intro acc
      rw [List.foldl_cons, ih, List.exists_mem_cons_iff, ← or_assoc]
      refine or_congr_left ?_
      split
      · next h => exact ⟨.inl, fun h' => h'.elim id fun e => e ▸ List.contains_iff_mem.mp h⟩
      · rw [List.mem_append, List.mem_singleton, eq_comm]
  exact (hfold []).trans (by simp)

theorem State.keyOf_of_keys {s : State} {pa n l : Nat} (h : s.keys pa n = [l]) {i : Nat} (hi : i < n) : s.keyOf (pa + i) = l := by
  have hm := (s.mem_keysAt pa (List.range n) (s.keyOf (pa + i))).mpr ⟨i, List.mem_range.mpr hi, rfl⟩
  exact List.mem_singleton.mp (h ▸ hm)

/-- The bytes of a load of one line: those that the task holds, and those of the record (04 R115). -/
def loadedBytes (t : Task) (s : State) (pa n : Nat) (e : ReadEnt) : List Byte :=
  (List.range n).map fun i => (forwarded t (pa + i)).getD (recorded s [e] (pa + i))

/-- Every byte of an access is one that the task holds in its sluice (19 R385). -/
def Task.holdsAll (t : Task) (pa n : Nat) : Prop := ∀ i, i < n → (forwarded t (pa + i)).isSome = true

section
variable {s s0 : State} {t : Task} {va : Word} {n l : Nat} {x : Xlat} (ht : s.task? = some t)
  (hx : taskXlat t .load false va s = .ok x s0) (ha : x.attr ≠ 2) (hh : x.toHost s0 = false) (hk : s0.keys x.pa n = [l])
include ht hx ha hh hk

/-- A load of one line outside every host-bias and device page is that of its entry (05 R149). -/
theorem readGlobal_line {hit : Bool} (hhit : hit = true ↔ t.holdsAll x.pa n) :
    (∀ e s', readEnt l x.va hit s0 = .ok e s' → s'.windows = s0.windows →
      readGlobal va n (List.range n) s = .ok (loadedBytes t s0 x.pa n e) s') ∧
    (∀ r s', readEnt l x.va hit s0 = .error r s' → readGlobal va n (List.range n) s = .error r s') := by
  have ha2 : (x.attr == 2) = false := beq_eq_false_iff_ne.mpr ha
  have hkeys : s0.keysAt x.pa (List.range n) = [l] := hk
  have hhits : ((List.range n).all fun i => s0.keyOf (x.pa + i) != l || (forwarded t (x.pa + i)).isSome) = hit := by
    rw [Bool.eq_iff_iff, hhit, List.all_eq_true]
    refine forall_congr' fun i => ?_
    rw [List.mem_range]
    exact forall_congr' fun hi => by rw [State.keyOf_of_keys hk hi, bne_self_eq_false, Bool.false_or]
  have hstart : readGlobal va n (List.range n) s = (([l].mapM fun l => readEnt l x.va
      ((List.range n).all fun i => s0.keyOf (x.pa + i) != l || (forwarded t (x.pa + i)).isSome)) >>= fun es => do
        let s1 ← get
        return (List.range n).map fun i => (forwarded t (x.pa + i)).getD (recorded s1 es (x.pa + i))) s0 := by
    rw [readGlobal, bind_ok (getTask_ok ht), bind_ok hx, bind_ok (devicePriv_ok s0 ha), bind_ok (get_ok s0)]
    simp only [ha2, hh, hkeys, Bool.false_eq_true, if_false]
  refine ⟨fun e s' he hw => ?_, fun r s' he => ?_⟩
  · rw [hstart, bind_ok (mapM_one_ok (by rw [hhits]; exact he)), bind_ok (get_ok s'), recorded_congr hw]
    rfl
  · rw [hstart, bind_error (mapM_one_error (by rw [hhits]; exact he))]

/-- What a load of one new line answers where its line is taken from a machine that differs from its own in caches, lotteries and
ports alone: by a lease of the home, of a replica, or a retry (04 R114, R129, 05 R164). -/
theorem readGlobal_taken {hit : Bool} (hhit : hit = true ↔ t.holdsAll x.pa n) {ic : List (Nat × BitVec 512)}
    (ht0 : s0.task? = some { t with icache := ic }) {s1 : State} (h1 : s1.unqueued = s0.unqueued) (hn : t.reads.length < 512)
    (hp : s0.poisoned l = false)
    (he : (s0.line l).hold ≠ .pinned (s0.pid s0.cur) → readEnt l x.va hit s0 = takeLine l x.va s1) :
    let y := s0.line l
    let r0 := max t.ts y.wts + s0.leaseLen
    let r := max y.rts r0
    let near : Prop := t.locked = false ∧ s0.replicaServes (s0.dieOf s0.cur) l r0 = true
    (y.hold = .free → ¬ near → readGlobal va n (List.range n) s = .ok (loadedBytes t s0 x.pa n (s0.readOf l (some r)))
      (((s1.leaseHome l y s0.cur r t.locked).evictPins s0.cur l).joinRead s0.cur (s0.readOf l (some r)))) ∧
    (y.hold = .free → near → readGlobal va n (List.range n) s = .ok (loadedBytes t s0 x.pa n (s0.readOf l (some r0)))
      ((s1.evictPins s0.cur l).joinRead s0.cur (s0.readOf l (some r0)))) ∧
    (∀ c, c ≠ s0.pid s0.cur → y.hold = .pinned c → readGlobal va n (List.range n) s = .error .retry s1) := by
  obtain ⟨hok, herr⟩ := readGlobal_line ht hx ha hh hk hhit
  obtain ⟨a, b, c, d, rfl⟩ : ∃ a b c d, s1 = { s0 with tlbs := a, lotts := b, lineReqs := c, portAt := d } :=
    ⟨_, _, _, _, State.eq_of_unqueued h1⟩
  have hwin (s2 : State) (l : Nat) (e : ReadEnt) (hw : s2.windows = s0.windows) :
      ((s2.evictPins s0.cur l).joinRead s0.cur e).windows = s0.windows := by
    rw [State.joinRead_windows, State.evictPins_windows, hw]
  refine ⟨fun hf hnear => ?_, fun hf hnear => ?_, fun c hc hpin => ?_⟩
  · have hl := lease_home (s := { s0 with tlbs := a, lotts := b, lineReqs := c, portAt := d }) hf hnear
    refine hok _ _ ((he fun e => ?_).trans (takeLine_leased ht0 hn hp (fun c e => ?_) (fun e => ?_) hl rfl)) (hwin _ _ _ rfl)
    all_goals exact absurd (hf.symm.trans e) (by simp)
  · have hl := lease_replica (s := { s0 with tlbs := a, lotts := b, lineReqs := c, portAt := d }) hf hnear.2
    rw [← hnear.1] at hl
    refine hok _ _ ((he fun e => ?_).trans (takeLine_leased ht0 hn hp (fun c e => ?_) (fun e => ?_) hl rfl)) (hwin _ _ _ rfl)
    all_goals exact absurd (hf.symm.trans e) (by simp)
  · have hne (e : (s0.line l).hold = .pinned (s0.pid s0.cur)) : False := hc (Hold.pinned.inj (hpin.symm.trans e))
    refine herr _ _ ((he hne).trans (takeLine_unleased ht0 hn hp (fun c e => ?_) hne (lease_retry hpin hc)))
    exact absurd (hpin.symm.trans e) (by simp)

end

/-- Settles O29: what the port does of a request, and then who answers the lease. -/
theorem leasesAndReads : Obligations.LeasesAndReads := by
  unfold Obligations.LeasesAndReads
  intro s s0 s2 t t0 va n l x ht ht0 heq hx ha hh hk
  obtain ⟨ic, rfl⟩ : ∃ ic, t0 = { t with icache := ic } := ⟨_, heq⟩
  intro read y seen e r0 r near joins req sent hit own takes
  have hline {b : Bool} (hb : b = true ↔ t.holdsAll x.pa n) := readGlobal_line ht hx ha hh hk hb
  obtain ⟨b, hb⟩ : ∃ b : Bool, b = true ↔ t.holdsAll x.pa n := by
    classical exact ⟨decide (t.holdsAll x.pa n), decide_eq_true_iff⟩
  refine ⟨fun e he => ?recorded, fun hnone => ⟨fun hn => ?full,
    fun hn hown hmiss => ⟨fun hw => ?waits, fun w hbusy hslot hne => ?other⟩,
    fun hn hp => ⟨fun hown => ?pinned, fun hhit => ?hits, fun hmiss hbusy hslot => ?granted⟩⟩⟩
  case recorded => exact (hline hb).1 _ _ (readEnt_recorded ht0 he) rfl
  case full => exact (hline hb).2 _ _ (readEnt_full ht0 hnone hn)
  case waits =>
    exact (hline (iff_of_false Bool.false_ne_true hmiss)).2 _ _
      ((readEnt_requested ht0 hnone hn hown).trans (bind_error (request_waits ht0 hw)))
  case other =>
    refine (hline (iff_of_false Bool.false_ne_true hmiss)).2 _ _ ((readEnt_requested ht0 hnone hn hown).trans (bind_error ?_))
    exact (request_slot ht0 hbusy hslot).trans (if_neg hne)
  case pinned =>
    refine (hline hb).1 _ _ ((readEnt_unrequested ht0 hnone hn (.inl hown)).trans (takeLine_pinned ht0 hn hp hown)) ?_
    exact State.joinRead_windows ..
  case hits =>
    have h := readGlobal_taken ht hx ha hh hk (iff_of_true rfl hhit) ht0 rfl hn hp
      fun _ => readEnt_unrequested ht0 hnone hn (.inr rfl)
    exact ⟨h.1, h.2.1, fun c hc => h.2.2 c fun e => hc (congrArg Hold.pinned e)⟩
  case granted =>
    have hs2 : s2.unqueued = s0.unqueued :=
      (State.portSlot_unqueued hslot).trans ((State.sendAhead_unqueued ..).trans (State.sendReq_unqueued ..))
    have h := readGlobal_taken ht hx ha hh hk (iff_of_false Bool.false_ne_true hmiss) ht0 hs2 hn hp fun hown =>
      (readEnt_requested ht0 hnone hn hown).trans (bind_ok ((request_slot ht0 hbusy hslot).trans (if_pos rfl)))
    exact ⟨h.1, h.2.1, fun c hc => h.2.2 c fun e => hc (congrArg Hold.pinned e)⟩

end Sys2Proof.Machine
end

section
/-! PROOF. What a slice fills is a whole line (18 R378), which the statement of the memory events does not say of an address from 2^60 on. -/

namespace Sys2Proof.Machine

/-- 18 R378: a fill brings in the line that holds an address, and no other entry of L2 is new. -/
theorem l2_of_l2Fill {slice line owner : Nat} {s s' : State} (h : exec (.l2Fill slice line owner) s = .next s') :
    ∀ e ∈ s'.l2, e ∈ s.l2 ∨ e.2.2.2 = lineOf line := by
  intro e he
  rw [exec_l2Fill, execL2Fill] at h
  dsimp only at h
  split at h
  case isTrue => cases h; exact .inl he
  split at h
  case isTrue => cases h; exact .inl he
  split at h
  case h_1 w _ =>
    cases h
    exact (List.mem_append.mp he).imp_right fun he => by rw [List.mem_singleton.mp he]
  split at h
  case isTrue => cases h; exact .inl he
  cases h
  exact (List.mem_append.mp he).imp (fun he => (List.mem_filter.mp he).1) fun he => by rw [List.mem_singleton.mp he]

/-- After reset no owner has reserved ways, so each may fill way 0. -/
theorem l2Ways_reset : State.reset.l2Ways 0 = List.range 16 := by decide +kernel

/-- Refutes O45: after reset a fill of the address 2^60 + 1 at its home slice brings in the line 2^60 that holds it, where the clause of
the fills, which takes every address from 2^60 on as a line of its own, says that an entry of 2^60 + 1 itself comes in. -/
theorem not_memoryEvents : ¬ Obligations.MemoryEvents := by
  unfold Obligations.MemoryEvents
  intro h
  let a : Nat := 2 ^ 60 + 1
  obtain ⟨-, -, -, -, -, fills, -⟩ := h .reset .reset .reset 0 a 0 (homeSlice .reset a) 0 0 0 0 0 0 0 {} (placedTask 0 1) 0 .load
    ⟨0, 0, 0, 0, 0, true, 0, 3⟩ ⟨0, 0, none, 0, 0⟩ 0 0 { id := 0, kind := .copy 0 } ⟨0, 0, 0, 0⟩
  have ha : (if 2 ^ 60 ≤ a then a else lineOf a) = a := if_pos (Nat.le_succ _)
  rw [ha] at fills
  have he := (fills (by simp [State.fillsAt]) (by rintro e ⟨⟩)).1 (by rw [l2Ways_reset]; rfl)
  rcases l2_of_l2Fill he _ (List.mem_append_right _ (List.mem_singleton_self _)) with h | h
  · cases h
  · exact absurd h (by decide)

end Sys2Proof.Machine
end

section
/-! PROOF. What the shared steps of a global access leave (05 R144, 13 R305, R306, R315). -/

namespace Sys2Proof.Machine

/-! ## Checks (05 R144, 02 Table 2.2, log 85) -/

theorem aligned_ok {va : Word} {n : Nat} (s : State) (h : va.toNat % n = 0) : aligned va n s = .ok () s :=
  need_ok _ _ _ (beq_iff_eq.mpr h)

theorem aligned_error {va : Word} {n : Nat} (s : State) (h : va.toNat % n ≠ 0) :
    aligned va n s = .error (.flt { cause := .addrAlign }) s :=
  need_error _ _ _ (beq_eq_false_iff_ne.mpr h)

theorem devicePriv_allowed {t : Task} {x : Xlat} (s : State) (h : x.attr = 2 → t.priv = true) : devicePriv t x s = .ok () s := by
  by_cases ha : x.attr = 2
  · simp only [devicePriv, h ha, Bool.not_true, Bool.and_false, Bool.false_eq_true, if_false, pure_ok]
  · exact devicePriv_ok s ha

theorem devicePriv_error {t : Task} {x : Xlat} (s : State) (h : ¬ (x.attr = 2 → t.priv = true)) :
    devicePriv t x s = .error (.flt { cause := .perm, va := x.va.setWidth 64, level := x.lvl }) s := by
  obtain ⟨ha, hp⟩ := Classical.not_imp.mp h
  simp only [devicePriv, ha, Bool.eq_false_iff.mpr hp, beq_self_eq_true, Bool.not_false, Bool.and_self, if_true]
  rfl

/-! ## What a task takes on -/

theorem State.det_setTask (s : State) (t : Task) : (s.setTask t).det = s.det := by
  simp only [State.det, State.setTask_cur, State.core?_setTask, if_true, State.inst?, State.setTask_insts]
  cases s.core? s.cur <;> rfl

/-- The task of `Task.issuing` before its program counter moves on. -/
def Task.withEffects (t : Task) (det : Bool) (es : List Eff) (n : Nat) (ws : List Word) : Task :=
  { t.issuing det es n ws with pc := t.pc }

theorem Task.step_withEffects (t : Task) (det : Bool) (es : List Eff) (n : Nat) (ws : List Word) :
    (t.withEffects det es n ws).step = t.issuing det es n ws := rfl

theorem Task.withEffects_none (t : Task) (det : Bool) : t.withEffects det [] 0 [] = t := by
  cases det <;> simp [Task.withEffects, Task.issuing]

section
variable {s : State} {t : Task} (ht : s.task? = some t) (det : Bool) (es : List Eff) (n : Nat) (ws : List Word)
include ht

theorem State.setTask_withEffects_none : s.setTask (t.withEffects det [] 0 []) = s := by
  rw [Task.withEffects_none, State.setTask_same ht]

theorem hold_withEffects (e : Eff) :
    hold e (s.setTask (t.withEffects det es n ws)) = .ok () (s.setTask (t.withEffects det (es ++ [e]) n ws)) := by
  rw [hold_ok (State.task?_setTask ht _), State.setTask_setTask ht]
  simp [Task.withEffects, Task.issuing]

theorem fold_withEffects :
    fold ws (s.setTask (t.withEffects s.det es n [])) = .ok () (s.setTask (t.withEffects s.det es n ws)) := by
  rw [fold_ok (State.task?_setTask ht _), State.det_setTask, State.setTask_setTask ht]
  cases s.det <;> rfl

end

/-- An effect that finds room is held, and its words are folded. -/
theorem fits_hold_fold {s : State} {t : Task} (ht : s.task? = some t) {es : List Eff} (hr : lineEntries es true s.cur ≤ 256) (e : Eff)
    (n : Nat) (ws : List Word) :
    (do fits es true s.cur; hold e; fold ws) (s.setTask (t.withEffects s.det [] n [])) =
      .ok () (s.setTask (t.withEffects s.det [e] n ws)) :=
  (bind_ok (fits_ok _ hr)).trans ((bind_ok (hold_withEffects ht ..)).trans (fold_withEffects ht ..))

/-- A task that takes on one effect. -/
theorem hold_effect {s : State} {t : Task} (ht : s.task? = some t) (det : Bool) (e : Eff) :
    hold e s = .ok () (s.setTask (t.withEffects det [e] 0 [])) := by
  have h := hold_withEffects ht det [] 0 [] e
  rwa [State.setTask_withEffects_none ht] at h

/-- A task that counts one effect number. -/
theorem countEff_effect {s : State} {t : Task} (ht : s.task? = some t) (det : Bool) :
    countEff s = .ok t.qn (s.setTask (t.withEffects det [] 1 [])) := by
  rw [countEff_ok ht]
  cases det <;> simp [Task.withEffects, Task.issuing]

/-- A task that folds words alone. -/
theorem fold_words {s : State} {t : Task} (ht : s.task? = some t) (ws : List Word) :
    fold ws s = .ok () (s.setTask (t.withEffects s.det [] 0 ws)) := by
  have h := fold_withEffects ht [] 0 ws
  rwa [State.setTask_withEffects_none ht] at h

/-- A check made under a condition, which passes where it is made. -/
theorem ite_check {α : Type} {c : Bool} {m : M Unit} {f : Unit → M α} {s : State} (h : c = true → m s = .ok () s) :
    (if c = true then m >>= f else f ()) s = f () s := by
  split
  · next hc => exact bind_ok (h hc)
  · rfl

/-- An instruction of the current task that leaves a task in a state of its own. -/
theorem runTask_setTask {s s' : State} {t t' u : Task} {f : Task → M Unit} (ht : s.task? = some t) (ht' : s'.task? = some t')
    (hf : f t s = .ok () (s'.setTask u)) : runTask f s = .next (s'.setTask u.step) := by
  rw [runTask_ok ht hf, State.advance_setTask ht']

end Sys2Proof.Machine
end

section
/-! PROOF. Loads of global memory (05 R144, R149, R151, R152, R160): what LD, LDZ, VLD and LDV leave of the lines that they are given. -/

namespace Sys2Proof.Machine

/-! ## LD and LDZ (05 R144, R149) -/

section
variable {s s1 : State} {t t1 : Task} {m : MemOp} {w : Width} (ext : Nat → Nat → Word) (acq : Option Scope) (d : Reg)

theorem loadGlobal_misaligned (ha : (t.ea m).toNat % w.bytes ≠ 0) :
    loadGlobal ext w acq d m t s = .error (.flt { cause := .addrAlign }) s := bind_error (aligned_error s ha)

theorem runTask_loadGlobal (ht : s.task? = some t) (h1 : s1.task? = some t1) (ha : (t.ea m).toNat % w.bytes = 0) {bs : List Byte}
    (hr : readGlobal (t.ea m) w.bytes (List.range w.bytes) s = .ok bs s1) :
    runTask (loadGlobal ext w acq d m) s = .next (s1.setTask ((t1.wx d (ext w.bytes (leNat bs))).acquire acq).step) := by
  refine runTask_setTask ht h1 ?_
  rw [loadGlobal, bind_ok (aligned_ok s ha), bind_ok hr, modTask_ok h1]

end

/-! ## VLD (05 R144, R149) -/

section
variable {s s1 : State} {t t1 : Task} {ea : Word} {ty : Ty} {mask : SReg} {d : Reg} {k : Nat}

theorem vldMember_off (h : (t.byteMask ty mask k).any id = false) : vldMember t ea ty mask d k s = .ok () s := by
  rw [vldMember, if_neg (Bool.eq_false_iff.mp h), pure_ok]

theorem vldMember_misaligned (h : (t.byteMask ty mask k).any id = true) (ha : ea.toNat % 64 ≠ 0) :
    vldMember t ea ty mask d k s = .error (.flt { cause := .addrAlign }) s := by
  rw [vldMember, if_pos h, bind_error (aligned_error s ha)]

/-- The bytes that are on take what is read, and the others stay. -/
theorem vldMember_on (h : (t.byteMask ty mask k).any id = true) (ha : ea.toNat % 64 = 0) (h1 : s1.task? = some t1) {bs : List Byte}
    (hr : readGlobal (memberEA ea k) 64 ((List.range 64).filter fun i => (t.byteMask ty mask k).getD i false) s = .ok bs s1) :
    vldMember t ea ty mask d k s = .ok () (s1.setTask (t1.wv k d
      (bytesVec (((bs.zip (vecBytes (t.rv k d))).zip (t.byteMask ty mask k)).map fun x => if x.2 then x.1.1 else x.1.2)))) := by
  rw [vldMember, if_pos h, bind_ok (aligned_ok s ha), bind_ok (atMember_ok hr), modTask_ok h1]

end

/-! ## LDV (05 R151, R160) -/

theorem forM_one_ok {α : Type} {f : α → M Unit} {a : α} {s s' : State} (h : f a s = .ok () s') : [a].forM f s = .ok () s' :=
  (bind_ok h).trans rfl

/-- A single line has its token without an entry of its write time (log 12). -/
theorem State.enterVers_one (s : State) (l : Nat) : s.enterVers [l] = s := rfl

section
variable {s s0 : State} {t t0 : Task} (d c : Reg) {m : MemOp} (ht : s.task? = some t)
include ht

theorem traps_ldv_of_det (hd : s.det = true) : traps (.ldv d c m) s { cause := .detOp } :=
  traps_of_runTask (exec_ldv ..) ht (bind_error (noDet_error ht hd))

theorem traps_ldv_misaligned (hd : s.det = false) (ha : (t.ea m).toNat % 64 ≠ 0) : traps (.ldv d c m) s { cause := .addrAlign } :=
  traps_of_runTask (exec_ldv ..) ht ((bind_ok (noDet_ok ht hd)).trans (bind_error (aligned_error s ha)))

/-- The committed value of a line that nobody holds, and the token of its wts. -/
theorem exec_ldv_free {x : Xlat} {l : Nat} (hd : s.det = false) (ha : (t.ea m).toNat % 64 = 0)
    (hx : taskXlat t .load false (t.ea m) s = .ok x s0) (ht0 : s0.task? = some t0) (hattr : x.attr = 0)
    (hk : s0.keys x.pa 64 = [l]) (hh : (s0.line l).hold = .free) (hp : s0.poisoned l = false) :
    exec (.ldv d c m) s = .next (s0.setTask ((t0.wv t0.lead d (bytesVec (mread s0.mem x.pa 64))).wx c
      (Config.verTok s0.plat.tokKey (BitVec.ofNat 64 (s0.line l).wts))).step) := by
  have hcached : (x.attr == 2 || x.toHost s0) = false := by simp [Xlat.toHost, hattr]
  have hfree (own : Hold) : ([l].any fun l => (s0.line l).hold != .free && (s0.line l).hold != own) = false := by simp [hh]
  have hclean : [l].any s0.poisoned = false := by simp [hp]
  have hb : [l].forM bump s0 = .ok () s0 := forM_one_ok (bump_ok fun c e => by rw [hh] at e; cases e)
  rw [exec_ldv]
  refine runTask_setTask ht ht0 ?_
  rw [bind_ok (noDet_ok ht hd), bind_ok (aligned_ok s ha), bind_ok hx, bind_ok (get_ok s0)]
  simp only [hcached, hk, Bool.false_eq_true, if_false]
  rw [bind_ok hb, bind_ok (get_ok s0)]
  simp only [hfree, hclean, Bool.false_eq_true, if_false]
  rw [bind_ok (modify_ok ..), State.enterVers_one, bind_ok (get_ok s0), modTask_ok ht0]
  rfl

end

/-- Settles O30: each load is its checks, what it reads, and a write of the registers of the task. -/
theorem globalLoads : Obligations.GlobalLoads := by
  unfold Obligations.GlobalLoads
  refine ⟨fun s s1 t t1 w ty acq mask d m bs k hint ht h1 => ?loads, fun s s0 t t0 d c m x l ht => ?ldv⟩
  case loads =>
    refine ⟨fun ha hr => ⟨?ld, ?ldz⟩, fun ha => ⟨?ldTraps, ?ldzTraps⟩, fun hm => ?vld, vldMember_off, vldMember_misaligned,
      fun hon ha hr => vldMember_on hon ha h1 hr, ?pref⟩
    case ld => exact runTask_loadGlobal _ acq d ht h1 ha hr
    case ldz => exact runTask_loadGlobal _ acq d ht h1 ha hr
    case ldTraps => exact traps_of_runTask (exec_ld ..) ht (loadGlobal_misaligned _ acq d ha)
    case ldzTraps => exact traps_of_runTask (exec_ldz ..) ht (loadGlobal_misaligned _ acq d ha)
    case vld => exact runTask_setTask ht h1 ((bind_ok hm).trans (modTask_ok h1 _))
    case pref => exact becomes_of_runTask (exec_pref ..) ht (congrArg (EStateM.Result.ok ()) (State.setTask_same ht).symm)
  case ldv =>
    refine ⟨traps_ldv_of_det d c ht, traps_ldv_misaligned d c ht, fun hd ha hx ht0 heq hattr hk hh hp => ?_⟩
    have hl : t0.lead = t.lead := by rw [heq]
    rw [← hl]
    exact exec_ldv_free d c ht hd ha hx ht0 hattr hk hh hp

end Sys2Proof.Machine
end

section
/-! PROOF. Stores, the conditional store and fences join the sluice (05 R153, R159, R161, R162, 13 R305, R306, R315). -/

namespace Sys2Proof.Machine

/-! ## A store joins the sluice (05 R153) -/

/-- The effect of a store: one to a device page or to a page in host bias is never merged (13 Table 13.1). -/
def storeEff (s : State) (x : Xlat) (bytes : List (Option Byte)) (rel : Option Scope) : Eff :=
  .store x (x.attr == 2 || x.toHost s) bytes rel

section
variable {s s0 : State} {t t0 : Task} {va : Word} {x : Xlat} {bytes : List (Option Byte)} {rel : Option Scope}
  (hx : taskXlat t .store false va s = .ok x s0)
include hx

/-- A device page is for privileged tasks (02 Table 2.2, log 85). -/
theorem holdStore_perm (hp : ¬ (x.attr = 2 → t.priv = true)) :
    holdStore t va bytes rel s = .error (.flt { cause := .perm, va := x.va.setWidth 64, level := x.lvl }) s0 :=
  (bind_ok hx).trans (bind_error (devicePriv_error s0 hp))

section
variable (ht0 : s0.task? = some t0) (hp : x.attr = 2 → t.priv = true)
include ht0 hp

theorem holdStore_full (hr : ¬ lineEntries (t0.sluice ++ [storeEff s0 x bytes rel]) true s0.cur ≤ 256) :
    holdStore t va bytes rel s = .error (.flt { cause := .sluiceFull }) s0 := by
  rw [holdStore, bind_ok hx, bind_ok (devicePriv_allowed s0 hp), bind_ok (get_ok s0), bind_ok (getTask_ok ht0)]
  exact bind_error (fits_error s0 hr)

theorem holdStore_ok (hr : lineEntries (t0.sluice ++ [storeEff s0 x bytes rel]) true s0.cur ≤ 256) :
    holdStore t va bytes rel s = .ok () (s0.setTask (t0.withEffects s0.det [storeEff s0 x bytes rel] 0 [])) := by
  rw [holdStore, bind_ok hx, bind_ok (devicePriv_allowed s0 hp), bind_ok (get_ok s0), bind_ok (getTask_ok ht0)]
  exact (bind_ok (fits_ok s0 hr)).trans (hold_effect ht0 ..)

end

end

/-! ## ST -/

section
variable {s s0 : State} {t t0 : Task} {w : Width} {rel : Option Scope} {d : Reg} {m : MemOp} (ht : s.task? = some t)
include ht

theorem traps_st_misaligned (ha : (t.ea m).toNat % w.bytes ≠ 0) : traps (.st w rel d m) s { cause := .addrAlign } :=
  traps_of_runTask (exec_st ..) ht (bind_error (aligned_error s ha))

variable (ha : (t.ea m).toNat % w.bytes = 0)
include ha

theorem exec_st_error {e : Stop}
    (h : holdStore t (t.ea m) ((natBytes w.bytes (t.rx d).toNat).map some) rel s = .error e s0) :
    exec (.st w rel d m) s = .next (s.stopped s0 s.cur e) := by
  rw [exec_st]
  exact runTask_error ht ((bind_ok (aligned_ok s ha)).trans (bind_error h))

theorem exec_st_ok {e : Eff} (ht0 : s0.task? = some t0)
    (h : holdStore t (t.ea m) ((natBytes w.bytes (t.rx d).toNat).map some) rel s =
      .ok () (s0.setTask (t0.withEffects s0.det [e] 0 []))) :
    exec (.st w rel d m) s = .next (s0.setTask (t0.issuing s0.det [e] 0
      [digestMark 1 (t.ea m), BitVec.ofNat 64 (leNat (natBytes w.bytes (t.rx d).toNat))])) := by
  rw [exec_st, ← Task.step_withEffects]
  refine runTask_setTask ht ht0 ?_
  exact (bind_ok (aligned_ok s ha)).trans ((bind_ok h).trans (fold_withEffects ht0 ..))

end

/-! ## VST -/

/-- The bytes of a member's register, each with whether its lane is on. -/
def storeLanes (t : Task) (ty : Ty) (mask : SReg) (d : Reg) (k : Nat) : List (Byte × Bool) :=
  (vecBytes (t.rv k d)).zip (t.byteMask ty mask k)

/-- The words that a member's part of a VST folds (log 35). -/
def storeWords (t : Task) (ea : Word) (ty : Ty) (mask : SReg) (d : Reg) (k : Nat) : List Word :=
  digestMark 1 (memberEA ea k) :: bytesWords 8 ((storeLanes t ty mask d k).map fun x => if x.2 then x.1 else 0) ++
    [BitVec.ofNat 64 ((List.range (64 / ty.bytes)).map fun i => if t.on mask k i then 2 ^ i else 0).sum]

section
variable {s s0 : State} {t t0 : Task} {ea : Word} {ty : Ty} {rel : Option Scope} {mask : SReg} {d : Reg} {k : Nat}

/-- A member whose lanes are all off holds nothing (log 104). -/
theorem vstMember_off (ht : s.task? = some t) (h : (t.byteMask ty mask k).any id = false) :
    vstMember t ea ty rel mask d k s = .ok () (s.setTask (t.withEffects s.det [] 0 (storeWords t ea ty mask d k))) := by
  rw [vstMember, if_neg (Bool.eq_false_iff.mp h)]
  exact fold_words ht _

theorem vstMember_on {e : Eff} (h : (t.byteMask ty mask k).any id = true) (ha : ea.toNat % 64 = 0) (ht0 : s0.task? = some t0)
    (hs : holdStore t (memberEA ea k) ((storeLanes t ty mask d k).map fun x => if x.2 then some x.1 else none) rel s =
      .ok () (s0.setTask (t0.withEffects s0.det [e] 0 []))) :
    vstMember t ea ty rel mask d k s = .ok () (s0.setTask (t0.withEffects s0.det [e] 0 (storeWords t ea ty mask d k))) := by
  rw [vstMember, if_pos h, bind_ok (aligned_ok s ha)]
  exact (bind_ok (atMember_ok hs)).trans (fold_withEffects ht0 ..)

end

/-! ## CSTORE4 (05 R159, R160) -/

/-- The effect of a CSTORE4: lines, tokens and reply of what it selects. -/
def cstEff (t : Task) (x : Xlat) (sel : BitVec 4) (d b c : Reg) : Eff :=
  .cst x sel ((List.range 4).map fun i => if sel.getLsbD i then t.rv t.lead (b + BitVec.ofNat 5 i) else 0)
    ((List.range 4).map fun i => if sel.getLsbD i then t.rx (c + BitVec.ofNat 5 i) else 0) ((t.rx d).setWidth 6) t.qn t.pc

section
variable {s s0 : State} {t t0 : Task} (sel : BitVec 4) (d a b c : Reg) (imm : BitVec 32) (ht : s.task? = some t)
include ht

theorem traps_cstore4_of_det (hd : s.det = true) : traps (.cstore4 sel d a b c imm) s { cause := .detOp } :=
  traps_of_runTask (exec_cstore4 ..) ht (bind_error (noDet_error ht hd))

theorem exec_cstore4_ok {x : Xlat} (hd : s.det = false) (ha : (t.eaImm a imm).toNat % 256 = 0)
    (hx : taskXlat t .atomic false (t.eaImm a imm) s = .ok x s0) (ht0 : s0.task? = some t0) (hq : t0.qn = t.qn) (hattr : x.attr ≠ 2)
    (hr : lineEntries (t.sluice ++ [cstEff t x sel d b c]) true s0.cur ≤ 256) :
    exec (.cstore4 sel d a b c imm) s = .next (s0.setTask (t0.issuing false [cstEff t x sel d b c] 1 [])) := by
  have hcached : ¬ (x.attr == 2) = true := by simpa using hattr
  rw [exec_cstore4]
  refine runTask_setTask (u := t0.withEffects false [cstEff t x sel d b c] 1 []) ht ht0 ?_
  rw [bind_ok (noDet_ok ht hd), bind_ok (aligned_ok s ha), bind_ok hx]
  simp only [if_neg hcached]
  rw [bind_ok (countEff_effect ht0 false), hq, bind_ok (get_ok _), State.setTask_cur]
  exact (bind_ok (fits_ok _ hr)).trans (hold_withEffects ht0 ..)

end

/-! ## FENCE and PUBL (05 R161, R162) -/

/-- What an acquire orders does not depend on the program counter. -/
theorem Task.step_acquire (t : Task) (acq : Option Scope) : (t.acquire acq).step = t.step.acquire acq := by
  unfold Task.acquire
  split <;> rfl

section
variable {s s0 : State} {t t0 : Task} (ht : s.task? = some t)
include ht

theorem exec_fence_ok (ar : AcqRel) : exec (.fence ar) s =
    .next (s.setTask ((t.issuing s.det [.fence ar] 0 []).acquire (if ar.acq then some ar.scope else none))) := by
  rw [exec_fence, ← Task.step_withEffects, ← Task.step_acquire]
  refine runTask_setTask ht ht ((bind_ok (hold_effect ht s.det _)).trans ?_)
  rw [modTask_ok (State.task?_setTask ht _), State.setTask_setTask ht]

theorem exec_publ_ok {a : Reg} {imm : BitVec 32} {x : Xlat} (hx : taskXlat t .load false (t.eaImm a imm) s = .ok x s0)
    (ht0 : s0.task? = some t0) (hp : x.attr = 2 → t.priv = true) (hr : lineEntries (t0.sluice ++ [.publ x]) true s0.cur ≤ 256) :
    exec (.publ a imm) s = .next (s0.setTask { t0 with sluice := t0.sluice ++ [.publ x], pc := t0.npc }) := by
  rw [exec_publ]
  refine runTask_setTask (u := { t0 with sluice := t0.sluice ++ [.publ x] }) ht ht0 ?_
  rw [bind_ok hx, bind_ok (devicePriv_allowed s0 hp), bind_ok (getTask_ok ht0), bind_ok (get_ok s0), bind_ok (fits_ok s0 hr)]
  exact hold_ok ht0 _

end

/-- Settles O31: what each store checks, and then the effect and the words that the task takes on. -/
theorem globalStores : Obligations.GlobalStores := by
  unfold Obligations.GlobalStores
  intro s s0 t t0 w ty rel ar mask sel d a b c imm m x k ht ht0 heq hcur hdet
  obtain ⟨ic, rfl⟩ : ∃ ic, t0 = { t with icache := ic } := ⟨_, heq⟩
  rw [← hcur, ← hdet]
  intro ea ei solo may room bs e on vs ve words c4
  refine ⟨traps_st_misaligned ht, fun ha hx => ⟨fun hp => ?stPerm, fun hp hr => ?st, fun hp hr => ?stFull⟩,
    fun s1 t1 hm h1 => ?vst, fun hon ha hx hp hr => ?member, fun hoff => ?memberOff, fun hd ha hx hattr hr => ?cst,
    fun hd => traps_cstore4_of_det sel d a b c imm ht (hdet ▸ hd), ?fence, fun hx hp hr => exec_publ_ok ht hx ht0 hp hr⟩
  case stPerm => rw [hcur]; exact exec_st_error ht ha (holdStore_perm hx hp)
  case st => exact exec_st_ok ht ha ht0 (holdStore_ok hx ht0 hp hr)
  case stFull => rw [hcur]; exact exec_st_error ht ha (holdStore_full hx ht0 hp hr)
  case vst =>
    rw [exec_vst]
    exact (runTask_ok ht hm).trans (congrArg Host.Outcome.next (by rw [State.advance, h1]))
  case member => exact vstMember_on hon ha ht0 (holdStore_ok hx ht0 hp hr)
  case memberOff =>
    rw [vstMember_off ht hoff, hdet]
    cases s.det with
    | true => rfl
    | false => exact congrArg (EStateM.Result.ok ()) (State.setTask_withEffects_none ht false)
  case cst => exact exec_cstore4_ok sel d a b c imm ht (hdet ▸ hd) ha hx ht0 rfl hattr hr
  case fence => rw [hdet]; exact exec_fence_ok ht ar

end Sys2Proof.Machine
end

section
/-! PROOF. Atomics are captured and held until commit (05 R154, R155, R160, 13 R315), and what each leaves in memory (05 Table 5.2). -/

namespace Sys2Proof.Machine

/-! ## What an atomic checks and holds -/

/-- What a DET launch forbids (05 R160): SWP and CAS, floating sums, and what replies. -/
def detForbids (op : AmoOp) (ty : Ty) (rpl : Bool) : Bool := op = .swp || op = .cas || (ty == .f32 || ty == .f64) || rpl

theorem detForbids_eq_false {op : AmoOp} {ty : Ty} {rpl : Bool} (hop : op ≠ .swp ∧ op ≠ .cas) (hf : ¬ (ty = .f32 ∨ ty = .f64))
    (hr : rpl = false) : detForbids op ty rpl = false := by
  simpa [detForbids, hop, hr] using hf

theorem detForbids_of_float_or_reply (op : AmoOp) {ty : Ty} {rpl : Bool} (h : (ty = .f32 ∨ ty = .f64) ∨ rpl = true) :
    detForbids op ty rpl = true := by
  rcases h with (rfl | rfl) | rfl <;> simp [detForbids]

/-- The effect of an atomic. -/
def amoEff (t : Task) (x : Xlat) (op : AmoOp) (ty : Ty) (rpl : Bool) (ar : AcqRel) (d b c : Reg) (ea : Word) : Eff :=
  .amo x op ty (t.rx b) (t.rx c) (if rpl then some ((t.rx d).setWidth 6) else none) ar ea t.qn t.pc

/-- The words that an atomic folds. -/
def amoWords (t : Task) (op : AmoOp) (ty : Ty) (b c : Reg) (ea : Word) : List Word :=
  [digestMark 2 ea, BitVec.ofNat 64 (amoCode op * 32 + ty.code.toNat), t.rx b] ++ if op = .cas then [t.rx c] else []

section
variable {s s0 : State} {t t0 : Task} {op : AmoOp} {ty : Ty} {rpl : Bool} {ar : AcqRel} {d a b c : Reg} {imm : BitVec 32}
  (ht : s.task? = some t)
include ht

/-- DET is checked before the address (log 40). -/
theorem holdAmo_forbidden (hd : s.det = true) (hf : detForbids op ty rpl = true) :
    holdAmo op ty rpl ar d a b c imm t s = .error (.flt { cause := .detOp }) s := by
  unfold detForbids at hf
  rw [holdAmo, if_pos hf]
  exact bind_error (noDet_error ht hd)

variable (hd : s.det = false ∨ detForbids op ty rpl = false)
include hd

/-- The launch allows the atomic (05 R160). -/
theorem noDet_allowed (hf : detForbids op ty rpl = true) : noDet s = .ok () s :=
  noDet_ok ht (hd.resolve_right (by simp [hf]))

theorem holdAmo_misaligned (ha : (t.eaImm a imm).toNat % ty.bytes ≠ 0) :
    holdAmo op ty rpl ar d a b c imm t s = .error (.flt { cause := .addrAlign }) s := by
  rw [holdAmo]
  exact Eq.trans (ite_check (noDet_allowed ht hd)) (bind_error (aligned_error s ha))

theorem holdAmo_ok {x : Xlat} (ha : (t.eaImm a imm).toNat % ty.bytes = 0)
    (hx : taskXlat t .atomic true (t.eaImm a imm) s = .ok x s0) (ht0 : s0.task? = some t0) (hq : t0.qn = t.qn) (hattr : x.attr ≠ 2)
    (hr : lineEntries (t.sluice ++ [amoEff t x op ty rpl ar d b c (t.eaImm a imm)]) true s0.cur ≤ 256) :
    holdAmo op ty rpl ar d a b c imm t s = .ok () (s0.setTask (t0.withEffects s0.det [amoEff t x op ty rpl ar d b c (t.eaImm a imm)]
      (if rpl then 1 else 0) (amoWords t op ty b c (t.eaImm a imm)))) := by
  have hcached : ¬ (x.attr == 2) = true := by simpa using hattr
  rw [holdAmo]
  refine Eq.trans (ite_check (noDet_allowed ht hd)) ((bind_ok (aligned_ok s ha)).trans ((bind_ok hx).trans ?_))
  simp only [if_neg hcached]
  cases rpl with
  | true =>
    rw [if_pos rfl, bind_ok (countEff_effect ht0 s0.det), hq, bind_ok (get_ok _), State.setTask_cur]
    exact fits_hold_fold ht0 hr _ 1 _
  | false =>
    rw [if_neg Bool.false_ne_true, bind_ok (pure_ok ..), bind_ok (get_ok _)]
    have h := fits_hold_fold ht0 hr (amoEff t x op ty false ar d b c (t.eaImm a imm)) 0 (amoWords t op ty b c (t.eaImm a imm))
    rwa [State.setTask_withEffects_none ht0] at h

/-- An atomic that passes its checks is held with its operands, and takes an effect number where it replies. -/
theorem exec_amo_ok {i : Instr} (he : exec i s = runTask (holdAmo op ty rpl ar d a b c imm) s) {x : Xlat}
    (ha : (t.eaImm a imm).toNat % ty.bytes = 0) (hx : taskXlat t .atomic true (t.eaImm a imm) s = .ok x s0)
    (ht0 : s0.task? = some t0) (hq : t0.qn = t.qn) (hattr : x.attr ≠ 2)
    (hr : lineEntries (t.sluice ++ [amoEff t x op ty rpl ar d b c (t.eaImm a imm)]) true s0.cur ≤ 256) :
    exec i s = .next (s0.setTask (t0.issuing s0.det [amoEff t x op ty rpl ar d b c (t.eaImm a imm)] (if rpl then 1 else 0)
      (amoWords t op ty b c (t.eaImm a imm)))) := by
  rw [he, ← Task.step_withEffects]
  exact runTask_setTask ht ht0 (holdAmo_ok ht hd ha hx ht0 hq hattr hr)

end

/-! ## What an atomic leaves in memory (05 Table 5.2) -/

/-- An integer of a type, read from its bits. -/
theorem laneVal_ofNat {ty : Ty} {n : ℕ} (h : n < 2 ^ tyBits ty) :
    laneVal ty (BitVec.ofNat 64 n) = if ty.signed then (if 2 ^ (tyBits ty - 1) ≤ n then (n : ℤ) - 2 ^ tyBits ty else n) else n := by
  have hw : 0 < tyBits ty ∧ tyBits ty ≤ 64 := by rcases tyBits_cases ty with h | h | h | h <;> omega
  have hpow : 2 ^ tyBits ty = 2 * 2 ^ (tyBits ty - 1) := by rw [← pow_succ', Nat.sub_add_cancel hw.1]
  have hbits : ((BitVec.ofNat 64 n).setWidth (tyBits ty)).toNat = n := by
    rw [BitVec.toNat_setWidth, BitVec.toNat_ofNat, Nat.mod_mod_of_dvd _ (Nat.pow_dvd_pow 2 hw.2), Nat.mod_eq_of_lt h]
  unfold laneVal laneInt
  rw [BitVec.toInt_eq_toNat_cond, hbits]
  congr 1
  by_cases hn : 2 ^ (tyBits ty - 1) ≤ n
  · rw [if_neg (by omega), if_pos hn, Nat.cast_pow, Nat.cast_ofNat]
  · rw [if_pos (by omega), if_neg hn]

section
variable {ty : Ty} {old b : ℕ} (c : ℕ) (hb : b < 2 ^ tyBits ty)
include hb

theorem amoNew_min : amoNew .min ty old b c =
    if laneVal ty (BitVec.ofNat 64 old) ≤ laneVal ty (BitVec.ofNat 64 b) then old else b := by
  simp only [amoNew, Nat.mod_eq_of_lt hb, decide_eq_true_eq]

theorem amoNew_max : amoNew .max ty old b c =
    if laneVal ty (BitVec.ofNat 64 b) ≤ laneVal ty (BitVec.ofNat 64 old) then old else b := by
  simp only [amoNew, Nat.mod_eq_of_lt hb, decide_eq_true_eq]

end

/-- The sum of a type that is no float wraps. -/
theorem amoNew_add {ty : Ty} {old b : ℕ} (c : ℕ) (hf : ¬ (ty = .f32 ∨ ty = .f64)) :
    amoNew .add ty old b c = (old + b) % 2 ^ tyBits ty := by
  simp [amoNew, hf]

/-- Settles O32: the checks in their order, what is held, and the arithmetic of 05 Table 5.2. -/
theorem atomics : Obligations.Atomics := by
  unfold Obligations.Atomics
  refine ⟨fun s s0 t t0 ty rpl rn ar d a b c imm x ht ht0 heq hcur hdet => ?held, fun ty old b c hty ho hb hc => ?left⟩
  case held =>
    intro ea float e holds
    have hheld (op : AmoOp) (c : Reg) (ws : List Word) (i : Instr) (he : exec i s = runTask (holdAmo op ty rpl ar d a b c imm) s)
        (hw : (if op = .cas then [t.rx c] else []) = ws) (hd : s.det = false ∨ detForbids op ty rpl = false) : holds op c ws i := by
      intro ha hx hattr hr
      rw [← hdet, ← hw]
      exact exec_amo_ok ht hd he ha hx ht0 (by rw [heq]) hattr (hcur ▸ hr)
    refine ⟨fun hd => ?sums, fun hd => ?swaps, fun hd => ?forbidden, fun hd ha => ?misaligned⟩
    case sums =>
      have hplain (op : AmoOp) (hs : op ≠ .swp ∧ op ≠ .cas) : s.det = false ∨ detForbids op ty rpl = false :=
        hd.imp_right fun ⟨hf, hr⟩ => detForbids_eq_false hs hf hr
      exact ⟨hheld .add 31 [] _ rfl rfl (hplain _ (by decide)), hheld .and 31 [] _ rfl rfl (hplain _ (by decide)),
        hheld .or 31 [] _ rfl rfl (hplain _ (by decide)), hheld .xor 31 [] _ rfl rfl (hplain _ (by decide)),
        hheld .min 31 [] _ rfl rfl (hplain _ (by decide)), hheld .max 31 [] _ rfl rfl (hplain _ (by decide))⟩
    case swaps => exact ⟨hheld .swp 31 [] _ rfl rfl (.inl hd), hheld .cas c [t.rx c] _ rfl rfl (.inl hd)⟩
    case forbidden =>
      refine ⟨fun hf => ?_, ?_, ?_⟩
      · exact traps_of_runTask (exec_amoadd ..) ht (holdAmo_forbidden ht hd (detForbids_of_float_or_reply _ hf))
      · exact traps_of_runTask (exec_amoswp ..) ht (holdAmo_forbidden ht hd rfl)
      · exact traps_of_runTask (exec_amocas ..) ht (holdAmo_forbidden ht hd rfl)
    case misaligned => exact traps_of_runTask (exec_amoadd ..) ht (holdAmo_misaligned ht (.inl hd) ha)
  case left =>
    intro v
    have hv {n : ℕ} (hn : n < 2 ^ tyBits ty) : v n = laneVal ty (BitVec.ofNat 64 n) := (laneVal_ofNat hn).symm
    have hf : ¬ (ty = .f32 ∨ ty = .f64) := by rintro (rfl | rfl) <;> exact absurd hty (by decide)
    have hbm : b % 2 ^ tyBits ty = b := Nat.mod_eq_of_lt hb
    have hcm : c % 2 ^ tyBits ty = c := Nat.mod_eq_of_lt hc
    refine ⟨amoNew_add c hf, ?_, ?_, ?_, ?_, ?_, ?_, ?_⟩
    · exact congrArg (old &&& ·) hbm
    · exact congrArg (old ||| ·) hbm
    · exact congrArg (old ^^^ ·) hbm
    · rw [amoNew_min c hb, ← hv ho, ← hv hb, min_def, apply_ite v]
    · rw [amoNew_max c hb, ← hv ho, ← hv hb, max_comm, max_def, apply_ite v]
    · exact hbm
    · simp only [amoNew, hbm, hcm]

end Sys2Proof.Machine
end

section
/-! PROOF. Commands of the row copy engines are checked, charged and held, and so are monitors (06 R166, R167, R175, R178, R179, R183, R184,
R194, R196, 13 R315). -/

namespace Sys2Proof.Machine

/-! ## A credit of the row engine (06 R179) -/

/-- The machine once the core that runs now has given one credit of its row engine. -/
def State.charged (s : State) (k : Core) : State := s.withCore { k with creds := k.creds - 1 }

/-- The effect of a copy-engine command that a task issues. -/
def copyEff (s : State) (k : Core) (t : Task) (kind : CKind) (desc : BitVec 512) (ar : AcqRel) : Eff :=
  .copy { id := 0, kind, desc, ar, inst := k.inst, core := s.cur, row := k.row, priv := t.priv, who := issuer k t t.qn }

section
variable {s : State} {k : Core} (hk : s.core? s.cur = some k)
include hk

theorem State.task?_charged {t : Task} (ht : s.task? = some t) : (s.charged k).task? = some t := by
  rw [State.task?, hk] at ht
  rw [State.task?, State.charged, State.withCore, State.setCore_cur, State.core?_setCore, if_pos rfl]
  exact ht

theorem State.det_charged : (s.charged k).det = s.det := by
  simp only [State.det, State.charged, State.withCore, State.setCore_cur, State.core?_setCore, if_true, hk, Option.bind_some]
  rfl

theorem takeCredit_ok (hc : k.creds ≠ 0) : takeCredit s = .ok () (s.charged k) := by
  have hmod : modCore (fun k => { k with creds := k.creds - 1 }) s = .ok () (s.charged k) :=
    (modify_ok ..).trans (by simp only [State.onCore, hk]; rfl)
  rw [takeCredit, bind_ok (getCore_ok hk), bind_ok (need_ok _ _ _ (decide_eq_true hc)), hmod]

end

/-! ## A command is held (06 R178, R179) -/

section
variable {s : State} {t : Task} {k : Core} (hk : s.core? s.cur = some k) (kind : CKind) (desc : BitVec 512) (ar : AcqRel)
include hk

theorem holdCmd_full (hc : k.creds = 0) : holdCmd kind desc ar t s = .error (.flt { cause := .engqFull }) s :=
  (bind_ok (getCore_ok hk)).trans (bind_error (need_error _ _ _ (decide_eq_false (not_not_intro hc))))

variable (ht : s.task? = some t) (hroom : k.creds ≠ 0 ∧ msgEntries t.sluice < 32)
include ht hroom

theorem holdCmd_ok : holdCmd kind desc ar t s =
    .ok () ((s.charged k).setTask (t.withEffects s.det [copyEff s k t kind desc ar] 1 [])) := by
  obtain ⟨hc, hm⟩ := hroom
  have ht' := State.task?_charged hk ht
  rw [holdCmd, bind_ok (getCore_ok hk), bind_ok (need_ok _ _ _ (decide_eq_true hc)), bind_ok (needMsg_ok s hm),
    bind_ok (takeCredit_ok hk hc), bind_ok (countEff_effect ht' s.det), bind_ok (get_ok _), State.setTask_cur]
  exact hold_withEffects ht' s.det [] 1 [] _

theorem holdCmd_fold (ws : List Word) : (do holdCmd kind desc ar t; fold ws) s =
    .ok () ((s.charged k).setTask (t.withEffects s.det [copyEff s k t kind desc ar] 1 ws)) := by
  rw [bind_ok (holdCmd_ok hk kind desc ar ht hroom), ← State.det_charged hk]
  exact fold_withEffects (State.task?_charged hk ht) ..

end

/-! ## COPY (06 R166, R167) -/

section
variable {s : State} {t : Task} {k : Core} {i : Inst} {gs : BitVec 2} (ar : AcqRel) (b : Reg)
  (hk : s.core? s.cur = some k) (hi : s.inst? k.inst = some i)
include hk hi

theorem copyCmd_bad (hd : descOk (gs != 0) i.nvc (s.depth i.id) (t.rv t.lead b) = false) :
    copyCmd gs ar b t s = .error (.flt { cause := .badDesc }) s := by
  rw [copyCmd, bind_ok (getInst_ok hk hi), bind_ok (get_ok s)]
  exact bind_error (need_error _ _ _ hd)

variable (hd : descOk (gs != 0) i.nvc (s.depth i.id) (t.rv t.lead b) = true)
include hd

theorem copyCmd_full (hc : k.creds = 0) : copyCmd gs ar b t s = .error (.flt { cause := .engqFull }) s := by
  rw [copyCmd, bind_ok (getInst_ok hk hi), bind_ok (get_ok s), bind_ok (need_ok _ _ _ hd)]
  exact bind_error (holdCmd_full hk _ _ _ hc)

theorem copyCmd_ok (ht : s.task? = some t) (hroom : k.creds ≠ 0 ∧ msgEntries t.sluice < 32) : copyCmd gs ar b t s =
    .ok () ((s.charged k).setTask (t.withEffects s.det [copyEff s k t (.copy gs) (t.rv t.lead b) ar] 1
      (cmdMark 0x22 0 gs.toNat :: vecWords (t.rv t.lead b)))) := by
  rw [copyCmd, bind_ok (getInst_ok hk hi), bind_ok (get_ok s), bind_ok (need_ok _ _ _ hd)]
  exact holdCmd_fold hk _ _ _ ht hroom _

theorem exec_copyCmd_ok {x : Instr} (he : exec x s = runTask (copyCmd gs ar b) s) (ht : s.task? = some t)
    (hroom : k.creds ≠ 0 ∧ msgEntries t.sluice < 32) : exec x s =
    .next ((s.charged k).setTask (t.issuing i.det [copyEff s k t (.copy gs) (t.rv t.lead b) ar] 1
      (cmdMark 0x22 0 gs.toNat :: vecWords (t.rv t.lead b)))) := by
  rw [he, ← State.det_of_inst hk hi, ← Task.step_withEffects]
  exact runTask_setTask ht (State.task?_charged hk ht) (copyCmd_ok ar b hk hi hd ht hroom)

end

/-! ## REDC (06 R175, R176) -/

/-- Whether a type rounds: those of floating sums. -/
def redcFloat (ty : Ty) : Bool := [Ty.f16, .bf16, .f32, .f64].contains ty

/-- The stochastic roundings that an instruction counts where `c` says that it rounds (03 R91). -/
def Task.rounds (t : Task) (c : Bool) (rm : RM) : Nat := if c = true ∧ t.mode rm = .st then 1 else 0

theorem Task.count_eq (t : Task) (rm : RM) : t.count rm = { t with sn := t.sn + t.rounds true rm } := by
  unfold Task.count Task.rounds
  split <;> simp_all

/-- Counting, then folding: the task takes on the words beside the effects that it holds. -/
theorem count_fold {s : State} {t : Task} (ht : s.task? = some t) (c : Bool) (rm : RM) (es : List Eff) (n : Nat) (ws : List Word) :
    (if c = true then do modTask fun t => t.count rm; fold ws else fold ws : M Unit) (s.setTask (t.withEffects s.det es n [])) =
      .ok () (s.setTask { t.withEffects s.det es n ws with sn := t.sn + t.rounds c rm }) := by
  cases c with
  | false => exact fold_withEffects ht es n ws
  | true =>
    rw [if_pos rfl, bind_ok (modTask_ok (State.task?_setTask ht _) _), State.setTask_setTask ht, Task.count_eq,
      fold_ok (State.task?_setTask ht _), State.det_setTask, State.setTask_setTask ht]
    cases s.det <;> rfl

section
variable {s : State} {t : Task} {k : Core} {i : Inst} {op : BitVec 3} {ty : Ty} {rm : RM} {fzi fzo : Bool} (ar : AcqRel) (b : Reg)
  (ht : s.task? = some t)
include ht

theorem traps_redc_of_det (hf : redcFloat ty = true) (hd : s.det = true) :
    traps (.redc op ty rm fzi fzo ar b) s { cause := .detOp } := by
  refine traps_of_runTask (exec_redc ..) ht ?_
  simp only [if_pos (show [Ty.f16, .bf16, .f32, .f64].contains ty = true from hf)]
  exact bind_error (noDet_error ht hd)

theorem exec_redc_ok (hk : s.core? s.cur = some k) (hi : s.inst? k.inst = some i) (hf : redcFloat ty = true → s.det = false)
    (hd : descOk false i.nvc (s.depth i.id) (t.rv t.lead b) = true) (he : redcOk ty.bytes (t.rv t.lead b) = true)
    (hroom : k.creds ≠ 0 ∧ msgEntries t.sluice < 32) : exec (.redc op ty rm fzi fzo ar b) s =
      .next ((s.charged k).setTask { t.issuing s.det [copyEff s k t (.redc op ty (if rm = .dflt then t.fstat.drm else rm)
        (redcFloat ty && (fzi || t.fstat.dfzi)) (redcFloat ty && (fzo || t.fstat.dfzo)) t.sn) (t.rv t.lead b) ar] 1
          (cmdMark 0x22 1 op.toNat :: vecWords (t.rv t.lead b)) with sn := t.sn + t.rounds (redcFloat ty && op == 0) rm }) := by
  rw [exec_redc]
  refine runTask_setTask (u := { t.withEffects s.det _ 1 _ with sn := t.sn + t.rounds (redcFloat ty && op == 0) rm }) ht
    (State.task?_charged hk ht) ?_
  have hneed : (descOk false i.nvc (s.depth i.id) (t.rv t.lead b) && redcOk ty.bytes (t.rv t.lead b)) = true := by rw [hd, he]; rfl
  have hcount := count_fold (State.task?_charged hk ht) (redcFloat ty && op == 0) rm
  rw [State.det_charged hk] at hcount
  exact Eq.trans (ite_check fun hc => noDet_ok ht (hf hc)) ((bind_ok (getInst_ok hk hi)).trans ((bind_ok (get_ok s)).trans
    ((bind_ok (need_ok _ _ s hneed)).trans ((bind_ok (holdCmd_ok hk _ _ ar ht hroom)).trans (hcount ..)))))

end

/-! ## RDB (06 R194) -/

/-- What an RDB must name: whole lines, from one to 1024 of them. -/
def rdbOk (ea off : Word) (len : Nat) : Prop :=
  ea.toNat % 64 = 0 ∧ off.toNat % 64 = 0 ∧ len % 64 = 0 ∧ 64 ≤ len ∧ len ≤ 65536

theorem rdbOk_iff (ea off : Word) (len : Nat) : rdbOk ea off len ↔
    (ea.toNat % 64 == 0 && off.toNat % 64 == 0 && len % 64 == 0 && decide (64 ≤ len) && decide (len ≤ 65536)) = true := by
  simp only [rdbOk, Bool.and_eq_true, beq_iff_eq, decide_eq_true_eq, and_assoc]

section
variable {s : State} {t : Task} {k : Core} (ar : AcqRel) (d a b c : Reg) (imm : BitVec 32) (ht : s.task? = some t)
include ht

theorem traps_rdb_bad (h : ¬ rdbOk (t.eaImm a imm) (t.rx b) (t.rx c).toNat) : traps (.rdb ar d a b c imm) s { cause := .badDesc } :=
  traps_of_runTask (exec_rdb ..) ht (bind_error (need_error _ _ _ (Bool.eq_false_iff.mpr (mt (rdbOk_iff ..).mpr h))))

theorem exec_rdb_ok (hk : s.core? s.cur = some k) (h : rdbOk (t.eaImm a imm) (t.rx b) (t.rx c).toNat)
    (hroom : k.creds ≠ 0 ∧ msgEntries t.sluice < 32) : exec (.rdb ar d a b c imm) s =
      .next ((s.charged k).setTask (t.issuing s.det
        [copyEff s k t (.rdb (t.eaImm a imm) (t.rx b).toNat (t.rx c).toNat ((t.rx d).setWidth 6)) 0 ar] 1
        [cmdMark 0x22 2 0, t.rx d, t.rx a, t.rx b, t.rx c])) := by
  rw [exec_rdb, ← Task.step_withEffects]
  refine runTask_setTask ht (State.task?_charged hk ht) ?_
  exact (bind_ok (need_ok _ _ _ ((rdbOk_iff ..).mp h))).trans (holdCmd_fold hk _ _ _ ht hroom _)

/-! ## CRES and CDROP (06 R178, R196) -/

theorem tagCmd_ok (fn : Nat) (mk : Word → Nat → Eff) (hm : msgEntries t.sluice < 32) : tagCmd fn mk a t s =
    .ok () (s.setTask (t.withEffects s.det [mk (t.rx a) t.qn] 1 [cmdMark 0x22 fn 0, t.rx a])) := by
  rw [tagCmd, bind_ok (needMsg_ok s hm), bind_ok (countEff_effect ht s.det)]
  exact (bind_ok (hold_withEffects ht ..)).trans (fold_withEffects ht ..)

end

/-! ## MON (06 R183) -/

section
variable {s s0 : State} {t t0 : Task} (d a b : Reg) (imm : BitVec 32) (ht : s.task? = some t)
include ht

theorem traps_mon_misaligned (ha : (t.eaImm a imm).toNat % 8 ≠ 0) : traps (.mon d a b imm) s { cause := .addrAlign } :=
  traps_of_runTask (exec_mon ..) ht (bind_error (aligned_error s ha))

variable {x : Xlat} (ha : (t.eaImm a imm).toNat % 8 = 0) (hx : taskXlat t .load false (t.eaImm a imm) s = .ok x s0) (hattr : x.attr ≠ 2)
  (hhost : x.toHost s0 = false)
include ha hx hattr hhost

theorem exec_mon_full (hm : 16 ≤ monCount s0 s0.cur t) :
    exec (.mon d a b imm) s = .next (s.stopped s0 s.cur (.flt { cause := .monFull })) := by
  have hcached : ¬ (x.attr == 2 || x.toHost s0) = true := by simpa [hhost] using hattr
  rw [exec_mon]
  refine runTask_error ht ((bind_ok (aligned_ok s ha)).trans ?_)
  rw [bind_ok hx, bind_ok (get_ok s0)]
  simp only [if_neg hcached]
  exact bind_error (need_error _ _ _ (decide_eq_false (Nat.not_lt.mpr hm)))

theorem exec_mon_ok (ht0 : s0.task? = some t0) (hm : monCount s0 s0.cur t < 16) : exec (.mon d a b imm) s =
    .next (s0.setTask (t0.issuing false [.mon x (t.eaImm a imm) ((t.rx d).setWidth 6) (t.rx b) t0.qn] 1 [])) := by
  have hcached : ¬ (x.attr == 2 || x.toHost s0) = true := by simpa [hhost] using hattr
  rw [exec_mon, ← Task.step_withEffects]
  refine runTask_setTask ht ht0 ((bind_ok (aligned_ok s ha)).trans ?_)
  rw [bind_ok hx, bind_ok (get_ok s0)]
  simp only [if_neg hcached]
  rw [bind_ok (need_ok _ _ _ (decide_eq_true hm)), bind_ok (countEff_effect ht0 false)]
  exact hold_withEffects ht0 ..

end

/-- Settles O33: the checks of each command in their order, and what a command that passes them is charged and holds. -/
theorem copyCommands : Obligations.CopyCommands := by
  unfold Obligations.CopyCommands
  refine ⟨fun s t k i ar op ty rm fzi fzo d a b c imm ht hk hi => ?commands, fun s s0 t t0 d a b imm x ht ht0 heq => ?monitors⟩
  case commands =>
    have hdet : s.det = i.det := State.det_of_inst hk hi
    refine ⟨fun hd => ?copyBad, fun hd => ⟨?gathBad, ?scatBad⟩, fun hd hroom => exec_copyCmd_ok (gs := 0) ar b hk hi hd rfl ht hroom,
      fun hd hroom => ⟨exec_copyCmd_ok (gs := 1) ar b hk hi hd rfl ht hroom, exec_copyCmd_ok (gs := 2) ar b hk hi hd rfl ht hroom⟩,
      fun hd hc => ?copyFull, fun hd he hf hroom => ?redc, fun hf hd => traps_redc_of_det ar b ht hf (hdet.trans hd),
      fun h1 h2 h3 h4 h5 hroom => ?rdb, traps_rdb_bad ar d a b c imm ht, fun hm => ⟨?cres, ?cdrop⟩⟩
    case copyBad => exact traps_of_runTask (exec_copy ..) ht (copyCmd_bad ar b hk hi hd)
    case gathBad => exact traps_of_runTask (exec_copyGath ..) ht (copyCmd_bad ar b hk hi hd)
    case scatBad => exact traps_of_runTask (exec_copyScat ..) ht (copyCmd_bad ar b hk hi hd)
    case copyFull => exact traps_of_runTask (exec_copy ..) ht (copyCmd_full ar b hk hi hd hc)
    case redc =>
      have hn : t.rounds (redcFloat ty && op == 0) rm = if redcFloat ty = true ∧ op = 0 ∧ t.mode rm = .st then 1 else 0 := by
        simp only [Task.rounds, Bool.and_eq_true, beq_iff_eq, and_assoc]
      rw [exec_redc_ok ar b ht hk hi (fun h => hdet.trans (hf h)) hd he hroom, hn, hdet]
      rfl
    case rdb =>
      rw [exec_rdb_ok ar d a b c imm ht hk ⟨h1, h2, h3, h4, h5⟩ hroom, hdet]
      rfl
    case cres => exact issues_of_runTask (exec_cres ..) ht (tagCmd_ok a ht 3 .cres hm) rfl
    case cdrop => exact issues_of_runTask (exec_cdrop ..) ht (tagCmd_ok a ht 4 .cdrop hm) rfl
  case monitors =>
    refine ⟨traps_mon_misaligned d a b imm ht, fun ha hx hattr hhost =>
      ⟨fun hm => ?mon, exec_mon_full d a b imm ht ha hx hattr hhost⟩, issues_of_hold (exec_monx ..) ht rfl⟩
    case mon =>
      obtain ⟨ic, rfl⟩ : ∃ ic, t0 = { t with icache := ic } := ⟨_, heq⟩
      exact exec_mon_ok d a b imm ht ha hx hattr hhost ht0 hm

end Sys2Proof.Machine
end

section
/-! PROOF. Events of the row copy engines, the culverts, the bench matrix units and other packages (06 R172, R180 to R188, 11 R284 to R286,
04 R135, R140, 05 R156). -/

namespace Sys2Proof.Machine

/-! ## A core that runs in the package (21 R417) -/

/-- A core to which arrivals go directly does not rest in an image (21 Table 21.8). -/
theorem inImage_of_direct {s : State} {k : Core} (h : routeOf s k = .direct) : inImage s k = false := by
  unfold routeOf at h
  unfold inImage
  cases hy : s.ctx? (s.instCtx k.inst).1 (s.instCtx k.inst).2 with
  | none => simp only [hy]
  | some y =>
    have himg : (if (imgWaits s y || recordPoisoned s y k) = true then Route.wait else .image) ≠ .direct := by split <;> simp
    simp only [hy] at h ⊢
    cases hv : y.div <;> simp only [hv] at h ⊢
    case closed => exact Bool.eq_false_iff.mpr fun hs => himg (by rwa [if_pos hs] at h)
    case saving => exact Bool.eq_false_iff.mpr fun hl => himg (by rwa [if_pos hl] at h)
    case diverted => exact absurd h himg
    case merging =>
      rw [Bool.not_eq_false']
      by_contra hl
      rw [if_neg hl] at h
      cases h

/-- The free choices that were made do not decide where an arrival goes. -/
theorem routeOf_freeCnt (s : State) (k : Core) (m : Nat) : routeOf { s with freeCnt := m } k = routeOf s k := rfl

section
variable {s : State} {c : Nat} {k : Core} (hk : s.core? c = some k)
include hk

theorem State.arrive_resident (h : inImage s k = false) (f : Core → State → State) : s.arrive c f = f k s := by
  simp only [State.arrive, hk, h, Bool.false_eq_true, if_false]

theorem State.countArrival_resident (h : inImage s k = false) : s.countArrival c = s := by
  simp only [State.countArrival, hk, h, Bool.false_eq_true, if_false]

theorem recordWaits_resident (h : inImage s k = false) : recordWaits s c = false := by
  simp only [recordWaits, hk, h, Bool.false_and]

theorem coreNow_direct (h : routeOf s k = .direct) : coreNow c s = .ok k s := by
  simp only [coreNow, hk, h]

end

/-! ## Start (06 R180, R181) -/

/-- A command that starts stands at its release where it has nothing to move. -/
theorem Cmd.payload_running (d : Cmd) (s : State) :
    ({ d with phase := .running } : Cmd).payload s =
      if d.buf = [] ∧ d.units ≤ d.unit then
        { d with phase := .payloadDone, relWait := ({ d with phase := .running } : Cmd).relIds s }
      else { d with phase := .running } := by
  have hguard : ((CPhase.running == .running) && d.buf.isEmpty && decide (d.units ≤ d.unit)) = true ↔
      d.buf = [] ∧ d.units ≤ d.unit := by
    simp only [beq_self_eq_true, Bool.true_and, Bool.and_eq_true, List.isEmpty_iff, decide_eq_true_eq]
  exact if_congr hguard rfl rfl

/-! ## Culvert slots (06 R186) -/

/-- A command that reached its engine before another and still waits for a slot of the same culvert. -/
def slotBefore (s : State) (d : Cmd) (c n : Nat) : Prop :=
  ∃ x, x ∈ s.cmds.takeWhile (fun x => x.id != d.id) ∧ x.row = d.row ∧
    (x.phase = .running ∨ (x.phase = .queued ∧ s.unacked x.wait = false)) ∧ x.cv = true ∧ x.slot = none ∧ x.culv s = (c, n)

theorem slotBefore_iff (s : State) (d : Cmd) (c n : Nat) : slotBefore s d c n ↔
    ((s.cmds.takeWhile fun x => x.id != d.id).any fun x => x.row == d.row &&
      (x.phase == .running || (x.phase == .queued && !s.unacked x.wait)) && x.cv && x.slot.isNone && x.culv s == (c, n)) = true := by
  simp only [slotBefore, List.any_eq_true, Bool.and_eq_true, Bool.or_eq_true, Bool.not_eq_true', beq_iff_eq, Option.isNone_iff_eq_none,
    and_assoc]

/-- The oldest command that waits takes the slot at the tail. -/
theorem reserve_ok {s : State} {d : Cmd} {c n : Nat} {core : Core} (hc : d.culv s = (c, n)) (hk : s.core? c = some core)
    (hr : routeOf s core = .direct) (hcv : d.cv = true) (hs : d.slot = none) (hp : d.phase = .running) (hf : (core.culvert n).free ≠ 0)
    (hdep : (core.culvert n).depth ≠ 0) (he : ¬ slotBefore s d c n) :
    reserve s d = (s.setCore c (core.setCulvert n { core.culvert n with
      free := (core.culvert n).free - 1, rsv := (core.culvert n).rsv + 1,
      tail := ((core.culvert n).tail + 1) % (core.culvert n).depth })).putCmd { d with slot := some (core.culvert n).tail } := by
  have hw := Bool.eq_false_iff.mpr (mt (slotBefore_iff s d c n).mpr he)
  simp only [reserve, hc, coreNow_direct hk hr, hw, hf, hdep, hcv, hs, hp, State.arrive_resident hk (inImage_of_direct hr)]
  rfl

/-! ## A command starts, takes its slot and its words (06 R172, R180, R186) -/

section
variable {s : State} {id : Nat} {d : Cmd} (hd : s.cmd? id = some d)
include hd

theorem exec_engineCommandStart_ok (h : canStart s d = true) {d' : Cmd}
    (hp : ({ d with phase := .running } : Cmd).payload (s.putCmd { d with phase := .running }) = d') :
    exec (.engineCommandStart id) s = .next (reserve (s.putCmd d') d') := by
  simp only [exec_engineCommandStart, execEngineCommandStart, hd, h, Bool.not_true, Bool.false_eq_true, if_false, hp]

theorem exec_culvertReserve_ok : exec (.culvertReserve id) s = .next (reserve s d) := by
  simp only [exec_culvertReserve, execCulvertReserve, hd]

theorem exec_feedConsume_ok {f : Nat} (hf : d.drawsFrom = some f) (h : canFeed s d = true) :
    exec (.feedConsume id) s = .next (({ s with feeds := tput s.feeds (d.core, f) ((tget s.feeds (d.core, f) []).drop 1) } : State).putCmd
      { d with feed := d.feed ++ (tget s.feeds (d.core, f) []).take 1 }) := by
  simp only [exec_feedConsume, execFeedConsume, hd, h, hf, Bool.not_true, Bool.false_eq_true, if_false, Option.getD_some]

/-! ## Completion (06 R182) -/

/-- The machine once a command's release has published the pins of the core that issued it (06 R181). -/
def State.releasedBy (s : State) (d : Cmd) : State :=
  match d.releaser s with
  | some k => if d.ar.rel && scPublishes d.ar.scope then s.publishAll k else s
  | none => s

/-- A stamped command is pushed into its culvert, or ends. -/
theorem exec_engineCompletion_ok {s1 : State} {d1 : Cmd} (hp : d.phase = .payloadDone) (hr : releaseWaits s d = false)
    (hc : creditWaits s d = false) (hs : stampCmd d (s.releasedBy d) = .ok d1 s1) :
    exec (.engineCompletion id) s = .next (if d1.cv then
      fillSlot (s1.putCmd { d1 with phase := .pushWait }) d1 (BitVec.ofNat 64 (dDst d1.desc)) 0 else finishCmd d1 s1) := by
  simp only [exec_engineCompletion, execEngineCompletion, hd, hp, hr, hc, bne_self_eq_false, Bool.or_self, Bool.false_eq_true, if_false]
  unfold State.releasedBy at hs
  cases hk : d.releaser s <;> simp only [hk] at hs ⊢ <;> simp only [hs]

end

/-! ## Pushes (06 R188) -/

/-- The handle of a culvert's oldest reserved slot is in its ring, and the slot is filled. -/
def Core.pushed (k : Core) (n : Nat) (h : Word) : Core :=
  ({ k with spad := mwrite k.spad (k.ringOff n (k.culvert n).nextFill) (wordBytes64 h) } : Core).setCulvert n
    { k.culvert n with rsv := (k.culvert n).rsv - 1, filled := (k.culvert n).filled + 1 }

/-- A push of a core's culvert, with the message of one that notifies. -/
def State.pushed (s : State) (c n : Nat) (k : Core) (h : Word) (st t : Nat) (lin : Lineage) : State :=
  let s2 := ({ s with pushes := tdel s.pushes (c, n, (k.culvert n).nextFill) } : State).setCore c (k.pushed n h)
  if (k.culvert n).nv then s2.postHw c 6 (k.culvert n).chan [h, BitVec.ofNat 64 st] t .culvert lin (0, c + 2 ^ 32 * (n + 1)) else s2

theorem State.allCmds_postHw (s : State) (core cls ch : Nat) (pay : List Word) (stamp : Nat) (kind : MKind) (lin : Lineage)
    (prod : Nat × Nat) : (s.postHw core cls ch pay stamp kind lin prod).allCmds = s.allCmds := by
  rw [State.postHw_eq]
  rfl

theorem State.allCmds_pushed (s : State) (c n : Nat) (k : Core) (h : Word) (st t : Nat) (lin : Lineage) :
    (s.pushed c n k h st t lin).allCmds = s.allCmds := by
  unfold State.pushed
  split
  · exact State.allCmds_postHw ..
  · rfl

/-- What arrives at a core that runs in the package changes it there, and DIVCNT does not count it. -/
theorem State.arrive_counted {s : State} {c : Nat} {k k' : Core} {f : Core → State → State} (hk : s.core? c = some k)
    (h : inImage s k = false) (h' : inImage (s.setCore c k') k' = false) (hf : f k s = s.setCore c k') :
    (s.arrive c f).countArrival c = s.setCore c k' := by
  rw [State.arrive_resident hk h, hf]
  exact State.countArrival_resident (by rw [State.core?_setCore, if_pos rfl]) h'

theorem exec_culvertPush_ok {s : State} {c n st t : Nat} {k : Core} {h : Word} {lin : Lineage} (hk : s.core? c = some k)
    (hr : routeOf s k = .direct) (hv : (k.culvert n).rsv ≠ 0) (hp : tget? s.pushes (c, n, (k.culvert n).nextFill) = some (h, st, t, lin))
    (hc : ∀ x, s.allCmds.find? (fun x => x.phase == .pushWait && x.culv s == (c, n) && x.slot == some (k.culvert n).nextFill) = some x →
      creditWaits s x = false) :
    exec (.culvertPush c n) s = .next
      (match s.allCmds.find? fun x => x.phase == .pushWait && x.culv s == (c, n) && x.slot == some (k.culvert n).nextFill with
        | some x => finishCmd x (s.pushed c n k h st t lin)
        | none => s.pushed c n k h st t lin) := by
  have himg := inImage_of_direct hr
  have hwait : ((s.allCmds.find? fun x => x.phase == .pushWait && x.culv s == (c, n) && x.slot == some (k.culvert n).nextFill).map
      (creditWaits s)).getD false = false := by
    cases hx : s.allCmds.find? _ with
    | none => rfl
    | some x => exact hc x hx
  simp only [exec_culvertPush, execCulvertPush, coreNow_direct hk hr, hv, if_false, hp, hwait, Bool.false_eq_true]
  rw [State.arrive_counted (s := { s with pushes := tdel s.pushes (c, n, (k.culvert n).nextFill) }) (k' := k.pushed n h) hk himg himg]
  · rfl
  · rfl

/-! ## A bench grants (11 R286) -/

section
variable {s : State} {bench : Nat} (hn : tget? s.mxrun bench = none)
include hn

theorem exec_matrixGrant_idle (hh : mxHeads s bench = []) : exec (.matrixGrant bench) s = .next (s.idleSlot 0x30 bench) := by
  simp only [exec_matrixGrant, execMatrixGrant, hn, hh, List.head?_nil]

theorem exec_matrixGrant_start {s1 : State} {p0 g : Nat} {c0 m : MxCmd} {rest : List (Nat × MxCmd)}
    (hh : mxHeads s bench = (p0, c0) :: rest)
    (hl : s.lottery 0x30 bench (some (c0.owner s)) ((mxHeads s bench).map (·.1)) = some (g, s1))
    (hg : (mxHeads s bench).find? (fun x => x.1 == g) = some (g, m)) :
    exec (.matrixGrant bench) s = .next (mxStart bench m (max (m.ct + 1) (s1.pkgTime + 1)) (dequeue s1 m)) := by
  rw [hh] at hl hg
  simp only [exec_matrixGrant, execMatrixGrant, hn, hh, List.head?_cons, hl, hg]

end

/-! ## A bench works (11 R283, 04 R140) -/

/-- A free choice below `n`; what it uses up is the count of free values alone. -/
theorem pick_lt {n : Nat} (hn : 0 < n) (s : State) : ∃ i m, i < n ∧ pick n s = .ok i { s with freeCnt := m } := by
  unfold pick
  split
  · exact ⟨0, s.freeCnt, hn, rfl⟩
  · exact ⟨_, s.freeCnt + 1, Nat.mod_lt _ hn, rfl⟩

section
variable {s : State} {bench : Nat} {r : MxRun}

/-- A bench at work first chooses what it does next. -/
theorem mxStep_work (hd : r.done = false) (hb : r.buf = []) (hw : r.words r.row = []) :
    mxStep bench r s = mxWork bench r { s with freeCnt := s.freeCnt + 1 } := by
  simp [mxStep, pick, hd, hb, hw]

/-- Once its rows are worked, a command only writes its words. -/
theorem mxStep_done (hd : r.done = true) : mxStep bench r s =
    orWait (mxWord bench r) (fun _ s => s) (fun _ => { s with freeCnt := s.freeCnt + 1 }) { s with freeCnt := s.freeCnt + 1 } := by
  simp [mxStep, pick, hd]

theorem orWait_ok {α : Type} {m : M α} {ok : α → State → State} {flt : Flt → State} {s s' : State} {a : α} (h : m s = .ok a s') :
    orWait m ok flt s = ok a s' := by
  simp only [orWait, h]

theorem mxWord_none (hb : r.buf = []) : mxWord bench r s = .ok () s := by
  simp [mxWord, hb, pick, bind, EStateM.bind, pure, EStateM.pure]

/-- One word of those that wait, whichever, reaches the scratchpad of a core that runs in the package. -/
theorem mxWord_some (hb : r.buf ≠ []) (hthere : ∀ w, w ∈ r.buf → ∃ k, s.core? w.core = some k ∧ routeOf s k = .direct) :
    ∃ i m w, r.buf[i]? = some w ∧ mxWord bench r s = .ok () { ({ s with freeCnt := m } : State).putPend w with
      mxrun := tput (({ s with freeCnt := m } : State).putPend w).mxrun bench { r with buf := r.buf.eraseIdx i } } := by
  obtain ⟨i, m, hi, hpick⟩ := pick_lt (List.length_pos_of_ne_nil hb) s
  have hget : r.buf[i]? = some r.buf[i] := List.getElem?_eq_getElem hi
  obtain ⟨k, hk, hr⟩ := hthere _ (List.getElem_mem hi)
  have hr' : routeOf { s with freeCnt := m } k = .direct := (routeOf_freeCnt s k m).trans hr
  have hk' : ({ s with freeCnt := m } : State).core? r.buf[i].core = some k := hk
  have hflush : flushPend [r.buf[i]] { s with freeCnt := m } = .ok 0 (({ s with freeCnt := m } : State).putPend r.buf[i]) := by
    simp [flushPend, hk', inImage_of_direct hr']
  refine ⟨i, m, r.buf[i], hget, ?_⟩
  rw [mxWord, bind_ok hpick]
  simp only [hget]
  rw [bind_ok (coreNow_direct hk' hr'), bind_ok hflush, modify_ok, Nat.max_zero]

variable (hrun : tget? s.mxrun bench = some r)
include hrun

theorem exec_matrixGrant_run : exec (.matrixGrant bench) s = .next (mxStep bench r s) := by
  simp only [exec_matrixGrant, execMatrixGrant, hrun]

theorem exec_matrixGrant_none (hd : r.done = true) (hb : r.buf = []) :
    exec (.matrixGrant bench) s = .next { s with freeCnt := s.freeCnt + 1 } := by
  rw [exec_matrixGrant_run hrun, mxStep_done hd, orWait_ok (mxWord_none hb)]

theorem exec_matrixGrant_word (hd : r.done = true) (hb : r.buf ≠ [])
    (hthere : ∀ w, w ∈ r.buf → ∃ k, s.core? w.core = some k ∧ routeOf s k = .direct) :
    ∃ i m w, r.buf[i]? = some w ∧ exec (.matrixGrant bench) s = .next { ({ s with freeCnt := m } : State).putPend w with
      mxrun := tput (({ s with freeCnt := m } : State).putPend w).mxrun bench { r with buf := r.buf.eraseIdx i } } := by
  obtain ⟨i, m, w, hw, hword⟩ := mxWord_some (s := { s with freeCnt := s.freeCnt + 1 }) (bench := bench) hb hthere
  exact ⟨i, m, w, hw, by rw [exec_matrixGrant_run hrun, mxStep_done hd, orWait_ok hword]⟩

/-! ## A matrix command ends (11 R284, R285) -/

theorem exec_matrixCommandEnd_early (hd : r.done = false) : exec (.matrixCommandEnd bench) s = .next s := by
  simp [exec_matrixCommandEnd, execMatrixCommandEnd, hrun, hd]

end

/-- The words that a run has still to write all reach their scratchpads, and its slot follows. -/
def State.drained (s : State) (bench : Nat) (r : MxRun) : State :=
  endSlot bench r (r.buf.foldl State.putPend { s with mxrun := tdel s.mxrun bench })

/-- The time of a run's last write (11 R284). -/
def MxRun.lastTime (r : MxRun) (bench : Nat) (s : State) : Nat :=
  let m0 : State := { s with mxrun := tdel s.mxrun bench }
  max r.last (if r.buf.any fun w => ((m0.core? w.core).map (inImage m0)).getD false then (r.buf.foldl State.putPend m0).pkgTime else 0)

/-- The completion message of a run that ends, of the time `last`, then the credit, and a suspension of context `px` that waited for it
goes on (11 R284, R294). -/
def MxRun.ended (r : MxRun) (bench last : Nat) (px : Nat × Nat) (s : State) : State :=
  ((if r.cmd.comp.getLsbD 6 then
    s.postHw r.cmd.core 6 (fld r.cmd.comp 5 0) [BitVec.ofNat 64 (fld r.cmd.comp 63 32), r.word] last .completion
      (childLin r.cmd.who.path (spawnIndex r.cmd.who.q 0 0)) (3, bench)
  else s).arrive r.cmd.core fun k s => s.setCore r.cmd.core { k with mxcreds := min 8 (k.mxcreds + 1) }).suspendDone px.1 px.2

section
variable {s : State} {bench : Nat} {r : MxRun} {k : Core} (hd : r.done = true) (hk : s.core? r.cmd.core = some k)
  (hr : routeOf s k = .direct)
include hd hk hr

/-- Nothing holds the end of such a run back (04 R129, 11 R284). -/
theorem matrixEnd_ready : (!r.done || recordWaits s r.cmd.core || (!r.buf.isEmpty &&
    ((s.core? r.cmd.core).map (routeOf s) == some .hold || (s.core? r.cmd.core).map (routeOf s) == some .wait))) = false := by
  simp [hd, recordWaits_resident hk (inImage_of_direct hr), hk, hr]

variable (hrun : tget? s.mxrun bench = some r)
include hrun

theorem exec_matrixCommandEnd_ok (hc : r.cause = 0) : exec (.matrixCommandEnd bench) s =
    .next (r.ended bench (r.lastTime bench s) (s.instCtx r.cmd.inst) (s.drained bench r)) := by
  simp only [exec_matrixCommandEnd, execMatrixCommandEnd, hrun, matrixEnd_ready hd hk hr, Bool.false_eq_true, if_false, hc, flushPend]
  rfl

/-- A run that stopped leaves its record and its message before its completion (11 R285). -/
theorem exec_matrixCommandEnd_stopped {s1 : State} {seq ct : Nat} (hc : r.cause ≠ 0)
    (hrec : writeRecord (s.instCtx r.cmd.inst).1 (s.instCtx r.cmd.inst).2 {
        kind := 3, cause := r.cause, detail := BitVec.ofNat 64 r.row, va := r.detailVA, tag := BitVec.ofNat 64 r.cmd.fn,
        who := r.cmd.who } (r.lastTime bench s) (s.drained bench r) = .ok (seq, ct) s1) :
    exec (.matrixCommandEnd bench) s =
      .next (r.ended bench (r.lastTime bench s) (s.instCtx r.cmd.inst) (s1.faultMsg r.cmd.core 3 r.cause seq ct
        (childLin r.cmd.who.path (2 ^ 62 + (r.cmd.who.q + 1) * 2 ^ 24)) (3, bench))) := by
  unfold MxRun.lastTime State.drained at hrec
  simp only [exec_matrixCommandEnd, execMatrixCommandEnd, hrun, matrixEnd_ready hd hk hr, Bool.false_eq_true, if_false, hc, flushPend,
    hrec]
  rfl

end

/-! ## Messages and other packages (06 R183, 04 R134, R135, 05 R156) -/

theorem exec_monitorResend_due {s : State} {k due : Nat} {fl : Flight} (hf : s.net[k]? = some fl) (hst : fl.st = .resend due)
    (hd : due ≤ s.now) : exec (.monitorResend k) s = .next (deliverFlight s k) := by
  simp only [exec_monitorResend, execMonitorResend, hf, hst, hd, if_true]

/-- A read of a line raises its lease alone (04 R138). -/
theorem engRead_ok {s : State} {pa n : Nat} (t : Nat) (hb : s.blocked (s.keys pa n) none = false)
    (hp : (s.keys pa n).any s.poisoned = false) :
    ∃ s', engRead pa n t s = .ok (mread s.mem pa n) s' ∧ s'.mem = s.mem ∧ s'.out = s.out := by
  refine ⟨_, by simp only [engRead, hb, hp, Bool.false_eq_true, if_false]; rfl, ?_, ?_⟩
  · exact foldl_keeps State.mem (by exact fun _ _ => rfl) ..
  · exact foldl_keeps State.out (by exact fun _ _ => rfl) ..

theorem exec_peerRead_ok {s : State} {pkg pa n : Nat} (hboot : s.plat.booted = true) (hreach : peerReach s pa = true) (hn : n ≠ 0)
    (hl : pa % 64 + n ≤ 64) (hb : s.blocked (s.keys pa n) none = false) (hp : (s.keys pa n).any s.poisoned = false) :
    ∃ s', exec (.peerCopyAccess (.read pkg pa n)) s = .next s' ∧ s'.mem = s.mem ∧ s'.out = s.out ++ [.peerData pkg (mread s.mem pa n)] := by
  obtain ⟨s1, hread, hmem, hout⟩ := engRead_ok s.pkgTime hb hp
  have hline : ¬ (n = 0 || decide (pa % 64 + n > 64)) = true := by simp [hn, hl]
  refine ⟨{ s1 with out := s1.out ++ [.peerData pkg (mread s.mem pa n)] }, ?_, hmem, by rw [hout]⟩
  simp only [exec_peerCopyAccess, execPeerCopyAccess, hboot, hreach, Bool.not_true, Bool.false_eq_true, if_false, if_neg hline, peerDo,
    hread]

theorem exec_remoteAtomic_acked {s : State} {k : Nat} {rem : Remote} (v : Word) (rt : Nat) (hrem : s.remotes[k]? = some rem)
    (hh : rem.held = none) (hrpl : rem.rpl = none) : exec (.remoteAtomic (.replied k v rt)) s = .next { s with
      remotes := s.remotes.eraseIdx k, peerPend := s.peerPend.filter fun p => p.id != rem.ack }.releaseRemotes := by
  simp only [exec_remoteAtomic, execRemoteAtomic, hrem, hh, hrpl, Option.isSome_none, Bool.false_eq_true, if_false]

/-- Settles O48: one event of each engine, bench and peer, from the place where its command stands. -/
theorem engineEvents : Obligations.EngineEvents := by
  unfold Obligations.EngineEvents
  intro s s1 id c n f k bench g seq ct pa pkg rt d d1 core h st t lin r m fl rem v
    begun started cv earlier words s0 s2 s3 hs m0 e1 e0 last res later told px paid there
  refine ⟨fun hd => ⟨fun hstart => ?start, fun hc hk hr hcv hslot hp hfree hdep he => ?reserve, exec_feedConsume_ok hd,
      fun hp hrel hcred hstamp => ?complete⟩, fun hk hr hv hp hcred => ?push, exec_matrixGrant_idle,
    fun hn p0 c0 rest hh hl hg => exec_matrixGrant_start hn hh hl hg,
    fun hrun => ⟨fun hd hb hw => ?work, exec_matrixGrant_none hrun, exec_matrixGrant_word hrun, exec_matrixCommandEnd_early hrun,
      fun hd ⟨kk, hk, hr⟩ hc => exec_matrixCommandEnd_ok hd hk hr hrun hc,
      fun hd ⟨kk, hk, hr⟩ hc hrec => exec_matrixCommandEnd_stopped hd hk hr hrun hc hrec⟩,
    fun due => exec_monitorResend_due, exec_peerRead_ok, rfl, exec_remoteAtomic_acked v rt⟩
  case start => exact exec_engineCommandStart_ok hd hstart (Cmd.payload_running ..)
  case reserve =>
    rw [exec_culvertReserve_ok hd, reserve_ok hc hk hr hcv hslot hp hfree hdep he]
  case complete =>
    rw [exec_engineCompletion_ok hd hp hrel hcred hstamp]
    exact ⟨fun hcv => by rw [hcv]; rfl, fun hcv => by rw [hcv]; rfl⟩
  case push =>
    have hcmds : s3.allCmds = s.allCmds := State.allCmds_pushed s c n core h st t lin
    rw [hcmds]
    exact exec_culvertPush_ok hk hr hv hp hcred
  case work => rw [exec_matrixGrant_run hrun, mxStep_work hd hb hw]

end Sys2Proof.Machine
end

section
/-! PROOF. Bytes, and what is read of a scratchpad after local stores and commits write it (07 R205, R206). -/

namespace Sys2Proof.Machine

/-! ## Bytes of a number (00 R6) -/

@[simp] theorem length_natBytes (n v : Nat) : (natBytes n v).length = n := by
  induction n generalizing v with
  | zero => rfl
  | succ n ih => rw [natBytes, List.length_cons, ih]

@[simp] theorem getElem_natBytes (n v i : Nat) (hi : i < (natBytes n v).length) : (natBytes n v)[i] = BitVec.ofNat 8 (v / 256 ^ i) := by
  induction n generalizing v i with
  | zero => cases hi
  | succ n ih =>
    cases i with
    | zero => simp [natBytes]
    | succ i => simp [natBytes, ih, Nat.div_div_eq_div_mul, Nat.pow_succ']

theorem leNat_natBytes (n v : Nat) : leNat (natBytes n v) = v % 256 ^ n := by
  induction n generalizing v with
  | zero => simp [natBytes, leNat, Nat.mod_one]
  | succ n ih =>
    rw [natBytes, leNat, ih, BitVec.toNat_ofNat]
    exact (Nat.mod_mul (a := 256)).symm.trans (congrArg (v % ·) Nat.pow_succ'.symm)

theorem leWord64_wordBytes64 (x : Word) : leWord64 (wordBytes64 x) = x := by
  rw [leWord64, wordBytes64, leNat_natBytes]
  exact BitVec.eq_of_toNat_eq (by simpa using x.isLt)

/-- Bytes that stand one by one from an address on are what is read there. -/
theorem mread_eq {m : List Host.Cell} {a : Nat} {bs : List Byte} (h : ∀ i, (hi : i < bs.length) → mget m (a + i) = bs[i]) :
    mread m a bs.length = bs :=
  List.ext_getElem (by simp [mread]) fun i _ hi => by simpa [mread] using h i hi

/-! ## A store to the array (07 R205) -/

theorem Core.spWrite_spad (k : Core) (off : Nat) (bs : List (Option Byte)) : (k.spWrite off bs).spad = mwriteMask k.spad off bs := by
  unfold Core.spWrite
  dsimp only
  split <;> rfl

theorem Core.spWrite_task (k : Core) (off : Nat) (bs : List (Option Byte)) : (k.spWrite off bs).task = k.task := by
  unfold Core.spWrite
  dsimp only
  split <;> rfl

/-- A store of less than a line leaves every mark (02 R76). -/
theorem Core.spWrite_of_length_ne (k : Core) (off : Nat) {bs : List (Option Byte)} (h : bs.length ≠ 64) :
    k.spWrite off bs = { k with spad := mwriteMask k.spad off bs } := by
  simp [Core.spWrite, h]

theorem mget_spWrite_natBytes {k : Core} (hwf : Memory.wf k.spad = true) (off n v a : Nat) :
    mget (k.spWrite off ((natBytes n v).map some)).spad a =
      if off ≤ a ∧ a < off + n then BitVec.ofNat 8 (v / 256 ^ (a - off)) else mget k.spad a := by
  rw [Core.spWrite_spad, mget_mwriteMask _ _ _ hwf]
  by_cases h1 : off ≤ a
  · by_cases h2 : a < off + n
    · simp [h1, h2, show a - off < n by omega]
    · simp [h1, h2, show ¬ a - off < n by omega]
  · simp [h1]

theorem mread_spWrite_wordBytes64 {k : Core} (hwf : Memory.wf k.spad = true) (off : Nat) (x : Word) :
    mread (k.spWrite off ((wordBytes64 x).map some)).spad off 8 = wordBytes64 x := by
  have h : ∀ i, (hi : i < (wordBytes64 x).length) →
      mget (k.spWrite off ((wordBytes64 x).map some)).spad (off + i) = (wordBytes64 x)[i] := fun i hi => by
    have hi8 : i < 8 := by simpa [wordBytes64] using hi
    simp [wordBytes64, mget_spWrite_natBytes hwf, hi8]
  simpa [wordBytes64] using mread_eq h

/-! ## A commit writes aligned words whole (07 R206) -/

theorem wordHit_eq_true {bs : List (Option Byte)} {i : Nat} :
    wordHit bs i = true ↔ ∃ j, j < 8 ∧ (bs.getD (8 * i + j) none).isSome = true := by
  simp [wordHit]

theorem getElem?_fillWords (bs : List (Option Byte)) (under : List Byte) (i : Nat) : (fillWords bs under)[i]?.join =
    if i < bs.length ∧ wordHit bs (i / 8) = true then some ((bs.getD i none).getD (under.getD i 0)) else none := by
  by_cases hi : i < bs.length
  · by_cases hw : wordHit bs (i / 8) = true <;> simp [fillWords, hi, hw]
  · simp [fillWords, hi]

/-- Where every byte is stored, every word of theirs is written. -/
theorem wordHit_of_all_isSome {bs : List (Option Byte)} (h : bs.all Option.isSome = true) {i : Nat} (hi : i < bs.length) :
    wordHit bs (i / 8) = true := by
  refine wordHit_eq_true.mpr ⟨i % 8, Nat.mod_lt _ (by decide), ?_⟩
  rw [Nat.div_add_mod, List.getD_eq_getElem _ _ hi]
  exact List.all_eq_true.mp h _ (List.getElem_mem hi)

/-- The array that a commit finds when it fills its words: whole lines are stored there first (02 R76). -/
theorem Core.spCommit_spad (k : Core) (off : Nat) (bs : List (Option Byte)) (under : List Byte) : (k.spCommit off bs under).spad =
    mwriteMask (if bs.all Option.isSome = true then mwriteMask k.spad off bs else k.spad) off (fillWords bs under) := by
  unfold Core.spCommit
  dsimp only
  rw [apply_ite Core.spad, Core.spWrite_spad, foldl_keeps Core.spad]
  intro k i
  split <;> rfl

/-- A byte of a word that is written is the one stored, or what lies under it; every other byte stands. -/
theorem mget_spCommit {k : Core} (hwf : Memory.wf k.spad = true) (off : Nat) (bs : List (Option Byte)) (under : List Byte) (a : Nat) :
    mget (k.spCommit off bs under).spad a =
      if off ≤ a ∧ a - off < bs.length ∧ wordHit bs ((a - off) / 8) = true then (bs.getD (a - off) none).getD (under.getD (a - off) 0)
      else mget k.spad a := by
  have hwf' : Memory.wf (if bs.all Option.isSome = true then mwriteMask k.spad off bs else k.spad) = true := by
    split
    · exact wf_mwriteMask _ _ hwf
    · exact hwf
  rw [Core.spCommit_spad, mget_mwriteMask _ _ _ hwf', getElem?_fillWords]
  by_cases ha : off ≤ a
  case neg =>
    simp only [ha, if_false, false_and]
    split
    · rw [mget_mwriteMask _ _ _ hwf, if_neg ha]
    · rfl
  by_cases hw : a - off < bs.length ∧ wordHit bs ((a - off) / 8) = true
  · simp only [ha, hw, if_true, and_self, Option.getD_some]
  · simp only [ha, hw, if_true, if_false, true_and, Option.getD_none]
    split
    · next hall =>
      have hlen : ¬ a - off < bs.length := fun hi => hw ⟨hi, wordHit_of_all_isSome hall hi⟩
      rw [mget_mwriteMask _ _ _ hwf, if_pos ha, List.getElem?_eq_none (by omega)]
      rfl
    · rfl

/-! ## Bytes padded to words (07 R206) -/

theorem Width.bytes_pos (w : Width) : 0 < w.bytes := by cases w <;> decide

/-- An aligned access lies in one word of 8 bytes. -/
theorem Width.aligned_in_word {w : Width} {off : Nat} (h : off % w.bytes = 0) : off % 8 + w.bytes ≤ 8 := by
  cases w <;> simp only [Width.bytes] at h ⊢ <;> omega

section
variable {bs : List (Option Byte)} {off : Nat} (h : off % 8 + bs.length ≤ 8) (hpos : 0 < bs.length)
include h hpos

theorem length_padWords_word : (padWords off bs).length = 8 := by
  simp only [padWords, List.length_map, List.length_range]
  omega

theorem getD_padWords_word {i : Nat} (hi : i < 8) :
    (padWords off bs).getD i none = if off ≤ off / 8 * 8 + i then bs.getD (off / 8 * 8 + i - off) none else none := by
  have hlen := length_padWords_word h hpos
  have hi' : i < (padWords off bs).length := hlen ▸ hi
  rw [List.getD_eq_getElem _ _ hi']
  simp only [padWords, List.getElem_map, List.getElem_range]

/-- The word of the bytes is written. -/
theorem wordHit_padWords_word (hs : (bs.getD 0 none).isSome = true) : wordHit (padWords off bs) 0 = true := by
  refine wordHit_eq_true.mpr ⟨off % 8, Nat.mod_lt _ (by decide), ?_⟩
  have e : off / 8 * 8 + off % 8 = off := Nat.div_add_mod' off 8
  rw [Nat.mul_zero, Nat.zero_add, getD_padWords_word h hpos (Nat.mod_lt _ (by decide)), e, if_pos (Nat.le_refl _), Nat.sub_self]
  exact hs

end

/-- The commit of an aligned scalar store: its own bytes, those under the rest of its word, and no byte of another word. -/
theorem mget_spCommit_scalar {k : Core} (hwf : Memory.wf k.spad = true) {w : Width} {off : Nat} (hoff : off % w.bytes = 0) (v : Nat)
    (under : List Byte) (a : Nat) :
    mget (k.spCommit (off / 8 * 8) (padWords off ((natBytes w.bytes v).map some)) under).spad a =
      if off ≤ a ∧ a < off + w.bytes then BitVec.ofNat 8 (v / 256 ^ (a - off))
      else if off / 8 = a / 8 then under.getD (a % 8) 0 else mget k.spad a := by
  have hw := Width.bytes_pos w
  have hin := Width.aligned_in_word hoff
  have hlen : ((natBytes w.bytes v).map some).length = w.bytes := by simp
  have hin' : off % 8 + ((natBytes w.bytes v).map some).length ≤ 8 := by rwa [hlen]
  have hw' : 0 < ((natBytes w.bytes v).map some).length := by rwa [hlen]
  have h0 : (((natBytes w.bytes v).map some).getD 0 none).isSome = true := by
    simp [List.getD_eq_getElem?_getD, hw]
  have hhit := wordHit_padWords_word hin' hw' h0
  have hbyte {i : Nat} (hi : i < 8) := getD_padWords_word hin' hw' hi
  rw [mget_spCommit hwf, length_padWords_word hin' hw']
  by_cases hword : off / 8 = a / 8
  · have hmod : a - off / 8 * 8 = a % 8 := by omega
    have hlt : a % 8 < 8 := Nat.mod_lt _ (by decide)
    have hdiv : a % 8 / 8 = 0 := Nat.div_eq_of_lt hlt
    have hsum : off / 8 * 8 + a % 8 = a := by omega
    rw [hmod, hdiv, hhit, if_pos ⟨by omega, hlt, rfl⟩, hbyte hlt, hsum, if_pos hword]
    by_cases hown : off ≤ a
    · by_cases hend : a < off + w.bytes
      · simp [List.getD_eq_getElem?_getD, hown, hend, show a - off < w.bytes by omega]
      · simp [List.getD_eq_getElem?_getD, hown, hend, show ¬ a - off < w.bytes by omega]
    · simp [hown]
  · rw [if_neg (by omega), if_neg (by omega), if_neg hword]

end Sys2Proof.Machine
end

section
/-! PROOF. What the check of a local access answers, and the shared steps of local accesses (07 R203; 10 R265, R267). -/

namespace Sys2Proof.Machine

/-! ## The check (07 R203) -/

section
variable {k : Core} {m frame off n : Nat} {store : Bool} (s : State)

theorem spadCheck_misaligned (ha : off % n ≠ 0) : spadCheck k m frame off n store s =
    .error (.flt { cause := .addrAlign, detail := BitVec.ofNat 32 0, mem := m }) s := by
  rw [spadCheck, if_pos (bne_iff_ne.mpr ha)]
  rfl

/-- The entry's bit for the access, as the check reads it. -/
theorem regionBit_iff (g : BitVec 64) :
    (if store then !regLw g else !regLr g) = true ↔ ¬ (if store then regLw g else regLr g) = true := by cases store <;> simp

/-- An entry that opens the offset answers with its kind. -/
theorem spadCheck_open {g : BitVec 64} (ha : off % n = 0) (hg : k.regionAt off = some g) (ho : localOpen g frame off n store) :
    spadCheck k m frame off n store s = .ok (if regKind g = 1 then .frame else .pers) s := by
  obtain ⟨hkind, hbit, hframe⟩ := ho
  have hbit' := mt (regionBit_iff g).mp (not_not_intro hbit)
  rw [spadCheck, if_neg (by simp [ha]), hg]
  dsimp only
  rw [if_neg (by rcases hkind with h | h <;> simp [h]), if_neg hbit', if_neg (by simpa using hframe), pure_ok]
  simp only [beq_iff_eq]

/-- Where no entry opens the offset, the access is out of range. -/
theorem spadCheck_closed (ha : off % n = 0) (hc : ∀ g, k.regionAt off = some g → ¬ localOpen g frame off n store) :
    spadCheck k m frame off n store s = .error (.flt { cause := .spadRange, detail := BitVec.ofNat 32 off, mem := m }) s := by
  rw [spadCheck, if_neg (by simp [ha])]
  cases hg : k.regionAt off with
  | none => rfl
  | some g =>
    dsimp only
    by_cases hkind : regKind g = 1 ∨ regKind g = 2
    case neg => rw [if_pos (by simpa [not_or] using hkind)]; rfl
    rw [if_neg (by rcases hkind with h | h <;> simp [h])]
    by_cases hbit : (if store then regLw g else regLr g) = true
    case neg => rw [if_pos ((regionBit_iff g).mpr hbit)]; rfl
    rw [if_neg (mt (regionBit_iff g).mp (not_not_intro hbit))]
    have hframe : ¬ (regKind g = 1 → off + n ≤ regBase g + frame) := fun hf => hc g hg ⟨hkind, hbit, hf⟩
    rw [if_pos (by simpa using hframe)]
    rfl

end

/-- Settles O22, clause by clause of the check. -/
theorem localChecks : Obligations.LocalChecks := by
  unfold Obligations.LocalChecks
  intro s k m frame off n store
  exact ⟨spadCheck_misaligned s, spadCheck_closed s, fun _ => spadCheck_open s⟩

/-! ## Cores and tasks inside an access -/

theorem State.onCore_of_core {s : State} {c : Nat} {k : Core} (h : s.core? c = some k) (f : Core → Core) :
    s.onCore c f = s.setCore c (f k) := by
  simp only [State.onCore, h]

/-- A change of the current core that keeps its task. -/
theorem State.task?_setCore {s : State} {k k' : Core} {t : Task} (hk : s.core? s.cur = some k) (ht : s.task? = some t)
    (h : k'.task = k.task) : (s.setCore s.cur k').task? = some t := by
  rw [State.task?, hk] at ht
  rw [State.task?, State.setCore_cur, State.core?_setCore, if_pos rfl]
  exact h.trans ht

/-- A change of any core that keeps its task. -/
theorem State.task?_onCore (s : State) (c : Nat) {f : Core → Core} (h : ∀ k, (f k).task = k.task) : (s.onCore c f).task? = s.task? := by
  rw [State.task?, State.task?, State.onCore_cur, State.core?_onCore]
  split
  · next e =>
    rw [e]
    cases s.core? c with
    | none => rfl
    | some k => exact h k
  · rfl

/-- What leaves the task with one scalar register written, and moves it on. -/
theorem writesX_of_next {i : Instr} {s : State} {t : Task} {d : Reg} {v : Word} (ht : s.task? = some t)
    (h : exec i s = .next (s.setTask (t.wx d v).step)) : writesX i s t d v :=
  ⟨(t.wx d v).step, ⟨_, h, State.task?_setTask ht _, State.sameButTask_setTask ht _⟩, by rw [Task.step, Task.wx_eq],
    fun r => Task.rx_wx t d r v⟩

/-! ## The members of an access (10 R265, R267) -/

theorem membersOf_alone {s : State} {t : Task} {k : Core} (ha : t.alone s.cur) (hk : s.core? s.cur = some k) :
    membersOf s t = [(0, s.cur, k)] := by
  obtain ⟨hm, -, -⟩ := ha
  simp [membersOf, hm, hk]

/-- One access of each member, where the state and the task are as the instruction finds them. -/
def eachMember (f : State → Task → Nat × Nat × Core → M Unit) (t : Task) : M Unit := do
  let s ← get
  (membersOf s t).forM (f s t)

section
variable {s s1 : State} {t t1 : Task} {i : Instr} {f : State → Task → Nat × Nat × Core → M Unit}
  (he : exec i s = runTask (eachMember f) s) (ht : s.task? = some t)
include he ht

/-- An instruction that is one access of each member. -/
theorem exec_members_forM (hm : (membersOf s t).forM (f s t) s = .ok () s1) (h1 : s1.task? = some t1) :
    exec i s = .next (s1.setTask t1.step) := by
  rw [he, runTask_ok ht ((bind_ok (get_ok s)).trans hm)]
  simp only [State.advance, h1]

variable {k : Core} (hk : s.core? s.cur = some k) (ha : t.alone s.cur)
include hk ha

/-- The same of a task outside a clamp. -/
theorem exec_member_alone (hm : f s t (0, s.cur, k) s = .ok () s1) (h1 : s1.task? = some t1) :
    exec i s = .next (s1.setTask t1.step) :=
  exec_members_forM he ht (by rw [membersOf_alone ha hk]; exact forM_one_ok hm) h1

/-- The same where the member changes the task alone. -/
theorem exec_member_setTask {s0 : State} {t0 u : Task} (hm : f s t (0, s.cur, k) s = .ok () (s0.setTask u)) (h0 : s0.task? = some t0) :
    exec i s = .next (s0.setTask u.step) := by
  rw [exec_member_alone he ht hk ha hm (State.task?_setTask h0 u), State.setTask_setTask h0]

theorem becomes_member_alone {u : Task} (hm : f s t (0, s.cur, k) s = .ok () (s.setTask u)) : becomes i s u.step :=
  ⟨s.setTask u.step, exec_member_setTask he ht hk ha hm ht, State.task?_setTask ht _, State.sameButTask_setTask ht _⟩

end

end Sys2Proof.Machine
end

section
/-! PROOF. Local stores: at once in FRAME, held in PERS, and each member of a clamp to its own scratchpad (07 R204, R205, R212, R213). -/

namespace Sys2Proof.Machine

/-- The effect of a local store to PERS: the words that it touches, and what the task sees under them (log 107). -/
def persEff (t : Task) (c : Nat) (k : Core) (off : Nat) (bs : List (Option Byte)) : Eff :=
  .pers c (off / 8 * 8) (padWords off bs) ((spadView t c k (off / 8 * 8) (padWords off bs).length).map (·.1))

/-- The task knows the bytes that it has stored to its frame (07 R204). -/
def Task.framed (t : Task) (c off : Nat) (bs : List (Option Byte)) : Task :=
  { t with frame := t.frame ++ (bs.zipIdx.filter fun p => p.1.isSome).map fun p => (c, off + p.2) }

/-! ## One member's store -/

section
variable {s : State} {t : Task} {k : Core} (ht : s.task? = some t) (hk : s.core? s.cur = some k)
include ht hk

section
variable {m off n : Nat} {g : BitVec 64} (bs : List (Option Byte)) (ha : off % n = 0) (hg : k.regionAt off = some g)
  (ho : localOpen g (frameSz s t) off n true)
include ha hg ho

theorem localStore_frame (hkind : regKind g = 1) : localStore m s.cur off n bs s =
    .ok () ((s.setCore s.cur (k.spWrite off bs)).setTask (t.framed s.cur off bs)) := by
  have hmod : (modify (fun s' : State => s'.onCore s.cur fun k => k.spWrite off bs) : M Unit) s =
      .ok () (s.setCore s.cur (k.spWrite off bs)) := (modify_ok ..).trans (by rw [State.onCore_of_core hk])
  rw [localStore, bind_ok (getTask_ok ht), bind_ok (get_ok s)]
  simp only [hk]
  rw [bind_ok (spadCheck_open s ha hg ho), if_pos hkind]
  dsimp only
  rw [bind_ok hmod, modTask_ok (State.task?_setCore hk ht (k.spWrite_task off bs))]
  rfl

theorem localStore_pers (hkind : regKind g = 2) (hroom : lineEntries (t.sluice ++ [persEff t s.cur k off bs]) true s.cur ≤ 256) :
    localStore m s.cur off n bs s = .ok () (s.setTask { t with sluice := t.sluice ++ [persEff t s.cur k off bs] }) := by
  rw [localStore, bind_ok (getTask_ok ht), bind_ok (get_ok s)]
  simp only [hk]
  rw [bind_ok (spadCheck_open s ha hg ho), if_neg (by rw [hkind]; decide)]
  dsimp only
  rw [beq_self_eq_true]
  exact (bind_ok (fits_ok s hroom)).trans (hold_ok ht _)

end

section
variable {off : Nat} {ty : Ty} {mask : SReg} {d : Reg} {i : Nat} (c : Nat) (k : Core)
omit ht hk

/-- A member whose lanes are all off accesses nothing (05 R147). -/
theorem vstlMember_off (h : (t.byteMask ty mask i).any id = false) : vstlMember t off ty mask d (i, c, k) s = .ok () s := by
  rw [vstlMember, if_neg (Bool.eq_false_iff.mp h), pure_ok]

theorem vstlMember_on (h : (t.byteMask ty mask i).any id = true) : vstlMember t off ty mask d (i, c, k) =
    localStore i c off 64 (((vecBytes (t.rv i d)).zip (t.byteMask ty mask i)).map fun x => if x.2 then some x.1 else none) := by
  rw [vstlMember, if_pos h]

end

section
variable {m off : Nat} {g : BitVec 64} (sb : BitVec 32) (v : Bool) (ha : off % 64 = 0) (hg : k.regionAt off = some g)
  (ho : localOpen g (frameSz s t) off 64 true)
include ha hg ho

omit ht in
theorem stsbMember_frame (hkind : regKind g = 1) : stsbMember s t off sb v (m, s.cur, k) s =
    .ok () (s.setCore s.cur (k.setSb off { k.sbLine off with sb, sbv := v })) := by
  rw [stsbMember, bind_ok (spadCheck_open s ha hg ho), if_pos hkind]
  dsimp only
  rw [modify_ok, State.onCore_of_core hk]

omit hk in
theorem stsbMember_pers (hkind : regKind g = 2) (hroom : lineEntries (t.sluice ++ [.persSb s.cur off sb v]) true s.cur ≤ 256) :
    stsbMember s t off sb v (m, s.cur, k) s = .ok () (s.setTask { t with sluice := t.sluice ++ [.persSb s.cur off sb v] }) := by
  rw [stsbMember, bind_ok (spadCheck_open s ha hg ho), if_neg (by rw [hkind]; decide)]
  dsimp only
  rw [bind_ok (getTask_ok ht), beq_self_eq_true, bind_ok (fits_ok s hroom), hold_ok ht]

end

end

/-! ## The instructions by their members -/

def stlAccess (w : Width) (d : Reg) (m : MemOp) (_ : State) (t : Task) (p : Nat × Nat × Core) : M Unit :=
  localStore p.1 p.2.1 (t.off m) w.bytes ((natBytes w.bytes (t.rx d).toNat).map some)

def vstlAccess (ty : Ty) (mask : SReg) (d : Reg) (m : MemOp) (_ : State) (t : Task) : Nat × Nat × Core → M Unit :=
  vstlMember t (t.jigged m) ty mask d

def stsbAccess (d : Reg) (m : MemOp) (s : State) (t : Task) : Nat × Nat × Core → M Unit :=
  stsbMember s t (t.off m) ((t.rx d).setWidth 32) ((t.rx d).getLsbD 32)

theorem exec_stl_eachMember (s : State) (w : Width) (d : Reg) (m : MemOp) :
    exec (.stl w d m) s = runTask (eachMember (stlAccess w d m)) s := exec_stl ..

theorem exec_vstl_eachMember (s : State) (ty : Ty) (mask : SReg) (d : Reg) (m : MemOp) :
    exec (.vstl ty mask d m) s = runTask (eachMember (vstlAccess ty mask d m)) s := exec_vstl ..

theorem exec_stsb_eachMember (s : State) (d : Reg) (m : MemOp) :
    exec (.stsb d m) s = runTask (eachMember (stsbAccess d m)) s := exec_stsb ..

/-- Settles O24: a store outside a clamp is one member's store, and a commit's bytes are those of the array's laws. -/
theorem localStores : Obligations.LocalStores := by
  unfold Obligations.LocalStores
  intro s t k g w ty mask d m ht hk may room held done pers off bs on vs sb sbv
  have hstl := exec_stl_eachMember s w d m
  have hvstl := exec_vstl_eachMember s ty mask d m
  have hstsb := exec_stsb_eachMember s d m
  have hcore (off : Nat) (bs : List (Option Byte)) := State.task?_setCore hk ht (k.spWrite_task off bs)
  refine ⟨fun ⟨hal, ha, hg, hkind, ho⟩ hroom => ?stl, fun under a hoff hwf => mget_spCommit_scalar hwf hoff ..,
    fun ⟨hal, ha, hg, hkind, ho⟩ => ?stlFrame, fun hon ⟨hal, ha, hg, hkind, ho⟩ hroom => ?vstl,
    fun hon ⟨hal, ha, hg, hkind, ho⟩ => ?vstlFrame, fun hal hoff => ?vstlOff, fun ⟨hal, ha, hg, hkind, ho⟩ hroom => ?stsb,
    fun ⟨hal, ha, hg, hkind, ho⟩ => ?stsbFrame, fun s1 t1 => exec_members_forM hstl ht, fun s1 t1 => exec_members_forM hvstl ht,
    fun s1 t1 => exec_members_forM hstsb ht, fun a hwf => mget_spWrite_natBytes hwf ..⟩
  case stl => exact exec_member_setTask hstl ht hk hal (localStore_pers ht hk bs ha hg ho hkind hroom) ht
  case stlFrame => exact exec_member_setTask hstl ht hk hal (localStore_frame ht hk bs ha hg ho hkind) (hcore ..)
  case vstl =>
    exact exec_member_setTask hvstl ht hk hal
      ((congrFun (vstlMember_on s.cur k hon) s).trans (localStore_pers ht hk vs ha hg ho hkind hroom)) ht
  case vstlFrame =>
    exact exec_member_setTask hvstl ht hk hal
      ((congrFun (vstlMember_on s.cur k hon) s).trans (localStore_frame ht hk vs ha hg ho hkind)) (hcore ..)
  case vstlOff => exact becomes_member_alone hvstl ht hk hal (by rw [State.setTask_same ht]; exact vstlMember_off s.cur k hoff)
  case stsb => exact exec_member_setTask hstsb ht hk hal (stsbMember_pers ht sb sbv ha hg ho hkind hroom) ht
  case stsbFrame =>
    exact exec_member_alone hstsb ht hk hal (stsbMember_frame hk sb sbv ha hg ho hkind) (State.task?_setCore hk ht rfl)

end Sys2Proof.Machine
end

section
/-! PROOF. Local loads: the bytes that the task sees, a frame byte not yet known, and the registers that they go to (07 R204, R205, R212,
R213; 10 R267; log 3). -/

namespace Sys2Proof.Machine

/-! ## What an operation leaves of a view -/

/-- An operation that does not stop leaves a view of the state as it was. -/
structure Leaves {α γ : Type} (f : State → γ) (m : M α) : Prop where
  ok : ∀ {s a s'}, m s = .ok a s' → f s' = f s

namespace Leaves

section
variable {α β γ : Type} {f : State → γ}

theorem of_pure (a : α) : Leaves f (pure a : M α) := ⟨fun h => by cases h; rfl⟩

theorem of_throw (e : Stop) : Leaves f (throw e : M α) := ⟨fun h => by cases h⟩

theorem of_get : Leaves f (get : M State) := ⟨fun h => by cases h; rfl⟩

theorem of_modify {g : State → State} (h : ∀ s, f (g s) = f s) : Leaves f (modify g : M Unit) := ⟨fun e => by cases e; exact h _⟩

theorem bind {m : M α} {g : α → M β} (hm : Leaves f m) (hg : ∀ a, Leaves f (g a)) : Leaves f (m >>= g) := by
  refine ⟨fun {s b s'} h => ?_⟩
  cases e : m s with
  | ok a s1 => rw [bind_ok e] at h; exact ((hg a).ok h).trans (hm.ok e)
  | error r s1 => rw [bind_error e] at h; cases h

theorem ite {c : Prop} [Decidable c] {m m' : M α} (h : Leaves f m) (h' : Leaves f m') : Leaves f (if c then m else m') := by
  split
  · exact h
  · exact h'

theorem forM {l : List α} {g : α → M Unit} (h : ∀ a, Leaves f (g a)) : Leaves f (l.forM g) := by
  induction l with
  | nil => exact of_pure _
  | cons a l ih => exact (h a).bind fun _ => ih

theorem mapM {l : List α} {g : α → M β} (h : ∀ a, Leaves f (g a)) : Leaves f (l.mapM g) := by
  induction l with
  | nil => exact of_pure _
  | cons a l ih =>
    rw [List.mapM_cons]
    exact (h a).bind fun _ => ih.bind fun _ => of_pure _

end

theorem getTask {γ : Type} {f : State → γ} : Leaves f getTask := by
  refine of_get.bind fun s => ?_
  split
  · exact of_pure _
  · exact of_throw _

theorem freeByte {γ : Type} {f : State → γ} (h : ∀ (s : State) n, f { s with freeCnt := n } = f s) : Leaves f freeByte :=
  ⟨fun e => by cases e; exact h ..⟩

end Leaves

/-- The place of the leader among the members of the task that runs. -/
def State.leader (s : State) : Option Nat := s.task?.map Task.lead

theorem leaves_leader_modTask {g : Task → Task} (h : ∀ t, (g t).lead = t.lead) : Leaves State.leader (modTask g) := by
  refine .of_modify fun s => ?_
  cases ht : s.task? with
  | none => rfl
  | some t => simp only [State.leader, State.task?_setTask ht, ht, Option.map_some, h]

/-! ## A frame byte (07 R204, log 3) -/

/-- A frame byte that the task knows stays as it is. -/
theorem freshen_known {s : State} {t : Task} {c off : Nat} (ht : s.task? = some t) (h : (c, off) ∈ t.frame) :
    freshen c off s = .ok () s := by
  rw [freshen, bind_ok (getTask_ok ht), if_pos (List.contains_iff_mem.mpr h), pure_ok]

theorem leaves_leader_freshen (c off : Nat) : Leaves State.leader (freshen c off) := by
  refine .bind .getTask fun t => .ite (.of_pure _) (.bind (.freeByte fun s n => rfl) fun b => .bind (.of_modify fun s => ?_) fun _ => ?_)
  · exact congrArg (Option.map Task.lead) (State.task?_onCore s c fun _ => rfl)
  · exact leaves_leader_modTask fun _ => rfl

theorem forM_same {α : Type} {f : α → M Unit} {l : List α} {s : State}
    (h : ∀ a ∈ l, f a s = .ok () s) : l.forM f s = .ok () s := by
  induction l with
  | nil => rfl
  | cons a l ih =>
    exact (bind_ok (h a List.mem_cons_self)).trans (ih fun b hb => h b (List.mem_cons_of_mem _ hb))

/-! ## One member's load (07 R212) -/

theorem leaves_spadCheck {γ : Type} {f : State → γ} (k : Core) (m frame off n : Nat) (store : Bool) :
    Leaves f (spadCheck k m frame off n store) := by
  refine .ite (.of_throw _) ?_
  split
  · exact .of_throw _
  · exact .ite (.of_throw _) (.ite (.of_throw _) (.ite (.of_throw _) (.of_pure _)))

/-- The end of a load of one member: a poisoned line stops it, and else it takes the bytes of the line as the task sees them. -/
def loadSeen (t : Task) (m c : Nat) (k : Core) (off n : Nat) : M (List Byte) := do
  let k := ((← get).core? c).getD k
  if (k.sbLine off).poison then throw (.flt { cause := .dataErr, mem := m })
  return (spadView t c k off n).map (·.1)

theorem loadSeen_clean {s : State} {k : Core} {off : Nat} (hk : s.core? s.cur = some k) (hp : (k.sbLine off).poison = false) (t : Task)
    (m n : Nat) : loadSeen t m s.cur k off n s = .ok ((spadView t s.cur k off n).map (·.1)) s := by
  rw [loadSeen, bind_ok (get_ok s), hk]
  simp only [Option.getD_some, hp, Bool.false_eq_true, if_false]
  rfl

theorem leaves_loadSeen {γ : Type} {f : State → γ} (t : Task) (m c : Nat) (k : Core) (off n : Nat) :
    Leaves f (loadSeen t m c k off n) :=
  .bind .of_get fun _ => .ite (.bind (.of_throw _) fun _ => .of_pure _) (.of_pure _)

theorem leaves_leader_localLoad (m c : Nat) (k : Core) (off n : Nat) : Leaves State.leader (localLoad m c k off n) := by
  refine .bind .getTask fun t => .bind .of_get fun s => .bind (leaves_spadCheck ..) fun p => ?_
  cases p with
  | frame => exact .bind (.forM fun i => leaves_leader_freshen ..) fun _ => leaves_loadSeen ..
  | pers => exact leaves_loadSeen ..

/-- A load that its check allows takes the bytes that the task sees, where it knows those of its frame. -/
theorem localLoad_known {s : State} {t : Task} {k : Core} {g : BitVec 64} {m off n : Nat} (ht : s.task? = some t)
    (hk : s.core? s.cur = some k) (ha : off % n = 0) (hg : k.regionAt off = some g) (ho : localOpen g (frameSz s t) off n false)
    (hp : (k.sbLine off).poison = false) (hf : regKind g = 1 → ∀ i, i < n → (s.cur, off + i) ∈ t.frame) :
    localLoad m s.cur k off n s = .ok ((spadView t s.cur k off n).map (·.1)) s := by
  rw [localLoad, bind_ok (getTask_ok ht), bind_ok (get_ok s), bind_ok (spadCheck_open s ha hg ho)]
  by_cases hkind : regKind g = 1
  · have hfresh : (List.range n).forM (fun i => freshen s.cur (off + i)) s = .ok () s :=
      forM_same fun i hi => freshen_known ht (hf hkind i (List.mem_range.mp hi))
    rw [if_pos hkind]
    exact (bind_ok hfresh).trans (loadSeen_clean hk hp ..)
  · rw [if_neg hkind]
    exact loadSeen_clean hk hp ..

/-- A member's sideband of a line that its check allows and that is not poisoned. -/
theorem ldsbMember_clean {s : State} {t : Task} {k : Core} {g : BitVec 64} {off : Nat} (i c : Nat) (ha : off % 64 = 0)
    (hg : k.regionAt off = some g) (ho : localOpen g (frameSz s t) off 64 false) (hp : (k.sbLine off).poison = false) :
    ldsbMember s t off (i, c, k) s = .ok (sbView t c k off) s := by
  rw [ldsbMember, bind_ok (spadCheck_open s ha hg ho)]
  simp only [hp, Bool.false_eq_true, if_false]
  rfl

/-- A member whose lanes are all off accesses nothing (05 R147). -/
theorem vldlMember_off {s : State} {t : Task} {off i : Nat} {ty : Ty} {mask : SReg} {d : Reg} (c : Nat) (k : Core)
    (h : (t.byteMask ty mask i).any id = false) : vldlMember t off ty mask d (i, c, k) s = .ok () s := by
  rw [vldlMember, if_neg (Bool.eq_false_iff.mp h), pure_ok]

/-- The bytes that are on take what is loaded, and the others stay. -/
theorem vldlMember_on {s s1 : State} {t t1 : Task} {off i c : Nat} {k : Core} {ty : Ty} {mask : SReg} {d : Reg} {bs : List Byte}
    (h : (t.byteMask ty mask i).any id = true) (hl : localLoad i c k off 64 s = .ok bs s1) (h1 : s1.task? = some t1) :
    vldlMember t off ty mask d (i, c, k) s = .ok () (s1.setTask (t1.wv i d
      (bytesVec (((bs.zip (vecBytes (t.rv i d))).zip (t.byteMask ty mask i)).map fun x => if x.2 then x.1.1 else x.1.2)))) := by
  rw [vldlMember, if_pos h, bind_ok hl, modTask_ok h1]

/-! ## The instructions by their members -/

def vldlAccess (ty : Ty) (mask : SReg) (d : Reg) (m : MemOp) (_ : State) (t : Task) : Nat × Nat × Core → M Unit :=
  vldlMember t (t.jigged m) ty mask d

theorem exec_vldl_eachMember (s : State) (ty : Ty) (mask : SReg) (d : Reg) (m : MemOp) :
    exec (.vldl ty mask d m) s = runTask (eachMember (vldlAccess ty mask d m)) s := exec_vldl ..

section
variable {s s1 : State} {t t1 : Task} (ht : s.task? = some t) (h1 : s1.task? = some t1)
include ht h1

/-- A scalar load takes the leader's value (10 R267). -/
theorem runTask_loadLocal {ext : Nat → Nat → Word} {w : Width} {d : Reg} {m : MemOp} {vals : List (List Byte)}
    (hm : (membersOf s t).mapM (fun p => localLoad p.1 p.2.1 p.2.2 (t.off m) w.bytes) s = .ok vals s1) :
    runTask (loadLocal ext w d m) s = .next (s1.setTask (t1.wx d (ext w.bytes (leNat (vals.getD t.lead [])))).step) := by
  have hlead : s1.leader = s.leader := (Leaves.mapM fun p => leaves_leader_localLoad ..).ok hm
  rw [State.leader, State.leader, h1, ht, Option.map_some, Option.map_some, Option.some_inj] at hlead
  refine runTask_setTask ht h1 ?_
  rw [loadLocal, bind_ok (get_ok s), bind_ok hm, modTask_ok h1, hlead]

theorem exec_ldsb_ok {d : Reg} {m : MemOp} {vals : List (BitVec 32 × Bool)}
    (hm : (membersOf s t).mapM (ldsbMember s t (t.off m)) s = .ok vals s1) :
    exec (.ldsb d m) s = .next (s1.setTask (t1.wx d ((vals.getD t.lead (0, false)).1.setWidth 64 +
      if (vals.getD t.lead (0, false)).2 then 0x100000000 else 0)).step) := by
  refine runTask_setTask ht h1 ?_
  rw [bind_ok (get_ok s), bind_ok hm, modTask_ok h1]

end

/-- Settles O23: a task outside a clamp has one member, and its own value is the leader's. -/
theorem localLoads : Obligations.LocalLoads := by
  unfold Obligations.LocalLoads
  intro s t k g w ty mask d m ht hk off may known seen on
  have hvldl := exec_vldl_eachMember s ty mask d m
  have hlead (h : t.alone s.cur) : t.lead = 0 := h.2.1
  refine ⟨fun ⟨hal, ha, hg, ho, hp⟩ hf => ?scalar, fun ⟨hal, ha, hg, ho, hp⟩ hf hon => ?vldl, fun hal hoff => ?vldlOff,
    fun ⟨hal, ha, hg, ho, hp⟩ => ?ldsb, fun vals s1 t1 hm h1 => ⟨runTask_loadLocal ht h1 hm, runTask_loadLocal ht h1 hm⟩,
    fun s1 t1 => exec_members_forM hvldl ht, fun vals s1 t1 hm h1 => exec_ldsb_ok ht h1 hm⟩
  case scalar =>
    have hm : (membersOf s t).mapM (fun p => localLoad p.1 p.2.1 p.2.2 off w.bytes) s = .ok [seen off w.bytes] s := by
      rw [membersOf_alone hal hk]
      exact mapM_one_ok (localLoad_known ht hk ha hg ho hp hf)
    have hval : [seen off w.bytes].getD t.lead [] = seen off w.bytes := by rw [hlead hal]; rfl
    have hrun (ext : Nat → Nat → Word) := runTask_loadLocal (ext := ext) (d := d) ht ht hm
    rw [hval] at hrun
    exact ⟨writesX_of_next ht (hrun sextBytes), writesX_of_next ht (hrun fun _ v => BitVec.ofNat 64 v)⟩
  case vldl => exact becomes_member_alone hvldl ht hk hal (vldlMember_on hon (localLoad_known ht hk ha hg ho hp hf) ht)
  case vldlOff => exact becomes_member_alone hvldl ht hk hal (by rw [State.setTask_same ht]; exact vldlMember_off s.cur k hoff)
  case ldsb =>
    have hm : (membersOf s t).mapM (ldsbMember s t off) s = .ok [sbView t s.cur k off] s := by
      rw [membersOf_alone hal hk]
      exact mapM_one_ok (ldsbMember_clean 0 s.cur ha hg ho hp)
    have hrun := exec_ldsb_ok (d := d) ht ht hm
    rw [hlead hal] at hrun
    exact writesX_of_next ht hrun

end Sys2Proof.Machine
end

section
/-! PROOF. The spill stack: its slots, what SPILL and FILL move, and that a FILL brings back what a SPILL left (07 R209). -/

namespace Sys2Proof.Machine

/-! ## Slots -/

section
variable {k : Core} {m sptr p n : Nat} (s : State)

theorem spillSlot_misaligned (ha : p % n ≠ 0) : spillSlot k m sptr p n s =
    .error (.flt { cause := .addrAlign, detail := BitVec.ofNat 32 0, mem := m }) s := by
  rw [spillSlot, if_pos (bne_iff_ne.mpr ha)]
  rfl

theorem spillSlot_carve (ha : p % n = 0) (hc : p + n ≤ k.spillRegion.2) :
    spillSlot k m sptr p n s = .ok (.carve (k.spillRegion.1 + p)) s := by
  rw [spillSlot, if_neg (by simp [ha])]
  dsimp only
  rw [if_pos hc]
  rfl

theorem spillSlot_full (ha : p % n = 0) (hf : k.spillRegion.2 + k.ovfsize < p + n) : spillSlot k m sptr p n s =
    .error (.flt { cause := .spillFull, detail := BitVec.ofNat 32 sptr, mem := m }) s := by
  rw [spillSlot, if_neg (by simp [ha])]
  dsimp only
  rw [if_neg (by omega), if_pos hf]
  rfl

theorem spillSlot_over (ha : p % n = 0) (hc : k.spillRegion.2 < p + n) (hf : p + n ≤ k.spillRegion.2 + k.ovfsize) :
    spillSlot k m sptr p n s = .ok (.over ((k.ovfb + BitVec.ofNat 64 (p - k.spillRegion.2)).setWidth 56)) s := by
  rw [spillSlot, if_neg (by simp [ha])]
  dsimp only
  rw [if_neg (by omega), if_neg (by omega)]
  rfl

end

theorem slotWrite_carve {s : State} {c : Nat} {k : Core} (hk : s.core? c = some k) (m : Nat) (priv : Bool) (off : Nat) (bs : List Byte) :
    slotWrite c k m priv (.carve off) bs s = .ok () (s.setCore c (k.spWrite off (bs.map some))) := by
  rw [slotWrite, modify_ok, State.onCore_of_core hk]

theorem slotRead_carve {k : Core} {off : Nat} (hp : (k.sbLine off).poison = false) (m : Nat) (priv : Bool) (n : Nat) (s : State) :
    slotRead k m priv (.carve off) n s = .ok (mread k.spad off n) s := by
  rw [slotRead]
  simp only [hp, Bool.false_eq_true, if_false]
  rfl

/-! ## SPILL, FILL and their vector forms -/

section
variable {s s1 : State} {t t1 : Task} {k : Core} {d : Reg} {sl : Slot} {bs : List Byte} (ht : s.task? = some t)
include ht

theorem traps_fill_empty (h : t.sptr < 8) : traps (.fill d) s { cause := .spillEmpty, detail := BitVec.ofNat 32 t.sptr } :=
  traps_of_runTask (exec_fill ..) ht (bind_error (need_error _ _ _ (by simpa using h)))

theorem traps_fillv_empty (h : t.sptr < 64) : traps (.fillv d) s { cause := .spillEmpty, detail := BitVec.ofNat 32 t.sptr } :=
  traps_of_runTask (exec_fillv ..) ht (bind_error (need_error _ _ _ (by simpa using h)))

variable (h1 : s1.task? = some t1)
include h1

theorem exec_spill_ok (hk : s.core? (leaderCore s t) = some k) (hsl : spillSlot k t.lead t.sptr t.sptr 8 s = .ok sl s)
    (hw : slotWrite (leaderCore s t) k t.lead t.priv sl (wordBytes64 (t.rx d)) s = .ok () s1) :
    exec (.spill d) s = .next (s1.setTask { t1 with sptr := t1.sptr + 8, pc := t1.npc }) := by
  rw [exec_spill]
  refine runTask_setTask (u := { t1 with sptr := t1.sptr + 8 }) ht h1 ?_
  rw [bind_ok (get_ok s)]
  simp only [hk]
  rw [bind_ok hsl, bind_ok hw, modTask_ok h1]

theorem exec_fill_ok (hk : s.core? (leaderCore s t) = some k) (hd : 8 ≤ t.sptr)
    (hsl : spillSlot k t.lead t.sptr (t.sptr - 8) 8 s = .ok sl s) (hr : slotRead k t.lead t.priv sl 8 s = .ok bs s1) :
    exec (.fill d) s = .next (s1.setTask { t1.wx d (leWord64 bs) with sptr := t1.sptr - 8, pc := t1.npc }) := by
  rw [exec_fill]
  refine (runTask_setTask (u := { t1.wx d (leWord64 bs) with sptr := t1.sptr - 8 }) ht h1 ?_).trans (by simp only [Task.step, Task.wx_npc])
  rw [bind_ok (need_ok _ _ _ (decide_eq_true hd)), bind_ok (get_ok s)]
  simp only [hk]
  rw [bind_ok hsl, bind_ok hr, modTask_ok h1]

theorem exec_spillv_ok (hm : (membersOf s t).forM (spillvMember t d) s = .ok () s1) :
    exec (.spillv d) s = .next (s1.setTask { t1 with sptr := t1.sptr + 64, pc := t1.npc }) := by
  rw [exec_spillv]
  refine runTask_setTask (u := { t1 with sptr := t1.sptr + 64 }) ht h1 ?_
  rw [bind_ok (get_ok s), bind_ok hm, modTask_ok h1]

theorem exec_fillv_ok (hd : 64 ≤ t.sptr) (hm : (membersOf s t).forM (fillvMember t d) s = .ok () s1) :
    exec (.fillv d) s = .next (s1.setTask { t1 with sptr := t1.sptr - 64, pc := t1.npc }) := by
  rw [exec_fillv]
  refine runTask_setTask (u := { t1 with sptr := t1.sptr - 64 }) ht h1 ?_
  rw [bind_ok (need_ok _ _ _ (decide_eq_true hd)), bind_ok (get_ok s), bind_ok hm, modTask_ok h1]

end

theorem forM_one {α : Type} (f : α → M Unit) (a : α) : [a].forM f = f a := by
  funext s
  cases h : f a s with
  | ok u s' => exact forM_one_ok h
  | error e s' => exact bind_error h

theorem spillvMember_slot {s : State} {t : Task} {k : Core} {i : Nat} {sl : Slot} (c : Nat) (d : Reg)
    (hsl : spillSlot k i t.sptr t.sptr 64 s = .ok sl s) :
    spillvMember t d (i, c, k) s = slotWrite c k i t.priv sl (vecBytes (t.rv i d)) s := by
  rw [spillvMember, bind_ok hsl]

theorem fillvMember_slot {s s1 : State} {t t1 : Task} {k : Core} {i : Nat} {sl : Slot} {bs : List Byte} (c : Nat) (d : Reg)
    (h1 : s1.task? = some t1) (hsl : spillSlot k i t.sptr (t.sptr - 64) 64 s = .ok sl s)
    (hr : slotRead k i t.priv sl 64 s = .ok bs s1) :
    fillvMember t d (i, c, k) s = .ok () (s1.setTask (t1.wv i d (bytesVec bs))) := by
  rw [fillvMember, bind_ok hsl, bind_ok hr, modTask_ok h1]

/-- Settles O25: the slots by their cases, and each operation by its slot. -/
theorem spillAndFill : Obligations.SpillAndFill := by
  unfold Obligations.SpillAndFill
  refine ⟨fun s t k d m sptr p n => ?slots, fun s s1 t t1 k d sl bs ht h1 => ?moves⟩
  case slots =>
    exact ⟨spillSlot_misaligned s, spillSlot_carve s, spillSlot_full s, spillSlot_over s, traps_fill_empty, traps_fillv_empty⟩
  case moves =>
    refine ⟨exec_spill_ok ht h1, exec_fill_ok ht h1, exec_spillv_ok ht h1, exec_fillv_ok ht h1, fun hal hk hsl => ?spillv,
      fun hal hk hsl hr => ?fillv⟩
    case spillv => rw [membersOf_alone hal hk, forM_one, spillvMember_slot s.cur d hsl]
    case fillv => rw [membersOf_alone hal hk, forM_one, fillvMember_slot s.cur d h1 hsl hr]

/-! ## A FILL after a SPILL -/

theorem leaderCore_alone {s : State} {t : Task} (ha : t.alone s.cur) : leaderCore s t = s.cur := by
  obtain ⟨hm, hl, -⟩ := ha
  rw [leaderCore, hm, hl]
  rfl

/-- The core after a word is spilled to its carve-out: no mark changes, for a word is less than a line. -/
def Core.spilled (k : Core) (p : Nat) (x : Word) : Core :=
  { k with spad := mwriteMask k.spad (k.spillRegion.1 + p) ((wordBytes64 x).map some) }

theorem Core.spWrite_eq_spilled (k : Core) (p : Nat) (x : Word) :
    k.spWrite (k.spillRegion.1 + p) ((wordBytes64 x).map some) = k.spilled p x :=
  k.spWrite_of_length_ne _ (by simp [wordBytes64])

section
variable {s : State} {t : Task} {k : Core} (ht : s.task? = some t) (hk : s.core? s.cur = some k) (hal : t.alone s.cur)
include ht hk hal

theorem exec_spill_carve (d : Reg) (ha : t.sptr % 8 = 0) (hc : t.sptr + 8 ≤ k.spillRegion.2) : exec (.spill d) s =
    .next ((s.setCore s.cur (k.spilled t.sptr (t.rx d))).setTask { t with sptr := t.sptr + 8, pc := t.npc }) := by
  have hlead := leaderCore_alone hal
  refine exec_spill_ok ht (State.task?_setCore hk ht rfl) (hlead ▸ hk) (spillSlot_carve s ha hc) ?_
  rw [hlead, slotWrite_carve hk, Core.spWrite_eq_spilled]

theorem exec_fill_carve (e : Reg) (hd : 8 ≤ t.sptr) (ha : (t.sptr - 8) % 8 = 0) (hc : t.sptr - 8 + 8 ≤ k.spillRegion.2)
    (hp : (k.sbLine (k.spillRegion.1 + (t.sptr - 8))).poison = false) : exec (.fill e) s =
    .next (s.setTask { t.wx e (leWord64 (mread k.spad (k.spillRegion.1 + (t.sptr - 8)) 8)) with sptr := t.sptr - 8, pc := t.npc }) :=
  exec_fill_ok ht ht (leaderCore_alone hal ▸ hk) hd (spillSlot_carve s ha hc) (slotRead_carve hp ..)

end

/-- Settles O26: the FILL reads the slot that the SPILL wrote, of a core that is otherwise the same. -/
theorem fillReturnsTheSpill : Obligations.FillReturnsTheSpill := by
  unfold Obligations.FillReturnsTheSpill
  intro s t k d e ht hk hal hwf ha hc hp
  let t1 : Task := { t with sptr := t.sptr + 8, pc := t.npc }
  let k1 : Core := { k.spilled t.sptr (t.rx d) with task := some t1 }
  let s1 : State := (s.setCore s.cur (k.spilled t.sptr (t.rx d))).setTask t1
  have hspad : k1.spad = (k.spWrite (k.spillRegion.1 + t.sptr) ((wordBytes64 (t.rx d)).map some)).spad := by
    rw [Core.spWrite_eq_spilled]
  have ht1 : s1.task? = some t1 := State.task?_setTask (State.task?_setCore (k' := k.spilled t.sptr (t.rx d)) hk ht rfl) t1
  have hcur : s1.cur = s.cur := by rw [State.setTask_cur, State.setCore_cur]
  have hk1 : s1.core? s.cur = some k1 := by
    rw [State.core?_setTask, State.setCore_cur, if_pos rfl, State.core?_setCore, if_pos rfl]
    rfl
  have hsub : t1.sptr - 8 = t.sptr := Nat.add_sub_cancel ..
  have hfill := exec_fill_carve ht1 (hcur ▸ hk1) (hcur ▸ hal) e (Nat.le_add_left ..) (hsub ▸ ha) (hsub ▸ hc) (hsub ▸ hp)
  rw [hsub] at hfill
  have hback : leWord64 (mread k1.spad (k1.spillRegion.1 + t.sptr) 8) = t.rx d := by
    have hregion : k1.spillRegion = k.spillRegion := rfl
    rw [hspad, hregion, mread_spWrite_wordBytes64 hwf, leWord64_wordBytes64]
  refine ⟨s1, _, k1, t1, _, exec_spill_carve ht hk hal d ha hc, hk1, ht1, rfl, State.setTask_mem .., fun a hout => ?frame, hfill,
    State.task?_setTask ht1 _, rfl, fun r => ?regs⟩
  case frame => rw [hspad, wordBytes64, mget_spWrite_natBytes hwf, if_neg (by omega)]
  case regs =>
    rw [hback]
    exact Task.rx_wx t1 e r (t.rx d)

end Sys2Proof.Machine
end

section
/-! PROOF. A handle in a poisoned line of a culvert's ring is not used (07 R216; 02 R76), which the statement of the queue registers does
not say. -/

namespace Sys2Proof.Machine

section
variable {s : State} {t : Task} {k : Core} {a : SReg} {n : Nat} (d : Reg) (ht : s.task? = some t) (hk : s.core? s.cur = some k)
  (hq : qbind k t a = .culv n) (hf : (k.culvert n).filled ≠ 0)
  (hp : (k.sbLine (k.ringOff n (k.culvert n).head)).poison = true)
include hk hq hf hp

/-- The line of the head word of a culvert's ring is poisoned: neither QPOP nor QPEEK takes the word. -/
theorem queueHead_poisoned (pop : Bool) : queueHead pop d a t s = .error (.flt { cause := .dataErr }) s := by
  rw [queueHead, bind_ok (getCore_ok hk), hq]
  simp only [hf, hp, if_false, if_true]
  rfl

include ht

theorem traps_qpeek_poisoned : traps (.qpeek d a) s { cause := .dataErr } :=
  traps_of_runTask (exec_qpeek ..) ht (queueHead_poisoned d hk hq hf hp false)

end

/-! ## A culvert of one word in a poisoned line -/

/-- A core whose handler entry binds q1 to culvert 0 (QBIND 16), which holds one word in line 0 of the scratchpad; the line is poisoned. -/
def poisonedRing : Core := { placedCore 0 1 with
  chans := [(0, { ent := (1 : BitVec 256) + (16 <<< 128), box := [placedMsg 1] })]
  culverts := [(0, { depth := 1, filled := 1 })]
  sbs := [(0, { poison := true })] }

/-- The machine that runs the placed task on that core. -/
def poisonedQueue : State := { State.reset with insts := [{ id := 1 }], cores := [(0, poisonedRing)], instNext := 2, coreNext := 1 }

theorem poisonedQueue_task : poisonedQueue.task? = some (placedTask 0 1) := rfl

theorem poisonedQueue_core : poisonedQueue.core? poisonedQueue.cur = some poisonedRing := rfl

theorem qbind_poisonedRing : qbind poisonedRing (placedTask 0 1) 1 = .culv 0 := by decide +kernel

theorem filled_poisonedRing : (poisonedRing.culvert 0).filled ≠ 0 := by decide +kernel

theorem poison_poisonedRing : (poisonedRing.sbLine (poisonedRing.ringOff 0 (poisonedRing.culvert 0).head)).poison = true := by
  decide +kernel

/-- The trap of the poisoned line ends the task (21 R406). -/
theorem task?_poisonedQueue_trapped :
    (poisonedQueue.stopped poisonedQueue poisonedQueue.cur (.flt { cause := .dataErr })).task? = none := by decide +kernel

/-- Refutes O27: in a machine whose culvert 0 holds one word, in a poisoned line of its ring, QPEEK of the register that is bound to it
traps with DATA_ERR and leaves no task, where the statement has it write the word to x0. -/
theorem not_queueRegisters : ¬ Obligations.QueueRegisters := by
  unfold Obligations.QueueRegisters
  intro h
  obtain ⟨-, -, culvert, -⟩ := h poisonedQueue (placedTask 0 1) poisonedRing 0 1 0 poisonedQueue_task poisonedQueue_core
  obtain ⟨-, peeked, -⟩ := culvert 0 qbind_poisonedRing
  obtain ⟨⟨t', ⟨s', hexec, ht', -⟩, -⟩, -⟩ := peeked filled_poisonedRing
  have htrap := traps_qpeek_poisoned 0 poisonedQueue_task poisonedQueue_core qbind_poisonedRing filled_poisonedRing poison_poisonedRing
  rw [traps, hexec, Host.Outcome.next.injEq] at htrap
  have hgone := task?_poisonedQueue_trapped
  rw [← htrap, ht'] at hgone
  cases hgone

end Sys2Proof.Machine
end

section
/-! PROOF. Scalar arithmetic and immediate forms (08 R223, R224, R228): each instruction by the shape of its operation. -/

namespace Sys2Proof.Machine

/-! ## Instructions that write one register -/

section
variable {i : Instr} {s : State} {t : Task} {d : Reg} {v : Word} (h : s.task? = some t)
include h

theorem writesX_of_bin {f : Word → Word → Word} {a b : Reg} (he : exec i s = bin f d a b s)
    (hv : f (t.rx a) (t.rx b) = v) : writesX i s t d v :=
  writesX_of_runRegs he h (congrArg (t.wx d) hv)

theorem writesX_of_tern {f : Word → Word → Word → Word} {a b c : Reg} (he : exec i s = tern f d a b c s)
    (hv : f (t.rx a) (t.rx b) (t.rx c) = v) : writesX i s t d v :=
  writesX_of_runRegs he h (congrArg (t.wx d) hv)

theorem writesX_of_unary {f : Word → Word} {a : Reg} (he : exec i s = unary f d a s) (hv : f (t.rx a) = v) :
    writesX i s t d v :=
  writesX_of_runRegs he h (congrArg (t.wx d) hv)

end

/-! ## Sums, logic, order and select (08 Table 8.1) -/

theorem bit_decide (p : Prop) [Decidable p] : bit (decide p) = if p then 1 else 0 := by
  simp only [bit, decide_eq_true_eq]

theorem bit_beq (x y : Word) : bit (x == y) = if x = y then 1 else 0 := by simp only [bit, beq_iff_eq]

theorem bit_bne (x y : Word) : bit (x != y) = if x ≠ y then 1 else 0 := by simp only [bit, bne_iff_ne]

/-- Settles O1, each instruction by its shape and its operation. -/
theorem scalarArithmetic : Obligations.ScalarArithmetic := by
  unfold Obligations.ScalarArithmetic
  intro s t d a b c h
  exact ⟨writesX_of_bin h (exec_add ..) rfl,
    writesX_of_bin h (exec_addw ..) rfl,
    writesX_of_bin h (exec_sub ..) rfl,
    writesX_of_bin h (exec_subw ..) rfl,
    writesX_of_bin h (exec_and ..) rfl,
    writesX_of_bin h (exec_or ..) rfl,
    writesX_of_bin h (exec_xor ..) rfl,
    writesX_of_bin h (exec_andn ..) rfl,
    writesX_of_bin h (exec_orn ..) rfl,
    writesX_of_bin h (exec_xnor ..) rfl,
    writesX_of_bin h (exec_min ..) rfl,
    writesX_of_bin h (exec_max ..) rfl,
    writesX_of_bin h (exec_minn ..) rfl,
    writesX_of_bin h (exec_maxn ..) rfl,
    writesX_of_bin h (exec_slt ..) (bit_decide _),
    writesX_of_bin h (exec_sltn ..) (bit_decide _),
    writesX_of_bin h (exec_seq ..) (bit_beq ..),
    writesX_of_bin h (exec_sne ..) (bit_bne ..),
    writesX_of_tern h (exec_sel ..) (ite_not ..).symm,
    writesX_of_bin h (exec_addco ..) (bit_decide _)⟩

/-! ## Products, quotients and remainders (08 Tables 8.2 and 8.3) -/

theorem ofInt_toInt_mul_toInt {n : Nat} (x y : BitVec n) : BitVec.ofInt n (x.toInt * y.toInt) = x * y := by
  rw [BitVec.ofInt_mul, BitVec.ofInt_toInt, BitVec.ofInt_toInt]

/-- The upper half of an unsigned product (08 Table 8.2, MULHN). -/
theorem hiProd_toNat (x y : Word) : hiProd x.toNat y.toNat = BitVec.ofNat 64 (x.toNat * y.toNat / 2 ^ 64) := by
  rw [hiProd, ← BitVec.ofInt_natCast]
  norm_cast

/-- Settles O2, each instruction by its shape; the quotients and remainders by what `divS` and `divN` compute. -/
theorem scalarMultiplyDivide : Obligations.ScalarMultiplyDivide := by
  unfold Obligations.ScalarMultiplyDivide
  intro s t d a b c h
  exact ⟨writesX_of_bin h (exec_mul ..) (ofInt_toInt_mul_toInt ..).symm,
    writesX_of_bin h (exec_mulw ..) (congrArg (BitVec.signExtend 64) (ofInt_toInt_mul_toInt ..).symm),
    writesX_of_bin h (exec_mulh ..) rfl,
    writesX_of_bin h (exec_mulhn ..) (hiProd_toNat ..),
    writesX_of_bin h (exec_mulhsn ..) rfl,
    writesX_of_bin h (exec_div ..) (divS_fst ..),
    writesX_of_bin h (exec_divw ..) (congrArg (BitVec.signExtend 64) (divS_fst ..)),
    writesX_of_bin h (exec_divn ..) (divN_fst ..),
    writesX_of_bin h (exec_divnw ..) (congrArg (BitVec.signExtend 64) (divN_fst ..)),
    writesX_of_bin h (exec_rem ..) (divS_snd ..),
    writesX_of_bin h (exec_remw ..) (congrArg (BitVec.signExtend 64) (divS_snd ..)),
    writesX_of_bin h (exec_remn ..) (divN_snd ..),
    writesX_of_bin h (exec_remnw ..) (congrArg (BitVec.signExtend 64) (divN_snd ..)),
    writesX_of_tern h (exec_madd ..) rfl⟩

/-! ## Immediate forms (08 Table 8.6) -/

/-- A sum of addresses, as a word (08 Table 8.6, PCADD). -/
theorem setWidth_add_setWidth (p : VAddr) (imm : Word) :
    (p + imm.setWidth 56).setWidth 64 = BitVec.ofNat 64 ((p.toNat + imm.toNat) % 2 ^ 56) := by
  apply BitVec.eq_of_toNat_eq
  simp only [BitVec.toNat_setWidth, BitVec.toNat_add, BitVec.toNat_ofNat]
  omega

/-- Settles O4, each instruction by its shape. -/
theorem immediateForms : Obligations.ImmediateForms := by
  unfold Obligations.ImmediateForms
  intro s t d a imm h
  exact ⟨writesX_of_unary h (exec_addi ..) rfl,
    writesX_of_unary h (exec_andi ..) rfl,
    writesX_of_unary h (exec_ori ..) rfl,
    writesX_of_unary h (exec_xori ..) rfl,
    writesX_of_runRegs (exec_li ..) h rfl,
    writesX_of_runRegs (exec_pcadd ..) h (congrArg (t.wx d) (setWidth_add_setWidth ..))⟩

end Sys2Proof.Machine
end

section
/-! PROOF. Shifts, counts, reversals and bit fields, bit by bit (08 R225 to R227). -/

namespace Sys2Proof.Machine

/-! ## Shifts and bits (08 Table 8.4) -/

theorem testBit_fld {n : Nat} (w : BitVec n) (hi lo i : Nat) :
    (fld w hi lo).testBit i = (decide (i < hi + 1 - lo) && w.getLsbD (lo + i)) := by
  rw [fld, BitVec.testBit_toNat, BitVec.getLsbD_extractLsb']

/-- A field put into a word, bit by bit. -/
theorem getLsbD_setFld {n : Nat} (w : BitVec n) (hi lo v i : Nat) (hi' : i < n) :
    (setFld w hi lo v).getLsbD i = if lo ≤ i ∧ i ≤ hi then v.testBit (i - lo) else w.getLsbD i := by
  simp only [setFld, BitVec.getLsbD_or, BitVec.getLsbD_and, BitVec.getLsbD_not, BitVec.getLsbD_shiftLeft,
    BitVec.getLsbD_setWidth, BitVec.getLsbD_allOnes, BitVec.getLsbD_ofNat]
  by_cases hlo : lo ≤ i
  · by_cases hhi : i ≤ hi
    · simp [hlo, hhi, hi', show i - lo < hi + 1 - lo by omega, show i - lo < n by omega, show ¬ i < lo by omega]
    · simp [hlo, hhi, hi', show ¬ i - lo < hi + 1 - lo by omega]
  · simp [hlo, hi', show i < lo by omega]

theorem popc64_eq_sum (x : Word) : popc64 x = ((List.range 64).map fun i => (x.getLsbD i).toNat).sum := by
  rw [popc64]
  generalize List.range 64 = l
  induction l with
  | nil => rfl
  | cons i l ih => cases hx : x.getLsbD i <;> simp [hx, ih, Nat.add_comm]

theorem getLsbD_brev64 (x : Word) {i : Nat} (hi : i < 64) : (brev64 x).getLsbD (63 - i) = x.getLsbD i := by
  rw [brev64, BitVec.getLsbD_reverse, BitVec.getMsbD_eq_getLsbD]
  simp only [show 63 - i < 64 by omega, show 64 - 1 - (63 - i) = i by omega, decide_true, Bool.true_and]

/-! ## Bytes of a word (00 R6) -/

/-- The bits of a number that bytes spell are those of its bytes. -/
theorem testBit_leNat (bs : List Byte) (j k : Nat) (hj : j < bs.length) (hk : k < 8) :
    (leNat bs).testBit (8 * j + k) = bs[j].getLsbD k := by
  induction bs generalizing j with
  | nil => cases hj
  | cons b bs ih =>
    rw [leNat, Nat.add_comm, show 256 = 2 ^ 8 from rfl, Nat.testBit_two_pow_mul_add _ b.isLt]
    cases j with
    | zero => rw [if_pos (by omega), Nat.mul_zero, Nat.zero_add, BitVec.testBit_toNat, List.getElem_cons_zero]
    | succ j =>
      rw [if_neg (by omega), show 8 * (j + 1) + k - 8 = 8 * j + k by omega, List.getElem_cons_succ]
      exact ih j (Nat.lt_of_succ_lt_succ hj)

theorem extractLsb'_leWord64 (bs : List Byte) (j : Nat) (hj : j < bs.length) (hj8 : j < 8) :
    (leWord64 bs).extractLsb' (8 * j) 8 = bs[j] := by
  ext k hk
  rw [BitVec.getElem_extractLsb', leWord64, BitVec.getLsbD_ofNat, testBit_leNat bs j k hj hk, BitVec.getLsbD_eq_getElem hk,
    decide_eq_true (by omega : 8 * j + k < 64), Bool.true_and]

theorem length_wordBytes64 (x : Word) : (wordBytes64 x).length = 8 := length_natBytes ..

theorem getElem_wordBytes64 (x : Word) (j : Nat) (hj : j < (wordBytes64 x).length) :
    (wordBytes64 x)[j] = x.extractLsb' (8 * j) 8 := by
  rw [← extractLsb'_leWord64 _ j hj (length_wordBytes64 x ▸ hj), leWord64_wordBytes64]

theorem extractLsb'_bswap64 (x : Word) {j : Nat} (hj : j < 8) :
    (bswap64 x).extractLsb' (8 * (7 - j)) 8 = x.extractLsb' (8 * j) 8 := by
  have hlen := length_wordBytes64 x
  rw [bswap64, extractLsb'_leWord64 _ (7 - j) (by rw [List.length_reverse]; omega) (by omega), List.getElem_reverse,
    getElem_wordBytes64, hlen, show 8 - 1 - (7 - j) = j by omega]

/-! ## Bit fields (08 R226, R227) -/

/-- BFXN: the bits from `o` to the top of the field, and zeros. -/
theorem getLsbD_bitExtract_false (x : Word) (o w : Nat) {i : Nat} (hi : i < 64) : (bitExtract false x o w).getLsbD i =
    (decide (w ≠ 0 ∧ o < 64 ∧ o + i ≤ min (o + w) 64 - 1) && x.getLsbD (o + i)) := by
  rw [bitExtract]
  split
  · rw [decide_eq_false (by omega), Bool.false_and]
    exact BitVec.getLsbD_zero
  · have hin : i < min (o + w) 64 - o ↔ w ≠ 0 ∧ o < 64 ∧ o + i ≤ min (o + w) 64 - 1 := by omega
    simp only [Bool.false_eq_true, if_false, BitVec.getLsbD_setWidth, BitVec.getLsbD_extractLsb', hin, hi, decide_true, Bool.true_and]

/-- BFX: the bits from `o` to the top of the field, and that top bit from there on. -/
theorem getLsbD_bitExtract_true (x : Word) (o w : Nat) {i : Nat} (hi : i < 64) : (bitExtract true x o w).getLsbD i =
    (decide (w ≠ 0 ∧ o < 64) && x.getLsbD (min (o + i) (min (o + w) 64 - 1))) := by
  rw [bitExtract]
  split
  · rw [decide_eq_false (by omega), Bool.false_and]
    exact BitVec.getLsbD_zero
  · have hw : w ≠ 0 ∧ o < 64 := by omega
    rw [decide_eq_true hw, Bool.true_and, if_pos rfl, BitVec.getLsbD_signExtend, decide_eq_true hi, Bool.true_and,
      BitVec.msb_eq_getLsbD_last]
    simp only [BitVec.getLsbD_extractLsb']
    by_cases hin : i < min (o + w) 64 - o
    · have hle : o + i ≤ min (o + w) 64 - 1 := by omega
      rw [if_pos hin, decide_eq_true hin, Bool.true_and, Nat.min_eq_left hle]
    · have hlt : min (o + w) 64 - o - 1 < min (o + w) 64 - o := by omega
      have hle : min (o + w) 64 - 1 ≤ o + i := by omega
      rw [if_neg hin, decide_eq_true hlt, Bool.true_and, Nat.min_eq_right hle]
      congr 1
      omega

/-- BFI: the low bits of the source from `o` to the top of the field, and the old bits elsewhere. -/
theorem getLsbD_bitInsert (old x : Word) (o w : Nat) {i : Nat} (hi : i < 64) : (bitInsert old x o w).getLsbD i =
    if w ≠ 0 ∧ o ≤ i ∧ i ≤ min (o + w) 64 - 1 then x.getLsbD (i - o) else old.getLsbD i := by
  rw [bitInsert]
  split
  · rw [if_neg (by omega)]
  · have hw : w ≠ 0 := by omega
    rw [getLsbD_setFld _ _ _ _ _ hi, testBit_fld, Nat.zero_add]
    by_cases hin : o ≤ i ∧ i ≤ min (o + w) 64 - 1
    · rw [if_pos hin, if_pos ⟨hw, hin⟩, decide_eq_true (by omega), Bool.true_and]
    · rw [if_neg hin, if_neg fun h => hin h.2]

/-- Settles O3: each instruction by its shape; counts, reversals and bit fields by the laws of their operations above. -/
theorem scalarShiftsAndBits : Obligations.ScalarShiftsAndBits := by
  unfold Obligations.ScalarShiftsAndBits
  intro s t d a b c imm io iw h x u n m o w top
  obtain ⟨lead, hlead, hlead64, hleadZero, hleadOne⟩ := find_range (fun i => x.getLsbD (63 - i)) 64
  obtain ⟨trail, htrail, htrail64, htrailZero, htrailOne⟩ := find_range (fun i => x.getLsbD i) 64
  exact ⟨writesX_of_bin h (exec_sll ..) rfl,
    writesX_of_bin h (exec_sllw ..) rfl,
    writesX_of_bin h (exec_srl ..) rfl,
    writesX_of_bin h (exec_srlw ..) rfl,
    writesX_of_bin h (exec_sra ..) rfl,
    writesX_of_bin h (exec_sraw ..) rfl,
    writesX_of_bin h (exec_rol ..) rfl,
    writesX_of_bin h (exec_ror ..) rfl,
    ⟨lead, writesX_of_unary h (exec_clz ..) (congrArg _ hlead), hlead64, hleadZero, hleadOne⟩,
    ⟨trail, writesX_of_unary h (exec_ctz ..) (congrArg _ htrail), htrail64, htrailZero, htrailOne⟩,
    writesX_of_unary h (exec_popc ..) (congrArg _ (popc64_eq_sum x)),
    ⟨_, writesX_of_unary h (exec_brev ..) rfl, fun _ => getLsbD_brev64 x⟩,
    ⟨_, writesX_of_unary h (exec_bswap ..) rfl, fun _ => extractLsb'_bswap64 x⟩,
    ⟨_, writesX_of_tern h (exec_bfxn ..) rfl, fun _ => getLsbD_bitExtract_false x o w⟩,
    ⟨_, writesX_of_tern h (exec_bfx ..) rfl, fun _ => getLsbD_bitExtract_true x o w⟩,
    ⟨_, writesX_of_runRegs (exec_bfi ..) h rfl, fun _ => getLsbD_bitInsert (t.rx d) x o w⟩⟩

end Sys2Proof.Machine
end

section
/-! PROOF. Branches, calls, jumps and loops: where they go and what they write (08 R229 to R232, 01 R19). -/

namespace Sys2Proof.Machine

/-! ## Branches, calls, jumps and loops (08 R229 to R232) -/

/-- The target of an offset is that of 01 R19. -/
theorem target_eq_ofInt {n : Nat} (pc : VAddr) (off : BitVec n) : target pc off = BitVec.ofInt 56 (pc.toNat + 4 * off.toInt) := by
  have hpc : BitVec.ofInt 56 pc.toNat = pc := by rw [BitVec.ofInt_natCast, BitVec.ofNat_toNat, BitVec.setWidth_eq]
  rw [BitVec.ofInt_add, BitVec.ofInt_mul, hpc, target, BitVec.shiftLeft_eq_mul_twoPow, BitVec.mul_comm]
  rfl

/-- The return address of CALL and JALR (08 R230, R231). -/
theorem setWidth_add_four (pc : VAddr) : (pc + 4).setWidth 64 = BitVec.ofNat 64 ((pc.toNat + 4) % 2 ^ 56) :=
  setWidth_add_setWidth pc 4

section
variable {i : Instr} {s : State} {t : Task} (h : s.task? = some t)
include h

/-- What a compare and branch leaves: the program counter alone, at the target or the next address. -/
theorem becomes_of_branch {c : Word → Word → Bool} {a b : Reg} {off : BitVec 46} {p : Prop} [Decidable p]
    (he : exec i s = branch c a b off s) (hc : c (t.rx a) (t.rx b) = true ↔ p) :
    ∃ t', becomes i s t' ∧ t' = { t with npc := t'.npc, pc := t'.pc } ∧
      t'.pc = if p then BitVec.ofInt 56 (t.pc.toNat + 4 * off.toInt) else t.npc := by
  refine ⟨_, becomes_of_runRegs he h, ?_⟩
  by_cases hp : p
  · rw [if_pos hp, if_pos (hc.mpr hp), ← target_eq_ofInt]
    exact ⟨rfl, rfl⟩
  · rw [if_neg hp, if_neg (hp ∘ hc.mp)]
    exact ⟨rfl, rfl⟩

theorem becomes_br (off : BitVec 24) : ∃ t', becomes (.br off) s t' ∧
    t' = { t with npc := t'.npc, pc := BitVec.ofInt 56 (t.pc.toNat + 4 * off.toInt) } :=
  ⟨_, becomes_of_runRegs (exec_br ..) h, by rw [← target_eq_ofInt]; rfl⟩

theorem becomes_call (off : BitVec 24) : ∃ t', becomes (.call off) s t' ∧
    t' = { t with x := t'.x, npc := t'.npc, pc := BitVec.ofInt 56 (t.pc.toNat + 4 * off.toInt) } ∧
    ∀ r, t'.rx r = if r = 30 then BitVec.ofNat 64 ((t.pc.toNat + 4) % 2 ^ 56) else t.rx r := by
  refine ⟨_, becomes_of_runRegs (exec_call ..) h, ?_, fun r => ?_⟩
  · rw [Task.wx_eq, ← target_eq_ofInt]
    rfl
  · rw [← setWidth_add_four]
    refine (Task.rx_wx t 30 r _).trans ?_
    simp

/-- LOOP above 1 counts down and branches; at 1 or 0 it leaves 0 and goes on. -/
theorem becomes_loop (a : Reg) (off : BitVec 32) : ∃ t', becomes (.loop a off) s t' ∧
    t' = { t with x := t'.x, npc := t'.npc,
                  pc := if 1 < (t.rx a).toNat then BitVec.ofInt 56 (t.pc.toNat + 4 * off.toInt) else t.npc } ∧
    ∀ r, t'.rx r = if r = a ∧ a ≠ 31 then (if 1 < (t.rx a).toNat then t.rx a - 1 else 0) else t.rx r := by
  refine ⟨_, becomes_of_runRegs (exec_loop ..) h, ?_⟩
  by_cases hn : 1 < (t.rx a).toNat
  · simp only [if_pos hn]
    refine ⟨?_, fun r => Task.rx_wx t a r _⟩
    rw [Task.wx_eq, ← target_eq_ofInt]
    rfl
  · simp only [if_neg hn]
    refine ⟨?_, fun r => Task.rx_wx t a r _⟩
    rw [Task.wx_eq]
    rfl

theorem jumpTo_ok {v : Word} (hv : v.extractLsb' 0 2 = 0) : jumpTo v s = .ok () (s.setTask { t with npc := v.setWidth 56 }) := by
  rw [jumpTo, bind_ok (need_ok _ _ s (beq_iff_eq.mpr hv)), modTask_ok h]

omit h in
theorem jumpTo_error {v : Word} (hv : v.extractLsb' 0 2 ≠ 0) :
    jumpTo v s = .error (.flt { cause := .pcAlign, detail := v.setWidth 32 }) s :=
  bind_error (need_error _ _ s (beq_eq_false_iff_ne.mpr hv))

theorem becomes_jr (a : Reg) (hv : (t.rx a).extractLsb' 0 2 = 0) : ∃ t', becomes (.jr a) s t' ∧
    t' = { t with npc := t'.npc, pc := (t.rx a).setWidth 56 } :=
  ⟨_, becomes_of_runTask (exec_jr ..) h (jumpTo_ok h hv), rfl⟩

theorem becomes_jalr (d a : Reg) (hv : (t.rx a).extractLsb' 0 2 = 0) : ∃ t', becomes (.jalr d a) s t' ∧
    t' = { t with x := t'.x, npc := t'.npc, pc := (t.rx a).setWidth 56 } ∧
    ∀ r, t'.rx r = if r = d ∧ d ≠ 31 then BitVec.ofNat 64 ((t.pc.toNat + 4) % 2 ^ 56) else t.rx r := by
  let jumped : Task := { t with npc := (t.rx a).setWidth 56 }
  have hlink : (do jumpTo (t.rx a); modTask fun t => t.wx d ((t.pc + 4).setWidth 64)) s =
      .ok () (s.setTask (jumped.wx d ((t.pc + 4).setWidth 64))) := by
    rw [bind_ok (jumpTo_ok h hv), modTask_ok (State.task?_setTask h jumped), State.setTask_setTask h]
  refine ⟨_, becomes_of_runTask (exec_jalr ..) h hlink, ?_, fun r => ?_⟩
  · rw [Task.wx_eq]
    rfl
  · rw [← setWidth_add_four]
    exact Task.rx_wx jumped d r _

theorem traps_jr_misaligned (a : Reg) (hv : (t.rx a).extractLsb' 0 2 ≠ 0) :
    traps (.jr a) s { cause := .pcAlign, detail := (t.rx a).setWidth 32 } :=
  traps_of_runTask (exec_jr ..) h (jumpTo_error hv)

theorem traps_jalr_misaligned (d a : Reg) (hv : (t.rx a).extractLsb' 0 2 ≠ 0) :
    traps (.jalr d a) s { cause := .pcAlign, detail := (t.rx a).setWidth 32 } :=
  traps_of_runTask (exec_jalr ..) h (bind_error (jumpTo_error hv))

end

/-- Settles O5: branches by their condition, the other transfers one by one. -/
theorem controlFlow : Obligations.ControlFlow := by
  unfold Obligations.ControlFlow
  refine ⟨fun s t a b off off24 off32 h => ?offsets, fun s t d a h => ?registers⟩
  case offsets =>
    exact ⟨becomes_of_branch h (exec_beq ..) beq_iff_eq,
      becomes_of_branch h (exec_bne ..) bne_iff_ne,
      becomes_of_branch h (exec_blt ..) decide_eq_true_iff,
      becomes_of_branch h (exec_bge ..) decide_eq_true_iff,
      becomes_of_branch h (exec_bltn ..) decide_eq_true_iff,
      becomes_of_branch h (exec_bgen ..) decide_eq_true_iff,
      becomes_br h off24, becomes_call h off24, becomes_loop h a off32⟩
  case registers =>
    exact ⟨fun aligned => ⟨becomes_jr h a aligned, becomes_jalr h d a aligned⟩,
      fun misaligned => ⟨traps_jr_misaligned h a misaligned, traps_jalr_misaligned h d a misaligned⟩⟩

end Sys2Proof.Machine
end

section
/-! PROOF. Floating arithmetic by its operation on bit patterns, and what selects or sets a sign (09 R239, R241 to R245). -/

namespace Sys2Proof.Machine

/-! ## Instructions that are one floating operation -/

section
variable {i : Instr} {s : State} {t : Task} {op : FOp} {vec sc : Bool} {ty : Ty} {d a b c : Reg} (h : s.task? = some t)
include h

/-- One that rounds counts once under the stochastic mode (03 R91). -/
theorem writesFloats_of_floatRound {f : FMod} (he : exec i s = floatRound op vec sc ty f d a b c s) :
    writesFloats i s t vec sc ty f d a b c (op (tyFmt ty)) (if t.mode f.rm = .st then 1 else 0) :=
  writesFloats_of_floatOp he h (count_floatOp ..)

/-- One that does not round counts nothing (09 R239). -/
theorem writesFloats_of_floatPlain {fzi : Bool} {mask : SReg} (he : exec i s = floatPlain op vec sc ty fzi mask d a b s) :
    writesFloats i s t vec sc ty ⟨.rn, fzi, false, mask⟩ d a b 31 (op (tyFmt ty)) 0 :=
  writesFloats_of_floatOp he h (floatOp_sn ..)

end

/-- Settles O6: each instruction is one rounding operation. -/
theorem floatArithmetic : Obligations.FloatArithmetic := by
  unfold Obligations.FloatArithmetic
  intro s t vec sc ty f d a b c h _ F n
  exact ⟨(writesFloats_of_floatRound h (exec_fadd ..) :), (writesFloats_of_floatRound h (exec_fsub ..) :),
    (writesFloats_of_floatRound h (exec_fmul ..) :), (writesFloats_of_floatRound h (exec_fdiv ..) :),
    (writesFloats_of_floatRound h (exec_fsqrt ..) :), (writesFloats_of_floatRound h (exec_fma ..) :),
    (writesFloats_of_floatRound h (exec_fms ..) :), (writesFloats_of_floatRound h (exec_fnma ..) :),
    (writesFloats_of_floatRound h (exec_fnms ..) :)⟩

/-! ## Signs (09 R245) -/

/-- The sign is clear where the pattern lies in the lower half. -/
theorem Fmt.signOf_eq_false_iff {F : Fmt} (hw : 0 < F.w) (x : ℕ) : F.signOf x = false ↔ x % 2 ^ F.w < 2 ^ (F.w - 1) := by
  obtain ⟨k, hk⟩ : ∃ k, F.w = k + 1 := ⟨F.w - 1, by omega⟩
  have hlow : x % 2 ^ k < 2 ^ k := Nat.mod_lt _ (by positivity)
  rw [Fmt.signOf, hk, Nat.add_sub_cancel, Nat.mod_pow_succ, Nat.testBit_eq_decide_div_mod_eq, decide_eq_false_iff_not]
  rcases Nat.mod_two_eq_zero_or_one (x / 2 ^ k) with hb | hb <;> rw [hb] <;> omega

theorem Fmt.signBit_signOf {F : Fmt} (hw : 0 < F.w) (x : ℕ) :
    F.signBit (F.signOf x) = if x % 2 ^ F.w < 2 ^ (F.w - 1) then 0 else 2 ^ (F.w - 1) := by
  simp only [← Fmt.signOf_eq_false_iff hw]
  cases F.signOf x <;> rfl

theorem Fmt.signBit_not_signOf {F : Fmt} (hw : 0 < F.w) (x : ℕ) :
    F.signBit (!F.signOf x) = if x % 2 ^ F.w < 2 ^ (F.w - 1) then 2 ^ (F.w - 1) else 0 := by
  simp only [← Fmt.signOf_eq_false_iff hw]
  cases F.signOf x <;> rfl

theorem tyFmt_width_pos (ty : Ty) : 0 < (tyFmt ty).w := by cases ty <;> decide

/-- Settles O7: each instruction is one operation that does not round, and a sign is the half that a pattern lies in. -/
theorem floatSelectAndSign : Obligations.FloatSelectAndSign := by
  unfold Obligations.FloatSelectAndSign
  intro s t vec sc fzi ty mask d a b h _ F f top
  have hw := tyFmt_width_pos ty
  have hneg := writesFloats_of_floatPlain h (exec_fneg s vec ty fzi mask d a)
  have hsgnj := writesFloats_of_floatPlain h (exec_fsgnj s vec sc ty fzi mask d a b)
  simp only [Fmt.withSign, Fmt.signBit_not_signOf hw] at hneg
  simp only [Fmt.withSign, Fmt.signBit_signOf hw] at hsgnj
  exact ⟨(writesFloats_of_floatPlain h (exec_fmin ..) :), (writesFloats_of_floatPlain h (exec_fmax ..) :),
    (writesFloats_of_floatPlain h (exec_fabs ..) :), hneg, hsgnj⟩

end Sys2Proof.Machine
end

section
/-! PROOF. Infinities, zeros and NaNs among the operands (03 R80, R81, R95, 09 R242, R243). -/

namespace Sys2Proof.Machine

/-! ## What a flush leaves (03 R95) -/

theorem Fmt.flush_eq_self {F : Fmt} {z : Bool} {b : ℕ} (hb : b < 2 ^ F.w) (hs : F.isSub b = false ∨ z = false) : F.flush z b = b := by
  have hfalse : (z && F.isSub b) = false := by rcases hs with hs | hs <;> simp [hs]
  simp only [Fmt.flush, Nat.mod_eq_of_lt hb, hfalse, Bool.false_eq_true, if_false]

theorem Fmt.lt_of_finite {F : Fmt} {b : ℕ} (hb : F.finite b = true) : b < 2 ^ F.w :=
  of_decide_eq_true (Bool.and_eq_true _ _ ▸ hb).1

namespace Fmt.Ieee

variable {F : Fmt}

/-- A subnormal has the exponent field 0 and a fraction. -/
theorem isSub_bits (hF : F.Ieee) (neg : Bool) {ex fr : ℕ} (hex : ex ≤ F.emask) (hfr : fr < 2 ^ F.fb) :
    F.isSub (F.signBit neg + (ex * 2 ^ F.fb + fr)) = (ex == 0 && fr != 0) := by
  obtain ⟨hexf, hfrf⟩ := hF.fields_bits neg hex hfr
  rw [Fmt.isSub, hexf, hfrf]

theorem decode_flush_inf (hF : F.Ieee) (z neg : Bool) : F.decode (F.flush z (F.signBit neg + F.infBits)) = .inf neg := by
  have hsub := hF.isSub_bits neg le_rfl (fr := 0) (by positivity)
  have hlt := hF.bits_lt neg (hF.fields_lt le_rfl (fr := 0) (by positivity))
  have hdec := hF.decode_bits_top neg (fr := 0) (by positivity)
  rw [Nat.add_zero] at hsub hlt hdec
  rw [Fmt.infBits, Fmt.flush_eq_self hlt (.inl (by simpa using hsub)), hdec, if_pos rfl]

theorem decode_flush_zero (hF : F.Ieee) (z neg : Bool) : F.decode (F.flush z (F.signBit neg)) = .fin neg 0 F.qmin := by
  have hsub := hF.isSub_bits neg (Nat.zero_le _) (fr := 0) (by positivity)
  have hlt := hF.bits_lt neg (B := 0) (by positivity)
  have hdec := hF.decode_bits neg (ex := 0) (fr := 0) (by have := hF.emask_ge; omega) (by positivity)
  simp only [Nat.zero_mul, Nat.add_zero] at hsub hlt hdec
  rw [Fmt.flush_eq_self hlt (.inl (by simpa using hsub)), hdec]
  simp

theorem decode_flush_nan (hF : F.Ieee) (z neg : Bool) {fr : ℕ} (h0 : 0 < fr) (hfr : fr < 2 ^ F.fb) :
    F.decode (F.flush z (F.signBit neg + F.infBits + fr)) = .nan neg (!fr.testBit (F.fb - 1)) (fr * 2 ^ (52 - F.fb)) := by
  have hmask : F.emask ≠ 0 := by have := hF.emask_ge; omega
  have hsub := hF.isSub_bits neg le_rfl hfr
  have hlt := hF.bits_lt neg (hF.fields_lt le_rfl hfr)
  rw [Nat.add_assoc, Fmt.infBits, Fmt.flush_eq_self hlt (.inl (by rw [hsub, beq_false_of_ne hmask, Bool.false_and])), hF.decode_bits_top neg hfr,
    if_neg h0.ne']

/-- An operand that is not flushed decodes to its sign and a magnitude. -/
theorem decode_flush_finite (hF : F.Ieee) {z : Bool} {a : ℕ} (ha : F.finite a = true) (hs : F.isSub a = false ∨ z = false) :
    ∃ m e, F.decode (F.flush z a) = .fin (F.signOf a) m e ∧ F.decode a = .fin (F.signOf a) m e := by
  obtain ⟨m, e, h⟩ := hF.decode_finite ha
  exact ⟨m, e, by rw [Fmt.flush_eq_self (Fmt.lt_of_finite ha) hs, h], h⟩

/-- The default NaN is positive and quiet (03 R81). -/
theorem dfltNaN_eq (hF : F.Ieee) : F.dfltNaN = F.infBits + 2 ^ (F.fb - 1) := by
  simp [Fmt.dfltNaN, Fmt.nanBits, Fmt.signBit, hF.fn]

end Fmt.Ieee

/-- A negative value has its sign set and a magnitude. -/
theorem Fmt.neg_of_val_neg {F : Fmt} {b m : ℕ} {neg : Bool} {e : ℤ} (h : F.decode b = .fin neg m e) (h0 : F.val b < 0) :
    neg = true ∧ 0 < m := by
  refine ⟨?_, Nat.pos_of_ne_zero (mt (Fmt.val_eq_zero_iff h).mpr h0.ne)⟩
  have hv := Fmt.val_of_decode h
  have h0 : (F.val b : ℝ) < 0 := by exact_mod_cast h0
  rw [hv] at h0
  cases neg with
  | true => rfl
  | false =>
    have : (0 : ℝ) ≤ m * 2 ^ e := by positivity
    simp only [signFactor_false, one_mul] at h0
    linarith

/-! ## Invalid operations and divisions by zero (09 R242, R243) -/

section
variable {F : Fmt} (hF : F.Ieee) (v : FEnv)
include hF

theorem Fmt.mul_zero_inf (n n' : Bool) : F.mul v (F.signBit n) (F.signBit n' + F.infBits) = (F.dfltNaN, fNV) := by
  simp [Fmt.mul, hF.decode_flush_zero, hF.decode_flush_inf, Fmt.pickNaN, prodNum]

theorem Fmt.mul_inf_zero (n n' : Bool) : F.mul v (F.signBit n + F.infBits) (F.signBit n') = (F.dfltNaN, fNV) := by
  simp [Fmt.mul, hF.decode_flush_zero, hF.decode_flush_inf, Fmt.pickNaN, prodNum]

theorem Fmt.add_inf_inf (n : Bool) : F.add v false (F.signBit n + F.infBits) (F.signBit (!n) + F.infBits) = (F.dfltNaN, fNV) := by
  simp [Fmt.add, hF.decode_flush_inf, Fmt.pickNaN, Fmt.sum]

theorem Fmt.sub_inf_inf (n : Bool) : F.add v true (F.signBit n + F.infBits) (F.signBit n + F.infBits) = (F.dfltNaN, fNV) := by
  simp [Fmt.add, hF.decode_flush_inf, Fmt.pickNaN, Fmt.sum, Num.neg]

theorem Fmt.div_zero_zero (n n' : Bool) : F.div v (F.signBit n) (F.signBit n') = (F.dfltNaN, fNV) := by
  simp [Fmt.div, hF.decode_flush_zero, Fmt.pickNaN]

theorem Fmt.div_inf_inf (n n' : Bool) : F.div v (F.signBit n + F.infBits) (F.signBit n' + F.infBits) = (F.dfltNaN, fNV) := by
  simp [Fmt.div, hF.decode_flush_inf, Fmt.pickNaN]

theorem Fmt.sqrt_neg_inf : F.sqrt v (F.signBit true + F.infBits) = (F.dfltNaN, fNV) := by
  simp [Fmt.sqrt, hF.decode_flush_inf, Fmt.pickNaN]

/-- A NaN addend is the result of a fused operation whose product is invalid. -/
theorem Fmt.fma_zero_inf_nan (n n' : Bool) {a fr : ℕ} {neg sig : Bool} (ha : F.decode (F.flush v.fzi a) = .nan neg sig fr) :
    F.fma v n n' (F.signBit n) (F.signBit n' + F.infBits) a = (F.nanBits neg fr, fNV) := by
  cases sig <;> simp [Fmt.fma, hF.decode_flush_zero, hF.decode_flush_inf, ha, Fmt.pickNaN, sigFlag]

theorem Fmt.fma_zero_inf (n n' : Bool) {a : ℕ} (ha : (F.decode (F.flush v.fzi a)).isNaN = false) :
    F.fma v n n' (F.signBit n) (F.signBit n' + F.infBits) a = (F.dfltNaN, fNV) := by
  have hpick : F.pickNaN [F.decode (F.flush v.fzi a), .fin n 0 F.qmin, .inf n'] = none := by
    revert ha
    cases F.decode (F.flush v.fzi a) <;> simp [Fmt.pickNaN, Num.isNaN]
  simp [Fmt.fma, hF.decode_flush_zero, hF.decode_flush_inf, hpick, prodNum]

section
variable {v} {a : ℕ} (ha : F.finite a = true) (hs : F.isSub a = false ∨ v.fzi = false)
include ha hs

/-- A division by zero (09 R242). -/
theorem Fmt.div_finite_zero (h0 : F.val a ≠ 0) (n : Bool) : F.div v a (F.signBit n) = (F.signBit (F.signOf a != n) + F.infBits, fDZ) := by
  obtain ⟨m, e, hflush, hdec⟩ := hF.decode_flush_finite ha hs
  have hm : m ≠ 0 := mt (Fmt.val_eq_zero_iff hdec).mpr h0
  simp [Fmt.div, hflush, hF.decode_flush_zero, Fmt.pickNaN, Num.sign, hm]

theorem Fmt.sqrt_neg (h0 : F.val a < 0) : F.sqrt v a = (F.dfltNaN, fNV) := by
  obtain ⟨m, e, hflush, hdec⟩ := hF.decode_flush_finite ha hs
  obtain ⟨hneg, hm⟩ := Fmt.neg_of_val_neg hdec h0
  rw [Fmt.sqrt_fin hflush, if_neg hm.ne', if_pos hneg]

end
end

/-- Settles O17: each operation on operands decoded from their bits. -/
theorem invalidOperations : Obligations.InvalidOperations := by
  unfold Obligations.InvalidOperations
  intro F v n n' a hF inf zero bad
  have hF := Fmt.ieee_of_mem_four hF
  have hbad : bad = (F.dfltNaN, fNV) := by rw [hF.dfltNaN_eq]
  rw [hbad]
  refine ⟨Fmt.mul_zero_inf hF v n n', Fmt.mul_inf_zero hF v n n', Fmt.add_inf_inf hF v n, Fmt.sub_inf_inf hF v n,
    Fmt.div_zero_zero hF v n n', Fmt.div_inf_inf hF v n n', Fmt.sqrt_neg_inf hF v, ?fused,
    fun ha h0 hs => ⟨Fmt.div_finite_zero hF ha hs h0 n, Fmt.sqrt_neg hF ha hs⟩⟩
  case fused =>
    split
    · next ha => exact Fmt.fma_zero_inf_nan hF v n n' ha
    · next hno =>
      refine Fmt.fma_zero_inf hF v n n' ?_
      cases ha : F.decode (F.flush v.fzi a) with
      | nan neg sig fr => exact absurd ha (hno neg sig fr)
      | inf neg => rfl
      | fin neg m e => rfl

end Sys2Proof.Machine
end

section
/-! PROOF. Values that a format holds exactly are rounded to themselves, without a flag (03 R89, R93, R94). -/

namespace Sys2Proof.Machine

/-- Whole units of 2^q have no part of a unit below them. -/
theorem Mag.split_exact {m k : ℕ} {e q : ℤ} (h : (m : ℝ) * 2 ^ e = k * 2 ^ q) : (Mag.mk m e false).split q = (k, 0, false) := by
  have hu := Mag.split_inUnits (x := ⟨m, e, false⟩) (q := q) (cutAt_self m e) nofun
  rw [h, mul_div_cancel_right₀ _ (zpow_pos two_pos q).ne'] at hu
  have hle : (Mag.split ⟨m, e, false⟩ q).1 ≤ k := by exact_mod_cast hu.floor_le
  have hlt : k < (Mag.split ⟨m, e, false⟩ q).1 + 1 := by exact_mod_cast hu.lt_floor_succ
  have hk : (Mag.split ⟨m, e, false⟩ q).1 = k := by omega
  have hexact : ¬ ((Mag.split ⟨m, e, false⟩ q).2.1 != 0 || (Mag.split ⟨m, e, false⟩ q).2.2) = true := fun hi =>
    hu.inexact_iff.mp hi (by rw [hk])
  rw [Bool.not_eq_true, Bool.or_eq_false_iff, bne_eq_false_iff_eq] at hexact
  exact Prod.ext hk (Prod.ext hexact.1 hexact.2)

/-- The binade of a magnitude, from other units of the same value. -/
theorem log2_add_eq {m k L : ℕ} {e q : ℤ} (hm : 0 < m) (hle : 2 ^ L ≤ k) (hlt : k < 2 ^ (L + 1)) (h : (m : ℝ) * 2 ^ e = k * 2 ^ q) :
    (Nat.log2 m : ℤ) + e = L + q := by
  have hz (n : ℕ) (z : ℤ) : (2 : ℝ) ^ ((n : ℤ) + z) = 2 ^ n * 2 ^ z := by rw [zpow_add₀ two_ne_zero, zpow_natCast]
  have he := zpow_pos (two_pos (α := ℝ)) e
  have hq := zpow_pos (two_pos (α := ℝ)) q
  have hm1 : (2 : ℝ) ^ Nat.log2 m ≤ m := by exact_mod_cast Nat.log2_self_le hm.ne'
  have hm2 : (m : ℝ) < 2 ^ (Nat.log2 m + 1) := by exact_mod_cast Nat.lt_log2_self
  have hk1 : (2 : ℝ) ^ L ≤ k := by exact_mod_cast hle
  have hk2 : (k : ℝ) < 2 ^ (L + 1) := by exact_mod_cast hlt
  have h1 : (2 : ℝ) ^ ((Nat.log2 m : ℤ) + e) < 2 ^ (((L + 1 : ℕ) : ℤ) + q) := by
    rw [hz, hz]
    calc (2 : ℝ) ^ Nat.log2 m * 2 ^ e ≤ m * 2 ^ e := by gcongr
      _ = k * 2 ^ q := h
      _ < 2 ^ (L + 1) * 2 ^ q := by gcongr
  have h2 : (2 : ℝ) ^ ((L : ℤ) + q) < 2 ^ (((Nat.log2 m + 1 : ℕ) : ℤ) + e) := by
    rw [hz, hz]
    calc (2 : ℝ) ^ L * 2 ^ q ≤ k * 2 ^ q := by gcongr
      _ = m * 2 ^ e := h.symm
      _ < 2 ^ (Nat.log2 m + 1) * 2 ^ e := by gcongr
  have h1 := (zpow_lt_zpow_iff_right₀ (one_lt_two (α := ℝ))).mp h1
  have h2 := (zpow_lt_zpow_iff_right₀ (one_lt_two (α := ℝ))).mp h2
  omega

/-- Equal signed magnitudes have equal signs and magnitudes. -/
theorem signFactor_mul_inj {a b : Bool} {x y : ℝ} (hx : 0 < x) (hy : 0 < y) (h : signFactor a * x = signFactor b * y) :
    a = b ∧ x = y := by
  cases a <;> cases b <;> simp only [signFactor_true, signFactor_false, one_mul, neg_one_mul, neg_inj] at h
  · exact ⟨rfl, h⟩
  · linarith
  · linarith
  · exact ⟨rfl, h⟩

theorem roundsUp_exact (md : Mode) (neg odd : Bool) (draw : ℕ) : roundsUp md neg odd 0 false draw = false := by simp [roundsUp]

namespace Fmt.Ieee

variable {F : Fmt} (hF : F.Ieee) {b : ℕ} (hb : F.finite b = true) (hs : F.isSub b = false)
include hF hb hs

/-- The fields of a non-zero number that is no subnormal. -/
theorem exists_normal (h0 : F.val b ≠ 0) :
    ∃ neg ex fr, ex + 1 < F.emask ∧ fr < 2 ^ F.fb ∧ b = F.signBit neg + ((ex + 1) * 2 ^ F.fb + fr) ∧
      (F.val b : ℝ) = signFactor neg * ((fr + 2 ^ F.fb : ℕ) * 2 ^ (F.qmin + ex)) := by
  obtain ⟨neg, ex, fr, hex, hfr, rfl⟩ := hF.exists_fields_of_finite hb
  have hval := hF.val_bits neg hex hfr
  rw [hF.isSub_bits neg hex.le hfr] at hs
  cases ex with
  | zero =>
    have hfr0 : fr = 0 := by simpa using hs
    have hzero : (F.val (F.signBit neg + (0 * 2 ^ F.fb + fr)) : ℝ) = 0 := by rw [hval, hfr0]; simp
    exact absurd (by exact_mod_cast hzero) h0
  | succ ex => exact ⟨neg, ex, fr, hex, hfr, rfl, by simpa using hval⟩

/-- The least normal magnitude. -/
theorem le_abs_val_normal (h0 : F.val b ≠ 0) : (2 : ℝ) ^ F.emin ≤ |(F.val b : ℝ)| := by
  obtain ⟨neg, ex, fr, -, -, -, hval⟩ := hF.exists_normal hb hs h0
  rw [hval, abs_signFactor_mul, abs_of_nonneg (by positivity)]
  calc (2 : ℝ) ^ F.emin = (2 ^ F.fb : ℕ) * 2 ^ F.qmin := by
        rw [Nat.cast_pow, Nat.cast_ofNat, ← zpow_natCast, ← zpow_add₀ two_ne_zero, Fmt.qmin, add_sub_cancel]
    _ ≤ (fr + 2 ^ F.fb : ℕ) * 2 ^ (F.qmin + ex) := by
        gcongr
        · exact Nat.le_add_left ..
        · exact one_le_two
        · exact Int.le_add_of_nonneg_right (Int.natCast_nonneg ex)

/-- A normal value is its own result, under every mode and flush. -/
theorem round_held {neg : Bool} {m : ℕ} {e : ℤ} (hm : 0 < m) (hv : (F.val b : ℝ) = signFactor neg * (m * 2 ^ e)) (md : Mode)
    (fzo : Bool) (draw : ℕ) : F.round md fzo draw neg ⟨m, e, false⟩ = (b, 0) := by
  have hX : (0 : ℝ) < m * 2 ^ e := by positivity
  have h0 : (F.val b : ℝ) ≠ 0 := hv ▸ mul_ne_zero (signFactor_ne_zero neg) hX.ne'
  obtain ⟨neg', ex, fr, hex, hfr, hbits, hval⟩ := hF.exists_normal hb hs (by exact_mod_cast h0)
  obtain ⟨rfl, hX⟩ := signFactor_mul_inj hX (by positivity) (hv.symm.trans hval)
  have hbinade := log2_add_eq (L := F.fb) hm (Nat.le_add_left ..) (by rw [pow_succ]; omega) hX
  have hq0 : (Nat.log2 m : ℤ) + e - F.fb = F.qmin + ex := by omega
  have hq : max (F.qmin + ex : ℤ) F.qmin = F.qmin + ex := max_eq_left (by omega)
  have htop := hF.top
  have hfit : (decide (F.emax - F.fb < F.qmin + ex) || (F.qmin + ex == F.emax - F.fb && fr + 2 ^ F.fb == 2 ^ F.p)) = false := by
    have h1 : ¬ F.emax - F.fb < F.qmin + ex := by omega
    have h2 : fr + 2 ^ F.fb ≠ 2 ^ F.p := by rw [Fmt.p, pow_succ]; omega
    rw [decide_eq_false h1, beq_false_of_ne h2, Bool.and_false, Bool.or_false]
  have hj : (F.qmin + ex - F.qmin).toNat = ex := by omega
  have hnormal : decide (ex * 2 ^ F.fb + (fr + 2 ^ F.fb) < 2 ^ F.fb) = false := decide_eq_false (by omega)
  simp only [Fmt.round, hF.fn, hq0, hq, Mag.split_exact hX, roundsUp_exact, hfit, hj, hnormal, Bool.false_eq_true, if_false,
    Bool.and_false, bne_self_eq_false, Bool.or_false, Bool.false_and]
  rw [hbits, show ex * 2 ^ F.fb + (fr + 2 ^ F.fb) = (ex + 1) * 2 ^ F.fb + fr by ring]
  rfl

/-- The same of a result that is finished, with the mode and the flush of its element. -/
theorem finish_held (v : FEnv) {neg : Bool} {m : ℕ} {e : ℤ} (hm : 0 < m) (hv : (F.val b : ℝ) = signFactor neg * (m * 2 ^ e)) :
    F.finish v neg ⟨m, e, false⟩ = (b, 0) := by
  rw [F.finish_of_pos v neg hm, hF.round_held hb hs hm hv]

end Fmt.Ieee

end Sys2Proof.Machine
end

section
/-! PROOF. The special functions (09 R252 to R254, Tables 9.10 and 9.11): their edges, their exact values, and the reciprocals. -/

namespace Sys2Proof.Machine

/-! ## Instructions that are one special function (09 R252) -/

/-- For f32 nothing is counted, whatever DRM holds. -/
theorem writesFloats_of_special {i : Instr} {s : State} {t : Task} {g : Fn9} {vec : Bool} {ty : Ty} {f : FMod} {d a : Reg}
    (h : s.task? = some t) (he : exec i s = special g vec ty f d a s) :
    writesFloats i s t vec false ty f d a 31 31 (fun v x _ _ => g.eval (tyFmt ty) v x)
      (if ty ≠ .f32 ∧ t.mode f.rm = .st then 1 else 0) := by
  refine writesFloats_of_floatOp (op := fun F v x _ _ => g.eval F v x) he h ((count_floatOp ..).trans ?_)
  have hrn : t.mode .rn ≠ .st := by simp [Task.mode, rmMode]
  by_cases hty : ty = .f32
  · simp only [hty, if_true, hrn, if_false, ne_eq, not_true, false_and]
  · simp only [hty, if_false, ne_eq, not_false_eq_true, true_and]

/-! ## The edges (09 Table 9.11) -/

/-- The mode of a special function: that of the element but for f32 (09 R253). -/
def Fn9.env (g : Fn9) (F : Fmt) (v : FEnv) : FEnv :=
  if F.w = 32 then { v with md := if g = .rcp || g = .rsq then .ne else .wide } else v

@[simp] theorem Fn9.env_fzi (g : Fn9) (F : Fmt) (v : FEnv) : (g.env F v).fzi = v.fzi := by unfold Fn9.env; split <;> rfl
@[simp] theorem Fn9.env_fzo (g : Fn9) (F : Fmt) (v : FEnv) : (g.env F v).fzo = v.fzo := by unfold Fn9.env; split <;> rfl

theorem Fn9.env_md {g : Fn9} (h : g = .rcp ∨ g = .rsq) (F : Fmt) (v : FEnv) : (g.env F v).md = if F.w = 32 then .ne else v.md := by
  unfold Fn9.env
  rcases h with rfl | rfl <;> split <;> rfl

section
variable {F : Fmt} {v : FEnv} {a : ℕ} {neg : Bool}

/-- A NaN gives itself quieted (03 R81). -/
theorem Fn9.eval_nan (g : Fn9) {sig : Bool} {fr : ℕ} (h : F.decode (F.flush v.fzi a) = .nan neg sig fr) :
    g.eval F v a = (F.nanBits neg fr, if sig then fNV else 0) := by
  by_cases hw : F.w = 32 <;> simp [Fn9.eval, hw, h]

theorem Fn9.eval_inf (h : F.decode (F.flush v.fzi a) = .inf neg) :
    Fn9.exp.eval F v a = (if neg then 0 else F.infBits, 0) ∧ Fn9.exp2.eval F v a = (if neg then 0 else F.infBits, 0) ∧
      Fn9.log.eval F v a = (if neg then (F.dfltNaN, fNV) else (F.infBits, 0)) ∧
      Fn9.log2.eval F v a = (if neg then (F.dfltNaN, fNV) else (F.infBits, 0)) ∧
      Fn9.rcp.eval F v a = (F.signBit neg, 0) ∧ Fn9.rsq.eval F v a = (if neg then (F.dfltNaN, fNV) else (0, 0)) ∧
      Fn9.sin.eval F v a = (F.dfltNaN, fNV) ∧ Fn9.cos.eval F v a = (F.dfltNaN, fNV) ∧
      Fn9.tanh.eval F v a = (F.signBit neg + F.bias * 2 ^ F.fb, 0) ∧ Fn9.erf.eval F v a = (F.signBit neg + F.bias * 2 ^ F.fb, 0) ∧
      Fn9.sigm.eval F v a = (if neg then 0 else F.bias * 2 ^ F.fb, 0) := by
  by_cases hw : F.w = 32 <;> simp [Fn9.eval, hw, h]

theorem Fn9.eval_zero {e : ℤ} (h : F.decode (F.flush v.fzi a) = .fin neg 0 e) :
    Fn9.exp.eval F v a = (F.bias * 2 ^ F.fb, 0) ∧ Fn9.exp2.eval F v a = (F.bias * 2 ^ F.fb, 0) ∧
      Fn9.log.eval F v a = (F.signBit true + F.infBits, fDZ) ∧ Fn9.log2.eval F v a = (F.signBit true + F.infBits, fDZ) ∧
      Fn9.rcp.eval F v a = (F.signBit neg + F.infBits, fDZ) ∧ Fn9.rsq.eval F v a = (F.signBit neg + F.infBits, fDZ) ∧
      Fn9.sin.eval F v a = (F.signBit neg, 0) ∧ Fn9.cos.eval F v a = (F.bias * 2 ^ F.fb, 0) ∧
      Fn9.tanh.eval F v a = (F.signBit neg, 0) ∧ Fn9.erf.eval F v a = (F.signBit neg, 0) ∧
      Fn9.sigm.eval F v a = ((F.bias - 1) * 2 ^ F.fb, 0) := by
  by_cases hw : F.w = 32 <;> simp [Fn9.eval, hw, h]

theorem Fn9.eval_fin (g : Fn9) {m : ℕ} {e : ℤ} (h : F.decode (F.flush v.fzi a) = .fin neg m e) (hm : 0 < m) :
    g.eval F v a = g.atFin F (g.env F v) neg m e := by
  by_cases hw : F.w = 32 <;> simp [Fn9.eval, Fn9.env, hw, h, hm.ne']

end

theorem or_two_pow_of_lt {k n : ℕ} (h : n < 2 ^ k) : n ||| 2 ^ k = 2 ^ k + n := by
  have := Nat.two_pow_add_eq_or_of_lt h 1
  rw [mul_one] at this
  rw [this, Nat.or_comm]

/-- A NaN's fraction with its quiet bit set. -/
theorem nanBits_shifted {F : Fmt} (hF : F.Ieee) (neg : Bool) (fr : ℕ) :
    F.nanBits neg (fr * 2 ^ (52 - F.fb)) = F.signBit neg + F.infBits + (fr ||| 2 ^ (F.fb - 1)) := by
  simp only [Fmt.nanBits, hF.fn, Bool.false_eq_true, if_false]
  rw [Nat.mul_div_cancel _ (by positivity), Nat.add_assoc]

theorem Fn9.eval_nan_bits (g : Fn9) {F : Fmt} (hF : F.Ieee) (v : FEnv) (n : Bool) {fr : ℕ} (h0 : 0 < fr) (hfr : fr < 2 ^ F.fb) :
    g.eval F v (F.signBit n + F.infBits + fr) =
      if fr < 2 ^ (F.fb - 1) then (F.signBit n + F.infBits + 2 ^ (F.fb - 1) + fr, fNV) else (F.signBit n + F.infBits + fr, 0) := by
  rw [g.eval_nan (hF.decode_flush_nan v.fzi n h0 hfr), nanBits_shifted hF]
  by_cases hq : fr < 2 ^ (F.fb - 1)
  · rw [if_pos hq, or_two_pow_of_lt hq, Nat.testBit_lt_two_pow hq, ← Nat.add_assoc]
    rfl
  · have hfb := hF.fb_pos
    have hpow : 2 ^ F.fb = 2 ^ (F.fb - 1) + 2 ^ (F.fb - 1) := by
      rw [← two_mul, ← pow_succ', Nat.sub_add_cancel hfb]
    obtain ⟨r, rfl⟩ := Nat.exists_eq_add_of_le (not_lt.mp hq)
    have hr : r < 2 ^ (F.fb - 1) := by omega
    have hor : (2 ^ (F.fb - 1) + r) ||| 2 ^ (F.fb - 1) = 2 ^ (F.fb - 1) + r := by
      rw [← or_two_pow_of_lt hr, Nat.or_assoc, Nat.or_self]
    rw [if_neg hq, hor, Nat.testBit_two_pow_add_eq, Nat.testBit_lt_two_pow hr]
    rfl

/-- A logarithm and a reciprocal root of a negative value (09 Table 9.11). -/
theorem Fn9.eval_neg {F : Fmt} (hF : F.Ieee) {v : FEnv} {a : ℕ} (ha : F.finite a = true) (hs : F.isSub a = false ∨ v.fzi = false)
    (h0 : F.val a < 0) : Fn9.log.eval F v a = (F.dfltNaN, fNV) ∧ Fn9.log2.eval F v a = (F.dfltNaN, fNV) ∧
      Fn9.rsq.eval F v a = (F.dfltNaN, fNV) := by
  obtain ⟨m, e, hflush, hdec⟩ := hF.decode_flush_finite ha hs
  obtain ⟨hneg, hm⟩ := Fmt.neg_of_val_neg hdec h0
  rw [hneg] at hflush
  exact ⟨Fn9.log.eval_fin hflush hm, Fn9.log2.eval_fin hflush hm, Fn9.rsq.eval_fin hflush hm⟩

/-! ## Exact values (09 R254) -/

/-- What the formats of 09 R252 share besides: their binades reach far enough for every reciprocal root, and no power of two that they
hold is beyond the argument at which FEXP2 takes its limit. -/
structure Fmt.Special (F : Fmt) : Prop where
  ieee : F.Ieee
  root_le_max : -F.qmin ≤ 2 * F.emax
  min_le_root : F.emax + 1 ≤ -2 * F.qmin
  emax_lt : F.emax < 256
  lt_emin : -256 < F.emin

theorem Fmt.special_of_mem {F : Fmt} (h : F ∈ [Fmt.f32, Fmt.f16, Fmt.bf16]) : F.Special := by
  have hF : F.Ieee := Fmt.ieee_of_mem (by revert h; simp only [List.mem_cons]; tauto)
  simp only [List.mem_cons, List.not_mem_nil, or_false] at h
  rcases h with rfl | rfl | rfl <;> exact ⟨hF, by decide, by decide, by decide, by decide⟩

/-- An integer value has no part below its units, and its magnitude is what FEXP2 cuts out. -/
theorem fixOf_zero_of_int {m n : ℕ} {e : ℤ} (h : (m : ℝ) * 2 ^ e = n) :
    (decide (0 ≤ e) || m % 2 ^ (-e).toNat == 0) = true ∧ fixOf 0 m e = n := by
  unfold fixOf
  by_cases he : 0 ≤ e
  · have hn : m * 2 ^ e.toNat = n := by exact_mod_cast (by rw [← h, Nat.cast_mul, two_zpow_toNat he] : ((m * 2 ^ e.toNat : ℕ) : ℝ) = n)
    simpa [he] using hn
  · have hpow : ((2 ^ (-e).toNat : ℕ) : ℝ) = 2 ^ (-e) := two_zpow_toNat (by omega)
    have hm : m = n * 2 ^ (-e).toNat := by
      have : (m : ℝ) = (n * 2 ^ (-e).toNat : ℕ) := by
        rw [Nat.cast_mul, hpow, ← h, mul_assoc, ← zpow_add₀ two_ne_zero, add_neg_cancel, zpow_zero, mul_one]
      exact_mod_cast this
    have hpos : 0 < 2 ^ (-e).toNat := by positivity
    simp [he, hm, Nat.mul_div_cancel _ hpos]

/-- FEXP2 of an integer near 0 finishes a power of two. -/
theorem Fn9.atFin_exp2_of_int (F : Fmt) (v : FEnv) (neg : Bool) {m n : ℕ} {e : ℤ} (h : (m : ℝ) * 2 ^ e = n) (h0 : 0 < n) (hn : n < 256) :
    Fn9.exp2.atFin F v neg m e = F.finish v false ⟨1, if neg then -n else n, false⟩ := by
  have hm : 0 < m := Nat.pos_of_ne_zero fun h' => by
    rw [h', Nat.cast_zero, zero_mul] at h
    exact h0.ne (by exact_mod_cast h)
  have htop := log2_add_eq (q := 0) hm (Nat.log2_self_le h0.ne') Nat.lt_log2_self (h.trans (by rw [zpow_zero, mul_one]))
  have hlog : Nat.log2 n < 8 := (Nat.log2_lt h0.ne').mpr hn
  obtain ⟨hint, hfix⟩ := fixOf_zero_of_int h
  have hbig : decide (8 ≤ (Nat.log2 m : ℤ) + e) = false := decide_eq_false (by omega)
  simp only [Fn9.atFin, hbig, hint, hfix, Bool.false_eq_true, if_false, if_true]

/-- The end of the largest binade. -/
theorem Fmt.Ieee.abs_val_lt {F : Fmt} (hF : F.Ieee) {b : ℕ} (hb : F.finite b = true) : |(F.val b : ℝ)| < 2 ^ (F.emax + 1) := by
  have hu := zpow_pos (two_pos (α := ℝ)) (F.emax - F.fb)
  refine (hF.abs_val_le hb).trans_lt ?_
  calc ((2 : ℝ) ^ F.p - 1) * 2 ^ (F.emax - F.fb) < 2 ^ F.p * 2 ^ (F.emax - F.fb) := by
        gcongr
        linarith
    _ = 2 ^ (F.emax + 1) := by
        rw [← zpow_natCast, ← zpow_add₀ two_ne_zero, Fmt.p]
        congr 1
        push_cast
        ring

/-- A power of two that a format holds as a normal value is near 1. -/
theorem Fmt.Special.natAbs_lt {F : Fmt} (hF : F.Special) {b : ℕ} {k : ℤ} (hb : F.finite b = true) (hs : F.isSub b = false)
    (hv : F.val b = 2 ^ k) : k.natAbs < 256 := by
  have hv' : |(F.val b : ℝ)| = 2 ^ k := by rw [hv]; push_cast; exact abs_of_pos (zpow_pos two_pos k)
  have h0 : F.val b ≠ 0 := hv ▸ (zpow_pos two_pos k).ne'
  have hlow := hF.ieee.le_abs_val_normal hb hs h0
  have hhigh := hF.ieee.abs_val_lt hb
  rw [hv'] at hlow hhigh
  have h1 := (zpow_le_zpow_iff_right₀ (one_lt_two (α := ℝ))).mp hlow
  have h2 := (zpow_lt_zpow_iff_right₀ (one_lt_two (α := ℝ))).mp hhigh
  have := hF.emax_lt
  have := hF.lt_emin
  omega

/-- The magnitude of an integer value. -/
theorem Fmt.natAbs_of_val_int {F : Fmt} {a m : ℕ} {neg : Bool} {e k : ℤ} (hd : F.decode a = .fin neg m e) (hk : F.val a = k)
    (h0 : k ≠ 0) : (m : ℝ) * 2 ^ e = k.natAbs ∧ (if neg then -(k.natAbs : ℤ) else k.natAbs) = k := by
  have hv := Fmt.val_of_decode hd
  rw [hk, Rat.cast_intCast, natAbs_cast_eq] at hv
  have hm : 0 < m := Nat.pos_of_ne_zero (mt (Fmt.val_eq_zero_iff hd).mpr (by rw [hk]; exact_mod_cast h0))
  have hn : (0 : ℝ) < k.natAbs := by exact_mod_cast Int.natAbs_pos.mpr h0
  obtain ⟨hs, he⟩ := signFactor_mul_inj hn (by positivity) hv
  refine ⟨he.symm, ?_⟩
  subst hs
  simp only [decide_eq_true_eq]
  split <;> omega

section
variable {F : Fmt} (hF : F.Special) {v : FEnv} {a b : ℕ} {k : ℤ} (ha : F.finite a = true) (hs : F.isSub a = false ∨ v.fzi = false)
  (hb : F.finite b = true) (hsb : F.isSub b = false) (h0 : k ≠ 0)
include hF ha hs hb hsb h0

/-- FEXP2 of an integer is the power of two. -/
theorem Fn9.exp2_of_int (hk : F.val a = k) (hv : F.val b = 2 ^ k) : Fn9.exp2.eval F v a = (b, 0) := by
  obtain ⟨m, e, hflush, hdec⟩ := hF.ieee.decode_flush_finite ha hs
  obtain ⟨hm, hsign⟩ := Fmt.natAbs_of_val_int hdec hk h0
  have hmpos : 0 < m := Nat.pos_of_ne_zero (mt (Fmt.val_eq_zero_iff hdec).mpr (by rw [hk]; exact_mod_cast h0))
  rw [Fn9.exp2.eval_fin hflush hmpos, Fn9.atFin_exp2_of_int F _ _ hm (Int.natAbs_pos.mpr h0) (hF.natAbs_lt hb hsb hv), hsign]
  exact hF.ieee.finish_held hb hsb _ one_pos (by rw [hv]; push_cast; rw [signFactor_false, one_mul, one_mul])

/-- FLOG2 of a power of two is its exponent. -/
theorem Fn9.log2_of_pow (hv : F.val a = 2 ^ k) (hk : F.val b = k) : Fn9.log2.eval F v a = (b, 0) := by
  obtain ⟨m, e, hflush, hdec⟩ := hF.ieee.decode_flush_finite ha hs
  obtain ⟨hsign, hm⟩ := Fmt.pos_of_val_pos hdec (hv ▸ zpow_pos two_pos k)
  have hval := Fmt.val_of_decode hdec
  rw [hsign, hv, signFactor_false, one_mul] at hval
  push_cast at hval
  have htop := log2_add_eq (k := 1) (L := 0) (q := k) hm le_rfl (by norm_num) (by rw [← hval, Nat.cast_one, one_mul])
  rw [Nat.cast_zero, zero_add] at htop
  have hpow : (m == 2 ^ Nat.log2 m) = true := by
    have he := zpow_pos (two_pos (α := ℝ)) e
    have h1 : (m : ℝ) * 2 ^ e = 2 ^ Nat.log2 m * 2 ^ e := by rw [← hval, ← htop, zpow_add₀ two_ne_zero, zpow_natCast]
    have h1 := mul_right_cancel₀ he.ne' h1
    exact beq_iff_eq.mpr (by exact_mod_cast h1)
  rw [Fn9.log2.eval_fin hflush hm, hsign]
  simp only [Fn9.atFin, hpow, htop, Bool.false_eq_true, if_false, if_true]
  exact hF.ieee.finish_held hb hsb _ (Int.natAbs_pos.mpr h0) (by
    rw [hk, Rat.cast_intCast, zpow_zero, mul_one]
    exact natAbs_cast_eq k)

end

/-- The bits of 1. -/
theorem Fmt.Ieee.decode_one {F : Fmt} (hF : F.Ieee) (z : Bool) :
    F.decode (F.flush z (F.bias * 2 ^ F.fb)) = .fin false (2 ^ F.fb) (F.qmin + (F.bias - 1 : ℕ)) := by
  have hpos : F.bias ≠ 0 := Nat.one_le_iff_ne_zero.mp hF.bias_pos
  have hsub := hF.isSub_bits false hF.bias.le (fr := 0) (by positivity)
  have hlt := hF.bits_lt false (hF.fields_lt hF.bias.le (fr := 0) (by positivity))
  have hdec := hF.decode_bits false hF.bias (fr := 0) (by positivity)
  simp only [Fmt.signBit, Bool.false_eq_true, if_false, Nat.zero_add, Nat.add_zero, if_neg hpos] at hsub hlt hdec
  rw [Fmt.flush_eq_self hlt (.inl (by rw [hsub, beq_false_of_ne hpos, Bool.false_and])), hdec]

/-- The logarithm of 1 is +0. -/
theorem Fn9.log_one {F : Fmt} (hF : F.Ieee) (v : FEnv) : Fn9.log.eval F v (F.bias * 2 ^ F.fb) = (0, 0) := by
  have hpos := hF.bias_pos
  have htop : (F.fb : ℤ) + (F.qmin + (F.bias - 1 : ℕ)) = 0 := by
    rw [Fmt.qmin, Fmt.emin]
    omega
  rw [Fn9.log.eval_fin (hF.decode_one v.fzi) (by positivity)]
  simp [Fn9.atFin, Nat.log2_two_pow, htop]

/-! ## Reciprocals (09 R253) -/

/-- FRCP rounds the exact reciprocal once. -/
theorem Fn9.rcp_rightly {F : Fmt} (hF : F.Ieee) {v : FEnv} {a : ℕ} (hmd : v.md.fixed) (hfzo : v.fzo = false) (ha : F.finite a = true)
    (h0 : F.val a ≠ 0) (hs : F.isSub a = false ∨ v.fzi = false) :
    F.rightFor (Fn9.rcp.env F v) (1 / F.val a) (Fn9.rcp.eval F v a) := by
  obtain ⟨m, e, hflush, hdec⟩ := hF.decode_flush_finite ha hs
  have hm : 0 < m := Nat.pos_of_ne_zero (mt (Fmt.val_eq_zero_iff hdec).mpr h0)
  have hmd' : (Fn9.rcp.env F v).md.fixed := by
    rw [Fn9.env_md (.inl rfl)]
    split
    · simp [Mode.fixed]
    · exact hmd
  rw [Fn9.rcp.eval_fin hflush hm]
  refine Fmt.rightFor_finish hF hmd' (by rw [Fn9.env_fzo, hfzo]) (divMag_stands hF one_pos hm 0 e) ?_
  have hquot := signFactor_quotient false (F.signOf a) 1 m 0 e
  rw [Bool.false_bne] at hquot
  rw [← hquot, Rat.cast_div, Fmt.val_of_decode hdec]
  simp

/-- The reciprocal root that FRSQ rounds, kept to 200 bits below the point. -/
def rsqMag (m : ℕ) (e : ℤ) : Mag :=
  let (m, e) := if e % 2 = 0 then (m, e) else (2 * m, e - 1)
  ⟨isqrt (2 ^ 400 / m), -(e / 2) - 200, isqrt (2 ^ 400 / m) * isqrt (2 ^ 400 / m) * m != 2 ^ 400⟩

theorem Fn9.atFin_rsq (F : Fmt) (v : FEnv) (m : ℕ) (e : ℤ) : Fn9.rsq.atFin F v false m e = F.finish v false (rsqMag m e) := rfl

/-- The whole root of a whole quotient is that of the quotient. -/
theorem sqrt_div_cut {n m r : ℕ} (hm : 0 < m) (hr : r = Nat.sqrt (n / m)) : r * r * m ≤ n ∧ n < (r + 1) * (r + 1) * m := by
  obtain ⟨h1, h2⟩ := Nat.eq_sqrt.mp hr
  exact ⟨(Nat.le_div_iff_mul_le hm).mp h1, (Nat.div_lt_iff_lt_mul hm).mp h2⟩

/-- The reciprocal root of a magnitude whose exponent is even. -/
theorem rsq_stands {F : Fmt} (hF : F.Ieee) {m : ℕ} (hm : 0 < m) (hle : m ≤ 2 ^ 200) (i : ℤ) :
    F.Stands ⟨isqrt (2 ^ 400 / m), -i - 200, isqrt (2 ^ 400 / m) * isqrt (2 ^ 400 / m) * m != 2 ^ 400⟩ (1 / √(m * 2 ^ (2 * i))) := by
  have hm' : (0 : ℝ) < m := by exact_mod_cast hm
  have hroot := Real.sqrt_pos.mpr hm'
  have hX : 1 / √((m : ℝ) * 2 ^ (2 * i)) = 2 ^ 200 / √m * 2 ^ (-i - 200) := by
    rw [Real.sqrt_mul hm'.le, mul_comm 2 i, zpow_mul, zpow_ofNat, Real.sqrt_sq (by positivity), zpow_sub₀ two_ne_zero, zpow_neg,
      zpow_ofNat]
    field_simp
  have hbig : 2 ^ 100 ≤ Nat.sqrt (2 ^ 400 / m) := by
    rw [Nat.le_sqrt, Nat.le_div_iff_mul_le hm]
    calc 2 ^ 100 * 2 ^ 100 * m ≤ 2 ^ 100 * 2 ^ 100 * 2 ^ 200 := Nat.mul_le_mul_left _ hle
      _ = 2 ^ 400 := by simp only [← pow_add]
  have hu := zpow_pos (two_pos (α := ℝ)) (-i - 200)
  rw [hX, isqrt_eq]
  obtain ⟨hcut1, hcut2⟩ := sqrt_div_cut hm (n := 2 ^ 400) rfl
  generalize Nat.sqrt (2 ^ 400 / m) = r at *
  have hsq : (√(m : ℝ)) ^ 2 = m := Real.sq_sqrt hm'.le
  have hreal (k : ℕ) : ((k : ℝ) * √m) ^ 2 = (k * k * m : ℕ) := by
    rw [mul_pow, hsq]
    push_cast
    ring
  have hn : ((2 : ℝ) ^ 200) ^ 2 = (2 ^ 400 : ℕ) := by
    rw [Nat.cast_pow, Nat.cast_ofNat, ← pow_mul]
  have hcut1 : ((r : ℝ) * √m) ^ 2 ≤ (2 ^ 200) ^ 2 := by rw [hreal, hn]; exact_mod_cast hcut1
  have hcut2 : (2 ^ 200) ^ 2 < (((r + 1 : ℕ) : ℝ) * √m) ^ 2 := by rw [hreal, hn]; exact_mod_cast hcut2
  have hexact : r * r * m = 2 ^ 400 ↔ (2 : ℝ) ^ 200 = r * √m := by
    rw [← sq_eq_sq₀ (a := (2 : ℝ) ^ 200) (by positivity) (by positivity), hreal, hn, Nat.cast_inj, eq_comm]
  have hrpos : 0 < r := lt_of_lt_of_le (by positivity) hbig
  refine ⟨hrpos, ⟨?_, ?_, ?_⟩, fun _ => ?_⟩
  · refine mul_le_mul_of_nonneg_right ((le_div_iff₀ hroot).mpr ?_) hu.le
    exact (sq_le_sq₀ (by positivity) (by positivity)).mp hcut1
  · refine mul_lt_mul_of_pos_right ((div_lt_iff₀ hroot).mpr ?_) hu
    rw [← Nat.cast_add_one]
    exact (sq_lt_sq₀ (by positivity) (by positivity)).mp hcut2
  · rw [bne_eq_false_iff_eq, mul_left_inj' hu.ne', div_eq_iff hroot.ne', hexact]
  · have := hF.fb_le
    exact (by omega : F.fb + 24 ≤ 100).trans ((Nat.le_log2 hrpos.ne').mpr hbig)

theorem rsqMag_stands {F : Fmt} (hF : F.Ieee) {m : ℕ} (hm : 0 < m) (hle : m ≤ 2 ^ 199) (e : ℤ) :
    F.Stands (rsqMag m e) (1 / √(m * 2 ^ e)) := by
  unfold rsqMag
  by_cases he : e % 2 = 0
  · have h := rsq_stands hF hm (by omega) (e / 2)
    rw [show 2 * (e / 2) = e by omega] at h
    simpa only [he, if_true] using h
  · have h := rsq_stands hF (m := 2 * m) (by omega) (by omega) ((e - 1) / 2)
    rw [show 2 * ((e - 1) / 2) = e - 1 by omega, Nat.cast_mul, zpow_sub_one₀ two_ne_zero,
      show ((2 : ℕ) : ℝ) * m * (2 ^ e * 2⁻¹) = m * 2 ^ e by push_cast; ring] at h
    simpa only [he, if_false] using h

namespace Fmt.Ieee

variable {F : Fmt} (hF : F.Ieee)
include hF

theorem mantissa_bounds {a m : ℕ} {neg : Bool} {e : ℤ} (ha : F.finite a = true) (hd : F.decode a = .fin neg m e) :
    m < 2 ^ (F.fb + 1) ∧ F.qmin ≤ e := by
  obtain ⟨neg', ex, fr, hex, hfr, rfl⟩ := hF.exists_fields_of_finite ha
  rw [hF.decode_bits neg' hex hfr] at hd
  obtain ⟨-, rfl, rfl⟩ := Num.fin.inj hd
  refine ⟨?_, by omega⟩
  rw [pow_succ]
  split <;> omega

/-- No positive value lies below the least unit. -/
theorem qmin_le_val {a : ℕ} (ha : F.finite a = true) (h0 : 0 < F.val a) : (2 : ℝ) ^ F.qmin ≤ F.val a := by
  obtain ⟨neg, m, e, hd⟩ := Fmt.exists_decode ha
  obtain ⟨rfl, hm⟩ := Fmt.pos_of_val_pos hd h0
  have hm : (1 : ℝ) ≤ m := by exact_mod_cast hm
  have he := zpow_le_zpow_right₀ (one_le_two (α := ℝ)) (hF.mantissa_bounds ha hd).2
  rw [Fmt.val_of_decode hd, signFactor_false, one_mul]
  exact he.trans (le_mul_of_one_le_left (by positivity) hm)

theorem exists_least : ∃ b, F.finite b = true ∧ (F.val b : ℝ) = 2 ^ F.qmin := by
  have hmask := hF.emask_ge
  have hbits : 0 * 2 ^ F.fb + 1 < F.infBits := by
    rw [Nat.zero_mul, Nat.zero_add, Fmt.infBits]
    exact lt_of_lt_of_le (by omega) (Nat.le_mul_of_pos_right F.emask (by positivity : 0 < 2 ^ F.fb))
  obtain ⟨hfin, hval⟩ := hF.val_units false Nat.one_le_two_pow (.inl rfl) hbits
  exact ⟨_, hfin, by simpa using hval⟩

theorem exists_top : ∃ b, F.finite b = true ∧ (F.val b : ℝ) = 2 ^ F.emax := by
  have hmask := hF.emask_ge
  have htop := hF.top
  have hbits : (F.emask - 2) * 2 ^ F.fb + 2 ^ F.fb < F.infBits := by
    rw [← Nat.succ_mul]
    exact Nat.mul_lt_mul_of_pos_right (by omega) (by positivity)
  obtain ⟨hfin, hval⟩ := hF.val_units false (Nat.pow_le_pow_right two_pos (Nat.le_succ _)) (.inr le_rfl) hbits
  refine ⟨_, hfin, ?_⟩
  rw [hval, signFactor_false, one_mul, Nat.cast_pow, Nat.cast_ofNat, ← zpow_natCast, ← zpow_add₀ two_ne_zero]
  congr 1
  omega

end Fmt.Ieee

section
variable {F : Fmt} (hF : F.Special) {a : ℕ} (ha : F.finite a = true) (h0 : 0 < F.val a)
include hF ha h0

/-- A reciprocal root does not overflow. -/
theorem Fmt.Special.rsq_not_beyond {md : Mode} {neg : Bool} {r : ℕ × BitVec 5} : ¬ F.Beyond md neg √(1 / F.val a) r := by
  intro h
  obtain ⟨b, hb, hv⟩ := hF.ieee.exists_top
  have hlt := h.above b hb
  rw [hv, abs_of_pos (by positivity), abs_of_nonneg (Real.sqrt_nonneg _), Real.lt_sqrt (by positivity), ← zpow_natCast, ← zpow_mul] at hlt
  refine hlt.not_ge ?_
  calc (1 : ℝ) / F.val a ≤ 1 / 2 ^ F.qmin := one_div_le_one_div_of_le (by positivity) (hF.ieee.qmin_le_val ha h0)
    _ = 2 ^ (-F.qmin) := by rw [one_div, zpow_neg]
    _ ≤ 2 ^ (F.emax * (2 : ℕ)) := zpow_le_zpow_right₀ one_le_two (by have := hF.root_le_max; push_cast; linarith)

/-- The least positive value is not above a reciprocal root. -/
theorem Fmt.Special.exists_le_rsq : ∃ b, F.finite b = true ∧ (0 : ℝ) < F.val b ∧ (F.val b : ℝ) ≤ √(1 / F.val a) := by
  have h0' : (0 : ℝ) < F.val a := by exact_mod_cast h0
  obtain ⟨b, hb, hv⟩ := hF.ieee.exists_least
  refine ⟨b, hb, by rw [hv]; positivity, ?_⟩
  rw [hv, Real.le_sqrt' (by positivity), ← zpow_natCast, ← zpow_mul]
  calc (2 : ℝ) ^ (F.qmin * (2 : ℕ)) ≤ 2 ^ (-(F.emax + 1)) :=
        zpow_le_zpow_right₀ one_le_two (by have := hF.min_le_root; push_cast; linarith)
    _ = 1 / 2 ^ (F.emax + 1) := by rw [one_div, zpow_neg]
    _ ≤ 1 / F.val a := one_div_le_one_div_of_le h0' ((le_abs_self _).trans (hF.ieee.abs_val_lt ha).le)

/-- FRSQ to nearest (09 R253): the value next to the exact root, which is a rounded root of the reciprocal. -/
theorem Fn9.rsq_spec {v : FEnv} (hmd : F.w = 32 ∨ v.md = .ne) (hfzo : v.fzo = false) (hs : F.isSub a = false ∨ v.fzi = false) :
    F.finite (Fn9.rsq.eval F v a).1 = true ∧ 0 < F.val (Fn9.rsq.eval F v a).1 ∧
      ((Fn9.rsq.eval F v a).2.getLsbD 0 = true ↔ F.val (Fn9.rsq.eval F v a).1 ^ 2 * F.val a ≠ 1) ∧
      ∀ b, F.finite b = true → 0 ≤ F.val b →
        (F.val b < F.val (Fn9.rsq.eval F v a).1 → ((F.val b + F.val (Fn9.rsq.eval F v a).1) / 2) ^ 2 * F.val a ≤ 1) ∧
        (F.val (Fn9.rsq.eval F v a).1 < F.val b → 1 ≤ ((F.val b + F.val (Fn9.rsq.eval F v a).1) / 2) ^ 2 * F.val a) := by
  obtain ⟨m, e, hflush, hdec⟩ := hF.ieee.decode_flush_finite ha hs
  obtain ⟨hsign, hm⟩ := Fmt.pos_of_val_pos hdec h0
  have hval := Fmt.val_of_decode hdec
  rw [hsign, signFactor_false, one_mul] at hval
  have hmd' : (Fn9.rsq.env F v).md = .ne := by
    rw [Fn9.env_md (.inr rfl)]
    split
    · rfl
    · next hw => exact hmd.resolve_left hw
  have hx : ((1 / F.val a : ℚ) : ℝ) = 1 / F.val a := by push_cast; rfl
  have hrnd : F.Rounded .ne false √((1 / F.val a : ℚ) : ℝ) (Fn9.rsq.eval F v a) := by
    have hle : m ≤ 2 ^ 199 := (hF.ieee.mantissa_bounds ha hdec).1.le.trans
      (Nat.pow_le_pow_right two_pos (by have := hF.ieee.fb_le; omega))
    have hst := rsqMag_stands hF.ieee hm hle e
    have := hst.rounded (neg := false) (draw := (Fn9.rsq.env F v).draw) (md := .ne) hF.ieee (by simp [Mode.fixed])
    rw [signFactor_false, one_mul, ← hval] at this
    rw [Fn9.rsq.eval_fin hflush hm, hsign, Fn9.atFin_rsq, F.finish_of_pos _ false hst.pos, hmd', Fn9.env_fzo, hfzo,
      hx, Real.sqrt_div zero_le_one, Real.sqrt_one]
    exact this
  obtain ⟨-, ⟨q, n, k, hp⟩, hnx⟩ := hrnd.resolve_right (hx ▸ hF.rsq_not_beyond ha h0)
  obtain ⟨b, hb, hb0, hble⟩ := hF.exists_le_rsq ha h0
  have hr' := hp.val_pos hb hb0 (hx ▸ hble)
  have hr : 0 < F.val (Fn9.rsq.eval F v a).1 := by exact_mod_cast hr'
  refine ⟨hp.finite, hr, hnx.trans (not_congr ?_), fun b hb hb0 => ?_⟩
  · rw [eq_comm, Real.sqrt_eq_iff_mul_self_eq_of_pos hr', ← sq, ← eq_div_iff h0.ne']
    exact_mod_cast Iff.rfl
  · obtain ⟨-, -, hnear⟩ := hp.rootNear hr hb hb0
    obtain ⟨hlow, hhigh⟩ := hnear (by simp)
    exact ⟨fun hlt => (le_div_iff₀ h0).mp (hlow hlt), fun hlt => (div_le_iff₀ h0).mp (hhigh hlt)⟩

end

/-! ## The statement -/

/-- Settles O8: the edges by what the bits decode to, exact values as their own results, and the reciprocals rounded once. -/
theorem specialFunctions : Obligations.SpecialFunctions := by
  unfold Obligations.SpecialFunctions
  refine ⟨?instructions, ?values, ?reciprocals⟩
  case instructions =>
    intro s t vec ty f d a h _ F n gives
    exact ⟨writesFloats_of_special h (exec_fexp ..), writesFloats_of_special h (exec_fexp2 ..), writesFloats_of_special h (exec_flog ..),
      writesFloats_of_special h (exec_flog2 ..), writesFloats_of_special h (exec_frcp ..), writesFloats_of_special h (exec_frsq ..),
      writesFloats_of_special h (exec_fsin ..), writesFloats_of_special h (exec_fcos ..), writesFloats_of_special h (exec_ftanh ..),
      writesFloats_of_special h (exec_fsigm ..), writesFloats_of_special h (exec_ferf ..)⟩
  case values =>
    intro F v hmem inf zero one bad
    have hF := Fmt.special_of_mem hmem
    have hbad : bad = (F.dfltNaN, fNV) := by rw [hF.ieee.dfltNaN_eq]
    have hinf : inf false = F.infBits := Nat.zero_add _
    have hone : one false = F.bias * 2 ^ F.fb := Nat.zero_add _
    rw [hbad, hinf, hone]
    exact ⟨fun g n fr h0 hfr => g.eval_nan_bits hF.ieee v n h0 hfr, fun n => Fn9.eval_zero (hF.ieee.decode_flush_zero v.fzi n),
      fun n => Fn9.eval_inf (hF.ieee.decode_flush_inf v.fzi n), fun a ha hs h0 => Fn9.eval_neg hF.ieee ha hs h0, Fn9.log_one hF.ieee v,
      fun a b k ha hs hb hsb => ⟨fun hk h0 hv => Fn9.exp2_of_int hF ha hs hb hsb h0 hk hv,
        fun hv hk h0 => Fn9.log2_of_pow hF ha hs hb hsb h0 hv hk⟩⟩
  case reciprocals =>
    intro F v a hmem hmd hfzo ha h0 hs
    have hF := Fmt.special_of_mem hmem
    refine ⟨fun hof => ?_, fun hpos hne => Fn9.rsq_spec hF ha hpos hne hfzo hs⟩
    rw [← Fn9.env_md (.inl rfl)]
    exact (Fn9.rcp_rightly hF.ieee hmd hfzo ha h0 hs).1 hof

end Sys2Proof.Machine
end

section
/-! PROOF. Vector integer arithmetic (09 R246, R247): each operation on the lanes as `BitVec` numbers of the lane's width. -/

namespace Sys2Proof.Machine

/-! ## What is written of a lane -/

/-- What is written to the lanes that take part decides, cut to the width of a lane. -/
theorem writesLanes_congr {i : Instr} {s : State} {t : Task} {w : ℕ} {mask : SReg} {d : Reg} {f g : ℕ → ℕ → Word × BitVec 5} {n : ℕ}
    (h : writesLanes i s t w mask d f n)
    (hfg : ∀ k j, k < t.width → j < 512 / w → (f k j).1.setWidth w = (g k j).1.setWidth w ∧ (f k j).2 = (g k j).2) :
    writesLanes i s t w mask d g n := by
  obtain ⟨t', hb, ht', hwidth, hrm, hrv, hlanes, hflags⟩ := h
  refine ⟨t', hb, ht', hwidth, hrm, hrv, fun k j hk hj => ?_, fun b hb => ?_⟩
  · rw [hlanes k j hk hj, (hfg k j hk hj).1]
  · rw [hflags b hb, flagAfter, flagAfter]
    congr 1
    rw [Bool.eq_iff_iff, List.any_eq_true, List.any_eq_true]
    simp only [List.any_eq_true, List.mem_range]
    refine exists_congr fun k => and_congr_right fun hk => exists_congr fun j => and_congr_right fun hj => ?_
    rw [(hfg k j hk hj).2]

/-! ## Lanes as numbers of their width -/

theorem tyBits_le (ty : Ty) : tyBits ty ≤ 64 := by rcases tyBits_cases ty with h | h | h | h <;> omega

theorem setWidth_setWidth_64 {w : ℕ} (hw : w ≤ 64) (x : BitVec w) : (x.setWidth 64).setWidth w = x := by
  rw [BitVec.setWidth_setWidth_of_le _ hw, BitVec.setWidth_eq]

/-- A lane is its low bits, zero-extended. -/
theorem lane_eq_setWidth {w : ℕ} (hw : w ≤ 64) (v : VReg) (i : ℕ) : ((lane w v i).setWidth w).setWidth 64 = lane w v i := by
  rw [lane, setWidth_setWidth_64 hw]

/-- The second operand of a lane (09 R241). -/
theorem bLane_eq_setWidth {w : ℕ} (hw : w ≤ 64) (t : Task) (sc : Bool) (b : Reg) (k j : ℕ) :
    t.bLane sc w b k j = (if sc then (t.rx b).setWidth w else (lane w (t.rv k b) j).setWidth w).setWidth 64 := by
  cases sc with
  | true => rfl
  | false => exact (lane_eq_setWidth hw ..).symm

/-- The number of a lane by its type. -/
def bitsVal (ty : Ty) (x : BitVec (tyBits ty)) : ℤ := if ty.signed then x.toInt else x.toNat

theorem laneVal_setWidth (ty : Ty) (x : BitVec (tyBits ty)) : laneVal ty (x.setWidth 64) = bitsVal ty x := by
  unfold laneVal laneInt bitsVal
  rw [setWidth_setWidth_64 (tyBits_le ty)]

@[simp] theorem ofInt_bitsVal (ty : Ty) (x : BitVec (tyBits ty)) : BitVec.ofInt (tyBits ty) (bitsVal ty x) = x := by
  unfold bitsVal
  split
  · exact BitVec.ofInt_toInt
  · rw [BitVec.ofInt_natCast, BitVec.ofNat_toNat, BitVec.setWidth_eq]

/-- An instruction whose operation on lanes is `g` on numbers of their width. -/
theorem writesLanes_of_vecInt {i : Instr} {s : State} {t : Task} {op : Ty → Word → Word → Word → Word} {sc : Bool} {ty : Ty}
    {mask : SReg} {d a b c : Reg} (h : s.task? = some t) (he : exec i s = vecInt op sc ty mask d a b c s)
    (g : BitVec (tyBits ty) → BitVec (tyBits ty) → BitVec (tyBits ty) → BitVec (tyBits ty))
    (hop : ∀ x y z : BitVec (tyBits ty), (op ty (x.setWidth 64) (y.setWidth 64) (z.setWidth 64)).setWidth (tyBits ty) = g x y z) :
    writesLanes i s t (tyBits ty) mask d (fun k j => ((g ((lane (tyBits ty) (t.rv k a) j).setWidth (tyBits ty))
      (if sc then (t.rx b).setWidth (tyBits ty) else (lane (tyBits ty) (t.rv k b) j).setWidth (tyBits ty))
      ((lane (tyBits ty) (t.rv k c) j).setWidth (tyBits ty))).setWidth 64, 0)) 0 := by
  have hw := tyBits_le ty
  refine writesLanes_congr (writesLanes_of_mapLanes_zero he h (tyBits_cases ty) rfl) fun k j _ _ => ⟨?_, rfl⟩
  rw [bLane_eq_setWidth hw, ← lane_eq_setWidth hw (t.rv k a), ← lane_eq_setWidth hw (t.rv k c), setWidth_setWidth_64 hw,
    setWidth_setWidth_64 hw, hop, setWidth_setWidth_64 hw]

/-! ## The operations -/

section
variable {ty : Ty} (x y z : BitVec (tyBits ty))

theorem setWidth_exactLane (g : ℤ → ℤ → ℤ → ℤ) :
    (exactLane g ty (x.setWidth 64) (y.setWidth 64) (z.setWidth 64)).setWidth (tyBits ty) =
      BitVec.ofInt (tyBits ty) (g (bitsVal ty x) (bitsVal ty y) (bitsVal ty z)) := by
  rw [exactLane, setWidth_laneOf, laneVal_setWidth, laneVal_setWidth, laneVal_setWidth]

theorem setWidth_satLane (g : ℤ → ℤ → ℤ) :
    (satLane g ty (x.setWidth 64) (y.setWidth 64) (z.setWidth 64)).setWidth (tyBits ty) =
      BitVec.ofInt (tyBits ty) (max (tyLo ty) (min (tyHi ty) (g (bitsVal ty x) (bitsVal ty y)))) := by
  rw [satLane, setWidth_laneOf, laneVal_setWidth, laneVal_setWidth]

theorem ofInt_add_bitsVal : BitVec.ofInt (tyBits ty) (bitsVal ty x + bitsVal ty y) = x + y := by
  rw [BitVec.ofInt_add, ofInt_bitsVal, ofInt_bitsVal]

theorem ofInt_sub_bitsVal : BitVec.ofInt (tyBits ty) (bitsVal ty x - bitsVal ty y) = x - y := by
  rw [Int.sub_eq_add_neg, BitVec.ofInt_add, BitVec.ofInt_neg, ofInt_bitsVal, ofInt_bitsVal, BitVec.sub_eq_add_neg]

theorem ofInt_mul_bitsVal : BitVec.ofInt (tyBits ty) (bitsVal ty x * bitsVal ty y) = x * y := by
  rw [BitVec.ofInt_mul, ofInt_bitsVal, ofInt_bitsVal]

theorem ofInt_mulAdd_bitsVal : BitVec.ofInt (tyBits ty) (bitsVal ty x * bitsVal ty y + bitsVal ty z) = x * y + z := by
  rw [BitVec.ofInt_add, ofInt_mul_bitsVal, ofInt_bitsVal]

theorem ofInt_min_bitsVal :
    BitVec.ofInt (tyBits ty) (min (bitsVal ty x) (bitsVal ty y)) = if bitsVal ty x ≤ bitsVal ty y then x else y := by
  rw [min_def]
  split <;> exact ofInt_bitsVal ..

theorem ofInt_max_bitsVal :
    BitVec.ofInt (tyBits ty) (max (bitsVal ty x) (bitsVal ty y)) = if bitsVal ty x ≤ bitsVal ty y then y else x := by
  rw [max_def]
  split <;> exact ofInt_bitsVal ..

theorem ofInt_natAbs_bitsVal : BitVec.ofInt (tyBits ty) (bitsVal ty x).natAbs = if bitsVal ty x < 0 then -x else x := by
  split
  · next h => rw [Int.ofNat_natAbs_of_nonpos h.le, BitVec.ofInt_neg, ofInt_bitsVal]
  · next h => rw [Int.natAbs_of_nonneg (not_lt.mp h), ofInt_bitsVal]

/-- A shift amount is that of the lane's own bits. -/
theorem laneShift_setWidth : laneShift ty (y.setWidth 64) = y.toNat % tyBits ty := by
  rw [laneShift, BitVec.toNat_setWidth, Nat.mod_eq_of_lt (y.isLt.trans_le (Nat.pow_le_pow_right two_pos (tyBits_le ty)))]

theorem setWidth_shiftLeft_64 (n : ℕ) : (x.setWidth 64 <<< n).setWidth (tyBits ty) = x <<< n := by
  have hw := tyBits_le ty
  refine BitVec.eq_of_getLsbD_eq fun i hi => ?_
  simp only [BitVec.getLsbD_setWidth, BitVec.getLsbD_shiftLeft, hi, show i < 64 by omega, show i - n < 64 by omega, decide_true,
    Bool.true_and]

theorem setWidth_ushiftRight_64 (n : ℕ) : (x.setWidth 64 >>> n).setWidth (tyBits ty) = x >>> n := by
  have hw := tyBits_le ty
  refine BitVec.eq_of_getLsbD_eq fun i hi => ?_
  simp only [BitVec.getLsbD_setWidth, BitVec.getLsbD_ushiftRight, hi, decide_true, Bool.true_and]
  by_cases hn : n + i < 64
  · rw [decide_eq_true hn, Bool.true_and]
  · rw [decide_eq_false hn, Bool.false_and, BitVec.getLsbD_of_ge x _ (by omega)]

theorem setWidth_laneOf_sshiftRight (n : ℕ) :
    (laneOf (tyBits ty) (laneInt (tyBits ty) (x.setWidth 64) / (2 ^ n : ℕ))).setWidth (tyBits ty) = x.sshiftRight n := by
  rw [setWidth_laneOf, laneInt, setWidth_setWidth_64 (tyBits_le ty), BitVec.sshiftRight, Int.shiftRight_eq_div_pow]

end

/-- Settles O9: each operation on numbers of the lane's width. -/
theorem vectorIntegers : Obligations.VectorIntegers := by
  unfold Obligations.VectorIntegers
  intro s t sc ty mask d a b c h _ w x y z val lo hi gives
  have hw := tyBits_le ty
  refine ⟨?vadd, ?vsub, ?vadds, ?vsubs, ?vmul, ?vmulh, ?vmadd, ?vmin, ?vmax, ?vabs, ?vand, ?vor, ?vxor, ?vandn, ?vsll, ?vsrl, ?vsra⟩
  case vadd =>
    exact writesLanes_of_vecInt h (exec_vadd ..) (fun x y _ => x + y) fun x y z =>
      (setWidth_exactLane x y z _).trans (ofInt_add_bitsVal x y)
  case vsub =>
    exact writesLanes_of_vecInt h (exec_vsub ..) (fun x y _ => x - y) fun x y z =>
      (setWidth_exactLane x y z _).trans (ofInt_sub_bitsVal x y)
  case vadds =>
    exact writesLanes_of_vecInt h (exec_vadds ..)
      (fun x y _ => BitVec.ofInt _ (max (tyLo ty) (min (tyHi ty) (bitsVal ty x + bitsVal ty y)))) fun x y z => setWidth_satLane x y z _
  case vsubs =>
    exact writesLanes_of_vecInt h (exec_vsubs ..)
      (fun x y _ => BitVec.ofInt _ (max (tyLo ty) (min (tyHi ty) (bitsVal ty x - bitsVal ty y)))) fun x y z => setWidth_satLane x y z _
  case vmul =>
    exact writesLanes_of_vecInt h (exec_vmul ..) (fun x y _ => x * y) fun x y z =>
      (setWidth_exactLane x y z _).trans (ofInt_mul_bitsVal x y)
  case vmulh =>
    exact writesLanes_of_vecInt h (exec_vmulh ..) (fun x y _ => BitVec.ofInt _ (bitsVal ty x * bitsVal ty y / 2 ^ tyBits ty))
      fun x y z => (setWidth_exactLane x y z _).trans (by rw [Nat.cast_pow, Nat.cast_ofNat])
  case vmadd =>
    exact writesLanes_of_vecInt h (exec_vmadd ..) (fun x y z => x * y + z) fun x y z =>
      (setWidth_exactLane x y z _).trans (ofInt_mulAdd_bitsVal x y z)
  case vmin =>
    exact writesLanes_of_vecInt h (exec_vmin ..) (fun x y _ => if bitsVal ty x ≤ bitsVal ty y then x else y) fun x y z =>
      (setWidth_exactLane x y z _).trans (ofInt_min_bitsVal x y)
  case vmax =>
    exact writesLanes_of_vecInt h (exec_vmax ..) (fun x y _ => if bitsVal ty x ≤ bitsVal ty y then y else x) fun x y z =>
      (setWidth_exactLane x y z _).trans (ofInt_max_bitsVal x y)
  case vabs =>
    exact writesLanes_of_vecInt h (exec_vabs ..) (fun x _ _ => if bitsVal ty x < 0 then -x else x) fun x y z =>
      (setWidth_exactLane x y z _).trans (ofInt_natAbs_bitsVal x)
  case vand =>
    exact writesLanes_of_vecInt h (exec_vand ..) (fun x y _ => x &&& y) fun x y _ => by
      rw [BitVec.setWidth_and, setWidth_setWidth_64 hw, setWidth_setWidth_64 hw]
  case vor =>
    exact writesLanes_of_vecInt h (exec_vor ..) (fun x y _ => x ||| y) fun x y _ => by
      rw [BitVec.setWidth_or, setWidth_setWidth_64 hw, setWidth_setWidth_64 hw]
  case vxor =>
    exact writesLanes_of_vecInt h (exec_vxor ..) (fun x y _ => x ^^^ y) fun x y _ => by
      rw [BitVec.setWidth_xor, setWidth_setWidth_64 hw, setWidth_setWidth_64 hw]
  case vandn =>
    exact writesLanes_of_vecInt h (exec_vandn ..) (fun x y _ => x &&& ~~~y) fun x y _ => by
      rw [BitVec.setWidth_and, BitVec.setWidth_not hw, setWidth_setWidth_64 hw, setWidth_setWidth_64 hw]
  case vsll =>
    exact writesLanes_of_vecInt h (exec_vsll ..) (fun x y _ => x <<< (y.toNat % tyBits ty)) fun x y _ => by
      rw [laneShift_setWidth, setWidth_shiftLeft_64]
  case vsrl =>
    exact writesLanes_of_vecInt h (exec_vsrl ..) (fun x y _ => x >>> (y.toNat % tyBits ty)) fun x y _ => by
      rw [laneShift_setWidth, setWidth_ushiftRight_64]
  case vsra =>
    exact writesLanes_of_vecInt h (exec_vsra ..) (fun x y _ => x.sshiftRight (y.toNat % tyBits ty)) fun x y _ => by
      rw [laneShift_setWidth, setWidth_laneOf_sshiftRight]

end Sys2Proof.Machine
end

section
/-! PROOF. Compares and masks (09 R248, R249, R259), and permutes over all lanes of the clamp (09 R250, R259). -/

namespace Sys2Proof.Machine

/-! ## Instructions that write x[D] and flags, or masks alone -/

theorem Task.orFlags_zero (t : Task) : t.orFlags 0 = t := by simp [Task.orFlags]

theorem foldl_or_zero (l : List ℕ) (z : BitVec 5) : l.foldl (fun fl _ => fl ||| 0) z = z := by simp

/-- A scalar result with flags, where no rounding is counted. -/
theorem writesFloat_of_runRegs_zero {i : Instr} {s : State} {t : Task} {g : Task → Task} {d : Reg} {v : Word} {fl : BitVec 5}
    (he : exec i s = runRegs g s) (h : s.task? = some t) (hg : g t = (t.wx d v).orFlags fl) : writesFloat i s t d v fl 0 := by
  refine writesFloat_of_runRegs he h (hg.trans ?_)
  rw [Task.orFlags, Task.wx_eq]
  rfl

/-- An instruction that writes `v k` to m[e] of every member `k`, and raises nothing (09 R259). -/
theorem becomes_of_masks {i : Instr} {s : State} {t : Task} {g : Task → Task} {e : SReg} {v : ℕ → Word} (h : s.task? = some t)
    (he : exec i s = runRegs g s) (hg : g t = (List.range t.width).foldl (fun acc k => acc.wm k e (v k)) t) :
    ∃ t', becomes i s t' ∧ t' = { t with parts := t'.parts, pc := t.npc } ∧ t'.width = t.width ∧
      (∀ k r, t'.rv k r = t.rv k r) ∧ ∀ k r, k < t.width → t'.rm k r = if r = e then v k else t.rm k r := by
  obtain ⟨hframe, hwidth, hrv, hrm, hflags⟩ := t.fold_wm e v (fun _ => 0) t.width le_rfl
  have hbecomes := becomes_of_runRegs he h
  simp only [Task.orFlags_zero, foldl_or_zero] at hframe hwidth hrv hrm hflags
  rw [← hg] at hframe hwidth hrv hrm hflags
  refine ⟨_, hbecomes, ?_, hwidth, hrv, fun k r hk => (hrm k r).trans (by simp only [hk, true_and])⟩
  rw [hflags] at hframe
  conv_lhs => rw [hframe]
  rfl

theorem popcount_eq_sum (x : Word) :
    ((List.range 64).filter fun i => x.getLsbD i).length = ((List.range 64).map fun i => (x.getLsbD i).toNat).sum :=
  popc64_eq_sum x

/-- Settles O10: compares lane by lane, and mask operations member by member. -/
theorem comparesAndMasks : Obligations.ComparesAndMasks := by
  unfold Obligations.ComparesAndMasks
  intro s t cond ty fzi mask d a b e g h ht w F z x y val holds masks
  have hholds : holds = intCond cond := by
    funext p q
    cases cond with
    | ne => exact decide_not
    | eq | lt | le | gt | ge | un | ord => rfl
  obtain ⟨first, hfirst, hfirst64, hfirstZero, hfirstOne⟩ := find_range (fun i => (t.rm t.lead g).getLsbD i) 64
  refine ⟨fun _ => ⟨fun _ => ?vector, ?scalar⟩, fun _ => ?integers, becomes_of_masks ht (exec_mand ..) rfl,
    becomes_of_masks ht (exec_mor ..) rfl, becomes_of_masks ht (exec_mxor ..) rfl, becomes_of_masks ht (exec_mandn ..) rfl,
    becomes_of_masks ht (exec_mnot ..) rfl, becomes_of_masks ht (exec_mset ..) rfl, writesX_of_runRegs (exec_mget ..) ht rfl,
    writesX_of_runRegs (exec_mpopc ..) ht ?count, first, writesX_of_runRegs (exec_mfirst ..) ht ?search, hfirst64, hfirstZero,
    hfirstOne⟩
  case vector => exact writesMask_of_mapMask (exec_fcmp ..) ht (tyBits_cases ty) rfl
  case scalar => exact writesFloat_of_runRegs_zero (exec_fcmp ..) ht rfl
  case integers =>
    rw [hholds]
    exact writesMask_of_mapMask (exec_icmp ..) ht (tyBits_cases ty) rfl
  case count => rw [popcount_eq_sum]
  case search => rw [hfirst]

/-! ## All lanes of the clamp (09 R259) -/

/-- Lane `j` over the members of a clamp. -/
def Task.laneAt (t : Task) (w : ℕ) (r : Reg) (j : ℕ) : Word := lane w (t.rv (j / (512 / w)) r) (j % (512 / w))

/-- Members' lanes in order, as one range. -/
theorem flatMap_range_range {α : Type} (g : ℕ → ℕ → α) (l n : ℕ) :
    ((List.range n).flatMap fun k => (List.range l).map (g k)) = (List.range (n * l)).map fun j => g (j / l) (j % l) := by
  induction n with
  | zero => simp
  | succ n ih =>
    rw [List.range_succ, List.flatMap_append, ih, Nat.succ_mul, List.range_add, List.map_append, List.flatMap_singleton, List.map_map]
    refine congrArg _ (List.map_congr_left fun j hj => ?_)
    have hj : j < l := List.mem_range.mp hj
    have hdiv : (n * l + j) / l = n := by rw [Nat.mul_comm, Nat.mul_add_div (by omega), Nat.div_eq_of_lt hj, Nat.add_zero]
    have hmod : (n * l + j) % l = j := by rw [Nat.mul_comm, Nat.mul_add_mod, Nat.mod_eq_of_lt hj]
    rw [Function.comp_apply, hdiv, hmod]

section
variable (t : Task) (w : ℕ) (r : Reg)

theorem Task.allLanes_eq : t.allLanes w r = (List.range (t.laneCount w)).map (t.laneAt w r) :=
  flatMap_range_range (fun k => lane w (t.rv k r)) (512 / w) t.width

@[simp] theorem Task.length_allLanes : (t.allLanes w r).length = t.laneCount w := by rw [t.allLanes_eq, List.length_map, List.length_range]

variable {w}

theorem Task.laneAt_member (k : ℕ) {j : ℕ} (hj : j < 512 / w) : t.laneAt w r (512 / w * k + j) = lane w (t.rv k r) j := by
  rw [Task.laneAt, Nat.mul_add_div (by omega), Nat.div_eq_of_lt hj, Nat.add_zero, Nat.mul_add_mod, Nat.mod_eq_of_lt hj]

/-- A register of a member that there is not reads zero. -/
theorem Task.laneAt_of_ge {j : ℕ} (hw : 0 < 512 / w) (hj : t.laneCount w ≤ j) : t.laneAt w r j = 0 := by
  have hk : t.parts.length ≤ j / (512 / w) := (Nat.le_div_iff_mul_le hw).mpr hj
  have hv : t.rv (j / (512 / w)) r = 0 := by rw [Task.rv, List.getElem?_eq_none hk]
  rw [Task.laneAt, hv, lane]
  simp

theorem Task.getD_allLanes (hw : 0 < 512 / w) (j : ℕ) : (t.allLanes w r).getD j 0 = t.laneAt w r j := by
  rw [t.allLanes_eq, List.getD_eq_getElem?_getD, List.getElem?_map]
  by_cases hj : j < t.laneCount w
  · rw [List.getElem?_range hj]
    rfl
  · rw [List.getElem?_eq_none (by rw [List.length_range]; omega), t.laneAt_of_ge r hw (not_lt.mp hj)]
    rfl

/-- Lanes of two registers in a row, as VPERM sees them (09 Table 9.9). -/
theorem Task.getD_allLanes_append (r' : Reg) (hw : 0 < 512 / w) (j : ℕ) : (t.allLanes w r ++ t.allLanes w r').getD j 0 =
    if j < t.laneCount w then t.laneAt w r j else t.laneAt w r' (j - t.laneCount w) := by
  split
  · next hj => rw [List.getD_append _ _ _ _ (by rwa [t.length_allLanes]), t.getD_allLanes r hw]
  · next hj => rw [List.getD_append_right _ _ _ _ (by rw [t.length_allLanes]; omega), t.length_allLanes, t.getD_allLanes r' hw]

end

/-- What VPERM takes for lane `i`: the lane of v[A] and v[C] in a row that lane `i` of v[B] names (09 Table 9.9). -/
def Task.permLane (t : Task) (w : ℕ) (a b c : Reg) (i : ℕ) : Word :=
  let j := (t.laneAt w b i).toNat % (2 * t.laneCount w)
  if j < t.laneCount w then t.laneAt w a j else t.laneAt w c (j - t.laneCount w)

theorem laneCount_pos (ty : Ty) : 0 < 512 / tyBits ty := by rcases tyBits_cases ty with h | h | h | h <;> simp [h]

/-- An instruction that writes `f` of the lane's number over all lanes of the clamp, and raises nothing. -/
theorem writesLanes_of_laneNumber {i : Instr} {s : State} {t : Task} {g : Task → Task} {ty : Ty} {mask : SReg} {d : Reg}
    {f' : ℕ → ℕ → Word} {f : ℕ → Word} (h : s.task? = some t) (he : exec i s = runRegs g s)
    (hg : g t = t.mapLanes (tyBits ty) mask d fun k j => (f' k j, 0))
    (hf : ∀ k j, j < 512 / tyBits ty → f' k j = f (512 / tyBits ty * k + j)) :
    writesLanes i s t (tyBits ty) mask d (fun k j => (f (512 / tyBits ty * k + j), 0)) 0 :=
  writesLanes_congr (writesLanes_of_mapLanes_zero he h (tyBits_cases ty) hg) fun k j _ hj => by rw [hf k j hj]; exact ⟨rfl, rfl⟩

/-- Settles O11: each permute by the number of the lane over all members. -/
theorem permutes : Obligations.Permutes := by
  unfold Obligations.Permutes
  intro s t ty mask d a b c h _ w l n at' put
  have hl : 0 < 512 / tyBits ty := laneCount_pos ty
  refine ⟨?vbcast, ?vmov, ?vins, ?vperm, ?vext⟩
  case vbcast => exact writesLanes_of_laneNumber (f := fun _ => t.rx a) h (exec_vbcast ..) rfl fun k j _ => rfl
  case vmov => exact writesLanes_of_laneNumber (f := t.laneAt w a) h (exec_vmov ..) rfl fun k j hj => (t.laneAt_member a k hj).symm
  case vins =>
    refine writesLanes_of_laneNumber (f := fun j => if j = (t.rx b).toNat % n then t.rx a else t.laneAt w d j) h (exec_vins ..) rfl
      fun k j hj => ?_
    rw [t.laneAt_member d k hj]
    rfl
  case vperm =>
    refine writesLanes_of_laneNumber (f := t.permLane w a b c) h (exec_vperm ..) rfl fun k j hj => ?_
    rw [t.getD_allLanes_append a c hl, ← t.laneAt_member b k hj]
    rfl
  case vext =>
    refine writesX_of_runRegs (exec_vext ..) h (congrArg (t.wx d) ?_)
    rw [t.getD_allLanes a hl, extLane, Task.laneAt, lane_eq_setWidth (tyBits_le ty)]
    rfl

end Sys2Proof.Machine
end

section
/-! PROOF. Reductions (09 R251): float lanes by the tree itself, integer lanes by what no level of the tree changes. -/

namespace Sys2Proof.Machine

/-! ## Counting stochastic roundings (03 R91) -/

/-- A task whose count and mode are those of `t` counts as `t` does. -/
theorem Task.count_of_same {t u : Task} {rm : RM} (hsn : u.sn = t.sn) (hmode : u.mode rm = t.mode rm) :
    u.count rm = { u with sn := t.sn + if t.mode rm = .st then 1 else 0 } := by
  rw [← hsn, ← hmode, Task.count]
  split <;> rfl

section
variable (t : Task) (d : Reg) (v : Word) (fl : BitVec 5) (rm : RM)

theorem Task.sn_orFlags_wx : ((t.wx d v).orFlags fl).sn = t.sn := by rw [Task.orFlags, Task.wx_eq]

theorem Task.mode_orFlags_wx : ((t.wx d v).orFlags fl).mode rm = t.mode rm := by
  rw [Task.orFlags, Task.wx_eq]
  rfl

end

/-! ## Float reductions -/

theorem not_isInt_of_isIeee {ty : Ty} (h : ty.isIeee = true) : ¬ ty.isInt = true := by
  cases ty <;> simp_all [Ty.isIeee, Ty.isInt]

/-- Settles O13: the reduction of float lanes is the tree, and VRADD counts once. -/
theorem floatReductions : Obligations.FloatReductions := by
  unfold Obligations.FloatReductions
  intro s t ty f fzi mask d a h hty w F n leaves
  have hint := not_isInt_of_isIeee hty
  refine ⟨writesFloat_of_runRegs (exec_vradd ..) h ?_, writesFloat_of_runRegs_zero (exec_vrmin ..) h ?_,
    writesFloat_of_runRegs_zero (exec_vrmax ..) h ?_⟩
  · rw [if_neg hint]
    exact Task.count_of_same (t.sn_orFlags_wx ..) (t.mode_orFlags_wx ..)
  · rw [if_neg hint]
    rfl
  · rw [if_neg hint]
    rfl

/-! ## Levels of the tree -/

section
variable {α : Type} {op : α → α → ℕ → α × BitVec 5}

@[simp] theorem redLevel_nil (e : ℕ) : redLevel op e [] = ([], 0) := by rw [redLevel]; nofun

@[simp] theorem redLevel_singleton (e : ℕ) (x : Option α) : redLevel op e [x] = ([x], 0) := by rw [redLevel]; nofun

/-- A level takes its values in pairs, and the value of a pair is that of both or of the only one. -/
theorem redLevel_cons_cons (e : ℕ) (x y : Option α) (l : List (Option α)) :
    (redLevel op e (x :: y :: l)).1 = x.merge (fun a b => (op a b e).1) y :: (redLevel op (e + 1) l).1 := by
  cases x <;> cases y <;> rfl

theorem length_redLevel : ∀ (e : ℕ) (l : List (Option α)), (redLevel op e l).1.length = (l.length + 1) / 2
  | _, [] => by simp
  | _, [_] => by simp
  | e, x :: y :: l => by
    rw [redLevel_cons_cons, List.length_cons, length_redLevel (e + 1) l, List.length_cons, List.length_cons]
    omega

/-- A tree of at most one value. -/
theorem toList_join_head? {l : List (Option α)} (hl : l.length ≤ 1) : l.head?.join.toList = l.reduceOption := by
  match l, hl with
  | [], _ => rfl
  | [x], _ => exact (List.reduceOption_singleton x).symm

/-- What every level keeps of the values present holds of the tree's value, where there are levels enough. -/
theorem redTree_induction {P : List α → Prop} (hlevel : ∀ e l, P l.reduceOption → P (redLevel op e l).1.reduceOption) (L : ℕ)
    (fuel : ℕ) (l : List (Option α)) (fl : BitVec 5) (hl : l.length ≤ 2 ^ fuel) (hP : P l.reduceOption) :
    P (redTree op L fuel l fl).1.toList := by
  induction fuel generalizing l fl with
  | zero => rwa [redTree, toList_join_head? hl]
  | succ fuel ih =>
    rw [redTree]
    split
    · next hone => rwa [toList_join_head? hone]
    · refine ih _ _ ?_ (hlevel _ _ hP)
      rw [length_redLevel]
      rw [Nat.pow_succ] at hl
      omega

/-! ## What a level keeps -/

theorem reduceOption_cons (x : Option α) (l : List (Option α)) : (x :: l).reduceOption = x.toList ++ l.reduceOption := by
  cases x <;> rfl

/-- A level of sums keeps the sum. -/
theorem sum_redLevel [AddMonoid α] (hop : ∀ a b e, (op a b e).1 = a + b) :
    ∀ (e : ℕ) (l : List (Option α)), (redLevel op e l).1.reduceOption.sum = l.reduceOption.sum
  | _, [] => by rw [redLevel_nil]
  | _, [_] => by rw [redLevel_singleton]
  | e, x :: y :: l => by
    simp only [redLevel_cons_cons, reduceOption_cons, List.sum_append, sum_redLevel hop (e + 1) l, ← add_assoc]
    congr 1
    match x, y with
    | none, _ => simp
    | some _, none => simp
    | some a, some b => simp [hop]

/-- A level that picks one of two has no value of its own. -/
theorem mem_of_mem_redLevel (hop : ∀ a b e, (op a b e).1 = a ∨ (op a b e).1 = b) {v : α} :
    ∀ (e : ℕ) (l : List (Option α)), v ∈ (redLevel op e l).1.reduceOption → v ∈ l.reduceOption
  | _, [] => by rw [redLevel_nil]; exact id
  | _, [_] => by rw [redLevel_singleton]; exact id
  | e, x :: y :: l => by
    simp only [redLevel_cons_cons, reduceOption_cons, List.mem_append, ← or_assoc]
    refine Or.imp (fun hv => ?_) (mem_of_mem_redLevel hop (e + 1) l)
    rcases Option.merge_eq_or_eq (fun a b => hop a b e) x y with hx | hy
    · exact .inl (hx ▸ hv)
    · exact .inr (hy ▸ hv)

section
variable {r : α → α → Prop} (hrefl : ∀ a, r a a)
include hrefl

theorem exists_mem_merge {f : α → α → α} (hf : ∀ a b, r (f a b) a ∧ r (f a b) b) {x y : Option α} {v : α}
    (hv : v ∈ x.toList ∨ v ∈ y.toList) : ∃ u ∈ (x.merge f y).toList, r u v := by
  match x, y, hv with
  | none, _, .inr hv => exact ⟨v, by rwa [Option.merge_none_left], hrefl v⟩
  | some _, none, .inl hv => exact ⟨v, hv, hrefl v⟩
  | some a, some b, .inl hv => exact ⟨f a b, .head _, List.mem_singleton.mp hv ▸ (hf a b).1⟩
  | some a, some b, .inr hv => exact ⟨f a b, .head _, List.mem_singleton.mp hv ▸ (hf a b).2⟩

/-- Where the pick is at or below both, every value has one at or below it in the level. -/
theorem exists_mem_redLevel (hop : ∀ a b e, r (op a b e).1 a ∧ r (op a b e).1 b) {v : α} :
    ∀ (e : ℕ) (l : List (Option α)), v ∈ l.reduceOption → ∃ u ∈ (redLevel op e l).1.reduceOption, r u v
  | _, [] => by rw [redLevel_nil]; exact fun hv => ⟨v, hv, hrefl v⟩
  | _, [_] => by rw [redLevel_singleton]; exact fun hv => ⟨v, hv, hrefl v⟩
  | e, x :: y :: l => by
    simp only [redLevel_cons_cons, reduceOption_cons, List.mem_append, ← or_assoc]
    rintro (hv | hv)
    · obtain ⟨u, hu, huv⟩ := exists_mem_merge hrefl (fun a b => hop a b e) hv
      exact ⟨u, .inl hu, huv⟩
    · obtain ⟨u, hu, huv⟩ := exists_mem_redLevel hop (e + 1) l hv
      exact ⟨u, .inr hu, huv⟩

end

/-! ## The tree's value -/

variable (L : ℕ) {fuel : ℕ} {l : List (Option α)} (hl : l.length ≤ 2 ^ fuel) (fl : BitVec 5)
include hl

theorem redTree_sum [AddMonoid α] (hop : ∀ a b e, (op a b e).1 = a + b) :
    (redTree op L fuel l fl).1.getD 0 = l.reduceOption.sum := by
  have hsum := redTree_induction (P := fun m => m.sum = l.reduceOption.sum) (fun e m => (sum_redLevel hop e m).trans) L fuel l fl hl rfl
  rw [← hsum]
  cases (redTree op L fuel l fl).1 <;> simp

/-- The tree's value is one of the values, at or below every one of them; there is none where there are none. -/
theorem redTree_least {r : α → α → Prop} (hrefl : ∀ a, r a a) (htrans : ∀ a b c, r a b → r b c → r a c)
    (hop : ∀ a b e, (op a b e).1 = a ∨ (op a b e).1 = b) (hle : ∀ a b e, r (op a b e).1 a ∧ r (op a b e).1 b) (ident : α) :
    (∀ v ∈ l.reduceOption, r ((redTree op L fuel l fl).1.getD ident) v) ∧
      if l.reduceOption = [] then (redTree op L fuel l fl).1.getD ident = ident
      else (redTree op L fuel l fl).1.getD ident ∈ l.reduceOption := by
  have hmem : ∀ u ∈ (redTree op L fuel l fl).1.toList, u ∈ l.reduceOption :=
    redTree_induction (P := fun m => ∀ u ∈ m, u ∈ l.reduceOption)
      (fun e m hm u hu => hm u (mem_of_mem_redLevel hop e m hu)) L fuel l fl hl fun _ => id
  have hbelow : ∀ v ∈ l.reduceOption, ∃ u ∈ (redTree op L fuel l fl).1.toList, r u v := by
    refine redTree_induction (P := fun m => ∀ v ∈ l.reduceOption, ∃ u ∈ m, r u v) (fun e m hm v hv => ?_) L fuel l fl hl
      fun v hv => ⟨v, hv, hrefl v⟩
    obtain ⟨u, hu, huv⟩ := hm v hv
    obtain ⟨q, hq, hqu⟩ := exists_mem_redLevel hrefl hle e m hu
    exact ⟨q, hq, htrans _ _ _ hqu huv⟩
  generalize (redTree op L fuel l fl).1 = value at hmem hbelow
  cases value with
  | none =>
    have hnil : l.reduceOption = [] := List.eq_nil_iff_forall_not_mem.mpr fun v hv => by simpa using hbelow v hv
    simp [hnil]
  | some u =>
    have hu : u ∈ l.reduceOption := hmem u (by simp)
    rw [if_neg (List.ne_nil_of_mem hu)]
    exact ⟨fun v hv => by simpa using hbelow v hv, hu⟩

end

/-! ## Integer reductions -/

/-- A word as a number of its type's sign. -/
def wordVal (ty : Ty) (x : Word) : ℤ := if ty.signed then x.toInt else x.toNat

theorem wordVal_le_iff (ty : Ty) (x y : Word) :
    wordVal ty x ≤ wordVal ty y ↔ if ty.signed then x.toInt ≤ y.toInt else x.toNat ≤ y.toNat := by
  unfold wordVal
  split
  · rfl
  · exact Int.ofNat_le

theorem pickInt_eq (ty : Ty) (isMin : Bool) (x y : Word) :
    pickInt ty isMin x y = if decide (wordVal ty x ≤ wordVal ty y) = isMin then x else y := by
  unfold pickInt wordVal
  simp only [beq_iff_eq]
  cases ty.signed <;> simp

theorem pickInt_eq_or (ty : Ty) (isMin : Bool) (x y : Word) : pickInt ty isMin x y = x ∨ pickInt ty isMin x y = y := by
  rw [pickInt_eq]
  split
  · exact .inl rfl
  · exact .inr rfl

theorem wordVal_pickInt_min (ty : Ty) (x y : Word) : wordVal ty (pickInt ty true x y) = min (wordVal ty x) (wordVal ty y) := by
  rw [pickInt_eq, min_def, apply_ite (wordVal ty)]
  simp only [decide_eq_true_eq]

theorem wordVal_pickInt_max (ty : Ty) (x y : Word) : wordVal ty (pickInt ty false x y) = max (wordVal ty x) (wordVal ty y) := by
  rw [pickInt_eq, max_def, apply_ite (wordVal ty)]
  simp only [decide_eq_false_iff_not, ite_not]

/-- The lanes that take part, extended, over every member. -/
def Task.onLanes (t : Task) (ty : Ty) (mask : SReg) (a : Reg) : List Word :=
  (List.range t.width).flatMap fun k => ((List.range (512 / tyBits ty)).filter (t.on mask k)).map fun j =>
    extLane ty (lane (tyBits ty) (t.rv k a) j)

theorem reduceOption_map_ite {α β : Type} (p : α → Bool) (f : α → β) (l : List α) :
    (l.map fun x => if p x then some (f x) else none).reduceOption = (l.filter p).map f := by
  induction l with
  | nil => rfl
  | cons x l ih =>
    rw [List.map_cons, reduceOption_cons, ih, List.filter_cons]
    cases p x <;> simp

theorem reduceOption_flatMap {α β : Type} (f : α → List (Option β)) (l : List α) :
    (l.flatMap f).reduceOption = l.flatMap fun x => (f x).reduceOption := by
  induction l with
  | nil => rfl
  | cons x l ih => rw [List.flatMap_cons, List.flatMap_cons, List.reduceOption_append, ih]

theorem Task.redLanes_map (t : Task) {β : Type} (w : ℕ) (mask : SReg) (a : Reg) (f : Word → β) :
    (t.redLanes w mask a).map (Option.map f) = (List.range t.width).flatMap fun k => (List.range (512 / w)).map fun j =>
      if t.on mask k j then some (f (lane w (t.rv k a) j)) else none := by
  rw [Task.redLanes, List.map_flatMap]
  refine congrArg (fun g => (List.range t.width).flatMap g) (funext fun k => ?_)
  rw [lanes, zipIdx_map_range, List.map_map]
  refine List.map_congr_left fun j _ => ?_
  rw [Function.comp_apply, apply_ite (Option.map f)]
  rfl

theorem Task.reduceOption_redLanes (t : Task) (ty : Ty) (mask : SReg) (a : Reg) :
    ((t.redLanes (tyBits ty) mask a).map (Option.map (extLane ty))).reduceOption = t.onLanes ty mask a := by
  rw [Task.redLanes_map, reduceOption_flatMap]
  simp only [reduceOption_map_ite]
  rfl

/-- Ten levels are enough for the lanes of a clamp of eight. -/
theorem Task.length_redLanes_le {t : Task} {β : Type} (ty : Ty) (mask : SReg) (a : Reg) (f : Word → β) (hwidth : t.width ≤ 8) :
    ((t.redLanes (tyBits ty) mask a).map (Option.map f)).length ≤ 2 ^ 10 := by
  rw [Task.redLanes_map, flatMap_range_range (fun k j => if t.on mask k j then some (f (lane (tyBits ty) (t.rv k a) j)) else none),
    List.length_map, List.length_range]
  have hlanes : 512 / tyBits ty ≤ 64 := by rcases tyBits_cases ty with h | h | h | h <;> simp [h]
  calc t.width * (512 / tyBits ty) ≤ 8 * 64 := Nat.mul_le_mul hwidth hlanes
    _ ≤ 2 ^ 10 := by norm_num

/-- Settles O12: the sum, the least and the greatest are what every level of the tree keeps. -/
theorem integerReductions : Obligations.IntegerReductions := by
  unfold Obligations.IntegerReductions
  intro s t ty mask d a h hty hwidth w on le f
  have hwidth8 : t.width ≤ 8 := by
    simp only [List.mem_cons, List.not_mem_nil, or_false] at hwidth
    omega
  have hlen := Task.length_redLanes_le ty mask a (extLane ty) hwidth8
  have hon := t.reduceOption_redLanes ty mask a
  refine ⟨writesX_of_runRegs (exec_vradd ..) h ?sum, ⟨_, writesX_of_runRegs (exec_vrmin ..) h (if_pos hty), ?least⟩,
    ⟨_, writesX_of_runRegs (exec_vrmax ..) h (if_pos hty), ?greatest⟩⟩
  case sum =>
    rw [if_pos hty, Task.redInt, redTree_sum _ hlen _ fun _ _ _ => rfl, hon]
    rfl
  case least =>
    have hleast := redTree_least (op := fun x y _ => (pickInt ty true x y, 0)) (t.laneCount (tyBits ty)) hlen 0
      (r := fun x y => wordVal ty x ≤ wordVal ty y) (fun _ => le_rfl) (fun _ _ _ => le_trans) (fun x y _ => pickInt_eq_or ty true x y)
      (fun x y _ => wordVal_pickInt_min ty x y ▸ ⟨min_le_left .., min_le_right ..⟩) (BitVec.ofInt 64 (tyHi ty))
    rw [hon] at hleast
    exact hleast.imp_left fun hall v hv => (wordVal_le_iff ..).mp (hall v hv)
  case greatest =>
    have hgreatest := redTree_least (op := fun x y _ => (pickInt ty false x y, 0)) (t.laneCount (tyBits ty)) hlen 0
      (r := fun x y => wordVal ty y ≤ wordVal ty x) (fun _ => le_rfl) (fun _ _ _ hab hbc => hbc.trans hab)
      (fun x y _ => pickInt_eq_or ty false x y)
      (fun x y _ => wordVal_pickInt_max ty x y ▸ ⟨le_max_left .., le_max_right ..⟩) (BitVec.ofInt 64 (tyLo ty))
    rw [hon] at hgreatest
    exact hgreatest.imp_left fun hall v hv => (wordVal_le_iff ..).mp (hall v hv)

end Sys2Proof.Machine
end

section
/-! PROOF. Conversions between element types (09 R255, R256): a part of the lanes of each member's own register. -/

namespace Sys2Proof.Machine

/-! ## Counting where one of the types is floating -/

theorem Task.count_if_of_same {t u : Task} {rm : RM} (c : Bool) (hsn : u.sn = t.sn) (hmode : u.mode rm = t.mode rm) :
    (if c = true then u.count rm else u) = { u with sn := t.sn + t.rounds c rm } := by
  cases c with
  | false => rw [if_neg Bool.false_ne_true, Task.rounds, if_neg (fun h => Bool.false_ne_true h.1), Nat.add_zero, ← hsn]
  | true => rw [if_pos rfl, Task.count_of_same hsn hmode, Task.rounds]; simp only [true_and]

section
variable (t : Task) {w : ℕ} (hw : w = 8 ∨ w = 16 ∨ w = 32 ∨ w = 64) (mask : SReg) (d : Reg) (f : ℕ → ℕ → Word × BitVec 5)
include hw

theorem Task.sn_mapLanes : (t.mapLanes w mask d f).sn = t.sn := by
  obtain ⟨hframe, -⟩ := t.mapLanes_spec hw mask d f
  rw [hframe]

theorem Task.mode_mapLanes (rm : RM) : (t.mapLanes w mask d f).mode rm = t.mode rm := by
  obtain ⟨hframe, -⟩ := t.mapLanes_spec hw mask d f
  rw [hframe]
  rfl

end

/-! ## Parts (09 R256) -/

/-- The lanes of one part: as many as there are of the wider of the two types. -/
def partLanes (src dst : Ty) : ℕ := 512 / Nat.max (tyBits src) (tyBits dst)

/-- Whether lane `i` of the destination takes an element: every one where the lanes widen, else those of part `p`. -/
def convTakes (src dst : Ty) (p i : ℕ) : Bool :=
  decide (tyBits src < tyBits dst) || (decide (p * partLanes src dst ≤ i) && decide (i < p * partLanes src dst + partLanes src dst))

/-- The lane of the source that lane `i` of the destination takes. -/
def convFrom (src dst : Ty) (p i : ℕ) : ℕ := if tyBits src < tyBits dst then p * partLanes src dst + i else i - p * partLanes src dst

section
variable (src dst : Ty) (p i : ℕ)

theorem partLanes_eq : partLanes src dst = 64 / max src.bytes dst.bytes := by
  cases src <;> cases dst <;> rfl

theorem bytes_le_iff : dst.bytes ≤ src.bytes ↔ ¬ tyBits src < tyBits dst := by unfold tyBits; omega

theorem convTakes_eq : convTakes src dst p i = if dst.bytes ≤ src.bytes then
    decide (p * partLanes src dst ≤ i) && decide (i < p * partLanes src dst + partLanes src dst) else true := by
  unfold convTakes
  by_cases hw : tyBits src < tyBits dst <;> simp [bytes_le_iff, hw]

theorem convFrom_eq : convFrom src dst p i =
    if dst.bytes ≤ src.bytes then i - p * partLanes src dst else p * partLanes src dst + i := by
  unfold convFrom
  by_cases hw : tyBits src < tyBits dst <;> simp [bytes_le_iff, hw]

/-- A conversion of a part works lane by lane, and a lane outside the part keeps its value. -/
theorem Task.convLanes_eq (t : Task) (mask : SReg) (d a : Reg) (f : ℕ → Word → Word × BitVec 5) :
    t.convLanes src dst p mask d a f = t.mapLanes (tyBits dst) mask d fun k i =>
      if convTakes src dst p i then f (512 / tyBits dst * k + i) (lane (tyBits src) (t.rv k a) (convFrom src dst p i))
      else (lane (tyBits dst) (t.rv k d) i, 0) := by
  have hbits (ty : Ty) : 8 * ty.bytes = tyBits ty := rfl
  have hand (x y : Bool) (u v : Word × BitVec 5) : (if x && y then u else v) = if y then if x then u else v else v := by
    cases x <;> cases y <;> rfl
  unfold Task.convLanes Task.mapLanes lanes
  simp only [← partLanes_eq, zipIdx_map_range, hbits, ← convTakes_eq, ← convFrom_eq, hand]

end

/-- Settles O14: a conversion of a part is an operation on lanes, and a clamped lane is the type's own number. -/
theorem conversions : Obligations.Conversions := by
  unfold Obligations.Conversions
  intro s t src dst part f mask d a h sw dw n p takes elem old arg val clamp count
  refine ⟨fun _ => ?vector, fun _ => ?scalar, fun _ => ?vectorClamp, fun _ => ?scalarClamp⟩
  case vector =>
    refine writesLanes_of_mapLanes (exec_cvt ..) h (tyBits_cases dst) ?_
    rw [if_pos rfl, t.convLanes_eq]
    exact Task.count_if_of_same _ (t.sn_mapLanes (tyBits_cases dst) ..) (t.mode_mapLanes (tyBits_cases dst) ..)
  case scalar =>
    refine writesFloat_of_runRegs (exec_cvt ..) h ?_
    rw [if_neg Bool.false_ne_true]
    exact Task.count_if_of_same _ (t.sn_orFlags_wx ..) (t.mode_orFlags_wx ..)
  case vectorClamp =>
    exact writesLanes_of_mapLanes_zero (exec_cvts ..) h (tyBits_cases dst) ((if_pos rfl).trans (t.convLanes_eq ..))
  case scalarClamp =>
    refine writesX_of_runRegs (exec_cvts ..) h ((if_neg Bool.false_ne_true).trans (congrArg (t.wx d) ?_))
    unfold extLane
    split
    · rfl
    · exact congrArg (BitVec.setWidth 64) (setWidth_setWidth_64 (tyBits_le dst) _)

end Sys2Proof.Machine
end

section
/-! PROOF. Block conversions (09 R257 to R259): what a walk over the members leaves that writes one or two registers of each. -/

namespace Sys2Proof.Machine

/-! ## A walk over the members -/

/-- `u'` is `u` with the registers of member `k` that `v` gives, and with flags raised. -/
structure Task.MemberStep (u u' : Task) (k : ℕ) (v : Reg → Option VReg) (g : BitVec 5) : Prop where
  frame : u' = { u with parts := u'.parts, fstat := { u.fstat with flags := u.fstat.flags ||| g } }
  width : u'.width = u.width
  rm : ∀ k r, u'.rm k r = u.rm k r
  rv : ∀ k' r, u'.rv k' r = if k' = k then (v r).getD (u.rv k' r) else u.rv k' r

/-- `u` is `t` with the registers of the first `n` members that `v` gives, and with the flags of these members raised. -/
structure Task.MembersWritten (t u : Task) (n : ℕ) (v : ℕ → Reg → Option VReg) (g : ℕ → BitVec 5) : Prop where
  frame : u = { t with parts := u.parts, fstat := { t.fstat with flags := u.fstat.flags } }
  width : u.width = t.width
  rm : ∀ k r, u.rm k r = t.rm k r
  rv : ∀ k r, u.rv k r = if k < n then (v k r).getD (t.rv k r) else t.rv k r
  flags : ∀ b, u.fstat.flags.getLsbD b = (t.fstat.flags.getLsbD b || (List.range n).any fun k => (g k).getLsbD b)

section
variable {t : Task} {v : ℕ → Reg → Option VReg} {g : ℕ → BitVec 5}

theorem Task.MembersWritten.step {u u' : Task} {n : ℕ} (h : t.MembersWritten u n v g) (hs : u.MemberStep u' n (v n) (g n)) :
    t.MembersWritten u' (n + 1) v g where
  frame := by
    rw [hs.frame, h.frame]
  width := hs.width.trans h.width
  rm k r := (hs.rm k r).trans (h.rm k r)
  rv k r := by
    rw [hs.rv, h.rv]
    rcases Nat.lt_trichotomy k n with hk | rfl | hk
    · rw [if_neg hk.ne, if_pos hk, if_pos (by omega)]
    · rw [if_pos rfl, if_neg (lt_irrefl k), if_pos (by omega)]
    · rw [if_neg hk.ne', if_neg (by omega), if_neg (by omega)]
  flags b := by
    rw [hs.frame, List.range_succ, List.any_append]
    change (u.fstat.flags ||| g n).getLsbD b = _
    rw [BitVec.getLsbD_or, h.flags]
    simp [Bool.or_assoc]

/-- A walk whose every step writes one member. -/
theorem Task.membersWritten_foldl {f : Task → ℕ → Task} (hf : ∀ (u : Task) (k : ℕ), k < u.width → u.MemberStep (f u k) k (v k) (g k)) (n : ℕ)
    (hn : n ≤ t.width) : t.MembersWritten ((List.range n).foldl f t) n v g := by
  induction n with
  | zero => exact ⟨rfl, rfl, fun _ _ => rfl, fun _ _ => by simp, fun _ => by simp⟩
  | succ n ih =>
    have h := ih (by omega)
    rw [List.range_succ, List.foldl_append]
    exact h.step (hf _ n (by rw [h.width]; omega))

end

/-- One register of a member. -/
theorem Task.memberStep_wv (u : Task) {k : ℕ} (d : Reg) (x : VReg) (g : BitVec 5) (hk : k < u.width) :
    u.MemberStep ((u.wv k d x).orFlags g) k (fun r => if r = d then some x else none) g where
  frame := rfl
  width := by simp
  rm _ _ := by simp
  rv k' r := by
    rw [Task.rv_orFlags, u.rv_wv k k' d r x hk, ite_and]
    by_cases hr : r = d <;> simp [hr]

/-- Two registers of a member. -/
theorem Task.memberStep_wv_wv (u : Task) {k : ℕ} {d e : Reg} (hde : d ≠ e) (x y : VReg) (g : BitVec 5) (hk : k < u.width) :
    u.MemberStep (((u.wv k d x).wv k e y).orFlags g) k (fun r => if r = d then some x else if r = e then some y else none) g where
  frame := rfl
  width := by simp
  rm _ _ := by simp
  rv k' r := by
    rw [Task.rv_orFlags, Task.rv_wv _ k k' e r y (by simpa using hk), u.rv_wv k k' d r x hk]
    by_cases hd : r = d
    · simp [hd, hde]
    by_cases he : r = e
    · simp [he, hde.symm]
    · simp [hd, he]

theorem Task.membersWritten_wv (t : Task) (d : Reg) (x : ℕ → VReg) (g : ℕ → BitVec 5) :
    t.MembersWritten ((List.range t.width).foldl (fun u k => (u.wv k d (x k)).orFlags (g k)) t) t.width
      (fun k r => if r = d then some (x k) else none) g :=
  Task.membersWritten_foldl (fun u k hk => u.memberStep_wv d (x k) (g k) hk) t.width le_rfl

theorem Task.membersWritten_wv_wv (t : Task) {d e : Reg} (hde : d ≠ e) (x y : ℕ → VReg) (g : ℕ → BitVec 5) :
    t.MembersWritten ((List.range t.width).foldl (fun u k => ((u.wv k d (x k)).wv k e (y k)).orFlags (g k)) t) t.width
      (fun k r => if r = d then some (x k) else if r = e then some (y k) else none) g :=
  Task.membersWritten_foldl (fun u k hk => u.memberStep_wv_wv hde (x k) (y k) (g k) hk) t.width le_rfl

theorem Task.MembersWritten.x_eq {t u : Task} {n : ℕ} {v : ℕ → Reg → Option VReg} {g : ℕ → BitVec 5} (h : t.MembersWritten u n v g) :
    u.x = t.x := by rw [h.frame]

theorem Task.rx_congr {t u : Task} (h : t.x = u.x) (r : Reg) : t.rx r = u.rx r := by rw [Task.rx, h, Task.rx]

/-! ## Instructions that write registers of every member and count once -/

/-- What stays of the members, and their flags (09 R239, R259). -/
def Task.membersKept (t t' : Task) (fl : ℕ → BitVec 5) : Prop :=
  t'.width = t.width ∧ (∀ k r, t'.rm k r = t.rm k r) ∧ ∀ b, b < 5 → t'.fstat.flags.getLsbD b =
    (t.fstat.flags.getLsbD b || (List.range t.width).any fun k => (fl k).getLsbD b)

section
variable {i : Instr} {s : State} {t u : Task} {g : Task → Task} {rm : RM} {v : ℕ → Reg → Option VReg} {fl : ℕ → BitVec 5}
  (h : s.task? = some t) (he : exec i s = runRegs g s) (hu : t.MembersWritten u t.width v fl)
include h he hu

/-- What is left where x registers are written besides. -/
theorem becomes_of_membersWritten {u' : Task} (hg : g t = u'.count rm) (hu' : u' = { u with x := u'.x }) : ∃ t', becomes i s t' ∧
    t' = { t with
      x := u'.x, parts := t'.parts, fstat := { t.fstat with flags := t'.fstat.flags },
      sn := t.sn + if t.mode rm = .st then 1 else 0, pc := t.npc } ∧
    t.membersKept t' fl ∧ ∀ k r, k < t.width → t'.rv k r = (v k r).getD (t.rv k r) := by
  have hframe : u' = { t with x := u'.x, parts := u.parts, fstat := { t.fstat with flags := u.fstat.flags } } := by
    conv_lhs => rw [hu', hu.frame]
  have hcount : u'.count rm = { u' with sn := t.sn + if t.mode rm = .st then 1 else 0 } :=
    Task.count_of_same (by rw [hframe]) (by rw [hframe]; rfl)
  have hb := becomes_of_runRegs he h
  rw [hg, hcount, hframe] at hb
  exact ⟨_, hb, rfl, ⟨hu.width, hu.rm, fun b _ => hu.flags b⟩, fun k r hk => (hu.rv k r).trans (if_pos hk)⟩

/-- One that writes vector registers alone. -/
theorem becomes_of_membersWritten_count (hg : g t = u.count rm) : ∃ t', becomes i s t' ∧
    t' = { t with
      parts := t'.parts, fstat := { t.fstat with flags := t'.fstat.flags }, sn := t.sn + if t.mode rm = .st then 1 else 0,
      pc := t.npc } ∧
    t.membersKept t' fl ∧ ∀ k r, k < t.width → t'.rv k r = (v k r).getD (t.rv k r) := by
  obtain ⟨t', hb, hframe, hkept⟩ := becomes_of_membersWritten h he hu hg rfl
  have hx : u.x = t.x := by rw [hu.frame]
  rw [hx] at hframe
  exact ⟨t', hb, hframe, hkept⟩

/-- One that writes x[c] too. -/
theorem becomes_of_membersWritten_wx {c : Reg} {y : Word} (hg : g t = (u.wx c y).count rm) : ∃ t', becomes i s t' ∧
    t' = { t with
      x := t'.x, parts := t'.parts, fstat := { t.fstat with flags := t'.fstat.flags },
      sn := t.sn + if t.mode rm = .st then 1 else 0, pc := t.npc } ∧
    t.membersKept t' fl ∧ (∀ r, t'.rx r = if r = c ∧ c ≠ 31 then y else t.rx r) ∧
    ∀ k r, k < t.width → t'.rv k r = (v k r).getD (t.rv k r) := by
  obtain ⟨t', hb, hframe, hkept, hrv⟩ := becomes_of_membersWritten h he hu hg (u.wx_eq c y)
  have hx : t'.x = (u.wx c y).x := (congrArg Task.x hframe :)
  have hrx (r : Reg) : u.rx r = t.rx r := by
    rw [hu.frame]
    rfl
  refine ⟨t', hb, ?_, hkept, fun r => ?_, hrv⟩
  · rw [hx]
    exact hframe
  · rw [← hrx r, ← u.rx_wx, Task.rx, hx, Task.rx]

end

/-- The flags that a list of results raises. -/
def flagsOf (l : List (ℕ × BitVec 5)) : BitVec 5 := l.foldl (fun fl x => fl ||| x.2) 0

/-- Settles O15: each is a walk over the members that writes a register, or two, of each, and counts once. -/
theorem blockConversions : Obligations.BlockConversions := by
  unfold Obligations.BlockConversions
  intro s t src dst part mode rm fz d a c h p n after
  refine ⟨fun _ => ?pack, fun _ => ?unpack⟩
  case pack =>
    intro w xs draws block codes
    have hu := t.membersWritten_wv d (fun k => putBytes (t.rv k d) ((codes k).length * p) (codes k)) fun k => (block k).2.2
    obtain ⟨t', hb, hframe, hkept, hrx, hrv⟩ := becomes_of_membersWritten_wx (rm := rm) (c := c)
      (y := setFld (t.rx c) (8 * p + 7) (8 * p) (block t.lead).1) h (exec_cvtb ..) hu rfl
    refine ⟨t', hb, hframe, hkept, hrx, fun k r hk => (hrv k r hk).trans ?_⟩
    split <;> rfl
  case unpack =>
    intro nums r ls
    have hls (k : ℕ) : ((nums k).zipIdx.map fun (x : Num × ℕ) =>
      fres ((tyFmt dst).ofNum (t.env ⟨rm, false, fz, 0⟩ (32 * k + x.2)) x.1)).map (·.1) = ls k := by
      simp only [ls, r, List.map_map]
      rfl
    have hfl (k : ℕ) : ((nums k).zipIdx.map fun (x : Num × ℕ) =>
      fres ((tyFmt dst).ofNum (t.env ⟨rm, false, fz, 0⟩ (32 * k + x.2)) x.1)).foldl (fun fl x => fl ||| x.2) 0 = flagsOf (r k) := by
      simp only [flagsOf, r, List.foldl_map]
      rfl
    by_cases hdst : dst = .f32
    · have hu := t.membersWritten_wv_wv (show d ≠ d + 1 by simp) (fun k => ofLanes 32 ((ls k).take 16))
        (fun k => ofLanes 32 ((ls k).drop 16)) fun k => flagsOf (r k)
      obtain ⟨t', hb, hframe, hkept, hrv⟩ := becomes_of_membersWritten_count (rm := rm) h (exec_cvfb s src dst part rm fz d a c) hu
        (by simp only [← hls, ← hfl, if_pos hdst]; rfl)
      refine ⟨t', hb, hframe, hkept, fun k q hk => (hrv k q hk).trans ?_⟩
      rw [if_pos hdst]
      split
      · rfl
      · split <;> rfl
    · have hu := t.membersWritten_wv d (fun k => ofLanes 16 (ls k)) fun k => flagsOf (r k)
      obtain ⟨t', hb, hframe, hkept, hrv⟩ := becomes_of_membersWritten_count (rm := rm) h (exec_cvfb s src dst part rm fz d a c) hu
        (by simp only [← hls, ← hfl, if_neg hdst]; rfl)
      refine ⟨t', hb, hframe, hkept, fun k q hk => (hrv k q hk).trans ?_⟩
      rw [if_neg hdst]
      split <;> rfl

end Sys2Proof.Machine
end

section
/-! PROOF. The jig and the clamp (10 R261 to R265, R268, R269). -/

namespace Sys2Proof.Machine

/-! ## The list of body instructions (10 R262) -/

theorem bodyOk_iff (w : IWord) : bodyOk w = true ↔ opOf w = 0x15 ∨ opOf w = 0x16 ∨
    (opOf w = 0x17 ∧ (fnOf w = 0 ∨ fnOf w = 2 ∨ (0x10 ≤ fnOf w ∧ fnOf w ≤ 0x15))) ∨
    (opOf w = 0x18 ∧ (fnOf w = 0 ∨ (2 ≤ fnOf w ∧ fnOf w ≤ 4))) ∨ (opOf w = 0x19 ∧ 0x100 ≤ fnOf w) ∨
    (opOf w = 0x1A ∧ (fnOf w = 0x100 ∨ fnOf w = 0x101 ∨ fnOf w = 0x103)) ∨
    (opOf w = 0x1C ∧ (fnOf w / 16 = 2 ∨ fnOf w / 16 = 4)) := by
  unfold bodyOk
  split
  case h_8 =>
    refine iff_of_false Bool.false_ne_true ?_
    rintro (h | h | ⟨h, -⟩ | ⟨h, -⟩ | ⟨h, -⟩ | ⟨h, -⟩ | ⟨h, -⟩) <;> contradiction
  all_goals simp [*, or_assoc]

/-! ## Renamed registers (10 R263) -/

theorem Jig.reg_of_outside {j : Jig} {r : Reg} (k : ℕ) (h : r.toNat < j.wbase ∨ j.wbase + j.wsize ≤ r.toNat) : j.reg k r = r := by
  rw [Jig.reg, if_neg]
  simp only [Bool.and_eq_true, decide_eq_true_eq]
  omega

/-- A window that ends at v31 or before it holds its registers in every iteration. -/
theorem Jig.reg_toNat_of_window {j : Jig} {r : Reg} (k : ℕ) (hl : j.wbase ≤ r.toNat) (hr : r.toNat < j.wbase + j.wsize)
    (hw : j.wbase + j.wsize ≤ 32) : (j.reg k r).toNat = j.wbase + (r.toNat - j.wbase + k * j.step) % j.wsize := by
  have hlt : (r.toNat - j.wbase + k * j.step) % j.wsize < j.wsize := Nat.mod_lt _ (by omega)
  rw [Jig.reg, if_pos (by simp [hl, hr]), BitVec.toNat_ofNat, Nat.mod_eq_of_lt (by omega)]

/-- The renaming repeats with the size of the window. -/
theorem Jig.reg_mod (j : Jig) (k : ℕ) (r : Reg) : j.reg (k % j.wsize) r = j.reg k r := by
  have hmod : (r.toNat - j.wbase + k % j.wsize * j.step) % j.wsize = (r.toNat - j.wbase + k * j.step) % j.wsize :=
    ((Nat.mod_modEq k j.wsize).mul_right j.step).add_left (r.toNat - j.wbase)
  rw [Jig.reg, Jig.reg, hmod]

/-- A register that some iteration reaches is reached in one of the first 32. -/
theorem Jig.exists_reg_lt_min {j : Jig} (hw : j.wsize ≤ 32) (d v : Reg) :
    (∃ k, k < min j.n 32 ∧ j.reg k d = v) ↔ ∃ k, k < j.n ∧ j.reg k d = v := by
  refine ⟨fun ⟨k, hk, e⟩ => ⟨k, by omega, e⟩, fun ⟨k, hk, e⟩ => ?_⟩
  by_cases hz : j.wsize = 0
  · refine ⟨0, by omega, ?_⟩
    rw [← e, Jig.reg_of_outside 0 (by omega), Jig.reg_of_outside k (by omega)]
  · have hlt : k % j.wsize < j.wsize := Nat.mod_lt _ (by omega)
    have hle : k % j.wsize ≤ k := Nat.mod_le ..
    exact ⟨k % j.wsize, by omega, (j.reg_mod k d).trans e⟩

/-- Only CVFB to f32 writes a second register (09 R258), which is past v31 where its renamed one is v31. -/
theorem secondOver_iff {j : Jig} (hw : j.wsize ≤ 32) (i : Instr) : secondOver j i = true ↔
    ∃ src part rm z d a c, i = .cvfb src .f32 part rm z d a c ∧ ∃ k, k < j.n ∧ j.reg k d = 31 := by
  unfold secondOver
  split
  next src dst part rm z d a c =>
    simp only [Bool.and_eq_true, beq_iff_eq, List.any_eq_true, List.mem_range, Jig.exists_reg_lt_min hw]
    constructor
    · rintro ⟨rfl, hk⟩
      exact ⟨src, part, rm, z, d, a, c, rfl, hk⟩
    · rintro ⟨_, _, _, _, _, _, _, ⟨⟩, hk⟩
      exact ⟨rfl, hk⟩
  next hne =>
    refine iff_of_false Bool.false_ne_true ?_
    rintro ⟨src, part, rm, z, d, a, c, rfl, -⟩
    exact hne _ _ _ _ _ _ _ _ rfl

/-! ## The body (10 R262) -/

section
variable {t : Task} {j : Jig} {m : ℕ} {va after : VAddr} {body : List VAddr} {s s1 s2 s3 : State} {w : IWord} {f : Fetched}
  (hw : fetchWord t va s = .ok w s1)
include hw

theorem jigBody_unlisted (hb : bodyOk w = false) : jigBody t j (m + 1) va s = .error (.flt { cause := .jigBad }) s1 := by
  rw [jigBody, bind_ok hw, bind_error (need_error _ _ s1 hb)]

variable (hb : bodyOk w = true) (hf : fetchInstr t va s1 = .ok f s2)
include hb hf

theorem jigBody_secondOver (ho : secondOver j f.i = true) :
    jigBody t j (m + 1) va s = .error (.flt { cause := .jigBad }) s2 := by
  rw [jigBody, bind_ok hw, bind_ok (need_ok _ _ s1 hb), bind_ok hf, bind_error (need_error _ _ s2 (by simp [ho]))]

theorem jigBody_cons (ho : secondOver j f.i = false) (hr : jigBody t j m (va + BitVec.ofNat 56 f.len) s2 = .ok (body, after) s3) :
    jigBody t j (m + 1) va s = .ok (va :: body, after) s3 := by
  rw [jigBody, bind_ok hw, bind_ok (need_ok _ _ s1 hb), bind_ok hf, bind_ok (need_ok _ _ s2 (by simp [ho])), bind_ok hr]
  rfl

end

/-! ## JIG (10 R261 to R263) -/

/-- The jig that JIG of `t` opens, before its body is read. -/
def jigOf (t : Task) (n : ℕ) (jstep wbase : BitVec 5) (wsize : BitVec 6) (ast : BitVec 8) : Jig := {
  start := t.pc + 12, after := t.pc + 12, body := [], k := 0, n, idx := 0, step := jstep.toNat, wbase := wbase.toNat,
  wsize := wsize.toNat, stride := ast.toNat }

section
variable {s s1 : State} {t : Task} {a : Reg} {bodym1 : BitVec 4} {jstep wbase : BitVec 5} {wsize : BitVec 6} {ast : BitVec 8}
  (ht : s.task? = some t)
include ht

theorem traps_jig_of_count (hn : 65536 < (t.rx a).toNat) : traps (.jig a bodym1 jstep wbase wsize ast) s { cause := .jigBad } :=
  traps_of_runTask (exec_jig ..) ht (bind_error (need_error _ _ s (decide_eq_false (Nat.not_le.mpr hn))))

variable (hn : (t.rx a).toNat ≤ 65536)
include hn

theorem exec_jig_of_body_error {e : Stop}
    (hb : jigBody t (jigOf t (t.rx a).toNat jstep wbase wsize ast) (bodym1.toNat + 1) (t.pc + 12) s = .error e s1) :
    exec (.jig a bodym1 jstep wbase wsize ast) s = .next (s.stopped s1 s.cur e) :=
  runTask_error ht ((bind_ok (need_ok _ _ s (decide_eq_true hn))).trans (bind_error hb))

theorem exec_jig_of_body {t1 : Task} {body : List VAddr} {after : VAddr} (h1 : s1.task? = some t1)
    (hb : jigBody t (jigOf t (t.rx a).toNat jstep wbase wsize ast) (bodym1.toNat + 1) (t.pc + 12) s = .ok (body, after) s1) :
    exec (.jig a bodym1 jstep wbase wsize ast) s = .next (s1.setTask (if (t.rx a).toNat = 0 then { t1 with npc := after, pc := after }
      else { t1 with
        npc := t.pc + 12, pc := t.pc + 12, jig := some { jigOf t (t.rx a).toNat jstep wbase wsize ast with body, after } })) := by
  refine (runTask_ok ht ((bind_ok (need_ok _ _ s (decide_eq_true hn))).trans ((bind_ok hb).trans (modTask_ok h1 _)))).trans ?_
  rw [State.advance_setTask h1, Task.step]
  split <;> rfl

end

/-! ## The iterations (10 R263) -/

section
variable {t : Task} {j : Jig} (h : t.jig = some j)
include h

theorem Task.jigIssue_of_more (hi : j.idx < j.n * j.body.length) : t.jigIssue = { t with
    jig := some { j with idx := j.idx + 1, k := j.idx / j.body.length }, jigOff := 64 * j.stride * (j.idx / j.body.length) } := by
  simp only [Task.jigIssue, h, if_neg (Nat.not_le.mpr hi)]

theorem Task.jigIssue_of_done (hi : j.n * j.body.length ≤ j.idx) : t.jigIssue = { t with jig := none, jigOff := 0 } := by
  simp only [Task.jigIssue, h, if_pos hi]

theorem Task.issued_of_jig (i : Instr) : t.issued i = renameVec (j.reg j.k) i := by
  simp only [Task.issued, h]

end

/-- Settles O41: JIG by the outcome of its checks, its body instruction by instruction, and its iterations by what is left of them. -/
theorem jigAndClamp : Obligations.JigAndClamp := by
  unfold Obligations.JigAndClamp
  intro s s1 s2 s3 t t1 a d r bodym1 jstep wbase wsize ast body after va j i w0 f m ht h1 n start j0 w
  refine ⟨?count, ?stops, ?unlisted, ?secondTraps, ?cons, ?list, ?secondIff, ?opens,
    ?more, ?done, ?issued, ?window, ?outside, ?unclamp, ?clw⟩
  case count => exact traps_jig_of_count ht
  case stops => exact fun e hn hb => exec_jig_of_body_error ht hn hb
  case unlisted => exact jigBody_unlisted
  case secondTraps => exact jigBody_secondOver
  case cons => exact jigBody_cons
  case list => exact bodyOk_iff w0
  case secondIff => exact fun hw => secondOver_iff hw i
  case opens => exact fun hn hb => exec_jig_of_body ht hn h1 hb
  case more => exact Task.jigIssue_of_more
  case done => exact Task.jigIssue_of_done
  case issued => exact fun h => Task.issued_of_jig h i
  case window => exact Jig.reg_toNat_of_window j.k
  case outside => exact Jig.reg_of_outside j.k
  case unclamp => exact becomes_of_runRegs (exec_unclamp s) ht
  case clw => exact writesX_of_runRegs (exec_clw s d) ht rfl

end Sys2Proof.Machine
end

section
/-! PROOF. Matrix and ensemble commands are checked, charged and held (11 R280 to R282, R288 to R292, 12 R300 to R303, 13 R315). -/

namespace Sys2Proof.Machine

/-! ## The core that runs now, changed -/

section
variable {s : State} {k k' : Core} (hk : s.core? s.cur = some k)
include hk

theorem State.task?_withCore {t : Task} (ht : s.task? = some t) (h : k'.task = k.task) : (s.withCore k').task? = some t := by
  obtain ⟨k₀, hk₀, htask⟩ := State.core_of_task ht
  obtain rfl : k₀ = k := Option.some.inj (hk₀.symm.trans hk)
  rw [State.task?, State.withCore, State.setCore_cur, State.core?_setCore, if_pos rfl]
  exact h.trans htask

theorem State.det_withCore (h : k'.inst = k.inst) : (s.withCore k').det = s.det := by
  simp only [State.det, State.withCore, State.setCore_cur, State.core?_setCore, if_true, hk, Option.bind_some, h]
  rfl

theorem modCore_ok (f : Core → Core) : modCore f s = .ok () (s.withCore (f k)) :=
  (modify_ok ..).trans (by rw [State.onCore, hk]; rfl)

end

/-! ## A command is held (11 R280 to R282) -/

/-- The machine once the core that runs now has given one of its matrix credits. -/
def State.mxCharged (s : State) (k : Core) : State := s.withCore { k with mxcreds := k.mxcreds - 1 }

/-- The effect of a command that a task issues: with the launch, the core, the issuer and the count of roundings of that moment. -/
def mxEff (s : State) (k : Core) (t : Task) (cmd : MxCmd) : Eff :=
  .mx { cmd with inst := k.inst, core := s.cur, who := issuer k t t.qn, n := t.sn }

section
variable {s : State} {t : Task} {k : Core} (hk : s.core? s.cur = some k) {ok : Bool} {cmd : MxCmd} {ws : List Word}
include hk

theorem takeMxCredit_ok : modCore (fun k => { k with mxcreds := k.mxcreds - 1 }) s = .ok () (s.mxCharged k) := modCore_ok hk _

theorem holdMx_absent (hu : ¬ hasUnit s k = true) : holdMx ok cmd ws t s = .error (.flt { cause := .mxAbsent }) s := by
  rw [holdMx, bind_ok (get_ok s), bind_ok (getCore_ok hk)]
  exact bind_error (need_error _ _ s (Bool.eq_false_iff.mpr hu))

variable (hu : hasUnit s k = true)
include hu

theorem holdMx_bad (ho : (ok && compOk cmd.comp) = false) : holdMx ok cmd ws t s = .error (.flt { cause := .badMxcmd }) s := by
  rw [holdMx, bind_ok (get_ok s), bind_ok (getCore_ok hk), bind_ok (need_ok _ _ s hu)]
  exact bind_error (need_error _ _ s ho)

variable (ho : (ok && compOk cmd.comp) = true)
include ho

theorem holdMx_full (hc : k.mxcreds = 0) : holdMx ok cmd ws t s = .error (.flt { cause := .mxqFull }) s := by
  rw [holdMx, bind_ok (get_ok s), bind_ok (getCore_ok hk), bind_ok (need_ok _ _ s hu), bind_ok (need_ok _ _ s ho)]
  exact bind_error (need_error _ _ s (decide_eq_false (not_not_intro hc)))

theorem holdMx_ok (ht : s.task? = some t) (hc : k.mxcreds ≠ 0) (hm : msgEntries t.sluice < 32) : holdMx ok cmd ws t s =
    .ok () ((s.mxCharged k).setTask (t.withEffects s.det [mxEff s k t cmd] 1 ws)) := by
  have ht' : (s.mxCharged k).task? = some t := State.task?_withCore hk ht rfl
  have hdet : (s.mxCharged k).det = s.det := State.det_withCore hk rfl
  rw [holdMx, bind_ok (get_ok s), bind_ok (getCore_ok hk), bind_ok (need_ok _ _ s hu), bind_ok (need_ok _ _ s ho),
    bind_ok (need_ok _ _ s (decide_eq_true hc)), bind_ok (needMsg_ok s hm), bind_ok (takeMxCredit_ok hk),
    bind_ok (countEff_effect ht' s.det), bind_ok (hold_withEffects ht' ..), ← hdet]
  exact fold_withEffects ht' ..

end

/-! ## An instruction that issues a command -/

/-- What an instruction that issues `cmd` does: its checks in their order, where `ok` is the rule's for its operands; past them the core
is charged, and the task holds the command, folds `ws` and counts `n` roundings. -/
def issuesMx (i : Instr) (s : State) (k : Core) (t : Task) (ok : Prop) (cmd : MxCmd) (ws : List Word) (n : Nat) : Prop :=
  (¬ hasUnit s k = true → traps i s { cause := .mxAbsent }) ∧
  (hasUnit s k = true → ¬ (ok ∧ compOk cmd.comp = true) → traps i s { cause := .badMxcmd }) ∧
  (hasUnit s k = true → ok → compOk cmd.comp = true → k.mxcreds = 0 → traps i s { cause := .mxqFull }) ∧
  (hasUnit s k = true → ok → compOk cmd.comp = true → k.mxcreds ≠ 0 → msgEntries t.sluice < 32 →
    exec i s = .next ((s.mxCharged k).setTask { t.issuing s.det [mxEff s k t cmd] 1 ws with sn := t.sn + n }))

section
variable {s : State} {t : Task} {k : Core} (ht : s.task? = some t) (hk : s.core? s.cur = some k)
  {i : Instr} {f : Task → M Unit} (he : exec i s = runTask f s) {okb : Bool} {cmd : MxCmd} {ws : List Word} {ok : Prop}
  (hok : okb = true ↔ ok)
include ht hk he hok

/-- An instruction that holds a command, and then does `g`, which counts `n` roundings. -/
theorem issuesMx_of_holdMx_bind {g : M Unit} {n : Nat} (hf : f t = (do holdMx okb cmd ws t; g))
    (hg : ∀ es, g ((s.mxCharged k).setTask (t.withEffects s.det es 1 ws)) =
      .ok () ((s.mxCharged k).setTask { t.withEffects s.det es 1 ws with sn := t.sn + n })) :
    issuesMx i s k t ok cmd ws n := by
  have hcheck : (okb && compOk cmd.comp) = true ↔ ok ∧ compOk cmd.comp = true := by rw [Bool.and_eq_true, hok]
  have htraps {c : Cause} (h : holdMx okb cmd ws t s = .error (.flt { cause := c }) s) : traps i s { cause := c } :=
    traps_of_runTask he ht (by rw [hf, bind_error h])
  refine ⟨fun hu => htraps (holdMx_absent hk hu), fun hu hbad => htraps (holdMx_bad hk hu ?bad),
    fun hu ho hcomp hc => htraps (holdMx_full hk hu (hcheck.mpr ⟨ho, hcomp⟩) hc), fun hu ho hcomp hc hm => ?held⟩
  case bad => exact Bool.eq_false_iff.mpr (mt hcheck.mp hbad)
  case held =>
    rw [he]
    refine runTask_setTask (u := { t.withEffects s.det [mxEff s k t cmd] 1 ws with sn := t.sn + n }) ht
      (State.task?_withCore hk ht rfl) ?_
    rw [hf, bind_ok (holdMx_ok hk hu (hcheck.mpr ⟨ho, hcomp⟩) ht hc hm), hg]

/-- An instruction that holds a command, and counts nothing. -/
theorem issuesMx_of_holdMx (hf : f t = holdMx okb cmd ws t) : issuesMx i s k t ok cmd ws 0 :=
  issuesMx_of_holdMx_bind ht hk he hok (g := pure ()) (hf.trans (bind_pure _).symm) fun _ => rfl

/-- An instruction that holds a command, and counts where it rounds stochastically (11 R276). -/
theorem issuesMx_of_holdMx_count {rm : RM} (hf : f t = (do holdMx okb cmd ws t; modTask fun t => t.count rm)) :
    issuesMx i s k t ok cmd ws (if t.mode rm = .st then 1 else 0) := by
  refine issuesMx_of_holdMx_bind ht hk he hok hf fun es => ?_
  have ht' : (s.mxCharged k).task? = some t := State.task?_withCore hk ht rfl
  rw [modTask_ok (State.task?_setTask ht' _), State.setTask_setTask ht', Task.count_of_same (u := t.withEffects s.det es 1 ws) (t := t) rfl rfl]

end

/-! ## Operands (11 R280, R288, R289; 12 R301, R303) -/

theorem off64_iff (w : Word) : off64 w = true ↔ w.toNat % 64 = 0 := beq_iff_eq

/-- The operands of MMA, MMAZ and MMAG: lines of the scratchpad, and 1 to 256 rows. -/
theorem mmaOk_iff (d a e : Word) (m : Nat) : (off64 d && off64 a && off64 e && decide (1 ≤ m) && decide (m ≤ 256)) = true ↔
    d.toNat % 64 = 0 ∧ a.toNat % 64 = 0 ∧ e.toNat % 64 = 0 ∧ 1 ≤ m ∧ m ≤ 256 := by
  simp only [Bool.and_eq_true, off64_iff, decide_eq_true_eq, and_assoc]

/-- MMA and MMAZ have no E operand. -/
theorem mmaOk_zero_iff (d a : Word) (m : Nat) : (off64 d && off64 a && off64 0 && decide (1 ≤ m) && decide (m ≤ 256)) = true ↔
    d.toNat % 64 = 0 ∧ a.toNat % 64 = 0 ∧ 1 ≤ m ∧ m ≤ 256 := by
  rw [mmaOk_iff]
  simp only [show (0 : Word).toNat % 64 = 0 from rfl, true_and]

theorem mlbeOk_iff (a e : Word) : (off64 a && fld e 15 0 == 0) = true ↔ a.toNat % 64 = 0 ∧ fld e 15 0 = 0 := by
  simp only [Bool.and_eq_true, off64_iff, beq_iff_eq]

theorem noiseOk_iff (v : BitVec 2) (a b e : Word) : ((v == 0 || off64 a) && off64 b && fld e 15 0 == 0) = true ↔
    (v = 0 ∨ a.toNat % 64 = 0) ∧ b.toNat % 64 = 0 ∧ fld e 15 0 = 0 := by
  simp only [Bool.and_eq_true, Bool.or_eq_true, off64_iff, beq_iff_eq, and_assoc]

/-- Settles O34: each instruction is the one issue of a command, under the operands that its rule allows. -/
theorem matrixCommands : Obligations.MatrixCommands := by
  unfold Obligations.MatrixCommands
  intro s t k bs v ty rm fzi fzo mean d a b c e n0 cnt ht hk has holds al low m rnd st mm ws desc
  refine ⟨?mma, ?mmaz, ?mmag, ?bld, ?bfree, ?route, ?mlbe, ?noise⟩
  case mma => exact (issuesMx_of_holdMx_count ht hk (exec_mma s bs ty rm fzi fzo d a b c) (mmaOk_zero_iff ..) rfl :)
  case mmaz => exact (issuesMx_of_holdMx_count ht hk (exec_mmaz s bs ty rm fzi fzo d a b c) (mmaOk_zero_iff ..) rfl :)
  case mmag => exact (issuesMx_of_holdMx_count ht hk (exec_mmag s bs ty rm fzi fzo d a b c e) (mmaOk_iff ..) rfl :)
  case bld => exact (issuesMx_of_holdMx ht hk (exec_bld s bs ty fzi a c) (off64_iff _) rfl :)
  case bfree => exact (issuesMx_of_holdMx ht hk (exec_bfree s bs c) (iff_of_true rfl trivial) rfl :)
  case route => exact (issuesMx_of_holdMx ht hk (exec_route s b c) Iff.rfl rfl :)
  case mlbe => exact (issuesMx_of_holdMx ht hk (exec_mlbe s bs mean d a c e) (mlbeOk_iff ..) rfl :)
  case noise => exact (issuesMx_of_holdMx ht hk (exec_noise s v d a b c e n0 cnt) (noiseOk_iff ..) rfl :)

end Sys2Proof.Machine
end
